-- ==== Sys2Proof/Word.lean ====
section
/-!
DEFINITION. Word types: the 32-bit lane value, the 64-bit scalar, the 96-bit instruction word, byte, and the plainest
arithmetic on them.
-/
namespace Sys2Proof

/-- The value of one lane of one V register (R138). -/
abbrev Word32 := BitVec 32
/-- The value of one S register (R127). -/
abbrev Word64 := BitVec 64
/-- One instruction (R73). -/
abbrev Word96 := BitVec 96
/-- One byte of memory. -/
abbrev Byte := BitVec 8
/-- A virtual or instruction address: 54 bits (R74, R199). -/
abbrev Addr54 := BitVec 54

/-- The pattern that a read of a dead register returns (R141). -/
def poison : Word32 := 0xFFBADBAD#32

end Sys2Proof
end

