-- ==== Sys2Proof/Machine/Cipher.lean ====
section
/-!
DEFINITION. AES-256-XTS on the 128-byte unit (R336): what a line written under one key reads as under another. Bytes are numbers
below 256. How a key number is laid out in its 64 bytes, and the tweak in its 16, the spec leaves to the standard it names: both
little-endian, the data key first (log entry 13).
-/
namespace Sys2Proof.Machine.Cipher

/-- Times x in the field of 256 elements. -/
def xtime (b : Nat) : Nat := if b < 128 then 2 * b else (2 * b) ^^^ 0x11B

/-- The product of two field elements, over the low `n` bits of the second. -/
def gmul : Nat → Nat → Nat → Nat
  | 0, _, _ => 0
  | n + 1, a, b => (if b % 2 = 1 then a else 0) ^^^ gmul n (xtime a) (b / 2)

/-- The inverse (0 for 0): the 254th power, as the product of the squares that make it. -/
def ginv (a : Nat) : Nat :=
  ((List.range 7).foldl (fun (r : Nat × Nat) _ => let p := gmul 8 r.1 r.1; (p, gmul 8 r.2 p)) (a, 1)).2

def rotl8 (b n : Nat) : Nat := (b * 2 ^ n) % 256 + b / 2 ^ (8 - n)

def sbox (a : Nat) : Nat :=
  let b := ginv a
  b ^^^ rotl8 b 1 ^^^ rotl8 b 2 ^^^ rotl8 b 3 ^^^ rotl8 b 4 ^^^ 0x63

def invSbox (a : Nat) : Nat := ginv (rotl8 a 1 ^^^ rotl8 a 3 ^^^ rotl8 a 6 ^^^ 0x05)

def xorL (a b : List Nat) : List Nat := List.zipWith (fun x y => x ^^^ y) a b

/-- Rows of the state, held by columns: row r moves by r columns. -/
def shiftRows (l : List Nat) : List Nat := (List.range 16).map fun i => l.getD ((i + 4 * (i % 4)) % 16) 0
def invShiftRows (l : List Nat) : List Nat := (List.range 16).map fun i => l.getD ((i + 12 * (i % 4)) % 16) 0

/-- Every column times a circulant matrix with first row `m`. -/
def mixColumns (m l : List Nat) : List Nat :=
  (List.range 16).map fun i => (List.range 4).foldl (fun x k =>
    x ^^^ gmul 8 (l.getD (i / 4 * 4 + k) 0) (m.getD ((k + 4 - i % 4) % 4) 0)) 0

def rcon : Nat → Nat
  | 0 => 1
  | n + 1 => xtime (rcon n)

/-- The 60 words of the key schedule of a 32-byte key. -/
def schedule (key : List Nat) : List (List Nat) :=
  (List.range 52).foldl (fun ws j =>
    let i := j + 8
    let t := ws.getD (i - 1) []
    let t := if i % 8 = 0 then xorL ((t.drop 1 ++ t.take 1).map sbox) [rcon (i / 8 - 1), 0, 0, 0]
      else if i % 8 = 4 then t.map sbox
      else t
    ws ++ [xorL (ws.getD (i - 8) []) t]) ((List.range 8).map fun i => (key.drop (4 * i)).take 4)

def roundKey (ws : List (List Nat)) (r : Nat) : List Nat := ((ws.drop (4 * r)).take 4).flatten

def encrypt (ws : List (List Nat)) (l : List Nat) : List Nat :=
  (List.range 14).foldl (fun st j =>
    let st := shiftRows (st.map sbox)
    xorL (if j = 13 then st else mixColumns [2, 3, 1, 1] st) (roundKey ws (j + 1))) (xorL l (roundKey ws 0))

def decrypt (ws : List (List Nat)) (l : List Nat) : List Nat :=
  (List.range 14).foldl (fun st j =>
    let st := xorL ((invShiftRows st).map invSbox) (roundKey ws (13 - j))
    if j = 13 then st else mixColumns [14, 11, 13, 9] st) (xorL l (roundKey ws 14))

/-- `n` bytes of a number, little-endian, and back. -/
def bytesLe : Nat → Nat → List Nat
  | 0, _ => []
  | n + 1, v => v % 256 :: bytesLe n (v / 256)

def numLe : List Nat → Nat
  | [] => 0
  | b :: t => b + 256 * numLe t

/-- The tweaks of the eight blocks of a unit: each is the one before times x in the field of 2^128 elements. -/
def tweaks (t : List Nat) : Nat → List (List Nat)
  | 0 => []
  | n + 1 =>
    let v := 2 * numLe t
    t :: tweaks (bytesLe 16 (if v < 2 ^ 128 then v else (v - 2 ^ 128) ^^^ 0x87)) n

/-- One 128-byte unit under a 64-byte key, with the unit's number. -/
def xts (enc : Bool) (key unit : Nat) (l : List Nat) : List Nat :=
  let kb := bytesLe 64 key
  let ws := schedule (kb.take 32)
  let t0 := encrypt (schedule (kb.drop 32)) (bytesLe 16 unit)
  ((tweaks t0 8).zip (List.range 8)).flatMap fun p =>
    let x := xorL ((l.drop (16 * p.2)).take 16) p.1
    xorL (if enc then encrypt ws x else decrypt ws x) p.1

/-- What a line whose plaintext is `l` under one key reads as under another: 0 stands for no encryption, else the key's number
plus 1. The unit's number is PA[51:7], the line. -/
def reread (wkey rkey line : Nat) (l : List Byte) : List Byte :=
  let plain := l.map BitVec.toNat
  let stored := if wkey = 0 then plain else xts true (wkey - 1) line plain
  (if rkey = 0 then stored else xts false (rkey - 1) line stored).map (BitVec.ofNat 8)

end Sys2Proof.Machine.Cipher
end

