-- ==== Sys2Proof/Syntax.lean ====
section
/-!
DEFINITION. The syntax of the DN8: operand fields, modifiers, the payloads of the machine's events, and Instr, the one
inductive with a constructor per row of the opcode table (170 rows that have an instruction word, 98 events).
-/
namespace Sys2Proof

/-- An operand field of the word (R76). `mark` is bit 18 (last-use of a source, transient of a destination), `keep` is
bit 17. A field that is all zero is `.reg 0 false false`. -/
inductive Operand where
  | reg (n : BitVec 8) (mark keep : Bool)
  | imm (v : BitVec 19)
  | idx (x : BitVec 2) (disp : BitVec 6) (mark keep : Bool)
  | special (n : BitVec 9)
  deriving DecidableEq, Repr

/-- The all-zero field (R76). -/
def Operand.zero : Operand := .reg 0 false false

/-- The guard of an instruction (R81): unguarded, or a predicate number with its sense (`neg` is GSN). -/
inductive Guard where
  | always
  | pred (n : BitVec 4) (neg : Bool)
  deriving DecidableEq, Repr

/-- The guard and the hint of a word (R73, R81, R84). HINT[11:6] is ignored and not kept. -/
structure Ctl where
  guard : Guard
  stall : BitVec 5
  yld   : Bool
  deriving DecidableEq, Repr

abbrev PReg := Fin 12
abbrev XReg := Fin 4
abbrev SReg := Fin 64
abbrev QReg := Fin 8
abbrev DieNo := Fin 8

/-- Scopes (R23). -/
inductive Scope where
  | blk | core | cls | die | pkg | sys
  deriving DecidableEq, Repr

/-- Relations (R83). -/
inductive Rel where
  | eq | ne | lt | le | gt | ge
  deriving DecidableEq, Repr

/-- Rounding modes (R83). -/
inductive Rnd where
  | rne | rtz | rup | rdn
  deriving DecidableEq, Repr

/-- A branch offset in instructions (R79): the short or the long form. -/
inductive Off where
  | short (v : BitVec 19)
  | long (v : BitVec 32)
  deriving DecidableEq, Repr

/-- The source of MOV (R174). -/
inductive MovSrc where
  | short (a : Operand)
  | long (v : BitVec 32)
  deriving DecidableEq, Repr

/-- The source of SMOV (R135). -/
inductive SMovSrc where
  | short (a : Operand)
  | sext (v : BitVec 32)
  | zext (v : BitVec 32)
  deriving DecidableEq, Repr

/-- The target of SCALL (R135). -/
inductive SCallTgt where
  | short (v : BitVec 19)
  | long (v : BitVec 32)
  | reg (a : SReg)
  deriving DecidableEq, Repr

/-- CVT's conversion codes 0 to 8 (R182). -/
inductive CvtCode where
  | f32s32 | f32u32 | s32f32 | u32f32 | f16f32 | bf16f32 | f32f16 | f32bf16 | f32f32
  deriving DecidableEq, Repr

/-- The rounding of CVT8 (R181): a mode, or stochastic rounding. -/
inductive Cvt8Rnd where
  | mode (r : Rnd)
  | sr
  deriving DecidableEq, Repr

/-- SFU functions (R186). -/
inductive SfuFn where
  | rcp | rsq | sqrt | ex2 | lg2 | sin | cos | tanh
  deriving DecidableEq, Repr

/-- SHFL modes (R190). -/
inductive ShflMode where
  | idx | up | down | xor
  deriving DecidableEq, Repr

/-- AGREE modes (R191). -/
inductive AgreeMode where
  | all | any | same | none
  deriving DecidableEq, Repr

/-- The special registers MSR accepts (R80). -/
inductive MsrReg where
  | rng | schk
  deriving DecidableEq, Repr

/-- Sizes of a plain load (R208). -/
inductive LdSize where
  | u8 | s8 | u16 | s16 | b32 | b64 | b128 | s32
  deriving DecidableEq, Repr

/-- Sizes of a plain store (R208). -/
inductive StSize where
  | b8 | b16 | b32 | b64 | b128
  deriving DecidableEq, Repr

/-- Sizes of an acquire load or a release store (R208). -/
inductive AqSize where
  | b32 | b64 | b128
  deriving DecidableEq, Repr

/-- The load layout (R208). -/
inductive LdMode where
  | plain (sz : LdSize)
  | acq (sz : AqSize) (sc : Scope)
  deriving DecidableEq, Repr

/-- The store layout (R208). -/
inductive StMode where
  | plain (sz : StSize)
  | rel (sz : AqSize) (sc : Scope)
  deriving DecidableEq, Repr

/-- PREF levels (R207). -/
inductive PrefLevel where
  | l1 | l2 | l2copy
  deriving DecidableEq, Repr

/-- ATOM operations (R207), with the signedness of MIN and MAX. -/
inductive AtomOp where
  | add | min (uns : Bool) | max (uns : Bool) | and | or | xor | fadd
  deriving DecidableEq, Repr

/-- The order of ACAS (R207): relaxed, or with a scope. -/
inductive AcasOrd where
  | relaxed
  | acq (sc : Scope)
  | rel (sc : Scope)
  | acqrel (sc : Scope)
  deriving DecidableEq, Repr

/-- RED.M operations and formats (R207). -/
inductive RedOp where
  | add | min | max
  deriving DecidableEq, Repr

inductive RedFmt where
  | s32 | u32 | f32
  deriving DecidableEq, Repr

/-- RED.C sizes (R229). -/
inductive RedcSize where
  | b16 | b32 | b64
  deriving DecidableEq, Repr

/-- ACCST's result forms (R247). -/
inductive AccstKind where
  | split | wide | raw
  deriving DecidableEq, Repr

/-- Routes of a copy (R261). -/
inductive Route where
  | ll | lg | gl | gg | tl | tg
  deriving DecidableEq, Repr

/-- What SEQRD and MRSTAT read (R268, R286). -/
inductive SeqKind where
  | seq | enq | ticket
  | status (a : Operand)
  deriving DecidableEq, Repr

/-- Fields WFLD reads (R111). -/
inductive WfldKind where
  | frame | prio | kid | edge | retries | die | core
  deriving DecidableEq, Repr

/-- Vectors HOLD reads (R125). -/
inductive HoldKind where
  | holding | claim | free | floor
  deriving DecidableEq, Repr

/-- Masks TDMASK reads (R326). -/
inductive TdmaskKind where
  | touched | place | live
  deriving DecidableEq, Repr

/-- DQPUSH's source (R135). -/
inductive PushSrc where
  | short (a : Operand)
  | long (v : BitVec 32)
  deriving DecidableEq, Repr

/-- A resource vector (R126): rows, granules, banks, slots, stiles. -/
structure RV where
  reg   : Nat
  clm   : Nat
  acc   : Nat
  mslot : Nat
  stile : Nat
  deriving DecidableEq, Repr

/-- Operations and formats of a commutative range (R214). -/
inductive CommFmt where
  | fp32 | int32 | int64 | bf16
  deriving DecidableEq, Repr

/-- Commands (R312). The layout of their arguments in the message is not stated, so a body holds them as data. KEYLOAD names a
key-table entry and never carries the key. -/
inductive Cmd where
  | quota (core kid slots : Nat) (lim : RV)
  | fuse (cluster : Nat) (fused : Bool)
  | place (ctx mask : Nat)
  | map (ctx va pages handle : Nat)
  | unmap (ctx va pages : Nat)
  | region (ctx va pages : Nat) (toSwm : Bool)
  | commdecl (ctx base len : Nat) (op : RedOp) (fmt : CommFmt)
  | keyload (die ix : Nat)
  | barset (bar ctx n : Nat)
  | handover (die : Nat)
  | coreoff (core : Nat)
  | coreon (core : Nat)
  | rehome (die : Nat)
  | checkpoint (addr : Nat)
  deriving DecidableEq, Repr

/-- Messages by type (R310). `other` is a type the table does not list, with the bytes of its body. -/
inductive MsgBody where
  | cmd (c : Cmd)
  | inv (ctx gen va pages : Nat)
  | ack (initiator gen : Nat)
  | commit (ctx gen va pages : Nat)
  | diedown (die : Nat)
  | fenced (die : Nat)
  | dieup (die : Nat)
  | elect
  | other (ty : Nat) (body : List Byte)
  deriving DecidableEq, Repr

/-- A packet that arrives for a WRITE, a READ reply or a SEND (R295, R296): the connection of the receiving die it names,
the message, its index and the message's packet count, the payload size of its sender, the remote end, the target
counter, the key and the security association it was sealed under (key 0: none), the sending sequence number of a SEND, and its
bytes. `reply` names the initiator's entry for a READ reply. -/
structure WirePkt where
  conn  : Nat
  msg   : Nat
  idx   : Nat
  total : Nat
  psize : Nat
  rh    : Nat
  roff  : Nat
  tcnt  : Nat
  tce   : Bool
  key   : Nat
  sa    : Nat
  seq   : Nat
  reply : Option Nat
  data  : List Byte
  deriving DecidableEq, Repr

/-- A frame from outside (R299): the port, whether its header parses, the UDP port of a datagram, its header fields as one number,
whether its check sequence and length are good, the key and the security association it was sealed under, its bytes. -/
structure Frame where
  port  : Nat
  parses : Bool
  udp   : Option Nat
  hdr   : Nat
  good  : Bool
  key   : Nat
  sa    : Nat
  data  : List Byte
  deriving DecidableEq, Repr

/-- Where the monitor of a die puts its rings at start, each a base address and, for a ring, how many entries it has: the service
ring (R308), the delivery ring (R310), the journal (R313, the logarithm of its entries) and, if it makes one, the gleaning log:
control block, base and the logarithm of its entries (R217, R218). -/
structure Places where
  svcBase : Nat
  svcCap  : Nat
  dlvBase : Nat
  dlvCap  : Nat
  jBase   : Nat
  jLog    : Nat
  glean   : Option (Nat × Nat × Nat)
  deriving DecidableEq, Repr

/-- What enumeration finds behind a root port with CXL (R340): whether the device asks for CXL.cache, its type, whether a
switch stands before it, and the window its memory takes. -/
structure CxlDev where
  cache : Bool
  type  : Nat
  switch : Bool
  base  : Nat
  len   : Nat
  deriving DecidableEq, Repr

/-- A die that starts again, with where its monitor puts its rings (R315). -/
structure Restart where
  die    : DieNo
  places : Places
  deriving DecidableEq, Repr

/-- Power that comes good (R333): the dies whose signature check fails, and where each monitor puts its rings. -/
structure PowerUp where
  bad    : List Nat
  places : List Places
  deriving DecidableEq, Repr

/-- A link of a root port: the number of links that the kernel has made of the port, and which of them (R339). -/
structure PortLink where
  ways : Nat
  link : Nat
  deriving DecidableEq, Repr

/-- What trains a link: a CXL device behind it, and the rates of both ends (R339, R340). -/
structure LinkEnds where
  dev    : Option CxlDev
  ours   : List Nat
  theirs : List Nat
  deriving DecidableEq, Repr

/-- An SPDM session with a die (R335). -/
structure SessionOf where
  die     : DieNo
  session : Nat
  deriving DecidableEq, Repr

/-- A key that a tenant supplies (R301, R336): for a port or for memory, the table entry, the key, its security association. -/
structure NewKey where
  port : Bool
  ix   : Nat
  key  : Nat
  sa   : Nat
  deriving DecidableEq, Repr

/-- A context with the key identifier of its save areas (R337). -/
structure ConfMark where
  ctx   : Nat
  keyid : Nat
  deriving DecidableEq, Repr

/-- One constructor per row of the opcode table. Rows with an instruction word carry the word's guard and hint and its
decoded fields; event rows carry what names the event. -/
inductive Instr where
  -- group 0 (R162)
  | nop (c : Ctl)
  | br (c : Ctl) (off : Off)
  | brd (c : Ctl) (target join : BitVec 19)
  | brx (c : Ctl) (a : Operand) (table : BitVec 19)
  | call (c : Ctl) (d : Operand) (off : Off)
  | ret (c : Ctl) (a : Operand)
  | brq (c : Ctl) (off : BitVec 19)
  | movq (c : Ctl) (d : Operand)
  | ifOpen (c : Ctl) (sense : Bool) (p : PReg)
  | elseFlip (c : Ctl)
  | endIf (c : Ctl)
  | loop (c : Ctl)
  | brkLoop (c : Ctl) (sense : Bool) (depth : BitVec 4) (p : PReg)
  | cont (c : Ctl) (sense : Bool) (depth : BitVec 4) (p : PReg)
  | endl (c : Ctl) (off : BitVec 19)
  | bar (c : Ctl)
  | barTeam (c : Ctl)
  -- group 1 (R174)
  | mov (c : Ctl) (d : Operand) (a : MovSrc)
  | iadd (c : Ctl) (d a b : Operand)
  | isub (c : Ctl) (d a b : Operand)
  | imul (c : Ctl) (d a b : Operand)
  | imulhi (c : Ctl) (uns : Bool) (d a b : Operand)
  | imad (c : Ctl) (d a b : Operand)
  | idiv (c : Ctl) (uns : Bool) (d a b : Operand)
  | irem (c : Ctl) (uns : Bool) (d a b : Operand)
  | imin (c : Ctl) (uns : Bool) (d a b : Operand)
  | imax (c : Ctl) (uns : Bool) (d a b : Operand)
  | iabs (c : Ctl) (d a : Operand)
  | and (c : Ctl) (d a b : Operand)
  | or (c : Ctl) (d a b : Operand)
  | xor (c : Ctl) (d a b : Operand)
  | not (c : Ctl) (d a : Operand)
  | shl (c : Ctl) (d a b : Operand)
  | shr (c : Ctl) (uns : Bool) (d a b : Operand)
  | popc (c : Ctl) (d a : Operand)
  | clz (c : Ctl) (d a : Operand)
  | brev (c : Ctl) (d a : Operand)
  | bfe (c : Ctl) (uns : Bool) (d a b : Operand)
  | bfi (c : Ctl) (d a b : Operand)
  | sel (c : Ctl) (p : PReg) (d a b : Operand)
  -- group 2 (R178)
  | fadd (c : Ctl) (rnd : Rnd) (d a b : Operand)
  | fsub (c : Ctl) (rnd : Rnd) (d a b : Operand)
  | fmul (c : Ctl) (rnd : Rnd) (d a b : Operand)
  | ffma (c : Ctl) (rnd : Rnd) (d a b : Operand)
  | fmin (c : Ctl) (d a b : Operand)
  | fmax (c : Ctl) (d a b : Operand)
  | fabs (c : Ctl) (d a : Operand)
  | fneg (c : Ctl) (d a : Operand)
  | pkadd (c : Ctl) (rnd : Rnd) (bf : Bool) (d a b : Operand)
  | pkmul (c : Ctl) (rnd : Rnd) (bf : Bool) (d a b : Operand)
  | pkfma (c : Ctl) (rnd : Rnd) (bf : Bool) (d a b : Operand)
  | pkmin (c : Ctl) (bf : Bool) (d a b : Operand)
  | pkmax (c : Ctl) (bf : Bool) (d a b : Operand)
  -- group 3 (R181)
  | cvt (c : Ctl) (code : CvtCode) (rnd : Rnd) (d a : Operand)
  | cvt8 (c : Ctl) (rnd : Cvt8Rnd) (sat : Bool) (d a : Operand) (ctl : BitVec 19)
  | cvtf8 (c : Ctl) (rnd : Rnd) (d a : Operand) (ctl : BitVec 19)
  | sfu (c : Ctl) (fn : SfuFn) (d a : Operand)
  -- group 4 (R187)
  | iset (c : Ctl) (rel : Rel) (uns : Bool) (p : PReg) (a b : Operand)
  | fset (c : Ctl) (rel : Rel) (p : PReg) (a b : Operand)
  | plop (c : Ctl) (tt : BitVec 4) (d a b : PReg)
  | pmov (c : Ctl) (d : Operand)
  | pmovP (c : Ctl) (a : Operand)
  | shfl (c : Ctl) (mode : ShflMode) (pr : Option PReg) (d a b : Operand)
  | agree (c : Ctl) (mode : AgreeMode) (sense : Bool) (d a : PReg)
  | ballot (c : Ctl) (sense : Bool) (d : Operand) (a : PReg)
  | remap (c : Ctl) (d a : Operand)
  | xwin (c : Ctl) (x : XReg) (base len : BitVec 19)
  | xset (c : Ctl) (x : XReg) (a : Operand)
  | msr (c : Ctl) (sp : MsrReg) (a : Operand)
  -- group 5 (R207)
  | ld (c : Ctl) (mode : LdMode) (d a : Operand) (disp : Option (BitVec 19))
  | st (c : Ctl) (mode : StMode) (d a : Operand) (disp : Option (BitVec 19))
  | ldl (c : Ctl) (mode : LdMode) (d a : Operand) (disp : Option (BitVec 19))
  | stl (c : Ctl) (mode : StMode) (d a : Operand) (disp : Option (BitVec 19))
  | pref (c : Ctl) (lvl : PrefLevel) (a : Operand) (disp : Option (BitVec 19))
  | fence (c : Ctl) (sc : Scope)
  | clean (c : Ctl) (a : Operand) (count : BitVec 19)
  | inval (c : Ctl) (a : Operand) (count : BitVec 19)
  -- group 6 (R207, R229)
  | atom (c : Ctl) (op : AtomOp) (d a b : Operand)
  | acas (c : Ctl) (exch : Bool) (ord : AcasOrd) (d a b : Operand)
  | redM (c : Ctl) (op : RedOp) (fmt : RedFmt) (a b : Operand)
  | redC (c : Ctl) (sz : RedcSize) (a b : Operand)
  | clk (c : Ctl) (d : Operand)
  | sts (c : Ctl) (b64 : Bool) (d a b : Operand)
  | ldas (c : Ctl) (pr : Option PReg) (b64 : Bool) (d a b : Operand)
  | cwait (c : Ctl) (a : Operand)
  | bara (c : Ctl) (bar : SReg) (d : Operand)
  | barw (c : Ctl) (bar : SReg) (a : Operand)
  | tdclr (c : Ctl) (d a : SReg)
  -- group 7 (R247)
  | mma (c : Ctl) (start : Bool) (d a : Operand)
  | mmaA (c : Ctl) (start : Bool) (d a : Operand)
  | mmaS (c : Ctl) (start : Bool) (tag : Fin 4) (d a b : Operand)
  | mcommit (c : Ctl) (batch : Fin 4)
  | mwait (c : Ctl) (batch : Fin 4)
  | accz (c : Ctl) (bank count : BitVec 19)
  | accld (c : Ctl) (raw : Bool) (bank : BitVec 19) (a : Operand) (ctl : BitVec 19)
  | accst (c : Ctl) (kind : AccstKind) (clr : Bool) (bank : BitVec 19) (a : Operand) (ctl : BitVec 19)
  | accfold (c : Ctl) (bank count : BitVec 19)
  | shcommit (c : Ctl) (tag : Fin 4)
  | shdrop (c : Ctl) (tag : Fin 4)
  -- group 8 (R268)
  | cpy (c : Ctl) (q : QReg) (route : Route) (d a b : Operand)
  | cpys (c : Ctl) (q : QReg) (route : Route) (d a b : Operand)
  | cpyx (c : Ctl) (q : QReg) (route : Route) (d a b : Operand)
  | qfence (c : Ctl) (mask : BitVec 19)
  | seqrd (c : Ctl) (q : QReg) (kind : SeqKind) (d : Operand)
  | seqwait (c : Ctl) (q : QReg) (a : Operand)
  | stinit (c : Ctl) (d a : Operand)
  | starr (c : Ctl) (d : Operand)
  | stwait (c : Ctl) (a : Operand)
  | hrev (c : Ctl) (d a : SReg)
  -- group 9 (R286)
  | mgath (c : Ctl) (q : Fin 4) (g sum : Bool) (a : Operand)
  | mconvCvt (c : Ctl) (q : Fin 4) (a : Operand)
  | mconvStripe (c : Ctl) (q : Fin 4) (a : Operand)
  | mxv (c : Ctl) (q : Fin 4) (a : Operand)
  | mseqwait (c : Ctl) (q : Fin 4) (a : Operand)
  | mrstat (c : Ctl) (q : Fin 4) (kind : SeqKind) (d : Operand)
  -- group 10 (R302)
  | npost (c : Ctl) (q : SReg) (a : Operand)
  | ncnt (c : Ctl) (err : Bool) (d a : Operand)
  | nwait (c : Ctl) (a b : Operand)
  | rngpeek (c : Ctl) (d a : Operand)
  | rngadv (c : Ctl) (d a b : Operand)
  | rngstatPeek (c : Ctl) (d a : Operand)
  | rngstatReset (c : Ctl) (d a : Operand)
  | nqfence (c : Ctl) (a : Operand)
  -- group 11 (R111, R125)
  | spawn (c : Ctl) (d a : SReg)
  | spawnr (c : Ctl) (rangel : Fin 55) (d a b : SReg)
  | joindec (c : Ctl) (a : Operand)
  | exit (c : Ctl)
  | exitJ (c : Ctl) (a : SReg)
  | exitK (c : Ctl)
  | yieldTeam (c : Ctl) (d : SReg)
  | tret (c : Ctl)
  | tretSkip (c : Ctl)
  | wfld (c : Ctl) (f : WfldKind) (d : Operand)
  | claim (c : Ctl) (a : SReg)
  | take (c : Ctl) (a : SReg)
  | taket (c : Ctl) (d a : SReg)
  | give (c : Ctl) (a : SReg)
  | giveall (c : Ctl)
  | hold (c : Ctl) (k : HoldKind) (d : Operand)
  -- group 12 (R135)
  | smov (c : Ctl) (d : SReg) (a : SMovSrc)
  | smovh (c : Ctl) (d : SReg) (v : BitVec 32)
  | sadd (c : Ctl) (d : SReg) (a b : Operand)
  | ssub (c : Ctl) (d : SReg) (a b : Operand)
  | smul (c : Ctl) (d : SReg) (a b : Operand)
  | smulhi (c : Ctl) (uns : Bool) (d : SReg) (a b : Operand)
  | sdiv (c : Ctl) (uns : Bool) (d : SReg) (a b : Operand)
  | srem (c : Ctl) (uns : Bool) (d : SReg) (a b : Operand)
  | smin (c : Ctl) (uns : Bool) (d : SReg) (a b : Operand)
  | smax (c : Ctl) (uns : Bool) (d : SReg) (a b : Operand)
  | sand (c : Ctl) (d : SReg) (a b : Operand)
  | sor (c : Ctl) (d : SReg) (a b : Operand)
  | sxor (c : Ctl) (d : SReg) (a b : Operand)
  | sshl (c : Ctl) (d : SReg) (a b : Operand)
  | sshr (c : Ctl) (uns : Bool) (d : SReg) (a b : Operand)
  | spopc (c : Ctl) (d : SReg) (a : Operand)
  | sclz (c : Ctl) (d : SReg) (a : Operand)
  | ssel (c : Ctl) (q : QReg) (d : SReg) (a b : Operand)
  | sset (c : Ctl) (rel : Rel) (uns : Bool) (q : QReg) (a b : Operand)
  | qlop (c : Ctl) (tt : BitVec 4) (d a b : QReg)
  | sbr (c : Ctl) (off : Off)
  | sbrx (c : Ctl) (a : SReg) (table : BitVec 19)
  | scall (c : Ctl) (d : SReg) (t : SCallTgt)
  | sret (c : Ctl) (a : SReg)
  | dqpush (c : Ctl) (a : PushSrc)
  | wwaitDq (c : Ctl)
  | wwaitExit (c : Ctl) (d a : SReg)
  -- group 13 (R326)
  | svc (c : Ctl) (d a : Operand) (n : BitVec 19)
  | svcp (c : Ctl) (d a : Operand) (n : BitVec 19)
  | trap (c : Ctl) (code : BitVec 6) (a : Operand)
  | brk (c : Ctl) (v : Option (BitVec 19))
  | tdmask (c : Ctl) (k : TdmaskKind) (d : Operand)
  -- RESERVED_OPCODE_ISSUE (R90): the whole word, whose OPC is unassigned
  | reservedOpcodeIssue (w : Word96)
  -- ordering machine (R35, R204, R213, R215, R324)
  | speculationResolve (tag : Nat)
  | drain (acc : Nat)
  | commit (acc : Nat)
  | transit (acc : Nat)
  | serve (line : Nat)
  | load (acc : Nat)
  | expire (die line : Nat)
  | beginEntry (id : Nat)
  | completeEntry (id : Nat)
  | baseop (stack : Nat)
  | append (die : DieNo) (hw : Bool) (body : MsgBody)
  | deliver (die : DieNo)
  | requestRefusedRetry (acc : Nat)
  | windrowEvict (die : DieNo) (slice line : Nat)
  | partialCombine (die : DieNo) (line : Nat)
  | writeback (die : DieNo) (line : Nat)
  | swmCopyDrop (die : DieNo) (line : Nat)
  | replicaWrite (acc : Nat)
  | translationWalkEnd (die : DieNo) (ctx page : Nat)
  -- task engine and banker
  | hamperScan (die : DieNo)
  | preempt (die : DieNo)
  | blockEnd (blk : Nat)
  | prioRaise (die : DieNo) (ctx team prio : Nat)
  | matrixOpfault (entry addr aux : Nat)
  | zeroingDone (core : Nat)
  -- network
  | retransmit (entry pkt : Nat)
  | packetAck (entry pkt : Nat) (ok : Bool)
  | packetReceive (die : DieNo) (p : WirePkt)
  | sendReceive (die : DieNo) (p : WirePkt)
  | uudPlacementTimeout (die : DieNo) (conn msg : Nat)
  | frameReceive (die : DieNo) (f : Frame)
  -- time and package barriers
  | timeUpdate (die : DieNo) (earliest latest : Nat)
  | holdover (die : DieNo)
  | barrierArrivalAccept (acc : Nat)
  | barrierRelease (bar : Nat)
  | barrierReset (bar : Nat)
  -- die kernel and message channel
  | replyWrite (die : DieNo) (tag : Nat) (value : Word64) (denied : Bool)
  | svcForward (blk : Nat) (resume : Bool)
  | svcMap (die : DieNo)
  | svcUnmap (die : DieNo)
  | cmdQuota (die : DieNo)
  | cmdFuse (die : DieNo)
  | cmdPlace (die : DieNo)
  | cmdMap (die : DieNo)
  | cmdUnmap (die : DieNo)
  | cmdRegion (die : DieNo)
  | cmdCommdecl (die : DieNo)
  | cmdKeyload (die : DieNo)
  | cmdBarset (die : DieNo)
  | cmdHandover (die : DieNo)
  | cmdCoreoff (die : DieNo)
  | cmdCoreon (die : DieNo)
  | cmdRehome (die : DieNo)
  | cmdCheckpoint (die : DieNo)
  | inv (die : DieNo)
  | ack (die : DieNo) (initiator gen : Nat)
  | commitMsg (die : DieNo)
  | diedown (die : DieNo)
  | fenced (die : DieNo) (target : Nat)
  | dieup (x : Restart)
  | elect (die : DieNo)
  | halt (die : DieNo) (cluster : Nat) (set : Bool)
  | throtClear (die : DieNo)
  | registerWrite (die : DieNo) (addr : Nat) (value : Word64)
  -- power, resets, sensors
  | clockStepDown (pmod : Nat) (tj : List Nat)
  | clockStepUp (pmod : Nat) (tj : List Nat)
  | overtempReset (die : DieNo) (tj : Nat)
  | powerGood (x : PowerUp)
  | packageReset
  | dieReset (die : DieNo)
  -- SPDM: the die that answers, whether it came over the sideband port, the session (R335, R338)
  | getVersion (die : DieNo) (side : Bool)
  | getCapabilities (die : DieNo) (side : Bool)
  | negotiateAlgorithms (die : DieNo) (side : Bool)
  | getDigests (die : DieNo) (side : Bool)
  | getCertificate (die : DieNo) (side : Bool)
  | challenge (die : DieNo) (side : Bool)
  | getMeasurements (die : DieNo) (side : Bool)
  | keyExchange (die : DieNo) (side : Bool)
  | finish (die : DieNo) (side : Bool) (session : Nat)
  | endSession (die : DieNo) (side : Bool) (session : Nat)
  | heartbeat (die : DieNo) (side : Bool) (session : Nat)
  | spdmUnsupported (die : DieNo) (side : Bool) (code : Nat)
  -- inbound and links
  | inboundWrite (die : DieNo) (fn pa keyid : Nat) (data : List Byte)
  | inboundRead (die : DieNo) (fn pa keyid n : Nat)
  | inboundRefused (die : DieNo) (fn pa : Nat) (atomic : Bool)
  | cxlExpanderLost (die : DieNo) (window : Nat)
  | stampSurelyPast (aid : Nat)
  | readPacketReceive (die : DieNo) (p : WirePkt) (len : Nat)
  | handleGenRaise (die : DieNo) (ctx slot : Nat)
  | packageUnpowered
  | mctpMessageDiscard (ty : Nat)
  | linkTraining (die : DieNo) (port : PortLink) (ends : LinkEnds)
  | privilegedWindowRead (die : DieNo) (addr : Nat)
  | memoryKeyLoad (via : SessionOf) (k : NewKey)
  | contextMarkedConf (via : SessionOf) (x : ConfMark)
  | contextTeardown (die : DieNo) (ctx : Nat)
  deriving DecidableEq, Repr

end Sys2Proof
end

