-- ==== Sys2Proof/Config.lean ====
section
/-!
DEFINITION. What the spec leaves open, as free values: constants without a body, so that nothing can be proved of the value
one of them gives. Each names its log entry.
-/
namespace Sys2Proof.Config

/-- Which of the lanes that write one byte survives (R32): applied to the counter of free values. Log entry 7. -/
opaque winner : Nat → Nat

/-- Whether a block whose code changed fetches the line as it was (R75). Log entry 8. -/
opaque fetchOld : Nat → Bool

/-- Which of the two binary32 values that bracket the exact result EX2, LG2, SIN, COS or TANH returns (R186): the upper
one where true. On one part a given input always gives the same bits. Log entry 9. -/
opaque sfuUp : SfuFn → BitVec 32 → Bool

/-- Which of the sixteen entries of a CONTIG run whose entries differ a walk uses (R199). Log entry 10. -/
opaque contig : Nat → Nat

/-- Whether a step that may keep a copy keeps it: LEASE after a load (R35), the bytes a load marks valid in an SWM copy
(R204), the line a PREF asks for (R207). Log entry 18. -/
opaque keepCopy : Nat → Bool

/-- Whether a load on the home die still binds the value from before an inbound write, within 1 us of it (R36). Log entry
19. -/
opaque inboundOld : Nat → Bool

/-- Whether the package time input is in use (R341), so that the sideband tree delivers the updates. Log entry 69. -/
opaque timeInput : Bool

/-- The UDP port for attestation that the monitor of a die publishes (R335). Log entry 62. -/
opaque spdmPort : Nat → Nat

/-- The backoff after a refusal, before it is brought into its range (R213). Log entry 11. -/
opaque backoff : Nat → Nat

/-- Whether a write that a lost die sent before it was lost is performed (R320). Log entry 12. -/
opaque lostWrite : Nat → Bool

/-- Whether a packet that was given up after 16 transmissions had been placed at its target all the same (R260, R294): its
acknowledgements may have been lost. Log entry 62. -/
opaque delivered : Nat → Bool

/-- Measurements and digests (R334). Log entry 14. -/
opaque digest : Nat → List Nat → BitVec 512

/-- Bytes of the parts of the privileged window whose layout the spec does not give (R316). Log entry 15. -/
opaque dirByte : Nat → Nat → BitVec 8

/-- Which directory entries of a block hold the granule lists (R316, R337): block, offset in the directory. Log entry 15. -/
opaque dirList : Nat → Nat → Bool

/-- Whether a home refuses a request whose line it recalls for a commutative load or writes back for a BASEOP (R212): the model
makes each one step, so it does not show how long they take. Log entry 60. -/
opaque homeBusy : Nat → Bool

/-- Bytes of a save area (R104) whose layout the spec does not give. Log entry 15. -/
opaque saveByte : Nat → BitVec 8

/-- Bytes of a message's body that hold a command's arguments (R309, R312), whose layout the spec does not give: message, byte.
Log entry 76. -/
opaque argByte : Nat → Nat → BitVec 8

/-- How many delivered messages a die kernel has consumed when the delivery ring is looked at (R310). Log entry 76. -/
opaque consumed : Nat → Nat

/-- The unstated value of a read at a lost home, of an atomic lost with its home, and of the window of an ended block. Log entry 17. -/
opaque freeWord : Nat → BitVec 64

end Sys2Proof.Config
end

