-- ==== Sys2Proof/Machine/Numbers.lean ====
section
/-!
DEFINITION. Numbers (R50 to R65): exact binary values, the floating-point formats and their roundings, binary8 with
stochastic rounding, integer conversions and division, and the special functions.
-/
namespace Sys2Proof.Machine

/-- A value on its way to a rounding: NaN, an infinity, or a sign with the exact magnitude `m * 2^e`. -/
inductive FV where
  | nan
  | inf (neg : Bool)
  | fin (neg : Bool) (m : Nat) (e : Int)
  deriving DecidableEq, Repr

/-- A format: `p` significand bits with the hidden one, and the exponent of the last place of its smallest values. The
infinity of an IEEE format is the code `inf`, its canonical NaN `nan`, its sign bit has the weight `sgn` (R53, R54). -/
structure Fmt where
  p    : Nat
  qmin : Int
  inf  : Nat
  nan  : Nat
  sgn  : Nat
  deriving DecidableEq, Repr

def f32 : Fmt := ⟨24, -149, 0x7F800000, 0x7FC00000, 2 ^ 31⟩
def f16 : Fmt := ⟨11, -24, 0x7C00, 0x7E00, 2 ^ 15⟩
def bf16 : Fmt := ⟨8, -133, 0x7F80, 0x7FC0, 2 ^ 15⟩

/-- The value of a code of an IEEE format. -/
def Fmt.dec (f : Fmt) (c : Nat) : FV :=
  let neg := c / f.sgn % 2 == 1
  let mag := c % f.sgn
  if f.inf < mag then .nan
  else if mag = f.inf then .inf neg
  else
    let fr := mag % 2 ^ (f.p - 1)
    let ex := mag / 2 ^ (f.p - 1)
    if ex = 0 then .fin neg fr f.qmin
    else .fin neg (fr + 2 ^ (f.p - 1)) (f.qmin + (ex : Int) - 1)

/-- Whether a discarded part `r` of `2^k` raises the magnitude `n`, in a mode (R58). -/
def roundsUp (rnd : Rnd) (neg : Bool) (n r k : Nat) : Bool :=
  match rnd with
  | .rne => decide (2 ^ k < 2 * r) || (2 * r == 2 ^ k && n % 2 == 1)
  | .rtz => false
  | .rup => !neg && r != 0
  | .rdn => neg && r != 0

/-- The magnitude `m * 2^e` as a whole number of `2^q`, rounded; a tie goes to the number whose sum with `base` is even. -/
def roundFrom (base : Nat) (rnd : Rnd) (neg : Bool) (m : Nat) (e q : Int) : Nat :=
  if q ≤ e then m * 2 ^ (e - q).toNat
  else
    let k := (q - e).toNat
    let n := m / 2 ^ k
    let r := m % 2 ^ k
    if roundsUp rnd neg (base + n) r k then n + 1 else n

/-- The magnitude `m * 2^e` as a whole number of `2^q`, rounded. -/
def roundAt (rnd : Rnd) (neg : Bool) (m : Nat) (e q : Int) : Nat := roundFrom 0 rnd neg m e q

/-- The exponent of the last place at which a format of `p` bits holds `m * 2^e`. -/
def quantum (p : Nat) (qmin : Int) (m : Nat) (e : Int) : Int :=
  max qmin ((Nat.log2 m : Int) + e - ((p : Int) - 1))

/-- The magnitude code of a rounded value, the exponent range unbounded above. A tie goes to the even code, which with one significand
bit is the code of an even exponent field (log entry 64). -/
def magCode (p : Nat) (qmin : Int) (rnd : Rnd) (neg : Bool) (m : Nat) (e : Int) : Nat :=
  if m = 0 then 0
  else
    let q := quantum p qmin m e
    let base := (q - qmin).toNat * 2 ^ (p - 1)
    base + roundFrom base rnd neg m e q

/-- Round once to an IEEE format: canonical NaN, directed overflow (R54, R58, R182). -/
def Fmt.enc (f : Fmt) (rnd : Rnd) : FV → Nat
  | .nan => f.nan
  | .inf neg => f.inf + (if neg then f.sgn else 0)
  | .fin neg m e =>
    let c := magCode f.p f.qmin rnd neg m e
    let c := if f.inf ≤ c then
        (match rnd with
         | .rne => f.inf
         | .rtz => f.inf - 1
         | .rup => if neg then f.inf - 1 else f.inf
         | .rdn => if neg then f.inf else f.inf - 1)
      else c
    c + (if neg then f.sgn else 0)

def FV.neg : FV → FV
  | .nan => .nan
  | .inf s => .inf (!s)
  | .fin s m e => .fin (!s) m e

def FV.abs : FV → FV
  | .nan => .nan
  | .inf _ => .inf false
  | .fin _ m e => .fin false m e

/-- The signed whole number of `2^q` a finite value is, for `q` no greater than its exponent. -/
def signedAt (neg : Bool) (m : Nat) (e q : Int) : Int :=
  let v : Int := (m * 2 ^ (e - q).toNat : Nat)
  if neg then -v else v

/-- The exact sum. An exact zero of unlike signs is -0 under RDN only. -/
def FV.add (rnd : Rnd) : FV → FV → FV
  | .nan, _ => .nan
  | _, .nan => .nan
  | .inf s, .inf t => if s = t then .inf s else .nan
  | .inf s, _ => .inf s
  | _, .inf t => .inf t
  | .fin s m e, .fin t n g =>
    let q := min e g
    let v := signedAt s m e q + signedAt t n g q
    if v = 0 then .fin (if s = t then s else rnd == .rdn) 0 q
    else .fin (decide (v < 0)) v.natAbs q

/-- The exact product. -/
def FV.mul : FV → FV → FV
  | .nan, _ => .nan
  | _, .nan => .nan
  | .inf s, .inf t => .inf (s != t)
  | .inf s, .fin t n _ => if n = 0 then .nan else .inf (s != t)
  | .fin s m _, .inf t => if m = 0 then .nan else .inf (s != t)
  | .fin s m e, .fin t n g => .fin (s != t) (m * n) (e + g)

/-- Order of two values that are not NaN; `zeros` orders -0 below +0 (R54). -/
def FV.cmp (zeros : Bool) : FV → FV → Ordering
  | .inf true, .inf true => .eq
  | .inf true, _ => .lt
  | _, .inf true => .gt
  | .inf false, .inf false => .eq
  | .inf false, _ => .gt
  | _, .inf false => .lt
  | .fin s m e, .fin t n g =>
    let q := min e g
    let c := compare (signedAt s m e q) (signedAt t n g q)
    if c = .eq ∧ zeros ∧ s ≠ t then (if s then .lt else .gt) else c
  | _, _ => .eq

def FV.isNan : FV → Bool
  | .nan => true
  | _ => false

/-- FMIN and FMAX (R179). -/
def FV.min (a b : FV) : FV :=
  if a.isNan || b.isNan then .nan else if FV.cmp true a b = .gt then b else a
def FV.max (a b : FV) : FV :=
  if a.isNan || b.isNan then .nan else if FV.cmp true a b = .lt then b else a

-- Binary32 operations on bit patterns (R179), and the same in any IEEE format (R180).

def Fmt.op2 (f : Fmt) (rnd : Rnd) (g : FV → FV → FV) (a b : Nat) : Nat := f.enc rnd (g (f.dec a) (f.dec b))
def Fmt.add (f : Fmt) (rnd : Rnd) (a b : Nat) : Nat := f.op2 rnd (FV.add rnd) a b
def Fmt.sub (f : Fmt) (rnd : Rnd) (a b : Nat) : Nat := f.op2 rnd (fun x y => FV.add rnd x y.neg) a b
def Fmt.mul (f : Fmt) (rnd : Rnd) (a b : Nat) : Nat := f.op2 rnd FV.mul a b
def Fmt.fma (f : Fmt) (rnd : Rnd) (a b d : Nat) : Nat :=
  f.enc rnd (FV.add rnd (FV.mul (f.dec a) (f.dec b)) (f.dec d))
def Fmt.minC (f : Fmt) (a b : Nat) : Nat := f.op2 .rne FV.min a b
def Fmt.maxC (f : Fmt) (a b : Nat) : Nat := f.op2 .rne FV.max a b

def w32 (n : Nat) : Word32 := BitVec.ofNat 32 n

/-- Two elements of a packed register (R180). -/
def packed (g : Nat → Nat → Nat → Nat) (a b d : Word32) : Word32 :=
  let lo (x : Word32) := (x.extractLsb' 0 16).toNat
  let hi (x : Word32) := (x.extractLsb' 16 16).toNat
  BitVec.ofNat 16 (g (hi a) (hi b) (hi d)) ++ BitVec.ofNat 16 (g (lo a) (lo b) (lo d))

def pkFmt (bf : Bool) : Fmt := if bf then bf16 else f16

-- Integers and floating point (R57).

/-- A value as an integer in a mode, clamped to a range. -/
def FV.toInt (rnd : Rnd) (lo hi : Int) : FV → Int
  | .nan => 0
  | .inf neg => if neg then lo else hi
  | .fin neg m e =>
    let n : Int := roundAt rnd neg m e 0
    let v := if neg then -n else n
    Max.max lo (Min.min hi v)

def FV.ofInt (v : Int) : FV := .fin (decide (v < 0)) v.natAbs 0

/-- The integral value reached by rounding (CVT.F32.F32, R182). -/
def FV.integral (rnd : Rnd) : FV → FV
  | .fin neg m e => .fin neg (roundAt rnd neg m e 0) 0
  | x => x

-- binary8 (R50 to R52, R59, R60).

/-- A binary8 variant from its format code (R67). -/
structure B8 where
  p   : Nat
  fin : Bool
  uns : Bool
  deriving DecidableEq, Repr

def B8.ofCode (f : Nat) : B8 := ⟨f % 8, f / 8 % 2 == 1, f / 16 % 2 == 1⟩
def B8.bias (f : B8) : Nat := if f.uns then 2 ^ (8 - f.p) else 2 ^ (7 - f.p)
def B8.qmin (f : B8) : Int := 1 - (f.bias : Int) - ((f.p : Int) - 1)
def B8.nan (f : B8) : Nat := if f.uns then 0xFF else 0x80
/-- The largest finite magnitude code. -/
def B8.maxFin (f : B8) : Nat :=
  match f.uns, f.fin with
  | false, false => 0x7E
  | false, true => 0x7F
  | true, false => 0xFD
  | true, true => 0xFE

/-- The value of a binary8 code (R50). A code's exponent field 0 holds the subnormals; with P = 1 only zero. -/
def B8.dec (f : B8) (c : Nat) : FV :=
  if c = f.nan then .nan
  else
    let neg := !f.uns && decide (128 ≤ c)
    let mag := if f.uns then c else c % 128
    if !f.fin && mag == f.maxFin + 1 then .inf neg
    else
      let t := mag % 2 ^ (f.p - 1)
      let e := mag / 2 ^ (f.p - 1)
      if e = 0 then .fin (neg && t != 0) t f.qmin
      else .fin neg (t + 2 ^ (f.p - 1)) (f.qmin + (e : Int) - 1)

/-- Rounding to binary8: a mode, or stochastic with a random byte. -/
inductive Round8 where
  | mode (r : Rnd)
  | sr (r : Nat)
  deriving DecidableEq, Repr

/-- The magnitude code before the overflow column (R59, R60). -/
def B8.magCode (f : B8) (rnd : Round8) (neg : Bool) (m : Nat) (e : Int) : Nat :=
  match rnd with
  | .mode r => Machine.magCode f.p f.qmin r neg m e
  | .sr r =>
    let q := quantum f.p f.qmin m e
    let lo := roundAt .rtz neg m e q
    let up := if q ≤ e then false
      else
        let k := (q - e).toNat
        let rem := m % 2 ^ k
        rem != 0 && decide (256 ≤ rem * 256 / 2 ^ k + r)
    (q - f.qmin).toNat * 2 ^ (f.p - 1) + (if up then lo + 1 else lo)

def B8.signed (neg : Bool) (mag : Nat) : Nat := if neg && mag != 0 then mag + 128 else mag

/-- Conversion to binary8 (R59). -/
def B8.enc (f : B8) (rnd : Round8) (sat : Bool) (x : FV) : Nat :=
  let largest (neg : Bool) := B8.signed neg f.maxFin
  let infinite (neg : Bool) := if f.fin then f.nan else B8.signed neg (f.maxFin + 1)
  match x with
  | .nan => f.nan
  | .inf neg =>
    if f.uns && neg then f.nan
    else if f.fin && sat then largest neg
    else infinite neg
  | .fin neg m e =>
    if m = 0 then 0
    else if f.uns && neg then f.nan
    else
      let c := f.magCode rnd neg m e
      if c ≤ f.maxFin then B8.signed neg c
      else if sat then largest neg
      else match rnd with
        | .mode .rtz => largest neg
        | .mode .rup => if neg then largest neg else infinite neg
        | .mode .rdn => if neg then infinite neg else largest neg
        | _ => infinite neg

/-- One step of RNG (R61). -/
def rngStep (x : Word32) : Word32 :=
  let x := x ^^^ (x <<< 13)
  let x := x ^^^ (x >>> 17)
  x ^^^ (x <<< 5)

/-- A written RNG value (R61). -/
def rngWrite (x : Word32) : Word32 := if x = 0 then 1 else x

-- Integer division (R56).

def divU {w : Nat} (a b : BitVec w) : BitVec w := if b = 0 then BitVec.allOnes w else a / b
def remU {w : Nat} (a b : BitVec w) : BitVec w := if b = 0 then a else a % b
def divS {w : Nat} (a b : BitVec w) : BitVec w :=
  if b = 0 then BitVec.allOnes w else BitVec.ofInt w (a.toInt.tdiv b.toInt)
def remS {w : Nat} (a b : BitVec w) : BitVec w :=
  if b = 0 then a else BitVec.ofInt w (a.toInt.tmod b.toInt)

def popCount {w : Nat} (a : BitVec w) : Nat := ((List.range w).filter fun i => a.getLsbD i).length
/-- Leading zeros; the width for zero. -/
def leadZeros {w : Nat} (a : BitVec w) : Nat := if a = 0 then w else w - 1 - Nat.log2 a.toNat
def bitReverse (a : Word32) : Word32 := maskOfBits ((List.range 32).filter fun i => a.getLsbD (31 - i))
where
  maskOfBits (l : List Nat) : Word32 := l.foldl (fun m i => m ||| (1#32 <<< i)) 0

-- Special functions (R186), over fixed-point numbers of `fxBits` fraction bits.

def fxBits : Nat := 200
def fxOne : Int := 2 ^ fxBits
def fxMul (a b : Int) : Int := a * b / fxOne
def fxDiv (a b : Int) : Int := a * fxOne / b

/-- A Taylor series in `z`: term k is the term before times z over `d k`. -/
def fxSeries (z : Int) (d : Nat → Int) : Nat → Int → Nat → Int
  | 0, _, _ => 0
  | n + 1, term, k => term + fxSeries z d n (fxMul term z / d k) (k + 1)

/-- e^x for |x| at most 1. -/
def fxExp (x : Int) : Int := fxSeries x (fun k => (k : Int) + 1) 64 fxOne 0
/-- The series of the inverse hyperbolic tangent. -/
def fxAtanh (x : Int) : Int :=
  let z := fxMul x x
  let rec go : Nat → Int → Nat → Int
    | 0, _, _ => 0
    | n + 1, p, k => p / (2 * (k : Int) + 1) + go n (fxMul p z) (k + 1)
  go 70 x 0
/-- ln 2 = 2 atanh(1/3). -/
def fxLn2 : Int := 2 * fxAtanh (fxOne / 3)
/-- atan(1/n), and pi by Machin's formula. -/
def fxAtanInv (n : Int) : Int :=
  let rec go : Nat → Int → Nat → Int
    | 0, _, _ => 0
    | m + 1, p, k =>
      (if k % 2 = 0 then p else -p) / (2 * (k : Int) + 1) + go m (p / (n * n)) (k + 1)
  go 90 (fxOne / n) 0
def fxPi : Int := 4 * (4 * fxAtanInv 5 - fxAtanInv 239)

def fxCos (x : Int) : Int :=
  fxSeries (-fxMul x x) (fun k => (2 * (k : Int) + 1) * (2 * (k : Int) + 2)) 50 fxOne 0
def fxSin (x : Int) : Int :=
  fxSeries (-fxMul x x) (fun k => (2 * (k : Int) + 2) * (2 * (k : Int) + 3)) 50 x 0

/-- The fixed-point number nearest below a finite value. -/
def fxOf (neg : Bool) (m : Nat) (e : Int) : Int :=
  let k := (fxBits : Int) + e
  let v : Int := if 0 ≤ k then ((m * 2 ^ k.toNat : Nat) : Int) else ((m / 2 ^ (-k).toNat : Nat) : Int)
  if neg then -v else v

/-- A value that lies strictly between two binary32 values, given by an approximation far finer than their distance: the
lower or the upper of the two (R186). -/
def bracket (up : Bool) (v : Int) (scale : Int) : Nat :=
  let neg := decide (v < 0)
  -- an odd last bit keeps the value off every binary32 value
  let x : FV := .fin neg (2 * v.natAbs + 1) (scale - 1 - (fxBits : Int))
  f32.enc (if up then .rup else .rdn) x

def isqrtGo : Nat → Nat → Nat → Nat
  | 0, _, r => r
  | k + 1, n, r => isqrtGo k n (if (r + 2 ^ k) * (r + 2 ^ k) ≤ n then r + 2 ^ k else r)

/-- The square root of `n` below `2^(2*64)`, rounded down. -/
def isqrt (n : Nat) : Nat := isqrtGo 64 n 0

/-- 1/x, rounded correctly. -/
def rcpFV : FV → FV
  | .nan => .nan
  | .inf s => .fin s 0 0
  | .fin s m e =>
    if m = 0 then .inf s
    else
      let q := 2 ^ 80 / m
      .fin s (2 * q + (if 2 ^ 80 % m = 0 then 0 else 1)) (-80 - e - 1)

/-- √x, rounded correctly once the last bit stands for what is left over. -/
def sqrtFV : FV → FV
  | .nan => .nan
  | .inf s => if s then .nan else .inf false
  | .fin s m e =>
    if m = 0 then .fin s 0 0
    else if s then .nan
    else
      let odd := e % 2 != 0
      let m' := (if odd then 2 * m else m) * 2 ^ 80
      let e' := (if odd then e - 1 else e) - 80
      let r := isqrt m'
      .fin false (2 * r + (if r * r = m' then 0 else 1)) (e' / 2 - 1)

/-- 1/√x: the quotient of 2^100 and the root of a wide multiple. -/
def rsqFV : FV → FV
  | .nan => .nan
  | .inf s => if s then .nan else .fin false 0 0
  | .fin s m e =>
    if m = 0 then .inf s
    else if s then .nan
    else
      -- 1/sqrt(m * 2^e) = sqrt(2^110 / m) * 2^((-110 - e) / 2), -110 - e even
      let odd := e % 2 != 0
      let m1 := if odd then 2 * m else m
      let e1 := if odd then e - 1 else e
      let n := 2 ^ 110 / m1
      let r := isqrt n
      let exact := r * r == n && 2 ^ 110 % m1 == 0
      .fin false (2 * r + (if exact then 0 else 1)) ((-110 - e1) / 2 - 1)

/-- Whether `m` is a power of two. -/
def isPow2 (m : Nat) : Bool := m != 0 && 2 ^ Nat.log2 m == m

/-- EX2, LG2, SIN, COS and TANH of a finite value that is not zero (R186). -/
def sfuFin (fn : SfuFn) (up : Bool) (neg : Bool) (m : Nat) (e : Int) : Nat :=
  let top := (Nat.log2 m : Int) + e
  let sgn := if neg then f32.sgn else 0
  match fn with
  | .ex2 =>
    if 8 ≤ top then (if neg then (if up then 1 else 0) else if up then f32.inf else f32.inf - 1)
    else
      let x := fxOf neg m e
      let n := x / fxOne
      let fr := x - n * fxOne
      if fr = 0 then
        (if n < -149 ∨ 128 ≤ n then bracket up fxOne n else f32.enc .rne (.fin false 1 n))
      else if top < -60 then
        -- closer to 1 than half a last place
        (if neg then (if up then 0x3F800000 else 0x3F7FFFFF) else if up then 0x3F800001 else 0x3F800000)
      else bracket up (fxExp (fxMul fr fxLn2)) n
  | .lg2 =>
    if neg then f32.nan
    else if isPow2 m then f32.enc .rne (FV.ofInt top)
    else
      -- x = 2^n * y with 1 ≤ y < 2; log2 x = n + 2 atanh((y - 1) / (y + 1)) / ln 2
      let y := fxOf false m (e - top)
      let l := fxDiv (2 * fxAtanh (fxDiv (y - fxOne) (y + fxOne))) fxLn2
      bracket up (top * fxOne + l) 0
  | .sin | .cos =>
    if 20 ≤ top then f32.nan
    else if top < -40 then
      (match fn with
       | .sin =>
         let c := magCode 24 (-149) .rne neg m e
         -- sin x lies between x and the value below it in magnitude
         (if up = neg then c - 1 else c) + sgn
       | _ => if up then 0x3F800000 else 0x3F7FFFFF)
    else
      let x := fxOf neg m e
      let h := fxPi / 2
      let k := (2 * x + h) / (2 * h)
      let r := x - k * h
      let j := (if fn = .sin then k else k + 1) % 4
      let v := if j = 0 then fxSin r else if j = 1 then fxCos r else if j = 2 then -fxSin r else -fxCos r
      bracket up v 0
  | .tanh =>
    if 5 ≤ top then (if up = neg then 0x3F7FFFFF else 0x3F800000) + sgn
    else if top < -30 then
      let c := magCode 24 (-149) .rne neg m e
      (if up = neg then c - 1 else c) + sgn
    else
      -- tanh |x| = (1 - t) / (1 + t) with t = e^(-2|x|), the exponential by halving the argument six times
      let y := fxExp (-(fxOf false m e) / 32)
      let y := fxMul y y
      let y := fxMul y y
      let y := fxMul y y
      let y := fxMul y y
      let y := fxMul y y
      let t := fxMul y y
      let v := fxDiv (fxOne - t) (fxOne + t)
      bracket up (if neg then -v else v) 0
  | _ => f32.nan

/-- SFU (R186). -/
def sfu (fn : SfuFn) (a : Word32) : Word32 :=
  let x := f32.dec a.toNat
  match fn, x with
  | .rcp, x => w32 (f32.enc .rne (rcpFV x))
  | .rsq, x => w32 (f32.enc .rne (rsqFV x))
  | .sqrt, x => w32 (f32.enc .rne (sqrtFV x))
  | _, .nan => w32 f32.nan
  | .ex2, .inf neg => if neg then 0 else w32 f32.inf
  | .lg2, .inf neg => if neg then w32 f32.nan else w32 f32.inf
  | .tanh, .inf neg => if neg then 0xBF800000 else 0x3F800000
  | _, .inf _ => w32 f32.nan
  | fn, .fin neg m e =>
    if m = 0 then
      match fn with
      | .ex2 => 0x3F800000
      | .lg2 => w32 (f32.inf + f32.sgn)
      | .cos => 0x3F800000
      | _ => a
    else w32 (sfuFin fn (Config.sfuUp fn a) neg m e)

end Sys2Proof.Machine
end

