-- ==== Sys2Proof/Machine/Flags.lean ====
section
/-!
DEFINITION. What the machine's instructions compute into predicates and counters: relations over integers and binary32,
truth tables, agreement over lanes, and the nesting counters of structured divergence.
-/
namespace Sys2Proof.Machine

/-- A relation over an order. -/
def relHolds (r : Rel) (o : Ordering) : Bool :=
  match r, o with
  | .eq, .eq => true
  | .ne, .lt => true
  | .ne, .gt => true
  | .lt, .lt => true
  | .le, .lt => true
  | .le, .eq => true
  | .gt, .gt => true
  | .ge, .gt => true
  | .ge, .eq => true
  | _, _ => false

/-- Integer comparison, signed or unsigned (R188, R135). -/
def relInt {w : Nat} (r : Rel) (uns : Bool) (a b : BitVec w) : Bool :=
  relHolds r (if uns then compare a.toNat b.toNat else compare a.toInt b.toInt)

/-- FSET's comparison (R54, R188): unordered makes NE alone true. -/
def relF32 (r : Rel) (a b : Word32) : Bool :=
  let x := f32.dec a.toNat
  let y := f32.dec b.toNat
  if x.isNan || y.isNan then r == .ne else relHolds r (FV.cmp false x y)

/-- PLOP and QLOP (R189, R135): bit 2a + b of the table. -/
def truthTable (tt : BitVec 4) (a b : Bool) : Bool := tt.getLsbD (2 * a.toNat + b.toNat)

/-- AGREE (R191): the lanes' values. -/
def agree (m : AgreeMode) (l : List Bool) : Bool :=
  match m with
  | .all => l.all id
  | .any => l.any id
  | .same => l.all id || !l.any id
  | .none => !l.any id

-- Nesting counters (R171, R172).

def nestIf (c : Nat) (holds : Bool) : Nat := if c ≠ 0 then c + 1 else if holds then 0 else 1
def nestElse (c : Nat) : Nat := if c = 0 then 1 else if c = 1 then 0 else c
def nestEndIf (c : Nat) : Nat := c - 1
def nestLoop (c : Nat) : Nat := if c ≠ 0 then c + 2 else 0
def nestBrk (d c : Nat) (holds : Bool) : Nat := if c = 0 ∧ holds then d + 2 else c
def nestCont (d c : Nat) (holds : Bool) : Nat := if c = 0 ∧ holds then d + 1 else c
/-- ENDL's first step. -/
def nestNext (c : Nat) : Nat := if c = 1 then 0 else c
/-- ENDL's exit. -/
def nestExit (c : Nat) : Nat := if c ≠ 0 then c - 2 else 0

end Sys2Proof.Machine
end

