-- ==== Sys2Proof/Machine/State.lean ====
section
/-!
DEFINITION. The state of the machine, as plain data: what every chapter of the spec gives it, and its value after reset.
-/
namespace Sys2Proof.Machine

/-- An ordered association list: the plain-data map of this model. Keys rise strictly (`Assoc.wf`). -/
abbrev Assoc (α : Type) := List (Nat × α)

/-- A location of a warp's register state: what a pending result or a reply writes (R105, R138). `t` is a thread of
the block, `w` a home warp. -/
inductive Cell where
  | v (t n : Nat)
  | p (t n : Nat)
  | x (t n : Nat)
  | xwin (w n : Nat)
  | s (n : Nat)
  deriving DecidableEq, Repr

/-- A fixed-latency result that has not reached its latency (R105): `due` is the reading of the warp's distance clock
from which it is visible; the cells carry the values (an X window as base * 512 + length). -/
structure Pend where
  due  : Nat
  vals : List (Cell × Nat)
  deriving DecidableEq, Repr

/-- One bypass entry (R143): the distance-clock reading from which it can be read and, where the instruction writes one V
register in a fixed class, the value per thread and register number. -/
structure Byp where
  due  : Nat
  vals : List (Nat × Nat × Word32)
  tr   : Bool                    -- the destination was transient (R103)
  deriving DecidableEq, Repr

/-- The state that travels with a thread (R138). -/
structure Thread where
  v    : Assoc Word32
  dead : List Nat
  x    : List (BitVec 16)
  p    : BitVec 12
  nest : Nat
  rng  : Word32
  live : Bool
  deriving DecidableEq, Repr

/-- The state of a home warp (R138): the X windows as (base, length), SCHK and the read position. -/
structure HomeWarp where
  xwin  : List (Nat × Nat)
  schk  : Bool
  rdpos : Nat
  deriving DecidableEq, Repr

/-- Why an agent does not issue (R20, R148, R173, R267): recorded when an attempt to issue had to wait. -/
inductive Wait where
  | none
  | meet                       -- at a meeting instruction (R148)
  | join                       -- at the join of the running path (R150)
  | bar (team : Bool)          -- at BAR or BAR.TEAM (R173)
  | pop                        -- in a decision-queue pop (R129)
  | push                       -- in DQPUSH (R130)
  | wwait                      -- in WWAIT (R137)
  | stile (n : Nat)            -- in STWAIT (R265)
  | yield (d : Nat)            -- in YIELD with destination S[d], until the team is saved (R111)
  | take                       -- in TAKE (R118)
  | park (entry : Nat)         -- parked with a yield continuation (R267)
  | revoke (h : Nat)           -- in HREV of handle h, the revocation made (R270)
  | stamp (t stall : Nat) (kill : List (Nat × Nat))  -- in CWAIT on stamp t, its checks passed (R223): its stall count and the
                               -- (thread, register) pairs its last-use mark kills (R141)
  | barw (n : Nat)             -- in BARW on barrier n (R228)
  | sts                        -- in STS, its checks passed (R223, R224)
  | reply                      -- for the reply of SVC or SVCP (R326)
  | other                      -- at any other joint, interlock or memory wait
  deriving DecidableEq, Repr

/-- A batch of the matrix engine (R241): OUTSTANDING or IDLE, with its entries. -/
structure Batch where
  out     : Bool
  entries : List Nat
  deriving DecidableEq, Repr

/-- A running warp (R138, R149): its number, its agent, PC, the thread in each of its 32 slots, the bypass, pending
results, the distance clock (the sum of the stall counts it has issued, R86), the instructions issued since its last transient
destination, counted up to 3 (R103), the wait, the STALL.SHORT waiver of R88, whether it has ended, the matrix batches and
bindings (R236, R241), `pre` with what each (thread, register) bound by the open batch read as before the batch bound it (R236), and the tickets of the copy and base-die queues. -/
structure Warp where
  k       : Nat
  aid     : Nat
  pc      : Addr54
  lanes   : List (Option Nat)
  byp     : List Byp
  pend    : List Pend
  clock   : Nat
  since   : Nat
  wait    : Wait
  waive   : Bool
  ended   : Bool
  openB   : List Nat
  batches : List Batch
  binds   : List (Nat × Nat)      -- (V register, matrix entry that binds it)
  pre     : List (Nat × Nat × Word32)
  tickets : List Nat
  deriving DecidableEq, Repr

/-- A sequencer thread (R127, R109). -/
structure SeqThread where
  aid     : Nat
  pc      : Addr54
  s       : List Word64
  q       : BitVec 8
  clke    : Word64
  clkl    : Word64
  hidden  : Option Addr54
  held    : Wait                -- the wait that a running handler interrupted
  exited  : Bool
  handlerOnly : Bool
  wait    : Wait
  tickets : List Nat
  deriving DecidableEq, Repr

/-- KIND of a reconvergence entry (R152). -/
inductive MeetKind where
  | brd | brx | call
  deriving DecidableEq, Repr

/-- A reconvergence-stack entry (R152). `tags` is TAG t for every thread of the block; `aids`, the model's own, names the agents that
its paths have run as, whose accesses the join waits for (R42). -/
structure StackEnt where
  joinpc : Addr54
  kind   : MeetKind
  cur    : Nat
  last   : Nat
  basepc : Addr54
  altpc  : Addr54
  tags   : List Nat
  aids   : List Nat
  deriving DecidableEq, Repr

/-- The trap record (R107). -/
structure TrapRec where
  code  : Nat
  pc    : Addr54
  addr  : Nat
  aux   : Nat
  warp  : Nat
  lanes : Word32
  deriving DecidableEq, Repr

/-- Where a block stands with respect to traps (R107, R109): running; its handler runs; stopped and with the die kernel
(a report names it). -/
inductive HandlerSt where
  | run
  | handler
  | kernel
  deriving DecidableEq, Repr

/-- A stile (R265). `obs` lists the entries whose signals were counted since it was armed (R45). -/
structure Stile where
  cnt : Nat
  tgt : Nat
  obs : List Nat
  deriving DecidableEq, Repr

/-- An accumulator element with its two flag bits (R62, R63). -/
structure AccEl where
  v   : BitVec 128
  sat : Bool
  inv : Bool
  deriving DecidableEq, Repr

/-- The fields of a launch header a block keeps (R93). -/
structure Header where
  widths  : List Nat
  regs    : Nat
  fuse    : Bool
  seqv    : Bool
  warpv   : Bool
  trapv   : Bool
  seqEntry  : Addr54
  warpEntry : Addr54
  trapEntry : Addr54
  dataPtr : Nat
  dataSize : Nat
  clmg    : Nat
  hdlg    : Nat
  claim   : RV
  base    : RV
  mbz     : Bool          -- a must-be-zero bit is set
  deriving DecidableEq, Repr

/-- A continuation record (R95). -/
structure Rec where
  code    : Nat
  edge    : Nat
  frame   : Nat
  prio    : Nat
  workid  : Nat
  join    : Nat
  kid     : Nat
  range   : Bool
  restart : Bool
  resume  : Bool
  retries : Nat
  pdies   : Nat
  rangel  : Nat
  mbz     : Bool
  deriving DecidableEq, Repr

/-- What an access does with the bytes it binds (R209): a piece of `n` bytes from byte `off` of the lane's value goes to
the cell, zero- or sign-extended. -/
structure Dest where
  cell : Cell
  off  : Nat
  n    : Nat
  sx   : Bool
  deriving DecidableEq, Repr

/-- One lane of an atomic (R206): its thread, address, operand, expected value and the cell of its return value. -/
structure AtomLane where
  thr : Nat
  a   : Nat
  b   : Word64
  d   : Word32
  ret : Option Cell
  deriving DecidableEq, Repr

/-- What an atomic, RED.M or RED.C request does at the word (R206, R207, R229). -/
inductive RmwOp where
  | atom (op : AtomOp)
  | cas
  | exch
  | redm (op : RedOp) (fmt : RedFmt)
  | redc
  deriving DecidableEq, Repr

/-- The kinds of access an issue list holds (R34, R49). `addf` is an output of an MXV that adds: one binary32 addition to the word
at four byte addresses, each with its key identifier (R282). -/
inductive AccKind where
  | load (a n : Nat) (dest : List Dest)
  | store (bytes : List Host.Cell)
  | rmw (op : RmwOp) (lanes : List AtomLane)
  | addf (addrs : List (Nat × Nat)) (v : Word32)
  | sts (bytes : List Host.Cell) (stamp : Word64)
  | ldas (a n : Nat) (t tmax : Word64) (dest : List Dest) (st : List Cell) (pr : Option Cell)
  | clean (granules : List Nat)
  | inval (granules : List Nat)
  | fence (sc : Scope)
  | arrive (bar : Nat) (dest : List Cell)
  deriving DecidableEq, Repr

/-- In which buffer or queue of R34 an access is. A performed access is in none and is removed. -/
inductive AccSt where
  | issued                     -- in the issue list alone: a load not bound, a fence not complete, an arrival
  | buffer                     -- in the agent's store buffer
  | commitWait                 -- in the die's commit-wait buffer
  | transit (dst : Nat)        -- in the transit set from the agent's die to die `dst`
  | queued                     -- in its home line queue
  | baseq                      -- in a base-die operation queue
  | writingBack (upto : Nat)   -- a CLEAN that waits for write-backs with identifiers below `upto`
  | replica (ord : Nat) (cells : List Host.Cell)   -- served at its home with these bytes and on its way to the replica, in
                               -- the order of serving (R324)
  deriving DecidableEq, Repr

/-- One access (R34). `inst` numbers the instruction it came from: the lanes of one instruction are unordered (R32). `loc`
is the block whose core-local window it is in, or none for physical memory; `line` is the 128-byte line in that space. -/
structure Access where
  aid  : Nat
  inst : Nat
  die  : Nat
  ctx  : Nat
  loc  : Option Nat
  line : Nat
  va   : Nat
  page : Nat                   -- KIND of the page (R200): 0 NORMAL, 1 SWM, 2 COMM, 3 STAMPED
  keyid : Nat
  slice : Nat                  -- the cluster of the issuer, which picks the windrow slice (R215)
  kind : AccKind
  acq  : Option Scope
  rel  : Option Scope
  st   : AccSt
  refusals : Nat
  firstRef : Nat
  retryAt  : Nat
  repl : Bool
  deriving DecidableEq, Repr

/-- Who issues (R31): a warp, a sequencer thread, an engine entry, a die's network engine placing what arrives (R295), or a supervisor
core. An inbound request is one step (R205) and leaves no agent. -/
inductive AgentKind where
  | warp (blk k : Nat)
  | seq (blk : Nat)
  | entry (id : Nat)
  | net (die : Nat)
  | super (die : Nat)
  deriving DecidableEq, Repr

/-- A memory agent: its accesses not performed, in program order (the issue list of R34; those in state `buffer` are its
store buffer), the engine entries it has observed whose writes may still travel (R45), and the entries that a QFENCE or
NQFENCE of it holds its later entries behind (R43). -/
structure AgentRec where
  kind  : AgentKind
  die   : Nat
  issue : List Nat
  observed : List Nat
  qf    : List Nat
  deriving DecidableEq, Repr

/-- A home line queue with its reservation (R34, R213): the holder and its time of first refusal. -/
structure HomeLine where
  q      : List Nat
  resv   : Option (Nat × Nat)
  deriving DecidableEq, Repr

/-- A lease copy (R35, R210), as a load under `keyid` read it: a load under another key identifier takes nothing of it (R336). -/
structure Lease where
  die  : Nat
  line : Nat
  ctx  : Nat
  va   : Nat
  keyid : Nat
  exp  : Nat
  data : List Byte
  deriving DecidableEq, Repr

/-- An SWM copy (R204): the valid bytes, each with its dirty mark. -/
structure SwmCopy where
  die  : Nat
  line : Nat
  ctx  : Nat
  va   : Nat
  keyid : Nat
  repl : Bool
  bytes : Assoc (Byte × Bool)
  deriving DecidableEq, Repr

/-- A windrow line (R215): the partial of a line in a slice, as bytes, with the context, key and replica mark of the RED.C that
opened it. -/
structure Windrow where
  die   : Nat
  slice : Nat
  line  : Nat
  ctx   : Nat
  keyid : Nat
  repl  : Bool
  data  : List Byte
  deriving DecidableEq, Repr

/-- A partial that was evicted and has not reached the home (R215). -/
structure Partial where
  die  : Nat
  line : Nat
  ctx  : Nat
  keyid : Nat
  repl : Bool
  data : List Byte
  deriving DecidableEq, Repr

/-- A declared commutative range (R214, R312): physical pages of one context. -/
structure CommRange where
  ctx  : Nat
  base : Nat
  len  : Nat
  op   : RedOp
  fmt  : CommFmt
  deriving DecidableEq, Repr

/-- A gleaning log's hardware side (R217, R218): created, its control block, which holds its base and size, the entries appended
lately, and CONFLICT entries that wait for room (R220). -/
structure Glean where
  made  : Bool
  ctl   : Nat
  recent : List (Nat × Nat)
  waitq : List (Nat × Nat × Nat)
  deriving DecidableEq, Repr

/-- A translation in a cache (R202): a page of a context with its attributes. -/
structure Tlb where
  ctx  : Nat
  va   : Nat
  size : Nat
  pte  : Word64
  pa   : Nat
  deriving DecidableEq, Repr

/-- A walk outstanding on a die with the agents that wait for it (R202). -/
structure Walk where
  ctx  : Nat
  page : Nat
  who  : List Nat
  deriving DecidableEq, Repr

/-- A walk that failed and that agent `aid`, which waited for it, has not been told of (R200). -/
structure WalkFail where
  aid  : Nat
  ctx  : Nat
  page : Nat
  aux  : Nat
  deriving DecidableEq, Repr

/-- A range under phase 1 of a shoot-down on a die (R202, R318): the place in the message order of the INV, REGION or REHOME that
holds it, and the initiator. `kept` are the translations of the range that running engine entries had before it (R319): an entry's work on
those pages goes on through them. -/
structure HeldRange where
  seq  : Nat
  init : Nat
  ctx  : Nat
  va   : Nat
  len  : Nat
  gen  : Nat
  acked : Bool
  kept : List (Nat × Tlb)
  deriving DecidableEq, Repr

/-- States of a time unit (R222). -/
inductive TimeSt where
  | unset | disciplined | holdover
  deriving DecidableEq, Repr

/-- A die's time unit (R221 to R224): the interval as it was at the last accepted update, when that was, and `lf`, the reading of
`latest` then, below which `latest` does not go (R221). -/
structure TimeUnit where
  st   : TimeSt
  e0   : Nat
  l0   : Nat
  lf   : Nat
  t0   : Nat
  prev : Option Nat
  deriving DecidableEq, Repr

/-- A package barrier (R227, R228): `travel` holds the times at which releases land. -/
structure Barrier where
  n    : Nat
  rg   : Word32
  cnt  : Nat
  pend : Nat
  travel : List Nat
  deriving DecidableEq, Repr

/-- The engine queues (R34): copy and base-die queues and network queues of a core, and the matrix engine's slots. -/
inductive QueueId where
  | cq (core q : Nat)
  | bq (core q : Nat)
  | nq (core q : Nat)
  | mat (core : Nat)
  deriving DecidableEq, Repr

/-- An end of a copy (R261). -/
inductive End where
  | loc (blk off : Nat)
  | handle (h off : Nat)
  deriving DecidableEq, Repr

/-- A copy entry (R261 to R264): the runs it moves, in transfer order, are computed from these fields. -/
inductive CopyForm where
  | lin (len : Nat)
  | strided (xlen ycnt zcnt : Nat) (ssy ssz dsy dsz : Int)
  | indexed (scat : Bool) (lgsz count laddr estr : Nat) (idx : Option (List Nat))
  deriving DecidableEq, Repr

/-- The fields of a matrix descriptor (R230, R66). -/
structure FmtBlk where
  w     : Int
  saddr : Nat
  sfmt  : Bool
  blk   : Nat
  fmt   : Nat
  deriving DecidableEq, Repr

structure MDesc where
  aaddr : Nat
  baddr : Nat
  astr  : Nat
  bstr  : Nat
  m     : Nat
  n     : Nat
  k     : Nat
  wide  : Bool
  rskip : Nat
  fa    : FmtBlk
  sigt  : Nat
  sige  : Bool
  fb    : FmtBlk
  deriving DecidableEq, Repr

/-- The form of a matrix product (R232): into registers (with the value each updated element starts from, or the entry
it chains onto), into banks, or into shadow banks under a tag. -/
inductive MatForm where
  | mma (base : Nat)
  | mmaA (base : Nat)
  | mmaS (tag live shadow : Nat)
  deriving DecidableEq, Repr

/-- One updated element of a register product (R234, R235): row, column, the thread and register that receive it, the
value read at issue and, where it chains, the entry whose result it continues from. -/
structure MatReg where
  r     : Nat
  n     : Nat
  thr   : Nat
  reg   : Nat
  val   : Word32
  chain : Option Nat
  deriving DecidableEq, Repr

/-- A matrix entry: scales are the raw codes read at issue (R69). `ea` and `eb` hold the operand elements read so far (R242),
`steps` the products added so far to an element of accumulator memory (R243), by row * N + column. -/
structure MatEntry where
  form   : MatForm
  start  : Bool
  d      : MDesc
  sa     : List Nat
  sb     : List Nat
  slot   : Nat
  regs   : List MatReg
  out    : List (Nat × Nat × Word32)   -- results: thread, register, value
  ea     : Assoc Nat
  eb     : Assoc Nat
  steps  : Assoc Nat
  deriving DecidableEq, Repr

/-- A base-die command's descriptor (R281, R284, R285). -/
inductive BdForm where
  | mgath (g sum : Bool) (srch srcoff dsth dstoff laddr gm1 count rsz rstr : Nat) (idx : Option (List Nat))
  | cvt (srch srcoff dsth dstoff count fromF toF : Nat) (sat : Bool) (rnd : Rnd)
  | stripe (srch srcoff dsth dstoff k n fromF toF : Nat) (sat : Bool) (rnd : Rnd)
  | mxv (bh boff oh ooff sh soff aaddr astr vm1 fmta : Nat) (acc sched : Bool) (k n : Nat) (abytes : Option (List Byte))
  deriving DecidableEq, Repr

/-- A packet at its initiator (R293, R294): the positions of the transfer that it carries, sent at least once, acknowledged (or its
reply placed), refused by the target, given up after 16 transmissions, its transmissions, its bytes. -/
structure Pkt where
  start : Nat
  len   : Nat
  sent  : Bool
  acked : Bool
  refused : Bool
  lapsed : Bool
  tx    : Nat
  data  : List Byte
  deriving DecidableEq, Repr

/-- A work request (R292), with the payload size P and the mode of its connection. `op`: 0 SEND, 1 WRITE, 2 READ. -/
structure NetWork where
  op   : Nat
  lh   : Nat
  loff : Nat
  len  : Nat
  conn : Nat
  icnt : Nat
  tcnt : Nat
  tce  : Bool
  rh   : Nat
  roff : Nat
  deriving DecidableEq, Repr

/-- What an entry does. -/
inductive EntryForm where
  | copy (form : CopyForm) (route : Route) (dst src : End)
  | mat (m : MatEntry)
  | bd (f : BdForm)
  | net (f : NetWork)
  deriving DecidableEq, Repr

/-- The life of an entry (R43). -/
inductive EntrySt where
  | queued
  | begun
  deriving DecidableEq, Repr

/-- An engine entry (R34, R43, R257). Its id is also its agent's id. `num` is its sequence number on its queue; `pre` the
accesses its agent issued before the enqueue; `preQ` the entries that a QFENCE or NQFENCE before it names; `moved` the
pieces it has begun (R260) and `done` the transfer positions moved so far; `ends` the BASE of each handle it names, read at
BEGIN (R258); `revoked` whether a slot it names was revoked (R260); `issuer` the running warp, or 63 for the sequencer;
`result` its status once it has taken COMPLETE: it stays listed while writes of it travel (R45) or an MWAIT is due. `early`
holds operand bytes and elements read ahead of their use (R264, R276, R285), `verdict` the status with which it is to end where
that is decided before COMPLETE. -/
structure Entry where
  id     : Nat
  queue  : QueueId
  num    : Nat
  blk    : Nat
  team   : Nat
  ctx    : Nat
  die    : Nat
  aid    : Nat
  issuer : Nat
  pc     : Addr54
  sig    : Nat
  sigBlk : Nat
  pre    : List Nat
  preQ   : List Nat
  st     : EntrySt
  form   : EntryForm
  moved  : Nat
  done   : List Nat
  ends   : List Nat
  early  : Assoc Nat
  verdict : Option (Nat × Nat)
  revoked : Bool
  result : Option (Nat × Nat)        -- status code and DONE, once decided
  pkts   : List Pkt                  -- packets of a message, or of a copy with a far end
  dropSig : Bool                     -- its signal is to be dropped (R26)
  base   : Nat                       -- the die on whose base die a base-die entry runs, from its BEGIN on (R276)
  deriving DecidableEq, Repr

/-- A queue's counts and its status ring of 16 words (R256, R275); NQ queues keep ENQ and SEQ alone (R294). -/
structure QueueRec where
  enq  : Nat
  seq  : Nat
  ring : List Word64
  deriving DecidableEq, Repr

/-- A connection (R290). -/
structure Conn where
  ctx    : Nat
  valid  : Bool
  uud    : Bool
  pktsz  : Nat
  port   : Nat
  keyix  : Nat
  pathix : Nat
  rxring : Nat
  rxv    : Bool
  remote : Word64
  deriving DecidableEq, Repr

/-- An ingest ring: its descriptor and its state (R298). -/
structure Ring where
  base   : Nat
  slotlg : Nat
  cntlg  : Nat
  dropOld : Bool
  port   : Nat
  dflt   : Bool
  ctx    : Nat
  valid  : Bool
  prod   : Word64
  cons   : Word64
  full   : Word64
  key    : Word64
  frame  : Word64
  nomat : Word64
  deriving DecidableEq, Repr

/-- A flow entry (R299): a match on the port and header fields (as one number), a ring and a key-table index. -/
structure Flow where
  port  : Nat
  hdr   : Nat
  ring  : Nat
  keyix : Nat
  deriving DecidableEq, Repr

/-- A message arriving at a target (R295): the packets placed, when the first was, and whether a packet was refused. -/
structure Arrival where
  conn  : Nat
  msg   : Nat
  total : Nat
  got   : List Nat
  first : Nat
  tcnt  : Nat
  tce   : Bool
  ctx   : Nat
  done  : Bool
  refused : Bool
  deriving DecidableEq, Repr

/-- A completion counter (R291). -/
structure Counter where
  done : Word64
  err  : Word64
  deriving DecidableEq, Repr

/-- What bytes that the network engine is placing belong to: a READ's reply for a packet of an entry, a packet of a WRITE, or a ring's slot with the SEND to acknowledge, if
any: its connection, message, index and sequence number (R295, R296). -/
inductive PlaceKind where
  | reply (entry pkt conn msg : Nat)
  | packet (conn msg idx total tcnt : Nat) (tce : Bool) (ctx : Nat)
  | slot (ring : Nat) (ack : Option (Nat × Nat × Nat × Nat))
  deriving DecidableEq, Repr

/-- Bytes that are on their way from the network engine to their homes, as stores of agent `aid`. -/
structure Placing where
  aid  : Nat
  kind : PlaceKind
  deriving DecidableEq, Repr

/-- The network engine of a die (R288 to R301): a key-table entry is a key with its security association (R301); `rot` counts the
packets each connection has sent, which picks the entry of its path table (R289). -/
structure NetDie where
  conns    : Assoc Conn
  rings    : Assoc Ring
  flows    : List Flow
  keys     : Assoc (Nat × Nat)
  paths    : Assoc (List Nat)
  rot      : Assoc Nat
  arrivals : List Arrival
  sendWin  : List (Nat × Nat)
  placing  : List Placing
  kFrames  : Nat
  deriving DecidableEq, Repr

/-- The physical units a block holds or a return gives back, by name (R316): REG granules of the four partitions, CLM
granules, banks, matrix slots, stiles. -/
structure Phys where
  reg   : List (List Nat)
  clm   : List Nat
  acc   : List Nat
  mslot : List Nat
  stile : List Nat
  deriving DecidableEq, Repr

/-- A pair of the speculation pairing table (R244): shadow bank, live bank, tag. -/
structure Pairing where
  shadow : Nat
  live   : Nat
  tag    : Nat
  deriving DecidableEq, Repr

/-- An SVC or SVCP whose reply has not been taken (R326, R327): its agent, tag, service, destination, PC, and the
reply (value, denied) once it has come. -/
structure SvcWait where
  aid   : Nat
  tag   : Nat
  svcn  : Nat
  d     : List Cell
  pc    : Addr54
  reply : Option (Word64 × Bool)
  deriving DecidableEq, Repr

/-- What an SVCP keeps while it speculates (R327): its agent, the prediction, the agent's own state at the SVCP (a warp
with the threads and the home warps it uses, or a sequencer thread), the registers of the undo buffer, and the SVCP
store buffer in issue order. -/
structure Spec where
  aid    : Nat
  tag    : Nat
  pred   : Word64
  warp   : Option Warp
  threads : List (Nat × Thread)
  homes  : List (Nat × HomeWarp)
  seq    : Option SeqThread
  undo   : List (Nat × Nat)
  stores : List Access
  deriving DecidableEq, Repr

/-- A resident or saved block (R10, R15, R104, R138). `core` is 0 to 95 on its die; `workid` is the identifier of its
thread 0; `adm` counts admissions (R75); `trapPa` is the physical address of the header's HW3, which is
read at a trap (R93); `fwd` is the tag of the record by which a handler has passed the block on to its die kernel (R308). The decision queue keeps the entries from push number `dqBase` on. The stack is
youngest first: its first 8 entries are on chip, the others in the headland (R153). `byte` offsets of the core-local
window are relative to the block; a byte not listed is 0 (R121). -/
structure Block where
  id      : Nat
  die     : Nat
  core    : Nat
  slot    : Nat
  team    : Nat
  ctx     : Nat
  kid     : Nat
  workid  : Nat
  adm     : Nat
  hdr     : Header
  trapPa  : Nat
  claim   : RV
  hold    : RV
  bnd     : Nat
  phys    : Phys
  threads : List Thread
  homes   : List HomeWarp
  warps   : List Warp
  seq     : Option SeqThread
  dq      : List Word64
  dqBase  : Nat
  closed  : Bool
  stack   : List StackEnt
  parked  : List Warp                -- home warps while paths run
  remap   : List (BitVec 8)
  stiles  : List Stile
  acc     : Assoc AccEl
  bw      : List Int
  pair    : List Pairing
  trap    : TrapRec
  hst     : HandlerSt
  fwd     : Option Nat
  exitJ   : Option Nat
  bias    : List Nat
  clm     : List Host.Cell
  svc     : List SvcWait
  spec    : List Spec
  deriving DecidableEq, Repr

/-- A resident team (R14, R99, R102): its record, the launch and scheduling group it was dealt from, its blocks in
ascending WF1, and whether it has been told to stop (R103). -/
structure Team where
  id     : Nat
  ctx    : Nat
  die    : Nat
  cluster : Nat
  crec   : Rec
  addr   : Nat
  launch : Nat
  group  : Nat
  blocks : List Nat
  adm    : Nat
  stop   : Bool
  deriving DecidableEq, Repr

/-- A saved team (R104): its save area and, per block, the state and the SEQ of CQ0-CQ7 and BQ0-BQ3 at the save. -/
structure SavedTeam where
  area   : Nat
  size   : Nat
  team   : Team
  blocks : List (Block × List Nat)
  deriving DecidableEq, Repr

/-- A record in a hamper (R98, R99): its dealing position, the dies whose edge regions are to be cleaned (R17, R97), whether its header has been checked (R94), and the cluster that R103 chose. `id` names the team
that the record becomes. -/
structure QRec where
  id     : Nat
  crec   : Rec
  addr   : Nat
  ctx    : Nat
  launch : Nat
  group  : Nat
  pos    : Nat
  prod   : List Nat
  checked : Bool
  cluster : Option Nat
  deriving DecidableEq, Repr

/-- Limits of one kernel on one core (R100). -/
structure Quota where
  slots : Nat
  lim   : RV
  deriving DecidableEq, Repr

/-- A return being zeroed (R121). -/
structure Zeroing where
  kid  : Nat
  phys : Phys
  deriving DecidableEq, Repr

/-- A core (R14, R100, R112, R256): its enabled mark, quotas per kernel, returns being zeroed in order, the WAITING TAKEs oldest
first with what they ask (R118), its translation cache and its queues. -/
structure Core where
  enabled : Bool
  quotas  : Assoc Quota
  zero    : List Zeroing
  waiting : List (Nat × RV)
  tlb     : List Tlb
  cq      : List QueueRec
  bq      : List QueueRec
  nq      : Assoc QueueRec
  deriving DecidableEq, Repr

/-- A cluster (R100, R317). -/
structure Cluster where
  fused  : Bool
  halt   : Bool
  halted : Bool
  deriving DecidableEq, Repr

/-- A context (R13, R97, R199, R258, R291, R321, R337). `place` is the placement mask as each die has it. Completion
counters: key die * 256 + counter. Save areas lie from physical address `saveBase` on (R104); the die kernels take new page tables
from `tabNext` on (R329). -/
structure Ctx where
  l1      : Nat
  place   : List Nat
  touched : Nat
  htab    : Nat
  hsize   : Nat
  etab    : Nat
  pool    : Nat
  savePool : Nat
  saveBase : Nat
  tabNext : Nat
  conf    : Bool
  keyid   : Nat
  counters : Assoc Counter
  deriving DecidableEq, Repr

/-- A service record (R308). `pos`, the model's own, counts the records appended to its ring before it. -/
structure SvcRec where
  ctx  : Nat
  kid  : Nat
  svcn : Nat
  pred : Bool
  core : Nat
  slot : Nat
  warp : Nat
  tag  : Nat
  args : List Word64
  pos  : Nat
  deriving DecidableEq, Repr

/-- A service the die kernel has begun and not answered (R329): a MAP waits for its command at SEQ `seq`, an UNMAP for
the acknowledgements of its INV and then for its COMMIT. -/
inductive Job where
  | map (tag seq : Nat)
  | unmap (tag ctx gen va pages : Nat) (committed : Option Nat)
  deriving DecidableEq, Repr

/-- A message in the order (R309), with whether a command is accepted (R312) once it has been judged, and the pages of memory that an
accepted COMMDECL declares. -/
structure Msg where
  seq    : Nat
  sender : Nat
  hw     : Bool
  body   : MsgBody
  verdict : Option Bool
  pas    : List Nat
  deriving DecidableEq, Repr

/-- A shoot-down at its initiator (R318, R320): since when, the dies live at the INV, and those counted as acknowledged. -/
structure ShootDown where
  gen   : Nat
  since : Nat
  live  : List Nat
  acked : List Nat
  deriving DecidableEq, Repr

/-- What a report to a die kernel says (R94, R96, R101, R109, R110, R205, R222, R259, R295, R299, R313, R323). -/
inductive Report where
  | rejected (addr check : Nat)
  | badRecord (addr : Nat)
  | joinUnderflow (addr : Nat)
  | forwarded (blk : Nat)
  | killed (team : Nat) (tr : TrapRec)
  | entryXlate (q : QueueId) (num : Nat)
  | remoteXlate (conn off : Nat)
  | inbound (pa : Nat)
  | holdover
  | jlow
  | lostTeam (workid die : Nat)
  deriving DecidableEq, Repr

/-- The life of a die (R321, R333). -/
inductive DieSt where
  | inReset
  | live
  | lost
  deriving DecidableEq, Repr

/-- The channel port's registers and bits (R308, R310, R312, R313, R317). -/
structure Port where
  reply  : Word64
  dhead  : Nat
  jhead  : Nat
  rej    : Nat
  jgap   : Bool
  jlow   : Bool
  winerr : Bool
  deriving DecidableEq, Repr

/-- SENSE (R344). -/
structure Sense where
  tj    : BitVec 16
  fclk  : BitVec 16
  pmod  : BitVec 12
  throt : Bool
  hot   : Bool
  deriving DecidableEq, Repr

/-- One link of a root port (R339, R340). -/
structure LinkSt where
  trained : Bool
  cxl     : Bool
  rate    : Nat
  deriving DecidableEq, Repr

/-- A root port (R339): the number of its links (1, 2 or 4) and each of them. -/
structure Link where
  bifur : Nat
  links : List LinkSt
  deriving DecidableEq, Repr

/-- A die. `hampers` has 16 lists, priority 0 first; `pushq` the records whose push waits for room (R98), `admWait` names the
heads whose admission waits, oldest first, and `admDue` says that a retry event has come for them (R118, R119), `dealt` the team records it dealt that have not retired, with the die of each,
8 where it is to be dealt again (R323), `launches` the groups of each range dealt per die, `edged` the dies whose copies of a
launch's edge regions are invalidated (R17, R97). The service ring (R308), the delivery ring (R310) and the journal (R313) lie in
HBM at their bases; `ring`, `delivery` and `journal` name what stands in them, oldest first, `svcHead` and `dtail` count the
entries written, `jcount` the journal's. `comm` and `bars` are the declarations it has applied (R214, R312), `sessions` the SPDM
sessions with whether FINISH has come (R335), `portKeys` the port keys that its Phidy root has passed on, by key-table entry, until KEYLOAD loads them (R301, R312). -/
structure Die where
  st        : DieSt
  fenced    : Bool
  recovered : Bool
  clusters  : List Cluster
  hampers   : List (List QRec)
  ovf       : Nat
  pushq     : List QRec
  admWait   : List Nat
  admDue    : Bool
  dealt     : List (Nat × QRec)
  launches  : Assoc (List Nat)
  edged     : Assoc (List Nat)
  comm      : List CommRange
  bars      : Assoc Nat
  lease     : Nat
  ceil      : Nat
  wl        : Nat
  time      : TimeUnit
  glean     : Glean
  tlb       : List Tlb
  walks     : List Walk
  fails     : List WalkFail
  held      : List HeldRange
  shoots    : List ShootDown
  ring      : List SvcRec
  ringCap   : Nat
  svcBase   : Nat
  svcHead   : Nat
  jobs      : List Job
  nextGen   : Nat
  port      : Port
  delivered : Nat
  delivery  : List Msg
  dlvBase   : Nat
  dlvCap    : Nat
  dtail     : Nat
  journal   : List Msg
  jn        : Nat
  jBase     : Nat
  jcount    : Nat
  owner     : Option Nat
  reports   : List Report
  net       : NetDie
  sense     : Sense
  link      : Link
  sessions  : Assoc Bool
  portKeys  : Assoc (Nat × Nat)
  measured  : Bool
  deriving DecidableEq, Repr

/-- What leaves the package for the outside (R205, R294, R295, R317, R335, R338). -/
inductive Out where
  | packet (entry pkt op conn rh roff len total tcnt : Nat) (tce : Bool) (path key sa : Nat) (data : List Byte)
  | netAck (die conn msg idx : Nat)
  | netRefuse (die conn msg idx : Nat)
  | netReply (die conn msg idx path key sa : Nat) (data : List Byte)
  | inbound (die fn : Nat) (data : List Byte)
  | inboundUR (die fn : Nat)
  | winRead (die : Nat) (v : Word64)
  | spdmOk (die : Nat) (req : String)
  | spdmVersion (die : Nat) (req : String) (major minor : Nat)
  | spdmAlgos (die : Nat) (req : String) (algs : List String)
  | spdmMeas (die index : Nat) (v : BitVec 512)
  | spdmUnsupported (die : Nat)
  | spdmBusy (die : Nat)
  | resetAck
  deriving DecidableEq, Repr

/-- A CXL window (R198, R340). -/
structure CxlWin where
  die  : Nat
  base : Nat
  len  : Nat
  lost : Bool
  deriving DecidableEq, Repr

/-- A line whose contents changed while a block was resident (R75): its number, the admissions made before the change,
the key it was written under (R336) and the bytes it held. -/
structure OldLine where
  line : Nat
  adm  : Nat
  key  : Nat
  data : List Byte
  deriving DecidableEq, Repr

/-- What the next step does: an agent issues, an event happens, time advances by 1 ns, an engine entry moves one unit of its work,
or a die's kernel starts again (R314). -/
inductive Choice where
  | run (aid : Nat)
  | event (i : Instr)
  | tick
  | move (entry unit : Nat)
  | restart (die : Nat)
  deriving DecidableEq, Repr

/-- A block's core-local window as it left it: its size, the headland's bounds (R196), its bytes. -/
structure Window where
  size  : Nat
  lo    : Nat
  hi    : Nat
  bytes : List Host.Cell
  deriving DecidableEq, Repr

/-- The ordering machine (R34) with its agents and engine entries. A base-die operation queue holds RED.M requests and the outputs
of MXV entries that add (R282), as accesses. `gone` keeps the core-local window of a block that has
ended, or was killed, while entries of it live, by block (R16, R26, R273). -/
structure OM where
  accs     : Assoc Access
  agents   : Assoc AgentRec
  homeq    : Assoc HomeLine
  baseq    : Assoc (List Nat)
  entries  : List Entry
  leases   : List Lease
  swm      : List SwmCopy
  windrows : List Windrow
  partials : List Partial
  gone     : Assoc Window
  deriving DecidableEq, Repr

/-- A line as it was before an inbound write, with the key it was written under, which a load on the home die may still bind for
1 us (R36). -/
structure InbOld where
  line : Nat
  time : Nat
  key  : Nat
  data : List Byte
  deriving DecidableEq, Repr

/-- Physical memory (R198) and what is kept per line: bytes in canonical form, line stamps (R226), the key a line was
written under (R336), lines overwritten under a resident block (R75); the memory-encryption keys of each stack, by stack * 256 +
key identifier, and the open CXL windows. -/
structure PMem where
  bytes  : List Host.Cell
  stamps : Assoc Word64
  keys   : Assoc Nat
  old    : List OldLine
  inb    : List InbOld
  keytab : Assoc Nat
  cxl    : List CxlWin
  deriving DecidableEq, Repr

/-- A join that a block which has ended will make (R16, R111). -/
structure PendJoin where
  blk  : Nat
  die  : Nat
  ctx  : Nat
  prio : Nat
  addr : Nat
  deriving DecidableEq, Repr

/-- Task engine and banker state (R98, R112): blocks, teams, saved teams, cores by die * 96 + core, contexts. `adm` counts
admissions; `raised` keeps priorities that RAISE gave to groups still to be dealt (launch, group, priority; R102). -/
structure Task where
  joins  : List PendJoin
  blocks : Assoc Block
  teams  : Assoc Team
  saved  : Assoc SavedTeam
  cores  : Assoc Core
  ctxs   : Assoc Ctx
  adm    : Nat
  raised : List (Nat × Nat × Nat)
  deriving DecidableEq, Repr

/-- Package state (R227, R309, R333, R342): the message order, the package barriers, power, the arithmetic clock's last
step, when a cause to hold it down was last present (R342), what has left the package. -/
structure Pkg where
  msgs     : List Msg
  nextSeq  : Nat
  barriers : Assoc Barrier
  powered  : Bool
  throttleAt : Nat
  causeAt  : Nat
  out      : List Out
  deriving DecidableEq, Repr

/-- The machine. `now` is true time in ns. The last four fields are the model's own: the counter that indexes free values,
the next identifier, the choices the next steps take, and the agent that issues in this step. -/
structure State where
  om     : OM
  phys   : PMem
  task   : Task
  dies   : List Die
  pkg    : Pkg
  now    : Nat
  fresh  : Nat
  nextId : Nat
  agenda : List Choice
  actor  : Option Nat
  deriving DecidableEq, Repr

/-- The faults of the model itself (a trap of the machine is a next state, never one of these). -/
inductive Fault where
  /-- An instruction row is executed while no agent issues. Raised by every meaning of an instruction that has a word,
  never by `step`. Safe: nothing is claimed of such a state. -/
  | noIssuer
  deriving DecidableEq, Repr

/-- Refusals. -/
inductive Refusal where
  /-- An instruction whose meaning is not written yet: raised by its arm of `exec`. Safe. -/
  | notModelled (mnemonic : String)
  deriving DecidableEq, Repr

-- Values after reset.

def RV.zero : RV := ⟨0, 0, 0, 0, 0⟩

def QueueRec.reset : QueueRec := ⟨0, 0, List.replicate 16 (15#64 <<< 32)⟩

/-- A core after reset (R100, R256). -/
def Core.reset : Core :=
  ⟨true, [], [], [], [], List.replicate 8 QueueRec.reset, List.replicate 4 QueueRec.reset, []⟩

/-- A context that no die kernel has set up (R357's minimums). -/
def Ctx.reset : Ctx := ⟨0, List.replicate 8 0, 0, 0, 0, 0, 2, 0, 0, 0, false, 0, []⟩

def Ring.reset : Ring := ⟨0, 0, 0, false, 0, false, 0, false, 0, 0, 0, 0, 0, 0⟩

def Conn.reset : Conn := ⟨0, false, false, 0, 0, 0, 0, 0, false, 0⟩

def Barrier.reset : Barrier := ⟨0, 0, 0, 0, []⟩

/-- A die after package reset, before it has started (R222, R333, R344). -/
def Die.reset : Die where
  st := .inReset
  fenced := false
  recovered := false
  clusters := List.replicate 12 ⟨false, false, false⟩
  hampers := List.replicate 16 []
  ovf := 0
  pushq := []
  admWait := []
  admDue := false
  dealt := []
  launches := []
  edged := []
  comm := []
  bars := []
  lease := 2000
  ceil := 1000
  wl := 10000
  time := ⟨.unset, 0, 0, 0, 0, none⟩
  glean := ⟨false, 0, [], []⟩
  tlb := []
  walks := []
  fails := []
  held := []
  shoots := []
  ring := []
  ringCap := 1
  svcBase := 0
  svcHead := 0
  jobs := []
  nextGen := 1
  port := ⟨0, 0, 0, 0, false, false, false⟩
  delivered := 0
  delivery := []
  dlvBase := 0
  dlvCap := 1
  dtail := 0
  journal := []
  jn := 16
  jBase := 0
  jcount := 0
  owner := none
  reports := []
  net := ⟨[], [], [], [], [], [], [], [], [], 0⟩
  sense := ⟨0, 1250, 0, false, false⟩
  link := ⟨1, [⟨false, false, 0⟩]⟩
  sessions := []
  portKeys := []
  measured := false

/-- The machine right after package reset (R338): powered, no die started, nothing in memory, SEQ at 1. -/
def State.reset : State where
  om := ⟨[], [], [], [], [], [], [], [], [], []⟩
  phys := ⟨[], [], [], [], [], [], []⟩
  task := ⟨[], [], [], [], [], [], 0, []⟩
  dies := List.replicate 8 Die.reset
  pkg := ⟨[], 1, [], true, 0, 0, []⟩
  now := 0
  fresh := 0
  nextId := 1
  agenda := []
  actor := none

end Sys2Proof.Machine
end

