-- ==== Sys2Proof/WellFormed.lean ====
section
/-!
DEFINITION. Well-formedness: check 1 of R82 (operand kinds, register ranges, marks, guard encoding, engine validity and
the immediates whose range an encoding table fixes), for each engine, and the ranges of the events' payloads.
-/
namespace Sys2Proof

/-- The two instruction streams (R18). -/
inductive Engine where
  | warp | seq
  deriving DecidableEq, Repr

/-- The role of an operand field: a source, a destination without transient, a destination that may be transient (R78). -/
inductive Role where
  | src | dst | dstT
  deriving DecidableEq, Repr

/-- Which kinds an encoding table accepts in a field (R76, R159), and how many registers the form names from it. -/
structure FSpec where
  reg     : Bool
  idx     : Bool
  imm     : Option Nat
  special : Bool
  role    : Role
  span    : Nat
  deriving DecidableEq, Repr

/-- Any 19-bit immediate. -/
def immAny : Option Nat := some 524287

/-- The abbreviations of R159. -/
def FSpec.vd : FSpec := ⟨true, true, none, false, .dstT, 1⟩
/-- An interlocked Vd: no transient (R85). -/
def FSpec.vdI : FSpec := ⟨true, true, none, false, .dst, 1⟩
def FSpec.vs : FSpec := ⟨true, true, none, true, .src, 1⟩
def FSpec.vsi : FSpec := ⟨true, true, immAny, true, .src, 1⟩
def FSpec.vr (span : Nat) : FSpec := ⟨true, false, none, false, .src, span⟩
def FSpec.vrD (span : Nat) : FSpec := ⟨true, false, none, false, .dst, span⟩
/-- Pair, and Pair or immediate. -/
def FSpec.pair : FSpec := FSpec.vr 2
def FSpec.pairImm : FSpec := ⟨true, false, immAny, false, .src, 2⟩
def FSpec.vrImm : FSpec := ⟨true, false, immAny, false, .src, 1⟩
/-- A V register or an indexed operand that names a pair (JOINDEC, R111). -/
def FSpec.vPairIdx : FSpec := ⟨true, true, none, false, .src, 2⟩
/-- An immediate no greater than `m`. -/
def FSpec.immTo (m : Nat) : FSpec := ⟨false, false, some m, false, .src, 1⟩
/-- Sequencer fields: S, S or immediate, S or special, S, immediate or special, immediate up to `m` or S. -/
def FSpec.s (span : Nat) : FSpec := ⟨true, false, none, false, .src, span⟩
def FSpec.sImm : FSpec := ⟨true, false, immAny, false, .src, 1⟩
def FSpec.sSpec : FSpec := ⟨true, false, none, true, .src, 1⟩
def FSpec.sImmSpec : FSpec := ⟨true, false, immAny, true, .src, 1⟩
def FSpec.sImmTo (m : Nat) : FSpec := ⟨true, false, some m, false, .src, 1⟩

/-- The special registers a warp can read (R80). -/
def warpSpecial (n : BitVec 9) : Bool :=
  let k := n.toNat
  decide (k ≤ 3) || (decide (8 ≤ k) && decide (k ≤ 13)) || k == 0x10 || k == 0x11

/-- The special registers a sequencer thread can read (R80). -/
def seqSpecial (n : BitVec 9) : Bool :=
  let k := n.toNat
  (decide (8 ≤ k) && decide (k ≤ 13)) || k == 0x18 || k == 0x19 || (decide (0x20 ≤ k) && decide (k ≤ 0x25))

/-- A field on a warp (R76 to R78, R80). -/
def FSpec.okWarp (f : FSpec) : Operand → Bool
  | .reg _ m k => f.reg && (match f.role with
      | .src => true
      | .dst => !m && !k
      | .dstT => !k)
  | .idx _ _ m k => f.idx && (f.role == .src || (!m && !k))
  | .imm v => (match f.imm with
      | some mx => decide (v.toNat ≤ mx)
      | none => false)
  | .special n => f.special && warpSpecial n

/-- A field on the sequencer: no marks, registers S0 to S63 (R77, R78, R80). -/
def FSpec.okSeq (f : FSpec) : Operand → Bool
  | .reg n m k => f.reg && !m && !k && decide (n.toNat + f.span ≤ 64)
  | .idx _ _ _ _ => false
  | .imm v => (match f.imm with
      | some mx => decide (v.toNat ≤ mx)
      | none => false)
  | .special n => f.special && seqSpecial n

def FSpec.ok : Engine → FSpec → Operand → Bool
  | .warp => FSpec.okWarp
  | .seq => FSpec.okSeq

/-- The guard and hint of an instruction row; none for an event row and for a reserved opcode. -/
def Instr.ctl : Instr → Option Ctl
  | .nop c => some c
  | .br c _ => some c
  | .brd c _ _ => some c
  | .brx c _ _ => some c
  | .call c _ _ => some c
  | .ret c _ => some c
  | .brq c _ => some c
  | .movq c _ => some c
  | .ifOpen c _ _ => some c
  | .elseFlip c => some c
  | .endIf c => some c
  | .loop c => some c
  | .brkLoop c _ _ _ => some c
  | .cont c _ _ _ => some c
  | .endl c _ => some c
  | .bar c => some c
  | .barTeam c => some c
  | .mov c _ _ => some c
  | .iadd c _ _ _ => some c
  | .isub c _ _ _ => some c
  | .imul c _ _ _ => some c
  | .imulhi c _ _ _ _ => some c
  | .imad c _ _ _ => some c
  | .idiv c _ _ _ _ => some c
  | .irem c _ _ _ _ => some c
  | .imin c _ _ _ _ => some c
  | .imax c _ _ _ _ => some c
  | .iabs c _ _ => some c
  | .and c _ _ _ => some c
  | .or c _ _ _ => some c
  | .xor c _ _ _ => some c
  | .not c _ _ => some c
  | .shl c _ _ _ => some c
  | .shr c _ _ _ _ => some c
  | .popc c _ _ => some c
  | .clz c _ _ => some c
  | .brev c _ _ => some c
  | .bfe c _ _ _ _ => some c
  | .bfi c _ _ _ => some c
  | .sel c _ _ _ _ => some c
  | .fadd c _ _ _ _ => some c
  | .fsub c _ _ _ _ => some c
  | .fmul c _ _ _ _ => some c
  | .ffma c _ _ _ _ => some c
  | .fmin c _ _ _ => some c
  | .fmax c _ _ _ => some c
  | .fabs c _ _ => some c
  | .fneg c _ _ => some c
  | .pkadd c _ _ _ _ _ => some c
  | .pkmul c _ _ _ _ _ => some c
  | .pkfma c _ _ _ _ _ => some c
  | .pkmin c _ _ _ _ => some c
  | .pkmax c _ _ _ _ => some c
  | .cvt c _ _ _ _ => some c
  | .cvt8 c _ _ _ _ _ => some c
  | .cvtf8 c _ _ _ _ => some c
  | .sfu c _ _ _ => some c
  | .iset c _ _ _ _ _ => some c
  | .fset c _ _ _ _ => some c
  | .plop c _ _ _ _ => some c
  | .pmov c _ => some c
  | .pmovP c _ => some c
  | .shfl c _ _ _ _ _ => some c
  | .agree c _ _ _ _ => some c
  | .ballot c _ _ _ => some c
  | .remap c _ _ => some c
  | .xwin c _ _ _ => some c
  | .xset c _ _ => some c
  | .msr c _ _ => some c
  | .ld c _ _ _ _ => some c
  | .st c _ _ _ _ => some c
  | .ldl c _ _ _ _ => some c
  | .stl c _ _ _ _ => some c
  | .pref c _ _ _ => some c
  | .fence c _ => some c
  | .clean c _ _ => some c
  | .inval c _ _ => some c
  | .atom c _ _ _ _ => some c
  | .acas c _ _ _ _ _ => some c
  | .redM c _ _ _ _ => some c
  | .redC c _ _ _ => some c
  | .clk c _ => some c
  | .sts c _ _ _ _ => some c
  | .ldas c _ _ _ _ _ => some c
  | .cwait c _ => some c
  | .bara c _ _ => some c
  | .barw c _ _ => some c
  | .tdclr c _ _ => some c
  | .mma c _ _ _ => some c
  | .mmaA c _ _ _ => some c
  | .mmaS c _ _ _ _ _ => some c
  | .mcommit c _ => some c
  | .mwait c _ => some c
  | .accz c _ _ => some c
  | .accld c _ _ _ _ => some c
  | .accst c _ _ _ _ _ => some c
  | .accfold c _ _ => some c
  | .shcommit c _ => some c
  | .shdrop c _ => some c
  | .cpy c _ _ _ _ _ => some c
  | .cpys c _ _ _ _ _ => some c
  | .cpyx c _ _ _ _ _ => some c
  | .qfence c _ => some c
  | .seqrd c _ _ _ => some c
  | .seqwait c _ _ => some c
  | .stinit c _ _ => some c
  | .starr c _ => some c
  | .stwait c _ => some c
  | .hrev c _ _ => some c
  | .mgath c _ _ _ _ => some c
  | .mconvCvt c _ _ => some c
  | .mconvStripe c _ _ => some c
  | .mxv c _ _ => some c
  | .mseqwait c _ _ => some c
  | .mrstat c _ _ _ => some c
  | .npost c _ _ => some c
  | .ncnt c _ _ _ => some c
  | .nwait c _ _ => some c
  | .rngpeek c _ _ => some c
  | .rngadv c _ _ _ => some c
  | .rngstatPeek c _ _ => some c
  | .rngstatReset c _ _ => some c
  | .nqfence c _ => some c
  | .spawn c _ _ => some c
  | .spawnr c _ _ _ _ => some c
  | .joindec c _ => some c
  | .exit c => some c
  | .exitJ c _ => some c
  | .exitK c => some c
  | .yieldTeam c _ => some c
  | .tret c => some c
  | .tretSkip c => some c
  | .wfld c _ _ => some c
  | .claim c _ => some c
  | .take c _ => some c
  | .taket c _ _ => some c
  | .give c _ => some c
  | .giveall c => some c
  | .hold c _ _ => some c
  | .smov c _ _ => some c
  | .smovh c _ _ => some c
  | .sadd c _ _ _ => some c
  | .ssub c _ _ _ => some c
  | .smul c _ _ _ => some c
  | .smulhi c _ _ _ _ => some c
  | .sdiv c _ _ _ _ => some c
  | .srem c _ _ _ _ => some c
  | .smin c _ _ _ _ => some c
  | .smax c _ _ _ _ => some c
  | .sand c _ _ _ => some c
  | .sor c _ _ _ => some c
  | .sxor c _ _ _ => some c
  | .sshl c _ _ _ => some c
  | .sshr c _ _ _ _ => some c
  | .spopc c _ _ => some c
  | .sclz c _ _ => some c
  | .ssel c _ _ _ _ => some c
  | .sset c _ _ _ _ _ => some c
  | .qlop c _ _ _ _ => some c
  | .sbr c _ => some c
  | .sbrx c _ _ => some c
  | .scall c _ _ => some c
  | .sret c _ => some c
  | .dqpush c _ => some c
  | .wwaitDq c => some c
  | .wwaitExit c _ _ => some c
  | .svc c _ _ _ => some c
  | .svcp c _ _ _ => some c
  | .trap c _ _ => some c
  | .brk c _ => some c
  | .tdmask c _ _ => some c
  | _ => none

/-- The size of a load's registers on a warp. -/
def LdMode.span : LdMode → Nat
  | .plain .b64 => 2
  | .plain .b128 => 4
  | .acq .b64 _ => 2
  | .acq .b128 _ => 4
  | _ => 1

def StMode.span : StMode → Nat
  | .plain .b64 => 2
  | .plain .b128 => 4
  | .rel .b64 _ => 2
  | .rel .b128 _ => 4
  | _ => 1

/-- R208: B128 faults on the sequencer, S32 on a warp. -/
def LdMode.okOn (m : LdMode) : Engine → Bool
  | .warp => m != .plain .s32
  | .seq => m.span != 4

def StMode.okOn (m : StMode) : Engine → Bool
  | .warp => true
  | .seq => m.span != 4

/-- The destination of a load on a warp: Vd up to 32 bits, Vr for B64 and B128 (R207). -/
def LdMode.dSpec (m : LdMode) : FSpec := if m.span = 1 then .vdI else .vrD m.span
/-- The data operand of a store on a warp. -/
def StMode.dSpec (m : StMode) : FSpec := if m.span = 1 then .vs else .vr m.span

/-- The ends of a copy on a warp (R261). -/
def Route.dWarp : Route → FSpec
  | .ll | .lg => .vsi
  | .gl | .gg => .pair
  | .tl | .tg => .vr 1
def Route.aWarp : Route → FSpec
  | .ll | .gl | .tl => .vsi
  | .lg | .gg | .tg => .pair
/-- The ends of a copy on the sequencer (R261). -/
def Route.dSeq : Route → FSpec
  | .ll | .lg => .sImm
  | .gl | .gg | .tl | .tg => .s 1
def Route.aSeq : Route → FSpec
  | .ll | .gl | .tl => .sImm
  | .lg | .gg | .tg => .s 1

/-- The fields of an instruction on a warp with what its encoding table accepts; none where the instruction is not valid
on a warp (R89, R91). -/
def Instr.warpFields : Instr → Option (List (Operand × FSpec))
  | .nop _ | .br _ _ | .brd _ _ _ | .brq _ _ => some []
  | .brx _ a _ => some [(a, .vr 1)]
  | .call _ d _ => some [(d, .vrD 2)]
  | .ret _ a => some [(a, .pair)]
  | .movq _ d => some [(d, .vrD 2)]
  | .ifOpen _ _ _ | .elseFlip _ | .endIf _ | .loop _ | .brkLoop _ _ _ _ | .cont _ _ _ _ | .endl _ _
  | .bar _ | .barTeam _ => some []
  | .mov _ d (.short a) => some [(d, .vd), (a, .vsi)]
  | .mov _ d (.long _) => some [(d, .vd)]
  | .iadd _ d a b | .isub _ d a b | .imul _ d a b | .imad _ d a b => some [(d, .vd), (a, .vs), (b, .vsi)]
  | .imulhi _ _ d a b | .idiv _ _ d a b | .irem _ _ d a b | .imin _ _ d a b | .imax _ _ d a b =>
    some [(d, .vd), (a, .vs), (b, .vsi)]
  | .iabs _ d a | .not _ d a | .popc _ d a | .clz _ d a | .brev _ d a => some [(d, .vd), (a, .vsi)]
  | .and _ d a b | .or _ d a b | .xor _ d a b | .shl _ d a b => some [(d, .vd), (a, .vs), (b, .vsi)]
  | .shr _ _ d a b | .bfe _ _ d a b => some [(d, .vd), (a, .vs), (b, .vsi)]
  | .bfi _ d a b => some [(d, .vd), (a, .vs), (b, .vsi)]
  | .sel _ _ d a b => some [(d, .vd), (a, .vsi), (b, .vsi)]
  | .fadd _ _ d a b | .fsub _ _ d a b | .fmul _ _ d a b | .ffma _ _ d a b => some [(d, .vd), (a, .vs), (b, .vsi)]
  | .fmin _ d a b | .fmax _ d a b => some [(d, .vd), (a, .vs), (b, .vsi)]
  | .fabs _ d a | .fneg _ d a => some [(d, .vd), (a, .vsi)]
  | .pkadd _ _ _ d a b | .pkmul _ _ _ d a b | .pkfma _ _ _ d a b => some [(d, .vd), (a, .vs), (b, .vs)]
  | .pkmin _ _ d a b | .pkmax _ _ d a b => some [(d, .vd), (a, .vs), (b, .vs)]
  | .cvt _ _ _ d a => some [(d, .vd), (a, .vs)]
  | .cvt8 _ _ _ d a _ => some [(d, .vd), (a, .vs)]
  | .cvtf8 _ _ d a _ => some [(d, .vd), (a, .vs)]
  | .sfu _ _ d a => some [(d, .vd), (a, .vs)]
  | .iset _ _ _ _ a b | .fset _ _ _ a b => some [(a, .vs), (b, .vsi)]
  | .plop _ _ _ _ _ => some []
  | .pmov _ d => some [(d, .vd)]
  | .pmovP _ a => some [(a, .vsi)]
  | .shfl _ _ _ d a b => some [(d, .vd), (a, .vr 1), (b, .vsi)]
  | .agree _ _ _ _ _ => some []
  | .ballot _ _ d _ => some [(d, .vd)]
  | .remap _ d a => some [(d, .vd), (a, .vsi)]
  | .xwin _ _ _ _ => some []
  | .xset _ _ a => some [(a, .vsi)]
  | .msr _ _ a => some [(a, .vsi)]
  | .ld _ m d a _ => some [(d, m.dSpec), (a, .pairImm)]
  | .st _ m d a _ => some [(d, m.dSpec), (a, .pairImm)]
  | .ldl _ m d a _ => some [(d, m.dSpec), (a, .vsi)]
  | .stl _ m d a _ => some [(d, m.dSpec), (a, .vsi)]
  | .pref _ _ a _ => some [(a, .pairImm)]
  | .fence _ _ => some []
  | .clean _ a _ | .inval _ a _ => some [(a, .pairImm)]
  | .atom _ _ d a b | .acas _ _ _ d a b => some [(d, .vdI), (a, .pairImm), (b, .vsi)]
  | .redM _ _ _ a b => some [(a, .pairImm), (b, .vsi)]
  | .redC _ sz a b => some [(a, .pairImm), (b, if sz = .b64 then .pair else .vsi)]
  | .clk _ d => some [(d, .vrD 4)]
  | .sts _ b64 d a b => some [(d, .vrD 2), (a, .pairImm), (b, if b64 then .pair else .vsi)]
  | .ldas _ _ _ d a b => some [(d, .vrD 4), (a, .pairImm), (b, .pairImm)]
  | .cwait _ a => some [(a, .pairImm)]
  | .bara _ _ d => some [(d, .vrD 1)]
  | .barw _ _ a => some [(a, .vsi)]
  | .tdclr _ _ _ => none
  | .mma _ _ d a => some [(d, .vrD 1), (a, .vrImm)]
  | .mmaA _ _ d a => some [(d, .immTo 63), (a, .vrImm)]
  | .mmaS _ _ _ _ _ _ => none
  | .mcommit _ _ | .mwait _ _ | .accz _ _ _ | .accfold _ _ _ => some []
  | .accld _ _ _ a _ | .accst _ _ _ _ a _ => some [(a, .vrImm)]
  | .shcommit _ _ | .shdrop _ _ => none
  | .cpy _ _ r d a b => some [(d, r.dWarp), (a, r.aWarp), (b, .pairImm)]
  | .cpys _ _ r d a b | .cpyx _ _ r d a b => some [(d, r.dWarp), (a, r.aWarp), (b, .vsi)]
  | .qfence _ _ => some []
  | .seqrd _ _ (.status a) d => some [(d, .vrD 2), (a, .pairImm)]
  | .seqrd _ _ _ d => some [(d, .vrD 2)]
  | .seqwait _ _ a => some [(a, .pairImm)]
  | .stinit _ _ _ => none
  | .starr _ d => some [(d, .immTo 63)]
  | .stwait _ a => some [(a, .immTo 63)]
  | .hrev _ _ _ => none
  | .mgath _ _ _ _ a | .mconvCvt _ _ a | .mconvStripe _ _ a => some [(a, .vsi)]
  | .mxv _ _ _ => none
  | .mseqwait _ _ a => some [(a, .pairImm)]
  | .mrstat _ _ (.status a) d => some [(d, .vrD 2), (a, .pairImm)]
  | .mrstat _ _ _ d => some [(d, .vrD 2)]
  | .npost _ _ a => some [(a, .vsi)]
  | .ncnt _ _ d a => some [(d, .vrD 2), (a, .vsi)]
  | .nwait _ a b => some [(a, .vsi), (b, .pairImm)]
  | .rngpeek _ d a => some [(d, .vrD 4), (a, .vsi)]
  | .rngadv _ d a b => some [(d, .vrD 2), (a, .vsi), (b, .vsi)]
  | .rngstatPeek _ d a | .rngstatReset _ d a => some [(d, .vrD 8), (a, .vsi)]
  | .nqfence _ a => some [(a, .pairImm)]
  | .spawn _ _ _ | .spawnr _ _ _ _ _ => none
  | .joindec _ a => some [(a, .vPairIdx)]
  | .exit _ => some []
  | .exitJ _ _ | .exitK _ | .yieldTeam _ _ | .tret _ | .tretSkip _ => none
  | .wfld _ _ d => some [(d, .vrD 2)]
  | .claim _ _ | .take _ _ | .taket _ _ _ | .give _ _ | .giveall _ => none
  | .hold _ _ d => some [(d, .vrD 2)]
  | .smov _ _ _ | .smovh _ _ _ | .sadd _ _ _ _ | .ssub _ _ _ _ | .smul _ _ _ _ | .smulhi _ _ _ _ _
  | .sdiv _ _ _ _ _ | .srem _ _ _ _ _ | .smin _ _ _ _ _ | .smax _ _ _ _ _ | .sand _ _ _ _ | .sor _ _ _ _
  | .sxor _ _ _ _ | .sshl _ _ _ _ | .sshr _ _ _ _ _ | .spopc _ _ _ | .sclz _ _ _ | .ssel _ _ _ _ _
  | .sset _ _ _ _ _ _ | .qlop _ _ _ _ _ | .sbr _ _ | .sbrx _ _ _ | .scall _ _ _ | .sret _ _ | .dqpush _ _
  | .wwaitDq _ | .wwaitExit _ _ _ => none
  | .svc _ d a _ | .svcp _ d a _ => some [(d, .vrD 2), (a, .vr 8)]
  | .trap _ _ a => some [(a, .vsi)]
  | .brk _ _ => some []
  | .tdmask _ _ d => some [(d, .vdI)]
  | _ => none

/-- The fields of an instruction on the sequencer; none where it is not valid there (R89, R91). -/
def Instr.seqFields : Instr → Option (List (Operand × FSpec))
  | .nop _ => some []
  | .ld _ _ d a _ | .st _ _ d a _ | .ldl _ _ d a _ | .stl _ _ d a _ => some [(d, .s 1), (a, .sImm)]
  | .pref _ _ a _ => some [(a, .sImm)]
  | .fence _ _ => some []
  | .clean _ a _ | .inval _ a _ => some [(a, .sImm)]
  | .clk _ d => some [(d, .s 1)]
  | .cwait _ a => some [(a, .sImm)]
  | .bara _ _ d => some [(d, .s 1)]
  | .barw _ _ a => some [(a, .sImm)]
  | .tdclr _ _ _ => some []
  | .mmaA _ _ d a => some [(d, .sImmTo 63), (a, .sImm)]
  | .mmaS _ _ _ d a b => some [(d, .sImmTo 63), (a, .sImm), (b, .sImmTo 63)]
  | .shcommit _ _ | .shdrop _ _ => some []
  | .cpy _ _ r d a b => some [(d, r.dSeq), (a, r.aSeq), (b, .sImm)]
  | .cpys _ _ r d a b | .cpyx _ _ r d a b => some [(d, r.dSeq), (a, r.aSeq), (b, .sImm)]
  | .qfence _ _ => some []
  | .seqrd _ _ (.status a) d => some [(d, .s 1), (a, .sImm)]
  | .seqrd _ _ _ d => some [(d, .s 1)]
  | .seqwait _ _ a => some [(a, .sImm)]
  | .stinit _ d a => some [(d, .sImmTo 63), (a, .sImmTo 65535)]
  | .starr _ d => some [(d, .sImmTo 63)]
  | .stwait _ a => some [(a, .sImmTo 63)]
  | .hrev _ _ _ => some []
  | .mgath _ _ _ _ a | .mconvCvt _ _ a | .mconvStripe _ _ a | .mxv _ _ a => some [(a, .sImm)]
  | .mseqwait _ _ a => some [(a, .sImm)]
  | .mrstat _ _ (.status a) d => some [(d, .s 1), (a, .sImm)]
  | .mrstat _ _ _ d => some [(d, .s 1)]
  | .npost _ _ a => some [(a, .sImm)]
  | .ncnt _ _ d a => some [(d, .s 1), (a, .sImm)]
  | .nwait _ a b => some [(a, .sImm), (b, .sImm)]
  | .rngpeek _ d a => some [(d, .s 2), (a, .sImm)]
  | .rngadv _ d a b => some [(d, .s 1), (a, .sImm), (b, .sImm)]
  | .rngstatPeek _ d a | .rngstatReset _ d a => some [(d, .s 4), (a, .sImm)]
  | .nqfence _ a => some [(a, .sImm)]
  | .spawn _ _ _ | .spawnr _ _ _ _ _ => some []
  | .joindec _ a => some [(a, .s 1)]
  | .exit _ | .exitJ _ _ | .exitK _ | .yieldTeam _ _ | .tret _ | .tretSkip _ => some []
  | .wfld _ _ d => some [(d, .s 1)]
  | .claim _ _ | .take _ _ | .taket _ _ _ | .give _ _ | .giveall _ => some []
  | .hold _ _ d => some [(d, .s 1)]
  | .smov _ _ (.short a) => some [(a, .sImmSpec)]
  | .smov _ _ _ | .smovh _ _ _ => some []
  | .sadd _ _ a b | .ssub _ _ a b | .smul _ _ a b | .sand _ _ a b | .sor _ _ a b | .sxor _ _ a b
  | .sshl _ _ a b => some [(a, .sSpec), (b, .sImm)]
  | .smulhi _ _ _ a b | .sdiv _ _ _ a b | .srem _ _ _ a b | .smin _ _ _ a b | .smax _ _ _ a b
  | .sshr _ _ _ a b => some [(a, .sSpec), (b, .sImm)]
  | .spopc _ _ a | .sclz _ _ a => some [(a, .sSpec)]
  | .ssel _ _ _ a b => some [(a, .sImm), (b, .sImm)]
  | .sset _ _ _ _ a b => some [(a, .sSpec), (b, .sImm)]
  | .qlop _ _ _ _ _ | .sbr _ _ | .sbrx _ _ _ | .scall _ _ _ | .sret _ _ => some []
  | .dqpush _ (.short a) => some [(a, .sImm)]
  | .dqpush _ (.long _) => some []
  | .wwaitDq _ | .wwaitExit _ _ _ => some []
  | .svc _ d a _ | .svcp _ d a _ => some [(d, .s 1), (a, .s 4)]
  | .trap _ _ a => some [(a, .sImm)]
  | .brk _ _ => some []
  | .tdmask _ _ d => some [(d, .s 1)]
  | _ => none

def Instr.fields : Engine → Instr → Option (List (Operand × FSpec))
  | .warp => Instr.warpFields
  | .seq => Instr.seqFields

/-- A binary8 format code (R67). -/
def isBinary8 (f : Nat) : Bool := decide (f < 32) && f % 8 != 0

/-- R183: the control immediate of CVT8. -/
def cvt8CtlOk (v : BitVec 19) : Bool :=
  let n := v.toNat
  let pos := n / 64 % 4
  let pair := n / 256 % 2
  let src16 := n / 512 % 2
  isBinary8 (n % 64) && n / 1024 == 0 &&
    (if pair = 1 then pos == 0 || pos == 2 else src16 == 0)

/-- R183: the control immediate of CVTF8. -/
def cvtf8CtlOk (v : BitVec 19) : Bool :=
  let n := v.toNat
  let pos := n / 64 % 4
  let tgt := n / 256 % 4
  isBinary8 (n % 64) && n / 1024 == 0 && tgt != 3 && (tgt == 0 || pos == 0 || pos == 2)

/-- The immediates whose range an encoding table fixes, the same on both engines. -/
def Instr.immOk : Instr → Bool
  | .brkLoop _ _ d _ => decide (d.toNat ≤ 13)
  | .cont _ _ d _ => decide (d.toNat ≤ 14)
  | .cvt8 _ _ _ _ _ v => cvt8CtlOk v
  | .cvtf8 _ _ _ _ v => cvtf8CtlOk v
  | .xwin _ _ b l => decide (b.toNat ≤ 255) && decide (l.toNat ≤ 256)
  | .clean _ _ n | .inval _ _ n => decide (1 ≤ n.toNat)
  | .accz _ b n | .accfold _ b n => decide (b.toNat ≤ 63) && decide (1 ≤ n.toNat) && decide (n.toNat ≤ 64)
  | .accld _ _ b _ v => decide (b.toNat ≤ 63) && !v.getMsbD 0
  | .accst _ _ _ b _ v => decide (b.toNat ≤ 63) && !v.getMsbD 0
  | .qfence _ m => decide (m.toNat ≤ 255)
  | .svc _ _ _ n | .svcp _ _ _ n => decide (n.toNat ≤ 4095)
  | .brk _ (some v) => decide (v.toNat ≤ 255)
  | _ => true

/-- Sizes that only one engine accepts (R208). -/
def Instr.sizeOk (e : Engine) : Instr → Bool
  | .ld _ m _ _ _ | .ldl _ m _ _ _ => m.okOn e
  | .st _ m _ _ _ | .stl _ m _ _ _ => m.okOn e
  | _ => true

/-- The instructions whose guard column reads Unguarded (R162). -/
def Instr.unguarded : Instr → Bool
  | .brx _ _ _ | .brq _ _ | .ifOpen _ _ _ | .elseFlip _ | .endIf _ | .loop _ | .brkLoop _ _ _ _ | .cont _ _ _ _
  | .endl _ _ | .bar _ | .barTeam _ => true
  | _ => false

/-- R81. -/
def Guard.okOn : Engine → Guard → Bool
  | _, .always => true
  | .warp, .pred n _ => decide (n.toNat < 12)
  | .seq, .pred n _ => decide (n.toNat < 8)

/-- Check 1 of R82 on one engine. -/
def Instr.wfOn (e : Engine) (i : Instr) : Bool :=
  match i.fields e, i.ctl with
  | some fs, some c =>
    fs.all (fun p => p.2.ok e p.1) && i.immOk && i.sizeOk e && c.guard.okOn e &&
      (!i.unguarded || c.guard == .always)
  | _, _ => false

/-- R89: the assigned opcodes; every other value is reserved (R90). -/
def opcAssigned (n : Nat) : Bool :=
  decide (n < 0x10) || (decide (0x40 ≤ n) && decide (n < 0x57)) || (decide (0x80 ≤ n) && decide (n < 0x8D)) ||
  (decide (0xC0 ≤ n) && decide (n < 0xC4)) || (decide (0x100 ≤ n) && decide (n < 0x10B)) ||
  (decide (0x140 ≤ n) && decide (n < 0x148)) || (decide (0x180 ≤ n) && decide (n < 0x18B)) ||
  (decide (0x1C0 ≤ n) && decide (n < 0x1CB)) || (decide (0x200 ≤ n) && decide (n < 0x20A)) ||
  (decide (0x240 ≤ n) && decide (n < 0x245)) || (decide (0x280 ≤ n) && decide (n < 0x287)) ||
  (decide (0x2C0 ≤ n) && decide (n < 0x2C7)) || (decide (0x2C8 ≤ n) && decide (n < 0x2CE)) ||
  (decide (0x300 ≤ n) && decide (n < 0x31A)) || (decide (0x340 ≤ n) && decide (n < 0x345))

/-- A word that stands for an instruction of some engine, or whose opcode is reserved. -/
def Instr.wf (i : Instr) : Bool :=
  match i with
  | .reservedOpcodeIssue w => !opcAssigned (w.extractLsb' 86 10).toNat
  | i => i.wfOn .warp || i.wfOn .seq

end Sys2Proof
end

