-- ==== Sys2Proof/Machine/Ops.lean ====
section
/-!
DEFINITION. The named operations over the state: association lists, memory bytes, blocks and their parties, registers,
results and their latencies, issue, and taking an exception with the return from it.
-/
namespace Sys2Proof.Machine

-- Association lists with strictly rising keys.

def aget {α : Type} (k : Nat) : Assoc α → Option α
  | [] => none
  | (k', v) :: t => if k = k' then some v else aget k t

def aset {α : Type} (k : Nat) (v : α) : Assoc α → Assoc α
  | [] => [(k, v)]
  | (k', v') :: t =>
    if k < k' then (k, v) :: (k', v') :: t
    else if k = k' then (k, v) :: t
    else (k', v') :: aset k v t

def adel {α : Type} (k : Nat) : Assoc α → Assoc α
  | [] => []
  | (k', v') :: t => if k = k' then adel k t else (k', v') :: adel k t

def agetD {α : Type} (k : Nat) (d : α) (m : Assoc α) : α := (aget k m).getD d

-- Memory in canonical form: addresses strictly rising, no byte equal to what an unlisted address reads as.

/-- What an address that is not listed reads as (log entry 3). -/
def unlisted : Byte := 0

def byteAt (m : List Host.Cell) (a : Nat) : Byte := agetD a unlisted m

def putByte (m : List Host.Cell) (a : Nat) (v : Byte) : List Host.Cell :=
  if v = unlisted then adel a m else aset a v m

def putBytes (m : List Host.Cell) : List Host.Cell → List Host.Cell
  | [] => m
  | (a, v) :: t => putBytes (putByte m a v) t

/-- The canonical form. -/
def Memory.wf : List Host.Cell → Bool
  | [] => true
  | [(_, v)] => v != unlisted
  | (a, v) :: (b, w) :: t => v != unlisted && decide (a < b) && Memory.wf ((b, w) :: t)

/-- Little-endian value of bytes, and bytes of a value. -/
def leNat : List Byte → Nat
  | [] => 0
  | b :: t => b.toNat + 256 * leNat t

def leBytes : Nat → Nat → List Byte
  | 0, _ => []
  | n + 1, v => BitVec.ofNat 8 v :: leBytes n (v / 256)

/-- The bytes of `m` from `a` on. -/
def bytesAt (m : List Host.Cell) (a n : Nat) : List Byte := (List.range n).map fun i => byteAt m (a + i)

/-- Bytes placed from an address on. -/
def cellsFrom (a : Nat) : List Byte → List Host.Cell
  | [] => []
  | b :: t => (a, b) :: cellsFrom (a + 1) t

def lineOf (a : Nat) : Nat := a / 128

-- Small helpers over lists.

def setNth {α : Type} (n : Nat) (v : α) (l : List α) : List α := l.set n v

def modNth {α : Type} (n : Nat) (f : α → α) (l : List α) : List α := l.modify n f

/-- The mask with the listed bit numbers set. -/
def maskOf (l : List Nat) : Word32 := l.foldl (fun m i => m ||| (1#32 <<< i)) 0

def dedup (l : List Nat) : List Nat := l.foldr (fun x t => if t.contains x then t else x :: t) []

def minOf (l : List Nat) : Nat := match l with
  | [] => 0
  | x :: t => t.foldl min x

def maxOf (l : List Nat) : Nat := l.foldl max 0

-- The parts of the state.

def State.die (s : State) (d : Nat) : Die := s.dies.getD d Die.reset
def State.setDie (s : State) (d : Nat) (x : Die) : State := { s with dies := s.dies.set d x }
def State.modDie (s : State) (d : Nat) (f : Die → Die) : State := s.setDie d (f (s.die d))

def State.block (s : State) (id : Nat) : Option Block := aget id s.task.blocks
def State.setBlock (s : State) (b : Block) : State :=
  { s with task := { s.task with blocks := aset b.id b s.task.blocks } }
def State.delBlock (s : State) (id : Nat) : State :=
  { s with task := { s.task with blocks := adel id s.task.blocks } }
def State.modBlock (s : State) (id : Nat) (f : Block → Block) : State :=
  match s.block id with
  | some b => s.setBlock (f b)
  | none => s

def State.team (s : State) (id : Nat) : Option Team := aget id s.task.teams
def State.setTeam (s : State) (t : Team) : State :=
  { s with task := { s.task with teams := aset t.id t s.task.teams } }

/-- Cores are numbered die * 96 + core. -/
def coreIx (die core : Nat) : Nat := die * 96 + core
def State.core (s : State) (c : Nat) : Core := agetD c Core.reset s.task.cores
def State.setCore (s : State) (c : Nat) (x : Core) : State :=
  { s with task := { s.task with cores := aset c x s.task.cores } }
def State.modCore (s : State) (c : Nat) (f : Core → Core) : State := s.setCore c (f (s.core c))

def State.ctx (s : State) (c : Nat) : Ctx := agetD c Ctx.reset s.task.ctxs
def State.setCtx (s : State) (c : Nat) (x : Ctx) : State :=
  { s with task := { s.task with ctxs := aset c x s.task.ctxs } }
def State.modCtx (s : State) (c : Nat) (f : Ctx → Ctx) : State := s.setCtx c (f (s.ctx c))

def State.access (s : State) (id : Nat) : Option Access := aget id s.om.accs
def State.setAccess (s : State) (id : Nat) (a : Access) : State :=
  { s with om := { s.om with accs := aset id a s.om.accs } }
def State.delAccess (s : State) (id : Nat) : State :=
  { s with om := { s.om with accs := adel id s.om.accs } }

def State.agent (s : State) (aid : Nat) : Option AgentRec := aget aid s.om.agents
def State.setAgent (s : State) (aid : Nat) (a : AgentRec) : State :=
  { s with om := { s.om with agents := aset aid a s.om.agents } }
def State.modAgent (s : State) (aid : Nat) (f : AgentRec → AgentRec) : State :=
  match s.agent aid with
  | some a => s.setAgent aid (f a)
  | none => s

def State.entry (s : State) (id : Nat) : Option Entry := s.om.entries.find? fun e => e.id == id
def State.setEntry (s : State) (e : Entry) : State :=
  { s with om := { s.om with entries := s.om.entries.map fun x => if x.id = e.id then e else x } }
def State.delEntry (s : State) (id : Nat) : State :=
  { s with om := { s.om with entries := s.om.entries.filter fun x => x.id != id } }

/-- A fresh identifier. -/
def State.newId (s : State) : Nat × State := (s.nextId, { s with nextId := s.nextId + 1 })

/-- Free values: the counter is read and advanced. -/
def State.freeIx (s : State) : Nat × State := (s.fresh, { s with fresh := s.fresh + 1 })

def State.report (s : State) (d : Nat) (r : Report) : State :=
  s.modDie d fun x => { x with reports := x.reports ++ [r] }

def State.emit (s : State) (o : Out) : State := { s with pkg := { s.pkg with out := s.pkg.out ++ [o] } }

def State.barrier (s : State) (n : Nat) : Barrier := agetD n Barrier.reset s.pkg.barriers
def State.setBarrier (s : State) (n : Nat) (x : Barrier) : State :=
  { s with pkg := { s.pkg with barriers := aset n x s.pkg.barriers } }

/-- The life of die `d` at a position of the message order (R321): none before its first DIEUP, then live or lost. -/
def lifeAt (msgs : List Msg) (pos d : Nat) : Option Bool :=
  msgs.foldl (fun r m =>
    if pos < m.seq then r
    else match m.body with
      | .dieup x => if x = d then some true else r
      | .diedown x => if x = d then some false else r
      | .fenced x => if x = d then some false else r
      | _ => r) none

/-- Live, and lost, at a die's own position of the message order. -/
def State.seesLive (s : State) (die d : Nat) : Bool := lifeAt s.pkg.msgs (s.die die).delivered d == some true
def State.seesLost (s : State) (die d : Nat) : Bool := lifeAt s.pkg.msgs (s.die die).delivered d == some false

-- Physical memory writes, with the lines a resident block may still fetch as they were (R75).

/-- Remember a line before it changes, once per admission count, while a block is resident. -/
def PMem.keepOld (m : PMem) (resident : Bool) (adm line : Nat) : PMem :=
  if resident && !(m.old.any fun o => o.line == line && o.adm == adm) then
    { m with old := m.old ++ [⟨line, adm, agetD line 0 m.keys, bytesAt m.bytes (128 * line) 128⟩] }
  else m

/-- Write bytes of one line at its home. -/
def State.writePhys (s : State) (line : Nat) (cells : List Host.Cell) : State :=
  let m := s.phys.keepOld (!s.task.blocks.isEmpty) s.task.adm line
  { s with phys := { m with bytes := putBytes m.bytes cells } }

/-- Write bytes that may lie in several lines: byte by byte. -/
def State.writePhysAll (s : State) : List Host.Cell → State
  | [] => s
  | (a, v) :: t => (s.writePhys (lineOf a) [(a, v)]).writePhysAll t

-- Blocks.

def Block.nThreads (b : Block) : Nat := 2 ^ (b.hdr.widths.getD 0 0)
/-- The number of home warps (R12): none without a warp entry (R15). -/
def Block.nWarps (b : Block) : Nat := if b.hdr.warpv then (b.nThreads + 31) / 32 else 0
def Block.thread (b : Block) (t : Nat) : Thread :=
  b.threads.getD t ⟨[], [], List.replicate 4 0, 0, 0, 0, false⟩
def Block.setThread (b : Block) (t : Nat) (x : Thread) : Block := { b with threads := b.threads.set t x }
def Block.modThread (b : Block) (t : Nat) (f : Thread → Thread) : Block := b.setThread t (f (b.thread t))
def Block.home (b : Block) (t : Nat) : HomeWarp := b.homes.getD (t / 32) ⟨List.replicate 4 (0, 0), false, 0⟩
def Block.warp? (b : Block) (k : Nat) : Option Warp := b.warps.find? fun w => w.k == k
def Block.setWarp (b : Block) (w : Warp) : Block :=
  { b with warps := b.warps.map fun x => if x.k = w.k then w else x }
def Block.cluster (b : Block) : Nat := b.core / 8
def Block.gcore (b : Block) : Nat := coreIx b.die b.core
/-- Pushes made so far (R127). -/
def Block.push (b : Block) : Nat := b.dqBase + b.dq.length

/-- The window's size in bytes, and the headland's bytes (R196, R93). -/
def Block.winSize (b : Block) : Nat := b.hold.clm * 4096
def Block.headLo (b : Block) : Nat := (b.hdr.clmg - b.hdr.hdlg) * 4096
def Block.headHi (b : Block) : Nat := b.hdr.clmg * 4096

/-- R196 for `n` bytes at offset `o`: none when the access is in the window, else the TRAUX of ACCESS. Where one range has a byte
outside the window and another in the headland, R196 states no order: the model's choice is 1 (log entry 23). -/
def Window.check (w : Window) (o : Int) (n : Nat) : Option Nat :=
  if n = 0 then none
  else if o < 0 then some 1
  else
    let a := o.toNat
    if a + n > w.size then some 1
    else if w.lo < w.hi ∧ a < w.hi ∧ w.lo < a + n then some 3
    else none

def Block.window (b : Block) : Window := ⟨b.winSize, b.headLo, b.headHi, b.clm⟩

def Block.winCheck (b : Block) (o : Int) (n : Nat) : Option Nat := b.window.check o n

/-- The work-identifier field `i` of a thread whose identifier is `id` (R11). -/
def fieldOf (widths : List Nat) (i : Nat) (id : Nat) : Nat :=
  let lo := (widths.take i).sum
  id / 2 ^ lo % 2 ^ (widths.getD i 0)

/-- A block's WF1: its number in the team (R10). -/
def Block.wf1 (b : Block) : Nat := fieldOf b.hdr.widths 1 b.workid

-- The register file of a thread, with pending results (R86, R105).

def Thread.getV (t : Thread) (n : Nat) : Word32 := agetD n 0 t.v
def Thread.putV (t : Thread) (n : Nat) (x : Word32) : Thread :=
  { t with v := if x = 0 then adel n t.v else aset n x t.v }
def Thread.isDead (t : Thread) (n : Nat) : Bool := t.dead.contains n
def Thread.clearDead (t : Thread) (n : Nat) : Thread := { t with dead := t.dead.filter fun x => x != n }
def Thread.kill (t : Thread) (n : Nat) : Thread :=
  { t with dead := if t.dead.contains n then t.dead else n :: t.dead }
def Thread.getP (t : Thread) (n : Nat) : Bool := t.p.getLsbD n
def Thread.putP (t : Thread) (n : Nat) (x : Bool) : Thread :=
  { t with p := if x then t.p ||| (1#12 <<< n) else t.p &&& ~~~(1#12 <<< n) }
def Thread.getX (t : Thread) (n : Nat) : BitVec 16 := t.x.getD n 0
def Thread.putX (t : Thread) (n : Nat) (x : BitVec 16) : Thread := { t with x := t.x.set n x }

/-- A result takes effect on a cell of the block; on a V register it clears the dead mark (R141). -/
def Block.putCell (b : Block) (c : Cell) (x : Nat) : Block :=
  match c with
  | .v t n => b.modThread t fun th => (th.putV n (BitVec.ofNat 32 x)).clearDead n
  | .p t n => b.modThread t fun th => th.putP n (x % 2 == 1)
  | .x t n => b.modThread t fun th => th.putX n (BitVec.ofNat 16 x)
  | .xwin w n => { b with homes := b.homes.modify w fun h => { h with xwin := h.xwin.set n (x / 512, x % 512) } }
  | .s n => match b.seq with
    | some q => { b with seq := some { q with s := q.s.set n (BitVec.ofNat 64 x) } }
    | none => b

def Block.putCells (b : Block) : List (Cell × Nat) → Block
  | [] => b
  | (c, x) :: t => (b.putCell c x).putCells t

def Pend.strip (cs : List Cell) (p : Pend) : Pend := { p with vals := p.vals.filter fun v => !cs.contains v.1 }

/-- Take cells out of every pending result: a later result to them has taken effect (R86). -/
def stripPend (cs : List Cell) (l : List Pend) : List Pend := (l.map (Pend.strip cs)).filter fun p => !p.vals.isEmpty

/-- Let results take effect in issue order (R86): those due by `clock`, or every one. A result that takes effect removes
its cells from the results issued before it. `done` holds the earlier results still pending. -/
def settleList (clock : Nat) (all : Bool) : Block → List Pend → List Pend → Block × List Pend
  | b, done, [] => (b, done)
  | b, done, p :: t =>
    if all || decide (p.due ≤ clock) then
      settleList clock all (b.putCells p.vals) (stripPend (p.vals.map Prod.fst) done) t
    else settleList clock all b (done ++ [p]) t

/-- Results that have reached their latency take effect (R86), at the warp's own issues: where two compacted warps share a home warp, an
XWIN of one shows to the other from then on (log entry 78). -/
def settle (b : Block) (w : Warp) : Block × Warp :=
  let r := settleList w.clock false b [] w.pend
  let w' := { w with pend := r.2 }
  (r.1.setWarp w', w')

/-- Every pending result takes effect and the bypass empties (R86, R144). -/
def settleAll (b : Block) (w : Warp) : Block × Warp :=
  let r := settleList w.clock true b [] w.pend
  let w' := { w with pend := [], byp := [] }
  (r.1.setWarp w', w')

/-- The youngest bypass entry that wrote register `n` of thread `t` (R143). -/
def bypFind (t n : Nat) : List Byp → Option (Nat × Word32)
  | [] => none
  | e :: r =>
    match e.vals.find? fun v => v.1 == t && v.2.1 == n with
    | some v => some (e.due, v.2.2)
    | none => bypFind t n r

/-- Whether a matrix entry of the home warp of thread `t` binds register `n` while the thread runs in a path's warp (R236). -/
def homeBinds (b : Block) (t n : Nat) : Bool :=
  b.parked.any fun h => h.lanes.contains (some t) && h.binds.any fun x => x.1 == n

/-- Whether register `n` of thread `t` is bound (R236) for a reader in warp `w`. -/
def boundV (b : Block) (w : Warp) (t n : Nat) : Bool := (w.binds.any fun x => x.1 == n) || homeBinds b t n

/-- A read of V register `n` in thread `t` by warp `w` (R143, R141, R236). The block is settled at the warp's clock, so the
register file holds what R86 gives. -/
def readV (b : Block) (w : Warp) (t n : Nat) : Word32 :=
  let th := b.thread t
  if boundV b w t n then poison
  else if th.isDead n then poison
  else match bypFind t n w.byp with
    | some (due, x) => if due ≤ w.clock then x else th.getV n
    | none => th.getV n

/-- Push a bypass entry; the youngest comes first and three are kept (R143). -/
def Warp.pushByp (w : Warp) (e : Byp) : Warp := { w with byp := (e :: w.byp).take 3 }

/-- The stall count of an instruction (R84). -/
def stallN (c : Ctl) : Nat := if c.stall = 0 then 1 else c.stall.toNat

-- Lanes.

/-- The live lanes of a running warp as (slot, thread). -/
def liveLanes (b : Block) (w : Warp) : List (Nat × Nat) :=
  ((List.range 32).zip w.lanes).filterMap fun p =>
    match p.2 with
    | some t => if (b.thread t).live then some (p.1, t) else none
    | none => none

/-- Whether the guard holds in a thread (R81). -/
def guardHolds (b : Block) (c : Ctl) (t : Nat) : Bool :=
  match c.guard with
  | .always => true
  | .pred n neg => (b.thread t).getP n.toNat != neg

/-- Items 1 and 2 of R145. -/
def countedLanes (b : Block) (w : Warp) : List (Nat × Nat) :=
  (liveLanes b w).filter fun p => (b.thread p.2).nest == 0

/-- The effective lane set (R145). -/
def effLanes (b : Block) (w : Warp) (c : Ctl) : List (Nat × Nat) :=
  (countedLanes b w).filter fun p => guardHolds b c p.2

def lanesMask (l : List (Nat × Nat)) : Word32 := maskOf (l.map Prod.fst)

/-- Whether a running warp still holds a live thread. -/
def warpAlive (b : Block) (w : Warp) : Bool := !(liveLanes b w).isEmpty

/-- Whether home warp `h` has a live thread (R129). -/
def Block.homeAlive (b : Block) (h : Nat) : Bool :=
  (List.range 32).any fun i =>
    let t := 32 * h + i
    decide (t < b.threads.length) && (b.thread t).live

/-- The home warps that still live. -/
def Block.liveHomes (b : Block) : List Nat := (List.range b.nWarps).filter b.homeAlive

-- Stops of an issue.

/-- A fault as its rule gives it (R107): code, TRADDR, TRAUX, and TRLANES where the rule gives lanes of its own. -/
structure TrapInfo where
  code  : Nat
  addr  : Nat
  aux   : Nat
  lanes : Option Word32
  deriving DecidableEq, Repr

/-- Why an instruction does not issue now: a fault, or a wait with the state in which it waits. -/
inductive Stop where
  | trap (t : TrapInfo)
  | wait (r : Wait) (s : State)
  deriving DecidableEq, Repr

-- Fault codes (R108).
def fIllegal : Nat := 0x01
def fRegWindow : Nat := 0x02
def fIndexRange : Nat := 0x03
def fStallShort : Nat := 0x04
def fNestOverflow : Nat := 0x05
def fBrNonuniform : Nat := 0x06
def fBrxTarget : Nat := 0x07
def fJoinCycle : Nat := 0x08
def fXlate : Nat := 0x10
def fAccess : Nat := 0x11
def fAlign : Nat := 0x12
def fFarAccess : Nat := 0x13
def fCommStore : Nat := 0x14
def fClaimExceeded : Nat := 0x18
def fAccUnalloc : Nat := 0x19
def fAccInflight : Nat := 0x1A
def fHandleStale : Nat := 0x20
def fSeqNever : Nat := 0x21
def fStileOrphan : Nat := 0x22
def fDqClosed : Nat := 0x23
def fTimeWide : Nat := 0x28
def fTimeWaitlimit : Nat := 0x29
def fDieLost : Nat := 0x30
def fMatrixOpfault : Nat := 0x31
def fSvcDenied : Nat := 0x38
def fBrk : Nat := 0x3F

/-- A fault of the instruction as a whole. -/
def flt {α : Type} (code aux : Nat) (addr : Nat := 0) : Except Stop α := .error (.trap ⟨code, addr, aux, none⟩)

/-- A fault that names its lanes. -/
def fltLanes {α : Type} (code aux addr : Nat) (lanes : Word32) : Except Stop α :=
  .error (.trap ⟨code, addr, aux, some lanes⟩)

def waitOn {α : Type} (r : Wait) (s : State) : Except Stop α := .error (.wait r s)

def guardE (ok : Bool) (e : Except Stop Unit) : Except Stop Unit := if ok then .ok () else e

-- Speculation of SVCP (R327, R328).

def Block.specOf (b : Block) (aid : Nat) : Option Spec := b.spec.find? fun x => x.aid == aid
def Block.svcOf (b : Block) (aid : Nat) : Option SvcWait := b.svc.find? fun x => x.aid == aid

/-- Put one register of a thread back as the snapshot has it. -/
def restoreReg (snap : Thread) (th : Thread) (n : Nat) : Thread :=
  let th := th.putV n (snap.getV n)
  if snap.isDead n then th.kill n else th.clearDead n

/-- The agent as it was at its SVCP, waiting for the reply there (R328): the kept items, the registers of the undo buffer, and
those whose results were pending. -/
def Block.rollback (b : Block) (x : Spec) : Block :=
  let late := match x.warp with
    | some w => w.pend.flatMap fun p => p.vals.filterMap fun v => (match v.1 with
      | .v _ n => some n
      | _ => none)
    | none => []
  let regs := x.undo.map Prod.fst ++ late
  let threads := x.threads.foldl (fun (bl : Block) p =>
    bl.modThread p.1 fun th =>
      let th := regs.foldl (fun th n => restoreReg p.2 th n) th
      { th with p := p.2.p, x := p.2.x, nest := p.2.nest, rng := p.2.rng }) b
  let homes := x.homes.foldl (fun (bl : Block) p =>
    { bl with homes := bl.homes.modify p.1 fun h => { h with xwin := p.2.xwin, schk := p.2.schk } }) threads
  let withWarp := match x.warp with
    | some w => homes.setWarp { w with wait := .reply }
    | none => homes
  let withSeq := match x.seq, withWarp.seq with
    | some q, some cur =>
      { withWarp with seq := some { cur with
          pc := q.pc, q := q.q, wait := .reply,
          s := regs.foldl (fun l n => l.set n (q.s.getD n 0)) cur.s } }
    | _, _ => withWarp
  { withSeq with spec := withSeq.spec.filter fun y => y.aid != x.aid }

/-- Loads issued during speculation write nothing after a roll-back. -/
def State.dropDests (s : State) (aid from_ : Nat) : State :=
  { s with om := { s.om with accs := s.om.accs.map fun p =>
      if p.2.aid = aid ∧ from_ ≤ p.2.inst then
        match p.2.kind with
        | .load a n _ => (p.1, { p.2 with kind := .load a n [] })
        | _ => p
      else p } }

/-- A waiting TAKE of a block is abandoned (R118). -/
def State.abandonTake (s : State) (b : Block) : State :=
  if (s.core b.gcore).waiting.any fun x => x.1 == b.id then
    s.modCore b.gcore fun c => { c with waiting := c.waiting.filter fun x => x.1 != b.id }
  else s

/-- One speculation of a block rolls back (R328); a TAKE that the sequencer thread has reached meanwhile is abandoned with it. -/
def State.rollbackOne (s : State) (blk : Nat) (x : Spec) : State :=
  let s := (s.dropDests x.aid x.tag).modBlock blk fun b => b.rollback x
  match x.seq, s.block blk with
  | some _, some b => s.abandonTake b
  | _, _ => s

/-- Every open speculation of a block rolls back (R328): on a trap in another party, or at pre-emption. -/
def State.rollbackAll (s : State) (blk : Nat) : State :=
  match s.block blk with
  | none => s
  | some b => b.spec.foldl (fun (st : State) x => st.rollbackOne blk x) s

-- Taking an exception (R27, R107, R109).

/-- The reset values of a sequencer thread's registers (R127). -/
def SeqThread.fresh (aid : Nat) (pc : Addr54) : SeqThread where
  aid := aid
  pc := pc
  s := List.replicate 64 0
  q := 0
  clke := 0
  clkl := 0
  hidden := none
  held := .none
  exited := false
  handlerOnly := false
  wait := .none
  tickets := List.replicate 12 0

/-- A block stops and goes to its die kernel (R109, R111). -/
def State.toKernel (s : State) (blk : Nat) : State :=
  match s.block blk with
  | none => s
  | some b => (s.setBlock { b with hst := .kernel }).report b.die (.forwarded blk)

/-- The handler starts (R109) at the TRAPENTRY that the header holds now (R93): on the block's own sequencer thread, which saves its PC in the hidden register, or on a
thread for the handler only. -/
def startHandler (s : State) (b : Block) : State :=
  let pc : Addr54 := BitVec.ofNat 54 (leNat (bytesAt s.phys.bytes b.trapPa 8))
  match b.seq with
  | some q =>
    -- without a sequencer entry the handler's thread starts afresh each time
    let q := if b.hdr.seqv then q else { SeqThread.fresh q.aid pc with exited := true }
    let q' := if q.exited then { q with hidden := some q.pc, pc := pc, handlerOnly := true, wait := .none }
      else { q with hidden := some q.pc, pc := pc, held := q.wait, wait := .none }
    s.setBlock { b with seq := some q', hst := .handler }
  | none =>
    let (aid, s) := s.newId
    let s := s.setAgent aid ⟨.seq b.id, b.die, [], [], []⟩
    s.setBlock { b with
      seq := some { SeqThread.fresh aid pc with hidden := some pc, exited := true, handlerOnly := true }
      hst := .handler }

/-- Taking an exception: every party of the block stops (a party issues only while the block runs), the trap record is
written, and the handler starts or the block goes to its die kernel. A fault inside the handler goes to the die kernel.
Other parties' speculation rolls back first (R328). -/
def takeTrap (s : State) (blk : Nat) (r : TrapRec) : State :=
  let s := s.rollbackAll blk
  match s.block blk with
  | none => s
  | some b =>
    let s := s.abandonTake b
    let inHandler := b.hst != .run
    let b := { b with trap := r }
    if inHandler || !b.hdr.trapv then (s.setBlock b).toKernel blk
    else startHandler (s.setBlock b) b

/-- The return from an exception (R111): every party resumes at its boundary. With `skip` the party that TRWARP names
resumes after the faulting instruction; without it, a STALL.SHORT reader issues once without the check (R88). -/
def resumeBlock (b : Block) (skip : Bool) : Block :=
  let fixWarp (w : Warp) : Warp :=
    if w.k = b.trap.warp then
      if skip then { w with pc := b.trap.pc + 12, waive := false, wait := .none }
      else { w with waive := b.trap.code == fStallShort }
    else w
  let b := { b with warps := b.warps.map fixWarp, hst := .run, fwd := none }
  match b.seq with
  | none => b
  | some q =>
    let skipped := skip && b.trap.warp == 0x3F
    let pc := if skipped then b.trap.pc + 12 else q.hidden.getD q.pc
    let q' := { q with
      pc := pc, hidden := none, handlerOnly := false, held := .none, wait := if skipped then .none else q.held }
    { b with seq := some q' }

-- The issuing agent.

/-- The warp that issues. -/
structure WEnv where
  s : State
  b : Block
  w : Warp
  c : Ctl
  deriving DecidableEq, Repr

/-- The sequencer thread that issues. -/
structure SEnv where
  s : State
  b : Block
  q : SeqThread
  c : Ctl
  deriving DecidableEq, Repr

/-- Who issues in this step. -/
inductive Issuer where
  | warp (b : Block) (w : Warp)
  | seq (b : Block) (q : SeqThread)
  deriving DecidableEq, Repr

def State.issuer (s : State) : Option Issuer :=
  match s.actor with
  | none => none
  | some aid =>
    match s.agent aid with
    | some r =>
      match r.kind with
      | .warp blk k =>
        match s.block blk with
        | some b => match b.warp? k with
          | some w => if w.aid = aid then some (.warp b w) else none
          | none => none
        | none => none
      | .seq blk =>
        match s.block blk with
        | some b => match b.seq with
          | some q => if q.aid = aid then some (.seq b q) else none
          | none => none
        | none => none
      | _ => none
    | none => none

/-- A quiet boundary (R103): no warp has a transient result still readable, or it has issued three instructions since its last
transient destination; and no speculative matrix entry runs. -/
def State.blockQuiet (s : State) (b : Block) : Bool :=
  (b.warps.all fun w => w.ended || decide (3 ≤ w.since) || w.byp.all fun x => !x.tr) &&
  s.om.entries.all fun e => e.blk != b.id || e.result.isSome || (match e.form with
    | .mat m => (match m.form with
      | .mmaS _ _ _ => false
      | _ => true)
    | _ => true)

/-- Whether the block's cluster is halted or its team told to stop and the block at a quiet boundary (R103, R317). -/
def State.blockHeld (s : State) (b : Block) : Bool :=
  ((s.die b.die).clusters.getD b.cluster ⟨false, false, false⟩).halt ||
    (match s.team b.team with
     | some t => t.stop && s.blockQuiet b
     | none => false)

/-- A parked warp is not scheduled (R267). -/
def Wait.isPark : Wait → Bool
  | .park _ => true
  | _ => false

/-- A thread that yields issues nothing until its team is saved (R111). -/
def Wait.isYield : Wait → Bool
  | .yield _ => true
  | _ => false

/-- Whether an agent may issue at all: its block runs and is not held, and it has not ended; a handler runs on the
sequencer thread (R107, R109). -/
def State.canIssue (s : State) : Issuer → Bool
  | .warp b w => b.hst == .run && !s.blockHeld b && !w.ended && warpAlive b w && !w.wait.isPark
  | .seq b q => !s.blockHeld b && !q.wait.isYield && ((b.hst == .run && !q.exited) || b.hst == .handler)

/-- Put the warp's and the block's new state back and end its wait. -/
def WEnv.put (e : WEnv) (b : Block) (w : Warp) : State := e.s.setBlock (b.setWarp w)

def WEnv.eff (e : WEnv) : List (Nat × Nat) := effLanes e.b e.w e.c

/-- The warp after an instruction has issued: PC, distance clock, no wait, no waiver (R84, R86). -/
def Warp.advance (w : Warp) (c : Ctl) : Warp :=
  { w with pc := w.pc + 12, clock := w.clock + stallN c, since := min 3 (w.since + 1), wait := .none, waive := false }

def Warp.advanceTo (w : Warp) (c : Ctl) (pc : Addr54) : Warp := { w.advance c with pc := pc }

def SEnv.put (e : SEnv) (q : SeqThread) : State := e.s.setBlock { e.b with seq := some q }

def SeqThread.advance (q : SeqThread) : SeqThread := { q with pc := q.pc + 12, wait := .none }

/-- Branch targets (R74): PC + 12 * offset modulo 2^54. -/
def branchTo (pc : Addr54) (off : Int) : Addr54 := pc + BitVec.ofInt 54 (12 * off)

def offInt : Off → Int
  | .short v => v.toInt
  | .long v => v.toInt

end Sys2Proof.Machine
end

