-- ==== Sys2Proof/Machine/Operands.lean ====
section
/-!
DEFINITION. Operand forms: the registers a field names in a lane, the value it gives, the checks of R82 with their order,
the interlock of R87, the early reads of R88, and how an instruction retires its results.
-/
namespace Sys2Proof.Machine

-- What an instruction reads beyond its source fields.

/-- The predicates an instruction reads besides its guard (R171, R172, R177, R189, R191). -/
def predReads : Instr → List Nat
  | .sel _ p _ _ _ => [p.val]
  | .ifOpen _ _ p => [p.val]
  | .brkLoop _ _ _ p => [p.val]
  | .cont _ _ _ p => [p.val]
  | .plop _ _ _ a b => [a.val, b.val]
  | .pmov _ _ => List.range 12
  | .agree _ _ _ _ a => [a.val]
  | .ballot _ _ _ a => [a.val]
  | _ => []

/-- The predicates among them that stand in the fields A and B (R189, R191). -/
def predFields : Instr → List Nat
  | .plop _ _ _ a b => [a.val, b.val]
  | .agree _ _ _ _ a => [a.val]
  | .ballot _ _ _ a => [a.val]
  | _ => []

/-- The predicate an interlocked instruction writes (R190 writes in a fixed class). -/
def predWrites : Instr → List Nat
  | .iset _ _ _ p _ _ => [p.val]
  | .fset _ _ p _ _ => [p.val]
  | .plop _ _ d _ _ => [d.val]
  | .pmovP _ _ => List.range 12
  | .shfl _ _ (some p) _ _ _ => [p.val]
  | .agree _ _ _ d _ => [d.val]
  | .ldas _ (some p) _ _ _ _ => [p.val]
  | _ => []

/-- Whether the D field is also read (R174, R178, R181, R207, R302, R326). -/
def dIsRead : Instr → Bool
  | .imad _ _ _ _ => true
  | .bfi _ _ _ _ => true
  | .ffma _ _ _ _ _ => true
  | .pkfma _ _ _ _ _ _ => true
  | .cvt8 _ _ _ _ _ _ => true
  | .acas _ _ _ _ _ _ => true
  | .svcp _ _ _ _ => true
  | .rngadv _ _ _ _ => true
  | _ => false

/-- A meeting instruction: BRD, BRX and a guarded CALL (R148). -/
def isMeeting : Instr → Bool
  | .brd _ _ _ => true
  | .brx _ _ _ => true
  | .call c _ _ => c.guard != .always
  | _ => false

/-- Whether R88 checks the guard: not on a meeting, which reads it when it completes, and not on NOP, which has no use for
it (R163). -/
def guardChecked (i : Instr) : Bool :=
  !isMeeting i && (match i with
    | .nop _ => false
    | _ => true)

/-- The S registers named by fields that hold nothing else. -/
def sregArgs : Instr → List Nat
  | .tdclr _ d a => [d.val, a.val]
  | .hrev _ d a => [d.val, a.val]
  | .spawn _ d a => [d.val, a.val]
  | .spawnr _ _ d a b => [d.val, a.val, b.val]
  | .exitJ _ a => [a.val]
  | .yieldTeam _ d => [d.val]
  | .claim _ a => [a.val]
  | .take _ a => [a.val]
  | .taket _ d a => [d.val, a.val]
  | .give _ a => [a.val]
  | .smov _ d _ => [d.val]
  | .smovh _ d _ => [d.val]
  | .sadd _ d _ _ => [d.val]
  | .ssub _ d _ _ => [d.val]
  | .smul _ d _ _ => [d.val]
  | .smulhi _ _ d _ _ => [d.val]
  | .sdiv _ _ d _ _ => [d.val]
  | .srem _ _ d _ _ => [d.val]
  | .smin _ _ d _ _ => [d.val]
  | .smax _ _ d _ _ => [d.val]
  | .sand _ d _ _ => [d.val]
  | .sor _ d _ _ => [d.val]
  | .sxor _ d _ _ => [d.val]
  | .sshl _ d _ _ => [d.val]
  | .sshr _ _ d _ _ => [d.val]
  | .spopc _ d _ => [d.val]
  | .sclz _ d _ => [d.val]
  | .ssel _ _ d _ _ => [d.val]
  | .sbrx _ a _ => [a.val]
  | .scall _ d (.reg a) => [d.val, a.val]
  | .scall _ d _ => [d.val]
  | .sret _ a => [a.val]
  | .wwaitExit _ d a => [d.val, a.val]
  | _ => []

/-- The operand fields with their specifications on an engine; none where the instruction is not valid there. -/
def fieldsOf (g : Engine) (i : Instr) : List (Operand × FSpec) := (i.fields g).getD []

def warpWrites (i : Instr) : List (Operand × FSpec) := (fieldsOf .warp i).filter fun p => p.2.role != .src

-- Registers in a lane (R140).

/-- The window of X register `x` in thread `t`: base and length. -/
def idxWin (b : Block) (t : Nat) (x : BitVec 2) : Nat × Nat := (b.home t).xwin.getD x.toNat (0, 0)

/-- x + d of an indexed operand. -/
def idxSum (b : Block) (t : Nat) (x : BitVec 2) (d : BitVec 6) : Nat := ((b.thread t).getX x.toNat).toNat + d.toNat

/-- The register a field names first in thread `t`. -/
def regOf (b : Block) (t : Nat) : Operand → Nat
  | .reg n _ _ => n.toNat
  | .idx x d _ _ => (idxWin b t x).1 + idxSum b t x d
  | _ => 0

def idxOk (b : Block) (t : Nat) : Operand → Bool
  | .idx x d _ _ => decide (idxSum b t x d < (idxWin b t x).2) && decide ((idxWin b t x).1 + idxSum b t x d < b.bnd)
  | _ => true

def isReg : Operand → Bool
  | .reg _ _ _ => true
  | .idx _ _ _ _ => true
  | _ => false

/-- The V registers a field names in thread `t`, those of the window. -/
def regsOf (b : Block) (t : Nat) (p : Operand × FSpec) : List Nat :=
  if isReg p.1 then ((List.range p.2.span).map fun i => regOf b t p.1 + i).filter fun n => decide (n < b.bnd) else []

-- Check 2 of R82.

/-- REG.WINDOW: every register the word names is in the window (R139). -/
def windowOk (b : Block) (i : Instr) : Bool :=
  (fieldsOf .warp i).all fun p =>
    match p.1 with
    | .reg n _ _ => decide (n.toNat + p.2.span ≤ b.bnd)
    | _ => true

-- The interlock (R87).

def destCells (k : AccKind) : List Cell :=
  match k with
  | .load _ _ ds => ds.map Dest.cell
  | .rmw _ lanes => lanes.filterMap AtomLane.ret
  | .ldas _ _ _ _ ds st pr => ds.map Dest.cell ++ st ++ pr.toList
  | .arrive _ ds => ds
  | _ => []

def agentBlock : AgentKind → Option Nat
  | .warp blk _ => some blk
  | .seq blk => some blk
  | _ => none

/-- The cells of a block that accesses in flight will write. -/
def State.outstanding (s : State) (blk : Nat) : List Cell :=
  s.om.accs.flatMap fun p =>
    match s.agent p.2.aid with
    | some r => if agentBlock r.kind = some blk then destCells p.2.kind else []
    | none => []

/-- The guard's predicate, where the instruction reads it: the guard of NOP has no effect (R163). -/
def guardRead (i : Instr) (c : Ctl) : List Nat :=
  match i, c.guard with
  | .nop _, _ => []
  | _, .pred n _ => [n.toNat]
  | _, .always => []

/-- The cells a warp instruction reads or writes in its live lanes. -/
def touchedCells (b : Block) (w : Warp) (i : Instr) (c : Ctl) : List Cell :=
  (liveLanes b w).flatMap fun p =>
    ((fieldsOf .warp i).flatMap fun f => (regsOf b p.2 f).map (Cell.v p.2)) ++
    (guardRead i c ++ predReads i ++ predWrites i).map (Cell.p p.2)

-- Early reads (R86, R88).

def pendHas (w : Warp) (c : Cell) : Bool := w.pend.any fun p => p.vals.any fun v => v.1 == c

/-- A read of V register `n` in thread `t` comes before its producer's latency. The youngest entry of the bypass that wrote it decides
(R143): results that came before it are not read. -/
def earlyV (w : Warp) (t n : Nat) : Bool :=
  match bypFind t n w.byp with
  | some (due, _) => decide (w.clock < due)
  | none => pendHas w (.v t n)

/-- TRAUX of STALL.SHORT for one field over the live lanes: X, then the window, then V where the field is read. An indexed
destination reads its X register and its window. R88 orders the fields only: where several V registers of one field are early, the
model's choice is the first one of the lowest slot that has one (log entry 22). -/
def earlyField (b : Block) (w : Warp) (i : Instr) (p : Operand × FSpec) : Option Nat :=
  let ts := (liveLanes b w).map Prod.snd
  let isRead := p.2.role == .src || dIsRead i
  let vs (t : Nat) : Option Nat := if isRead then (regsOf b t p).find? fun n => earlyV w t n else none
  match p.1 with
  | .idx x _ _ _ =>
    if ts.any fun t => pendHas w (.x t x.toNat) then some (x.toNat + 2 * 256)
    else if ts.any fun t => pendHas w (.xwin (t / 32) x.toNat) then some (x.toNat + 3 * 256)
    else ts.findSome? vs
  | .reg _ _ _ => ts.findSome? vs
  | _ => none

def earlyPred (b : Block) (w : Warp) (n : Nat) : Bool :=
  ((liveLanes b w).map Prod.snd).any fun t => pendHas w (.p t n)

/-- The X register that XSET's D reads (R193). -/
def xRead : Instr → Option Nat
  | .xset _ x _ => some x.toNat
  | _ => none

/-- XSET's D under R88: the X register (R193). -/
def earlyX (b : Block) (w : Warp) (i : Instr) : Option Nat :=
  match xRead i with
  | some x => if (liveLanes b w).any fun p => pendHas w (.x p.2 x) then some (x + 2 * 256) else none
  | none => none

/-- The first register an instruction would read early, in the order of R88: predicates that stand in no operand field come after the
guard (log entry 22), those of A and B after D. -/
def earlyRead (b : Block) (w : Warp) (i : Instr) (c : Ctl) : Option Nat :=
  let guard := match c.guard with
    | .pred n _ => if guardChecked i && earlyPred b w n.toNat then some (n.toNat + 256) else none
    | .always => none
  match guard with
  | some x => some x
  | none =>
    match ((predReads i).filter fun n => !(predFields i).contains n).find? (earlyPred b w) with
    | some n => some (n + 256)
    | none =>
      if isMeeting i then none
      else match earlyX b w i with
        | some x => some x
        | none =>
          match (fieldsOf .warp i).findSome? (earlyField b w i) with
          | some x => some x
          | none => ((predFields i).find? (earlyPred b w)).map fun n => n + 256

/-- Whether the warp checks under R88 (R138). -/
def checksStall (b : Block) (w : Warp) : Bool := (liveLanes b w).any fun p => (b.home p.2).schk

-- INDEX.RANGE (R140).

/-- The first indexed field that is out of range in an effective lane, in the order D, A, B. -/
def indexFault (b : Block) (eff : List (Nat × Nat)) (i : Instr) : Option TrapInfo :=
  (fieldsOf .warp i).findSome? fun p =>
    match p.1 with
    | .idx x d _ _ =>
      let bad := eff.filter fun l => !idxOk b l.2 p.1
      match bad with
      | [] => none
      | l :: _ => some ⟨fIndexRange, 0, idxSum b l.2 x d, some (lanesMask bad)⟩
    | _ => none

/-- Whether a pair or quad named by an indexed field passes the window bound (R111). -/
def indexPairFault (b : Block) (eff : List (Nat × Nat)) (i : Instr) : Bool :=
  (fieldsOf .warp i).any fun p =>
    match p.1 with
    | .idx _ _ _ _ => eff.any fun l => decide (b.bnd < regOf b l.2 p.1 + p.2.span)
    | _ => false

-- Values.

/-- A special register on a warp (R80). SCHK is kept per home warp (R138); in a compacted warp each lane reads the bit of its own home
warp, where R80 says 'on for the warp': the model's choice (log entry 78). -/
def specialW (e : WEnv) (l : Nat × Nat) (n : BitVec 9) : Word32 :=
  let k := n.toNat
  if k = 0 then w32 l.2
  else if k = 1 then w32 l.1
  else if k = 2 then w32 e.w.k
  else if k = 3 then lanesMask e.eff
  else if 8 ≤ k ∧ k ≤ 13 then w32 (fieldOf e.b.hdr.widths (k - 8) (e.b.workid + l.2))
  else if k = 0x10 then (e.b.thread l.2).rng
  else if (e.b.home l.2).schk then 1 else 0

/-- Register `off` of a field in a lane (R143). -/
def regV (e : WEnv) (l : Nat × Nat) (o : Operand) (off : Nat) : Word32 := readV e.b e.w l.2 (regOf e.b l.2 o + off)

/-- A source in an integer position (R160). -/
def srcI (e : WEnv) (l : Nat × Nat) : Operand → Word32
  | .imm v => v.signExtend 32
  | .special n => specialW e l n
  | o => regV e l o 0

/-- A source in a binary32 position (R160). -/
def srcF (e : WEnv) (l : Nat × Nat) : Operand → Word32
  | .imm v => v.setWidth 32 <<< 13
  | .special n => specialW e l n
  | o => regV e l o 0

/-- A source taken unsigned: an immediate is zero-extended. -/
def srcU (e : WEnv) (l : Nat × Nat) : Operand → Word32
  | .imm v => v.setWidth 32
  | o => srcI e l o

/-- A pair as 64 bits, or an immediate zero-extended (R229). -/
def srcPair (e : WEnv) (l : Nat × Nat) : Operand → Word64
  | .imm v => v.setWidth 64
  | o => regV e l o 1 ++ regV e l o 0

def addr54 (lo hi : Word32) : Addr54 := hi.setWidth 22 ++ lo

/-- A special register on the sequencer (R80). -/
def specialS (b : Block) (q : SeqThread) (n : BitVec 9) : Word64 :=
  let k := n.toNat
  let t := b.trap
  if k = 8 then 0
  else if 9 ≤ k ∧ k ≤ 13 then BitVec.ofNat 64 (fieldOf b.hdr.widths (k - 8) b.workid)
  else if k = 0x18 then q.clke
  else if k = 0x19 then q.clkl
  else if k = 0x20 then BitVec.ofNat 64 t.code
  else if k = 0x21 then t.pc.setWidth 64
  else if k = 0x22 then BitVec.ofNat 64 t.addr
  else if k = 0x23 then BitVec.ofNat 64 t.aux
  else if k = 0x24 then BitVec.ofNat 64 t.warp
  else t.lanes.setWidth 64

def SeqThread.get (q : SeqThread) (n : Nat) : Word64 := q.s.getD n 0
def SeqThread.put (q : SeqThread) (n : Nat) (x : Word64) : SeqThread := { q with s := q.s.set n x }
def SeqThread.getQ (q : SeqThread) (n : Nat) : Bool := q.q.getLsbD n
def SeqThread.putQ (q : SeqThread) (n : Nat) (x : Bool) : SeqThread :=
  { q with q := if x then q.q ||| (1#8 <<< n) else q.q &&& ~~~(1#8 <<< n) }

/-- A sequencer source (R135): an immediate is sign-extended to 64 bits. -/
def srcS (e : SEnv) : Operand → Word64
  | .reg n _ _ => e.q.get n.toNat
  | .imm v => v.signExtend 64
  | .special n => specialS e.b e.q n
  | .idx _ _ _ _ => 0

/-- A sequencer source whose immediate is zero-extended. -/
def srcSU (e : SEnv) : Operand → Word64
  | .imm v => v.setWidth 64
  | o => srcS e o

/-- The S register a field names. -/
def regS : Operand → Nat
  | .reg n _ _ => n.toNat
  | _ => 0

def guardS (q : SeqThread) (c : Ctl) : Bool :=
  match c.guard with
  | .always => true
  | .pred n neg => q.getQ n.toNat != neg

-- Retiring.

/-- Last-use marks take effect in the effective lanes (R141): a pair or quad with a mark dies in its named register
(log entry 20). -/
def killMarks (b : Block) (eff : List (Nat × Nat)) (i : Instr) : Block :=
  (fieldsOf .warp i).foldl (fun bl p =>
    let marked := p.2.role == .src && (match p.1 with
      | .reg _ m _ => m
      | .idx _ _ m _ => m
      | _ => false)
    if marked then
      -- the register is the one named before any mark
      eff.foldl (fun bl l => bl.modThread l.2 fun th => th.kill (regOf b l.2 p.1)) bl
    else bl) b

/-- The first destination field is a transient one (R76). -/
def isTransient (i : Instr) : Bool :=
  (fieldsOf .warp i).any fun p => p.2.role != .src && (match p.1 with
    | .reg _ m _ => m
    | _ => false)

/-- Whether the instruction's form writes a V register, and so takes a bypass entry (R143). -/
def writesV (i : Instr) : Bool := !(warpWrites i).isEmpty

/-- What a fixed-latency instruction writes: its V register per thread, and other cells. -/
structure Res where
  v     : List (Nat × Nat × Word32)
  other : List (Cell × Nat)
  deriving DecidableEq, Repr

def vCells (v : List (Nat × Nat × Word32)) : List (Cell × Nat) := v.map fun x => (.v x.1 x.2.1, x.2.2.toNat)

/-- An instruction of a fixed class with latency `lat` has issued (R84 to R86, R141, R143). -/
def retireFixed (e : WEnv) (i : Instr) (lat : Nat) (r : Res) : State :=
  let b := killMarks e.b e.eff i
  let due := e.w.clock + lat
  let cells := (if isTransient i then [] else vCells r.v) ++ r.other
  let w := if cells.isEmpty then e.w else { e.w with pend := e.w.pend ++ [⟨due, cells⟩] }
  let w := (if writesV i then w.pushByp ⟨due, r.v, isTransient i⟩ else w).advance e.c
  e.put b (if isTransient i then { w with since := 0 } else w)

/-- Earlier results to these cells no longer show: from the pending list and the bypass. -/
def Warp.supersede (w : Warp) (cells : List Cell) : Warp :=
  { w with
    pend := stripPend cells w.pend
    byp := w.byp.map fun x => { x with vals := x.vals.filter fun v => !cells.contains (.v v.1 v.2.1) } }

/-- An interlocked instruction whose results stand at once. -/
def retireNow (e : WEnv) (i : Instr) (cells : List (Cell × Nat)) : State :=
  let b := (killMarks e.b e.eff i).putCells cells
  let w := e.w.supersede (cells.map Prod.fst)
  let w := if writesV i then w.pushByp ⟨w.clock, [], false⟩ else w
  e.put b (w.advance e.c)

/-- An interlocked instruction whose results come later: its accesses stand in `s`. -/
def retireLater (s : State) (e : WEnv) (i : Instr) (cells : List Cell) : State :=
  let b := killMarks e.b e.eff i
  let w := e.w.supersede cells
  let w := if writesV i then w.pushByp ⟨w.clock, [], false⟩ else w
  ({ e with s := s }).put b (w.advance e.c)

/-- An instruction that writes no register now: it has no destination, or no lane acts, and then it advances the bypass all the
same (R145). -/
def retire (s : State) (e : WEnv) (i : Instr) : State :=
  let w := if writesV i then e.w.pushByp ⟨e.w.clock, [], false⟩ else e.w
  ({ e with s := s }).put (killMarks e.b e.eff i) (w.advance e.c)

/-- The cells of a pair in the effective lanes that hold one 64-bit value. -/
def pairCells (e : WEnv) (d : Operand) (v : Word64) : List (Cell × Nat) :=
  e.eff.flatMap fun l =>
    let n := regOf e.b l.2 d
    [(.v l.2 n, (v.setWidth 32).toNat), (.v l.2 (n + 1), (v.extractLsb' 32 32).toNat)]

/-- The per-lane results of a function of the lane. -/
def perLane (e : WEnv) (d : Operand) (f : Nat × Nat → Word32) : Res :=
  ⟨e.eff.map fun l => (l.2, regOf e.b l.2 d, f l), []⟩

-- Speculation (R327).

/-- Instructions a speculating agent may issue: classes NONE, LOAD and STORE, no meeting, no MSR, no EXIT. -/
def specAllowed (i : Instr) : Bool :=
  match i with
  | .brd _ _ _ | .brx _ _ _ => false
  | .call c _ _ => c.guard == .always
  | .brq _ _ | .movq _ _ | .bar _ | .barTeam _ | .msr _ _ _ => false
  | .ld _ (.acq _ _) _ _ _ | .ldl _ (.acq _ _) _ _ _ => false
  | .st _ (.rel _ _) _ _ _ | .stl _ (.rel _ _) _ _ _ => false
  | .fence _ _ | .atom _ _ _ _ _ | .acas _ _ _ _ _ _ | .redM _ _ _ _ _ | .redC _ _ _ _ => false
  | .sts _ _ _ _ _ | .ldas _ _ _ _ _ _ | .cwait _ _ | .bara _ _ _ | .barw _ _ _ | .tdclr _ _ _ => false
  | .mma _ _ _ _ | .mmaA _ _ _ _ | .mmaS _ _ _ _ _ _ | .mwait _ _ | .shcommit _ _ | .shdrop _ _ => false
  | .cpy _ _ _ _ _ _ | .cpys _ _ _ _ _ _ | .cpyx _ _ _ _ _ _ | .qfence _ _ | .seqwait _ _ _ => false
  | .starr _ _ | .stwait _ _ | .hrev _ _ _ => false
  | .mgath _ _ _ _ _ | .mconvCvt _ _ _ | .mconvStripe _ _ _ | .mxv _ _ _ | .mseqwait _ _ _ => false
  | .npost _ _ _ | .nwait _ _ _ | .rngpeek _ _ _ | .rngadv _ _ _ _ | .nqfence _ _ => false
  | .spawn _ _ _ | .spawnr _ _ _ _ _ | .joindec _ _ | .exit _ | .exitJ _ _ | .exitK _ => false
  | .dqpush _ _ | .wwaitDq _ | .wwaitExit _ _ _ => false
  | .svc _ _ _ _ | .svcp _ _ _ _ | .trap _ _ _ | .brk _ _ => false
  | _ => true

def isStore : Instr → Bool
  | .st _ _ _ _ _ => true
  | .stl _ _ _ _ _ => true
  | .clean _ _ _ => true
  | .inval _ _ _ => true
  | _ => false

/-- The V registers an instruction writes in some effective lane. -/
def writtenV (e : WEnv) (i : Instr) : List Nat :=
  dedup ((warpWrites i).flatMap fun p => e.eff.flatMap fun l => regsOf e.b l.2 p)

/-- The S registers an instruction writes: its D field where it is one. -/
def writtenS (i : Instr) : List Nat :=
  match i with
  | .st _ _ _ _ _ | .stl _ _ _ _ _ | .stinit _ _ _ | .starr _ _ => []
  | .ld _ _ d _ _ | .ldl _ _ d _ _ | .clk _ d | .wfld _ _ d | .hold _ _ d | .tdmask _ _ d => [regS d]
  | .seqrd _ _ _ d | .mrstat _ _ _ d | .ncnt _ _ d _ => [regS d]
  | .rngstatPeek _ d _ | .rngstatReset _ d _ => (List.range 4).map fun i => regS d + i
  | .sbrx _ _ _ | .sret _ _ | .claim _ _ | .take _ _ | .give _ _ => []
  | i => (sregArgs i).take 1

/-- The undo buffer with the registers a speculating agent writes next; none when it has no room (R327). -/
def Spec.note (x : Spec) (regs : List Nat) : Option Spec :=
  let new := (dedup regs).filter fun n => !(x.undo.any fun u => u.1 == n)
  if x.undo.length + new.length ≤ 32 then some { x with undo := x.undo ++ new.map fun n => (n, 0) } else none

def Block.setSpec (b : Block) (x : Spec) : Block :=
  { b with spec := b.spec.map fun y => if y.aid = x.aid then x else y }

/-- The stall rules of R327 for an agent that speculates; the block comes back with its undo buffer. -/
def specGate (b : Block) (aid : Nat) (i : Instr) (regs : List Nat) : Option Block :=
  match b.specOf aid with
  | none => some b
  | some x =>
    if !specAllowed i then none
    else if isStore i && decide (64 ≤ (dedup (x.stores.map fun a => a.inst)).length) then none
    else (x.note regs).map b.setSpec

-- Issue.

/-- The first bound register that an instruction other than an MMA writes (R236). -/
def boundWrite (e : WEnv) (i : Instr) : Option Nat :=
  match i with
  | .mma _ _ _ _ => none
  | _ => (writtenV e i).find? fun n => e.eff.any fun l =>
      boundV e.b e.w l.2 n && (warpWrites i).any fun p => (regsOf e.b l.2 p).contains n

/-- Checks 1 to 3 of R82 with the interlock of R87 before check 3, then INDEX.RANGE (R140). `first` is the TRAUX of a register
that STALL.SHORT names before those of the word's fields: an accumulator of an MMA. -/
def warpChecks (e : WEnv) (i : Instr) (first : Option Nat := none) : Except Stop Unit :=
  if !i.wfOn .warp then flt fIllegal 0
  else if !windowOk e.b i then flt fRegWindow 0
  else
    let out := e.s.outstanding e.b.id
    if (touchedCells e.b e.w i e.c).any out.contains then waitOn .other e.s
    else
      match (if checksStall e.b e.w && !e.w.waive then earlyRead e.b e.w i e.c else none) with
      | some aux => flt fStallShort (first.getD aux)
      | none =>
        match indexFault e.b e.eff i with
        | some t => .error (.trap t)
        | none =>
          if indexPairFault e.b e.eff i then flt fRegWindow 0
          else
            match boundWrite e i with
            | some n => flt fAccInflight n
            | none => .ok ()

/-- Record a wait of the agent. -/
def setWaitW (s : State) (blk k : Nat) (r : Wait) : State :=
  s.modBlock blk fun b =>
    match b.warp? k with
    | some w => b.setWarp { w with wait := r }
    | none => b

def setWaitS (s : State) (blk : Nat) (r : Wait) : State :=
  s.modBlock blk fun b => { b with seq := b.seq.map fun q => { q with wait := r } }

/-- The warp's environment after results have reached their latency (R86). -/
def warpEnv (s : State) (b : Block) (w : Warp) (c : Ctl) : WEnv :=
  let r := settle b w
  ⟨s.setBlock r.1, r.1, r.2, c⟩

/-- What a warp instruction does: the checks, the stall rules of speculation, its own effect. -/
def runWarp (i : Instr) (body : WEnv → Except Stop State) (e : WEnv) (first : WEnv → Option Nat := fun _ => none) :
    Except Stop State :=
  match warpChecks e i (first e) with
  | .error x => .error x
  | .ok () =>
    match specGate e.b e.w.aid i (writtenV e i) with
    | none => waitOn .reply e.s
    | some b => body { e with b := b }

/-- An agent that faults has been told of its failed walks. -/
def State.dropFails (s : State) (die aid : Nat) : State :=
  s.modDie die fun d => { d with fails := d.fails.filter fun f => f.aid != aid }

/-- The trap record of a fault (R107). -/
def trapRecW (e : WEnv) (t : TrapInfo) : TrapRec :=
  ⟨t.code, e.w.pc, t.addr, t.aux, e.w.k, t.lanes.getD (lanesMask e.eff)⟩

/-- The outcome of a warp instruction: a next state; a fault is taken, or holds a speculating agent (R327). -/
def warpOutcome (e : WEnv) (r : Except Stop State) : State :=
  match r with
  | .ok t => t
  | .error (.wait x t) => setWaitW t e.b.id e.w.k x
  | .error (.trap t) =>
    if (e.b.specOf e.w.aid).isSome then setWaitW e.s e.b.id e.w.k .reply
    else takeTrap (e.s.dropFails e.b.die e.w.aid) e.b.id (trapRecW e t)

/-- A fence or an acquire load of the sequencer thread is unperformed: it issues nothing (R132). -/
def seqFenced (s : State) (q : SeqThread) : Bool :=
  s.om.accs.any fun p => p.2.aid == q.aid && (p.2.acq.isSome || (match p.2.kind with
    | .fence _ => true
    | _ => false))

/-- Whether the sequencer's next instruction may not issue yet: a fence or an acquire of the thread is unperformed (R132), or a
register that it names is still to be written (R84, R87). -/
def seqBlocked (s : State) (b : Block) (q : SeqThread) (i : Instr) : Bool :=
  let out := s.outstanding b.id
  let named := sregArgs i ++ (fieldsOf .seq i).flatMap fun p =>
    match p.1 with
    | .reg n _ _ => (List.range p.2.span).map fun k => n.toNat + k
    | _ => []
  (named.any fun n => out.contains (.s n)) || seqFenced s q

def runSeq (i : Instr) (body : SEnv → Except Stop State) (e : SEnv) : Except Stop State :=
  if seqFenced e.s e.q then waitOn .other e.s
  else if !i.wfOn .seq then flt fIllegal 0
  else if seqBlocked e.s e.b e.q i then waitOn .other e.s
  else if !guardS e.q e.c then .ok (e.put e.q.advance)
  else
    match specGate e.b e.q.aid i (writtenS i) with
    | none => waitOn .reply e.s
    | some b => body { e with b := b }

def seqOutcome (e : SEnv) (r : Except Stop State) : State :=
  match r with
  | .ok t => t
  | .error (.wait x t) => setWaitS t e.b.id x
  | .error (.trap t) =>
    if (e.b.specOf e.q.aid).isSome then setWaitS e.s e.b.id .reply
    else takeTrap (e.s.dropFails e.b.die e.q.aid) e.b.id ⟨t.code, e.q.pc, t.addr, t.aux, 0x3F, 0⟩

/-- A word issues on whichever engine the actor of the step is (R82). An agent that may not issue does nothing. -/
def issue (i : Instr) (c : Ctl) (wb : WEnv → Except Stop State) (sb : SEnv → Except Stop State) (s : State)
    (first : WEnv → Option Nat := fun _ => none) : Host.Outcome State Fault Refusal :=
  match s.issuer with
  | none => .fault .noIssuer
  | some x =>
    if !s.canIssue x then .next s
    else match x with
      | .warp b w =>
        let e := warpEnv s b w c
        .next (warpOutcome e (runWarp i wb e first))
      | .seq b q =>
        let e : SEnv := ⟨s, b, q, c⟩
        .next (seqOutcome e (runSeq i sb e))

/-- A word that only warps accept: on the sequencer check 1 of R82 turns it away before its effect. -/
def issueW (i : Instr) (c : Ctl) (wb : WEnv → Except Stop State) (s : State) (first : WEnv → Option Nat := fun _ => none) :
    Host.Outcome State Fault Refusal :=
  issue i c wb (fun e => .ok e.s) s first

/-- A word that only the sequencer accepts. -/
def issueS (i : Instr) (c : Ctl) (sb : SEnv → Except Stop State) (s : State) : Host.Outcome State Fault Refusal :=
  issue i c (fun e => .ok e.s) sb s

/-- A fixed-latency instruction that writes one V register per lane. -/
def fixedV (i : Instr) (c : Ctl) (lat : Nat) (d : Operand) (f : WEnv → Nat × Nat → Word32) (s : State) :
    Host.Outcome State Fault Refusal :=
  issueW i c (fun e => .ok (retireFixed e i lat (perLane e d (f e)))) s

end Sys2Proof.Machine
end

