-- ==== Sys2Proof/Machine/Xlate.lean ====
section
/-!
DEFINITION. Physical memory by line (R198, R336), the page-table walk and the translation caches (R199, R200, R202), and
the checks of a translated access (R201, R203).
-/
namespace Sys2Proof.Machine

-- The physical map (R198).

inductive Region where
  | hbm | staging | cxl | device | none
  deriving DecidableEq, Repr

def PMem.window (m : PMem) (pa : Nat) : Option CxlWin :=
  m.cxl.find? fun w => decide (w.base ≤ pa) && decide (pa < w.base + w.len)

def PMem.region (m : PMem) (pa : Nat) : Region :=
  if pa < 2 ^ 40 then .hbm
  else if pa < 2 ^ 40 + 2 ^ 30 then .staging
  else if 2 ^ 48 ≤ pa ∧ pa < 2 ^ 51 then
    match m.window pa with
    | some w => if w.lost then .none else .cxl
    | none => .none
  else if 2 ^ 51 ≤ pa ∧ pa < 2 ^ 52 then .device
  else .none

/-- The die that holds the home of an address: its HBM die, the die of the stack, or the die of the root port. -/
def PMem.homeDie (m : PMem) (pa : Nat) : Nat :=
  match m.region pa with
  | .hbm => pa / 2 ^ 37 % 8
  | .staging => pa / 2 ^ 26 % 16 / 2
  | .cxl => match m.window pa with
    | some w => w.die
    | none => 0
  | _ => 0

/-- The stack of an HBM address (2 * die + PA[36]) or of a staging-window address. -/
def stackOf (pa : Nat) : Nat :=
  if pa < 2 ^ 40 then 2 * (pa / 2 ^ 37 % 8) + pa / 2 ^ 36 % 2 else pa / 2 ^ 26 % 16

/-- The L2 slice of an HBM address. -/
def sliceOf (pa : Nat) : Nat :=
  let f (lo : Nat) : BitVec 6 := BitVec.ofNat 6 (pa / 2 ^ lo)
  (f 7 ^^^ f 13 ^^^ f 19 ^^^ f 25 ^^^ f 31).toNat

-- Lines under keys (R336).

/-- The key table an address goes through: its stack's; for memory without one, a stack of its home's die. -/
def PMem.keyStack (m : PMem) (pa : Nat) : Nat :=
  match m.region pa with
  | .hbm => stackOf pa
  | .staging => stackOf pa
  | _ => 2 * m.homeDie pa

/-- Where a key identifier stands in the key tables. -/
def PMem.keyIx (m : PMem) (pa keyid : Nat) : Nat := m.keyStack pa * 256 + keyid

/-- The key a KEYID stands for now at a line: 0 for none, else the loaded key's number plus 1. HBM lines alone are encrypted. -/
def PMem.key (m : PMem) (line keyid : Nat) : Nat :=
  if keyid = 0 ∨ m.region (128 * line) ≠ .hbm then 0 else agetD (m.keyIx (128 * line) keyid) 0 m.keytab + 1

/-- A line whose bytes were written under one key, as a reader with another sees them (R336). -/
def underKey (wkey rkey line : Nat) (l : List Byte) : List Byte := if wkey = rkey then l else Cipher.reread wkey rkey line l

/-- The 128 bytes of a line as a reader with `key` sees them. -/
def PMem.readLine (m : PMem) (line key : Nat) : List Byte :=
  underKey (agetD line 0 m.keys) key line (bytesAt m.bytes (128 * line) 128)

/-- A byte written to a reserved place of a gleaning log's control block: its reserved bits stay zero (R218). -/
def ctlByte (o : Nat) (v : Byte) : Byte :=
  if o = 24 then v &&& 1
  else if o = 33 then v &&& 0xF0
  else if o = 38 then v &&& 0x3F
  else if o = 39 then v &&& 0xFC
  else if 25 ≤ o ∧ o ≤ 32 ∨ 40 ≤ o then 0
  else v

def State.ctlCells (s : State) (cells : List Host.Cell) : List Host.Cell :=
  s.dies.foldl (fun cs d =>
    if d.glean.made then cs.map fun c => if d.glean.ctl ≤ c.1 ∧ c.1 < d.glean.ctl + 64 then (c.1, ctlByte (c.1 - d.glean.ctl) c.2) else c
    else cs) cells

/-- Write bytes of one line under a key: the rest of the line is what the writer's key reads. -/
def State.writeLine (s : State) (line keyid : Nat) (cells : List Host.Cell) : State :=
  let key := s.phys.key line keyid
  let cells := s.ctlCells cells
  if agetD line 0 s.phys.keys = key then s.writePhys line cells
  else
    let base := cellsFrom (128 * line) (s.phys.readLine line key)
    let s := s.writePhys line base
    let s := s.writePhys line cells
    { s with phys := { s.phys with keys := if key = 0 then adel line s.phys.keys else aset line key s.phys.keys } }

/-- Bytes read at the home, over one or more lines. -/
def State.readHome (s : State) (keyid a n : Nat) : List Byte :=
  (List.range n).map fun i =>
    let x := a + i
    let key := s.phys.key (lineOf x) keyid
    if agetD (lineOf x) 0 s.phys.keys = key then byteAt s.phys.bytes x
    else (s.phys.readLine (lineOf x) key).getD (x % 128) 0

/-- Bytes written at the home, over one or more lines. -/
def State.writeHome (s : State) (keyid : Nat) : List Host.Cell → State
  | [] => s
  | (a, v) :: t => (s.writeLine (lineOf a) keyid [(a, v)]).writeHome keyid t

-- Table entries (R200).

def pteV (p : Word64) : Bool := p.getLsbD 0
def pteLeaf (p : Word64) : Bool := p.getLsbD 1
def pteR (p : Word64) : Bool := p.getLsbD 2
def pteW (p : Word64) : Bool := p.getLsbD 3
def pteX (p : Word64) : Bool := p.getLsbD 4
def pteU (p : Word64) : Bool := p.getLsbD 5
def pteContig (p : Word64) : Bool := p.getLsbD 6
def pteFar (p : Word64) : Bool := p.getLsbD 7
def pteKind (p : Word64) : Nat := (p.extractLsb' 8 3).toNat
def pteRepl (p : Word64) : Bool := p.getLsbD 11
def pteKeyid (p : Word64) : Nat := (p.extractLsb' 52 8).toNat
/-- PA[51:16] as an address. -/
def pteAddr (p : Word64) : Nat := (p.extractLsb' 16 36).toNat * 2 ^ 16

/-- A valid entry the walk may not use (R200), a FAR leaf included. -/
def pteMalformed (level : Nat) (p : Word64) : Bool :=
  if !pteLeaf p then
    -- a table entry has every bit but V and ADDR zero
    level == 3 || (p &&& 0xFFF000000000FFFE#64) != 0
  else
    level == 1 || (p &&& 0xF00000000000F000#64) != 0 || decide (4 ≤ pteKind p) ||
    (pteContig p && level != 2) ||
    (level == 2 && (pteAddr p % 2 ^ 29 != 0 || (pteContig p && pteAddr p % 2 ^ 33 != 0)))

/-- The end of a walk: a leaf with its page, or TRAUX of XLATE. -/
inductive Walked where
  | ok (pte : Word64) (va size pa : Nat)
  | fail (aux : Nat)
  deriving DecidableEq, Repr

def State.pteAt (s : State) (a : Nat) : Word64 := BitVec.ofNat 64 (leNat (s.readHome 0 a 8))

/-- KIND as it acts on a page at `pa`: in a staging window or in CXL memory no die keeps SWM copies (R195, R201, R274). -/
def pageKind (pa : Nat) (p : Word64) : Nat := if pteKind p = 1 ∧ 2 ^ 40 ≤ pa then 0 else pteKind p

/-- The walk (R199). In a run of 16 CONTIG leaves that differ, any of them may be used: a free value picks. Where the picked entry
is a table entry, the walk fails as malformed at level 2; where it is a leaf without CONTIG, it still maps the 8 GiB run: both
are the model's choice (log entry 10). -/
def State.walkTables (s : State) (ctx va : Nat) : Walked :=
  let l1 := (s.ctx ctx).l1
  let e1 := s.pteAt (l1 + 8 * (va / 2 ^ 42 % 4096))
  if !pteV e1 then .fail 1
  else if pteMalformed 1 e1 then .fail 0x11
  else
    let t2 := pteAddr e1
    let ix := va / 2 ^ 29 % 8192
    let e2 := s.pteAt (t2 + 8 * ix)
    if !pteV e2 then .fail 2
    else if pteMalformed 2 e2 then .fail 0x12
    else if pteLeaf e2 then
      if pteContig e2 then
        let run := ix / 16 * 16
        let es := (List.range 16).map fun i => s.pteAt (t2 + 8 * (run + i))
        let e := if es.all fun x => x == e2 then e2 else es.getD (Config.contig s.fresh % 16) e2
        if !pteV e then .fail 2
        else if pteMalformed 2 e || !pteLeaf e then .fail 0x12
        else .ok e (va / 2 ^ 33 * 2 ^ 33) (2 ^ 33) (pteAddr e)
      else .ok e2 (va / 2 ^ 29 * 2 ^ 29) (2 ^ 29) (pteAddr e2)
    else
      let e3 := s.pteAt (pteAddr e2 + 8 * (va / 2 ^ 16 % 8192))
      if !pteV e3 then .fail 3
      else if pteMalformed 3 e3 then .fail 0x13
      else .ok e3 (va / 2 ^ 16 * 2 ^ 16) (2 ^ 16) (pteAddr e3)

-- Translation caches (R202).

def tlbFind (l : List Tlb) (ctx va : Nat) : Option Tlb :=
  l.find? fun t => t.ctx == ctx && decide (t.va ≤ va) && decide (va < t.va + t.size)

/-- A full cache drops its oldest entry. -/
def tlbAdd (cap : Nat) (l : List Tlb) (t : Tlb) : List Tlb := (l ++ [t]).drop (l.length + 1 - cap)

def HeldRange.covers (h : HeldRange) (ctx va : Nat) : Bool :=
  (h.ctx == 0xFFFF || h.ctx == ctx) && decide (h.va ≤ va) && decide (va < h.va + h.len)

/-- What a translation answers now. -/
inductive Xl where
  | done (t : Tlb)
  | fail (aux : Nat)
  | wait
  deriving DecidableEq, Repr

def pageOf (va : Nat) : Nat := va / 2 ^ 16

/-- One translation on a die, through a core's cache where the requester has one (R202). A miss starts a walk and waits; a
failure stays for its requester to take. -/
def State.xlate (s : State) (aid die : Nat) (core : Option Nat) (ctx va : Nat) : State × Xl :=
  let d := s.die die
  if d.held.any fun h => h.covers ctx va then (s, .wait)
  else
    let hitCore := match core with
      | some c => tlbFind (s.core c).tlb ctx va
      | none => none
    match hitCore with
    | some t => (s, .done t)
    | none =>
      match tlbFind d.tlb ctx va with
      | some t =>
        let s := match core with
          | some c => s.modCore c fun x => { x with tlb := tlbAdd 64 x.tlb t }
          | none => s
        (s, .done t)
      | none =>
        match d.fails.find? fun f => f.aid == aid && f.ctx == ctx && f.page == pageOf va with
        | some f => (s, .fail f.aux)
        | none =>
          if d.walks.any fun w => w.ctx == ctx && w.page == pageOf va then
            (s.modDie die fun x => { x with walks := x.walks.map fun w =>
              if w.ctx = ctx ∧ w.page = pageOf va ∧ !w.who.contains aid then { w with who := w.who ++ [aid] } else w },
              .wait)
          else if 256 ≤ d.walks.length then (s, .wait)
          else (s.modDie die fun x => { x with walks := x.walks ++ [⟨ctx, pageOf va, [aid]⟩] }, .wait)

/-- Every address of a list, in order, each with its answer. -/
def State.xlateAll (s : State) (aid die : Nat) (core : Option Nat) (ctx : Nat) : List Nat → State × List Xl
  | [] => (s, [])
  | va :: t =>
    let (s, x) := s.xlate aid die core ctx va
    let (s, r) := s.xlateAll aid die core ctx t
    (s, x :: r)

def Tlb.phys (t : Tlb) (va : Nat) : Nat := t.pa + (va - t.va)

-- Checks (R201, R203).

/-- Kinds of access for R201's table. -/
inductive AccType where
  | ld | st | sts | atom | redm | redc | clean | inval | fetch
  deriving DecidableEq, Repr

def AccType.isStore : AccType → Bool
  | .st => true
  | .sts => true
  | .atom => true
  | .redm => true
  | .inval => true
  | _ => false

/-- A fault class of R203 with its order: 0 XLATE, 1 FAR.ACCESS, 2 DIE.LOST, 3 ACCESS, 4 COMM.STORE. -/
structure AFault where
  cls : Nat
  aux : Nat
  deriving DecidableEq, Repr

def AFault.code (f : AFault) : Nat :=
  if f.cls = 0 then fXlate else if f.cls = 1 then fFarAccess else if f.cls = 2 then fDieLost
  else if f.cls = 3 then fAccess else fCommStore

/-- R201's table: none where the access is performed, else whether it is COMM.STORE or ACCESS 6. For a page of KIND COMM or STAMPED
in a staging or CXL region the row of its KIND comes first; a stamped store to a page of another KIND faults ACCESS 6 there too, as the
entry of STS says (log entry 79). -/
def regionForbids (t : AccType) (kind : Nat) (r : Region) : Option AFault :=
  let atomic := t == .atom || t == .redm
  if kind = 2 then (if t == .st || t == .sts || atomic then some ⟨4, 0⟩ else none)
  else if t == .redc then some ⟨3, 6⟩
  else if kind = 3 then (if t == .st || atomic then some ⟨3, 6⟩ else none)
  else if t == .sts || (atomic && (r == .staging || r == .cxl)) then some ⟨3, 6⟩
  else none

/-- The checks after translation, in the order of R201 and R322. -/
def State.checkPage (s : State) (die : Nat) (t : AccType) (p : Word64) (pa : Nat) : Option AFault :=
  let r := s.phys.region pa
  let home := s.phys.homeDie pa
  let lost := (r == .hbm || r == .staging) && s.seesLost die home
  if pteFar p then some ⟨1, 0⟩
  else if lost then some ⟨2, home⟩
  else if !pteU p then some ⟨3, 5⟩
  else if t.isStore && !pteW p then some ⟨3, 4⟩
  else if t == .fetch && !pteX p then some ⟨3, 8⟩
  else if !t.isStore && t != .fetch && !pteR p then some ⟨3, 0⟩
  else if pteKeyid p != 0 && (aget (s.phys.keyIx pa (pteKeyid p)) s.phys.keytab).isNone then some ⟨3, 14⟩
  else
    match regionForbids t (pteKind p) r with
    | some f =>
      -- COMM.STORE is a later class than the physical range
      if f.cls = 4 ∧ (r = .device ∨ r = .none) then some ⟨3, 7⟩ else some f
    | none => if r = .device ∨ r = .none then some ⟨3, 7⟩ else none

/-- One lane's translated access. -/
structure Spot where
  slot : Nat
  thr  : Nat
  va   : Nat
  pa   : Nat
  pte  : Word64
  deriving DecidableEq, Repr

/-- The first class raised, with the lanes that raise it: (slot, address, fault) of every faulting lane, lowest slot first
(R203). -/
def firstClass (l : List (Nat × Nat × AFault)) : Option TrapInfo :=
  let cls := minOf (l.map fun x => x.2.2.cls)
  match l.filter fun x => x.2.2.cls == cls with
  | [] => none
  | x :: t => some ⟨x.2.2.code, x.2.1, x.2.2.aux, some (maskOf ((x :: t).map Prod.fst))⟩

/-- Translate and check the lanes (slot, thread, address) of one access of `n` bytes by a party of block `b` (R203, R319:
all lanes translate together). `e` is the state to wait in. -/
def State.spots (s : State) (aid : Nat) (b : Block) (t : AccType) (n : Nat) (lanes : List (Nat × Nat × Nat)) :
    Except Stop (State × List Spot) :=
  match lanes.filter fun l => l.2.2 % n != 0 with
  | l :: r => fltLanes fAlign 0 l.2.2 (maskOf ((l :: r).map Prod.fst))
  | [] =>
    let vas := lanes.map fun l => l.2.2
    let (s, xs) := s.xlateAll aid b.die (some b.gcore) b.ctx vas
    if xs.any fun x => x == .wait then waitOn .other s
    else
      let both := lanes.zip xs
      let faults := both.filterMap fun p =>
        match p.2 with
        | .fail aux => some (p.1.1, p.1.2.2, (⟨0, aux⟩ : AFault))
        | .done tl =>
          match s.checkPage b.die t tl.pte (tl.phys p.1.2.2) with
          | some f => some (p.1.1, p.1.2.2, f)
          | none => none
        | .wait => none
      match firstClass faults with
      | some info =>
        .error (.trap info)
      | none =>
        .ok (s, both.filterMap fun p =>
          match p.2 with
          | .done tl => some ⟨p.1.1, p.1.2.1, p.1.2.2, tl.phys p.1.2.2, tl.pte⟩
          | _ => none)

end Sys2Proof.Machine
end

