-- ==== Sys2Proof/Machine/OrderMachine.lean ====
section
/-!
DEFINITION. The ordering machine (R31 to R49): when an access is performed at a scope, and the steps DRAIN, COMMIT, TRANSIT,
SERVE, LOAD with RECALL and LEASE, BASEOP, the SWM copies (R204), windrow lines (R214 to R216), the gleaning log (R217 to
R219), refusal (R212, R213) and the die's interval of time (R221).
-/
namespace Sys2Proof.Machine

-- Time (R221, R222).

/-- earliest: the oscillator count less 10 ns per ms since the last accepted update. The count is taken as the time that has passed, and
the drift is rounded outward to whole ns: neither R221 nor R341 says so (log entry 69). -/
def TimeUnit.earliest (u : TimeUnit) (now : Nat) : Nat :=
  match u.st with
  | .unset => 0
  | _ => u.e0 + ((now - u.t0) - (now - u.t0) / 100000)

/-- latest: the oscillator count plus 10 ns per ms, rounded up, and never below what it was before the update. -/
def TimeUnit.latest (u : TimeUnit) (now : Nat) : Nat :=
  match u.st with
  | .unset => 2 ^ 64 - 1
  | _ => max u.lf (u.l0 + ((now - u.t0) + ((now - u.t0) + 99999) / 100000))

def State.earliest (s : State) (d : Nat) : Nat := (s.die d).time.earliest s.now
def State.latest (s : State) (d : Nat) : Nat := (s.die d).time.latest s.now

-- Scopes.

/-- BLK, CORE, CLS and DIE. -/
def upToDie : Scope → Bool
  | .pkg => false
  | .sys => false
  | _ => true

/-- BLK, CORE and CLS. -/
def belowDie : Scope → Bool
  | .die => false
  | sc => upToDie sc

-- Accesses.

def Access.granules (a : Access) : Option (List Nat) :=
  match a.kind with
  | .clean g => some g
  | .inval g => some g
  | _ => none

def Access.isFence (a : Access) : Bool :=
  match a.kind with
  | .fence _ => true
  | _ => false

def Access.isMem (a : Access) : Bool :=
  match a.kind with
  | .fence _ => false
  | .arrive _ _ => false
  | _ => true

def Access.isRedm (a : Access) : Bool :=
  match a.kind with
  | .rmw (.redm _ _) _ => true
  | _ => false

/-- Whether a base-die operation queue performs the access: RED.M, or an output that MXV adds (R44, R282). -/
def Access.isBank (a : Access) : Bool :=
  match a.kind with
  | .addf _ _ => true
  | _ => a.isRedm

/-- Two accesses share a line (R35, R36); CLEAN and INVAL count with every line of their granules. -/
def sameLine (a b : Access) : Bool :=
  match a.granules, b.granules with
  | none, none => a.isMem && b.isMem && a.loc == b.loc && a.line == b.line
  | some g, none => b.isMem && b.loc.isNone && g.contains (b.line / 2)
  | none, some g => a.isMem && a.loc.isNone && g.contains (a.line / 2)
  | some g, some h => g.any h.contains

def State.homeOf (s : State) (a : Access) : Nat :=
  match a.loc with
  | some _ => a.die
  | none => s.phys.homeDie (128 * a.line)

def State.isCxl (s : State) (a : Access) : Bool := a.loc.isNone && s.phys.region (128 * a.line) == .cxl

/-- The accesses of the same agent before this one in program order, those of its own instruction apart (R32, R34). -/
def State.earlier (s : State) (id : Nat) (a : Access) : List Access :=
  match s.agent a.aid with
  | none => []
  | some r => ((r.issue.takeWhile fun x => x != id).filterMap s.access).filter fun e => e.inst != a.inst

/-- Served at its home: what is left is its replica (R324). -/
def Access.isServed (a : Access) : Bool :=
  match a.st with
  | .replica _ _ => true
  | _ => false

/-- Whether a store or an atomic is performed at a scope (R37). -/
def State.storePerf (s : State) (sc : Scope) (a : Access) : Bool :=
  match a.st with
  | .issued => false
  | .buffer => false
  | .commitWait => false
  | .writingBack _ => false
  | .baseq => false
  | .replica _ _ => upToDie sc
  | _ =>
    if s.isCxl a then sc != .sys
    else if s.homeOf a = a.die then false
    else upToDie sc

/-- Whether an access that is still in the machine is performed at a scope, for a release or a fence of its agent; `fence`
tells which, since only a fence waits for RED.M, and only at a scope that covers the stack (R37, R38, R44). -/
def State.perfAt (s : State) (fence : Bool) (sc : Scope) (a : Access) : Bool :=
  match a.kind with
  | .load _ _ _ => false
  | .ldas _ _ _ _ _ _ _ => false
  | .fence _ => true
  | .arrive _ _ => true
  | .clean _ => false
  | .inval _ => false
  | .rmw (.redm _ _) _ =>
    if !fence then true
    else if a.isServed then upToDie sc
    else if s.homeOf a = a.die then belowDie sc
    else upToDie sc
  | _ => s.storePerf sc a

/-- Every earlier access of the agent, and every write of an entry it has observed, is performed at a scope (R38, R40). -/
def State.settledAt (s : State) (fence : Bool) (sc : Scope) (id : Nat) (a : Access) : Bool :=
  (s.earlier id a).all (s.perfAt fence sc) &&
    (match s.agent a.aid with
     | none => true
     | some r => s.om.accs.all fun p => !r.observed.contains p.2.aid || s.perfAt fence sc p.2)

/-- Every access an agent has issued is performed at a scope. -/
def State.agentSettled (s : State) (fence : Bool) (sc : Scope) (aid : Nat) : Bool :=
  match s.agent aid with
  | none => true
  | some r =>
    ((r.issue.filterMap s.access).all fun a => !a.isFence && s.perfAt fence sc a) &&
      s.om.accs.all fun p => !r.observed.contains p.2.aid || s.perfAt fence sc p.2

-- Keeping the records.

/-- An access enters its agent's issue list (ISSUE, R35). -/
def State.addAccess (s : State) (a : Access) : Nat × State :=
  let (id, s) := s.newId
  let s := s.setAccess id a
  (id, s.modAgent a.aid fun r => { r with issue := r.issue ++ [id] })

def State.addAccesses (s : State) : List Access → State
  | [] => s
  | a :: t => ((s.addAccess a).2).addAccesses t

/-- An access is performed: it is in no buffer and leaves its issue list. -/
def State.performed (s : State) (id : Nat) : State :=
  match s.access id with
  | none => s
  | some a => (s.delAccess id).modAgent a.aid fun r => { r with issue := r.issue.filter fun x => x != id }

def State.dropLeases (s : State) (die : Nat) : State :=
  { s with om := { s.om with leases := s.om.leases.filter fun l => l.die != die } }

def State.dropLease (s : State) (die line : Nat) : State :=
  { s with om := { s.om with leases := s.om.leases.filter fun l => !(l.die == die && l.line == line) } }

/-- A home on die `d` has served an access of a context (R321). -/
def State.touch (s : State) (ctx d : Nat) : State :=
  if (s.ctx ctx).touched / 2 ^ d % 2 = 1 then s else s.modCtx ctx fun c => { c with touched := c.touched ||| 2 ^ d }

/-- Results reach the registers of the block an agent belongs to. -/
def State.deliver (s : State) (aid : Nat) (cells : List (Cell × Nat)) : State :=
  match s.agent aid with
  | none => s
  | some r => match agentBlock r.kind with
    | some blk => s.modBlock blk fun b => b.putCells cells
    | none => s

-- Values of atomics (R206, R207).

def atomNew (op : AtomOp) (old b : Word32) : Word32 :=
  match op with
  | .add => old + b
  | .min uns => if (if uns then decide (b.toNat < old.toNat) else decide (b.toInt < old.toInt)) then b else old
  | .max uns => if (if uns then decide (old.toNat < b.toNat) else decide (old.toInt < b.toInt)) then b else old
  | .and => old &&& b
  | .or => old ||| b
  | .xor => old ^^^ b
  | .fadd => w32 (f32.add .rne old.toNat b.toNat)

def redNew (op : RedOp) (fmt : RedFmt) (old b : Word32) : Word32 :=
  match op, fmt with
  | .add, .f32 => w32 (f32.add .rne old.toNat b.toNat)
  | .min, .f32 => w32 (f32.minC old.toNat b.toNat)
  | .max, .f32 => w32 (f32.maxC old.toNat b.toNat)
  | .add, _ => old + b
  | .min, .s32 => atomNew (.min false) old b
  | .min, .u32 => atomNew (.min true) old b
  | .max, .s32 => atomNew (.max false) old b
  | .max, .u32 => atomNew (.max true) old b

def rmwNew (op : RmwOp) (l : AtomLane) (old : Word32) : Word32 :=
  let b := l.b.setWidth 32
  match op with
  | .atom o => atomNew o old b
  | .cas => if old = l.d then b else old
  | .exch => b
  | .redm o f => redNew o f old b
  | .redc => old

/-- The lanes of a request one after another, in ascending thread (R206): the state and the return values. -/
def State.rmwLanes (s : State) (keyid : Nat) (op : RmwOp) : List AtomLane → State × List (Cell × Nat)
  | [] => (s, [])
  | l :: t =>
    let old := BitVec.ofNat 32 (leNat (s.readHome keyid l.a 4))
    let new := rmwNew op l old
    let s := s.writeLine (lineOf l.a) keyid (cellsFrom l.a (leBytes 4 new.toNat))
    let (s, r) := s.rmwLanes keyid op t
    (s, (match l.ret with
      | some c => [(c, old.toNat)]
      | none => []) ++ r)

-- Commutative ranges (R214 to R216).

/-- The range a line lies in, as a die has been told of it. -/
def State.rangeAt (s : State) (die line : Nat) : Option CommRange :=
  (s.die die).comm.find? fun r => decide (r.base ≤ 128 * line) && decide (128 * line < r.base + r.len)

/-- The range a line lies in at its home, or as the first die that has been told of it knows it. -/
def State.range (s : State) (line : Nat) : Option CommRange :=
  s.rangeAt (s.phys.homeDie (128 * line)) line <|> (List.range 8).findSome? fun d => s.rangeAt d line

def commSize : CommFmt → Nat
  | .fp32 => 4
  | .int32 => 4
  | .int64 => 8
  | .bf16 => 2

/-- The identity with which a windrow line starts. -/
def commIdentity (op : RedOp) (f : CommFmt) : Nat :=
  match op, f with
  | .add, .fp32 => 0x80000000
  | .max, .fp32 => 0xFF800000
  | .min, .fp32 => 0x7F800000
  | .add, .int32 => 0
  | .max, .int32 => 0x80000000
  | .min, .int32 => 0x7FFFFFFF
  | .add, .int64 => 0
  | .max, .int64 => 0x8000000000000000
  | .min, .int64 => 0x7FFFFFFFFFFFFFFF
  | _, .bf16 => 0x8000

/-- One step of the range's operation on an element. -/
def commOp (op : RedOp) (f : CommFmt) (a b : Nat) : Nat :=
  match f with
  | .fp32 => (redNew op .f32 (w32 a) (w32 b)).toNat
  | .int32 => (redNew op .s32 (w32 a) (w32 b)).toNat
  | .int64 =>
    let x : Word64 := BitVec.ofNat 64 a
    let y : Word64 := BitVec.ofNat 64 b
    (match op with
     | .add => x + y
     | .min => if y.toInt < x.toInt then y else x
     | .max => if x.toInt < y.toInt then y else x).toNat
  | .bf16 => bf16.add .rne a b

def chunks (n : Nat) : Nat → List Byte → List (List Byte)
  | 0, _ => []
  | k + 1, l => l.take n :: chunks n k (l.drop n)

/-- Two lines combined element by element. -/
def commCombine (r : CommRange) (a b : List Byte) : List Byte :=
  let n := (commSize r.fmt)
  ((chunks n (128 / n) a).zip (chunks n (128 / n) b)).flatMap fun p =>
    leBytes n (commOp r.op r.fmt (leNat p.1) (leNat p.2))

def identityLine (r : CommRange) : List Byte :=
  ((List.range (128 / (commSize r.fmt))).map fun _ => leBytes (commSize r.fmt) (commIdentity r.op r.fmt)).flatten

/-- Combine a partial into the home value of a line (R215, R216), written through to a replica (R324); the home has served the
context (R321). A lost home takes none. -/
def State.combineHome (s : State) (r : CommRange) (p : Partial) : State :=
  if (s.die (s.phys.homeDie (128 * p.line))).st == .lost then s else
  let bytes := cellsFrom (128 * p.line) (commCombine r (s.readHome p.keyid (128 * p.line) 128) p.data)
  let s := (s.writeLine p.line p.keyid bytes).touch p.ctx (s.phys.homeDie (128 * p.line))
  if p.repl then
    let (o, s) := s.newId
    (s.addAccess {
      aid := 0, inst := 1, die := p.die, ctx := p.ctx, loc := none, line := p.line, va := 0, page := 2, keyid := p.keyid
      slice := 0, kind := .store bytes, acq := none, rel := none, st := .replica o bytes
      refusals := 0, firstRef := 0, retryAt := 0, repl := true }).2
  else s

def Windrow.partial (w : Windrow) : Partial := ⟨w.die, w.line, w.ctx, w.keyid, w.repl, w.data⟩

/-- RECALL (R216): partials on their way first, then every windrow line, dies and slices ascending. -/
def State.recall (s : State) (line : Nat) : State :=
  match s.range line with
  | none => s
  | some r =>
    let ps := s.om.partials.filter fun p => p.line == line
    let s := ps.foldl (fun s p => s.combineHome r p) s
    let ws := (List.range 8).flatMap fun d => (List.range 48).flatMap fun sl =>
      s.om.windrows.filter fun w => w.die == d && w.slice == sl && w.line == line
    let s := ws.foldl (fun s w => s.combineHome r w.partial) s
    { s with om := { s.om with
        partials := s.om.partials.filter fun p => p.line != line
        windrows := s.om.windrows.filter fun w => w.line != line } }

/-- The windrow slice of a request (R215). -/
def windrowSlice (cluster line : Nat) : Nat := 4 * cluster + sliceOf (128 * line) % 4

/-- One RED.C reaches its windrow line, lanes in ascending thread (R215). -/
def State.redc (s : State) (a : Access) (lanes : List AtomLane) : State :=
  match s.rangeAt a.die a.line with
  | none => s
  | some r =>
    let sl := windrowSlice a.slice a.line
    let n := (commSize r.fmt)
    let hit (w : Windrow) : Bool := w.die == a.die && w.slice == sl && w.line == a.line
    let old := (s.om.windrows.find? hit).getD ⟨a.die, sl, a.line, a.ctx, a.keyid, a.repl, identityLine r⟩
    let new := lanes.foldl (fun data (l : AtomLane) =>
      let o := l.a % 128
      let x := commOp r.op r.fmt (leNat ((data.drop o).take n)) (l.b.toNat % 256 ^ n)
      data.take o ++ leBytes n x ++ data.drop (o + n)) old.data
    { s with om := { s.om with windrows := (s.om.windrows.filter fun w => !hit w) ++ [{ old with data := new }] } }

-- The gleaning log (R217 to R219).

def State.word64At (s : State) (a : Nat) : Word64 := BitVec.ofNat 64 (leNat (s.readHome 0 a 8))
def State.putWord64 (s : State) (a : Nat) (v : Word64) : State := s.writeHome 0 (cellsFrom a (leBytes 8 v.toNat))

/-- BASE and LOG2N of a control block. -/
def State.gleanBase (s : State) (ctl : Nat) : Nat := (s.word64At (ctl + 32)).toNat / 2 ^ 12 % 2 ^ 42 * 2 ^ 12
def State.gleanLog (s : State) (ctl : Nat) : Nat := (s.word64At (ctl + 32)).toNat / 2 ^ 58

/-- Whether the ring has room for an entry. -/
def State.gleanRoom (s : State) (ctl : Nat) : Bool :=
  (s.word64At ctl - s.word64At (ctl + 8)).toNat != 2 ^ s.gleanLog ctl

/-- Append one entry where the ring has room; where it has none a WRITE entry is dropped and counted. -/
def State.gleanAppend (s : State) (die kind ctx gran dies : Nat) : State :=
  let g := (s.die die).glean
  let head := s.word64At g.ctl
  if !s.gleanRoom g.ctl then
    let s := s.putWord64 (g.ctl + 16) (s.word64At (g.ctl + 16) + 1)
    s.putWord64 (g.ctl + 24) 1
  else
    let at_ := s.gleanBase g.ctl + 16 * (head.toNat % 2 ^ s.gleanLog g.ctl)
    let s := s.putWord64 at_ (BitVec.ofNat 64 (kind + gran % 2 ^ 46 * 256))
    let s := s.putWord64 (at_ + 8) (BitVec.ofNat 64 (ctx % 65536 + dies % 256 * 65536))
    let s := s.putWord64 g.ctl (head + 1)
    s.modDie die fun d => { d with glean := { d.glean with
      recent := (d.glean.recent ++ [(ctx, if kind = 0 then gran else gran + 2 ^ 46)]).drop
        (d.glean.recent.length - 63) } }

/-- A write took rule 1 of R204 (R217). -/
def State.gleanWrite (s : State) (die ctx va : Nat) : State :=
  let g := (s.die die).glean
  if !g.made || g.recent.contains (ctx, va / 256) then s
  else s.gleanAppend die 0 ctx (va / 256) (2 ^ die)

-- SWM copies (R204).

def SwmCopy.isFor (c : SwmCopy) (die line : Nat) : Bool := c.die == die && c.line == line

def State.swmCopy (s : State) (die line : Nat) : Option SwmCopy := s.om.swm.find? fun c => c.isFor die line

def State.setSwm (s : State) (c : SwmCopy) : State :=
  { s with om := { s.om with swm := (s.om.swm.filter fun x => !x.isFor c.die c.line) ++ [c] } }

def State.dropSwm (s : State) (die line : Nat) : State :=
  { s with om := { s.om with swm := s.om.swm.filter fun x => !x.isFor die line } }

/-- Bytes written into the die's copy, valid and dirty (rule 1), with their log entry. -/
def State.swmWrite (s : State) (die ctx line va keyid : Nat) (repl : Bool) (cells : List Host.Cell) : State :=
  let lineVa := va / 128 * 128
  let c := (s.swmCopy die line).getD ⟨die, line, ctx, lineVa, keyid, repl, []⟩
  let bytes := cells.foldl (fun (m : Assoc (Byte × Bool)) x => aset (x.1 % 128) (x.2, true) m) c.bytes
  (s.setSwm { c with bytes := bytes }).gleanWrite die ctx va

/-- The dirty bytes of a copy as one store into the transit set; they become clean (rule 3). Such a store has no agent and no
instruction. -/
def State.writeBack (s : State) (c : SwmCopy) : State :=
  let dirty := c.bytes.filterMap fun p => if p.2.2 then some (128 * c.line + p.1, p.2.1) else none
  if dirty.isEmpty then s
  else
    let s := s.setSwm { c with bytes := c.bytes.map fun p => (p.1, p.2.1, false) }
    (s.addAccess {
      aid := 0, inst := 0, die := c.die, ctx := c.ctx, loc := none, line := c.line, va := c.va, page := 1
      keyid := c.keyid, slice := 0, kind := .store dirty, acq := none, rel := none
      st := .transit (s.phys.homeDie (128 * c.line)), refusals := 0, firstRef := 0, retryAt := 0, repl := c.repl }).2

/-- A write-back of a copy of the die. -/
def Access.isWb (a : Access) (die : Nat) : Bool := a.aid == 0 && a.inst == 0 && a.die == die && a.loc.isNone

/-- Whether a write-back of the line from the die is on its way. -/
def State.wbPending (s : State) (die line : Nat) : Bool := s.om.accs.any fun p => p.2.isWb die && p.2.line == line

/-- Whether a write-back of some granule that was sent before identifier `upto` is on its way to be served (R204). -/
def State.wbOf (s : State) (die upto : Nat) (g : List Nat) : Bool :=
  s.om.accs.any fun p => p.2.isWb die && decide (p.1 < upto) && g.contains (p.2.line / 2) && !p.2.isServed

-- Refusal (R212, R213).

def State.homeLine (s : State) (line : Nat) : HomeLine := agetD line ⟨[], none⟩ s.om.homeq
def State.setHomeLine (s : State) (line : Nat) (h : HomeLine) : State :=
  { s with om := { s.om with homeq :=
      if h.q.isEmpty && h.resv.isNone then adel line s.om.homeq else aset line h s.om.homeq } }

/-- b_k in ns. -/
def backoffMax (k : Nat) : Nat := min (64 * 2 ^ (k - 1)) 4000

/-- One refusal: the count, the wait, and the reservation from the 16th on. -/
def State.refuse (s : State) (id : Nat) (a : Access) : State :=
  let k := a.refusals + 1
  let (ix, s) := s.freeIx
  let first := if a.refusals = 0 then s.now else a.firstRef
  let half := backoffMax k / 2
  let wait := half + Config.backoff ix % (backoffMax k - half + 1)
  let s := s.setAccess id { a with refusals := k, firstRef := first, retryAt := s.now + wait }
  if k < 16 then s
  else
    let h := s.homeLine a.line
    match h.resv with
    | some (_, t) => if first < t then s.setHomeLine a.line { h with resv := some (id, first) } else s
    | none => s.setHomeLine a.line { h with resv := some (id, first) }

/-- The holder of the reservation is served next: before every request but those of its own agent. -/
def insertHolder (s : State) (id aid : Nat) (q : List Nat) : List Nat :=
  let mine (x : Nat) : Bool := match s.access x with
    | some a => a.aid == aid
    | none => false
  let k := (q.reverse.dropWhile fun x => !mine x).length
  q.take k ++ [id] ++ q.drop k

/-- Whether the home recalls the line for a commutative load or writes it back for a BASEOP (R212): while such a load or operation is
due, a free value says. -/
def State.lineBusy (s : State) (line : Nat) : Bool × State :=
  let load := s.om.accs.any fun p => p.2.st == .issued && p.2.page == 2 && p.2.loc.isNone && p.2.line == line
  let bank := s.om.baseq.any fun q => q.2.any fun id => (s.access id).any fun a => a.line == line
  if load || bank then
    let (ix, s) := s.freeIx
    (Config.homeBusy ix, s)
  else (false, s)

/-- A request reaches its home: it joins the home line queue, or is refused. -/
def State.enterHome (s : State) (id : Nat) (a : Access) : State :=
  let (busy, s) := s.lineBusy a.line
  let h := s.homeLine a.line
  let holder := match h.resv with
    | some (x, _) => x == id
    | none => false
  if busy || 32 ≤ h.q.length || (h.resv.isSome && !holder) then s.refuse id a
  else
    let q := if holder then insertHolder s id a.aid h.q else h.q ++ [id]
    (s.setHomeLine a.line ⟨q, if holder then none else h.resv⟩).setAccess id { a with st := .queued }

/-- A request to a home on a lost die, whose ports refuse it, goes nowhere (R320); what an atomic would have returned is a free value. -/
def State.refusedAcc (s : State) (id : Nat) (a : Access) : State :=
  let (ix, s) := s.freeIx
  let rets := match a.kind with
    | .rmw _ lanes => lanes.filterMap fun l => l.ret.map fun c => (c, (Config.freeWord (Nat.pair ix l.thr)).toNat % 2 ^ 32)
    | _ => []
  (s.deliver a.aid rets).performed id

/-- Whether an access's home lies on a lost die. -/
def State.homeLost (s : State) (a : Access) : Bool :=
  let r := s.phys.region (128 * a.line)
  a.loc.isNone && (r == .hbm || r == .staging) && (s.die (s.homeOf a)).st == .lost

/-- Toward the home: the home line queue, a base-die operation queue, or a transit set (DRAIN, COMMIT). -/
def State.sendHome (s : State) (id : Nat) (a : Access) : State :=
  let home := s.homeOf a
  if s.homeLost a then s.refusedAcc id a
  else if home ≠ a.die then s.setAccess id { a with st := .transit home, refusals := 0 }
  else if a.isBank then
    let st := stackOf (128 * a.line)
    let s := { s with om := { s.om with baseq := aset st (agetD st [] s.om.baseq ++ [id]) s.om.baseq } }
    s.setAccess id { a with st := .baseq }
  else s.enterHome id a

-- DRAIN (R35).

/-- Loads, stores and atomics of one agent to one line are performed in issue order (R36): none earlier is unbound, or waits for its
COMMIT, or has not left the store buffer; RED.M does not count. -/
def State.lineTurn (s : State) (id : Nat) (a : Access) : Bool :=
  (s.earlier id a).all fun e =>
    !(sameLine e a && !e.isRedm && (e.st == .issued || e.st == .commitWait || e.st == .buffer))

/-- A store or an atomic, as R36 names them: no RED.M, RED.C, CLEAN or INVAL. -/
def Access.isPlain (a : Access) : Bool :=
  match a.kind with
  | .store _ => true
  | .sts _ _ => true
  | .rmw (.redm _ _) _ => false
  | .rmw .redc _ => false
  | .rmw _ _ => true
  | _ => false

/-- Bytes written into a core-local window, of a block or as an ended block left it; those beyond it, or of a window that is no more,
go nowhere. -/
def State.putWindow (s : State) (blk : Nat) (cells : List Host.Cell) : State :=
  match s.block blk with
  | some b => s.setBlock { b with clm := putBytes b.clm (cells.filter fun c => decide (c.1 < b.winSize)) }
  | none =>
    match aget blk s.om.gone with
    | some w => { s with om := { s.om with
        gone := aset blk { w with bytes := putBytes w.bytes (cells.filter fun c => decide (c.1 < w.size)) } s.om.gone } }
    | none => s

/-- The conditions of DRAIN, a refused request's wait apart. -/
def State.mayDrain (s : State) (id : Nat) (a : Access) : Bool :=
  let es := s.earlier id a
  a.st == .buffer &&
  es.all (fun e => !(e.st == .buffer && sameLine e a)) &&
  (!a.isPlain || s.lineTurn id a) &&
  (match a.rel with
   | some sc => s.settledAt false sc id a
   | none => true) &&
  es.all (fun e => !e.isFence) &&
  (a.isRedm || es.all fun e => e.acq.isNone) &&
  !(a.page == 1 && a.loc.isNone && a.granules.isNone && s.homeOf a != a.die && s.wbPending a.die a.line &&
    (match a.kind with
     | .store _ => false
     | _ => true))

def State.canDrain (s : State) (id : Nat) (a : Access) : Bool := decide (a.retryAt ≤ s.now) && s.mayDrain id a

def State.drainStep (s : State) (id : Nat) (a : Access) : State :=
  match a.loc with
  | some blk =>
    (match a.kind with
     | .store bytes => s.putWindow blk bytes
     | _ => s).performed id
  | none =>
    match a.kind with
    | .clean g =>
      let cs := s.om.swm.filter fun c => c.die == a.die && g.contains (c.line / 2)
      let s := cs.foldl (fun s c => s.writeBack c) s
      if s.wbOf a.die s.nextId g then s.setAccess id { a with st := .writingBack s.nextId } else s.performed id
    | .inval g =>
      let s := { s with om := { s.om with
        swm := s.om.swm.filter fun c => !(c.die == a.die && g.contains (c.line / 2))
        leases := s.om.leases.filter fun l => !(l.die == a.die && g.contains (l.line / 2)) } }
      s.performed id
    | .rmw .redc lanes => (s.redc a lanes).performed id
    | .store bytes =>
      if a.page = 1 ∧ s.homeOf a ≠ a.die then
        (s.swmWrite a.die a.ctx a.line a.va a.keyid a.repl bytes).performed id
      else s.sendHome id a
    | _ =>
      if a.page = 1 ∧ s.homeOf a ≠ a.die then
        match s.swmCopy a.die a.line with
        | some c =>
          let s := s.writeBack c
          let s := s.dropSwm a.die a.line
          if s.wbPending a.die a.line then s else s.sendHome id a
        | none => s.sendHome id a
      else s.sendHome id a

def State.drain (s : State) (id : Nat) : State :=
  match s.access id with
  | some a => if s.canDrain id a then s.drainStep id a else s
  | none => s

-- COMMIT and TRANSIT.

/-- The conditions of COMMIT, a refused request's wait apart. -/
def State.mayCommit (s : State) (id : Nat) (a : Access) : Bool :=
  a.st == .commitWait && s.lineTurn id a && (match a.kind with
    | .sts _ stamp => decide (stamp.toNat < s.earliest a.die)
    | _ => false)

def State.canCommit (s : State) (id : Nat) (a : Access) : Bool := decide (a.retryAt ≤ s.now) && s.mayCommit id a

def State.commitAcc (s : State) (id : Nat) : State :=
  match s.access id with
  | some a => if s.canCommit id a then s.sendHome id a else s
  | none => s

/-- Two entries have the same source: the same agent, or write-backs of one die's copy. The accesses of an engine's agent, which bear
its name as their instruction's, are mutually unordered (R43, R305). -/
def sameSource (a b : Access) : Bool :=
  (a.aid == b.aid && a.inst != a.aid) || (a.inst == 0 && b.inst == 0 && a.die == b.die)

/-- The network engine of a die places packets in the order in which they arrived (R295): the bytes of every earlier one are served. -/
def State.placeTurn (s : State) (a : Access) : Bool :=
  ((s.die a.die).net.placing.takeWhile fun p => p.aid != a.aid).all (fun p =>
    s.om.accs.all fun x => x.2.aid != p.aid || x.2.isServed) ||
  (s.die a.die).net.placing.all fun p => p.aid != a.aid

/-- The conditions of TRANSIT, a refused request's wait apart. -/
def State.mayTransit (s : State) (id : Nat) (a : Access) : Bool :=
  (match a.st with
   | .transit _ => true
   | _ => false) && s.placeTurn a &&
  s.om.accs.all fun p =>
    !(decide (p.1 < id) && p.2.st == a.st && p.2.die == a.die && sameLine p.2 a && sameSource p.2 a)

def State.canTransit (s : State) (id : Nat) (a : Access) : Bool := decide (a.retryAt ≤ s.now) && s.mayTransit id a

def State.transitAcc (s : State) (id : Nat) : State :=
  match s.access id with
  | none => s
  | some a =>
    if !s.canTransit id a then s
    else if s.homeLost a then s.refusedAcc id a
    else if a.isBank then
      let st := stackOf (128 * a.line)
      let s := { s with om := { s.om with baseq := aset st (agetD st [] s.om.baseq ++ [id]) s.om.baseq } }
      s.setAccess id { a with st := .baseq }
    else s.enterHome id a

/-- A refused request is sent again once its wait is over (R213). -/
def State.retryAcc (s : State) (id : Nat) : State :=
  match s.access id with
  | none => s
  | some a =>
    if a.refusals = 0 then s
    else match a.st with
      | .buffer => s.drain id
      | .transit _ => s.transitAcc id
      | .commitWait => s.commitAcc id
      | _ => s

-- SERVE.

/-- An acquire at PKG or SYS, once performed, drops every lease copy of its die (R39). -/
def State.afterAcquire (s : State) (a : Access) : State :=
  match a.acq with
  | some sc => if upToDie sc then s else s.dropLeases a.die
  | none => s

/-- The home has written `cells`: the access is performed, or goes on to its replica with those bytes (R324). -/
def State.homeDone (s : State) (id : Nat) (a : Access) (cells : List Host.Cell) : State :=
  let s := s.touch a.ctx (s.homeOf a)
  if a.repl then
    let (o, s) := s.newId
    s.setAccess id { a with st := .replica o cells }
  else s.performed id

/-- SERVE: the lease copy of the writer's own die is dropped (R35). -/
def State.served (s : State) (id : Nat) (a : Access) (cells : List Host.Cell) : State :=
  (s.dropLease a.die a.line).homeDone id a cells

/-- The machine's own stores show in the line as it was before an inbound write (R36): only that write may be missed. -/
def State.patchInb (s : State) (line keyid : Nat) (cells : List Host.Cell) : State :=
  let key := s.phys.key line keyid
  { s with phys := { s.phys with inb := s.phys.inb.map fun o =>
      if o.line = line then { o with
        key := key, data := cells.foldl (fun d c => d.set (c.1 % 128) c.2) (underKey o.key key line o.data) }
      else o } }

/-- The words of an atomic as its home holds them now. -/
def State.atomWords (s : State) (keyid : Nat) (lanes : List AtomLane) : List Host.Cell :=
  (dedup (lanes.map AtomLane.a)).flatMap fun x => cellsFrom x (s.readHome keyid x 4)

/-- What the home does for a write: the state with its bytes, what it returns, and the bytes it wrote. A stamped store sets the line
stamp (R226). -/
def State.homeWrite (s : State) (a : Access) : State × List (Cell × Nat) × List Host.Cell :=
  match a.kind with
  | .store bytes =>
    let s := s.writeLine a.line a.keyid bytes
    (s.patchInb a.line a.keyid bytes, [], bytes)
  | .sts bytes stamp =>
    let s := (s.writeLine a.line a.keyid bytes).patchInb a.line a.keyid bytes
    ({ s with phys := { s.phys with stamps := aset a.line stamp s.phys.stamps } }, [], bytes)
  | .rmw op lanes =>
    let (s, rets) := s.rmwLanes a.keyid op lanes
    let cells := s.atomWords a.keyid lanes
    (s.patchInb a.line a.keyid cells, rets, cells)
  | .addf addrs v =>
    let old := leNat (addrs.map fun x => (s.readHome x.2 x.1 1).getD 0 0)
    let new := addrs.zip (leBytes 4 (f32.add .rne old v.toNat))
    let s := new.foldl (fun (s : State) p => (s.writeHome p.1.2 [(p.1.1, p.2)]).patchInb (lineOf p.1.1) p.1.2 [(p.1.1, p.2)]) s
    (s, [], new.map fun p => (p.1.1, p.2))
  | _ => (s, [], [])

/-- An access that writes at its home. -/
def Access.isWrite (a : Access) : Bool :=
  match a.kind with
  | .store _ => true
  | .sts _ _ => true
  | .rmw _ _ => true
  | .addf _ _ => true
  | _ => false

def State.serveAcc (s : State) (id : Nat) (a : Access) : State :=
  if a.isWrite then
    let (s, rets, cells) := s.homeWrite a
    ((s.deliver a.aid rets).served id a cells).afterAcquire a
  else s.performed id

/-- The holder of a line's reservation is served next, as soon as nothing of R212 holds, whatever is left of its wait (R213). A
reservation whose request is no more is empty. -/
def State.admitHolder (s : State) (line : Nat) : State :=
  match (s.homeLine line).resv with
  | none => s
  | some (x, _) =>
    match s.access x with
    | none => s.setHomeLine line { s.homeLine line with resv := none }
    | some a =>
      if (s.homeLine line).q.length < 32 && (s.mayDrain x a || s.mayCommit x a || s.mayTransit x a) then s.enterHome x a else s

def State.serveLine (s : State) (line : Nat) : State :=
  let s := s.admitHolder line
  let h := s.homeLine line
  match h.q with
  | [] => s
  | id :: t =>
    let s := s.setHomeLine line { h with q := t }
    match s.access id with
    | some a => s.serveAcc id a
    | none => s

/-- Whether an earlier write of the line is still on its way to the replica. -/
def State.replicaTurn (s : State) (line ord : Nat) : Bool :=
  s.om.accs.all fun p => match p.2.st with
    | .replica o _ => p.2.line != line || decide (ord ≤ o)
    | _ => true

/-- The bytes that the home served reach the replica, at PA with bit 39 inverted, a line's in the order of serving (R324); a stamped
store sets the line stamp there too. -/
def State.replicaAcc (s : State) (id : Nat) : State :=
  match s.access id with
  | none => s
  | some a =>
    match a.st with
    | .replica ord cells =>
      if !s.replicaTurn a.line ord then s
      else
        let s := s.writeHome a.keyid (cells.map fun c => (c.1 ^^^ 2 ^ 39, c.2))
        let s := match a.kind with
          | .sts _ stamp => { s with phys := { s.phys with stamps := aset (a.line ^^^ 2 ^ 32) stamp s.phys.stamps } }
          | _ => s
        (s.touch a.ctx (s.phys.homeDie ((128 * a.line) ^^^ 2 ^ 39))).performed id
    | _ => s

def insertOrd (x : Nat × Nat) : List (Nat × Nat) → List (Nat × Nat)
  | [] => [x]
  | y :: t => if x.1 ≤ y.1 then x :: y :: t else y :: insertOrd x t

/-- The accesses on their way to a replica that `p` picks, in the order in which their homes served them. -/
def State.replicaIds (s : State) (p : Access → Bool) : List Nat :=
  ((s.om.accs.filterMap fun x => match x.2.st with
    | .replica o _ => if p x.2 then some (o, x.1) else none
    | _ => none).foldr insertOrd []).map Prod.snd

-- BASEOP (R35, R44, R282): it drops the home slice's copy, which this model does not keep apart, and no lease copy.

def State.baseOp (s : State) (stack : Nat) : State :=
  match agetD stack [] s.om.baseq with
  | [] => s
  | id :: t =>
    let s := { s with om := { s.om with baseq := if t.isEmpty then adel stack s.om.baseq else aset stack t s.om.baseq } }
    match s.access id with
    | some a =>
      if a.isWrite then
        let (s, _, cells) := s.homeWrite a
        s.homeDone id a cells
      else s.performed id
    | none => s

-- LOAD (R35, R36, R204, R216, R226).

def Access.addrN (a : Access) : Nat × Nat :=
  match a.kind with
  | .load x n _ => (x, n)
  | .ldas x n _ _ _ _ _ => (x, n)
  | _ => (0, 0)

def storeBytes (a : Access) : List Host.Cell :=
  match a.kind with
  | .store bytes => bytes
  | _ => []

/-- The agent's buffered stores to the line of a load, oldest first. -/
def State.ownStores (s : State) (id : Nat) (a : Access) : List Access :=
  (s.earlier id a).filter fun e => e.st == .buffer && sameLine e a && (match e.kind with
    | .store _ => true
    | _ => false)

/-- The youngest buffered byte at an address. -/
def ownByte (l : List Access) (x : Nat) : Option Byte :=
  l.reverse.findSome? fun e => ((storeBytes e).find? fun c => c.1 == x).map Prod.snd

/-- Whether the acquire must read at the home (R39). -/
def Access.wide (a : Access) : Bool :=
  match a.acq with
  | some sc => !upToDie sc
  | none => false

/-- Item 3 of R36; an acquire at PKG or SYS takes nothing from the store buffer (R39). -/
def State.lineFree (s : State) (id : Nat) (a : Access) : Bool :=
  let sl := (s.earlier id a).filter fun e => sameLine e a && !e.isRedm && !e.isServed
  let own := s.ownStores id a
  let (x, n) := a.addrN
  let passes := !a.wide && (match a.kind with
    | .load _ _ _ => true
    | _ => false)
  if passes && sl.length == own.length then
    own.isEmpty || (List.range n).all fun i => (ownByte own (x + i)).isSome
  else sl.isEmpty

def State.canLoad (s : State) (id : Nat) (a : Access) : Bool :=
  let es := s.earlier id a
  a.st == .issued &&
  (match a.kind with
   | .load _ _ _ => true
   | .ldas _ _ _ t _ _ _ => decide (t.toNat < s.earliest a.die)
   | _ => false) &&
  es.all (fun e => e.acq.isNone && !e.isFence) && s.lineFree id a

/-- The cells a load's bytes give (R208). -/
def destVals (bytes : List Byte) (ds : List Dest) : List (Cell × Nat) :=
  ds.map fun d =>
    let v := leNat ((bytes.drop d.off).take d.n)
    let x : Word64 := BitVec.ofNat 64 (if d.sx && decide (256 ^ d.n ≤ 2 * v) then v + (2 ^ 64 - 256 ^ d.n) else v)
    (d.cell, match d.cell with
      | .s _ => x.toNat
      | _ => (x.setWidth 32).toNat)

/-- The bytes a load of physical memory binds, its own buffered stores apart, with what the read leaves behind. -/
def State.bindPhys (s : State) (a : Access) (x n : Nat) : State × List Byte :=
  let home := s.homeOf a
  let remote := home != a.die || s.isCxl a
  let atHome (s : State) : State × List Byte :=
    let (ix, s) := s.freeIx
    let s := s.touch a.ctx home
    let stale := s.phys.inb.find? fun o =>
      o.line == a.line && decide (s.now ≤ o.time + 1000) && home == a.die && Config.inboundOld ix
    match stale with
    | some o => (s, ((underKey o.key (s.phys.key a.line a.keyid) a.line o.data).drop (x % 128)).take n)
    | none =>
      -- the value of a load that the home's loss overtakes is not stated: a free value
      if (s.die home).st == .lost && !s.isCxl a then
        (s, (List.range n).map fun i => (Config.freeWord (Nat.pair ix i)).setWidth 8)
      else (s, s.readHome a.keyid x n)
  if a.page = 2 then
    let s := s.recall a.line
    (s.touch a.ctx home, s.readHome a.keyid x n)
  else if a.page = 1 ∧ home ≠ a.die then
    let copy := (s.swmCopy a.die a.line).getD ⟨a.die, a.line, a.ctx, a.va / 128 * 128, a.keyid, a.repl, []⟩
    -- a read whose bytes are all valid in the copy takes nothing of the home (R204, rule 2)
    let all := (List.range n).all fun i => (aget (x % 128 + i) copy.bytes).isSome
    let (s, hb) := if all then (s, []) else atHome s
    let pick := (List.range n).map fun i =>
      match aget (x % 128 + i) copy.bytes with
      | some v => v.1
      | none => hb.getD i 0
    let (ix, s) := s.freeIx
    if !all && Config.keepCopy ix then
      let bytes := (List.range n).foldl (fun (m : Assoc (Byte × Bool)) i =>
        if (aget (x % 128 + i) m).isSome then m else aset (x % 128 + i) (hb.getD i 0, false) m) copy.bytes
      (s.setSwm { copy with bytes := bytes }, pick)
    else (s, pick)
  else
    let lease := if remote && !a.wide then
        s.om.leases.find? fun l => l.die == a.die && l.line == a.line && l.keyid == a.keyid && decide (s.now < l.exp)
      else none
    match lease with
    | some l => (s, (l.data.drop (x % 128)).take n)
    | none =>
      let (s, bytes) := atHome s
      let (ix, s) := s.freeIx
      if remote && a.page == 0 && s.phys.region (128 * a.line) != .staging && Config.keepCopy ix then
        let s := s.dropLease a.die a.line
        let l : Lease := ⟨a.die, a.line, a.ctx, a.va / 128 * 128, a.keyid, s.now + (s.die a.die).lease, s.readHome a.keyid (128 * a.line) 128⟩
        ({ s with om := { s.om with leases := s.om.leases ++ [l] } }, bytes)
      else (s, bytes)

/-- What a load binds (R35). -/
def State.bind (s : State) (id : Nat) (a : Access) (x n : Nat) : State × List Byte :=
  let own := s.ownStores id a
  if !own.isEmpty then (s, (List.range n).map fun i => (ownByte own (x + i)).getD 0)
  else
    match a.loc with
    | some blk =>
      (s, match s.block blk with
        | some b => bytesAt b.clm x n
        | none => List.replicate n 0)
    | none => s.bindPhys a x n

/-- What an LDAS with stamp `t` gives where it binds `bytes` and the line stamp `stamp` (R226): the value, the stamp as a pair, and
the predicate. -/
def ldasVals (bytes : List Byte) (stamp t : Word64) (ds : List Dest) (st : List Cell) (pr : Option Cell) : List (Cell × Nat) :=
  destVals bytes ds ++
    (match st with
     | [lo, hi] => [(lo, (stamp.setWidth 32).toNat), (hi, (stamp.extractLsb' 32 32).toNat)]
     | _ => []) ++
    match pr with
    | some c => [(c, if t.toNat < stamp.toNat then 1 else 0)]
    | none => []

/-- LOAD of one access. A lease copy that an acquire's own LOAD leaves is dropped with the others: the spec does not order that LEASE
and the drop of R39 (log entry 77). -/
def State.loadStep (s : State) (id : Nat) (a : Access) : State :=
  match a.kind with
  | .load x n ds =>
    let (s, bytes) := s.bind id a x n
    ((s.deliver a.aid (destVals bytes ds)).performed id).afterAcquire a
  | .ldas x n t _ ds st pr =>
    let s := if a.page = 2 then s.recall a.line else s
    let s := s.touch a.ctx (s.homeOf a)
    let bytes := s.readHome a.keyid x n
    let stamp : Word64 := if a.page = 3 then agetD a.line 0 s.phys.stamps else 0
    (s.deliver a.aid (ldasVals bytes stamp t ds st pr)).performed id
  | _ => s

def State.loadAcc (s : State) (id : Nat) : State :=
  match s.access id with
  | some a => if s.canLoad id a then s.loadStep id a else s
  | none => s

-- What ends by its own condition: fences, CLEANs, agents that are no more.

/-- A fence completes (R40). -/
def State.fenceStep (s : State) (id : Nat) : State :=
  match s.access id with
  | some a =>
    match a.kind with
    | .fence sc =>
      if s.settledAt true sc id a then
        let s := s.performed id
        if upToDie sc then s else s.dropLeases a.die
      else s
    | .clean _ =>
      (match a.st with
       | .writingBack upto => if s.wbOf a.die upto ((a.granules).getD []) then s else s.performed id
       | _ => s)
    | _ => s
  | none => s

/-- Everything that completes by its own condition, in issue order. -/
def State.sweep (s : State) : State := (s.om.accs.map Prod.fst).foldl State.fenceStep s

/-- Reads of the issuing block's window at issue (R356), as a load under R36: none until every byte can be bound. -/
def State.readWindow (s : State) (aid blk off n : Nat) : Option (List Byte) :=
  let mine := match s.agent aid with
    | some r => r.issue.filterMap s.access
    | none => []
  let stores := mine.filter fun a => a.loc == some blk && a.st == .buffer
  let blocked := mine.any fun a => a.acq.isSome || a.isFence ||
    (a.loc == some blk && a.st == .issued && decide (off / 128 ≤ a.line) && decide (128 * a.line < off + n))
  let clm := match s.block blk with
    | some b => b.clm
    | none => []
  let lines := dedup ((List.range n).map fun i => lineOf (off + i))
  let ok := lines.all fun ln =>
    let l := stores.filter fun a => a.line == ln
    let xs := (List.range n).filter fun i => lineOf (off + i) == ln
    l.isEmpty || xs.all fun i => (ownByte l (off + i)).isSome
  if blocked || !ok then none
  else some ((List.range n).map fun i => (ownByte stores (off + i)).getD (byteAt clm (off + i)))

end Sys2Proof.Machine
end

