-- ==== Sys2Proof/Machine/Memory.lean ====
section
/-!
DEFINITION. Groups 5 and 6 of the memory path: addresses (R209), loads, stores, atomics, memory-side operations, prefetch,
fences, CLEAN and INVAL (R206 to R209).
-/
namespace Sys2Proof.Machine

-- Addresses (R209).

/-- FRAME: CW1 of the record the block was dealt from. -/
def State.frame (s : State) (b : Block) : Nat :=
  match s.team b.team with
  | some t => t.crec.frame
  | none => 0

def dispOf (disp : Option (BitVec 19)) : Int :=
  match disp with
  | some v => v.toInt
  | none => 0

def addDisp (a : Nat) (disp : Option (BitVec 19)) : Nat :=
  (BitVec.ofNat 54 a + BitVec.ofInt 54 (dispOf disp)).toNat

/-- The virtual address of a lane. -/
def gaddrW (e : WEnv) (a : Operand) (disp : Option (BitVec 19)) (l : Nat × Nat) : Nat :=
  addDisp (match a with
    | .imm v => e.s.frame e.b + v.toNat
    | o => (addr54 (regV e l o 0) (regV e l o 1)).toNat) disp

def gaddrS (e : SEnv) (a : Operand) (disp : Option (BitVec 19)) : Nat :=
  addDisp (match a with
    | .imm v => e.s.frame e.b + v.toNat
    | o => (srcS e o).toNat) disp

/-- The core-local offset of a lane, without wrap. -/
def laddrW (e : WEnv) (a : Operand) (disp : Option (BitVec 19)) (l : Nat × Nat) : Int :=
  (srcU e l a).toNat + dispOf disp

def laddrS (e : SEnv) (a : Operand) (disp : Option (BitVec 19)) : Int := (srcSU e a).toNat + dispOf disp

/-- TRADDR of a core-local offset: its 64-bit pattern. -/
def offBits (o : Int) : Nat := (BitVec.ofInt 64 o).toNat

/-- ALIGN, then ACCESS, for core-local offsets of `n` bytes (R196, R203). -/
def localCheck (b : Block) (n : Nat) (lanes : List (Nat × Nat × Int)) : Except Stop Unit :=
  match lanes.filter fun l => l.2.2 % (n : Int) != 0 with
  | l :: r => fltLanes fAlign 0 (offBits l.2.2) (maskOf ((l :: r).map Prod.fst))
  | [] =>
    match lanes.filter fun l => (b.winCheck l.2.2 n).isSome with
    | l :: r => fltLanes fAccess ((b.winCheck l.2.2 n).getD 0) (offBits l.2.2) (maskOf ((l :: r).map Prod.fst))
    | [] => .ok ()

/-- Where a lane's access goes: slot, thread, core-local block or none, address there, virtual address, page attributes. -/
structure Site where
  slot : Nat
  thr  : Nat
  loc  : Option Nat
  a    : Nat
  va   : Nat
  pte  : Word64
  deriving DecidableEq, Repr

def Spot.site (p : Spot) : Site := ⟨p.slot, p.thr, none, p.pa, p.va, p.pte⟩

/-- The sites of a global access on a warp. -/
def sitesW (e : WEnv) (t : AccType) (n : Nat) (a : Operand) (disp : Option (BitVec 19)) :
    Except Stop (State × List Site) :=
  match e.s.spots e.w.aid e.b t n (e.eff.map fun l => (l.1, l.2, gaddrW e a disp l)) with
  | .error x => .error x
  | .ok (s, l) => .ok (s, l.map Spot.site)

def sitesS (e : SEnv) (t : AccType) (n : Nat) (a : Operand) (disp : Option (BitVec 19)) :
    Except Stop (State × List Site) :=
  match e.s.spots e.q.aid e.b t n [(0, 0, gaddrS e a disp)] with
  | .error x => .error x
  | .ok (s, l) => .ok (s, l.map Spot.site)

/-- The sites of a core-local access. -/
def localSites (s : State) (b : Block) (n : Nat) (lanes : List (Nat × Nat × Int)) : Except Stop (State × List Site) :=
  match localCheck b n lanes with
  | .error x => .error x
  | .ok () => .ok (s, lanes.map fun l => ⟨l.1, l.2.1, some b.id, l.2.2.toNat, l.2.2.toNat, 0⟩)

def lsitesW (e : WEnv) (n : Nat) (a : Operand) (disp : Option (BitVec 19)) : Except Stop (State × List Site) :=
  localSites e.s e.b n (e.eff.map fun l => (l.1, l.2, laddrW e a disp l))

def lsitesS (e : SEnv) (n : Nat) (a : Operand) (disp : Option (BitVec 19)) : Except Stop (State × List Site) :=
  localSites e.s e.b n [(0, 0, laddrS e a disp)]

/-- An access of a party of a block at a site. -/
def mkAccess (b : Block) (aid inst : Nat) (x : Site) (kind : AccKind) (st : AccSt) : Access where
  aid := aid
  inst := inst
  die := b.die
  ctx := b.ctx
  loc := x.loc
  line := lineOf x.a
  va := x.va
  page := if x.loc.isSome then 0 else pageKind x.a x.pte
  keyid := if x.loc.isSome then 0 else pteKeyid x.pte
  slice := b.cluster
  kind := kind
  acq := none
  rel := none
  st := st
  refusals := 0
  firstRef := 0
  retryAt := 0
  repl := x.loc.isNone && pteRepl x.pte

-- Loads (R208).

/-- Bytes and sign extension of a load size. -/
def ldBytes : LdMode → Nat × Bool
  | .plain .u8 => (1, false)
  | .plain .s8 => (1, true)
  | .plain .u16 => (2, false)
  | .plain .s16 => (2, true)
  | .plain .b32 => (4, false)
  | .plain .b64 => (8, false)
  | .plain .b128 => (16, false)
  | .plain .s32 => (4, true)
  | .acq .b32 _ => (4, false)
  | .acq .b64 _ => (8, false)
  | .acq .b128 _ => (16, false)

def ldAcq : LdMode → Option Scope
  | .acq _ sc => some sc
  | _ => none

/-- The registers a load writes in a lane, little-endian, the named one first. -/
def ldDests (m : LdMode) (t n : Nat) : List Dest :=
  let (bytes, sx) := ldBytes m
  if bytes ≤ 4 then [⟨.v t n, 0, bytes, sx⟩]
  else (List.range (bytes / 4)).map fun i => ⟨.v t (n + i), 4 * i, 4, false⟩

/-- Bytes of the SVCP store buffer over a load's bytes (R327): the youngest store first. -/
def specByte (x : Spec) (loc : Option Nat) (a : Nat) : Option Byte :=
  ownByte (x.stores.filter fun st => st.loc == loc) a

/-- How a speculating agent's load stands to its SVCP store buffer: none of its bytes there, every one, or some. -/
inductive Cover where
  | nothing
  | all (bytes : List Byte)
  | part
  deriving DecidableEq, Repr

def coverOf (sp : Option Spec) (loc : Option Nat) (a n : Nat) : Cover :=
  match sp with
  | none => .nothing
  | some x =>
    let l := (List.range n).map fun i => specByte x loc (a + i)
    if l.all fun o => o.isNone then .nothing
    else if l.all fun o => o.isSome then .all (l.map fun o => o.getD 0)
    else .part

/-- The loads of the sites: accesses, and values that the SVCP store buffer gives at once; none while a load has only some of
its bytes there. -/
def loadsOf (b : Block) (aid inst n : Nat) (acq : Option Scope) (sp : Option Spec) (dests : Site → List Dest) :
    List Site → Option (List Access × List (Cell × Nat))
  | [] => some ([], [])
  | x :: t =>
    match loadsOf b aid inst n acq sp dests t with
    | none => none
    | some (as, vs) =>
      match coverOf sp x.loc x.a n with
      | .nothing => some ({ mkAccess b aid inst x (.load x.a n (dests x)) .issued with acq := acq } :: as, vs)
      | .all bytes => some (as, destVals bytes (dests x) ++ vs)
      | .part => none

def loadW (i : Instr) (m : LdMode) (d : Operand) (sites : WEnv → Nat → Except Stop (State × List Site)) (e : WEnv) :
    Except Stop State :=
  let n := (ldBytes m).1
  match sites e n with
  | .error x => .error x
  | .ok (s, xs) =>
    let (inst, s) := s.newId
    let dests (x : Site) : List Dest := ldDests m x.thr (regOf e.b x.thr d)
    match loadsOf e.b e.w.aid inst n (ldAcq m) (e.b.specOf e.w.aid) dests xs with
    | none => waitOn .reply e.s
    | some (as, now) =>
      let cells := xs.flatMap fun x => (dests x).map Dest.cell
      let s := retireLater (s.addAccesses as) e i cells
      .ok (if now.isEmpty then s else s.modBlock e.b.id fun b => b.putCells now)

def loadS (m : LdMode) (d : Operand) (sites : SEnv → Nat → Except Stop (State × List Site)) (e : SEnv) :
    Except Stop State :=
  let (n, sx) := ldBytes m
  match sites e n with
  | .error x => .error x
  | .ok (s, xs) =>
    let (inst, s) := s.newId
    let dests (_ : Site) : List Dest := [⟨.s (regS d), 0, n, sx⟩]
    match loadsOf e.b e.q.aid inst n (ldAcq m) (e.b.specOf e.q.aid) dests xs with
    | none => waitOn .reply e.s
    | some (as, now) =>
      let s := ({ e with s := s.addAccesses as }).put e.q.advance
      .ok (if now.isEmpty then s else s.modBlock e.b.id fun b => b.putCells now)

def execLd (c : Ctl) (m : LdMode) (d a : Operand) (disp : Option (BitVec 19)) (s : State) :
    Host.Outcome State Fault Refusal :=
  issue (.ld c m d a disp) c (loadW (.ld c m d a disp) m d fun e n => sitesW e .ld n a disp)
    (loadS m d fun e n => sitesS e .ld n a disp) s

def execLdl (c : Ctl) (m : LdMode) (d a : Operand) (disp : Option (BitVec 19)) (s : State) :
    Host.Outcome State Fault Refusal :=
  issue (.ldl c m d a disp) c (loadW (.ldl c m d a disp) m d fun e n => lsitesW e n a disp)
    (loadS m d fun e n => lsitesS e n a disp) s

-- Stores.

def stBytes : StMode → Nat
  | .plain .b8 => 1
  | .plain .b16 => 2
  | .plain .b32 => 4
  | .plain .b64 => 8
  | .plain .b128 => 16
  | .rel .b32 _ => 4
  | .rel .b64 _ => 8
  | .rel .b128 _ => 16

def stRel : StMode → Option Scope
  | .rel _ sc => some sc
  | _ => none

/-- Where lanes write one byte, exactly one lane's value survives, and a free value says which (R32). -/
def survivors (ix : Nat) (l : List (Nat × List Host.Cell)) : List (List Host.Cell) :=
  l.map fun x => x.2.filter fun c =>
    match (l.filter fun y => y.2.any fun d => d.1 == c.1).map Prod.fst with
    | [] => true
    | w => w.getD (Config.winner (Nat.pair ix c.1) % w.length) 0 == x.1

/-- The accesses of a store: one for each lane that keeps a byte. -/
def storesOf (b : Block) (aid inst : Nat) (rel : Option Scope) (kind : List Host.Cell → AccKind) (st : AccSt)
    (xs : List (Site × List Host.Cell)) : List Access :=
  xs.filterMap fun p =>
    if p.2.isEmpty then none else some { mkAccess b aid inst p.1 (kind p.2) st with rel := rel }

/-- Stores take ISSUE, or enter the SVCP store buffer of a speculating agent (R327). -/
def State.issueStores (s : State) (blk aid : Nat) (as : List Access) : State :=
  match s.block blk with
  | none => s.addAccesses as
  | some b =>
    match b.specOf aid with
    | some x => s.setBlock (b.setSpec { x with stores := x.stores ++ as })
    | none => s.addAccesses as

def storeW (i : Instr) (m : StMode) (d : Operand) (sites : WEnv → Nat → Except Stop (State × List Site)) (e : WEnv) :
    Except Stop State :=
  let n := stBytes m
  match sites e n with
  | .error x => .error x
  | .ok (s, xs) =>
    let data (x : Site) : List Byte :=
      ((List.range ((n + 3) / 4)).flatMap fun k =>
        leBytes 4 (if k = 0 then srcI e (x.slot, x.thr) d else regV e (x.slot, x.thr) d k).toNat).take n
    let (inst, s) := s.newId
    let (ix, s) := s.freeIx
    let kept := survivors ix (xs.map fun x => (x.slot, cellsFrom x.a (data x)))
    let as := storesOf e.b e.w.aid inst (stRel m) .store .buffer (xs.zip kept)
    .ok ((retire s e i).issueStores e.b.id e.w.aid as)

def storeS (m : StMode) (d : Operand) (sites : SEnv → Nat → Except Stop (State × List Site)) (e : SEnv) :
    Except Stop State :=
  let n := stBytes m
  match sites e n with
  | .error x => .error x
  | .ok (s, xs) =>
    let (inst, s) := s.newId
    let as := storesOf e.b e.q.aid inst (stRel m) .store .buffer
      (xs.map fun x => (x, cellsFrom x.a (leBytes n (srcS e d).toNat)))
    .ok ((({ e with s := s }).put e.q.advance).issueStores e.b.id e.q.aid as)

def execSt (c : Ctl) (m : StMode) (d a : Operand) (disp : Option (BitVec 19)) (s : State) :
    Host.Outcome State Fault Refusal :=
  issue (.st c m d a disp) c (storeW (.st c m d a disp) m d fun e n => sitesW e .st n a disp)
    (storeS m d fun e n => sitesS e .st n a disp) s

def execStl (c : Ctl) (m : StMode) (d a : Operand) (disp : Option (BitVec 19)) (s : State) :
    Host.Outcome State Fault Refusal :=
  issue (.stl c m d a disp) c (storeW (.stl c m d a disp) m d fun e n => lsitesW e n a disp)
    (storeS m d fun e n => lsitesS e n a disp) s

-- PREF.

/-- A lane's line brought near, where its translation is at hand and no check fails: with level 2 it may leave a lease copy, or
bytes marked valid in an SWM copy, as a load of the line could. -/
def State.prefLine (s : State) (b : Block) (va : Nat) : State :=
  let d := s.die b.die
  if d.held.any fun h => h.covers b.ctx va then s
  else
    match tlbFind (s.core b.gcore).tlb b.ctx va <|> tlbFind d.tlb b.ctx va with
    | none => s
    | some t =>
      let pa := t.phys va
      if (s.checkPage b.die .ld t.pte pa).isSome || pteKind t.pte == 2 then s
      else
        let x : Site := ⟨0, 0, none, 128 * lineOf pa, va / 128 * 128, t.pte⟩
        (s.bindPhys (mkAccess b 0 0 x (.load (128 * lineOf pa) 128 []) .issued) (128 * lineOf pa) 128).1

def prefAll (s : State) (b : Block) (lvl : PrefLevel) (vas : List Nat) : State :=
  match lvl with
  | .l2copy => vas.foldl (fun s va => s.prefLine b va) s
  | _ => s

def execPref (c : Ctl) (lvl : PrefLevel) (a : Operand) (disp : Option (BitVec 19)) (s : State) :
    Host.Outcome State Fault Refusal :=
  issue (.pref c lvl a disp) c
    (fun e => .ok (retire (prefAll e.s e.b lvl (e.eff.map (gaddrW e a disp))) e (.pref c lvl a disp)))
    (fun e => .ok (({ e with s := prefAll e.s e.b lvl [gaddrS e a disp] }).put e.q.advance)) s

-- FENCE (R40).

def fenceAccess (b : Block) (aid inst : Nat) (sc : Scope) : Access :=
  mkAccess b aid inst ⟨0, 0, none, 0, 0, 0⟩ (.fence sc) .issued

def execFence (c : Ctl) (sc : Scope) (s : State) : Host.Outcome State Fault Refusal :=
  issue (.fence c sc) c
    (fun e =>
      let (inst, s) := e.s.newId
      .ok ((retire s e (.fence c sc)).addAccess (fenceAccess e.b e.w.aid inst sc)).2)
    (fun e =>
      let (inst, s) := e.s.newId
      .ok ((({ e with s := s }).put e.q.advance).addAccess (fenceAccess e.b e.q.aid inst sc)).2) s

-- CLEAN, INVAL.

/-- The bytes at which a lane's range meets each of its pages. -/
def rangePages (a count : Nat) : List Nat :=
  let lo := a / 256 * 256
  (List.range ((lo % 2 ^ 16 + 256 * count + 2 ^ 16 - 1) / 2 ^ 16)).map fun i =>
    (if i = 0 then lo else (lo / 2 ^ 16 + i) * 2 ^ 16) % 2 ^ 54

/-- The physical granules of a range that lie in SWM pages. -/
def rangeGranules (xs : List Site) (a count : Nat) : List Nat :=
  (List.range count).filterMap fun k =>
    let va := (a / 256 + k) * 256 % 2 ^ 54
    match xs.find? fun x => pageOf x.va == pageOf va with
    | some x => if pageKind x.a x.pte = 1 then some ((x.a / 2 ^ 16 * 2 ^ 16 + va % 2 ^ 16) / 256) else none
    | none => none

/-- One site for each page. -/
def onePerPage : List Site → List Site
  | [] => []
  | x :: t => x :: (onePerPage t).filter fun y => pageOf y.va != pageOf x.va

/-- The accesses of a CLEAN or INVAL of `count` granules from each address on: one for each SWM page, of the granules that lie in it. -/
def rangeAccesses (b : Block) (aid inst : Nat) (inval : Bool) (xs : List Site) (vas : List Nat) (count : Nat) : List Access :=
  (onePerPage xs).filterMap fun x =>
    let g := dedup (vas.flatMap fun va => rangeGranules [x] va count)
    if g.isEmpty then none else some (mkAccess b aid inst x (if inval then .inval g else .clean g) .buffer)

def cleanOp (i : Instr) (c : Ctl) (inval : Bool) (a : Operand) (count : BitVec 19) (s : State) :
    Host.Outcome State Fault Refusal :=
  let t : AccType := if inval then .inval else .clean
  let go (s : State) (b : Block) (aid : Nat) (xs : List Spot) (vas : List Nat) : State :=
    let (inst, s) := s.newId
    s.issueStores b.id aid (rangeAccesses b aid inst inval (xs.map Spot.site) vas count.toNat)
  issue i c
    (fun e =>
      let lanes := e.eff.map fun l => (l.1, l.2, gaddrW e a none l)
      match e.s.spots e.w.aid e.b t 1
        (lanes.flatMap fun l => (rangePages l.2.2 count.toNat).map fun va => (l.1, l.2.1, va)) with
      | .error x => .error x
      | .ok (s, xs) => .ok (go (retire s e i) e.b e.w.aid xs (lanes.map fun l => l.2.2)))
    (fun e =>
      let va := gaddrS e a none
      match e.s.spots e.q.aid e.b t 1 ((rangePages va count.toNat).map fun va => (0, 0, va)) with
      | .error x => .error x
      | .ok (s, xs) => .ok (go (({ e with s := s }).put e.q.advance) e.b e.q.aid xs [va])) s

def execClean (c : Ctl) (a : Operand) (count : BitVec 19) (s : State) : Host.Outcome State Fault Refusal :=
  cleanOp (.clean c a count) c false a count s

def execInval (c : Ctl) (a : Operand) (count : BitVec 19) (s : State) : Host.Outcome State Fault Refusal :=
  cleanOp (.inval c a count) c true a count s

-- Atomics (R206).

def insertThr (x : AtomLane) : List AtomLane → List AtomLane
  | [] => [x]
  | y :: t => if x.thr ≤ y.thr then x :: y :: t else y :: insertThr x t

/-- Lanes in ascending thread. -/
def byThread : List AtomLane → List AtomLane
  | [] => []
  | x :: t => insertThr x (byThread t)

/-- One request for each line, its lanes in ascending thread. -/
def requestsOf (b : Block) (aid inst : Nat) (op : RmwOp) (xs : List (Site × AtomLane)) : List Access :=
  let lines := dedup (xs.map fun x => lineOf x.1.a)
  lines.filterMap fun ln =>
    match xs.filter fun x => lineOf x.1.a == ln with
    | [] => none
    | x :: t => some (mkAccess b aid inst x.1 (.rmw op (byThread ((x :: t).map Prod.snd))) .buffer)

def rmwW (i : Instr) (t : AccType) (n : Nat) (op : RmwOp) (a : Operand)
    (val exp : WEnv → Nat × Nat → Word64) (ret : Option Operand) (acq rel : Option Scope) (e : WEnv) :
    Except Stop State :=
  match sitesW e t n a none with
  | .error x => .error x
  | .ok (s, xs) =>
    let (inst, s) := s.newId
    let cell (x : Site) : Option Cell := ret.map fun d => .v x.thr (regOf e.b x.thr d)
    let lanes := xs.map fun x => (x, (⟨x.thr, x.a, val e (x.slot, x.thr), (exp e (x.slot, x.thr)).setWidth 32, cell x⟩ :
      AtomLane))
    let as := (requestsOf e.b e.w.aid inst op lanes).map fun r => { r with acq := acq, rel := rel }
    .ok (retireLater (s.addAccesses as) e i (xs.filterMap cell))

/-- A 32-bit value as an atomic's operand. An immediate is an integer, also for ATOM.FADD and for RED.M F32: R207 says Vsi and no
more, while R178 and R187 name their binary32 immediates; the model's choice (log entry 24). -/
def opnd32 (b : Operand) (e : WEnv) (l : Nat × Nat) : Word64 := (srcI e l b).setWidth 64

def execAtom (c : Ctl) (op : AtomOp) (d a b : Operand) (s : State) : Host.Outcome State Fault Refusal :=
  let i : Instr := .atom c op d a b
  issueW i c (rmwW i .atom 4 (.atom op) a (opnd32 b) (fun _ _ => 0) (some d) none none) s

def acasAcq : AcasOrd → Option Scope
  | .acq sc => some sc
  | .acqrel sc => some sc
  | _ => none

def acasRel : AcasOrd → Option Scope
  | .rel sc => some sc
  | .acqrel sc => some sc
  | _ => none

def execAcas (c : Ctl) (exch : Bool) (ord : AcasOrd) (d a b : Operand) (s : State) :
    Host.Outcome State Fault Refusal :=
  let i : Instr := .acas c exch ord d a b
  issueW i c (rmwW i .atom 4 (if exch then .exch else .cas) a (opnd32 b)
    (fun e l => (regV e l d 0).setWidth 64) (some d) (acasAcq ord) (acasRel ord)) s

def execRedM (c : Ctl) (op : RedOp) (fmt : RedFmt) (a b : Operand) (s : State) : Host.Outcome State Fault Refusal :=
  let i : Instr := .redM c op fmt a b
  issueW i c (rmwW i .redm 4 (.redm op fmt) a (opnd32 b) (fun _ _ => 0) none none none) s

end Sys2Proof.Machine
end

