-- ==== Sys2Proof/Machine/Coherence.lean ====
section
/-!
DEFINITION. The stamped forms, commutative updates, the clock, package barriers and TDCLR (R214 to R229), with the events of
package barriers (R228) and of the time unit (R221, R222).
-/
namespace Sys2Proof.Machine

-- RED.C (R215, R229).

def redcBytes : RedcSize → Nat
  | .b16 => 2
  | .b32 => 4
  | .b64 => 8

def execRedC (c : Ctl) (sz : RedcSize) (a b : Operand) (s : State) : Host.Outcome State Fault Refusal :=
  let i : Instr := .redC c sz a b
  let n := redcBytes sz
  issueW i c (fun e =>
    match sitesW e .redc n a none with
    | .error x => .error x
    | .ok (s, xs) =>
      let bad := xs.filter fun x => match s.rangeAt e.b.die (lineOf x.a) with
        | some r => commSize r.fmt != n
        | none => true
      match bad with
      | x :: t => fltLanes fCommStore 1 x.va (maskOf ((x :: t).map fun y => y.slot))
      | [] =>
        let (inst, s) := s.newId
        let val (x : Site) : Word64 :=
          if sz = .b64 then srcPair e (x.slot, x.thr) b else (srcI e (x.slot, x.thr) b).setWidth 64
        let lanes := xs.map fun x => (x, (⟨x.thr, x.a, val x, 0, none⟩ : AtomLane))
        .ok ((retire s e i).addAccesses (requestsOf e.b e.w.aid inst .redc lanes))) s

-- CLK.

def execClk (c : Ctl) (d : Operand) (s : State) : Host.Outcome State Fault Refusal :=
  issue (.clk c d) c
    (fun e =>
      let lo : Word64 := BitVec.ofNat 64 (e.s.earliest e.b.die)
      let hi : Word64 := BitVec.ofNat 64 (e.s.latest e.b.die)
      let cells := e.eff.flatMap fun l =>
        let n := regOf e.b l.2 d
        [(Cell.v l.2 n, (lo.setWidth 32).toNat), (.v l.2 (n + 1), (lo.extractLsb' 32 32).toNat),
         (.v l.2 (n + 2), (hi.setWidth 32).toNat), (.v l.2 (n + 3), (hi.extractLsb' 32 32).toNat)]
      .ok (retireNow e (.clk c d) cells))
    (fun e =>
      let lo : Word64 := BitVec.ofNat 64 (e.s.earliest e.b.die)
      let hi : Word64 := BitVec.ofNat 64 (e.s.latest e.b.die)
      let q := { e.q.advance.put (regS d) (hi - lo) with clke := lo, clkl := hi }
      .ok (e.put q)) s

-- The checks of stamped instructions (R223).

def saturate32 (n : Nat) : Nat := min n (2 ^ 32 - 1)

/-- Check 1, then check 2 for the wait the instruction needs. -/
def stampChecks (s : State) (die : Nat) (wait : Nat) : Except Stop Unit :=
  let d := s.die die
  let width := s.latest die - s.earliest die
  if d.ceil < width then flt fTimeWide (saturate32 width)
  else if max d.wl d.ceil < wait then flt fTimeWaitlimit (saturate32 wait)
  else .ok ()

-- STS (R224).

/-- Whether an agent's earlier loads and LDAS have bound (R224). -/
def State.loadsBound (s : State) (aid : Nat) : Bool :=
  s.om.accs.all fun p => p.2.aid != aid || (match p.2.kind with
    | .load _ _ _ => false
    | .ldas _ _ _ _ _ _ _ => false
    | _ => true)

def State.commitWaiters (s : State) (die : Nat) : Nat :=
  (s.om.accs.filter fun p => p.2.die == die && p.2.st == .commitWait).length

/-- One entry for each line written. -/
def stsAccesses (b : Block) (aid inst : Nat) (stamp : Word64) (l : List (Site × List Host.Cell)) : List Access :=
  (dedup (l.map fun p => lineOf p.1.a)).filterMap fun ln =>
    match l.filter fun p => lineOf p.1.a == ln with
    | [] => none
    | p :: t => some (mkAccess b aid inst p.1 (.sts ((p :: t).flatMap Prod.snd) stamp) .commitWait)

def execSts (c : Ctl) (b64 : Bool) (d a b : Operand) (s : State) : Host.Outcome State Fault Refusal :=
  let i : Instr := .sts c b64 d a b
  let n := if b64 then 8 else 4
  issueW i c (fun e =>
    if e.eff.isEmpty then .ok (retire e.s e i)
    else
      match sitesW e .sts n a none with
      -- a wait for a translation leaves checks that have passed as they are
      | .error (.wait r s) => waitOn (if e.w.wait = .sts then .sts else r) s
      | .error (.trap t) => .error (.trap t)
      | .ok (s, xs) =>
        let die := e.b.die
        match (if e.w.wait = .sts then .ok () else stampChecks s die (s.latest die - s.earliest die)) with
        | .error x => .error x
        | .ok () =>
          let lines := (dedup (xs.map fun x => lineOf x.a)).length
          if !s.loadsBound e.w.aid || decide (256 < s.commitWaiters die + lines) then waitOn .sts s
          else
            let tu := (s.die die).time
            let stampN := max (s.latest die) (match tu.prev with
              | some p => p + 1
              | none => 0)
            let stamp : Word64 := BitVec.ofNat 64 stampN
            let s := s.modDie die fun x => { x with time := { x.time with prev := some stampN } }
            let (inst, s) := s.newId
            let (ix, s) := s.freeIx
            let data (x : Site) : List Byte :=
              leBytes n (if b64 then (srcPair e (x.slot, x.thr) b).toNat else (srcI e (x.slot, x.thr) b).toNat)
            let kept := survivors ix (xs.map fun x => (x.slot, cellsFrom x.a (data x)))
            let as := stsAccesses e.b e.w.aid inst stamp (xs.zip kept)
            .ok (retireNow { e with s := s.addAccesses as } i (pairCells e d stamp))) s

-- LDAS (R226).

def execLdas (c : Ctl) (pr : Option PReg) (b64 : Bool) (d a b : Operand) (s : State) :
    Host.Outcome State Fault Refusal :=
  let i : Instr := .ldas c pr b64 d a b
  let n := if b64 then 8 else 4
  issueW i c (fun e =>
    if e.eff.isEmpty then .ok (retire e.s e i)
    else
      match sitesW e .ld n a none with
      | .error x => .error x
      | .ok (s, xs) =>
        let t (x : Site) : Word64 := srcPair e (x.slot, x.thr) b
        let tmax := maxOf (xs.map fun x => (t x).toNat)
        match stampChecks s e.b.die (tmax - s.earliest e.b.die) with
        | .error x => .error x
        | .ok () =>
          let (inst, s) := s.newId
          let reg (x : Site) : Nat := regOf e.b x.thr d
          let kind (x : Site) : AccKind :=
            .ldas x.a n (t x) (BitVec.ofNat 64 tmax)
              ((List.range (n / 4)).map fun k => ⟨.v x.thr (reg x + k), 4 * k, 4, false⟩)
              [.v x.thr (reg x + 2), .v x.thr (reg x + 3)] (pr.map fun p => .p x.thr p.val)
          let as := xs.map fun x => mkAccess e.b e.w.aid inst x (kind x) .issued
          .ok (retireLater (s.addAccesses as) e i (as.flatMap fun r => destCells r.kind))) s

-- CWAIT (R47).

/-- The registers a last-use mark on source A of CWAIT names in the effective lanes (R141). -/
def markedRegs (b : Block) (eff : List (Nat × Nat)) (a : Operand) : List (Nat × Nat) :=
  match a with
  | .reg _ true _ | .idx _ _ true _ => eff.map fun l => (l.2, regOf b l.2 a)
  | _ => []

def Block.killRegs (b : Block) (l : List (Nat × Nat)) : Block :=
  l.foldl (fun bl x => bl.modThread x.1 fun th => th.kill x.2) b

/-- Whether a stamp is surely past, and the agent's own stamped stores up to it are served. -/
def State.stampPast (s : State) (die aid t : Nat) : Bool :=
  decide (t < s.earliest die) && s.om.accs.all fun p => p.2.aid != aid || p.2.isServed || (match p.2.kind with
    | .sts _ st => decide (t < st.toNat)
    | _ => true)

def execCwait (c : Ctl) (a : Operand) (s : State) : Host.Outcome State Fault Refusal :=
  let i : Instr := .cwait c a
  issue i c
    (fun e =>
      if e.eff.isEmpty then .ok (retire e.s e i)
      else
        let t := maxOf (e.eff.map fun l => (srcPair e l a).toNat)
        let passed := match e.w.wait with
          | .stamp _ _ _ => true
          | _ => false
        match (if passed then .ok () else stampChecks e.s e.b.die (t - e.s.earliest e.b.die)) with
        | .error x => .error x
        | .ok () =>
          if e.s.stampPast e.b.die e.w.aid t then .ok (retire e.s e i) else 
            waitOn (.stamp t (stallN c) (markedRegs e.b e.eff a)) e.s)
    (fun e =>
      let t := (srcSU e a).toNat
      let passed := match e.q.wait with
        | .stamp _ _ _ => true
        | _ => false
      match (if passed then .ok () else stampChecks e.s e.b.die (t - e.s.earliest e.b.die)) with
      | .error x => .error x
      | .ok () =>
        if e.s.stampPast e.b.die e.q.aid t then .ok (e.put e.q.advance) else waitOn (.stamp t 1 []) e.s) s

/-- STAMP_SURELY_PAST: a waiting CWAIT ends. -/
def execStampSurelyPast (aid : Nat) (s : State) : Host.Outcome State Fault Refusal :=
  .next (match ({ s with actor := some aid }).issuer with
    | some (.warp b w) =>
      (match w.wait with
       | .stamp t stall kill =>
         if b.hst == .run && s.stampPast b.die aid t then
           s.setBlock ((b.killRegs kill).setWarp { w with
             pc := w.pc + 12, clock := w.clock + stall, since := min 3 (w.since + 1), wait := .none, waive := false })
         else s
       | _ => s)
    | some (.seq b q) =>
      (match q.wait with
       | .stamp t _ _ =>
         if b.hst == .run && s.stampPast b.die aid t then s.setBlock { b with seq := some q.advance } else s
       | _ => s)
    | none => s)

-- Package barriers (R227, R228).

/-- Whether a die has been told by BARSET that the barrier is the context's (R227, R312). -/
def State.barrierOk (s : State) (die n ctx : Nat) : Bool := aget n (s.die die).bars == some ctx

/-- The barrier an instruction names: the six bits of MOD (R229). -/
def arriveAccess (b : Block) (aid inst bar : Nat) (dest : List Cell) : Access :=
  mkAccess b aid inst ⟨0, 0, none, 0, 0, 0⟩ (.arrive bar dest) .issued

def execBara (c : Ctl) (bar : SReg) (d : Operand) (s : State) : Host.Outcome State Fault Refusal :=
  let i : Instr := .bara c bar d
  issue i c
    (fun e =>
      if e.eff.isEmpty then .ok (retire e.s e i)
      else if !e.s.barrierOk e.b.die bar.val e.b.ctx then flt fAccess 9
      else
        let (inst, s) := e.s.newId
        let cells := e.eff.map fun l => Cell.v l.2 (regOf e.b l.2 d)
        .ok (retireLater (s.addAccess (arriveAccess e.b e.w.aid inst bar.val cells)).2 e i cells))
    (fun e =>
      if !e.s.barrierOk e.b.die bar.val e.b.ctx then flt fAccess 9
      else
        let (inst, s) := e.s.newId
        let s := (s.addAccess (arriveAccess e.b e.q.aid inst bar.val [.s (regS d)])).2
        .ok (({ e with s := s }).put e.q.advance)) s

/-- Generation g is released. -/
def genReleased (rg g : Word32) : Bool := decide ((rg - g - 1).toNat < 2 ^ 31)

def execBarw (c : Ctl) (bar : SReg) (a : Operand) (s : State) : Host.Outcome State Fault Refusal :=
  let i : Instr := .barw c bar a
  issue i c
    (fun e =>
      if e.eff.isEmpty then .ok (retire e.s e i)
      else if !e.s.barrierOk e.b.die bar.val e.b.ctx then flt fAccess 9
      else if e.eff.all fun l => genReleased (e.s.barrier bar.val).rg (srcU e l a) then
        .ok (retire (e.s.dropLeases e.b.die) e i)
      else waitOn (.barw bar.val) e.s)
    (fun e =>
      if !e.s.barrierOk e.b.die bar.val e.b.ctx then flt fAccess 9
      else if genReleased (e.s.barrier bar.val).rg ((srcSU e a).setWidth 32) then
        .ok (({ e with s := e.s.dropLeases e.b.die }).put e.q.advance)
      else waitOn (.barw bar.val) e.s) s

/-- An arrival is accepted (R228). -/
def State.acceptArrival (s : State) (id : Nat) (a : Access) (bar : Nat) (dest : List Cell) : State :=
  let x := s.barrier bar
  let g := x.rg + BitVec.ofNat 32 x.pend
  let full := x.cnt + 1 == x.n
  let y := if full then { x with cnt := 0, pend := x.pend + 1, travel := x.travel ++ [s.now + 96] }
    else { x with cnt := x.cnt + 1 }
  ((s.setBarrier bar y).deliver a.aid (dest.map fun c => (c, g.toNat))).performed id

def execBarrierArrivalAccept (id : Nat) (s : State) : Host.Outcome State Fault Refusal :=
  .next (match s.access id with
    | some a =>
      (match a.kind with
       | .arrive bar dest =>
         let x := s.barrier bar
         let blocked := x.cnt + 1 == x.n && decide (255 ≤ x.pend)
         if !blocked && s.settledAt false .pkg id a && (s.earlier id a).all fun e => !e.isFence then s.acceptArrival id a bar dest else s
       | _ => s)
    | none => s)

/-- A release lands, 96 ns after its generation completed. -/
def execBarrierRelease (bar : Nat) (s : State) : Host.Outcome State Fault Refusal :=
  let x := s.barrier bar
  .next (match x.travel with
    | t :: r => if t ≤ s.now then s.setBarrier bar { x with rg := x.rg + 1, pend := x.pend - 1, travel := r } else s
    | [] => s)

/-- Whether some agent waits on the barrier: it stands in a BARW of it (R228). -/
def State.barrierWaited (s : State) (bar : Nat) : Bool :=
  s.task.blocks.any fun p =>
    p.2.warps.any (fun w => w.wait == .barw bar) || (match p.2.seq with
      | some q => q.wait == .barw bar || q.held == .barw bar
      | none => false)

def execBarrierReset (bar : Nat) (s : State) : Host.Outcome State Fault Refusal :=
  let x := s.barrier bar
  .next (if s.barrierWaited bar then s else s.setBarrier bar { x with rg := 0, cnt := 0, pend := 0, travel := [] })

-- TDCLR (R229, R321).

/-- Whether bit `d` of a context's touched-dies mask may be cleared. -/
def State.mayClear (s : State) (die ctx d : Nat) : Bool :=
  d != die &&
  (s.task.blocks.all fun p => !(p.2.ctx == ctx && p.2.die == d)) &&
  (s.om.entries.all fun e => e.ctx != ctx || e.result.isSome || (match e.form with
    | .mat _ => true
    | _ => false)) &&
  (s.om.leases.all fun l => !(l.ctx == ctx && s.phys.homeDie (128 * l.line) == d)) &&
  (s.om.swm.all fun l => !(l.ctx == ctx && s.phys.homeDie (128 * l.line) == d))

def execTdclr (c : Ctl) (d a : SReg) (s : State) : Host.Outcome State Fault Refusal :=
  issueS (.tdclr c d a) c (fun e =>
    let v := (e.q.get a.val).toNat
    if 256 ≤ v then flt fIllegal 0
    else if !e.s.agentSettled true .pkg e.q.aid then waitOn .other e.s
    else
      let s := e.s.dropLeases e.b.die
      let old := (s.ctx e.b.ctx).touched
      let bits := (List.range 8).filter fun k => v / 2 ^ k % 2 == 1 && old / 2 ^ k % 2 == 1 && s.mayClear e.b.die e.b.ctx k
      let mask := (bits.map fun k => 2 ^ k).sum
      let s := s.modCtx e.b.ctx fun x => { x with touched := x.touched - mask }
      .ok (({ e with s := s }).put (e.q.advance.put d.val (BitVec.ofNat 64 mask)))) s

-- The time unit (R221, R222).

/-- The width that R221 allows an update: 8 ns where it comes over the sideband tree from the package time input, else, the package
being disciplined by IEEE 1588 (R341), 300 ns. -/
def updateWidth : Nat := if Config.timeInput then 8 else 300

/-- An update that is accepted: the spec says no more of it than 'accepted', and that true time always lies within the interval. The
model's choice (log entry 69): an interval that holds true time and is no wider than R221 allows. The unit's interval becomes what the
two have in common, and `latest` reads no less than before. -/
def execTimeUpdate (die : DieNo) (earliest latest : Nat) (s : State) : Host.Outcome State Fault Refusal :=
  let d := die.val
  let ok := decide (earliest ≤ s.now) && decide (s.now ≤ latest) && decide (latest ≤ earliest + updateWidth)
  .next (if (s.die d).st == .live && ok then
      s.modDie d fun x => { x with time := { x.time with
        st := .disciplined
        e0 := max earliest (x.time.earliest s.now)
        l0 := min latest (x.time.latest s.now)
        lf := if x.time.st == .unset then 0 else x.time.latest s.now
        t0 := s.now } }
    else s)

/-- 100 us without an update. -/
def execHoldover (die : DieNo) (s : State) : Host.Outcome State Fault Refusal :=
  let u := (s.die die.val).time
  .next (if u.st == .disciplined && decide (u.t0 + 100000 ≤ s.now) then
      (s.modDie die.val fun x => { x with time := { x.time with st := .holdover } }).report die.val .holdover
    else s)

end Sys2Proof.Machine
end

