-- ==== Sys2Proof/Decode.lean ====
section
/-!
DEFINITION. The decoder: from the twelve bytes of a word (R74) to its fields (R73), to an instruction or a named
rejection, total on any bytes; and the encoder, written from the same encoding tables.
-/
namespace Sys2Proof

/-- Why a word is no instruction: each faults ILLEGAL at issue (R82). -/
inductive DecodeError where
  | operandBits      -- a must-be-zero bit of an operand field (R76)
  | guardCode        -- a reserved guard encoding (R81)
  | modOrKind        -- a MOD value or an operand kind no table lists (R83, R159)
  | notWellFormed    -- valid on neither engine (R82)
  deriving DecidableEq, Repr

/-- The fields of a word after the operand kinds and the guard are read (R73). -/
structure Raw where
  opc : Nat
  mod : Nat
  d   : Operand
  a   : Operand
  b   : Operand
  ctl : Ctl
  deriving DecidableEq, Repr

/-- One operand field (R76). -/
def Operand.ofBits (v : BitVec 21) : Option Operand :=
  let k := (v.extractLsb' 19 2).toNat
  if k = 0 then
    if v.extractLsb' 8 9 = 0#9 then some (.reg (v.extractLsb' 0 8) (v.getLsbD 18) (v.getLsbD 17)) else none
  else if k = 1 then some (.imm (v.extractLsb' 0 19))
  else if k = 2 then
    if v.extractLsb' 0 9 = 0#9 then
      some (.idx (v.extractLsb' 15 2) (v.extractLsb' 9 6) (v.getLsbD 18) (v.getLsbD 17))
    else none
  else if v.extractLsb' 9 10 = 0#10 then some (.special (v.extractLsb' 0 9)) else none

def Operand.toBits : Operand → BitVec 21
  | .reg n m k => 0#2 ++ BitVec.ofBool m ++ BitVec.ofBool k ++ 0#9 ++ n
  | .imm v => 1#2 ++ v
  | .idx x d m k => 2#2 ++ BitVec.ofBool m ++ BitVec.ofBool k ++ x ++ d ++ 0#9
  | .special n => 3#2 ++ 0#10 ++ n

/-- The guard (R81): 12 to 14 are reserved, and GSN must be 0 with 15. -/
def Guard.ofBits (g : BitVec 4) (neg : Bool) : Option Guard :=
  if g.toNat < 12 then some (.pred g neg)
  else if g = 15#4 ∧ neg = false then some .always
  else none

def Guard.grd : Guard → BitVec 4
  | .always => 15#4
  | .pred n _ => n

def Guard.gsn : Guard → Bool
  | .always => false
  | .pred _ s => s

/-- The fields of a word (R73). -/
def Raw.ofWord (w : Word96) : Except DecodeError Raw :=
  match Operand.ofBits (w.extractLsb' 59 21), Operand.ofBits (w.extractLsb' 38 21),
    Operand.ofBits (w.extractLsb' 17 21), Guard.ofBits (w.extractLsb' 13 4) (w.getLsbD 12) with
  | some d, some a, some b, some g =>
    .ok ⟨(w.extractLsb' 86 10).toNat, (w.extractLsb' 80 6).toNat, d, a, b,
      ⟨g, w.extractLsb' 1 5, w.getLsbD 0⟩⟩
  | _, _, _, none => .error .guardCode
  | _, _, _, _ => .error .operandBits

def Raw.toWord (r : Raw) : Word96 :=
  BitVec.ofNat 10 r.opc ++ BitVec.ofNat 6 r.mod ++ r.d.toBits ++ r.a.toBits ++ r.b.toBits ++
    r.ctl.guard.grd ++ BitVec.ofBool r.ctl.guard.gsn ++ 0#6 ++ r.ctl.stall ++ BitVec.ofBool r.ctl.yld

-- Shared MOD sub-fields (R83) and typed operand fields.

def Scope.ofCode : Nat → Option Scope
  | 0 => some .blk | 1 => some .core | 2 => some .cls | 3 => some .die | 4 => some .pkg | 5 => some .sys | _ => none
def Scope.code : Scope → Nat
  | .blk => 0 | .core => 1 | .cls => 2 | .die => 3 | .pkg => 4 | .sys => 5
def Rel.ofCode : Nat → Option Rel
  | 0 => some .eq | 1 => some .ne | 2 => some .lt | 3 => some .le | 4 => some .gt | 5 => some .ge | _ => none
def Rel.code : Rel → Nat
  | .eq => 0 | .ne => 1 | .lt => 2 | .le => 3 | .gt => 4 | .ge => 5
def Rnd.ofCode : Nat → Option Rnd
  | 0 => some .rne | 1 => some .rtz | 2 => some .rup | 3 => some .rdn | _ => none
def Rnd.code : Rnd → Nat
  | .rne => 0 | .rtz => 1 | .rup => 2 | .rdn => 3
def CvtCode.ofCode : Nat → Option CvtCode
  | 0 => some .f32s32 | 1 => some .f32u32 | 2 => some .s32f32 | 3 => some .u32f32 | 4 => some .f16f32
  | 5 => some .bf16f32 | 6 => some .f32f16 | 7 => some .f32bf16 | 8 => some .f32f32 | _ => none
def CvtCode.code : CvtCode → Nat
  | .f32s32 => 0 | .f32u32 => 1 | .s32f32 => 2 | .u32f32 => 3 | .f16f32 => 4
  | .bf16f32 => 5 | .f32f16 => 6 | .f32bf16 => 7 | .f32f32 => 8
def SfuFn.ofCode : Nat → Option SfuFn
  | 0 => some .rcp | 1 => some .rsq | 2 => some .sqrt | 3 => some .ex2 | 4 => some .lg2 | 5 => some .sin
  | 6 => some .cos | 7 => some .tanh | _ => none
def SfuFn.code : SfuFn → Nat
  | .rcp => 0 | .rsq => 1 | .sqrt => 2 | .ex2 => 3 | .lg2 => 4 | .sin => 5 | .cos => 6 | .tanh => 7
def ShflMode.ofCode : Nat → Option ShflMode
  | 0 => some .idx | 1 => some .up | 2 => some .down | 3 => some .xor | _ => none
def ShflMode.code : ShflMode → Nat
  | .idx => 0 | .up => 1 | .down => 2 | .xor => 3
def AgreeMode.ofCode : Nat → Option AgreeMode
  | 0 => some .all | 1 => some .any | 2 => some .same | 3 => some .none | _ => Option.none
def AgreeMode.code : AgreeMode → Nat
  | .all => 0 | .any => 1 | .same => 2 | .none => 3
def LdSize.ofCode : Nat → Option LdSize
  | 0 => some .u8 | 1 => some .s8 | 2 => some .u16 | 3 => some .s16 | 4 => some .b32 | 5 => some .b64
  | 6 => some .b128 | 7 => some .s32 | _ => none
def LdSize.code : LdSize → Nat
  | .u8 => 0 | .s8 => 1 | .u16 => 2 | .s16 => 3 | .b32 => 4 | .b64 => 5 | .b128 => 6 | .s32 => 7
def StSize.ofCode : Nat → Option StSize
  | 0 => some .b8 | 1 => some .b16 | 2 => some .b32 | 3 => some .b64 | 4 => some .b128 | _ => none
def StSize.code : StSize → Nat
  | .b8 => 0 | .b16 => 1 | .b32 => 2 | .b64 => 3 | .b128 => 4
def AqSize.ofCode : Nat → Option AqSize
  | 0 => some .b32 | 1 => some .b64 | 2 => some .b128 | _ => none
def AqSize.code : AqSize → Nat
  | .b32 => 0 | .b64 => 1 | .b128 => 2
/-- The load layout (R208). -/
def LdMode.ofCode (m : Nat) : Option LdMode :=
  if m < 32 then
    if m % 4 = 0 then (LdSize.ofCode (m / 4)).map .plain else none
  else match AqSize.ofCode (m / 8 % 4), Scope.ofCode (m % 8) with
    | some z, some s => some (.acq z s)
    | _, _ => none
def LdMode.code : LdMode → Nat
  | .plain z => 4 * z.code
  | .acq z s => 32 + 8 * z.code + s.code
/-- The store layout (R208). -/
def StMode.ofCode (m : Nat) : Option StMode :=
  if m < 32 then
    if m % 4 = 0 then (StSize.ofCode (m / 4)).map .plain else none
  else match AqSize.ofCode (m / 8 % 4), Scope.ofCode (m % 8) with
    | some z, some s => some (.rel z s)
    | _, _ => none
def StMode.code : StMode → Nat
  | .plain z => 4 * z.code
  | .rel z s => 32 + 8 * z.code + s.code
def PrefLevel.ofCode : Nat → Option PrefLevel
  | 0 => some .l1 | 1 => some .l2 | 2 => some .l2copy | _ => none
def PrefLevel.code : PrefLevel → Nat
  | .l1 => 0 | .l2 => 1 | .l2copy => 2
def AtomOp.ofCode : Nat → Option AtomOp
  | 0 => some .add | 1 => some (.min false) | 2 => some (.max false) | 3 => some .and | 4 => some .or
  | 5 => some .xor | 6 => some .fadd | 9 => some (.min true) | 10 => some (.max true) | _ => none
def AtomOp.code : AtomOp → Nat
  | .add => 0 | .min false => 1 | .max false => 2 | .and => 3 | .or => 4 | .xor => 5 | .fadd => 6
  | .min true => 9 | .max true => 10
/-- MOD[2:0] and MOD[5:4] of ACAS (R207). -/
def AcasOrd.ofCode (ord sc : Nat) : Option AcasOrd :=
  match ord, Scope.ofCode sc with
  | 0, some .blk => some .relaxed
  | 1, some s => some (.acq s)
  | 2, some s => some (.rel s)
  | 3, some s => some (.acqrel s)
  | _, _ => none
def AcasOrd.code : AcasOrd → Nat
  | .relaxed => 0 | .acq s => 16 + s.code | .rel s => 32 + s.code | .acqrel s => 48 + s.code
def RedOp.ofCode : Nat → Option RedOp
  | 0 => some .add | 1 => some .min | 2 => some .max | _ => none
def RedOp.code : RedOp → Nat
  | .add => 0 | .min => 1 | .max => 2
def RedFmt.ofCode : Nat → Option RedFmt
  | 0 => some .s32 | 1 => some .u32 | 2 => some .f32 | _ => none
def RedFmt.code : RedFmt → Nat
  | .s32 => 0 | .u32 => 1 | .f32 => 2
def RedcSize.ofCode : Nat → Option RedcSize
  | 0 => some .b16 | 1 => some .b32 | 2 => some .b64 | _ => none
def RedcSize.code : RedcSize → Nat
  | .b16 => 0 | .b32 => 1 | .b64 => 2
def AccstKind.ofCode : Nat → Option AccstKind
  | 0 => some .split | 1 => some .wide | 2 => some .raw | _ => none
def AccstKind.code : AccstKind → Nat
  | .split => 0 | .wide => 1 | .raw => 2
def Route.ofCode : Nat → Option Route
  | 0 => some .ll | 1 => some .lg | 2 => some .gl | 3 => some .gg | 4 => some .tl | 5 => some .tg | _ => none
def Route.code : Route → Nat
  | .ll => 0 | .lg => 1 | .gl => 2 | .gg => 3 | .tl => 4 | .tg => 5
def WfldKind.ofCode : Nat → Option WfldKind
  | 0 => some .frame | 1 => some .prio | 2 => some .kid | 3 => some .edge | 4 => some .retries | 5 => some .die
  | 6 => some .core | _ => none
def WfldKind.code : WfldKind → Nat
  | .frame => 0 | .prio => 1 | .kid => 2 | .edge => 3 | .retries => 4 | .die => 5 | .core => 6
def HoldKind.ofCode : Nat → Option HoldKind
  | 0 => some .holding | 1 => some .claim | 2 => some .free | 3 => some .floor | _ => none
def HoldKind.code : HoldKind → Nat
  | .holding => 0 | .claim => 1 | .free => 2 | .floor => 3
def TdmaskKind.ofCode : Nat → Option TdmaskKind
  | 0 => some .touched | 1 => some .place | 2 => some .live | _ => none
def TdmaskKind.code : TdmaskKind → Nat
  | .touched => 0 | .place => 1 | .live => 2

/-- A field the opcode does not use (R76). -/
def absent (o : Operand) : Option Unit := if o = Operand.zero then some () else none
/-- A field that accepts only an immediate. -/
def asImm : Operand → Option (BitVec 19)
  | .imm v => some v
  | _ => none
/-- "Imm or —" (R207). -/
def asImmOpt (o : Operand) : Option (Option (BitVec 19)) :=
  if o = Operand.zero then some none
  else match o with
    | .imm v => some (some v)
    | _ => none
/-- A register of a file of `n` registers other than V, without marks (R77, R78). -/
def asFin (n : Nat) : Operand → Option (Fin n)
  | .reg k false false => if h : k.toNat < n then some ⟨k.toNat, h⟩ else none
  | _ => none
/-- The long form (R79). -/
def asLong : Operand → Operand → Option (BitVec 32)
  | .imm a, .imm b => if a.extractLsb' 13 6 = 0#6 then some (a.extractLsb' 0 13 ++ b) else none
  | _, _ => none
def bit (m k : Nat) : Bool := m / 2 ^ k % 2 == 1
def req (p : Bool) : Option Unit := if p then some () else none
/-- A result predicate in four MOD bits: 0 to 11, or 15 for none (R187, R229). -/
def predOpt (n : Nat) : Option (Option PReg) :=
  if h : n < 12 then some (some ⟨n, h⟩) else if n = 15 then some none else none
def predOptNat : Option PReg → Nat
  | some p => p.val
  | none => 15
def finOf (n k : Nat) : Option (Fin n) := if h : k < n then some ⟨k, h⟩ else none

def asOff (m : Nat) (a b : Operand) : Option Off :=
  if m = 0 then do
    absent a
    let v ← asImm b
    some (.short v)
  else if m = 1 then (asLong a b).map .long
  else none

-- The encoding tables, one function per group of the opcode map (R89).

/-- Group 0 (R162). -/
def build0 (r : Raw) : Option Instr :=
  let c := r.ctl; let m := r.mod
  match r.opc with
  | 0x000 => do req (m == 0); absent r.d; absent r.a; absent r.b; some (.nop c)
  | 0x001 => do absent r.d; let o ← asOff m r.a r.b; some (.br c o)
  | 0x002 => do req (m == 0); absent r.d; let t ← asImm r.a; let j ← asImm r.b; some (.brd c t j)
  | 0x003 => do req (m == 0); absent r.d; let t ← asImm r.b; some (.brx c r.a t)
  | 0x004 => do let o ← asOff m r.a r.b; some (.call c r.d o)
  | 0x005 => do req (m == 0); absent r.d; absent r.b; some (.ret c r.a)
  | 0x006 => do req (m == 0); absent r.d; absent r.a; let o ← asImm r.b; some (.brq c o)
  | 0x007 => do req (m == 0); absent r.a; absent r.b; some (.movq c r.d)
  | 0x008 => do req (m % 16 == 0 && m < 32); absent r.d; let p ← asFin 12 r.a; absent r.b; some (.ifOpen c (bit m 4) p)
  | 0x009 => do req (m == 0); absent r.d; absent r.a; absent r.b; some (.elseFlip c)
  | 0x00A => do req (m == 0); absent r.d; absent r.a; absent r.b; some (.endIf c)
  | 0x00B => do req (m == 0); absent r.d; absent r.a; absent r.b; some (.loop c)
  | 0x00C => do
    req (m < 32); absent r.d; let p ← asFin 12 r.a; absent r.b
    some (.brkLoop c (bit m 4) (BitVec.ofNat 4 m) p)
  | 0x00D => do
    req (m < 32); absent r.d; let p ← asFin 12 r.a; absent r.b
    some (.cont c (bit m 4) (BitVec.ofNat 4 m) p)
  | 0x00E => do req (m == 0); absent r.d; absent r.a; let o ← asImm r.b; some (.endl c o)
  | 0x00F => do
    absent r.d; absent r.a; absent r.b
    if m = 0 then some (.bar c) else if m = 1 then some (.barTeam c) else none
  | _ => none

/-- Signedness alone: MOD 0x00 or 0x08 (R174). -/
def sgn (m : Nat) : Option Bool := if m = 0 then some false else if m = 8 then some true else none

/-- Group 1 (R174). -/
def build1 (r : Raw) : Option Instr :=
  let c := r.ctl; let m := r.mod
  match r.opc with
  | 0x040 =>
    if m = 0 then do absent r.b; some (.mov c r.d (.short r.a))
    else if m = 1 then do let v ← asLong r.a r.b; some (.mov c r.d (.long v))
    else none
  | 0x041 => do req (m == 0); some (.iadd c r.d r.a r.b)
  | 0x042 => do req (m == 0); some (.isub c r.d r.a r.b)
  | 0x043 => do req (m == 0); some (.imul c r.d r.a r.b)
  | 0x044 => do let u ← sgn m; some (.imulhi c u r.d r.a r.b)
  | 0x045 => do req (m == 0); some (.imad c r.d r.a r.b)
  | 0x046 => do let u ← sgn m; some (.idiv c u r.d r.a r.b)
  | 0x047 => do let u ← sgn m; some (.irem c u r.d r.a r.b)
  | 0x048 => do let u ← sgn m; some (.imin c u r.d r.a r.b)
  | 0x049 => do let u ← sgn m; some (.imax c u r.d r.a r.b)
  | 0x04A => do req (m == 0); absent r.b; some (.iabs c r.d r.a)
  | 0x04B => do req (m == 0); some (.and c r.d r.a r.b)
  | 0x04C => do req (m == 0); some (.or c r.d r.a r.b)
  | 0x04D => do req (m == 0); some (.xor c r.d r.a r.b)
  | 0x04E => do req (m == 0); absent r.b; some (.not c r.d r.a)
  | 0x04F => do req (m == 0); some (.shl c r.d r.a r.b)
  | 0x050 => do let u ← sgn m; some (.shr c u r.d r.a r.b)
  | 0x051 => do req (m == 0); absent r.b; some (.popc c r.d r.a)
  | 0x052 => do req (m == 0); absent r.b; some (.clz c r.d r.a)
  | 0x053 => do req (m == 0); absent r.b; some (.brev c r.d r.a)
  | 0x054 => do let u ← sgn m; some (.bfe c u r.d r.a r.b)
  | 0x055 => do req (m == 0); some (.bfi c r.d r.a r.b)
  | 0x056 => do let p ← finOf 12 m; some (.sel c p r.d r.a r.b)
  | _ => none

/-- Rounding with MOD[3:0] zero (R178). -/
def rndOnly (m : Nat) : Option Rnd := if m % 16 = 0 then Rnd.ofCode (m / 16) else none
/-- Rounding with the format in MOD[0] and MOD[3:1] zero (R178). -/
def rndFmt (m : Nat) : Option (Rnd × Bool) :=
  if m % 16 < 2 then (Rnd.ofCode (m / 16)).map fun x => (x, bit m 0) else none

/-- Group 2 (R178). -/
def build2 (r : Raw) : Option Instr :=
  let c := r.ctl; let m := r.mod
  match r.opc with
  | 0x080 => do let x ← rndOnly m; some (.fadd c x r.d r.a r.b)
  | 0x081 => do let x ← rndOnly m; some (.fsub c x r.d r.a r.b)
  | 0x082 => do let x ← rndOnly m; some (.fmul c x r.d r.a r.b)
  | 0x083 => do let x ← rndOnly m; some (.ffma c x r.d r.a r.b)
  | 0x084 => do req (m == 0); some (.fmin c r.d r.a r.b)
  | 0x085 => do req (m == 0); some (.fmax c r.d r.a r.b)
  | 0x086 => do req (m == 0); absent r.b; some (.fabs c r.d r.a)
  | 0x087 => do req (m == 0); absent r.b; some (.fneg c r.d r.a)
  | 0x088 => do let x ← rndFmt m; some (.pkadd c x.1 x.2 r.d r.a r.b)
  | 0x089 => do let x ← rndFmt m; some (.pkmul c x.1 x.2 r.d r.a r.b)
  | 0x08A => do let x ← rndFmt m; some (.pkfma c x.1 x.2 r.d r.a r.b)
  | 0x08B => do req (m < 2); some (.pkmin c (bit m 0) r.d r.a r.b)
  | 0x08C => do req (m < 2); some (.pkmax c (bit m 0) r.d r.a r.b)
  | _ => none

/-- Group 3 (R181). -/
def build3 (r : Raw) : Option Instr :=
  let c := r.ctl; let m := r.mod
  match r.opc with
  | 0x0C0 => do
    let k ← CvtCode.ofCode (m % 16); let x ← Rnd.ofCode (m / 16); absent r.b
    some (.cvt c k x r.d r.a)
  | 0x0C1 => do
    req (m % 4 == 0)
    let x ← Rnd.ofCode (m / 16)
    let v ← asImm r.b
    if bit m 2 then do req (x == .rne); some (.cvt8 c .sr (bit m 3) r.d r.a v)
    else some (.cvt8 c (.mode x) (bit m 3) r.d r.a v)
  | 0x0C2 => do let x ← rndOnly m; let v ← asImm r.b; some (.cvtf8 c x r.d r.a v)
  | 0x0C3 => do let f ← SfuFn.ofCode m; absent r.b; some (.sfu c f r.d r.a)
  | _ => none

/-- Group 4 (R187). -/
def build4 (r : Raw) : Option Instr :=
  let c := r.ctl; let m := r.mod
  match r.opc with
  | 0x100 => do
    req (m < 16); let rel ← Rel.ofCode (m % 8); let p ← asFin 12 r.d
    some (.iset c rel (bit m 3) p r.a r.b)
  | 0x101 => do let rel ← Rel.ofCode m; let p ← asFin 12 r.d; some (.fset c rel p r.a r.b)
  | 0x102 => do
    req (m < 16); let d ← asFin 12 r.d; let a ← asFin 12 r.a; let b ← asFin 12 r.b
    some (.plop c (BitVec.ofNat 4 m) d a b)
  | 0x103 =>
    if m = 0 then do absent r.a; absent r.b; some (.pmov c r.d)
    else if m = 1 then do absent r.d; absent r.b; some (.pmovP c r.a)
    else none
  | 0x104 => do
    let k ← ShflMode.ofCode (m % 4); let p ← predOpt (m / 4)
    some (.shfl c k p r.d r.a r.b)
  | 0x105 => do
    req (m < 8); let k ← AgreeMode.ofCode (m % 4); let d ← asFin 12 r.d; let a ← asFin 12 r.a; absent r.b
    some (.agree c k (bit m 2) d a)
  | 0x106 => do req (m < 2); let a ← asFin 12 r.a; absent r.b; some (.ballot c (bit m 0) r.d a)
  | 0x107 => do req (m == 0); absent r.b; some (.remap c r.d r.a)
  | 0x108 => do req (m == 0); let x ← asFin 4 r.d; let p ← asImm r.a; let q ← asImm r.b; some (.xwin c x p q)
  | 0x109 => do req (m == 0); let x ← asFin 4 r.d; absent r.b; some (.xset c x r.a)
  | 0x10A => do
    req (m == 0); absent r.b
    if r.d = .special 0x010 then some (.msr c .rng r.a)
    else if r.d = .special 0x011 then some (.msr c .schk r.a)
    else none
  | _ => none

/-- Group 5 (R207). -/
def build5 (r : Raw) : Option Instr :=
  let c := r.ctl; let m := r.mod
  match r.opc with
  | 0x140 => do let k ← LdMode.ofCode m; let x ← asImmOpt r.b; some (.ld c k r.d r.a x)
  | 0x141 => do let k ← StMode.ofCode m; let x ← asImmOpt r.b; some (.st c k r.d r.a x)
  | 0x142 => do let k ← LdMode.ofCode m; let x ← asImmOpt r.b; some (.ldl c k r.d r.a x)
  | 0x143 => do let k ← StMode.ofCode m; let x ← asImmOpt r.b; some (.stl c k r.d r.a x)
  | 0x144 => do absent r.d; let k ← PrefLevel.ofCode m; let x ← asImmOpt r.b; some (.pref c k r.a x)
  | 0x145 => do absent r.d; absent r.a; absent r.b; let s ← Scope.ofCode m; some (.fence c s)
  | 0x146 => do req (m == 0); absent r.d; let n ← asImm r.b; some (.clean c r.a n)
  | 0x147 => do req (m == 0); absent r.d; let n ← asImm r.b; some (.inval c r.a n)
  | _ => none

/-- Group 6 (R207, R229). -/
def build6 (r : Raw) : Option Instr :=
  let c := r.ctl; let m := r.mod
  match r.opc with
  | 0x180 => do let k ← AtomOp.ofCode m; some (.atom c k r.d r.a r.b)
  | 0x181 => do let o ← AcasOrd.ofCode (m / 16) (m % 8); some (.acas c (bit m 3) o r.d r.a r.b)
  | 0x182 => do
    req (m < 16); absent r.d; let o ← RedOp.ofCode (m % 4); let f ← RedFmt.ofCode (m / 4)
    some (.redM c o f r.a r.b)
  | 0x183 => do absent r.d; let z ← RedcSize.ofCode m; some (.redC c z r.a r.b)
  | 0x184 => do req (m == 0); absent r.a; absent r.b; some (.clk c r.d)
  | 0x185 => do req (m < 2); some (.sts c (bit m 0) r.d r.a r.b)
  | 0x186 => do req (m < 32); let p ← predOpt (m % 16); some (.ldas c p (bit m 4) r.d r.a r.b)
  | 0x187 => do req (m == 0); absent r.d; absent r.b; some (.cwait c r.a)
  | 0x188 => do absent r.a; absent r.b; let n ← finOf 64 m; some (.bara c n r.d)
  | 0x189 => do absent r.d; absent r.b; let n ← finOf 64 m; some (.barw c n r.a)
  | 0x18A => do req (m == 0); absent r.b; let d ← asFin 64 r.d; let a ← asFin 64 r.a; some (.tdclr c d a)
  | _ => none

/-- Group 7 (R247). -/
def build7 (r : Raw) : Option Instr :=
  let c := r.ctl; let m := r.mod
  match r.opc with
  | 0x1C0 => do req (m < 2); absent r.b; some (.mma c (bit m 0) r.d r.a)
  | 0x1C1 => do req (m < 2); absent r.b; some (.mmaA c (bit m 0) r.d r.a)
  | 0x1C2 => do req (m < 8); let t ← finOf 4 (m / 2); some (.mmaS c (bit m 0) t r.d r.a r.b)
  | 0x1C3 => do absent r.d; absent r.a; absent r.b; let n ← finOf 4 m; some (.mcommit c n)
  | 0x1C4 => do absent r.d; absent r.a; absent r.b; let n ← finOf 4 m; some (.mwait c n)
  | 0x1C5 => do req (m == 0); let b ← asImm r.d; let n ← asImm r.a; absent r.b; some (.accz c b n)
  | 0x1C6 => do req (m < 2); let b ← asImm r.d; let v ← asImm r.b; some (.accld c (bit m 0) b r.a v)
  | 0x1C7 => do
    req (m < 8); let b ← asImm r.d; let v ← asImm r.b; let k ← AccstKind.ofCode (m % 4)
    some (.accst c k (bit m 2) b r.a v)
  | 0x1C8 => do req (m == 0); let b ← asImm r.d; let n ← asImm r.a; absent r.b; some (.accfold c b n)
  | 0x1C9 => do absent r.d; absent r.a; absent r.b; let n ← finOf 4 m; some (.shcommit c n)
  | 0x1CA => do absent r.d; absent r.a; absent r.b; let n ← finOf 4 m; some (.shdrop c n)
  | _ => none

/-- SEQRD's and MRSTAT's kind with A (R268, R286). -/
def seqKind (k : Nat) (a : Operand) : Option SeqKind :=
  match k with
  | 0 => do absent a; some .seq
  | 1 => do absent a; some .enq
  | 2 => do absent a; some .ticket
  | 3 => some (.status a)
  | _ => none

/-- Group 8 (R268). -/
def build8 (r : Raw) : Option Instr :=
  let c := r.ctl; let m := r.mod
  match r.opc with
  | 0x200 => do let q ← finOf 8 (m % 8); let k ← Route.ofCode (m / 8); some (.cpy c q k r.d r.a r.b)
  | 0x201 => do let q ← finOf 8 (m % 8); let k ← Route.ofCode (m / 8); some (.cpys c q k r.d r.a r.b)
  | 0x202 => do let q ← finOf 8 (m % 8); let k ← Route.ofCode (m / 8); some (.cpyx c q k r.d r.a r.b)
  | 0x203 => do req (m == 0); absent r.d; let v ← asImm r.a; absent r.b; some (.qfence c v)
  | 0x204 => do
    req (m < 32); absent r.b; let q ← finOf 8 (m % 8); let k ← seqKind (m / 8) r.a
    some (.seqrd c q k r.d)
  | 0x205 => do absent r.d; absent r.b; let q ← finOf 8 m; some (.seqwait c q r.a)
  | 0x206 => do req (m == 0); absent r.b; some (.stinit c r.d r.a)
  | 0x207 => do req (m == 0); absent r.a; absent r.b; some (.starr c r.d)
  | 0x208 => do req (m == 0); absent r.d; absent r.b; some (.stwait c r.a)
  | 0x209 => do req (m == 0); absent r.b; let d ← asFin 64 r.d; let a ← asFin 64 r.a; some (.hrev c d a)
  | _ => none

/-- Group 9 (R286). -/
def build9 (r : Raw) : Option Instr :=
  let c := r.ctl; let m := r.mod
  match r.opc with
  | 0x240 => do
    req (m < 16); absent r.d; absent r.b; let q ← finOf 4 (m % 4)
    some (.mgath c q (bit m 2) (bit m 3) r.a)
  | 0x241 => do
    req (m < 8); absent r.d; absent r.b; let q ← finOf 4 (m % 4)
    if bit m 2 then some (.mconvStripe c q r.a) else some (.mconvCvt c q r.a)
  | 0x242 => do absent r.d; absent r.b; let q ← finOf 4 m; some (.mxv c q r.a)
  | 0x243 => do absent r.d; absent r.b; let q ← finOf 4 m; some (.mseqwait c q r.a)
  | 0x244 => do
    req (m < 16); absent r.b; let q ← finOf 4 (m % 4); let k ← seqKind (m / 4) r.a
    some (.mrstat c q k r.d)
  | _ => none

/-- Group 10 (R302). -/
def build10 (r : Raw) : Option Instr :=
  let c := r.ctl; let m := r.mod
  match r.opc with
  | 0x280 => do absent r.d; absent r.b; let q ← finOf 64 m; some (.npost c q r.a)
  | 0x281 => do req (m < 2); absent r.b; some (.ncnt c (bit m 0) r.d r.a)
  | 0x282 => do req (m == 0); absent r.d; some (.nwait c r.a r.b)
  | 0x283 => do req (m == 0); absent r.b; some (.rngpeek c r.d r.a)
  | 0x284 => do req (m == 0); some (.rngadv c r.d r.a r.b)
  | 0x285 => do
    req (m < 2); absent r.b
    if bit m 0 then some (.rngstatReset c r.d r.a) else some (.rngstatPeek c r.d r.a)
  | 0x286 => do req (m == 0); absent r.d; absent r.b; some (.nqfence c r.a)
  | _ => none

/-- Group 11 (R111, R125). -/
def build11 (r : Raw) : Option Instr :=
  let c := r.ctl; let m := r.mod
  match r.opc with
  | 0x2C0 => do req (m == 0); absent r.b; let d ← asFin 64 r.d; let a ← asFin 64 r.a; some (.spawn c d a)
  | 0x2C1 => do
    let n ← finOf 55 m; let d ← asFin 64 r.d; let a ← asFin 64 r.a; let b ← asFin 64 r.b
    some (.spawnr c n d a b)
  | 0x2C2 => do req (m == 0); absent r.d; absent r.b; some (.joindec c r.a)
  | 0x2C3 => do
    absent r.d; absent r.b
    if m = 0 then do absent r.a; some (.exit c)
    else if m = 1 then do let a ← asFin 64 r.a; some (.exitJ c a)
    else if m = 2 then do absent r.a; some (.exitK c)
    else none
  | 0x2C4 => do req (m == 0); absent r.a; absent r.b; let d ← asFin 64 r.d; some (.yieldTeam c d)
  | 0x2C5 => do
    absent r.d; absent r.a; absent r.b
    if m = 0 then some (.tret c) else if m = 1 then some (.tretSkip c) else none
  | 0x2C6 => do absent r.a; absent r.b; let k ← WfldKind.ofCode m; some (.wfld c k r.d)
  | 0x2C8 => do req (m == 0); absent r.d; absent r.b; let a ← asFin 64 r.a; some (.claim c a)
  | 0x2C9 => do req (m == 0); absent r.d; absent r.b; let a ← asFin 64 r.a; some (.take c a)
  | 0x2CA => do req (m == 0); absent r.b; let d ← asFin 64 r.d; let a ← asFin 64 r.a; some (.taket c d a)
  | 0x2CB => do req (m == 0); absent r.d; absent r.b; let a ← asFin 64 r.a; some (.give c a)
  | 0x2CC => do req (m == 0); absent r.d; absent r.a; absent r.b; some (.giveall c)
  | 0x2CD => do absent r.a; absent r.b; let k ← HoldKind.ofCode m; some (.hold c k r.d)
  | _ => none

/-- Group 12 (R135). -/
def build12 (r : Raw) : Option Instr :=
  let c := r.ctl; let m := r.mod
  match r.opc with
  | 0x300 => do
    let d ← asFin 64 r.d
    if m = 0 then do absent r.b; some (.smov c d (.short r.a))
    else if m = 1 then do let v ← asLong r.a r.b; some (.smov c d (.sext v))
    else if m = 2 then do let v ← asLong r.a r.b; some (.smov c d (.zext v))
    else none
  | 0x301 => do req (m == 0); let d ← asFin 64 r.d; let v ← asLong r.a r.b; some (.smovh c d v)
  | 0x302 => do req (m == 0); let d ← asFin 64 r.d; some (.sadd c d r.a r.b)
  | 0x303 => do req (m == 0); let d ← asFin 64 r.d; some (.ssub c d r.a r.b)
  | 0x304 => do req (m == 0); let d ← asFin 64 r.d; some (.smul c d r.a r.b)
  | 0x305 => do let u ← sgn m; let d ← asFin 64 r.d; some (.smulhi c u d r.a r.b)
  | 0x306 => do let u ← sgn m; let d ← asFin 64 r.d; some (.sdiv c u d r.a r.b)
  | 0x307 => do let u ← sgn m; let d ← asFin 64 r.d; some (.srem c u d r.a r.b)
  | 0x308 => do let u ← sgn m; let d ← asFin 64 r.d; some (.smin c u d r.a r.b)
  | 0x309 => do let u ← sgn m; let d ← asFin 64 r.d; some (.smax c u d r.a r.b)
  | 0x30A => do req (m == 0); let d ← asFin 64 r.d; some (.sand c d r.a r.b)
  | 0x30B => do req (m == 0); let d ← asFin 64 r.d; some (.sor c d r.a r.b)
  | 0x30C => do req (m == 0); let d ← asFin 64 r.d; some (.sxor c d r.a r.b)
  | 0x30D => do req (m == 0); let d ← asFin 64 r.d; some (.sshl c d r.a r.b)
  | 0x30E => do let u ← sgn m; let d ← asFin 64 r.d; some (.sshr c u d r.a r.b)
  | 0x30F => do req (m == 0); absent r.b; let d ← asFin 64 r.d; some (.spopc c d r.a)
  | 0x310 => do req (m == 0); absent r.b; let d ← asFin 64 r.d; some (.sclz c d r.a)
  | 0x311 => do let q ← finOf 8 m; let d ← asFin 64 r.d; some (.ssel c q d r.a r.b)
  | 0x312 => do
    req (m < 16); let rel ← Rel.ofCode (m % 8); let q ← asFin 8 r.d
    some (.sset c rel (bit m 3) q r.a r.b)
  | 0x313 => do
    req (m < 16); let d ← asFin 8 r.d; let a ← asFin 8 r.a; let b ← asFin 8 r.b
    some (.qlop c (BitVec.ofNat 4 m) d a b)
  | 0x314 => do absent r.d; let o ← asOff m r.a r.b; some (.sbr c o)
  | 0x315 => do req (m == 0); absent r.d; let a ← asFin 64 r.a; let t ← asImm r.b; some (.sbrx c a t)
  | 0x316 => do
    let d ← asFin 64 r.d
    if m = 0 then do absent r.a; let v ← asImm r.b; some (.scall c d (.short v))
    else if m = 1 then do let v ← asLong r.a r.b; some (.scall c d (.long v))
    else if m = 2 then do let a ← asFin 64 r.a; absent r.b; some (.scall c d (.reg a))
    else none
  | 0x317 => do req (m == 0); absent r.d; absent r.b; let a ← asFin 64 r.a; some (.sret c a)
  | 0x318 => do
    absent r.d
    if m = 0 then do absent r.b; some (.dqpush c (.short r.a))
    else if m = 1 then do let v ← asLong r.a r.b; some (.dqpush c (.long v))
    else none
  | 0x319 => do
    absent r.b
    if m = 0 then do absent r.d; absent r.a; some (.wwaitDq c)
    else if m = 1 then do let d ← asFin 64 r.d; let a ← asFin 64 r.a; some (.wwaitExit c d a)
    else none
  | _ => none

/-- Group 13 (R326). -/
def build13 (r : Raw) : Option Instr :=
  let c := r.ctl; let m := r.mod
  match r.opc with
  | 0x340 => do req (m == 0); let n ← asImm r.b; some (.svc c r.d r.a n)
  | 0x341 => do req (m == 0); let n ← asImm r.b; some (.svcp c r.d r.a n)
  | 0x342 => do absent r.d; absent r.b; some (.trap c (BitVec.ofNat 6 m) r.a)
  | 0x343 => do req (m == 0); absent r.d; absent r.b; let v ← asImmOpt r.a; some (.brk c v)
  | 0x344 => do absent r.a; absent r.b; let k ← TdmaskKind.ofCode m; some (.tdmask c k r.d)
  | _ => none

/-- The opcode map (R89). -/
def Raw.build (r : Raw) : Option Instr :=
  match r.opc / 64 with
  | 0 => build0 r | 1 => build1 r | 2 => build2 r | 3 => build3 r | 4 => build4 r | 5 => build5 r
  | 6 => build6 r | 7 => build7 r | 8 => build8 r | 9 => build9 r | 10 => build10 r | 11 => build11 r
  | 12 => build12 r | 13 => build13 r
  | _ => none

/-- The instruction of a word. A reserved opcode is an instruction of its own row, whatever the other fields hold (R90). -/
def decode (w : Word96) : Except DecodeError Instr :=
  if opcAssigned (w.extractLsb' 86 10).toNat then
    match Raw.ofWord w with
    | .error e => .error e
    | .ok r =>
      match r.build with
      | none => .error .modOrKind
      | some i => if i.wf then .ok i else .error .notWellFormed
  else .ok (.reservedOpcodeIssue w)

/-- A word from bytes, the lowest address first (R74). -/
def wordOfBytes : List Byte → Nat
  | [] => 0
  | b :: bs => b.toNat + 256 * wordOfBytes bs

/-- The twelve bytes of a word (R74). -/
def bytesOfNat : Nat → Nat → List Byte
  | 0, _ => []
  | n + 1, w => BitVec.ofNat 8 w :: bytesOfNat n (w / 256)

/-- The decoder on bytes: the first twelve, absent bytes reading as zero. -/
def decodeBytes (bs : List Byte) : Except DecodeError Instr :=
  decode (BitVec.ofNat 96 (wordOfBytes (bs.take 12)))

/-- The instruction this decoder reads from a word whose bits the opcode table numbers from bit 0 of the first byte. -/
def decodeTableWord (nbits w : Nat) : Option Instr :=
  match decodeBytes (bytesOfNat 12 (w % 2 ^ nbits)) with
  | .ok i => some i
  | .error _ => none

-- The encoder.

/-- The long form's A and B (R79). -/
def longA (v : BitVec 32) : Operand := .imm (0#6 ++ v.extractLsb' 19 13)
def longB (v : BitVec 32) : Operand := .imm (v.extractLsb' 0 19)

def immOpt : Option (BitVec 19) → Operand
  | none => Operand.zero
  | some v => .imm v

def regOf (n : Nat) : Operand := .reg (BitVec.ofNat 8 n) false false

def sgnN (u : Bool) : Nat := if u then 8 else 0
def b2n (b : Bool) : Nat := if b then 1 else 0

def Off.raw (opc : Nat) (d : Operand) (c : Ctl) : Off → Raw
  | .short v => ⟨opc, 0, d, .zero, .imm v, c⟩
  | .long v => ⟨opc, 1, d, longA v, longB v, c⟩

def SeqKind.code : SeqKind → Nat
  | .seq => 0 | .enq => 1 | .ticket => 2 | .status _ => 3
def SeqKind.op : SeqKind → Operand
  | .status a => a
  | _ => .zero

/-- The fields of an instruction's word; none for a row that has no word. -/
def Instr.raw : Instr → Option Raw
  | .nop c => some ⟨0x000, 0, .zero, .zero, .zero, c⟩
  | .br c o => some (o.raw 0x001 .zero c)
  | .brd c t j => some ⟨0x002, 0, .zero, .imm t, .imm j, c⟩
  | .brx c a t => some ⟨0x003, 0, .zero, a, .imm t, c⟩
  | .call c d o => some (o.raw 0x004 d c)
  | .ret c a => some ⟨0x005, 0, .zero, a, .zero, c⟩
  | .brq c o => some ⟨0x006, 0, .zero, .zero, .imm o, c⟩
  | .movq c d => some ⟨0x007, 0, d, .zero, .zero, c⟩
  | .ifOpen c s p => some ⟨0x008, 16 * b2n s, .zero, regOf p, .zero, c⟩
  | .elseFlip c => some ⟨0x009, 0, .zero, .zero, .zero, c⟩
  | .endIf c => some ⟨0x00A, 0, .zero, .zero, .zero, c⟩
  | .loop c => some ⟨0x00B, 0, .zero, .zero, .zero, c⟩
  | .brkLoop c s d p => some ⟨0x00C, 16 * b2n s + d.toNat, .zero, regOf p, .zero, c⟩
  | .cont c s d p => some ⟨0x00D, 16 * b2n s + d.toNat, .zero, regOf p, .zero, c⟩
  | .endl c o => some ⟨0x00E, 0, .zero, .zero, .imm o, c⟩
  | .bar c => some ⟨0x00F, 0, .zero, .zero, .zero, c⟩
  | .barTeam c => some ⟨0x00F, 1, .zero, .zero, .zero, c⟩
  | .mov c d (.short a) => some ⟨0x040, 0, d, a, .zero, c⟩
  | .mov c d (.long v) => some ⟨0x040, 1, d, longA v, longB v, c⟩
  | .iadd c d a b => some ⟨0x041, 0, d, a, b, c⟩
  | .isub c d a b => some ⟨0x042, 0, d, a, b, c⟩
  | .imul c d a b => some ⟨0x043, 0, d, a, b, c⟩
  | .imulhi c u d a b => some ⟨0x044, sgnN u, d, a, b, c⟩
  | .imad c d a b => some ⟨0x045, 0, d, a, b, c⟩
  | .idiv c u d a b => some ⟨0x046, sgnN u, d, a, b, c⟩
  | .irem c u d a b => some ⟨0x047, sgnN u, d, a, b, c⟩
  | .imin c u d a b => some ⟨0x048, sgnN u, d, a, b, c⟩
  | .imax c u d a b => some ⟨0x049, sgnN u, d, a, b, c⟩
  | .iabs c d a => some ⟨0x04A, 0, d, a, .zero, c⟩
  | .and c d a b => some ⟨0x04B, 0, d, a, b, c⟩
  | .or c d a b => some ⟨0x04C, 0, d, a, b, c⟩
  | .xor c d a b => some ⟨0x04D, 0, d, a, b, c⟩
  | .not c d a => some ⟨0x04E, 0, d, a, .zero, c⟩
  | .shl c d a b => some ⟨0x04F, 0, d, a, b, c⟩
  | .shr c u d a b => some ⟨0x050, sgnN u, d, a, b, c⟩
  | .popc c d a => some ⟨0x051, 0, d, a, .zero, c⟩
  | .clz c d a => some ⟨0x052, 0, d, a, .zero, c⟩
  | .brev c d a => some ⟨0x053, 0, d, a, .zero, c⟩
  | .bfe c u d a b => some ⟨0x054, sgnN u, d, a, b, c⟩
  | .bfi c d a b => some ⟨0x055, 0, d, a, b, c⟩
  | .sel c p d a b => some ⟨0x056, p.val, d, a, b, c⟩
  | .fadd c x d a b => some ⟨0x080, 16 * x.code, d, a, b, c⟩
  | .fsub c x d a b => some ⟨0x081, 16 * x.code, d, a, b, c⟩
  | .fmul c x d a b => some ⟨0x082, 16 * x.code, d, a, b, c⟩
  | .ffma c x d a b => some ⟨0x083, 16 * x.code, d, a, b, c⟩
  | .fmin c d a b => some ⟨0x084, 0, d, a, b, c⟩
  | .fmax c d a b => some ⟨0x085, 0, d, a, b, c⟩
  | .fabs c d a => some ⟨0x086, 0, d, a, .zero, c⟩
  | .fneg c d a => some ⟨0x087, 0, d, a, .zero, c⟩
  | .pkadd c x f d a b => some ⟨0x088, 16 * x.code + b2n f, d, a, b, c⟩
  | .pkmul c x f d a b => some ⟨0x089, 16 * x.code + b2n f, d, a, b, c⟩
  | .pkfma c x f d a b => some ⟨0x08A, 16 * x.code + b2n f, d, a, b, c⟩
  | .pkmin c f d a b => some ⟨0x08B, b2n f, d, a, b, c⟩
  | .pkmax c f d a b => some ⟨0x08C, b2n f, d, a, b, c⟩
  | .cvt c k x d a => some ⟨0x0C0, 16 * x.code + k.code, d, a, .zero, c⟩
  | .cvt8 c (.mode x) s d a v => some ⟨0x0C1, 16 * x.code + 8 * b2n s, d, a, .imm v, c⟩
  | .cvt8 c .sr s d a v => some ⟨0x0C1, 8 * b2n s + 4, d, a, .imm v, c⟩
  | .cvtf8 c x d a v => some ⟨0x0C2, 16 * x.code, d, a, .imm v, c⟩
  | .sfu c f d a => some ⟨0x0C3, f.code, d, a, .zero, c⟩
  | .iset c rel u p a b => some ⟨0x100, rel.code + sgnN u, regOf p, a, b, c⟩
  | .fset c rel p a b => some ⟨0x101, rel.code, regOf p, a, b, c⟩
  | .plop c tt d a b => some ⟨0x102, tt.toNat, regOf d, regOf a, regOf b, c⟩
  | .pmov c d => some ⟨0x103, 0, d, .zero, .zero, c⟩
  | .pmovP c a => some ⟨0x103, 1, .zero, a, .zero, c⟩
  | .shfl c k p d a b => some ⟨0x104, k.code + 4 * predOptNat p, d, a, b, c⟩
  | .agree c k s d a => some ⟨0x105, k.code + 4 * b2n s, regOf d, regOf a, .zero, c⟩
  | .ballot c s d a => some ⟨0x106, b2n s, d, regOf a, .zero, c⟩
  | .remap c d a => some ⟨0x107, 0, d, a, .zero, c⟩
  | .xwin c x p q => some ⟨0x108, 0, regOf x, .imm p, .imm q, c⟩
  | .xset c x a => some ⟨0x109, 0, regOf x, a, .zero, c⟩
  | .msr c .rng a => some ⟨0x10A, 0, .special 0x010, a, .zero, c⟩
  | .msr c .schk a => some ⟨0x10A, 0, .special 0x011, a, .zero, c⟩
  | .ld c k d a x => some ⟨0x140, k.code, d, a, immOpt x, c⟩
  | .st c k d a x => some ⟨0x141, k.code, d, a, immOpt x, c⟩
  | .ldl c k d a x => some ⟨0x142, k.code, d, a, immOpt x, c⟩
  | .stl c k d a x => some ⟨0x143, k.code, d, a, immOpt x, c⟩
  | .pref c k a x => some ⟨0x144, k.code, .zero, a, immOpt x, c⟩
  | .fence c s => some ⟨0x145, s.code, .zero, .zero, .zero, c⟩
  | .clean c a n => some ⟨0x146, 0, .zero, a, .imm n, c⟩
  | .inval c a n => some ⟨0x147, 0, .zero, a, .imm n, c⟩
  | .atom c k d a b => some ⟨0x180, k.code, d, a, b, c⟩
  | .acas c x o d a b => some ⟨0x181, o.code + 8 * b2n x, d, a, b, c⟩
  | .redM c o f a b => some ⟨0x182, o.code + 4 * f.code, .zero, a, b, c⟩
  | .redC c z a b => some ⟨0x183, z.code, .zero, a, b, c⟩
  | .clk c d => some ⟨0x184, 0, d, .zero, .zero, c⟩
  | .sts c z d a b => some ⟨0x185, b2n z, d, a, b, c⟩
  | .ldas c p z d a b => some ⟨0x186, predOptNat p + 16 * b2n z, d, a, b, c⟩
  | .cwait c a => some ⟨0x187, 0, .zero, a, .zero, c⟩
  | .bara c n d => some ⟨0x188, n.val, d, .zero, .zero, c⟩
  | .barw c n a => some ⟨0x189, n.val, .zero, a, .zero, c⟩
  | .tdclr c d a => some ⟨0x18A, 0, regOf d, regOf a, .zero, c⟩
  | .mma c s d a => some ⟨0x1C0, b2n s, d, a, .zero, c⟩
  | .mmaA c s d a => some ⟨0x1C1, b2n s, d, a, .zero, c⟩
  | .mmaS c s t d a b => some ⟨0x1C2, b2n s + 2 * t.val, d, a, b, c⟩
  | .mcommit c n => some ⟨0x1C3, n.val, .zero, .zero, .zero, c⟩
  | .mwait c n => some ⟨0x1C4, n.val, .zero, .zero, .zero, c⟩
  | .accz c b n => some ⟨0x1C5, 0, .imm b, .imm n, .zero, c⟩
  | .accld c r b a v => some ⟨0x1C6, b2n r, .imm b, a, .imm v, c⟩
  | .accst c k z b a v => some ⟨0x1C7, k.code + 4 * b2n z, .imm b, a, .imm v, c⟩
  | .accfold c b n => some ⟨0x1C8, 0, .imm b, .imm n, .zero, c⟩
  | .shcommit c n => some ⟨0x1C9, n.val, .zero, .zero, .zero, c⟩
  | .shdrop c n => some ⟨0x1CA, n.val, .zero, .zero, .zero, c⟩
  | .cpy c q r d a b => some ⟨0x200, q.val + 8 * r.code, d, a, b, c⟩
  | .cpys c q r d a b => some ⟨0x201, q.val + 8 * r.code, d, a, b, c⟩
  | .cpyx c q r d a b => some ⟨0x202, q.val + 8 * r.code, d, a, b, c⟩
  | .qfence c v => some ⟨0x203, 0, .zero, .imm v, .zero, c⟩
  | .seqrd c q k d => some ⟨0x204, q.val + 8 * k.code, d, k.op, .zero, c⟩
  | .seqwait c q a => some ⟨0x205, q.val, .zero, a, .zero, c⟩
  | .stinit c d a => some ⟨0x206, 0, d, a, .zero, c⟩
  | .starr c d => some ⟨0x207, 0, d, .zero, .zero, c⟩
  | .stwait c a => some ⟨0x208, 0, .zero, a, .zero, c⟩
  | .hrev c d a => some ⟨0x209, 0, regOf d, regOf a, .zero, c⟩
  | .mgath c q g s a => some ⟨0x240, q.val + 4 * b2n g + 8 * b2n s, .zero, a, .zero, c⟩
  | .mconvCvt c q a => some ⟨0x241, q.val, .zero, a, .zero, c⟩
  | .mconvStripe c q a => some ⟨0x241, q.val + 4, .zero, a, .zero, c⟩
  | .mxv c q a => some ⟨0x242, q.val, .zero, a, .zero, c⟩
  | .mseqwait c q a => some ⟨0x243, q.val, .zero, a, .zero, c⟩
  | .mrstat c q k d => some ⟨0x244, q.val + 4 * k.code, d, k.op, .zero, c⟩
  | .npost c q a => some ⟨0x280, q.val, .zero, a, .zero, c⟩
  | .ncnt c e d a => some ⟨0x281, b2n e, d, a, .zero, c⟩
  | .nwait c a b => some ⟨0x282, 0, .zero, a, b, c⟩
  | .rngpeek c d a => some ⟨0x283, 0, d, a, .zero, c⟩
  | .rngadv c d a b => some ⟨0x284, 0, d, a, b, c⟩
  | .rngstatPeek c d a => some ⟨0x285, 0, d, a, .zero, c⟩
  | .rngstatReset c d a => some ⟨0x285, 1, d, a, .zero, c⟩
  | .nqfence c a => some ⟨0x286, 0, .zero, a, .zero, c⟩
  | .spawn c d a => some ⟨0x2C0, 0, regOf d, regOf a, .zero, c⟩
  | .spawnr c n d a b => some ⟨0x2C1, n.val, regOf d, regOf a, regOf b, c⟩
  | .joindec c a => some ⟨0x2C2, 0, .zero, a, .zero, c⟩
  | .exit c => some ⟨0x2C3, 0, .zero, .zero, .zero, c⟩
  | .exitJ c a => some ⟨0x2C3, 1, .zero, regOf a, .zero, c⟩
  | .exitK c => some ⟨0x2C3, 2, .zero, .zero, .zero, c⟩
  | .yieldTeam c d => some ⟨0x2C4, 0, regOf d, .zero, .zero, c⟩
  | .tret c => some ⟨0x2C5, 0, .zero, .zero, .zero, c⟩
  | .tretSkip c => some ⟨0x2C5, 1, .zero, .zero, .zero, c⟩
  | .wfld c k d => some ⟨0x2C6, k.code, d, .zero, .zero, c⟩
  | .claim c a => some ⟨0x2C8, 0, .zero, regOf a, .zero, c⟩
  | .take c a => some ⟨0x2C9, 0, .zero, regOf a, .zero, c⟩
  | .taket c d a => some ⟨0x2CA, 0, regOf d, regOf a, .zero, c⟩
  | .give c a => some ⟨0x2CB, 0, .zero, regOf a, .zero, c⟩
  | .giveall c => some ⟨0x2CC, 0, .zero, .zero, .zero, c⟩
  | .hold c k d => some ⟨0x2CD, k.code, d, .zero, .zero, c⟩
  | .smov c d (.short a) => some ⟨0x300, 0, regOf d, a, .zero, c⟩
  | .smov c d (.sext v) => some ⟨0x300, 1, regOf d, longA v, longB v, c⟩
  | .smov c d (.zext v) => some ⟨0x300, 2, regOf d, longA v, longB v, c⟩
  | .smovh c d v => some ⟨0x301, 0, regOf d, longA v, longB v, c⟩
  | .sadd c d a b => some ⟨0x302, 0, regOf d, a, b, c⟩
  | .ssub c d a b => some ⟨0x303, 0, regOf d, a, b, c⟩
  | .smul c d a b => some ⟨0x304, 0, regOf d, a, b, c⟩
  | .smulhi c u d a b => some ⟨0x305, sgnN u, regOf d, a, b, c⟩
  | .sdiv c u d a b => some ⟨0x306, sgnN u, regOf d, a, b, c⟩
  | .srem c u d a b => some ⟨0x307, sgnN u, regOf d, a, b, c⟩
  | .smin c u d a b => some ⟨0x308, sgnN u, regOf d, a, b, c⟩
  | .smax c u d a b => some ⟨0x309, sgnN u, regOf d, a, b, c⟩
  | .sand c d a b => some ⟨0x30A, 0, regOf d, a, b, c⟩
  | .sor c d a b => some ⟨0x30B, 0, regOf d, a, b, c⟩
  | .sxor c d a b => some ⟨0x30C, 0, regOf d, a, b, c⟩
  | .sshl c d a b => some ⟨0x30D, 0, regOf d, a, b, c⟩
  | .sshr c u d a b => some ⟨0x30E, sgnN u, regOf d, a, b, c⟩
  | .spopc c d a => some ⟨0x30F, 0, regOf d, a, .zero, c⟩
  | .sclz c d a => some ⟨0x310, 0, regOf d, a, .zero, c⟩
  | .ssel c q d a b => some ⟨0x311, q.val, regOf d, a, b, c⟩
  | .sset c rel u q a b => some ⟨0x312, rel.code + sgnN u, regOf q, a, b, c⟩
  | .qlop c tt d a b => some ⟨0x313, tt.toNat, regOf d, regOf a, regOf b, c⟩
  | .sbr c o => some (o.raw 0x314 .zero c)
  | .sbrx c a t => some ⟨0x315, 0, .zero, regOf a, .imm t, c⟩
  | .scall c d (.short v) => some ⟨0x316, 0, regOf d, .zero, .imm v, c⟩
  | .scall c d (.long v) => some ⟨0x316, 1, regOf d, longA v, longB v, c⟩
  | .scall c d (.reg a) => some ⟨0x316, 2, regOf d, regOf a, .zero, c⟩
  | .sret c a => some ⟨0x317, 0, .zero, regOf a, .zero, c⟩
  | .dqpush c (.short a) => some ⟨0x318, 0, .zero, a, .zero, c⟩
  | .dqpush c (.long v) => some ⟨0x318, 1, .zero, longA v, longB v, c⟩
  | .wwaitDq c => some ⟨0x319, 0, .zero, .zero, .zero, c⟩
  | .wwaitExit c d a => some ⟨0x319, 1, regOf d, regOf a, .zero, c⟩
  | .svc c d a n => some ⟨0x340, 0, d, a, .imm n, c⟩
  | .svcp c d a n => some ⟨0x341, 0, d, a, .imm n, c⟩
  | .trap c k a => some ⟨0x342, k.toNat, .zero, a, .zero, c⟩
  | .brk c v => some ⟨0x343, 0, .zero, immOpt v, .zero, c⟩
  | .tdmask c k d => some ⟨0x344, k.code, d, .zero, .zero, c⟩
  | _ => none

/-- The word of an instruction; none for an event row. A reserved opcode keeps the word it came in. -/
def encode (i : Instr) : Option Word96 :=
  match i with
  | .reservedOpcodeIssue w => some w
  | i => i.raw.map Raw.toWord

end Sys2Proof
end

