-- ==== Sys2Proof/Machine/Fetch.lean ====
section
/-!
DEFINITION. Fetching code (R74, R75): translation with the fetch permission, and each line either as it was when the block was
admitted or as it is.
-/
namespace Sys2Proof.Machine

/-- A line as it was when a block was admitted, if it has changed since (R75), as a reader with `key` sees it. -/
def PMem.lineAtAdmission (m : PMem) (adm key line : Nat) : Option (List Byte) :=
  (m.old.find? fun o => o.line == line && decide (adm ≤ o.adm)).map fun o => underKey o.key key line o.data

/-- One code byte at a physical address. Each line is read in its old or its new form on its own. -/
def State.codeByte (s : State) (adm keyid a : Nat) : Byte :=
  match s.phys.lineAtAdmission adm (s.phys.key (lineOf a) keyid) (lineOf a) with
  | some d => if Config.fetchOld (Nat.pair s.fresh (lineOf a)) then d.getD (a % 128) 0 else (s.readHome keyid a 1).getD 0 0
  | none => (s.readHome keyid a 1).getD 0 0

/-- `n` bytes of code at `va`, served by their homes (R321). A page that fails XLATE or a check stops with `tr` as TRADDR: the instruction's own address, or
the table's. -/
def State.fetch (s : State) (aid : Nat) (b : Block) (tr : Addr54) (va : Addr54) (n : Nat) :
    Except Stop (State × List Byte) :=
  let addrs := (List.range n).map fun i => (va + BitVec.ofNat 54 i).toNat
  let pages := dedup (addrs.map pageOf)
  let (s, xs) := s.xlateAll aid b.die (some b.gcore) b.ctx (pages.map fun p => p * 2 ^ 16)
  if xs.any fun x => x == .wait then waitOn .other s
  else
    match xs.findSome? fun x => (match x with
      | .fail aux => some aux
      | _ => none) with
    | some aux => flt fXlate aux tr.toNat
    | none =>
      let both := pages.zip xs
      let bad := both.findSome? fun p =>
        match p.2 with
        | .done t => s.checkPage b.die .fetch t.pte (t.phys (p.1 * 2 ^ 16))
        | _ => none
      match bad with
      | some f => flt f.code f.aux tr.toNat
      | none =>
        -- a free value is drawn only where a line has changed under a resident block
        let t := if s.phys.old.isEmpty then s else s.freeIx.2
        let homes := dedup (both.filterMap fun p => match p.2 with
          | .done x => some (s.phys.homeDie (x.phys (p.1 * 2 ^ 16)))
          | _ => none)
        .ok (homes.foldl (fun (t : State) d => t.touch b.ctx d) t, addrs.map fun a =>
          match both.find? fun p => p.1 == pageOf a with
          | some (_, .done t) => s.codeByte b.adm (pteKeyid t.pte) (t.phys a)
          | _ => 0)

/-- A target table's header and one entry (R136): COUNT, whether a must-be-zero bit is set, JOIN. A failed translation has T in
TRADDR (R136). -/
def State.tableHead (s : State) (aid : Nat) (b : Block) (t : Addr54) :
    Except Stop (State × Nat × Bool × Int) :=
  match s.fetch aid b t t 8 with
  | .error e => .error e
  | .ok (s, l) =>
    .ok (s, leNat (l.take 2), leNat ((l.drop 2).take 2) != 0, (BitVec.ofNat 32 (leNat (l.drop 4))).toInt)

def State.tableEntry (s : State) (aid : Nat) (b : Block) (t : Addr54) (i : Nat) :
    Except Stop (State × Addr54) :=
  match s.fetch aid b t (t + BitVec.ofNat 54 (8 + 4 * i)) 4 with
  | .error e => .error e
  | .ok (s, l) => .ok (s, branchTo t (BitVec.ofNat 32 (leNat l)).toInt)

end Sys2Proof.Machine
end

