-- ==== Sys2Proof/Machine/Harrow.lean ====
section
/-!
DEFINITION. Block-wide divergence (R148 to R155, R42): meetings, packing into compacted warps, the reconvergence stack, path
ends and joins; the decision queue's pops (R129, R130); the block barriers (R173).
-/
namespace Sys2Proof.Machine

/-- The warps that run now and have not ended. -/
def Block.running (b : Block) : List Warp := b.warps.filter fun w => !w.ended && warpAlive b w

/-- A warp with no live thread has ended. -/
def Block.endWarps (b : Block) : Block :=
  { b with warps := b.warps.map fun w => if warpAlive b w then w else { w with ended := true } }

/-- Every pending result of the running warps takes effect and their bypasses empty (R86, R144), warp by warp: of two XWINs of one home
window the later warp's stands (log entry 78). -/
def Block.settleWarps (b : Block) : Block := b.running.foldl (fun b w => (settleAll b w).1) b

/-- Whether every access of the running warps is performed at a scope, as a fence would wait for it (R42, R173). Accesses of paths that
are not running, and of warps that have ended, are none of these. -/
def State.warpsSettled (s : State) (b : Block) (sc : Scope) : Bool :=
  b.running.all fun w => s.agentSettled true sc w.aid

/-- Whether every access issued on the paths of a stack entry is performed at BLK scope (R42). -/
def State.pathsSettled (s : State) (e : StackEnt) : Bool := e.aids.all (s.agentSettled true .blk)

-- Packing (R149).

/-- The threads of home column `c`, ascending. -/
def column (ts : List Nat) (c : Nat) : List Nat := ts.filter fun t => t % 32 == c

/-- The slots of compacted warp `k`. -/
def packLanes (ts : List Nat) (k : Nat) : List (Option Nat) := (List.range 32).map fun c => (column ts c)[k]?

def packCount (ts : List Nat) : Nat := maxOf ((List.range 32).map fun c => (column ts c).length)

/-- A warp as it starts: empty bypass and pending list. -/
def Warp.fresh (k aid : Nat) (pc : Addr54) (lanes : List (Option Nat)) : Warp where
  k := k
  aid := aid
  pc := pc
  lanes := lanes
  byp := []
  pend := []
  clock := 0
  since := 3
  wait := .none
  waive := false
  ended := false
  openB := []
  batches := List.replicate 4 ⟨false, []⟩
  binds := []
  pre := []
  tickets := List.replicate 12 0

/-- Compacted warps 0 to n - 1, each a new agent (R42). -/
def packFrom (blk die : Nat) (pc : Addr54) (ts : List Nat) (k : Nat) : Nat → State → State × List Warp
  | 0, s => (s, [])
  | n + 1, s =>
    let (aid, s) := s.newId
    let s := s.setAgent aid ⟨.warp blk k, die, [], [], []⟩
    let (s, l) := packFrom blk die pc ts (k + 1) n s
    (s, Warp.fresh k aid pc (packLanes ts k) :: l)

/-- The remapping table for the warps that run (R155). -/
def remapOf (b : Block) (ws : List Warp) : List (BitVec 8) :=
  (List.range b.threads.length).map fun t =>
    match ws.find? fun w => w.lanes.contains (some t) with
    | some w => if (b.thread t).live then BitVec.ofNat 8 (w.k + 32) else 0
    | none => 0

/-- The agents of the path that starts join those of the top entry (R42). -/
def pathAids (ws : List Warp) : List StackEnt → List StackEnt
  | [] => []
  | e :: rest => { e with aids := e.aids ++ ws.map Warp.aid } :: rest

/-- Threads of the block become the compacted warps of a path that starts at `pc`. -/
def State.startPath (s : State) (b : Block) (ts : List Nat) (pc : Addr54) : State :=
  let (s, ws) := packFrom b.id b.die pc ts 0 (packCount ts) s
  let b := { b with warps := ws, stack := pathAids ws b.stack }
  s.setBlock { b with remap := remapOf b ws }

-- The stack (R152, R153).

def tagParked : Nat := 0xFFFF
def tagExited : Nat := 0xFFFE
def tagOutside : Nat := 0xFFFD

def StackEnt.start (e : StackEnt) (tag : Nat) (entry : Addr54) : Addr54 :=
  match e.kind with
  | .brx => entry
  | _ => if tag = 0 then e.basepc else e.altpc

/-- The threads of a path that still live. -/
def StackEnt.pathThreads (e : StackEnt) (b : Block) (tag : Nat) : List Nat :=
  (List.range b.threads.length).filter fun t => e.tags.getD t tagOutside == tag && (b.thread t).live

/-- The tag of the next path: the least one above the tag that runs. -/
def StackEnt.next (e : StackEnt) : Option Nat :=
  match (e.tags.filter fun t => decide (e.cur < t) && decide (t < tagOutside)) with
  | [] => none
  | l => some (minOf l)

def Block.entrySize (b : Block) : Nat := (32 + 2 * b.nThreads + 63) / 64 * 64

/-- KIND as its code (R152). -/
def MeetKind.code : MeetKind → Nat
  | .brd => 0
  | .brx => 1
  | .call => 2

/-- The bytes of an entry (R152): four words, two bytes for each tag, zeros up to the entry's size. -/
def StackEnt.image (e : StackEnt) (size : Nat) : List Byte :=
  let l := leBytes 8 (e.joinpc.toNat + e.kind.code * 2 ^ 54) ++ leBytes 8 (e.cur + e.last * 2 ^ 16) ++
    leBytes 8 e.basepc.toNat ++ leBytes 8 e.altpc.toNat ++ e.tags.flatMap (leBytes 2)
  l ++ List.replicate (size - l.length) 0

/-- A push spills the oldest on-chip entry (R153): its bytes are placed above those spilled before it, from the headland's lowest
byte. -/
def Block.spill (b : Block) : Block :=
  match b.stack[7]? with
  | some e => { b with clm := putBytes b.clm (cellsFrom (b.headLo + (b.stack.length - 8) * b.entrySize) (e.image b.entrySize)) }
  | none => b

/-- Whether a push finds room (R153). -/
def Block.canPush (b : Block) : Bool :=
  b.stack.length < 8 || decide (b.stack.length - 7 ≤ 4096 * b.hdr.hdlg / b.entrySize)

/-- A path has ended (R150): its warps have reached the join, or have ended. A parked warp has not reached it (R267), nor has one that
speculates: a roll-back may take it back to its SVCP (R328). -/
def Block.pathDone (b : Block) : Bool :=
  match b.stack with
  | [] => false
  | e :: _ => b.warps.all fun w => w.ended || !warpAlive b w || (w.pc == e.joinpc && !w.wait.isPark && (b.specOf w.aid).isNone)

/-- A path's start address. A BRX entry's is read from its table when the path starts. -/
def State.pathStart (s : State) (b : Block) (e : StackEnt) (tag : Nat) : Except Stop (State × Addr54) :=
  match e.kind with
  | .brx => s.tableEntry 0 b e.basepc tag
  | _ => .ok (s, e.start tag 0)

/-- A path that cannot start yet, because its table is not readable: the walk is awaited, or the failure is taken as a trap of the
lowest-numbered running warp, which waits at the join (log entry 68). -/
def State.pathFault (s : State) (b : Block) (e : StackEnt) : Stop → State
  | .wait _ t => t
  | .trap x =>
    takeTrap (s.dropFails b.die 0) b.id ⟨x.code, e.joinpc, x.addr, x.aux, minOf (b.running.map Warp.k), 0⟩

/-- After the last path (R150): home warps resume, or the enclosing path is packed again. -/
def State.popStack (s : State) (b : Block) (e : StackEnt) (rest : List StackEnt) : State :=
  match rest with
  | [] =>
    let ws := b.parked.map fun w =>
      { w with pc := e.joinpc, wait := .none, byp := [], pend := [], tickets := List.replicate 12 0 }
    let b := ({ b with stack := [], parked := [], warps := ws }).endWarps
    s.setBlock { b with remap := remapOf b b.warps }
  | o :: _ =>
    s.startPath { b with stack := rest } (o.pathThreads b o.cur) e.joinpc

/-- Path ends and joins, as far as they go now. The join of the last path waits until every access on the paths is performed at
BLK scope (R42). -/
def State.advancePaths (blk : Nat) : Nat → State → State
  | 0, s => s
  | fuel + 1, s =>
    match s.block blk with
    | none => s
    | some b =>
      if !b.pathDone then s
      else
        match b.stack with
        | [] => s
        | e :: rest =>
          let b := b.settleWarps
          match e.next with
          | some tag =>
            match s.pathStart b e tag with
            | .ok (s, pc) =>
              (s.startPath { b with stack := { e with cur := tag } :: rest } (e.pathThreads b tag) pc).advancePaths
                blk fuel
            | .error x => s.pathFault b e x
          | none => if s.pathsSettled e then (s.popStack b e rest).advancePaths blk fuel else s

def pathFuel (b : Block) : Nat := (b.stack.length + 1) * (b.threads.length + 2)

/-- A warp stands at the join of the path that runs (R150): it does not execute there. -/
def Block.atJoin (b : Block) (w : Warp) : Bool :=
  match b.stack with
  | e :: _ => w.pc == e.joinpc
  | [] => false

def State.joinStep (s : State) (b : Block) (w : Warp) : State :=
  (setWaitW s b.id w.k .join).advancePaths b.id (pathFuel b)

-- Meetings (R148).

/-- Whether every running warp waits at a meeting at this address, the issuing one included. -/
def meetingReady (b : Block) (w : Warp) : Bool :=
  b.running.all fun x => x.k == w.k || (x.wait == .meet && x.pc == w.pc)

/-- A lane of the meeting: warp, slot, thread. -/
def meetingLanes (b : Block) : List (Warp × Nat × Nat) :=
  b.running.flatMap fun w => (liveLanes b w).map fun l => (w, l.1, l.2)

/-- The tags of every thread of the block (R148, R152). -/
def meetingTags (b : Block) (tag : Warp → Nat → Nat) : List Nat :=
  let ls := meetingLanes b
  (List.range b.threads.length).map fun t =>
    match ls.find? fun l => l.2.2 == t with
    | some l => if (b.thread t).nest ≠ 0 then tagParked else tag l.1 t
    | none => if (b.thread t).live then tagOutside else tagExited

/-- The path tags that occur, ascending. -/
def pathTags (tags : List Nat) : List Nat :=
  (List.range (maxOf (tags.map fun t => if t < tagOutside then t + 1 else 0))).filter fun x => tags.contains x

/-- Every running warp goes on at `pc` after the meeting, its tickets cleared (R256); the remapping table follows the threads that
have exited since (R155). -/
def Block.sendAll (b : Block) (c : Ctl) (pc : Addr54) : Block :=
  let b' := b.running.foldl (fun b w => b.setWarp { w.advanceTo c pc with tickets := List.replicate 12 0 }) b
  { b' with remap := remapOf b' b'.running }

/-- Write the link of CALL in threads (R169). -/
def writeLink (b : Block) (d : Operand) (link : Addr54) (ts : List Nat) : Block :=
  b.putCells (ts.flatMap fun t =>
    let n := regOf b t d
    [(.v t n, (link.setWidth 32).toNat), (.v t (n + 1), (link.extractLsb' 32 22).toNat)])

/-- The meeting pushes an entry, after a spill where eight are on chip, and its first path starts; the home warps are kept where the
stack was empty. -/
def State.pushMeeting (s : State) (b : Block) (e : StackEnt) (pc : Addr54) : State :=
  let b := b.spill
  let b := if b.stack.isEmpty then { b with parked := b.warps.map fun w => { w with wait := .join } } else b
  let s := s.startPath { b with stack := e :: b.stack } (e.pathThreads b e.cur) pc
  s.advancePaths b.id ((b.stack.length + 2) * (b.threads.length + 2))

-- The decision queue (R129, R130).

/-- Entries every live warp has passed are freed. -/
def Block.freeDq (b : Block) : Block :=
  let live := b.liveHomes
  let low := if live.isEmpty then b.push
    else minOf (live.map fun h => (b.homes.getD h ⟨[], false, 0⟩).rdpos)
  { b with dq := b.dq.drop (low - b.dqBase), dqBase := max b.dqBase low }

/-- The home warps a running warp pops for: those with a live thread in it. -/
def popHomes (b : Block) (w : Warp) : List Nat := dedup ((liveLanes b w).map fun l => l.2 / 32)

def Block.rdpos (b : Block) (h : Nat) : Nat := (b.homes.getD h ⟨[], false, 0⟩).rdpos

/-- The entry at a home warp's position. -/
def Block.dqAt (b : Block) (h : Nat) : Word64 := b.dq.getD (b.rdpos h - b.dqBase) 0

/-- Whether a pop can be made: its wait, or DQ.CLOSED. -/
def popCheck (e : WEnv) : Except Stop Unit :=
  if (popHomes e.b e.w).any fun h => decide (e.b.push ≤ e.b.rdpos h) then
    if e.b.closed then flt fDqClosed 0 else waitOn .pop e.s
  else .ok ()

/-- Every position the pop names advances by one. -/
def advancePops (b : Block) (w : Warp) : Block :=
  ((popHomes b w).foldl (fun b h => { b with homes := b.homes.modify h fun x => { x with rdpos := x.rdpos + 1 } })
    b).freeDq

-- Block barriers (R173).

/-- Whether every running warp of a block waits at a barrier of a kind, the issuing one included. -/
def barHolds (b : Block) (team : Bool) (self : Option Nat) : Bool :=
  b.running.all fun w => some w.k == self || w.wait == .bar team

/-- The barrier completes for a block. -/
def Block.barDone (b : Block) (c : Ctl) : Block :=
  let b := b.settleWarps
  b.running.foldl (fun b w => b.setWarp (w.advance c)) b

end Sys2Proof.Machine
end

