-- ==== Sys2Proof/Machine/WarpControl.lean ====
section
/-!
DEFINITION. Group 0 of the warp engine (R162 to R173): branches, meetings, calls, pops, structured divergence and the block
barriers.
-/
namespace Sys2Proof.Machine

/-- The next state of a warp instruction that goes on at `pc`. -/
def retireTo (s : State) (e : WEnv) (i : Instr) (pc : Addr54) : State :=
  ({ e with s := s }).put (killMarks e.b e.eff i) (e.w.advanceTo e.c pc)

/-- NOP (R163), on either engine. -/
def execNop (c : Ctl) (s : State) : Host.Outcome State Fault Refusal :=
  issue (.nop c) c (fun e => .ok (e.put e.b (e.w.advance c))) (fun e => .ok (e.put e.q.advance)) s

/-- Whether the guard is uniform in the lanes that count (R147): its value, or BR.NONUNIFORM. -/
def uniformGuard (e : WEnv) : Except Stop Bool :=
  let s := countedLanes e.b e.w
  let t := s.filter fun l => guardHolds e.b e.c l.2
  if s.isEmpty || t.isEmpty then .ok false
  else if t.length = s.length then .ok true
  else flt fBrNonuniform 0

/-- BR (R164). -/
def execBr (c : Ctl) (off : Off) (s : State) : Host.Outcome State Fault Refusal :=
  issueW (.br c off) c (fun e =>
    match uniformGuard e with
    | .error x => .error x
    | .ok taken => .ok (e.put e.b (e.w.advanceTo c (if taken then branchTo e.w.pc (offInt off) else e.w.pc + 12)))) s

/-- A meeting instruction (R148): wait, or act once for the whole running set. `tag` is a thread's tag in its warp, `act` what
happens where every acting thread has one tag, `entry` the stack entry with the start of its first path. -/
def meeting (e : WEnv) (c : Ctl) (tag : Block → Warp → Nat → Nat) (act : State → Block → Nat → Except Stop State)
    (entry : State → Block → List Nat → List Nat → Except Stop (State × Block × StackEnt × Addr54)) :
    Except Stop State :=
  let waiting := setWaitW e.s e.b.id e.w.k .meet
  if !meetingReady e.b e.w then waitOn .meet e.s
  else
    let b := e.b.settleWarps
    let tags := meetingTags b (tag b)
    match pathTags tags with
    | [] => .ok (e.s.setBlock (b.sendAll c (e.w.pc + 12)))
    | [x] => act e.s b x
    | ts =>
      if !e.s.warpsSettled e.b .blk then .ok waiting
      else if !b.canPush then flt fAccess 2
      else
        match entry e.s b tags ts with
        | .error x => .error x
        | .ok (s, b, ent, pc) => .ok (s.pushMeeting b ent pc)

/-- BRD (R167). -/
def execBrd (c : Ctl) (target join : BitVec 19) (s : State) : Host.Outcome State Fault Refusal :=
  issueW (.brd c target join) c (fun e =>
    let taken := branchTo e.w.pc target.toInt
    let fall := e.w.pc + 12
    meeting e c (fun b _ t => if guardHolds b c t then 0 else 1)
      (fun s b x => .ok (s.setBlock (b.sendAll c (if x = 0 then taken else fall))))
      (fun s b tags ts => .ok (s, b, {
        joinpc := branchTo e.w.pc join.toInt, kind := .brd, cur := 0, last := maxOf ts
        basepc := taken, altpc := fall, tags := tags, aids := [] }, taken))) s

/-- The index of a thread at a BRX. -/
def brxIndex (b : Block) (w : Warp) (a : Operand) (t : Nat) : Nat := (readV b w t (regOf b t a)).toNat

/-- BRX (R168). Its faults name the warp of the lowest-numbered faulting thread; every warp of the meeting waits at it again
after TRET. -/
def execBrx (c : Ctl) (a : Operand) (table : BitVec 19) (s : State) : Host.Outcome State Fault Refusal :=
  issueW (.brx c a table) c (fun e =>
    let t := branchTo e.w.pc table.toInt
    if !meetingReady e.b e.w then waitOn .meet e.s
    else
      let b0 := e.b.settleWarps
      let lanes := (meetingLanes b0).filter fun l => (b0.thread l.2.2).nest == 0
      let waiting := setWaitW e.s e.b.id e.w.k .meet
      if lanes.isEmpty then .ok (e.s.setBlock (b0.sendAll c (e.w.pc + 12)))
      else
        match e.s.tableHead e.w.aid e.b t with
        | .error x => .error x
        | .ok (s1, count, mbz, join) =>
          if mbz then flt fBrxTarget 1 t.toNat
          else
            let bad := lanes.filter fun l => decide (count ≤ brxIndex b0 l.1 a l.2.2)
            match bad.map fun l => l.2.2 with
            | x :: r =>
              let low := minOf (x :: r)
              let k := match bad.find? fun l => l.2.2 == low with
                | some l => l.1.k
                | none => e.w.k
              let mask := maskOf ((bad.filter fun l => l.1.k == k).map fun l => l.2.1)
              .ok (takeTrap waiting e.b.id ⟨fBrxTarget, e.w.pc, t.toNat, 0, k, mask⟩)
            | [] =>
              let dead := (match a with
                | .reg n true _ => lanes.foldl (fun b l => b.modThread l.2.2 fun th => th.kill n.toNat) b0
                | _ => b0)
              let ix := lanes.map fun l => (l.2.2, brxIndex b0 l.1 a l.2.2)
              let one := (ix.map Prod.snd).headD 0
              let tag (t : Nat) : Nat := match ix.find? fun p => p.1 == t with
                | some p => p.2
                | none => 0
              let tags := meetingTags b0 (fun _ t => tag t)
              let paths := if ix.all fun p => p.2 == one then [one] else pathTags tags
              match paths with
              | [] => .ok (s1.setBlock (dead.sendAll c (e.w.pc + 12)))
              | x :: r =>
                match s1.tableEntry e.w.aid e.b t x with
                | .error z => .error z
                | .ok (s2, start) =>
                  if ix.all fun p => p.2 == one then .ok (s2.setBlock (dead.sendAll c start))
                  else if !s2.warpsSettled e.b .blk then .ok waiting
                  else if !b0.canPush then flt fAccess 2
                  else .ok (s2.pushMeeting dead {
                    joinpc := branchTo t join, kind := .brx, cur := x, last := maxOf (x :: r)
                    basepc := t, altpc := 0, tags := tags, aids := [] } start)) s

/-- CALL (R169): unguarded a warp's own, guarded a meeting. -/
def execCall (c : Ctl) (d : Operand) (off : Off) (s : State) : Host.Outcome State Fault Refusal :=
  issueW (.call c d off) c (fun e =>
    let target := branchTo e.w.pc (offInt off)
    let link := e.w.pc + 12
    if c.guard = .always then
      let cells := pairCells e d (link.setWidth 64)
      let w := (e.w.supersede (cells.map Prod.fst)).pushByp ⟨e.w.clock, [], false⟩
      .ok (e.put (e.b.putCells cells) (w.advanceTo c target))
    else
      let acting (b : Block) : List Nat :=
        ((meetingLanes b).map fun l => l.2.2).filter fun t => (b.thread t).nest == 0 && guardHolds b c t
      meeting e c (fun b _ t => if guardHolds b c t then 0 else 1)
        (fun s b x =>
          if x = 0 then .ok (s.setBlock ((writeLink b d link (acting b)).sendAll c target))
          else .ok (s.setBlock (b.sendAll c link)))
        (fun s b tags ts => .ok (s, writeLink b d link (acting b), {
          joinpc := link, kind := .call, cur := 0, last := maxOf ts
          basepc := target, altpc := link, tags := tags, aids := [] }, target))) s

/-- RET (R170). -/
def execRet (c : Ctl) (a : Operand) (s : State) : Host.Outcome State Fault Refusal :=
  issueW (.ret c a) c (fun e =>
    match e.eff.map fun l => addr54 (regV e l a 0) (regV e l a 1) with
    | [] => .ok (retire e.s e (.ret c a))
    | x :: r =>
      if r.any fun y => y != x then flt fBrNonuniform 0
      else if x.toNat % 4 ≠ 0 then flt fAlign 0 x.toNat
      else .ok (retireTo e.s e (.ret c a) x)) s

/-- BRQ (R165). -/
def execBrq (c : Ctl) (off : BitVec 19) (s : State) : Host.Outcome State Fault Refusal :=
  issueW (.brq c off) c (fun e =>
    match popCheck e with
    | .error x => .error x
    | .ok () =>
      let vals := (popHomes e.b e.w).map fun h => e.b.dqAt h != 0
      if vals.any id && !vals.all id then flt fBrNonuniform 0
      else
        let pc := if vals.any id then branchTo e.w.pc off.toInt else e.w.pc + 12
        .ok (e.put (advancePops e.b e.w) (e.w.advanceTo c pc))) s

/-- MOVQ (R166). -/
def execMovq (c : Ctl) (d : Operand) (s : State) : Host.Outcome State Fault Refusal :=
  issueW (.movq c d) c (fun e =>
    match popCheck e with
    | .error x => .error x
    | .ok () =>
      let cells := e.eff.flatMap fun l =>
        let v := e.b.dqAt (l.2 / 32)
        let n := regOf e.b l.2 d
        [(Cell.v l.2 n, (v.setWidth 32).toNat), (Cell.v l.2 (n + 1), (v.extractLsb' 32 32).toNat)]
      .ok (retireNow { e with b := advancePops e.b e.w } (.movq c d) cells)) s

-- Structured divergence (R171, R172): every live lane of the warp, whatever its counter.

/-- Counters change by `f`; one that would pass 15 faults NEST.OVERFLOW with its lanes (R146). -/
def nestStep (e : WEnv) (f : Nat → Nat → Nat) : Except Stop Block :=
  let ls := liveLanes e.b e.w
  let ovfl := ls.filter fun l => decide (15 < f l.2 (e.b.thread l.2).nest)
  if ovfl.isEmpty then
    .ok (ls.foldl (fun b l => b.modThread l.2 fun th => { th with nest := f l.2 th.nest }) e.b)
  else fltLanes fNestOverflow 0 0 (lanesMask ovfl)

def nestOp (i : Instr) (c : Ctl) (f : WEnv → Nat → Nat → Nat) (s : State) : Host.Outcome State Fault Refusal :=
  issueW i c (fun e =>
    match nestStep e (f e) with
    | .error x => .error x
    | .ok b => .ok (e.put b (e.w.advance c))) s

/-- "holds(l)" (R171). -/
def senseHolds (b : Block) (sense : Bool) (p : PReg) (t : Nat) : Bool := (b.thread t).getP p.val != sense

def execIf (c : Ctl) (sense : Bool) (p : PReg) (s : State) : Host.Outcome State Fault Refusal :=
  nestOp (.ifOpen c sense p) c (fun e t n => nestIf n (senseHolds e.b sense p t)) s

def execElse (c : Ctl) (s : State) : Host.Outcome State Fault Refusal :=
  nestOp (.elseFlip c) c (fun _ _ n => nestElse n) s

def execEndif (c : Ctl) (s : State) : Host.Outcome State Fault Refusal :=
  nestOp (.endIf c) c (fun _ _ n => nestEndIf n) s

def execLoop (c : Ctl) (s : State) : Host.Outcome State Fault Refusal :=
  nestOp (.loop c) c (fun _ _ n => nestLoop n) s

def execBrkLoop (c : Ctl) (sense : Bool) (depth : BitVec 4) (p : PReg) (s : State) :
    Host.Outcome State Fault Refusal :=
  nestOp (.brkLoop c sense depth p) c (fun e t n => nestBrk depth.toNat n (senseHolds e.b sense p t)) s

def execCont (c : Ctl) (sense : Bool) (depth : BitVec 4) (p : PReg) (s : State) :
    Host.Outcome State Fault Refusal :=
  nestOp (.cont c sense depth p) c (fun e t n => nestCont depth.toNat n (senseHolds e.b sense p t)) s

def execEndl (c : Ctl) (off : BitVec 19) (s : State) : Host.Outcome State Fault Refusal :=
  issueW (.endl c off) c (fun e =>
    match nestStep e (fun _ n => nestNext n) with
    | .error x => .error x
    | .ok b =>
      if (liveLanes b e.w).any fun l => (b.thread l.2).nest == 0 then
        .ok (e.put b (e.w.advanceTo c (branchTo e.w.pc off.toInt)))
      else
        let b := (liveLanes b e.w).foldl (fun b l =>
          b.modThread l.2 fun th => { th with nest := nestExit th.nest }) b
        .ok (e.put b (e.w.advance c))) s

/-- BAR (R173): as a FENCE at BLK scope, then the rendezvous. -/
def execBar (c : Ctl) (s : State) : Host.Outcome State Fault Refusal :=
  issueW (.bar c) c (fun e =>
    if barHolds e.b false (some e.w.k) && e.s.warpsSettled e.b .blk then .ok (e.s.setBlock (e.b.barDone c))
    else waitOn (.bar false) e.s) s

/-- The other blocks of a team that are resident (R173: a block that has ended counts as arrived). -/
def State.teamBlocks (s : State) (team : Nat) : List Block :=
  (s.task.blocks.map Prod.snd).filter fun b => b.team == team

/-- BAR.TEAM (R173). The parties of a block in a trap handler wait again after TRET (R27): none of them is at the barrier. -/
def execBarTeam (c : Ctl) (s : State) : Host.Outcome State Fault Refusal :=
  issueW (.barTeam c) c (fun e =>
    let bs := e.s.teamBlocks e.b.team
    let ready := bs.all fun b =>
      (if b.id = e.b.id then barHolds e.b true (some e.w.k) else b.hst == .run && barHolds b true none) &&
        e.s.warpsSettled b .cls
    if ready then
      .ok (bs.foldl (fun s b => s.setBlock ((if b.id = e.b.id then e.b else b).barDone c)) e.s)
    else waitOn (.bar true) e.s) s

end Sys2Proof.Machine
end

