-- ==== Sys2Proof/Machine/Engines.lean ====
section
/-!
DEFINITION. What every engine shares: queues, sequence numbers, status rings, biases and tickets (R256, R275), the chain pool
(R257), handles (R258, R259), the enqueue, BEGIN's conditions and COMPLETE's effects (R43), stile signals (R265), observation
(R45) and the accesses an entry makes.
-/
namespace Sys2Proof.Machine

-- Queues.

def State.queue (s : State) : QueueId → QueueRec
  | .cq c q => (s.core c).cq.getD q QueueRec.reset
  | .bq c q => (s.core c).bq.getD q QueueRec.reset
  | .nq c q => agetD q QueueRec.reset (s.core c).nq
  | .mat _ => QueueRec.reset

def State.modQueue (s : State) (q : QueueId) (f : QueueRec → QueueRec) : State :=
  match q with
  | .cq c k => s.modCore c fun x => { x with cq := x.cq.modify k f }
  | .bq c k => s.modCore c fun x => { x with bq := x.bq.modify k f }
  | .nq c k => s.modCore c fun x => { x with nq := aset k (f (agetD k QueueRec.reset x.nq)) x.nq }
  | .mat _ => s

/-- The place of a queue among the twelve that have a bias and tickets. -/
def QueueId.ix : QueueId → Option Nat
  | .cq _ q => some q
  | .bq _ q => some (8 + q)
  | _ => none

def Block.biasOf (b : Block) (q : QueueId) : Nat :=
  match q.ix with
  | some k => b.bias.getD k 0
  | none => 0

/-- A count in the block's view (R256). -/
def Block.view (b : Block) (q : QueueId) (c : Nat) : Nat := (c + 2 ^ 64 - b.biasOf q % 2 ^ 64) % 2 ^ 64

def setTicket (l : List Nat) (q : QueueId) (v : Nat) : List Nat :=
  match q.ix with
  | some k => l.set k v
  | none => l

def ticketOf (l : List Nat) (q : QueueId) : Nat :=
  match q.ix with
  | some k => l.getD k 0
  | none => 0

/-- A status word (R260). -/
def statusWord (code done : Nat) : Word64 := BitVec.ofNat 64 (done % 2 ^ 32 + code * 2 ^ 32)

/-- STATUS of number `t` in the view (SEQRD, MRSTAT). -/
def State.statusOf (s : State) (b : Block) (q : QueueId) (t : Nat) : Word64 :=
  let r := s.queue q
  let n := (t + b.biasOf q) % 2 ^ 64
  if r.seq < n ∧ n ≤ r.enq then statusWord 14 0
  else if n ≤ r.seq ∧ r.seq < n + 16 then r.ring.getD (n % 16) (statusWord 15 0)
  else statusWord 15 0

-- The chain pool.

/-- Chain entries that an engine entry takes. -/
def Entry.chainSize (e : Entry) : Nat :=
  match e.form with
  | .mat _ => 0
  | .bd _ => 2
  | _ => 1

def State.poolUsed (s : State) (ctx : Nat) : Nat :=
  ((s.om.entries.filter fun e => e.ctx == ctx && e.result.isNone).map Entry.chainSize).sum

def State.poolHas (s : State) (ctx n : Nat) : Bool := decide (s.poolUsed ctx + n ≤ (s.ctx ctx).pool)

-- Handles.

/-- A handle-table entry (R258). -/
structure Handle where
  base  : Nat
  len   : Nat
  gen   : Nat
  valid : Bool
  far   : Bool
  rd    : Bool
  wr    : Bool
  node  : Nat
  deriving DecidableEq, Repr

def State.handleAt (s : State) (ctx slot : Nat) : Handle :=
  let a := (s.ctx ctx).htab + 32 * slot
  let w (i : Nat) : Nat := (s.word64At (a + 8 * i)).toNat
  { base := w 0 % 2 ^ 54, len := w 1 % 2 ^ 32, gen := w 2 % 2 ^ 16, valid := (w 2).testBit 16, far := (w 2).testBit 17,
    rd := (w 2).testBit 18, wr := (w 2).testBit 19, node := w 3 % 2 ^ 32 }

def handleSlot (h : Nat) : Nat := h % 2 ^ 16
def handleGen (h : Nat) : Nat := h / 2 ^ 16 % 2 ^ 16

/-- A handle still names its buffer: checks 1 and 2 of R259. -/
def State.handleLive (s : State) (ctx h : Nat) : Bool :=
  let x := s.handleAt ctx (handleSlot h)
  decide (handleSlot h < (s.ctx ctx).hsize) && x.valid && x.gen == handleGen h

/-- A handle end of a command: its handle and offset as given, the least byte and the byte past the greatest that the command
touches there, relative to the buffer, and whether it is written. An end with no byte has `lo = hi`. -/
structure HEnd where
  h   : Nat
  off : Nat
  lo  : Int
  hi  : Int
  wr  : Bool
  deriving DecidableEq, Repr

/-- Checks 1 to 4 of R259, as (code, TRAUX). A byte below offset 0, which a strided end can name and R259 does not speak of, fails as
one beyond the length does (log entry 61). -/
def State.handleFault (s : State) (ctx : Nat) (x : HEnd) : Option (Nat × Nat) :=
  let e := s.handleAt ctx (handleSlot x.h)
  if (s.ctx ctx).hsize ≤ handleSlot x.h || !e.valid then some (fHandleStale, 1)
  else if e.gen ≠ handleGen x.h then some (fHandleStale, 0)
  else if (if x.wr then !e.wr else !e.rd) then some (fAccess, 11)
  else if x.lo < x.hi ∧ (x.lo < 0 ∨ (e.len : Int) < x.hi) then some (fAccess, 10)
  else none

def HEnd.addr (x : HEnd) : Nat := x.h % 2 ^ 32 + x.off % 2 ^ 32 * 2 ^ 32

/-- R259 for the handle ends of a command, one end at a time, in order; then check 5. -/
def State.handleChecks (s : State) (ctx : Nat) (l : List HEnd) : Except Stop Unit :=
  match l.findSome? fun x => (s.handleFault ctx x).map fun f => (x, f) with
  | some (x, f) => flt f.1 f.2 x.addr
  | none =>
    match l with
    | [x, y] =>
      if (s.handleAt ctx (handleSlot x.h)).far && (s.handleAt ctx (handleSlot y.h)).far then flt fAccess 6 x.addr
      else .ok ()
    | _ => .ok ()

/-- A core-local range of `n` bytes named at issue (R196). -/
def localRange (b : Block) (o : Int) (n : Nat) (tr : Nat) : Except Stop Unit :=
  match b.winCheck o n with
  | some aux => flt fAccess aux tr
  | none => .ok ()

-- Signal words (R261).

def sigStile (sig : Nat) : Nat := sig % 64
def sigOn (sig : Nat) : Bool := sig.testBit 6
def sigRemote (sig : Nat) : Bool := sig.testBit 7

-- The enqueue.

/-- Who enqueues: an agent of a block, with its issuer number and PC. -/
structure Poster where
  b      : Block
  aid    : Nat
  issuer : Nat
  pc     : Addr54
  deriving DecidableEq, Repr

def Entry.live (e : Entry) : Bool := e.result.isNone

/-- An entry joins its queue (R43, R256): the new entry and the state. -/
def State.enqueue (s : State) (p : Poster) (q : QueueId) (sig sigBlk : Nat) (form : EntryForm) : Entry × State :=
  let (id, s) := s.newId
  let s := s.modQueue q fun r => { r with enq := r.enq + 1 }
  let a := (s.agent p.aid).getD ⟨.entry id, p.b.die, [], [], []⟩
  let e : Entry := {
    id := id, queue := q, num := (s.queue q).enq, blk := p.b.id, team := p.b.team, ctx := p.b.ctx, die := p.b.die
    aid := p.aid, issuer := p.issuer, pc := p.pc, sig := sig, sigBlk := sigBlk, pre := a.issue
    preQ := a.qf.filter fun x => s.om.entries.any fun y => y.id == x && y.live
    st := .queued, form := form, moved := 0, done := [], ends := []
    early := [], verdict := none, revoked := false, result := none, pkts := []
    dropSig := false, base := p.b.die }
  (e, { s with om := { s.om with entries := s.om.entries ++ [e] } })

/-- QFENCE, NQFENCE (R43): the agent's later entries wait for its entries on the named queues that have not completed. -/
def State.fenceQueues (s : State) (aid : Nat) (names : QueueId → Bool) : State :=
  let ids := (s.om.entries.filter fun e => e.aid == aid && e.live && names e.queue).map Entry.id
  s.modAgent aid fun r => { r with qf := dedup (r.qf ++ ids) }

-- BEGIN and COMPLETE (R43).

/-- An access issued before the enqueue is performed at DIE scope, and a fence is complete; a RED.M holds nothing back but through
a fence (R44). -/
def State.preDone (s : State) (id : Nat) : Bool :=
  match s.access id with
  | none => true
  | some a => !a.isFence && s.perfAt false .die a

/-- `x` comes before `e` on its queue, or among the matrix entries of its agent (R240). -/
def Entry.before (x e : Entry) : Bool :=
  x.queue == e.queue && decide (x.num ≤ e.num) && decide (x.id < e.id) &&
    (match e.queue with
     | .mat _ => x.aid == e.aid
     | _ => true)

def Entry.isMat (e : Entry) : Bool :=
  match e.form with
  | .mat _ => true
  | _ => false

def State.canBegin (s : State) (e : Entry) : Bool :=
  e.st == .queued && e.live && e.pre.all s.preDone &&
  (s.om.entries.all fun x => !x.before e || !x.live || (e.isMat && x.st == .begun)) &&
  e.preQ.all fun id => s.om.entries.all fun x => x.id != id || !x.live

/-- Every write of an entry is performed at DIE scope. -/
def State.writesDone (s : State) (e : Entry) : Bool :=
  s.om.accs.all fun p => p.2.aid != e.id || s.perfAt true .die p.2

/-- A stile signal (R265): counted where the block still holds the stile. -/
def State.signal (s : State) (e : Entry) : State :=
  if !sigOn e.sig || e.dropSig then s
  else
    s.modBlock e.sigBlk fun b =>
      { b with stiles := b.stiles.modify (sigStile e.sig) fun x =>
        { x with cnt := min (x.cnt + 1) 65535, obs := x.obs ++ [e.id] } }

/-- An agent observes entries (R45): those with writes that may still travel are remembered. -/
def State.observe (s : State) (aid : Nat) (ids : List Nat) : State :=
  let l := ids.filter fun x => s.om.accs.any fun p => p.2.aid == x
  s.modAgent aid fun r => { r with observed := dedup (r.observed ++ l) }

/-- The entries of a queue up to a number (R269). -/
def State.entriesUpTo (s : State) (q : QueueId) (n : Nat) : List Nat :=
  (s.om.entries.filter fun e => e.queue == q && decide (e.num ≤ n)).map Entry.id

/-- A warp parked on the entry resumes at its continuation, as after a wait (R267, R86, R144). -/
def State.unpark (s : State) (e : Entry) : State :=
  match s.block e.blk with
  | none => s
  | some b =>
    match b.warps.find? fun w => w.wait == .park e.id with
    | some w => (s.setBlock (settleAll b { w with wait := .none }).1).observe w.aid [e.id]
    | none => s

/-- COMPLETE: the status, the sequence number, the signal, the continuation. -/
def State.finish (s : State) (e : Entry) (code done : Nat) : State :=
  let s := s.modQueue e.queue fun r =>
    { r with seq := r.seq + 1, ring := r.ring.set (e.num % 16) (statusWord code done) }
  let s := s.setEntry { e with result := some (code, done) }
  let s := (s.signal e).unpark e
  s.dropFails e.die e.id

/-- Whether a block is resident or saved. -/
def State.blockKnown (s : State) (blk : Nat) : Bool :=
  (s.block blk).isSome || s.task.saved.any fun p => p.2.blocks.any fun x => x.1.id == blk

/-- Whether an entry names the core-local window of a block: its own, or that of an end (R16, R273). -/
def Entry.namesWindow (e : Entry) (blk : Nat) : Bool :=
  let at_ : End → Bool
    | .loc k _ => k == blk
    | .handle _ _ => false
  e.blk == blk || match e.form with
    | .copy _ _ d x => at_ d || at_ x
    | _ => false

/-- Entries that have completed and of which nothing travels leave; a warp's matrix entry stays until the MWAIT of its batch.
-/
def State.prune (s : State) : State :=
  { s with om := { s.om with
      entries := s.om.entries.filter fun e =>
        e.live || (s.om.accs.any fun p => p.2.aid == e.id) || (e.isMat && e.issuer != 63 && s.blockKnown e.blk)
      gone := s.om.gone.filter fun g => s.om.entries.any fun e => e.live && e.namesWindow g.1 } }

-- An entry's accesses.

/-- What an entry's translation of a page gives: wait, a status code that ends the entry, or the translation. -/
inductive EntryX where
  | wait
  | fail (code : Nat)
  | ok (t : Tlb)
  deriving DecidableEq, Repr

/-- The translation that an entry had of a page which a shoot-down holds now (R319). -/
def State.keptPage (s : State) (e : Entry) (va : Nat) : Option Tlb :=
  (s.die e.die).held.findSome? fun h => tlbFind (h.kept.filterMap fun k => if k.1 = e.id then some k.2 else none) e.ctx va

/-- Translate and check one address for an entry (R259, R322). -/
def State.entryPage (s : State) (e : Entry) (t : AccType) (va : Nat) : State × EntryX :=
  let (s, x) := match s.keptPage e (va % 2 ^ 54) with
    | some tl => (s, Xl.done tl)
    | none => s.xlate e.id e.die none e.ctx (va % 2 ^ 54)
  let bad (s : State) : State × EntryX := (s.report e.die (.entryXlate e.queue e.num), .fail 2)
  match x with
  | .wait => (s, .wait)
  | .fail _ => bad (s.dropFails e.die e.id)
  | .done tl =>
    match s.checkPage e.die t tl.pte (tl.phys (va % 2 ^ 54)) with
    | none => (s, .ok tl)
    | some f => if f.cls = 2 then (s, .fail 8) else bad s

/-- An access of an entry to a physical line. -/
def Entry.access (e : Entry) (tl : Tlb) (va pa : Nat) (kind : AccKind) (st : AccSt) : Access where
  aid := e.id
  inst := e.id
  die := e.die
  ctx := e.ctx
  loc := none
  line := lineOf pa
  va := va
  page := pageKind pa tl.pte
  keyid := pteKeyid tl.pte
  slice := 0
  kind := kind
  acq := none
  rel := none
  st := st
  refusals := 0
  firstRef := 0
  retryAt := 0
  repl := pteRepl tl.pte

/-- `n` bytes of one line. `home` is set for a base-die entry, which binds at the home alone (R276). -/
def State.entryRead (s : State) (e : Entry) (home : Bool) (tl : Tlb) (va n : Nat) : State × List Byte :=
  let pa := tl.phys (va % 2 ^ 54)
  let a := e.access tl va pa (.load pa n []) .issued
  if home then
    let s := if a.page = 2 then s.recall a.line else s
    (s.touch e.ctx (s.homeOf a), s.readHome a.keyid pa n)
  else s.bindPhys a pa n

/-- Write bytes of one line: into the die's SWM copy, at a home on the die or for a base-die entry at once, else into the
transit set (R262, R276, R204). Serving it drops the lease copy of the writer's own die (R35), for a base-die entry that of the die it
runs on. -/
def State.entryWrite (s : State) (e : Entry) (home : Bool) (tl : Tlb) (va : Nat) (bytes : List Byte) : State :=
  let pa := tl.phys (va % 2 ^ 54)
  let cells := cellsFrom pa bytes
  let a := e.access tl va pa (.store cells) .queued
  let h := s.homeOf a
  if !home && a.page == 1 && h != e.die then s.swmWrite e.die e.ctx a.line va a.keyid a.repl cells
  else if home || h == e.die then
    let s := (((s.writeLine a.line a.keyid cells).patchInb a.line a.keyid cells).dropLease (if home then e.base else e.die) a.line).touch e.ctx h
    if a.repl then
      let (o, s) := s.newId
      (s.addAccess { a with st := .replica o cells }).2
    else s
  else (s.addAccess { a with st := .transit h }).2

/-- The window of a block, resident or ended with entries of it alive (R16, R26, R273). -/
def State.windowOf (s : State) (blk : Nat) : Option Window :=
  match s.block blk with
  | some b => some b.window
  | none => aget blk s.om.gone

/-- A byte of a core-local window. One beyond it, or of a window that has been returned, has no stated value: a free value. -/
def State.windowByte (s : State) (blk o : Nat) : State × Byte :=
  let free : State × Byte :=
    let (ix, s) := s.freeIx
    (s, (Config.freeWord ix).setWidth 8)
  match s.windowOf blk with
  | some w => if o < w.size then (s, byteAt w.bytes o) else free
  | none => free

def State.windowBytes (s : State) (blk o : Nat) : Nat → State × List Byte
  | 0 => (s, [])
  | n + 1 =>
    let (s, x) := s.windowByte blk o
    let (s, r) := s.windowBytes blk (o + 1) n
    (s, x :: r)

def State.windowWrite (s : State) (blk o : Nat) (bytes : List Byte) : State := s.putWindow blk (cellsFrom o bytes)

-- Values of operands that name an entry's work.

/-- The lane whose registers give a warp's operands: the lowest slot of the effective set. -/
def WEnv.first (e : WEnv) : Nat × Nat := e.eff.headD (0, 0)

/-- A Vsi operand at the first lane. -/
def firstV (e : WEnv) (o : Operand) : Nat := (srcU e e.first o).toNat

/-- A Pair or an immediate at the first lane. -/
def firstPair (e : WEnv) (o : Operand) : Nat := (srcPair e e.first o).toNat

/-- A result that is the same in every effective lane, as a pair. -/
def pairResult (e : WEnv) (i : Instr) (d : Operand) (v : Nat) : State := retireNow e i (pairCells e d (BitVec.ofNat 64 v))

/-- A result of the sequencer. -/
def seqResult (e : SEnv) (d : Operand) (v : Nat) : State := e.put (e.q.advance.put (regS d) (BitVec.ofNat 64 v))

/-- Little-endian words of a descriptor. -/
def wordsOf (bytes : List Byte) : List Nat := (chunks 8 (bytes.length / 8) bytes).map leNat

end Sys2Proof.Machine
end

