-- ==== Sys2Proof/Machine/Matrix.lean ====
section
/-!
DEFINITION. The matrix engine: descriptors (R230, R233), products into registers, accumulator banks and shadow banks (R232 to
R245), batches (R241) and the ACC instructions (R247).
-/
namespace Sys2Proof.Machine

-- Accumulator elements (R62 to R64).

def AccEl.zero : AccEl := ⟨0, false, false⟩
def AccEl.even (x : AccEl) : Nat := (x.v.extractLsb' 96 32).toNat
def AccEl.odd (x : AccEl) : Nat := (x.v.extractLsb' 64 32).toNat
/-- A split element: bits [63:0] are zero. -/
def AccEl.split (even odd : Nat) (x : AccEl) : AccEl := { x with v := w32 even ++ w32 odd ++ (0 : BitVec 64) }
/-- The fold value. -/
def AccEl.fold (x : AccEl) : Nat := f32.add .rne x.even x.odd
/-- A WIDE element as binary32 under window `w`. -/
def AccEl.wide32 (w : Int) (x : AccEl) : Nat :=
  if x.inv then f32.enc .rne .nan
  else f32.enc .rne (.fin (decide (x.v.toInt < 0)) x.v.toInt.natAbs (w - 80))

/-- One product added to a WIDE element (R63). -/
def AccEl.addWide (w : Int) (p : FV) (x : AccEl) : AccEl :=
  let hi : Int := 2 ^ 127 - 1
  let lo : Int := -2 ^ 127
  match p with
  | .nan => { x with inv := true }
  | .inf neg => { x with v := BitVec.ofInt 128 (if neg then lo else hi), sat := true }
  | .fin neg m e =>
    let r : Int := roundAt .rne neg m e (w - 80)
    let s := x.v.toInt + (if neg then -r else r)
    if hi < s then { x with v := BitVec.ofInt 128 hi, sat := true }
    else if s < lo then { x with v := BitVec.ofInt 128 lo, sat := true }
    else { x with v := BitVec.ofInt 128 s }

/-- RNE32 of a binary32 chain plus an exact product (R70). -/
def chainAdd (c : Nat) (p : FV) : Nat := f32.enc .rne (FV.add .rne (f32.dec c) p)

def accIx (bank row col : Nat) : Nat := bank * 512 + row * 32 + col
def Block.getAcc (b : Block) (ix : Nat) : AccEl := agetD ix AccEl.zero b.acc
def Block.putAcc (b : Block) (ix : Nat) (x : AccEl) : Block :=
  { b with acc := if x = AccEl.zero then adel ix b.acc else aset ix x b.acc }
/-- A bank in the state of R121. -/
def Block.zeroBank (b : Block) (k : Nat) : Block :=
  { b with acc := b.acc.filter fun p => p.1 / 512 != k, bw := b.bw.set k 0 }
def Block.copyBank (b : Block) (src dst : Nat) : Block :=
  let moved := (b.acc.filter fun p => p.1 / 512 == src).map fun p => (p.1 % 512 + dst * 512, p.2)
  let b := b.zeroBank dst
  { b with acc := moved.foldl (fun m p => aset p.1 p.2 m) b.acc, bw := b.bw.set dst (b.bw.getD src 0) }

-- Descriptors.

def FmtBlk.ofNat (v : Nat) : FmtBlk :=
  { w := (BitVec.ofNat 8 (v / 2 ^ 32)).toInt, saddr := v / 2 ^ 9 % 2 ^ 19, sfmt := v.testBit 8, blk := v / 64 % 4
    fmt := v % 64 }

/-- Whether a format code is one of R67. -/
def fmtKnown (f : Nat) : Bool := (decide (f < 32) && f % 8 != 0) || f == 0x20 || f == 0x21
def fmtBytes (f : Nat) : Nat := if f < 32 then 1 else if f = 0x22 then 4 else 2
/-- An element of a format (R67). -/
def elemDec (f code : Nat) : FV :=
  if f < 32 then (B8.ofCode f).dec code else if f = 0x20 then f16.dec code else if f = 0x21 then bf16.dec code
  else f32.dec code
/-- The format pairs of R232. -/
def fmtPair (a b : Nat) : Bool := (decide (a < 32) && decide (b < 32)) || (a == b && decide (32 ≤ a))

/-- The rules of R66 but for the must-be-zero bits. -/
def FmtBlk.bad (f : FmtBlk) (wOk : Bool) : Bool :=
  !fmtKnown f.fmt || (f.blk == 0 && (f.sfmt || f.saddr != 0)) || (!wOk && f.w != 0)

/-- Block length along K, scales per row or column, and bytes of a scale (R68). -/
def FmtBlk.len (f : FmtBlk) : Nat := 8 * 2 ^ f.blk
def FmtBlk.scales (f : FmtBlk) (k : Nat) : Nat := if f.blk = 0 then 0 else (k + f.len - 1) / f.len
def FmtBlk.sbytes (f : FmtBlk) : Nat := if f.sfmt then 2 else 1
def FmtBlk.scaleVal (f : FmtBlk) (c : Nat) : FV :=
  if f.sfmt then f16.dec c else if c = 0xFF then .nan else .fin false 1 ((c : Int) - 127)

def MDesc.ofWords (w : List Nat) : MDesc :=
  let g (i : Nat) : Nat := w.getD i 0
  { aaddr := g 0 % 2 ^ 19, baddr := g 0 / 2 ^ 19 % 2 ^ 19, astr := g 0 / 2 ^ 38 % 2 ^ 19, bstr := g 1 % 2 ^ 19
    m := g 1 / 2 ^ 19 % 512, n := g 1 / 2 ^ 28 % 512, k := g 1 / 2 ^ 37 % 512, wide := (g 1).testBit 46
    rskip := g 1 / 2 ^ 48, fa := FmtBlk.ofNat (g 2), sigt := g 2 / 2 ^ 40 % 64, sige := (g 2).testBit 46
    fb := FmtBlk.ofNat (g 3) }

/-- The must-be-zero bits of R230 and of both format-blocks. -/
def mdescMbz (w : List Nat) : Bool :=
  let g (i : Nat) : Nat := w.getD i 0
  g 0 / 2 ^ 57 != 0 || (g 1).testBit 47 || g 2 / 2 ^ 47 != 0 || g 3 / 2 ^ 40 != 0 ||
    g 2 / 2 ^ 28 % 16 != 0 || g 3 / 2 ^ 28 % 16 != 0

/-- Bytes of an operand element. -/
def MDesc.s (d : MDesc) : Nat := fmtBytes d.fa.fmt

/-- Bytes of the scales of A and of B (R68). -/
def MDesc.scaleA (d : MDesc) : Nat := d.m * d.fa.scales d.k * d.fa.sbytes
def MDesc.scaleB (d : MDesc) : Nat := d.n * d.fb.scales d.k * d.fb.sbytes

/-- The byte ranges of order 10: rows of A, rows of B, scales. Where M, N or K is 0, no operand byte is examined; the scales that
R68 still names are. -/
def MDesc.ranges (d : MDesc) : List (Nat × Nat) :=
  (if d.m = 0 ∨ d.n = 0 ∨ d.k = 0 then []
   else ((List.range d.m).map fun i => (d.aaddr + i * d.astr, d.k * d.s)) ++
     (List.range d.k).map fun k => (d.baddr + k * d.bstr, d.n * d.s)) ++
  [(d.fa.saddr, d.scaleA), (d.fb.saddr, d.scaleB)]

/-- Orders 3 to 10 of R233 over the four words. Where several ranges fail order 10 for different reasons, R233 does not say which
TRAUX is reported: the model's choice is that of the first range, in the order A rows, B rows, A scales, B scales (log entry
23). -/
def mdescCheck (b : Block) (reg : Bool) (o : Nat) (w : List Nat) (d : MDesc) : Except Stop Unit :=
  let lim (mr mo x : Nat) : Bool := decide (x ≤ if reg then mr else mo)
  if mdescMbz w then flt fIllegal 1 o
  else if d.fa.bad d.wide || d.fb.bad false then flt fIllegal 2 o
  else if !fmtPair d.fa.fmt d.fb.fmt then flt fIllegal 3 o
  else if !(lim 64 256 d.m && lim 128 256 d.n && decide (d.k ≤ 256)) then flt fIllegal 4 o
  else if d.k % (16 / d.s) ≠ 0 then flt fIllegal 5 o
  else if reg && (d.wide || d.rskip != 0) then flt fIllegal 6 o
  else if d.aaddr % d.s ≠ 0 || d.baddr % d.s ≠ 0 || d.astr % d.s ≠ 0 || d.bstr % d.s ≠ 0 ||
      (d.fa.sfmt && d.fa.saddr % 2 == 1) || (d.fb.sfmt && d.fb.saddr % 2 == 1) then flt fAlign 0 o
  else
    match d.ranges.findSome? fun r => b.winCheck r.1 r.2 with
    | some aux => flt fAccess aux o
    | none => .ok ()

/-- Scale codes read at issue (R69): `cnt` rows or columns. -/
def FmtBlk.read (f : FmtBlk) (cnt k : Nat) (bytes : List Byte) : List Nat :=
  (chunks f.sbytes (cnt * f.scales k) bytes).map leNat

/-- Reads the descriptor and the scales at offset `o` (R233, R356). -/
def readMDesc (s : State) (b : Block) (aid : Nat) (reg : Bool) (o : Nat) :
    Except Stop (MDesc × List Nat × List Nat) :=
  if o % 32 ≠ 0 then flt fAlign 0 o
  else
    match localRange b o 32 o with
    | .error x => .error x
    | .ok () =>
      match s.readWindow aid b.id o 32 with
      | none => waitOn .other s
      | some bytes =>
        let w := wordsOf bytes
        let d := MDesc.ofWords w
        match mdescCheck b reg o w d with
        | .error x => .error x
        | .ok () =>
          match s.readWindow aid b.id d.fa.saddr d.scaleA, s.readWindow aid b.id d.fb.saddr d.scaleB with
          | some x, some y => .ok (d, d.fa.read d.m d.k x, d.fb.read d.n d.k y)
          | _, _ => waitOn .other s

-- Slots (R240).

def Entry.matOf (e : Entry) : Option MatEntry :=
  match e.form with
  | .mat m => some m
  | _ => none

def State.matEntries (s : State) (blk : Nat) : List (Entry × MatEntry) :=
  s.om.entries.filterMap fun e => if e.blk = blk then e.matOf.map fun m => (e, m) else none

/-- SIGT, then the lowest free held slot; none where the instruction waits. -/
def matSlot (s : State) (b : Block) (d : MDesc) (o : Nat) : Except Stop Nat :=
  if d.sige && decide (b.hold.stile ≤ d.sigt) then flt fAccUnalloc (0x200 + d.sigt) o
  else if b.hold.mslot = 0 then flt fAccUnalloc 0x100 o
  else
    let busy := (s.matEntries b.id).filterMap fun p => if p.1.live then some p.2.slot else none
    match (List.range b.hold.mslot).find? fun k => !busy.contains k with
    | some k => .ok k
    | none => waitOn .other s

/-- The signal word of a matrix entry. -/
def MDesc.sig (d : MDesc) : Nat := if d.sige then d.sigt + 64 else 0

-- Geometry.

def MDesc.bankCols (d : MDesc) : Nat := (d.n + 31) / 32
def MDesc.bankCount (d : MDesc) : Nat := (d.m + 15) / 16 * d.bankCols
/-- Row r is updated (R237). -/
def MDesc.rowOn (d : MDesc) (r : Nat) : Bool := decide (r < d.m) && !d.rskip.testBit (r / 16)
/-- The bank of element (r, n), relative to the base. -/
def MDesc.bankOf (d : MDesc) (r n : Nat) : Nat := r / 16 * d.bankCols + n / 32

/-- Whether an entry updates accumulator memory: MMA.A and MMA.S alone do (R243). -/
def MatForm.inBanks : MatForm → Bool
  | .mma _ => false
  | _ => true

/-- The base of the banks an entry updates. -/
def MatForm.target : MatForm → Nat
  | .mma _ => 0
  | .mmaA b => b
  | .mmaS _ _ sh => sh

/-- The banks of an entry's footprint, live and shadow. -/
def MatEntry.banks (m : MatEntry) : List Nat :=
  match m.form with
  | .mma _ => []
  | .mmaA b => (List.range m.d.bankCount).map fun i => b + i
  | .mmaS _ l h => ((List.range m.d.bankCount).map fun i => l + i) ++ (List.range m.d.bankCount).map fun i => h + i

/-- The V registers an MMA binds. -/
def MatEntry.bindRegs (m : MatEntry) : List Nat :=
  match m.form with
  | .mma base => (List.range ((m.d.m + 31) / 32 * m.d.n)).map fun i => base + i
  | _ => []

-- The work of an entry.

/-- The code of an operand element: as read before, or from the window now. -/
def MatEntry.codeA (m : MatEntry) (clm : List Host.Cell) (i k : Nat) : Nat :=
  match aget (i * m.d.k + k) m.ea with
  | some c => c
  | none => leNat (bytesAt clm (m.d.aaddr + i * m.d.astr + k * m.d.s) m.d.s)

def MatEntry.codeB (m : MatEntry) (clm : List Host.Cell) (k n : Nat) : Nat :=
  match aget (k * m.d.n + n) m.eb with
  | some c => c
  | none => leNat (bytesAt clm (m.d.baddr + k * m.d.bstr + n * m.d.s) m.d.s)

/-- An element's value with its scale (R68). -/
def scaled (f : FmtBlk) (scales : List Nat) (row k kk code : Nat) : FV :=
  let v := elemDec f.fmt code
  if f.blk = 0 then v
  else FV.mul v (f.scaleVal (scales.getD (row * f.scales k + kk / f.len) 0))

/-- The exact product of step kk of element (i, n). -/
def MatEntry.product (m : MatEntry) (clm : List Host.Cell) (i n kk : Nat) : FV :=
  FV.mul (scaled m.d.fa m.sa i m.d.k kk (m.codeA clm i kk)) (scaled m.d.fb m.sb n m.d.k kk (m.codeB clm kk n))

/-- What an element of accumulator memory starts from. -/
def MatEntry.startEl (m : MatEntry) (x : AccEl) : AccEl := if m.start then AccEl.zero else x

/-- One chain step on an element (R70, R63). -/
def MatEntry.stepEl (m : MatEntry) (clm : List Host.Cell) (i n kk : Nat) (x : AccEl) : AccEl :=
  let p := m.product clm i n kk
  if m.d.wide then x.addWide m.d.fa.w p
  else if kk % 2 = 0 then AccEl.split (chainAdd x.even p) x.odd x
  else AccEl.split x.even (chainAdd x.odd p) x

/-- The remaining steps of an element: from step `from_` on. -/
def MatEntry.runEl (m : MatEntry) (clm : List Host.Cell) (i n from_ : Nat) (x : AccEl) : AccEl :=
  let x := if from_ = 0 then m.startEl x else x
  ((List.range m.d.k).drop from_).foldl (fun x kk => m.stepEl clm i n kk x) x

/-- The result of a register element (R70, R235). -/
def MatEntry.regResult (m : MatEntry) (clm : List Host.Cell) (i n acc : Nat) : Nat :=
  let r := (List.range m.d.k).foldl (fun (c : Nat × Nat) kk =>
    let p := m.product clm i n kk
    if kk % 2 = 0 then (chainAdd c.1 p, c.2) else (c.1, chainAdd c.2 p)) (acc, 0)
  f32.add .rne r.1 r.2

def MatEntry.elIx (m : MatEntry) (r n : Nat) : Nat := accIx (m.form.target + m.d.bankOf r n) (r % 16) (n % 32)

/-- The rows and columns that an entry updates in accumulator memory. -/
def MatEntry.cells (m : MatEntry) : List (Nat × Nat) :=
  if m.d.k = 0 ∧ !m.start then []
  else ((List.range m.d.m).filter m.d.rowOn).flatMap fun r => (List.range m.d.n).map fun n => (r, n)

/-- BEGIN of a matrix entry: shadow banks are paired (R244), window bytes set (R237). -/
def MatEntry.begin (m : MatEntry) (b : Block) : Block :=
  let b := match m.form with
    | .mmaS tag l h =>
      (List.range m.d.bankCount).foldl (fun (b : Block) i =>
        if b.pair.any fun p => p.shadow == h + i then b
        else { b.copyBank (l + i) (h + i) with pair := b.pair ++ [⟨h + i, l + i, tag⟩] }) b
    | _ => b
  match m.form with
  | .mma _ => b
  | f =>
    if !m.d.wide || m.d.n == 0 then b
    else
      { b with bw := ((List.range m.d.m).filter m.d.rowOn).foldl (fun bw r =>
          (List.range m.d.bankCols).foldl (fun bw c =>
            bw.set (f.target + r / 16 * m.d.bankCols + c) m.d.fa.w) bw) b.bw }

/-- The remaining work of an entry at its COMPLETE: the block, and the results of a register product. -/
def MatEntry.completeBlk (m : MatEntry) (b : Block) : Block :=
  match m.form with
  | .mma _ => b
  | _ => m.cells.foldl (fun b c =>
      let ix := m.elIx c.1 c.2
      b.putAcc ix (m.runEl b.clm c.1 c.2 (agetD (c.1 * m.d.n + c.2) 0 m.steps) (b.getAcc ix))) b

/-- A chained element continues from the result of an earlier entry (R236). -/
def State.matResult (s : State) (id thr reg : Nat) : Word32 :=
  match (s.entry id).bind Entry.matOf with
  | some m => match m.out.find? fun o => o.1 == thr && o.2.1 == reg with
    | some o => o.2.2
    | none => 0
  | none => 0

def MatEntry.results (m : MatEntry) (s : State) (clm : List Host.Cell) : List (Nat × Nat × Word32) :=
  m.regs.map fun x =>
    let acc := match x.chain with
      | some id => s.matResult id x.thr x.reg
      | none => x.val
    (x.thr, x.reg, w32 (m.regResult clm x.r x.n acc.toNat))

/-- Whether an entry's earlier entries have completed, so that it may work on what they leave (R240). -/
def State.matClear (s : State) (e : Entry) : Bool := s.om.entries.all fun x => !x.before e || !x.live

/-- One unit of the work of a begun entry: an operand element read (R242), or one chain step (R243). -/
def State.matMove (s : State) (e : Entry) (m : MatEntry) (u : Nat) : State :=
  match s.block e.blk with
  | none => s
  | some b =>
    let na := m.d.m * m.d.k
    let nb := m.d.k * m.d.n
    if m.d.k = 0 ∨ m.d.n = 0 then s
    else if u < na then
      s.setEntry { e with form := .mat { m with ea := aset u (m.codeA b.clm (u / m.d.k) (u % m.d.k)) m.ea } }
    else if u < na + nb then
      let v := u - na
      s.setEntry { e with form := .mat { m with eb := aset v (m.codeB b.clm (v / m.d.n) (v % m.d.n)) m.eb } }
    else
      let v := u - na - nb
      let r := v / m.d.n
      let n := v % m.d.n
      let kk := agetD v 0 m.steps
      if !m.form.inBanks || !m.cells.contains (r, n) || decide (m.d.k ≤ kk) || !s.matClear e then s
      else
        let m' := { m with
          ea := aset (r * m.d.k + kk) (m.codeA b.clm r kk) m.ea
          eb := aset (kk * m.d.n + n) (m.codeB b.clm kk n) m.eb
          steps := aset v (kk + 1) m.steps }
        let ix := m.elIx r n
        let x := if kk = 0 then m.startEl (b.getAcc ix) else b.getAcc ix
        (s.setBlock (b.putAcc ix (m.stepEl b.clm r n kk x))).setEntry { e with form := .mat m' }

/-- COMPLETE of a matrix entry. -/
def State.matComplete (s : State) (e : Entry) (m : MatEntry) : State :=
  if !s.matClear e then s
  else
    match s.block e.blk with
    | none => s.finish e 0 0
    | some b =>
      let m' := { m with out := m.results s b.clm, regs := [] }
      (s.setBlock (m.completeBlk b)).finish { e with form := .mat m' } 0 0

-- Issue.

/-- A new entry of the matrix engine. -/
def State.enqueueMat (s : State) (p : Poster) (m : MatEntry) : Nat × State :=
  let (e, s) := s.enqueue p (.mat p.b.gcore) m.d.sig p.b.id (.mat m)
  (e.id, s)

def matEntry (form : MatForm) (start : Bool) (d : MDesc) (sa sb : List Nat) (slot : Nat) (regs : List MatReg) :
    MatEntry := ⟨form, start, d, sa, sb, slot, regs, [], [], [], []⟩

/-- Registers bound by a committed batch that has not been waited on. -/
def Warp.committed (w : Warp) (id : Nat) : Bool := w.batches.any fun x => x.out && x.entries.contains id

/-- The entry of the open batch that gives element (thr, reg) its value: the latest that updates it. -/
def openResult (s : State) (w : Warp) (thr reg : Nat) : Option Nat :=
  w.openB.reverse.find? fun id =>
    match (s.entry id).bind Entry.matOf with
    | some m => (m.regs.any fun x => x.thr == thr && x.reg == reg) || m.out.any fun x => x.1 == thr && x.2.1 == reg
    | none => false

/-- What an updated element starts from (R235, R236). -/
def accValue (e : WEnv) (start : Bool) (l : Nat × Nat) (reg : Nat) : Word32 × Option Nat :=
  if start then (0, none)
  else if e.w.binds.any fun x => x.1 == reg then
    match openResult e.s e.w l.2 reg with
    | some id => (0, some id)
    -- as the register stood before the open batch bound it
    | none => (((e.w.pre.find? fun x => x.1 == l.2 && x.2.1 == reg).map fun x => x.2.2).getD poison, none)
  else (readV e.b e.w l.2 reg, none)

/-- What the registers that an MMA newly binds read as before it, in every live lane of the warp (R236). -/
def bindSnap (e : WEnv) (regs : List Nat) : List (Nat × Nat × Word32) :=
  let new := regs.filter fun n => !e.w.binds.any fun x => x.1 == n
  (liveLanes e.b e.w).flatMap fun l => new.map fun n => (l.2, n, readV e.b e.w l.2 n)

/-- The first accumulator register that an MMA would read early, lowest first (R88). A bound register is not read, as its value chains
(R236), and a lane whose slot holds no row below M reads none (R234). -/
def earlyAcc (b : Block) (w : Warp) (start : Bool) (md : MDesc) (base : Nat) (regs : List Nat) : Option Nat :=
  if start || md.k == 0 then none
  else regs.find? fun n => !(w.binds.any fun x => x.1 == n) && (liveLanes b w).any fun l =>
    decide (l.1 + 32 * ((n - base) / md.n) < md.m) && earlyV w l.2 n

/-- The accumulator that STALL.SHORT names before a register of A: D comes before A (R88). The footprint comes from the descriptor,
so it is known only where that has no fault. -/
def firstAcc (start : Bool) (d a : Operand) (e : WEnv) : Option Nat :=
  let guard := match e.c.guard with
    | .pred n _ => earlyPred e.b e.w n.toNat
    | .always => false
  if e.eff.isEmpty || guard then none
  else
    match readMDesc e.s e.b e.w.aid true (firstV e a) with
    | .ok (md, sa, sb) =>
      let base := regOf e.b e.first.2 d
      earlyAcc e.b e.w start md base (matEntry (.mma base) start md sa sb 0 []).bindRegs
    | .error _ => none

/-- MMA. The accumulators' own STALL.SHORT falls after the descriptor's checks and the footprint's REG.WINDOW, where the footprint
is known: R82 and R88 do not place it, and this is the model's choice (log entry 22). -/
def execMma (c : Ctl) (start : Bool) (d a : Operand) (s : State) : Host.Outcome State Fault Refusal :=
  let i : Instr := .mma c start d a
  issueW i c (fun e =>
    if e.eff.isEmpty then .ok (retire e.s e i)
    else
      let o := firstV e a
      match readMDesc e.s e.b e.w.aid true o with
      | .error x => .error x
      | .ok (md, sa, sb) =>
        let base := regOf e.b e.first.2 d
        let m0 := matEntry (.mma base) start md sa sb 0 []
        let regs := m0.bindRegs
        let live := (liveLanes e.b e.w).map Prod.snd
        let out := e.s.outstanding e.b.id
        if base + regs.length > e.b.bnd then flt fRegWindow e.b.bnd o
        else if live.any fun t => regs.any fun n => out.contains (.v t n) then waitOn .other e.s
        else
          match (if checksStall e.b e.w && !e.w.waive then earlyAcc e.b e.w start md base regs else none) with
          | some n => flt fStallShort n
          | none =>
            -- R236 speaks of the warp's own batches: a register that a home warp's batch binds counts as a committed one's (log entry 58)
            match regs.find? fun n => (e.w.binds.any fun x => x.1 == n && e.w.committed x.2) ||
                live.any fun t => homeBinds e.b t n with
            | some n => flt fAccInflight n o
            | none =>
              match matSlot e.s e.b md o with
              | .error x => .error x
              | .ok slot =>
                let cells := if md.k = 0 ∧ !start then [] else
                  (List.range md.m).flatMap fun r =>
                    match e.eff.find? fun l => l.1 == r % 32 with
                    | none => []
                    | some l => (List.range md.n).map fun n =>
                      let reg := base + r / 32 * md.n + n
                      let v := accValue e start l reg
                      (⟨r, n, l.2, reg, v.1, v.2⟩ : MatReg)
                let (id, s) := e.s.enqueueMat ⟨e.b, e.w.aid, e.w.k, e.w.pc⟩ (matEntry (.mma base) start md sa sb slot cells)
                let w := { e.w with
                  openB := e.w.openB ++ [id]
                  binds := (e.w.binds.filter fun x => !regs.contains x.1) ++ regs.map fun n => (n, id)
                  pre := e.w.pre ++ bindSnap e regs }
                .ok (retireLater s { e with w := w } i [])) s (firstAcc start d a)

/-- The first bank of a range that the block does not hold (R237). -/
def bankFault (b : Block) (base cnt : Nat) : Option Nat :=
  if cnt = 0 ∨ base + cnt ≤ b.hold.acc then none else some (max base b.hold.acc)

def Block.paired (b : Block) (k : Nat) : Bool := b.pair.any fun p => p.shadow == k || p.live == k

/-- Banks in the footprint of the warp's batches: those outstanding, and the open one where asked. -/
def warpBanks (s : State) (w : Warp) (opened : Bool) : List Nat :=
  let ids := (w.batches.flatMap fun x => if x.out then x.entries else []) ++ if opened then w.openB else []
  ids.flatMap fun id => match (s.entry id).bind Entry.matOf with
    | some m => m.banks
    | none => []

/-- The form's own checks of MMA.A: R237, R243, R244, R240. -/
def mmaAChecks (s : State) (b : Block) (own : List Nat) (base : Nat) (md : MDesc) (o : Nat) : Except Stop Nat :=
  let banks := (List.range md.bankCount).map fun k => base + k
  match bankFault b base md.bankCount with
  | some k => flt fAccUnalloc k o
  | none =>
    match banks.find? own.contains with
    | some k => flt fAccInflight k o
    | none =>
      match banks.find? b.paired with
      | some k => flt fAccInflight k o
      | none => matSlot s b md o

/-- A bank operand of the sequencer: bits [63:6] must be zero (R247). The check is R237's, so one of order 11 of R233, and TRADDR
holds the descriptor's offset (log entry 23). -/
def seqBank (e : SEnv) (o : Operand) (desc : Nat) : Except Stop Nat :=
  let v := (srcSU e o).toNat
  if 64 ≤ v then flt fIllegal 0 desc else .ok v

def execMmaA (c : Ctl) (start : Bool) (d a : Operand) (s : State) : Host.Outcome State Fault Refusal :=
  let i : Instr := .mmaA c start d a
  issue i c
    (fun e =>
      if e.eff.isEmpty then .ok (retire e.s e i)
      else
        let o := firstV e a
        let base := firstV e d
        match readMDesc e.s e.b e.w.aid false o with
        | .error x => .error x
        | .ok (md, sa, sb) =>
          match mmaAChecks e.s e.b (warpBanks e.s e.w false) base md o with
          | .error x => .error x
          | .ok slot =>
            let (id, s) := e.s.enqueueMat ⟨e.b, e.w.aid, e.w.k, e.w.pc⟩ (matEntry (.mmaA base) start md sa sb slot [])
            .ok (retire s { e with w := { e.w with openB := e.w.openB ++ [id] } } i))
    (fun e =>
      let o := (srcSU e a).toNat
      match readMDesc e.s e.b e.q.aid false o with
      | .error x => .error x
      | .ok (md, sa, sb) =>
        match seqBank e d o with
        | .error x => .error x
        | .ok base =>
          match mmaAChecks e.s e.b [] base md o with
          | .error x => .error x
          | .ok slot =>
            let (_, s) := e.s.enqueueMat ⟨e.b, e.q.aid, 63, e.q.pc⟩ (matEntry (.mmaA base) start md sa sb slot [])
            .ok (({ e with s := s }).put e.q.advance)) s

/-- The pairs of the block: those of the table, and those that its queued MMA.S entries will make at their BEGIN. -/
def State.pairsOf (s : State) (b : Block) : List Pairing :=
  b.pair ++ (s.matEntries b.id).flatMap fun p =>
    match p.2.form with
    | .mmaS t l h => if p.1.st == .queued then (List.range p.2.d.bankCount).map fun i => ⟨h + i, l + i, t⟩ else []
    | _ => []

/-- R244 at issue, for pair i of a footprint: the bank in flight. R244 names no fault for a live bank that has another shadow already:
the model takes ACC.INFLIGHT with that bank (log entry 35). -/
def pairFault (ps : List Pairing) (tag l h : Nat) : Option Nat :=
  match ps.find? fun p => p.shadow == h with
  | some p => if p.live = l ∧ p.tag = tag then none else some h
  | none =>
    -- L + i may not be a shadow, nor have another shadow already
    if ps.any fun p => p.shadow == l || p.live == l then some l else none

/-- MMA.S. R244's faults come before the slot and the SIGT of R240: order 11 of R233 lists the form's own checks in no order of
faults, and this is the model's choice (log entry 23). -/
def execMmaS (c : Ctl) (start : Bool) (tag : Fin 4) (d a b : Operand) (s : State) : Host.Outcome State Fault Refusal :=
  issueS (.mmaS c start tag d a b) c (fun e =>
    let o := (srcSU e a).toNat
    match readMDesc e.s e.b e.q.aid false o with
    | .error x => .error x
    | .ok (md, sa, sb) =>
      match seqBank e d o, seqBank e b o with
      | .error x, _ => .error x
      | _, .error x => .error x
      | .ok live, .ok shadow =>
        let cnt := md.bankCount
        match bankFault e.b live cnt <|> bankFault e.b shadow cnt with
        | some k => flt fAccUnalloc k o
        | none =>
          if cnt ≠ 0 ∧ live < shadow + cnt ∧ shadow < live + cnt then flt fIllegal 7 o
          else
            match (List.range cnt).findSome? fun k => pairFault (e.s.pairsOf e.b) tag.val (live + k) (shadow + k) with
            | some k => flt fAccInflight k o
            | none =>
              match matSlot e.s e.b md o with
              | .error x => .error x
              | .ok slot =>
                let (_, s) := e.s.enqueueMat ⟨e.b, e.q.aid, 63, e.q.pc⟩
                  (matEntry (.mmaS tag.val live shadow) start md sa sb slot [])
                .ok (({ e with s := s }).put e.q.advance)) s

-- Batches (R241).

def State.batchDone (s : State) (l : List Nat) : Bool := l.all fun id => s.om.entries.all fun e => e.id != id || !e.live

/-- The results of a batch take effect and its bindings end; its entries leave. -/
def State.applyBatch (s : State) (b : Block) (w : Warp) (l : List Nat) : State × Block × Warp :=
  let outs := l.flatMap fun id => match (s.entry id).bind Entry.matOf with
    | some m => m.out
    | none => []
  let b := b.putCells (outs.map fun o => (.v o.1 o.2.1, o.2.2.toNat))
  let w := { w with binds := w.binds.filter fun x => !l.contains x.2 }
  ({ s with om := { s.om with entries := s.om.entries.filter fun e => !l.contains e.id } }, b.setWarp w, w)

/-- MWAIT n once its entries have completed: pending results first, then the batch's. -/
def finishBatch (e : WEnv) (n : Nat) : WEnv :=
  let (b, w) := settleAll e.b e.w
  let x := w.batches.getD n ⟨false, []⟩
  let (s, b, w) := e.s.applyBatch b w (if x.out then x.entries else [])
  let w := { w with batches := w.batches.set n ⟨false, []⟩ }
  { e with s := (s.observe w.aid x.entries), b := b.setWarp w, w := w }

def execMcommit (c : Ctl) (n : Fin 4) (s : State) : Host.Outcome State Fault Refusal :=
  issueW (.mcommit c n) c (fun e =>
    let x := e.w.batches.getD n.val ⟨false, []⟩
    if x.out && !e.s.batchDone x.entries then waitOn .other e.s
    else
      let e := if x.out then finishBatch e n.val else e
      let w := { e.w with batches := e.w.batches.set n.val ⟨true, e.w.openB⟩, openB := [], pre := [] }
      .ok (e.put e.b (w.advance c))) s

def execMwait (c : Ctl) (n : Fin 4) (s : State) : Host.Outcome State Fault Refusal :=
  issueW (.mwait c n) c (fun e =>
    let x := e.w.batches.getD n.val ⟨false, []⟩
    if x.out && !e.s.batchDone x.entries then waitOn .other e.s
    else
      let e := finishBatch e n.val
      .ok (e.put e.b (e.w.advance c))) s

-- Accumulator instructions.

/-- The banks named, in ascending order: held, then not in flight (R237, R243, R244). -/
def accChecks (e : WEnv) (bank cnt : Nat) : Except Stop Unit :=
  let busy := warpBanks e.s e.w true
  match (List.range cnt).findSome? fun i =>
      let k := bank + i
      if e.b.hold.acc ≤ k then some (fAccUnalloc, k)
      else if busy.contains k || e.b.paired k then some (fAccInflight, k) else none with
  | some (f, k) => flt f k
  | none => .ok ()

def execAccz (c : Ctl) (bank count : BitVec 19) (s : State) : Host.Outcome State Fault Refusal :=
  let i : Instr := .accz c bank count
  issueW i c (fun e =>
    if e.eff.isEmpty then .ok (retire e.s e i)
    else
      match accChecks e bank.toNat count.toNat with
      | .error x => .error x
      | .ok () =>
        let b := { e.b with acc := e.b.acc.filter fun p =>
          !(decide (bank.toNat ≤ p.1 / 512) && decide (p.1 / 512 < bank.toNat + count.toNat)) }
        .ok (retire e.s { e with b := b } i)) s

def execAccfold (c : Ctl) (bank count : BitVec 19) (s : State) : Host.Outcome State Fault Refusal :=
  let i : Instr := .accfold c bank count
  issueW i c (fun e =>
    if e.eff.isEmpty then .ok (retire e.s e i)
    else
      match accChecks e bank.toNat count.toNat with
      | .error x => .error x
      | .ok () =>
        let ixs := (dedup (e.b.acc.map Prod.fst)).filter fun ix =>
          decide (bank.toNat ≤ ix / 512) && decide (ix / 512 < bank.toNat + count.toNat)
        let b := ixs.foldl (fun b ix =>
          let x := b.getAcc ix
          b.putAcc ix (AccEl.split x.fold 0 x)) e.b
        .ok (retire e.s { e with b := b } i)) s

/-- The control immediate of R248: the stride and the columns moved. -/
def ctlStride (v : BitVec 19) : Nat := v.toNat % 2 ^ 13
def ctlCols (v : BitVec 19) : Nat := v.toNat / 2 ^ 13 % 32 + 1

/-- The checks of ACCLD and ACCST: the bank, the alignment, the bytes. The offset. -/
def accAddr (e : WEnv) (bank : BitVec 19) (a : Operand) (ctl : BitVec 19) (sz : Nat) : Except Stop Nat :=
  match accChecks e bank.toNat 1 with
  | .error x => .error x
  | .ok () =>
    let o := firstV e a
    if o % sz ≠ 0 ∨ ctlStride ctl % sz ≠ 0 then flt fAlign 0 o
    else
      match (List.range 16).findSome? fun i =>
          (e.b.winCheck (o + i * ctlStride ctl : Nat) (ctlCols ctl * sz)).map fun aux => (i, aux) with
      | some (i, aux) => flt fAccess aux (o + i * ctlStride ctl)
      | none => .ok o

/-- The elements moved, with their offsets, in ascending row, then column. -/
def accCells (bank ctl : BitVec 19) (o sz : Nat) : List (Nat × Nat) :=
  (List.range 16).flatMap fun i => (List.range (ctlCols ctl)).map fun j =>
    (accIx bank.toNat i j, o + i * ctlStride ctl + j * sz)

def execAccld (c : Ctl) (raw : Bool) (bank : BitVec 19) (a : Operand) (ctl : BitVec 19) (s : State) :
    Host.Outcome State Fault Refusal :=
  let i : Instr := .accld c raw bank a ctl
  let sz := if raw then 16 else 4
  issueW i c (fun e =>
    if e.eff.isEmpty then .ok (retire e.s e i)
    else
      match accAddr e bank a ctl sz with
      | .error x => .error x
      | .ok o =>
        match (List.range 16).mapM fun r => e.s.readWindow e.w.aid e.b.id (o + r * ctlStride ctl) (ctlCols ctl * sz) with
        | none => waitOn .other e.s
        | some rows =>
          let b := ((List.range 16).zip rows).foldl (fun b r =>
            (List.range (ctlCols ctl)).foldl (fun b j =>
              let v := leNat ((r.2.drop (j * sz)).take sz)
              let x : AccEl := if raw then ⟨BitVec.ofNat 128 v, false, false⟩ else AccEl.split v 0 AccEl.zero
              b.putAcc (accIx bank.toNat r.1 j) x) b) e.b
          .ok (retire e.s { e with b := b } i)) s

/-- A drained element's bytes. -/
def drainEl (kind : AccstKind) (w : Int) (x : AccEl) : List Byte :=
  match kind with
  | .split => leBytes 4 x.fold
  | .wide => leBytes 4 (x.wide32 w)
  | .raw => leBytes 16 x.v.toNat

/-- Stores of the issuing block's window as accesses, one for each line (R35). -/
def localStores (b : Block) (aid inst : Nat) (cells : List Host.Cell) : List Access :=
  (dedup (cells.map fun x => lineOf x.1)).map fun ln =>
    mkAccess b aid inst ⟨0, 0, some b.id, 128 * ln, 128 * ln, 0⟩ (.store (cells.filter fun x => lineOf x.1 == ln)) .buffer

def execAccst (c : Ctl) (kind : AccstKind) (clr : Bool) (bank : BitVec 19) (a : Operand) (ctl : BitVec 19) (s : State) :
    Host.Outcome State Fault Refusal :=
  let i : Instr := .accst c kind clr bank a ctl
  let sz := if kind = .raw then 16 else 4
  issueW i c (fun e =>
    if e.eff.isEmpty then .ok (retire e.s e i)
    else
      match accAddr e bank a ctl sz with
      | .error x => .error x
      | .ok o =>
        let l := accCells bank ctl o sz
        let w := e.b.bw.getD bank.toNat 0
        -- rows that overlap keep the bytes of the last element
        let bytes := l.foldl (fun (m : Assoc Byte) x =>
          (cellsFrom x.2 (drainEl kind w (e.b.getAcc x.1))).foldl (fun m c => aset c.1 c.2 m) m) []
        let b := if clr then l.foldl (fun b x => b.putAcc x.1 AccEl.zero) e.b else e.b
        let (inst, s) := e.s.newId
        .ok ((retire s { e with b := b } i).issueStores e.b.id e.w.aid (localStores e.b e.w.aid inst bytes))) s

-- Speculation tags (R244, R245).

/-- The entries of a tag. -/
def State.tagEntries (s : State) (blk tag : Nat) : List Entry :=
  (s.matEntries blk).filterMap fun p => match p.2.form with
    | .mmaS t _ _ => if t = tag then some p.1 else none
    | _ => none

def Block.unpair (b : Block) (tag : Nat) (commit : Bool) : Block :=
  let ps := b.pair.filter fun p => p.tag == tag
  let b := ps.foldl (fun b p => (if commit then b.copyBank p.shadow p.live else b).zeroBank p.shadow) b
  { b with pair := b.pair.filter fun p => p.tag != tag }

def execShcommit (c : Ctl) (tag : Fin 4) (s : State) : Host.Outcome State Fault Refusal :=
  issueS (.shcommit c tag) c (fun e =>
    let es := e.s.tagEntries e.b.id tag.val
    if es.any Entry.live then waitOn .other e.s
    else
      let s := e.s.observe e.q.aid (es.map Entry.id)
      .ok (({ e with s := s, b := e.b.unpair tag.val true }).put e.q.advance)) s

def execShdrop (c : Ctl) (tag : Fin 4) (s : State) : Host.Outcome State Fault Refusal :=
  issueS (.shdrop c tag) c (fun e =>
    let ids := (e.s.tagEntries e.b.id tag.val).map Entry.id
    let s := { e.s with om := { e.s.om with entries := e.s.om.entries.filter fun x => !ids.contains x.id } }
    .ok (({ e with s := s, b := e.b.unpair tag.val false }).put e.q.advance)) s

end Sys2Proof.Machine
end

