-- ==== Sys2Proof/Machine/Copy.lean ====
section
/-!
DEFINITION. The copy engine (R256 to R271): transfers and their units, the copy instructions, the counts, the stiles and HREV.
-/
namespace Sys2Proof.Machine

-- Transfers.

/-- Bytes of a transfer. -/
def CopyForm.total : CopyForm → Nat
  | .lin n => n
  | .strided x y z _ _ _ _ => x * y * z
  | .indexed _ lg cnt _ _ _ => cnt * 2 ^ lg

/-- Where position `u` of a gather of `sz`-byte elements reads and writes, relative to its ends. -/
def gatherMap (sz stride : Nat) (idx : List Nat) (u : Nat) : Int × Int :=
  ((idx.getD (u / sz) 0 * stride + u % sz : Nat), (u : Nat))

/-- Where the byte at position `u` of the transfer order lies, relative to the source and the destination (R263, R264). -/
def CopyForm.map : CopyForm → Nat → Int × Int
  | .lin _, u => (u, u)
  | .strided x y _ ssy ssz dsy dsz, u =>
    let i : Int := (u % x : Nat)
    let j : Int := (u / x % y : Nat)
    let k : Int := (u / (x * y) : Nat)
    (i + j * ssy + k * ssz, i + j * dsy + k * dsz)
  | .indexed scat lg _ _ estr idx, u =>
    let m := gatherMap (2 ^ lg) estr (idx.getD []) u
    if scat then (m.2, m.1) else m

/-- The positions whose byte lies at these places of source and destination: several where rows overlap at both ends. -/
def CopyForm.posAll (f : CopyForm) (so dO : Int) : List Nat :=
  match f with
  | .lin n => if so = dO ∧ 0 ≤ so ∧ so < n then [so.toNat] else []
  | .strided x y z ssy ssz dsy dsz =>
    (List.range (y * z)).filterMap fun r =>
      let j : Int := (r % y : Nat)
      let k : Int := (r / y : Nat)
      let i := so - j * ssy - k * ssz
      if 0 ≤ i ∧ i < x ∧ dO = i + j * dsy + k * dsz then some (r * x + i.toNat) else none
  | .indexed scat lg cnt _ _ _ =>
    let l := if scat then so else dO
    if 0 ≤ l ∧ l < (cnt * 2 ^ lg : Nat) ∧ f.map l.toNat = (so, dO) then [l.toNat] else []

/-- The first of them. -/
def CopyForm.posOf (f : CopyForm) (so dO : Int) : Option Nat := (f.posAll so dO).head?

/-- The four positions of a word, in ascending address, that holds position u as its byte `r` at both ends; the nearest ones where
the transfer order runs through the word. -/
def CopyForm.word (f : CopyForm) (u r : Nat) : Option (List Nat) :=
  let at_ (i : Nat) : Int × Int := ((f.map u).1 + i - r, (f.map u).2 + i - r)
  let near := (List.range 4).map fun i => u - r + i
  if r ≤ u ∧ u - r + 4 ≤ f.total ∧ (List.range 4).all fun i => f.map (u - r + i) == at_ i then some near
  else (List.range 4).mapM fun i => if i = r then some u else f.posOf (at_ i).1 (at_ i).2

/-- The least byte of an end and the byte past its greatest, for steps `sy` and `sz` of rows and planes (R263). -/
def stridedSpan (x y z : Nat) (sy sz : Int) : Int × Int :=
  if x = 0 ∨ y = 0 ∨ z = 0 then (0, 0)
  else
    let ry := ((y : Int) - 1) * sy
    let rz := ((z : Int) - 1) * sz
    (min 0 ry + min 0 rz, x + max 0 ry + max 0 rz)

/-- The bytes that a form touches at issue's checks: source, destination. An indexed end is checked at BEGIN (R264). -/
def CopyForm.spans : CopyForm → (Int × Int) × (Int × Int)
  | .lin n => ((0, n), (0, n))
  | .strided x y z ssy ssz dsy dsz => (stridedSpan x y z ssy ssz, stridedSpan x y z dsy dsz)
  | .indexed scat lg cnt _ _ _ =>
    let lin : Int × Int := (0, (cnt * 2 ^ lg : Nat))
    if scat then (lin, (0, 0)) else ((0, 0), lin)

-- Where a byte of an end lies.

/-- A place: a byte of a window, of global memory, or of a far buffer. -/
inductive Place where
  | win (blk : Nat) (o : Int)
  | mem (va : Nat)
  | far
  deriving DecidableEq, Repr

/-- What an entry keeps of a handle's table entry at BEGIN: BASE, and above it, for a FAR one, 1 + FARNODE. -/
def Handle.end_ (h : Handle) : Nat := h.base % 2 ^ 54 + (if h.far then (1 + h.node) * 2 ^ 54 else 0)
def endFar (v : Nat) : Bool := decide (2 ^ 54 ≤ v)
/-- The connection of a far end (R291). -/
def endConn (v : Nat) : Nat := (v / 2 ^ 54 - 1) % 2 ^ 12

def End.place (base : Nat) : End → Int → Place
  | .loc blk off, r => .win blk (off + r)
  | .handle _ off, r => if endFar base then .far else .mem ((BitVec.ofNat 54 base + BitVec.ofInt 54 (off + r)).toNat)

/-- The address within its space, for alignment. -/
def Place.addr : Place → Int
  | .win _ o => o
  | .mem va => va
  | .far => 1

/-- A place that an entry may read or write now. -/
inductive Way where
  | wait
  | fail (code : Nat)
  | win (blk : Nat) (o : Int)
  | mem (t : Tlb) (va : Nat)
  deriving DecidableEq, Repr

def State.way (s : State) (e : Entry) (t : AccType) : Place → State × Way
  | .win b o => (s, .win b o)
  | .mem va =>
    let (s, x) := s.entryPage e t va
    (s, match x with
      | .wait => .wait
      | .fail c => .fail c
      | .ok tl => .mem tl va)
  | .far => (s, .wait)

def State.readWay (s : State) (e : Entry) (home : Bool) (w : Way) (n : Nat) : State × List Byte :=
  match w with
  | .win b o => s.windowBytes b o.toNat n
  | .mem tl va => s.entryRead e home tl va n
  | _ => (s, [])

def State.writeWay (s : State) (e : Entry) (home : Bool) (w : Way) (bytes : List Byte) : State :=
  match w with
  | .win b o => s.windowWrite b o.toNat bytes
  | .mem tl va => s.entryWrite e home tl va bytes
  | _ => s

/-- What an attempt at one unit of an entry's work gives. -/
inductive Moved where
  | ok (s : State)
  | wait (s : State)
  | fail (code : Nat) (s : State)
  deriving DecidableEq, Repr

/-- The ways of a list of places, before anything is read or written there. -/
def State.waysAt (s : State) (e : Entry) (t : AccType) (p : Nat → Place) : List Nat → State × Except Moved (List Way)
  | [] => (s, .ok [])
  | i :: r =>
    let (s, w) := s.way e t (p i)
    match w with
    | .wait => (s, .error (.wait s))
    | .fail c => (s, .error (.fail c s))
    | w =>
      match s.waysAt e t p r with
      | (s, .ok l) => (s, .ok (w :: l))
      | x => x

/-- Bytes at a place, each read on its own where they are not one aligned word. -/
def State.readBytes (s : State) (e : Entry) (p : Nat → Place) : List Nat → State × Except Moved (List Byte)
  | [] => (s, .ok [])
  | i :: t =>
    let (s, w) := s.way e .ld (p i)
    match w with
    | .wait => (s, .error (.wait s))
    | .fail c => (s, .error (.fail c s))
    | w =>
      let (s, x) := s.readWay e true w 1
      match s.readBytes e p t with
      | (s, .ok l) => (s, .ok (x ++ l))
      | r => r

-- Copy entries.

def Entry.copyOf (e : Entry) : Option (CopyForm × Route × End × End) :=
  match e.form with
  | .copy f r d x => some (f, r, d, x)
  | _ => none

def Entry.srcPlace (e : Entry) (f : CopyForm) (x : End) (u : Nat) : Place := x.place (e.ends.getD 0 0) (f.map u).1
def Entry.dstPlace (e : Entry) (f : CopyForm) (d : End) (u : Nat) : Place := d.place (e.ends.getD 1 0) (f.map u).2

/-- The bytes an entry may still move: all of them, or those of the pieces it had begun when it was revoked (R260). -/
def Entry.limit (e : Entry) (total : Nat) : Nat := if e.revoked then min total (4096 * e.moved) else total

/-- The unit that holds position u, as positions in ascending address: an aligned word that is moved whole to an aligned word (R271),
whatever the transfer order of its bytes, else the byte. -/
def CopyForm.unit (f : CopyForm) (e : Entry) (d x : End) (u : Nat) : List Nat :=
  let r := (e.srcPlace f x u).addr % 4
  if (e.dstPlace f d u).addr % 4 = r then
    match f.word u r.toNat with
    | some l => if l.all fun p => decide (p < e.limit f.total) && !e.done.contains p then l else [u]
    | none => [u]
  else [u]

/-- Bytes of a unit that were read ahead of their write stay as they were read. -/
def Entry.asRead (e : Entry) (l : List Nat) (bytes : List Byte) : List Byte :=
  (l.zip bytes).map fun p => ((aget p.1 e.early).map (BitVec.ofNat 8)).getD p.2

/-- One unit of a copy: read, unless it was read ahead, and written in one store (R262, R271). -/
def State.copyUnit (s : State) (e : Entry) (f : CopyForm) (d x : End) (l : List Nat) : Moved :=
  let u := l.headD 0
  match l.mapM fun p => aget p e.early with
  | some vs =>
    let (s, w) := s.way e .st (e.dstPlace f d u)
    (match w with
     | .wait => .wait s
     | .fail c => .fail c s
     | w => .ok (s.writeWay e false w (vs.map (BitVec.ofNat 8))))
  | none =>
    let (s, a) := s.way e .ld (e.srcPlace f x u)
    let (s, b) := s.way e .st (e.dstPlace f d u)
    match a, b with
    | .fail c, _ => .fail c s
    | .wait, _ => .wait s
    | _, .fail c => .fail c s
    | _, .wait => .wait s
    | a, b =>
      let (s, bytes) := s.readWay e false a l.length
      .ok (s.writeWay e false b (e.asRead l bytes))

/-- The bytes of a unit read ahead of their write: reads and writes of an entry are mutually unordered (R43). -/
def State.copyAhead (s : State) (e : Entry) (f : CopyForm) (x : End) (l : List Nat) : State :=
  if l.all fun p => (aget p e.early).isSome then s
  else
    let (s, w) := s.way e .ld (e.srcPlace f x (l.headD 0))
    match w with
    | .wait => s
    | .fail _ => s
    | w =>
      let (s, bytes) := s.readWay e false w l.length
      s.setEntry { e with early :=
        (l.zip (e.asRead l bytes)).foldl (fun m p => aset p.1 p.2.toNat m) e.early }

/-- Whether every byte before position u is moved or can be now: what an entry has moved where it ends early is a prefix of its
transfer. -/
def State.copyClear (s : State) (e : Entry) (f : CopyForm) (d x : End) (u : Nat) : Bool :=
  (List.range u).all fun p =>
    e.done.contains p || (match (s.way e .ld (e.srcPlace f x p)).2, (s.way e .st (e.dstPlace f d p)).2 with
      | .fail _, _ => false
      | .wait, _ => false
      | _, .fail _ => false
      | _, .wait => false
      | _, _ => true)

-- BEGIN of a copy (R260, R262, R264).

/-- The handles a copy names, source first. -/
def copyHandles (d x : End) : List Nat :=
  [x, d].filterMap fun z => match z with
    | .handle h _ => some h
    | .loc _ _ => none

/-- BASE of the handle an end names. -/
def State.endBase (s : State) (ctx : Nat) : End → Nat
  | .handle h _ => (s.handleAt ctx (handleSlot h)).end_
  | .loc _ _ => 0

/-- Whether an element of an indexed end lies in it (R264). -/
def State.elemOk (s : State) (ctx : Nat) (z : End) (o n : Nat) : Bool :=
  match z with
  | .handle h off => decide (off + o + n ≤ (s.handleAt ctx (handleSlot h)).len)
  | .loc blk off => match s.windowOf blk with
    | some w => (w.check ((off + o : Nat) : Int) n).isNone
    | none => false

def little (l : List Nat) : Nat := l.foldr (fun b n => b + 256 * n) 0

/-- A byte of a list in the issuer's window, which outlives the block (R16): as read early, or as it is now. -/
def State.listByte (s : State) (e : Entry) (o : Nat) : Nat :=
  match aget o e.early with
  | some v => v
  | none => match s.windowOf e.blk with
    | some w => (byteAt w.bytes o).toNat
    | none => 0

/-- The index list of an entry (R264). -/
def State.indexList (s : State) (e : Entry) (laddr count : Nat) : List Nat :=
  (List.range count).map fun j => little ((List.range 4).map fun i => s.listByte e (laddr + 4 * j + i))

/-- Whether the window byte at `o` may be read for an entry before its BEGIN: no earlier store of the issuer to it travels. -/
def State.earlyOk (s : State) (e : Entry) (o : Nat) : Bool :=
  e.pre.all fun id => match s.access id with
    | some a => !(a.loc == some e.blk && (storeBytes a).any fun c => c.1 == o)
    | none => true

/-- One list byte read between issue and BEGIN. -/
def State.readEarly (s : State) (e : Entry) (lo n o : Nat) : State :=
  if lo ≤ o ∧ o < lo + n ∧ (aget o e.early).isNone && s.earlyOk e o then
    s.setEntry { e with early := aset o (s.listByte e o) e.early }
  else s

/-- The verdict of BEGIN: GONE, or RANGE with the lowest failing position. -/
def State.copyVerdict (s : State) (e : Entry) (f : CopyForm) (r : Route) (d x : End) : Option (Nat × Nat) :=
  let gone := (r == .tl || r == .tg) && (match d with
    | .loc blk _ => (s.block blk).isNone
    | .handle _ _ => false)
  if gone then some (4, 0)
  else
    match f with
    | .indexed scat lg _ _ estr idx =>
      let ix := idx.getD []
      let z := if scat then d else x
      match (List.range ix.length).find? fun j => !s.elemOk e.ctx z (ix.getD j 0 * estr) (2 ^ lg) with
      | some j => some (3, j)
      | none => none
    | _ => none

def State.copyBegin (s : State) (e : Entry) (f : CopyForm) (r : Route) (d x : End) : State :=
  let f := match f with
    | .indexed scat lg cnt la es none => .indexed scat lg cnt la es (some (s.indexList e la cnt))
    | f => f
  let live := (copyHandles d x).all fun h => s.handleLive e.ctx h
  s.setEntry { e with
    st := .begun, form := .copy f r d x, ends := [s.endBase e.ctx x, s.endBase e.ctx d], early := []
    verdict := if e.revoked || !live then none else s.copyVerdict e f r d x
    revoked := e.revoked || !live }

/-- Whether an end is far. -/
def Entry.farEnd (e : Entry) : Bool := e.ends.any endFar

-- Issue (R261 to R264).

/-- What a copy's operands give: the values of D and A, and where they came from. -/
structure CopyOps where
  p     : Poster
  route : Route
  dv    : Nat
  sv    : Nat
  deriving DecidableEq, Repr

def routeDst : Route → Nat          -- 0 local, 1 handle, 2 team
  | .ll => 0
  | .lg => 0
  | .gl => 1
  | .gg => 1
  | .tl => 2
  | .tg => 2

def routeSrcHandle : Route → Bool
  | .lg => true
  | .gg => true
  | .tg => true
  | _ => false

/-- The block of a team with a WF1: its identifier; none where the team has none. -/
def State.teamBlock (s : State) (b : Block) (wf1 : Nat) : Option Nat :=
  match s.team b.team with
  | some t => t.blocks[wf1]?
  | none => if wf1 = b.wf1 then some b.id else none

/-- R196 for the bytes from `lo` to before `hi` of a window, which a block that has ended does not have. Of a strided form the
least and the greatest byte alone are checked (R263). -/
def State.blockRange (s : State) (f : CopyForm) (blk : Nat) (lo hi : Int) (tr : Nat) : Except Stop Unit :=
  if hi ≤ lo then .ok ()
  else
    match s.block blk with
    | none => flt fAccess 1 tr
    | some b =>
      match f with
      | .strided _ _ _ _ _ _ _ =>
        (match localRange b lo 1 tr with
         | .error x => .error x
         | .ok () => localRange b (hi - 1) 1 tr)
      | _ => localRange b lo (hi - lo).toNat tr

/-- The ends of a copy and the block whose stiles it may signal remotely, after the checks of R261, R259 and R196. -/
def copyEnds (s : State) (c : CopyOps) (f : CopyForm) : Except Stop (End × End × Nat) :=
  let b := c.p.b
  let sp := f.spans
  let hof (v : Nat) (r : Int × Int) (wr : Bool) : HEnd :=
    let off := v / 2 ^ 32 % 2 ^ 32
    ⟨v % 2 ^ 32, off, if r.1 < r.2 then off + r.1 else 0, if r.1 < r.2 then off + r.2 else 0, wr⟩
  let hs := (if routeSrcHandle c.route then [hof c.sv sp.1 false] else []) ++
    (if routeDst c.route = 1 then [hof c.dv sp.2 true] else [])
  match s.handleChecks b.ctx hs with
  | .error x => .error x
  | .ok () =>
    let dst : Except Stop (End × Nat) :=
      if routeDst c.route = 1 then .ok (.handle (c.dv % 2 ^ 32) (c.dv / 2 ^ 32 % 2 ^ 32), b.id)
      else if routeDst c.route = 0 then
        match s.blockRange f b.id (c.dv + sp.2.1) (c.dv + sp.2.2) c.dv with
        | .error x => .error x
        | .ok () => .ok (.loc b.id c.dv, b.id)
      else
        let off := c.dv % 2 ^ 19
        match s.teamBlock b (c.dv / 2 ^ 24 % 8) with
        | none => flt fAccess 12 off
        | some blk =>
          match s.blockRange f blk (off + sp.2.1) (off + sp.2.2) off with
          | .error x => .error x
          | .ok () => .ok (.loc blk off, blk)
    match dst with
    | .error x => .error x
    | .ok (d, blk) =>
      if routeSrcHandle c.route then .ok (d, .handle (c.sv % 2 ^ 32) (c.sv / 2 ^ 32 % 2 ^ 32), blk)
      else
        match s.blockRange f b.id (c.sv + sp.1.1) (c.sv + sp.1.2) c.sv with
        | .error x => .error x
        | .ok () => .ok (d, .loc b.id c.sv, blk)

/-- The signal word's own rules (R261). -/
def sigBad (sig : Nat) (r : Route) : Bool := decide (256 ≤ sig) || (sigRemote sig && routeDst r != 2)

/-- A stile named with SIGE that the signalled block does not hold. -/
def State.stileBad (s : State) (blk sig : Nat) : Bool :=
  sigOn sig && (match s.block blk with
    | some b => decide (b.hold.stile ≤ sigStile sig)
    | none => true)

/-- The checks of a copy, then its enqueue: the new entry. -/
def copyIssue (s : State) (c : CopyOps) (q : QReg) (f : CopyForm) (sig : Nat) : Except Stop (Entry × State) :=
  if sigBad sig c.route then flt fIllegal 1
  else
    match copyEnds s c f with
    | .error x => .error x
    | .ok (d, x, blk) =>
      let sb := if sigRemote sig then blk else c.p.b.id
      if s.stileBad sb sig then flt fAccUnalloc (0x200 + sigStile sig)
      else if !s.poolHas c.p.b.ctx 1 then waitOn .other s
      else .ok (s.enqueue c.p (.cq c.p.b.gcore q.val) sig sb (.copy f c.route d x))

/-- A descriptor of `n` bytes, `n`-byte aligned in the window, read at issue (R356): its words. -/
def readDesc (s : State) (b : Block) (aid o n : Nat) : Except Stop (List Nat) :=
  if o % n ≠ 0 then flt fAlign 0 o
  else
    match localRange b o n o with
    | .error x => .error x
    | .ok () =>
      match s.readWindow aid b.id o n with
      | none => waitOn .other s
      | some bytes => .ok (wordsOf bytes)

/-- A signed 32-bit field. -/
def sx32 (n : Nat) : Int := (BitVec.ofNat 32 n).toInt

/-- CPYS (R263): the form and the signal word. -/
def cpysForm (s : State) (b : Block) (aid o : Nat) : Except Stop (CopyForm × Nat) :=
  match readDesc s b aid o 32 with
  | .error x => .error x
  | .ok w =>
    let g (i : Nat) : Nat := w.getD i 0
    let x := g 0 % 2 ^ 32
    let y := g 0 / 2 ^ 32 % 2 ^ 16
    let z := g 0 / 2 ^ 48
    if g 3 / 256 ≠ 0 then flt fIllegal 1 o
    else if 2 ^ 32 ≤ x * y * z then flt fIllegal 4 o
    else .ok (.strided x y z (sx32 (g 1)) (sx32 (g 1 / 2 ^ 32)) (sx32 (g 2)) (sx32 (g 2 / 2 ^ 32)), g 3)

/-- CPYX (R264). -/
def cpyxForm (s : State) (b : Block) (aid o : Nat) : Except Stop (CopyForm × Nat) :=
  match readDesc s b aid o 16 with
  | .error x => .error x
  | .ok w =>
    let a := w.getD 0 0
    let k := w.getD 1 0
    let laddr : Nat := a % 2 ^ 19
    let lg := a / 2 ^ 20 % 16
    let cnt := a / 2 ^ 32 % 2 ^ 16
    if a / 2 ^ 48 ≠ 0 ∨ k / 2 ^ 32 ≠ 0 then flt fIllegal 1 o
    else if 13 ≤ lg then flt fIllegal 0 o
    else if laddr % 4 ≠ 0 then flt fAlign 0 o
    else
      match localRange b laddr (4 * cnt) laddr with
      | .error x => .error x
      | .ok () => .ok (.indexed (a.testBit 19) lg cnt laddr (k % 2 ^ 32) none, a / 2 ^ 24 % 256)

/-- The value of an operand of a copy on a warp, at the first lane. -/
def endW (e : WEnv) (handle : Bool) (o : Operand) : Nat := if handle then firstPair e o else firstV e o

def copyOpsW (e : WEnv) (r : Route) (d a : Operand) : CopyOps where
  p := ⟨e.b, e.w.aid, e.w.k, e.w.pc⟩
  route := r
  dv := endW e (routeDst r == 1) d
  sv := endW e (routeSrcHandle r) a

def copyOpsS (e : SEnv) (r : Route) (d a : Operand) : CopyOps where
  p := ⟨e.b, e.q.aid, 63, e.q.pc⟩
  route := r
  dv := (srcSU e d).toNat
  sv := (srcSU e a).toNat

/-- An entry has joined a queue of the warp: its ticket, and the park of a yield (R256, R267). -/
def enqueuedW (e : WEnv) (i : Instr) (park : Bool) (n : Entry) (s : State) : State :=
  let w := { e.w with tickets := setTicket e.w.tickets n.queue (e.b.view n.queue n.num) }
  let s := retire s { e with w := w } i
  if park then setWaitW s e.b.id e.w.k (.park n.id) else s

def enqueuedS (e : SEnv) (n : Entry) (s : State) : State :=
  let q := { e.q.advance with tickets := setTicket e.q.tickets n.queue (e.b.view n.queue n.num) }
  ({ e with s := s }).put q

/-- CPY, CPYS and CPYX over what gives their form and signal word. -/
def copyOp (i : Instr) (c : Ctl) (q : QReg) (r : Route) (d a : Operand)
    (fw : WEnv → Except Stop (CopyForm × Nat)) (fs : SEnv → Except Stop (CopyForm × Nat)) (s : State) :
    Host.Outcome State Fault Refusal :=
  issue i c
    (fun e =>
      if e.eff.isEmpty then .ok (retire e.s e i)
      else
        match fw e with
        | .error x => .error x
        | .ok (f, sig) =>
          match copyIssue e.s (copyOpsW e r d a) q f sig with
          | .error x => .error x
          | .ok (n, s) => .ok (enqueuedW e i c.yld n s))
    (fun e =>
      match fs e with
      | .error x => .error x
      | .ok (f, sig) =>
        match copyIssue e.s (copyOpsS e r d a) q f sig with
        | .error x => .error x
        | .ok (n, s) => .ok (enqueuedS e n s)) s

def execCpy (c : Ctl) (q : QReg) (r : Route) (d a b : Operand) (s : State) : Host.Outcome State Fault Refusal :=
  copyOp (.cpy c q r d a b) c q r d a
    (fun e => .ok (match b with
      | .imm v => (.lin v.toNat, 0)
      | o => (.lin (firstPair e o % 2 ^ 32), firstPair e o / 2 ^ 32)))
    (fun e => match b with
      | .imm v => .ok (.lin v.toNat, 0)
      | o =>
        let v := (srcS e o).toNat
        if v / 2 ^ 40 ≠ 0 then flt fIllegal 0 else .ok (.lin (v % 2 ^ 32), v / 2 ^ 32)) s

def execCpys (c : Ctl) (q : QReg) (r : Route) (d a b : Operand) (s : State) : Host.Outcome State Fault Refusal :=
  copyOp (.cpys c q r d a b) c q r d a (fun e => cpysForm e.s e.b e.w.aid (firstV e b))
    (fun e => cpysForm e.s e.b e.q.aid (srcSU e b).toNat) s

def execCpyx (c : Ctl) (q : QReg) (r : Route) (d a b : Operand) (s : State) : Host.Outcome State Fault Refusal :=
  copyOp (.cpyx c q r d a b) c q r d a (fun e => cpyxForm e.s e.b e.w.aid (firstV e b))
    (fun e => cpyxForm e.s e.b e.q.aid (srcSU e b).toNat) s

/-- QFENCE (R43). With an empty effective set it does nothing, which R268 does not say (log entry 27). -/
def execQfence (c : Ctl) (mask : BitVec 19) (s : State) : Host.Outcome State Fault Refusal :=
  let named (q : QueueId) : Bool := match q with
    | .cq _ k => mask.getLsbD k
    | _ => false
  issue (.qfence c mask) c
    (fun e =>
      if e.eff.isEmpty then .ok (retire e.s e (.qfence c mask))
      else .ok (retire (e.s.fenceQueues e.w.aid named) e (.qfence c mask)))
    (fun e => .ok (({ e with s := e.s.fenceQueues e.q.aid named }).put e.q.advance)) s

-- Counts (R256, R268, R269, R286, R287).

/-- What SEQRD and MRSTAT read. -/
def State.seqValue (s : State) (b : Block) (tickets : List Nat) (q : QueueId) (kind : SeqKind) (t : Operand → Nat) : Nat :=
  match kind with
  | .seq => b.view q (s.queue q).seq
  | .enq => b.view q (s.queue q).enq
  | .ticket => ticketOf tickets q
  | .status a => (s.statusOf b q (t a)).toNat

def readCount (i : Instr) (c : Ctl) (q : Block → QueueId) (kind : SeqKind) (d : Operand) (s : State) :
    Host.Outcome State Fault Refusal :=
  issue i c
    (fun e => .ok (pairResult e i d (e.s.seqValue e.b e.w.tickets (q e.b) kind (firstPair e))))
    (fun e => .ok (seqResult e d (e.s.seqValue e.b e.q.tickets (q e.b) kind fun o => (srcSU e o).toNat))) s

def execSeqrd (c : Ctl) (q : QReg) (kind : SeqKind) (d : Operand) (s : State) : Host.Outcome State Fault Refusal :=
  readCount (.seqrd c q kind d) c (fun b => .cq b.gcore q.val) kind d s

/-- A warp whose wait has ended: what it observes, its pending results, its bypass (R86, R144). -/
def endWait (e : WEnv) (i : Instr) (ids : List Nat) : State :=
  let (b, w) := settleAll e.b e.w
  retire (e.s.observe w.aid ids) { e with b := b, w := w } i

/-- SEQWAIT and MSEQWAIT on target t: SEQ.NEVER, or whether the wait ends now. -/
def State.seqReached (s : State) (b : Block) (q : QueueId) (aux t : Nat) : Except Stop Bool :=
  if b.view q (s.queue q).enq < t then flt fSeqNever aux else .ok (decide (t ≤ b.view q (s.queue q).seq))

def waitCount (i : Instr) (c : Ctl) (q : Block → QueueId) (aux : Nat) (a : Operand) (s : State) :
    Host.Outcome State Fault Refusal :=
  issue i c
    (fun e =>
      -- with no effective lane nothing is waited for, but an instruction of class WAIT still shows every earlier result
      if e.eff.isEmpty then .ok (endWait e i [])
      else
        let t := firstPair e a
        match e.s.seqReached e.b (q e.b) aux t with
        | .error x => .error x
        | .ok true => .ok (endWait e i (e.s.entriesUpTo (q e.b) ((t + e.b.biasOf (q e.b)) % 2 ^ 64)))
        | .ok false => waitOn .other e.s)
    (fun e =>
      let t := (srcSU e a).toNat
      match e.s.seqReached e.b (q e.b) aux t with
      | .error x => .error x
      | .ok true => .ok (({ e with s := e.s.observe e.q.aid (e.s.entriesUpTo (q e.b) ((t + e.b.biasOf (q e.b)) % 2 ^ 64)) }).put
          e.q.advance)
      | .ok false => waitOn .other e.s) s

def execSeqwait (c : Ctl) (q : QReg) (a : Operand) (s : State) : Host.Outcome State Fault Refusal :=
  waitCount (.seqwait c q a) c (fun b => .cq b.gcore q.val) q.val a s

-- Stiles (R265).

/-- A stile operand on the sequencer (R268). -/
def stileS (e : SEnv) (o : Operand) : Except Stop Nat :=
  let n := (srcSU e o).toNat
  if 64 ≤ n then flt fIllegal 0
  else if e.b.hold.stile ≤ n then flt fAccUnalloc (0x200 + n)
  else .ok n

/-- A stile operand on a warp: an immediate. -/
def stileW (e : WEnv) (o : Operand) : Except Stop Nat :=
  let n := match o with
    | .imm v => v.toNat
    | _ => 0
  if e.b.hold.stile ≤ n then flt fAccUnalloc (0x200 + n) else .ok n

def Block.stileAt (b : Block) (n : Nat) : Stile := b.stiles.getD n ⟨0, 0, []⟩

def execStinit (c : Ctl) (d a : Operand) (s : State) : Host.Outcome State Fault Refusal :=
  issueS (.stinit c d a) c (fun e =>
    match stileS e d with
    | .error x => .error x
    | .ok n =>
      let t := (srcSU e a).toNat
      if 65535 < t then flt fIllegal 0
      else .ok (({ e with b := { e.b with stiles := e.b.stiles.set n ⟨0, t, []⟩ } }).put e.q.advance)) s

/-- An arrival adds 1. -/
def Block.arrive (b : Block) (n : Nat) : Block :=
  { b with stiles := b.stiles.modify n fun x => { x with cnt := min (x.cnt + 1) 65535 } }

/-- STARR: as FENCE.CORE, then the arrival. -/
def execStarr (c : Ctl) (d : Operand) (s : State) : Host.Outcome State Fault Refusal :=
  let i : Instr := .starr c d
  issue i c
    (fun e =>
      if e.eff.isEmpty then .ok (retire e.s e i)
      else
        match stileW e d with
        | .error x => .error x
        | .ok n =>
          if !e.s.agentSettled true .core e.w.aid then waitOn .other e.s
          else .ok (retire e.s { e with b := e.b.arrive n } i))
    (fun e =>
      match stileS e d with
      | .error x => .error x
      | .ok n =>
        if !e.s.agentSettled true .core e.q.aid then waitOn .other e.s
        else .ok (({ e with b := e.b.arrive n }).put e.q.advance)) s

def Stile.reached (x : Stile) : Bool := x.tgt != 0 && decide (x.tgt ≤ x.cnt)

def execStwait (c : Ctl) (a : Operand) (s : State) : Host.Outcome State Fault Refusal :=
  let i : Instr := .stwait c a
  issue i c
    (fun e =>
      if e.eff.isEmpty then .ok (endWait e i [])
      else
        match stileW e a with
        | .error x => .error x
        | .ok n =>
          if (e.b.stileAt n).reached then .ok (endWait e i (e.b.stileAt n).obs) else waitOn (.stile n) e.s)
    (fun e =>
      match stileS e a with
      | .error x => .error x
      | .ok n =>
        if (e.b.stileAt n).reached then
          .ok (({ e with s := e.s.observe e.q.aid (e.b.stileAt n).obs }).put e.q.advance)
        else waitOn (.stile n) e.s) s

-- Revocation (R260, R270).

def BdForm.handles : BdForm → List Nat
  | .mgath g _ srch _ dsth _ _ _ _ _ _ _ => if g then [srch, dsth] else [srch]
  | .cvt srch _ dsth _ _ _ _ _ _ => [srch, dsth]
  | .stripe srch _ dsth _ _ _ _ _ _ _ => [srch, dsth]
  | .mxv bh _ oh _ sh _ _ _ _ _ _ sched _ _ _ => if sched then [bh, oh, sh] else [bh, oh]

/-- The handles an entry names. -/
def Entry.handles (e : Entry) : List Nat :=
  match e.form with
  | .copy _ _ d x => copyHandles d x
  | .mat _ => []
  | .bd f => f.handles
  | .net w => [w.lh]

/-- The slot's generation is advanced, and the entries that hold the old handle are marked. -/
def State.revoke (s : State) (ctx h : Nat) : State :=
  let slot := handleSlot h
  let a := (s.ctx ctx).htab + 32 * slot + 16
  let s := s.writeHome 0 (cellsFrom a (leBytes 2 (handleGen h + 1)))
  { s with om := { s.om with entries := s.om.entries.map fun e =>
      if e.ctx = ctx ∧ e.live && e.handles.contains h then { e with revoked := true } else e } }

def newHandle (h : Nat) : Nat := (handleGen h + 1) % 2 ^ 16 * 2 ^ 16 + handleSlot h

/-- The positions a base-die entry works through: bytes of its destination, which it writes in pieces, or the outputs of an MXV, a
column block after another (R277, R282). -/
def BdForm.total : BdForm → Nat
  | .mgath _ sum _ _ _ _ _ gm1 count rsz _ _ => (if sum then count / (gm1 + 1) else count) * rsz
  | .cvt _ _ _ _ count _ toF _ _ => count * fmtBytes toF
  | .stripe _ _ _ _ k n _ toF _ _ => 64 + (k + 1023) / 1024 * 1024 * n * fmtBytes toF
  | .mxv _ _ _ _ _ _ _ _ vm1 _ _ _ _ n _ => (vm1 + 1) * n

/-- The vector and the column of output `p` of an MXV with `v` vectors and `n` columns, and its column block. -/
def mxvAt (v n p : Nat) : Nat × Nat :=
  let c := p / (64 * v)
  let w := min 64 (n - 64 * c)
  (p % (64 * v) / w, 64 * c + p % (64 * v) % w)
def mxvBlock (v p : Nat) : Nat := p / (64 * v)

/-- The column block of which some outputs are written and some are not. -/
def mxvPartial (v n : Nat) (done : List Nat) : Option Nat :=
  (done.map (mxvBlock v)).find? fun c =>
    (done.filter fun p => mxvBlock v p == c).length != v * min 64 (n - 64 * c)

/-- The positions of an entry's work. -/
def Entry.total (e : Entry) : Nat :=
  match e.form with
  | .copy f _ _ _ => f.total
  | .bd f => f.total
  | _ => 0

/-- Whether the entry may still work on a position: one of a piece begun, after a revocation (R260). An MXV writes one column
block at a time, and no other after a revocation (R277, R282). -/
def Entry.mayWork (e : Entry) (p : Nat) : Bool :=
  match e.form with
  | .bd (.mxv _ _ _ _ _ _ _ _ vm1 _ _ _ _ n _) =>
    (match mxvPartial (vm1 + 1) n e.done with
     | some c => mxvBlock (vm1 + 1) p == c
     | none => !e.revoked)
  | _ => decide (p < e.limit e.total)

/-- Whether an entry has stopped after a revocation: what it had begun is done. A message stops when it completes. -/
def Entry.stopped (e : Entry) : Bool :=
  !e.live || e.st == .queued || (match e.form with
    | .net _ => false
    | _ => (List.range e.total).all fun p => e.done.contains p || !e.mayWork p)

def execHrev (c : Ctl) (d a : SReg) (s : State) : Host.Outcome State Fault Refusal :=
  issueS (.hrev c d a) c (fun e =>
    let finish (s : State) (h : Nat) : Except Stop State :=
      if s.om.entries.all fun x => !(x.ctx == e.b.ctx && x.revoked && x.handles.contains h) || x.stopped then
        .ok (({ e with s := s }).put (e.q.advance.put d.val (BitVec.ofNat 64 (newHandle h))))
      else waitOn (.revoke h) s
    match e.q.wait with
    | .revoke h => finish e.s h
    | _ =>
      if !e.s.agentSettled true .pkg e.q.aid then waitOn .other e.s
      else
        let s := e.s.dropLeases e.b.die
        let h := (e.q.get a.val).toNat % 2 ^ 32
        if !s.handleLive e.b.ctx h then .ok (({ e with s := s }).put (e.q.advance.put d.val 0))
        else finish (s.revoke e.b.ctx h) h) s

/-- HANDLE_GEN_RAISE: the die kernel revokes a slot (R260). -/
def execHandleGenRaise (die : DieNo) (ctx slot : Nat) (s : State) : Host.Outcome State Fault Refusal :=
  .next (if (s.die die.val).st == .live && decide (slot < (s.ctx ctx).hsize) then
      s.revoke ctx ((s.handleAt ctx slot).gen * 2 ^ 16 + slot)
    else s)

end Sys2Proof.Machine
end

