-- ==== Sys2Proof/Machine/BaseDie.lean ====
section
/-!
DEFINITION. The base-die engines (R274 to R287): MGATH, MCONV and MXV with the checks of their issue and of their BEGIN, the units
of their work, and the waits and counts of their queues.
-/
namespace Sys2Proof.Machine

-- Formats of MCONV (R285).

def convKnown (f : Nat) : Bool := fmtKnown f || f == 0x22

/-- An element converted under R58 and R59. -/
def convElem (fromF toF : Nat) (sat : Bool) (rnd : Rnd) (code : Nat) : Nat :=
  let x := elemDec fromF code
  if toF < 32 then (B8.ofCode toF).enc (.mode rnd) sat x
  else if toF = 0x20 then f16.enc rnd x else if toF = 0x21 then bf16.enc rnd x else f32.enc rnd x

-- Pages of an end.

/-- The first byte of a range on each of its pages, with the bytes there. -/
def pagesOf (va n : Nat) : List (Nat × Nat) :=
  if n = 0 then []
  else (List.range ((va % 2 ^ 16 + n + 2 ^ 16 - 1) / 2 ^ 16)).map fun i =>
    let lo := if i = 0 then va else (va / 2 ^ 16 + i) * 2 ^ 16
    let hi := min (va + n) ((va / 2 ^ 16 + i + 1) * 2 ^ 16)
    (lo % 2 ^ 54, hi - lo)

/-- A page as BEGIN's own checks find it: through the die's cache or the tables, and held by a shoot-down alone. Nothing has to stand
in the cache for it: the bytes themselves are translated while the entry runs (R259). -/
def State.pageNow (s : State) (e : Entry) (t : AccType) (va : Nat) : EntryX :=
  let d := s.die e.die
  if d.held.any fun h => h.covers e.ctx va then .wait
  else
    let found := match tlbFind d.tlb e.ctx va with
      | some x => some x
      | none => match s.walkTables e.ctx va with
        | .ok pte base size pa => some ⟨e.ctx, base, size, pte, pa⟩
        | .fail _ => none
    match found with
    | none => .fail 2
    | some x => match s.checkPage e.die t x.pte (x.phys va) with
      | none => .ok x
      | some f => .fail (if f.cls = 2 then 8 else 2)

/-- What BEGIN finds of the pages of its ends: wait, a status that ends the entry, or physical ranges. -/
inductive Segs where
  | wait
  | fail (code : Nat)
  | ok (l : List (Nat × Nat))
  deriving DecidableEq, Repr

def State.segs (s : State) (e : Entry) (t : AccType) : List (Nat × Nat) → Segs
  | [] => .ok []
  | (va, n) :: r =>
    match s.pageNow e t va with
    | .fail c => .fail c
    | .wait => .wait
    | .ok tl =>
      match s.segs e t r with
      | .ok l => .ok ((tl.phys va, n) :: l)
      | x => x

/-- Whether physical ranges lie in one stack. -/
def State.oneStack (s : State) (l : List (Nat × Nat)) : Bool :=
  (l.all fun x => s.phys.region x.1 == .hbm || s.phys.region x.1 == .staging) &&
  (match l with
   | [] => true
   | x :: t => t.all fun y => stackOf y.1 == stackOf x.1)

def segsMeet (a b : List (Nat × Nat)) : Bool :=
  a.any fun x => b.any fun y => decide (x.1 < y.1 + y.2) && decide (y.1 < x.1 + x.2)

-- Reading and writing.

/-- A value of `n` bytes at a place, each byte bound on its own. -/
def State.readVal (s : State) (e : Entry) (p : Nat → Place) (n : Nat) : State × Except Moved Nat :=
  match s.readBytes e p (List.range n) with
  | (s, .ok l) => (s, .ok (leNat l))
  | (s, .error x) => (s, .error x)

/-- Bytes written at the places from number `i` on, none before each of them can be. -/
def State.putBytesAt (s : State) (e : Entry) (p : Nat → Place) (i : Nat) (l : List Byte) : Moved :=
  match s.waysAt e .st p ((List.range l.length).map fun k => i + k) with
  | (_, .error x) => x
  | (s, .ok ws) => .ok ((ws.zip l).foldl (fun (s : State) x => s.writeWay e true x.1 [x.2]) s)

/-- The place of a byte of the handle end numbered `k` in `ends`. -/
def Entry.at_ (e : Entry) (k off : Nat) (r : Nat) : Place := (End.handle 0 off).place (e.ends.getD k 0) r

-- Work of MGATH (R284).

/-- What lies at source position u = j * rsz + o of an MGATH, `n` bytes: as read ahead, or now. -/
def State.gathSrc (s : State) (e : Entry) (srcoff rsz rstr : Nat) (idx : List Nat) (u n : Nat) : State × Except Moved Nat :=
  match aget u e.early with
  | some v => (s, .ok v)
  | none => s.readVal e (fun i => e.at_ 0 srcoff ((gatherMap rsz rstr idx u).1.toNat + i)) n

/-- One FP32 element of an output row under SUM: positions of the group in ascending order. -/
def State.sumWord (s : State) (e : Entry) (srcoff rsz rstr : Nat) (idx : List Nat) (o : Nat) (acc : Option Nat) :
    List Nat → State × Except Moved Nat
  | [] => (s, .ok (acc.getD 0))
  | j :: t =>
    match s.gathSrc e srcoff rsz rstr idx (j * rsz + o) 4 with
    | (s, .error x) => (s, .error x)
    | (s, .ok v) => s.sumWord e srcoff rsz rstr idx o (some (match acc with
        | none => v
        | some a => f32.add .rne a v)) t

/-- Where an MGATH writes position u. -/
def Entry.gathDst (e : Entry) (g : Bool) (dstoff u : Nat) : Place :=
  if g then e.at_ 1 dstoff u else .win e.blk (dstoff + u : Nat)

-- Work of MCONV (R285).

/-- A source element's code: as read before, or now. -/
def State.srcElem (s : State) (e : Entry) (srcoff sz i : Nat) : State × Except Moved Nat :=
  match aget i e.early with
  | some v => (s, .ok v)
  | none => s.readVal e (fun k => e.at_ 0 srcoff (i * sz + k)) sz

/-- Source elements read and kept. -/
def State.keepElems (s : State) (id srcoff sz : Nat) : List Nat → Moved
  | [] => .ok s
  | i :: t =>
    match s.entry id with
    | none => .ok s
    | some e =>
      if (aget i e.early).isSome then s.keepElems id srcoff sz t
      else
        match s.srcElem e srcoff sz i with
        | (_, .error x) => x
        | (s, .ok v) => (s.setEntry { e with early := aset i v e.early }).keepElems id srcoff sz t

/-- The bytes of a stripe header (R280). -/
def stripeHeader (k n fmt : Nat) : List Byte := leBytes 8 (k + n * 2 ^ 16 + fmt * 2 ^ 32) ++ List.replicate 56 0

/-- The source index of element `x` of the striped data; none for padding. -/
def stripeSrc (k n x : Nat) : Option Nat :=
  let j := x / (1024 * n)
  let c := x % (1024 * n) / 1024
  let row := 1024 * j + x % 1024
  if row < k then some (row * n + c) else none

/-- Where element (k, n) of a striped matrix lies, past the header (R280). -/
def stripeOff (n sz k c : Nat) : Nat := k / 1024 * 1024 * n * sz + c * 1024 * sz + k % 1024 * sz

-- Work of MXV (R282).

/-- The key under which an element of B is kept. -/
def bKey (n k c : Nat) : Nat := 2 ^ 20 + k * n + c

def State.bElem (s : State) (e : Entry) (boff n sz k c : Nat) : State × Except Moved Nat :=
  match aget (bKey n k c) e.early with
  | some v => (s, .ok v)
  | none => s.readVal e (fun i => e.at_ 0 boff (64 + stripeOff n sz k c + i)) sz

/-- The elements of column `c` of B read and kept: each is read once, for the outputs of every vector of its column block. -/
def State.keepColumn (s : State) (id boff n sz c : Nat) : List Nat → Moved
  | [] => .ok s
  | k :: t =>
    match s.entry id with
    | none => .ok s
    | some e =>
      match s.bElem e boff n sz k c with
      | (_, .error x) => x
      | (s, .ok v) => (s.setEntry { e with early := aset (bKey n k c) v e.early }).keepColumn id boff n sz c t

/-- Columns of B read and kept, one after another. -/
def State.keepColumns (s : State) (id boff n sz k : Nat) : List Nat → Moved
  | [] => .ok s
  | c :: t =>
    match s.keepColumn id boff n sz c (List.range k) with
    | .ok s => s.keepColumns id boff n sz k t
    | r => r

/-- The sum of one segment: products in ascending k over two chains. -/
def segSum (ps : List FV) : Nat :=
  let r := (ps.zip (List.range ps.length)).foldl (fun (c : Nat × Nat) p =>
    if p.2 % 2 = 0 then (chainAdd c.1 p.1, c.2) else (c.1, chainAdd c.2 p.1)) (0, 0)
  f32.add .rne r.1 r.2

/-- One output of MXV. -/
def mxvTotal (fa fb : Nat) (a b : List Nat) : Nat :=
  let ps := (a.zip b).map fun p => FV.mul (elemDec fa p.1) (elemDec fb p.2)
  let segs := (List.range ((ps.length + 1023) / 1024)).map fun j => segSum ((ps.drop (1024 * j)).take 1024)
  match segs with
  | [] => 0
  | x :: t => t.foldl (fun c y => f32.add .rne c y) x

/-- An output that is added: one operation of the reduction unit of its stack (R282), wherever its four bytes lie. -/
def State.addOutput (s : State) (e : Entry) (ooff o v : Nat) : Moved :=
  match s.waysAt e .st (fun i => e.at_ 1 ooff (o + i)) (List.range 4) with
  | (_, .error x) => x
  | (s, .ok ws) =>
    let at_ := ws.filterMap fun w => match w with
      | .mem tl va => some (tl, va)
      | _ => none
    match at_ with
    | [] => .ok s
    | (tl, va) :: _ =>
      if at_.any fun x => s.phys.region (x.1.phys x.2) == .cxl then .fail 2 s
      else
        let own : Entry := { e with die := e.base }
        let a := own.access tl va (tl.phys va)
          (.addf (at_.map fun x => (x.1.phys x.2, pteKeyid x.1.pte)) (BitVec.ofNat 32 v)) .issued
        .ok (s.addAccess { a with st := .transit (s.homeOf a) }).2

-- Units.

/-- Column blocks of an MXV. -/
def mxvBlocks (n : Nat) : Nat := (n + 63) / 64

/-- The unit that holds position u: first position and size. -/
def BdForm.unit (f : BdForm) (u : Nat) : Nat × Nat :=
  match f with
  | .mgath _ sum _ _ _ _ _ _ _ _ _ _ => if sum then (u / 4 * 4, 4) else (u, 1)
  | .cvt _ _ _ _ _ _ toF _ _ => (u / fmtBytes toF * fmtBytes toF, fmtBytes toF)
  | .stripe _ _ _ _ _ _ _ toF _ _ =>
    if u < 64 then (u, 1) else ((u - 64) / fmtBytes toF * fmtBytes toF + 64, fmtBytes toF)
  | .mxv _ _ _ _ _ _ _ _ _ _ _ _ _ _ _ => (u, 1)

/-- The work of the unit at position u of `n` positions. -/
def State.bdWork (s : State) (e : Entry) (f : BdForm) (u n : Nat) : Moved :=
  match f with
  | .mgath g sum _ srcoff _ dstoff _ gm1 _ rsz rstr idx =>
    let ix := idx.getD []
    let r := u / rsz
    let v := if sum then
        s.sumWord e srcoff rsz rstr ix (u % rsz) none ((List.range (gm1 + 1)).map fun i => r * (gm1 + 1) + i)
      else s.gathSrc e srcoff rsz rstr ix u n
    match v with
    | (_, .error x) => x
    | (s, .ok v) => s.putBytesAt e (e.gathDst g dstoff) u (leBytes n v)
  | .cvt srch srcoff dsth dstoff count fromF toF sat rnd =>
    let sz := fmtBytes fromF
    let ready := if srch = dsth ∧ srcoff = dstoff then s.keepElems e.id srcoff sz (List.range count) else .ok s
    match ready with
    | .ok s =>
      let e := (s.entry e.id).getD e
      match s.srcElem e srcoff sz (u / n) with
      | (_, .error x) => x
      | (s, .ok v) =>
        s.putBytesAt e (fun i => e.at_ 1 dstoff (u + i)) 0 (leBytes n (convElem fromF toF sat rnd v))
    | r => r
  | .stripe _ srcoff _ dstoff k c fromF toF sat rnd =>
    let put (s : State) (l : List Byte) : Moved := s.putBytesAt e (fun i => e.at_ 1 dstoff (u + i)) 0 l
    if u < 64 then put s [(stripeHeader k c toF).getD u 0]
    else
      match stripeSrc k c ((u - 64) / n) with
      | none => put s (leBytes n 0)
      | some x =>
        match s.srcElem e srcoff (fmtBytes fromF) x with
        | (_, .error z) => z
        | (s, .ok v) => put s (leBytes n (if fromF = toF then v else convElem fromF toF sat rnd v))
  | .mxv _ boff _ ooff _ _ _ _ vm1 fa acc _ k c abytes =>
    let sa := fmtBytes fa
    let fb := agetD (2 ^ 20 - 1) 0 e.early
    let avs := (List.range (vm1 + 1)).map fun v =>
      (List.range k).map fun i => leNat (((abytes.getD []).drop ((v * k + i) * sa)).take sa)
    let x := mxvAt (vm1 + 1) c u
    -- no output of a column block is written before every segment of the block is summed (R282)
    let first := x.2 / 64 * 64
    match s.keepColumns e.id boff c (fmtBytes fb) k ((List.range (min 64 (c - first))).map fun i => first + i) with
    | .ok s =>
      let e := (s.entry e.id).getD e
      let b := (List.range k).map fun i => agetD (bKey c i x.2) 0 e.early
      let o := 4 * (x.1 * c + x.2)
      let t := mxvTotal fa fb (avs.getD x.1 []) b
      if acc then s.addOutput e ooff o t else s.putBytesAt e (fun i => e.at_ 1 ooff (o + i)) 0 (leBytes 4 t)
    | r => r

/-- An operand read ahead: position u past the units (an MGATH's source bytes or, under SUM, words; MCONV's source elements; MXV's
elements of B). -/
def State.bdAhead (s : State) (e : Entry) (f : BdForm) (u : Nat) : State :=
  match f with
  | .mgath _ sum _ srcoff _ _ _ _ count rsz rstr idx =>
    if u < count * rsz ∧ (!sum || u % 4 == 0) then
      match s.gathSrc e srcoff rsz rstr (idx.getD []) u (if sum then 4 else 1) with
      | (s, .ok v) => s.setEntry { e with early := aset u v e.early }
      | _ => s
    else s
  | .cvt _ srcoff _ _ count fromF _ _ _ =>
    if u < count then
      match s.keepElems e.id srcoff (fmtBytes fromF) [u] with
      | .ok s => s
      | _ => s
    else s
  | .stripe _ srcoff _ _ k n fromF _ _ _ =>
    if u < k * n then
      match s.keepElems e.id srcoff (fmtBytes fromF) [u] with
      | .ok s => s
      | _ => s
    else s
  | .mxv _ boff _ _ _ _ _ _ _ _ _ _ k n _ =>
    if u < k * n then
      match s.bElem e boff n (fmtBytes (agetD (2 ^ 20 - 1) 0 e.early)) (u / n) (u % n) with
      | (s, .ok v) => s.setEntry { e with early := aset (bKey n (u / n) (u % n)) v e.early }
      | _ => s
    else s

-- BEGIN.

/-- The handle ends' BASEs in descriptor order. -/
def State.bdEnds (s : State) (ctx : Nat) (f : BdForm) : List Nat :=
  f.handles.map fun h => (s.handleAt ctx (handleSlot h)).end_

def endRange (base off n : Nat) : List (Nat × Nat) := pagesOf ((base + off) % 2 ^ 54) n

/-- The die on whose base die an entry runs (R276): that of the stack which holds MGATH's source, MCONV's destination or MXV's B; the
enqueuing die where that page is not to be found, and the entry moves nothing. -/
def State.baseOf (s : State) (e : Entry) (f : BdForm) : Nat :=
  let x : Nat × Nat := match f with
    | .mgath _ _ _ srcoff _ _ _ _ _ _ rstr idx => (0, srcoff + (idx.getD []).headD 0 * rstr)
    | .cvt _ _ _ dstoff _ _ _ _ _ => (1, dstoff)
    | .stripe _ _ _ dstoff _ _ _ _ _ _ => (1, dstoff)
    | .mxv _ boff _ _ _ _ _ _ _ _ _ _ _ _ _ => (0, boff)
  let va := (e.ends.getD x.1 0 + x.2) % 2 ^ 54
  match s.pageNow e .ld va with
  | .ok tl => s.phys.homeDie (tl.phys va)
  | _ => e.die

/-- What BEGIN decides: wait for translations, or begin with a verdict and what was read. -/
inductive BdBegin where
  | wait (s : State)
  | go (s : State) (f : BdForm) (early : Assoc Nat) (v : Option (Nat × Nat))
  deriving DecidableEq, Repr

/-- The verdict where physical ranges are needed; a page that fails is reported (R259). -/
def State.withSegs (s : State) (e : Entry) (f : BdForm) (early : Assoc Nat) (reads writes : List (Nat × Nat))
    (k : List (Nat × Nat) → List (Nat × Nat) → Option (Nat × Nat)) : BdBegin :=
  let fail (c : Nat) : BdBegin :=
    .go (if c = 2 then s.report e.die (.entryXlate e.queue e.num) else s) f early (some (c, 0))
  match s.segs e .ld reads, s.segs e .st writes with
  | .fail c, _ => fail c
  | .wait, _ => .wait s
  | .ok _, .fail c => fail c
  | .ok _, .wait => .wait s
  | .ok a, .ok b => .go s f early (k a b)

/-- A schedule (R283) that is no permutation. -/
def schedBad (nseg nblk : Nat) (ws : List Nat) : Bool :=
  (ws.any fun w => decide (nseg ≤ w % 256) || decide (nblk ≤ w / 256 % 2 ^ 16) || w / 2 ^ 24 != 0) ||
    (dedup ws).length != ws.length

/-- The header of B: K, N, format; none where it is malformed (R280). -/
def stripeParse (l : List Byte) : Option (Nat × Nat × Nat) :=
  let w := wordsOf l
  let g (i : Nat) : Nat := w.getD i 0
  let k := g 0 % 2 ^ 16
  let n := g 0 / 2 ^ 16 % 2 ^ 16
  let fmt := g 0 / 2 ^ 32 % 64
  let mbz := g 0 / 2 ^ 38 != 0 || (w.drop 1).any fun x => x != 0
  let step := if fmt < 32 then 16 else 8
  if mbz || !fmtKnown fmt || n == 0 || decide (k < 16) || decide (32768 < k) || k % step != 0 then none
  else some (k, n, fmt)

/-- The status of an entry with a FAR end: B, a gather source and a stripe destination lie in no stack (CODE 7); another end has no
page that could be translated (CODE 2). -/
def BdForm.farCode (f : BdForm) (ends : List Nat) : Option Nat :=
  let stack := match f with
    | .cvt _ _ _ _ _ _ _ _ _ => false
    | .stripe _ _ _ _ _ _ _ _ _ _ => endFar (ends.getD 1 0)
    | _ => endFar (ends.getD 0 0)
  if stack then some 7 else if ends.any endFar then some 2 else none

def State.bdBegin (s : State) (e : Entry) (f : BdForm) : BdBegin :=
  match f.farCode e.ends with
  | some c => .go s f [] (some (c, 0))
  | none =>
    match f with
    | .mgath g sum srch srcoff dsth dstoff laddr gm1 count rsz rstr _ =>
      let ix := s.indexList e laddr count
      let f : BdForm := .mgath g sum srch srcoff dsth dstoff laddr gm1 count rsz rstr (some ix)
      let len := (s.handleAt e.ctx (handleSlot srch)).len
      match (List.range count).find? fun j => decide (len < srcoff + ix.getD j 0 * rstr + rsz) with
      | some j => .go s f [] (some (3, j))
      | none =>
        s.withSegs e f [] (ix.flatMap fun i => endRange (e.ends.getD 0 0) (srcoff + i * rstr) rsz) []
          fun a _ => if s.oneStack a then none else some (7, 0)
    | .cvt srch srcoff dsth dstoff count fromF toF _ _ =>
      if srch = dsth ∧ srcoff = dstoff then .go s f [] none
      else
        s.withSegs e f [] (endRange (e.ends.getD 0 0) srcoff (count * fmtBytes fromF))
          (endRange (e.ends.getD 1 0) dstoff (count * fmtBytes toF))
          fun a b => if segsMeet a b then some (7, 0) else none
    | .stripe _ srcoff _ dstoff k n fromF _ _ _ =>
      s.withSegs e f [] (endRange (e.ends.getD 0 0) srcoff (k * n * fmtBytes fromF))
        (endRange (e.ends.getD 1 0) dstoff f.total)
        fun a b => if segsMeet a b || !s.oneStack b then some (7, 0) else none
    | .mxv bh boff oh ooff sh soff aaddr astr vm1 fa acc sched k n _ =>
      let sa := fmtBytes fa
      let abytes := (List.range (vm1 + 1)).flatMap fun v =>
        (List.range (k * sa)).map fun i => BitVec.ofNat 8 (s.listByte e (aaddr + v * astr + i))
      let f : BdForm := .mxv bh boff oh ooff sh soff aaddr astr vm1 fa acc sched k n (some abytes)
      match s.readBytes e (e.at_ 0 boff) (List.range 64) with
      | (_, .error (.fail c s)) => .go s f [] (some (c, 0))
      | (_, .error (.wait s)) => .wait s
      | (_, .error (.ok s)) => .wait s
      | (s, .ok l) =>
        match stripeParse l with
        | none => .go s f [] (some (7, 0))
        | some (hk, hn, fb) =>
          let early : Assoc Nat := [(2 ^ 20 - 1, fb)]
          let nseg := (k + 1023) / 1024
          let size := 64 + nseg * 1024 * n * fmtBytes fb
          let len := (s.handleAt e.ctx (handleSlot bh)).len
          if hk ≠ k ∨ hn ≠ n ∨ !fmtPair fa fb ∨ len < boff + size then .go s f early (some (7, 0))
          else
            match s.withSegs e f early (endRange (e.ends.getD 0 0) boff size) (endRange (e.ends.getD 1 0) ooff (4 * (vm1 + 1) * n))
                fun a b => if segsMeet a b || !s.oneStack a then some (7, 0) else none with
            | .wait s => .wait s
            | .go s f early (some v) => .go s f early (some v)
            | .go s f early none =>
              if !sched then .go s f early none
              else
                match s.readBytes e (e.at_ 2 soff) (List.range (4 * nseg * mxvBlocks n)) with
                | (_, .error (.fail c s)) => .go s f early (some (c, 0))
                | (_, .error (.wait s)) => .wait s
                | (_, .error (.ok s)) => .wait s
                | (s, .ok l) =>
                  let ws := (chunks 4 (nseg * mxvBlocks n) l).map leNat
                  .go s f early (if schedBad nseg (mxvBlocks n) ws then some (6, 0) else none)

-- Issue (R279).

/-- What the descriptor of a command gives: its form, its signal word, its handle ends and its core-local ranges. -/
structure BdCmd where
  f    : BdForm
  sig  : Nat
  ends : List HEnd
  locs : List (Nat × Nat)
  deriving DecidableEq, Repr

/-- Orders 1 to 3 are in `parse`; then 4 to 7 and the enqueue. -/
def bdIssue (s : State) (p : Poster) (q : Fin 4) (o : Nat) (m : BdCmd) : Except Stop (Entry × State) :=
  match s.handleChecks p.b.ctx m.ends with
  | .error x => .error x
  | .ok () =>
    match m.locs.findSome? fun r => p.b.winCheck r.1 r.2 with
    | some aux => flt fAccess aux o
    | none =>
      if s.stileBad p.b.id m.sig then flt fAccUnalloc (0x200 + sigStile m.sig) o
      else if !s.poolHas p.b.ctx 2 then waitOn .other s
      else .ok (s.enqueue p (.bq p.b.gcore q.val) m.sig p.b.id (.bd m.f))

/-- A handle end of `n` bytes from its offset on. -/
def hend (h off n : Nat) (wr : Bool) : HEnd := ⟨h, off, if n = 0 then 0 else off, if n = 0 then 0 else off + n, wr⟩

def lo32 (w : Nat) : Nat := w % 2 ^ 32
def hi32 (w : Nat) : Nat := w / 2 ^ 32

def mgathParse (g sum : Bool) (o : Nat) (w : List Nat) : Except Stop BdCmd :=
  let a (i : Nat) : Nat := w.getD i 0
  let gm1 := a 2 / 2 ^ 24 % 256
  let count := a 2 / 2 ^ 32 % 2 ^ 16
  let laddr := a 2 % 2 ^ 19
  let rsz := a 3 % 2 ^ 13
  let rows := if sum then count / (gm1 + 1) else count
  if a 2 / 2 ^ 19 % 32 ≠ 0 ∨ a 2 / 2 ^ 56 ≠ 0 ∨ a 3 / 2 ^ 13 % 2 ^ 19 ≠ 0 ∨ (!sum && gm1 != 0) ∨ (!g && lo32 (a 1) != 0) ∨
      sigRemote (a 2 / 2 ^ 48 % 256) ∨ rsz < 4 ∨ 4096 < rsz ∨ rsz % 4 ≠ 0 then flt fIllegal 1 o
  else if laddr % 4 ≠ 0 then flt fAlign 0 o
  else if sum && count % (gm1 + 1) != 0 then flt fIllegal 4 o
  else .ok {
    f := .mgath g sum (lo32 (a 0)) (hi32 (a 0)) (lo32 (a 1)) (hi32 (a 1)) laddr gm1 count rsz (hi32 (a 3)) none
    sig := a 2 / 2 ^ 48 % 256
    ends := hend (lo32 (a 0)) (hi32 (a 0)) 0 false :: (if g then [hend (lo32 (a 1)) (hi32 (a 1)) (rows * rsz) true] else [])
    locs := (laddr, 4 * count) :: if g then [] else [(hi32 (a 1), rows * rsz)] }

/-- RND of a command (R285). R58 says that the base-die engines always use RNE; the two rules conflict and no ruling settles it. The
model's choice is the field that R285 gives MCONV (log entry 70). -/
def rndOf (n : Nat) : Rnd := if n = 0 then .rne else if n = 1 then .rtz else if n = 2 then .rup else .rdn

def mconvParse (stripe : Bool) (o : Nat) (w : List Nat) : Except Stop BdCmd :=
  let a (i : Nat) : Nat := w.getD i 0
  let fromF := a 3 % 64
  let toF := a 3 / 64 % 64
  let sat := (a 3).testBit 12
  let rnd := rndOf (a 3 / 2 ^ 13 % 4)
  let k := a 2 % 2 ^ 16
  let n := a 2 / 2 ^ 16 % 2 ^ 16
  let step := if toF < 32 then 16 else 8
  if a 2 / 2 ^ 32 ≠ 0 ∨ a 3 / 2 ^ 23 ≠ 0 ∨ sigRemote (a 3 / 2 ^ 15 % 256) ∨ !convKnown fromF ∨ !convKnown toF ∨
      (stripe && toF == 0x22) then flt fIllegal 1 o
  else if stripe && (decide (k < 16) || decide (32768 < k) || k % step != 0 || n == 0) then flt fIllegal 4 o
  else
    let src (m : Nat) : HEnd := hend (lo32 (a 0)) (hi32 (a 0)) (m * fmtBytes fromF) false
    let sig := a 3 / 2 ^ 15 % 256
    if stripe then
      let f : BdForm := .stripe (lo32 (a 0)) (hi32 (a 0)) (lo32 (a 1)) (hi32 (a 1)) k n fromF toF sat rnd
      .ok ⟨f, sig, [src (k * n), hend (lo32 (a 1)) (hi32 (a 1)) f.total true], []⟩
    else
      let f : BdForm := .cvt (lo32 (a 0)) (hi32 (a 0)) (lo32 (a 1)) (hi32 (a 1)) (a 2) fromF toF sat rnd
      .ok ⟨f, sig, [src (a 2), hend (lo32 (a 1)) (hi32 (a 1)) f.total true], []⟩

def mxvParse (o : Nat) (w : List Nat) : Except Stop BdCmd :=
  let a (i : Nat) : Nat := w.getD i 0
  let fa := a 3 / 2 ^ 41 % 64
  let v := a 3 / 2 ^ 38 % 8 + 1
  let aaddr := a 3 % 2 ^ 19
  let astr := a 3 / 2 ^ 19 % 2 ^ 19
  let acc := (a 3).testBit 55
  let sched := (a 3).testBit 56
  let k := a 4 % 2 ^ 16
  let n := a 4 / 2 ^ 16 % 2 ^ 16
  if a 3 / 2 ^ 57 ≠ 0 ∨ a 4 / 2 ^ 32 ≠ 0 ∨ a 5 ≠ 0 ∨ a 6 ≠ 0 ∨ a 7 ≠ 0 ∨ sigRemote (a 3 / 2 ^ 47 % 256) ∨ !fmtKnown fa then
    flt fIllegal 1 o
  else if k < 16 ∨ 32768 < k ∨ n = 0 then flt fIllegal 4 o
  else .ok {
    f := .mxv (lo32 (a 0)) (hi32 (a 0)) (lo32 (a 1)) (hi32 (a 1)) (lo32 (a 2)) (hi32 (a 2)) aaddr astr (v - 1) fa acc sched
      k n none
    sig := a 3 / 2 ^ 47 % 256
    ends := [hend (lo32 (a 0)) (hi32 (a 0)) 64 false, hend (lo32 (a 1)) (hi32 (a 1)) (4 * v * n) true] ++
      (if sched then [hend (lo32 (a 2)) (hi32 (a 2)) (4 * ((k + 1023) / 1024) * mxvBlocks n) false] else [])
    locs := (List.range v).map fun i => (aaddr + i * astr, k * fmtBytes fa) }

/-- A base-die command of a descriptor of `n` bytes. -/
def bdOp (i : Instr) (c : Ctl) (q : Fin 4) (a : Operand) (n : Nat) (parse : Nat → List Nat → Except Stop BdCmd)
    (s : State) : Host.Outcome State Fault Refusal :=
  let go (s : State) (p : Poster) (o : Nat) : Except Stop (Entry × State) :=
    match readDesc s p.b p.aid o n with
    | .error x => .error x
    | .ok w =>
      match parse o w with
      | .error x => .error x
      | .ok m => bdIssue s p q o m
  issue i c
    (fun e =>
      if e.eff.isEmpty then .ok (retire e.s e i)
      else
        match go e.s ⟨e.b, e.w.aid, e.w.k, e.w.pc⟩ (firstV e a) with
        | .error x => .error x
        | .ok (x, s) => .ok (enqueuedW e i false x s))
    (fun e =>
      match go e.s ⟨e.b, e.q.aid, 63, e.q.pc⟩ (srcSU e a).toNat with
      | .error x => .error x
      | .ok (x, s) => .ok (enqueuedS e x s)) s

def execMgath (c : Ctl) (q : Fin 4) (g sum : Bool) (a : Operand) (s : State) : Host.Outcome State Fault Refusal :=
  bdOp (.mgath c q g sum a) c q a 32 (mgathParse g sum) s

def execMconvCvt (c : Ctl) (q : Fin 4) (a : Operand) (s : State) : Host.Outcome State Fault Refusal :=
  bdOp (.mconvCvt c q a) c q a 32 (mconvParse false) s

def execMconvStripe (c : Ctl) (q : Fin 4) (a : Operand) (s : State) : Host.Outcome State Fault Refusal :=
  bdOp (.mconvStripe c q a) c q a 32 (mconvParse true) s

def execMxv (c : Ctl) (q : Fin 4) (a : Operand) (s : State) : Host.Outcome State Fault Refusal :=
  bdOp (.mxv c q a) c q a 64 mxvParse s

def execMseqwait (c : Ctl) (q : Fin 4) (a : Operand) (s : State) : Host.Outcome State Fault Refusal :=
  waitCount (.mseqwait c q a) c (fun b => .bq b.gcore q.val) (8 + q.val) a s

def execMrstat (c : Ctl) (q : Fin 4) (kind : SeqKind) (d : Operand) (s : State) : Host.Outcome State Fault Refusal :=
  readCount (.mrstat c q kind d) c (fun b => .bq b.gcore q.val) kind d s

end Sys2Proof.Machine
end

