-- ==== Sys2Proof/Machine/Network.lean ====
section
/-!
DEFINITION. The network engine (R288 to R305): work requests and their packets, far ends of copies, packets and frames that arrive,
ingest rings, completion counters, and the network instructions.
-/
namespace Sys2Proof.Machine

-- Connections, counters, rings.

def State.net (s : State) (die : Nat) : NetDie := (s.die die).net
def State.modNet (s : State) (die : Nat) (f : NetDie → NetDie) : State := s.modDie die fun d => { d with net := f d.net }

def State.conn (s : State) (die ix : Nat) : Conn := agetD ix Conn.reset (s.net die).conns
/-- P (R290). -/
def Conn.psize (c : Conn) : Nat := 1024 * 2 ^ c.pktsz

def State.ring (s : State) (die ix : Nat) : Ring := agetD ix Ring.reset (s.net die).rings
def State.setRing (s : State) (die ix : Nat) (r : Ring) : State :=
  s.modNet die fun n => { n with rings := aset ix r n.rings }
def Ring.slot (r : Ring) : Nat := 2 ^ (r.slotlg + 8)
def Ring.count (r : Ring) : Nat := 2 ^ r.cntlg

def State.counter (s : State) (ctx die c : Nat) : Counter := agetD (die * 256 + c) ⟨0, 0⟩ (s.ctx ctx).counters
/-- One message counted (R291). -/
def State.count (s : State) (ctx die c : Nat) (ok : Bool) : State :=
  let x := s.counter ctx die c
  let y : Counter := if ok then { x with done := x.done + 1 } else { x with err := x.err + 1 }
  s.modCtx ctx fun k => { k with counters := aset (die * 256 + c) y k.counters }

/-- The key and the security association under which a connection's or a flow's traffic is sealed (R301): 0 and 0 for none, the
entry loaded, or none where the table entry is empty. -/
def State.netKey (s : State) (die ix : Nat) : Option (Nat × Nat) := if ix = 0 then some (0, 0) else aget ix (s.net die).keys

/-- Whether a packet is sealed as a connection of the die asks. -/
def State.sealOk (s : State) (die : Nat) (p : WirePkt) : Bool := s.netKey die (s.conn die p.conn).keyix == some (p.key, p.sa)

-- Packets of an entry (R293, R294, R291).

/-- Positions cut into packets of at most `p`. -/
def cutRun (p start : Nat) : Nat → Nat → List (Nat × Nat)
  | 0, _ => []
  | fuel + 1, n => if n = 0 then [] else (start, min n p) :: cutRun p (start + p) fuel (n - p)

/-- Maximal runs of positions that lie one after another at the far end. -/
def farRuns (g : Nat → Int) (total : Nat) : List (Nat × Nat) :=
  ((List.range total).foldl (fun (l : List (Nat × Nat)) u =>
    match l with
    | (a, n) :: t => if a + n = u ∧ g u = g a + n then (a, n + 1) :: t else (u, 1) :: (a, n) :: t
    | [] => [(u, 1)]) []).reverse

def Pkt.new (start len : Nat) : Pkt := ⟨start, len, false, false, false, false, 0, []⟩

/-- The packets of a message of `n` bytes. -/
def msgPackets (p n : Nat) : List Pkt :=
  if n = 0 then [Pkt.new 0 0] else (cutRun p 0 n n).map fun x => Pkt.new x.1 x.2

def copyPackets (p : Nat) (g : Nat → Int) (total : Nat) : List Pkt :=
  if total = 0 then [Pkt.new 0 0]
  else (farRuns g total).flatMap fun r => (cutRun p r.1 r.2 r.2).map fun x => Pkt.new x.1 x.2

/-- What an entry's packets do: operation (0 SEND, 1 WRITE, 2 READ), connection, remote handle, remote offset of a position. -/
structure Wire where
  op   : Nat
  conn : Nat
  rh   : Nat
  off  : Nat
  deriving DecidableEq, Repr

/-- The wire operation of the packet that starts at position u. -/
def Entry.wire (e : Entry) (u : Nat) : Wire :=
  match e.form with
  | .net w => ⟨w.op, w.conn, w.rh, w.roff + u⟩
  | .copy f _ d x =>
    let far (z : End) (k : Nat) (o : Int) (op : Nat) : Wire :=
      let b := e.ends.getD k 0
      let h := match z with
        | .handle _ off => (off : Int)
        | .loc _ off => (off : Int)
      ⟨op, endConn b, b % 2 ^ 32, (h + o).toNat⟩
    if endFar (e.ends.getD 1 0) then far d 1 (f.map u).2 1 else far x 0 (f.map u).1 2
  | _ => ⟨1, 0, 0, 0⟩

/-- The near place of a position. -/
def Entry.nearPlace (e : Entry) (u : Nat) : Place :=
  match e.form with
  | .net w => (End.handle w.lh w.loff).place (e.ends.getD 0 0) u
  | .copy f _ d x => if endFar (e.ends.getD 1 0) then e.srcPlace f x u else e.dstPlace f d u
  | _ => .far

/-- Whether an entry travels over the network. -/
def Entry.isNet (e : Entry) : Bool :=
  match e.form with
  | .net _ => true
  | .copy _ _ _ _ => e.farEnd
  | _ => false

def Entry.isMsg (e : Entry) : Bool :=
  match e.form with
  | .net _ => true
  | _ => false

/-- The boundary B after a revocation, in positions of the message (R294). -/
def Entry.boundary (e : Entry) : Nat :=
  let hi := maxOf (e.pkts.map fun p => if p.sent && !(e.wire 0).op == 2 then p.start + p.len else 0)
  (hi + 4095) / 4096 * 4096

/-- Whether a packet may be sent now. -/
def Entry.mayCarry (e : Entry) (p : Pkt) : Bool :=
  !e.revoked || (if e.isMsg then decide (p.start + p.len ≤ e.boundary) else decide (p.start + p.len ≤ e.limit e.total))

def Entry.setPkt (e : Entry) (k : Nat) (p : Pkt) : Entry := { e with pkts := e.pkts.set k p }

/-- The message is to fail with a status (R294, R262). What a far copy has moved is known when it ends. -/
def State.failEntry (s : State) (id code : Nat) : State :=
  match s.entry id with
  | some e => if e.verdict.isSome then s else s.setEntry { e with verdict := some (code, 0) }
  | none => s

/-- The target counter of an entry's message, and whether it counts (R292). -/
def Entry.target (e : Entry) : Nat × Bool :=
  match e.form with
  | .net w => (w.tcnt, w.tce)
  | _ => (0, false)

/-- The path a connection's next packet takes: the entries of its path table in rotation (R289). -/
def State.nextPath (s : State) (die conn : Nat) : Nat :=
  let t := agetD (s.conn die conn).pathix [] (s.net die).paths
  t.getD (agetD conn 0 (s.net die).rot % t.length) 0

/-- A packet of a connection takes its path. -/
def State.turnPath (s : State) (die conn : Nat) : State :=
  s.modNet die fun n => { n with rot := aset conn (agetD conn 0 n.rot + 1) n.rot }

/-- A packet leaves the port, sealed as its connection asks. -/
def State.emitPkt (s : State) (e : Entry) (k : Nat) (p : Pkt) : State :=
  let w := e.wire p.start
  let key := (s.netKey e.die (s.conn e.die w.conn).keyix).getD (0, 0)
  let s := (s.emit (.packet e.id k w.op w.conn w.rh w.off p.len e.pkts.length e.target.1 e.target.2
    (s.nextPath e.die w.conn) key.1 key.2 p.data)).turnPath e.die w.conn
  s.setEntry ((e.setPkt k { p with sent := true, tx := p.tx + 1 }))

/-- A packet of a copy whose slot was revoked carries the bytes of the pieces that had begun and no others (R260). -/
def Entry.cutPkt (e : Entry) (p : Pkt) : Pkt :=
  if e.revoked && !e.isMsg && !p.sent && decide (p.start < e.limit e.total) then
    { p with len := min p.len (e.limit e.total - p.start) }
  else p

/-- First transmission of packet k: its local bytes are read, once. -/
def State.sendPkt (s : State) (id k : Nat) : Moved :=
  match s.entry id with
  | none => .ok s
  | some e =>
    match (e.pkts[k]?).map e.cutPkt with
    | none => .ok s
    | some p =>
      if p.sent || !e.mayCarry p then .ok s
      else if (e.wire 0).op = 2 then .ok (s.emitPkt { e with moved := max e.moved ((p.start + p.len + 4095) / 4096) } k p)
      else
        match s.readBytes e (fun i => e.nearPlace (p.start + i)) (List.range p.len) with
        | (_, .error x) => x
        | (s, .ok l) =>
          .ok (s.emitPkt { e with moved := max e.moved ((p.start + p.len + 4095) / 4096) } k { p with data := l })

def State.sendAllPkts (s : State) (id : Nat) : List Nat → Moved
  | [] => .ok s
  | k :: t =>
    match s.sendPkt id k with
    | .ok s => s.sendAllPkts id t
    | r => r

/-- A packet is acknowledged, or a reply is placed. -/
def State.ackPkt (s : State) (e : Entry) (k : Nat) (p : Pkt) : State :=
  s.setEntry { e.setPkt k { p with acked := true } with
    done := e.done ++ if e.isMsg then [] else (List.range p.len).map fun i => p.start + i }

-- BEGIN and COMPLETE of entries that travel.

/-- Packets of an entry at its BEGIN; a far copy whose connection cannot carry it fails with status 5. -/
def State.netBegin (s : State) (e : Entry) : State :=
  match e.form with
  | .net w =>
    let far := e.ends.any endFar
    s.setEntry { e with
      pkts := msgPackets (s.conn e.die w.conn).psize w.len
      verdict := if far then some (5, 0) else e.verdict }
  | .copy f _ _ _ =>
    if !e.farEnd then s
    else
      let c := s.conn e.die (e.wire 0).conn
      let g (u : Nat) : Int := if endFar (e.ends.getD 1 0) then (f.map u).2 else (f.map u).1
      s.setEntry { e with
        pkts := copyPackets c.psize g f.total
        verdict := if !c.valid || c.uud || c.ctx != e.ctx then some (5, 0) else e.verdict }
  | _ => s

/-- Whether no write of an entry, and no placement of a reply to it, is still on its way. -/
def State.noAccesses (s : State) (e : Entry) : Bool :=
  (s.om.accs.all fun p => p.2.aid != e.id) && (s.net e.die).placing.all fun p => match p.kind with
    | .reply id _ _ _ => id != e.id
    | _ => true

/-- A message takes COMPLETE (R294). -/
def State.netFinish (s : State) (e : Entry) (w : NetWork) (ok : Bool) : State :=
  if !s.noAccesses e then s
  else (s.count e.ctx e.die w.icnt ok).finish e (if ok then 0 else 5) (if ok then w.len else 0)

/-- COMPLETE of a message, as far as it goes now. -/
def State.msgComplete (s : State) (e : Entry) (w : NetWork) : State :=
  if e.verdict.isSome || e.revoked then s.netFinish e w false
  else
    match s.sendAllPkts e.id (List.range e.pkts.length) with
    | .wait s => s
    | .fail c s =>
      let s := s.failEntry e.id c
      (match s.entry e.id with
       | some e => s.netFinish e w false
       | none => s)
    | .ok s =>
      match s.entry e.id with
      | none => s
      | some e => if (s.conn e.die w.conn).uud || e.pkts.all Pkt.acked then s.netFinish e w true else s

/-- What became of each packet that a far copy has sent: acknowledged, refused, or given up after 16 transmissions. A READ's requests
move nothing themselves. -/
def Entry.farSettled (e : Entry) : Bool :=
  (e.wire 0).op == 2 || e.pkts.all fun p => !p.sent || p.acked || p.refused || p.lapsed

/-- The bytes that a far copy which fails has moved: those of its packets that were placed. Whether one that was given up had been
placed is a free value. -/
def State.farMoved (s : State) (e : Entry) : Nat × State :=
  e.pkts.foldl (fun (x : Nat × State) p =>
    if p.acked then (x.1 + p.len, x.2)
    else if p.lapsed && !p.refused then
      let (ix, s) := x.2.freeIx
      (x.1 + (if Config.delivered ix then p.len else 0), s)
    else x) (0, s)

/-- COMPLETE of a copy with a far end: it waits for every packet sent, those of a failed one too (R262). -/
def State.farComplete (s : State) (e : Entry) : State :=
  match e.verdict with
  | some (c, _) =>
    if e.farSettled && s.noAccesses e then
      let (n, s) := s.farMoved e
      s.finish e c n
    else s
  | none =>
    match s.sendAllPkts e.id (List.range e.pkts.length) with
    | .wait s => s
    | .fail c s => s.failEntry e.id c
    | .ok s =>
      match s.entry e.id with
      | none => s
      | some e =>
        let lim := e.limit e.total
        if (e.pkts.all fun p => p.acked || (decide (lim ≤ p.start) && p.len != 0)) && s.noAccesses e then
          s.finish e (if lim < e.total then 1 else 0) lim
        else s

-- At the initiator.

/-- RETRANSMIT: an unacknowledged RUD packet is sent again; after 16 transmissions its message fails. A message that has failed sends
none again (R294); a far copy still waits for what it has sent (R262). -/
def execRetransmit (id k : Nat) (s : State) : Host.Outcome State Fault Refusal :=
  .next (match s.entry id with
    | none => s
    | some e =>
      match e.pkts[k]? with
      | none => s
      | some p =>
        if !e.live || e.st != .begun || !e.isNet || (e.verdict.isSome && e.isMsg) || !p.sent || p.acked ||
            (s.conn e.die (e.wire 0).conn).uud then s
        else if 16 ≤ p.tx then (s.setEntry (e.setPkt k { p with lapsed := true })).failEntry id 5
        else if !e.mayCarry p then s
        else s.emitPkt e k p)

/-- PACKET_ACK: an acknowledgement, or the refusal of the target. A READ's packets count when their replies are placed. -/
def execPacketAck (id k : Nat) (ok : Bool) (s : State) : Host.Outcome State Fault Refusal :=
  .next (match s.entry id with
    | none => s
    | some e =>
      match e.pkts[k]? with
      | none => s
      | some p =>
        if !e.live || e.st != .begun || !e.isNet || !p.sent || p.acked then s
        else if !ok then (s.setEntry (e.setPkt k { p with refused := true })).failEntry id 5
        else if (e.wire 0).op = 2 then s
        else s.ackPkt e k p)

-- Placement.

/-- Positions cut into aligned 4-byte words and single bytes, by the address of each (R295). -/
def wordCuts (p : Nat → Place) : Nat → Nat → Nat → List (Nat × Nat)
  | 0, _, _ => []
  | fuel + 1, i, n =>
    if n ≤ i then []
    else if (p i).addr % 4 = 0 ∧ i + 4 ≤ n ∧ (List.range 4).all fun k => (p (i + k)).addr == (p i).addr + k then
      (i, 4) :: wordCuts p fuel (i + 4) n
    else (i, 1) :: wordCuts p fuel (i + 1) n

/-- The ways of every unit, before any byte is written. -/
def State.ways (s : State) (e : Entry) (p : Nat → Place) : List (Nat × Nat) → State × Except Moved (List (Nat × Nat × Way))
  | [] => (s, .ok [])
  | (i, n) :: t =>
    let (s, w) := s.way e .st (p i)
    match w with
    | .wait => ((s.ways e p t).1, .error (.wait s))
    | .fail c => (s, .error (.fail c s))
    | w =>
      match s.ways e p t with
      | (s, .ok l) => (s, .ok ((i, n, w) :: l))
      | r => r

/-- A store of the network engine on its way to its home. -/
def netStore (aid die ctx va pa : Nat) (tl : Tlb) (bytes : List Byte) (home : Nat) : Access where
  aid := aid
  inst := aid
  die := die
  ctx := ctx
  loc := none
  line := lineOf pa
  va := va
  page := pageKind pa tl.pte
  keyid := pteKeyid tl.pte
  slice := 0
  kind := .store (cellsFrom pa bytes)
  acq := none
  rel := none
  st := .transit home
  refusals := 0
  firstRef := 0
  retryAt := 0
  repl := pteRepl tl.pte

/-- The units of a reply leave for their homes under agent `aid`; those of a window are written at once. -/
def State.replyUnits (s : State) (aid : Nat) (e : Entry) (bytes : List Byte) : List (Nat × Nat × Way) → State
  | [] => s
  | (i, n, w) :: t =>
    let l := (bytes.drop i).take n
    let s := match w with
      | .win b o => s.windowWrite b o.toNat l
      | .mem tl va =>
        let pa := tl.phys (va % 2 ^ 54)
        (s.addAccess (netStore aid e.die e.ctx va pa tl l (s.phys.homeDie pa))).2
      | _ => s
    s.replyUnits aid e bytes t

/-- A placement begins under a new agent of the die's network engine. -/
def State.newPlacing (s : State) (die : Nat) (k : PlaceKind) : Nat × State :=
  let (aid, s) := s.newId
  (aid, (s.setAgent aid ⟨.net die, die, [], [], []⟩).modNet die fun n => { n with placing := n.placing ++ [⟨aid, k⟩] })

/-- A READ reply at its initiator, which tells the target of each packet once its bytes are performed (R291, R295). -/
def State.placeReply (s : State) (die : Nat) (p : WirePkt) (id : Nat) : State :=
  match s.entry id with
  | none => s
  | some e =>
    match e.pkts[p.idx]? with
    | none => s
    | some k =>
      if e.die ≠ die || !e.live || e.st != .begun || !e.isNet || (e.wire 0).op != 2 || !k.sent || e.verdict.isSome ||
          p.data.length ≠ k.len || !e.mayCarry k ||
          s.netKey die (s.conn die (e.wire 0).conn).keyix != some (p.key, p.sa) then s
      else
        let pl (i : Nat) : Place := e.nearPlace (k.start + i)
        match s.ways e pl (wordCuts pl k.len 0 k.len) with
        | (s, .error (.fail c _)) => s.failEntry id c
        | (s, .error _) => s
        | (s, .ok l) =>
          let (aid, s) := s.newPlacing die (.reply id p.idx (e.wire 0).conn p.msg)
          s.replyUnits aid e p.data l

-- At the target.

/-- A page at the target, for an agent of the network engine (R295). -/
def State.remotePage (s : State) (die ctx : Nat) (t : AccType) (va : Nat) (r : Report) : State × EntryX :=
  let (s, x) := s.xlate 0 die none ctx (va % 2 ^ 54)
  let bad (s : State) : State × EntryX := (s.report die r, .fail 2)
  match x with
  | .wait => (s, .wait)
  | .fail _ => bad (s.dropFails die 0)
  | .done tl =>
    match s.checkPage die t tl.pte (tl.phys (va % 2 ^ 54)) with
    | none => (s, .ok tl)
    | some f => if f.cls = 2 then (s, .fail 8) else bad s

/-- Translations of the bytes from `va` on, one per page. -/
def State.remotePages (s : State) (die ctx : Nat) (t : AccType) (r : Report) :
    List (Nat × Nat) → State × Except EntryX (List (Nat × Nat × Tlb))
  | [] => (s, .ok [])
  | (va, n) :: l =>
    match s.remotePage die ctx t va r with
    | (s, .wait) => ((s.remotePages die ctx t r l).1, .error .wait)
    | (s, .fail c) => (s, .error (.fail c))
    | (s, .ok tl) =>
      match s.remotePages die ctx t r l with
      | (s, .ok x) => (s, .ok ((va, n, tl) :: x))
      | y => y

/-- The bytes of one page as stores, by aligned words. -/
def State.netStores (s : State) (aid die ctx va : Nat) (tl : Tlb) (bytes : List Byte) : State :=
  (wordCuts (fun i => .mem (va + i)) bytes.length 0 bytes.length).foldl (fun (s : State) u =>
    let pa := tl.phys (va + u.1)
    (s.addAccess (netStore aid die ctx (va + u.1) pa tl ((bytes.drop u.1).take u.2) (s.phys.homeDie pa))).2) s

/-- Bytes leave for their homes under a new agent, and what they belong to is remembered. -/
def State.place (s : State) (die ctx : Nat) (pages : List (Nat × Nat × Tlb)) (bytes : List Byte) (k : PlaceKind) : State :=
  let (aid, s) := s.newPlacing die k
  (pages.foldl (fun (x : State × List Byte) p =>
    (x.1.netStores aid die ctx p.1 p.2.2 (x.2.take p.2.1), x.2.drop p.2.1)) (s, bytes)).1

def State.arrival (s : State) (die conn msg : Nat) : Option Arrival :=
  (s.net die).arrivals.find? fun a => a.conn == conn && a.msg == msg

def State.setArrival (s : State) (die : Nat) (a : Arrival) : State :=
  s.modNet die fun n => { n with arrivals := (n.arrivals.filter fun x => !(x.conn == a.conn && x.msg == a.msg)) ++ [a] }

/-- Whether a UUD message's 1 ms since its first placed packet is over (R295). -/
def State.overdue (s : State) (die : Nat) (a : Arrival) : Bool :=
  (s.conn die a.conn).uud && !a.got.isEmpty && decide (a.first + 1000000 < s.now)

/-- A packet of a message has been placed: the message counts once, when every packet has been, in time and with none refused
(R295). -/
def State.notePacket (s : State) (die conn msg idx : Nat) : State :=
  match s.arrival die conn msg with
  | none => s
  | some a =>
    let got := if a.got.contains idx then a.got else a.got ++ [idx]
    let full := decide (a.total ≤ got.length) && !a.done && !s.overdue die a
    let s := s.setArrival die { a with got := got, done := a.done || full, first := if a.got.isEmpty then s.now else a.first }
    if full && a.tce && !a.refused then s.count a.ctx die a.tcnt true else s

/-- The record of a message at its first packet. -/
def State.noteArrival (s : State) (die ctx : Nat) (p : WirePkt) : State :=
  match s.arrival die p.conn p.msg with
  | some _ => s
  | none => s.setArrival die ⟨p.conn, p.msg, p.total, [], s.now, p.tcnt, p.tce, ctx, false, false⟩

/-- A packet is refused: its message adds nothing at the target (R295). -/
def State.refusePkt (s : State) (die ctx : Nat) (p : WirePkt) : State :=
  let s := s.noteArrival die ctx p
  let s := match s.arrival die p.conn p.msg with
    | some a => s.setArrival die { a with refused := true }
    | none => s
  s.emit (.netRefuse die p.conn p.msg p.idx)

/-- The bytes of a placement are all performed: what follows. -/
def State.placed (s : State) (die : Nat) (p : Placing) : State :=
  match p.kind with
  | .reply id k conn msg =>
    let s := s.emit (.netAck die conn msg k)
    (match s.entry id with
     | some e => (match e.pkts[k]? with
       | some p => if e.live then s.ackPkt e k p else s
       | none => s)
     | none => s)
  | .packet conn msg idx _ _ _ _ =>
    let s := if (s.conn die conn).uud then s else s.emit (.netAck die conn msg idx)
    s.notePacket die conn msg idx
  | .slot r ack =>
    let x := s.ring die r
    let s := s.setRing die r { x with prod := x.prod + 1 }
    match ack with
    | some (conn, msg, idx, seq) =>
      if (s.conn die conn).uud then s
      else
        (s.modNet die fun n => { n with sendWin := n.sendWin ++ [(conn, seq)] }).emit (.netAck die conn msg idx)
    | none => s

/-- Placements whose bytes are performed end. -/
def State.placeSweepDie (s : State) (die : Nat) : State :=
  (s.net die).placing.foldl (fun s p =>
    if s.om.accs.any fun a => a.2.aid == p.aid then s
    else
      let s := s.modNet die fun n => { n with placing := n.placing.filter fun q => q.aid != p.aid }
      ({ s with om := { s.om with agents := adel p.aid s.om.agents } }).placed die p) s

def State.placeSweep (s : State) : State := (List.range 8).foldl State.placeSweepDie s

/-- The checks of a packet at the target (R295): refused, or the virtual address of its bytes. -/
def State.remoteEnd (s : State) (die : Nat) (p : WirePkt) (n : Nat) (wr : Bool) : Option Nat :=
  let c := s.conn die p.conn
  let off := p.roff + p.idx * p.psize
  let h := s.handleAt c.ctx (handleSlot p.rh)
  let e : HEnd := ⟨p.rh, p.roff, if n = 0 then 0 else off, if n = 0 then 0 else off + n, wr⟩
  if !c.valid || h.far || (s.handleFault c.ctx e).isSome then none else some ((h.base + off) % 2 ^ 54)

/-- A WRITE packet at its target. -/
def State.placeWrite (s : State) (die : Nat) (p : WirePkt) : State :=
  let c := s.conn die p.conn
  let refuse (s : State) : State := s.refusePkt die c.ctx p
  let late := c.uud && (match s.arrival die p.conn p.msg with
    | some a => a.done || s.overdue die a
    | none => false)
  if c.valid && !s.sealOk die p then s
  else if late then s
  else
    match s.remoteEnd die p p.data.length true with
    | none => refuse s
    | some va =>
      match s.remotePages die c.ctx .st (.remoteXlate p.conn (p.roff + p.idx * p.psize)) (pagesOf va p.data.length) with
      | (s, .error .wait) => s
      | (s, .error _) => refuse s
      | (s, .ok pages) =>
        (s.noteArrival die c.ctx p).place die c.ctx pages p.data
          (.packet p.conn p.msg p.idx p.total p.tcnt p.tce c.ctx)

/-- PACKET_RECEIVE (R295). -/
def execPacketReceive (die : DieNo) (p : WirePkt) (s : State) : Host.Outcome State Fault Refusal :=
  .next (if (s.die die.val).st != .live then s
    else
      match p.reply with
      | some id => s.placeReply die.val p id
      | none => s.placeWrite die.val p)

/-- Bytes of a READ at their homes. -/
def State.readRemote (s : State) (ctx : Nat) : List (Nat × Nat × Tlb) → State × List Byte
  | [] => (s, [])
  | (va, n, tl) :: t =>
    let pa := tl.phys va
    let s := if pteKind tl.pte = 2 then
        (dedup ((List.range n).map fun i => lineOf (pa + i))).foldl (fun (s : State) l => s.recall l) s
      else s
    let l := s.readHome (pteKeyid tl.pte) pa n
    let (s, r) := (s.touch ctx (s.phys.homeDie pa)).readRemote ctx t
    (s, l ++ r)

/-- READ_PACKET_RECEIVE (R295): the request is answered with `len` bytes, in a packet that takes the connection's next path and seal
(R289, R301), or refused; or, where `reply` is set, the initiator tells
that it has placed the packet, which then counts. -/
def execReadPacketReceive (die : DieNo) (p : WirePkt) (len : Nat) (s : State) : Host.Outcome State Fault Refusal :=
  let d := die.val
  let c := s.conn d p.conn
  let refuse (s : State) : State := s.refusePkt d c.ctx p
  .next (if (s.die d).st != .live then s
    else if c.valid && !s.sealOk d p then s
    else if p.reply.isSome then s.notePacket d p.conn p.msg p.idx
    else
      match s.remoteEnd d p len false with
      | none => refuse s
      | some va =>
        match s.remotePages d c.ctx .ld (.remoteXlate p.conn (p.roff + p.idx * p.psize)) (pagesOf va len) with
        | (s, .error .wait) => s
        | (s, .error _) => refuse s
        | (s, .ok pages) =>
          let (s, bytes) := s.readRemote c.ctx pages
          let key := (s.netKey d c.keyix).getD (0, 0)
          ((s.noteArrival d c.ctx p).emit
            (.netReply d p.conn p.msg p.idx (s.nextPath d p.conn) key.1 key.2 bytes)).turnPath d p.conn)

/-- UUD_PLACEMENT_TIMEOUT (R295): once the writes of the message are performed (R291). -/
def execUudPlacementTimeout (die : DieNo) (conn msg : Nat) (s : State) : Host.Outcome State Fault Refusal :=
  .next (match s.arrival die.val conn msg with
    | none => s
    | some a =>
      let travels := (s.net die.val).placing.any fun p => match p.kind with
        | .packet x m _ _ _ _ _ => x == conn && m == msg
        | _ => false
      if a.done || !s.overdue die.val a || travels then s
      else
        let s := s.setArrival die.val { a with done := true }
        if a.tce && !a.refused then s.count a.ctx die.val a.tcnt false else s)

-- Rings (R296 to R300).

def Ring.isFull (r : Ring) : Bool := (r.prod - r.cons).toNat == r.count

/-- The header of a slot (R300). -/
def slotHeader (seq : Word64) (len flow latest width : Nat) : List Byte :=
  leBytes 8 seq.toNat ++ leBytes 8 (len % 2 ^ 16 + flow % 2 ^ 16 * 2 ^ 16) ++ leBytes 8 latest ++
    leBytes 8 (min width 65535)

/-- Whether a slot of the ring is being written. -/
def State.ringBusy (s : State) (die r : Nat) : Bool :=
  (s.net die).placing.any fun p => match p.kind with
    | .slot x _ => x == r
    | _ => false

/-- Orders 5 to 7 of R299: the frame is counted as FULL, or its slot is written; the state is unchanged while a translation or an
earlier frame of the ring is awaited. -/
def State.placeFrame (s : State) (die r flow : Nat) (data : List Byte) (ack : Option (Nat × Nat × Nat × Nat)) : State :=
  let x := s.ring die r
  if s.ringBusy die r then s
  else if x.isFull && !x.dropOld then s.setRing die r { x with full := x.full + 1 }
  else
    let va := x.base + x.prod.toNat % x.count * x.slot
    let bytes := slotHeader x.prod data.length flow (s.latest die) (s.latest die - s.earliest die) ++ data
    match s.remotePages die x.ctx .st (.remoteXlate r (x.prod.toNat % x.count)) (pagesOf va bytes.length) with
    | (s, .error .wait) => s
    | (s, .error _) => s.modNet die fun n => { n with kFrames := n.kFrames + 1 }
    | (s, .ok pages) =>
      let s := if x.isFull then s.setRing die r { x with cons := x.cons + 1, full := x.full + 1 } else s
      s.place die x.ctx pages bytes (.slot r ack)

/-- SEND_RECEIVE (R296). -/
def execSendReceive (die : DieNo) (p : WirePkt) (s : State) : Host.Outcome State Fault Refusal :=
  let d := die.val
  let c := s.conn d p.conn
  let r := s.ring d c.rxring
  let refuse (s : State) : State := s.emit (.netRefuse d p.conn p.msg p.idx)
  .next (if (s.die d).st != .live then s
    else if !c.valid || !c.rxv || !r.valid then refuse s
    else if r.slot - 32 < p.data.length then refuse (s.setRing d c.rxring { r with frame := r.frame + 1 })
    else if !s.sealOk d p then s.setRing d c.rxring { r with key := r.key + 1 }
    else if !c.uud && (s.net d).sendWin.contains (p.conn, p.seq) then s.emit (.netAck d p.conn p.msg p.idx)
    else s.placeFrame d c.rxring 0xFFFF p.data (some (p.conn, p.msg, p.idx, p.seq)))

/-- A loss counted on the DEFAULT ring of a port, or by the die kernel. -/
def State.defaultLoss (s : State) (die port : Nat) (f : Ring → Ring) : State :=
  match (s.net die).rings.find? fun x => x.2.valid && x.2.dflt && x.2.port == port with
  | some (i, r) => s.setRing die i (f r)
  | none => s.modNet die fun n => { n with kFrames := n.kFrames + 1 }

/-- FRAME_RECEIVE (R299). -/
def execFrameReceive (die : DieNo) (f : Frame) (s : State) : Host.Outcome State Fault Refusal :=
  let d := die.val
  .next (if (s.die d).st != .live then s
    -- a datagram for the port of R335 goes to the Phidy root and to no ring
    else if f.parses && f.udp == some (Config.spdmPort d) then s
    else if !f.parses then s.defaultLoss d f.port fun r => { r with frame := r.frame + 1 }
    else
      let fl := (s.net d).flows
      match (fl.zip (List.range fl.length)).find? fun x =>
          x.1.port == f.port && x.1.hdr == f.hdr && (s.ring d x.1.ring).valid with
      | none => s.defaultLoss d f.port fun r => { r with nomat := r.nomat + 1 }
      | some (x, ix) =>
        let r := s.ring d x.ring
        if !f.good || decide (r.slot - 32 < f.data.length) then s.setRing d x.ring { r with frame := r.frame + 1 }
        else if s.netKey d x.keyix != some (f.key, f.sa) then s.setRing d x.ring { r with key := r.key + 1 }
        else s.placeFrame d x.ring ix f.data none)

-- Instructions.

/-- The descriptor of NPOST: orders 1 to 3 of R293. -/
def npostParse (o : Nat) (w : List Nat) : Except Stop NetWork :=
  let a (i : Nat) : Nat := w.getD i 0
  if (a 1).testBit 63 || a 3 != 0 || a 1 / 2 ^ 44 % 4 == 3 then flt fIllegal 1 o
  else .ok {
    op := a 1 / 2 ^ 44 % 4, lh := lo32 (a 0), loff := hi32 (a 0), len := lo32 (a 1), conn := a 1 / 2 ^ 32 % 2 ^ 12
    icnt := a 1 / 2 ^ 46 % 256, tcnt := a 1 / 2 ^ 54 % 256, tce := (a 1).testBit 62
    rh := lo32 (a 2), roff := hi32 (a 2) }

def npostIssue (s : State) (p : Poster) (q : SReg) (o : Nat) : Except Stop (Entry × State) :=
  match readDesc s p.b p.aid o 32 with
  | .error x => .error x
  | .ok l =>
    match npostParse o l with
    | .error x => .error x
    | .ok w =>
      let c := s.conn p.b.die w.conn
      if !c.valid || c.ctx != p.b.ctx then flt fAccess 13 o
      else if (w.op == 2 && c.uud) || (w.op == 0 && (w.rh != 0 || w.roff != 0 || w.tce || decide (c.psize < w.len))) then
        flt fIllegal 4 o
      else
        match s.handleChecks p.b.ctx [hend w.lh w.loff w.len (w.op == 2)] with
        -- order 6: the fault of R259, but TRADDR holds the descriptor offset
        | .error (.trap t) => .error (.trap { t with addr := o })
        | .error x => .error x
        | .ok () =>
          if !s.poolHas p.b.ctx 1 then waitOn .other s
          else .ok (s.enqueue p (.nq p.b.gcore q.val) 0 p.b.id (.net w))

def execNpost (c : Ctl) (q : SReg) (a : Operand) (s : State) : Host.Outcome State Fault Refusal :=
  let i : Instr := .npost c q a
  issue i c
    (fun e =>
      if e.eff.isEmpty then .ok (retire e.s e i)
      else
        match npostIssue e.s ⟨e.b, e.w.aid, e.w.k, e.w.pc⟩ q (firstV e a) with
        | .error x => .error x
        | .ok (x, s) => .ok (enqueuedW e i false x s))
    (fun e =>
      match npostIssue e.s ⟨e.b, e.q.aid, 63, e.q.pc⟩ q (srcSU e a).toNat with
      | .error x => .error x
      | .ok (x, s) => .ok (enqueuedS e x s)) s

/-- A counter operand (R302). -/
def counterIx (n : Nat) : Except Stop Nat := if 255 < n then flt fIllegal 1 else .ok n

def execNcnt (c : Ctl) (err : Bool) (d a : Operand) (s : State) : Host.Outcome State Fault Refusal :=
  let i : Instr := .ncnt c err d a
  let val (s : State) (b : Block) (n : Nat) : Nat :=
    let x := s.counter b.ctx b.die n
    (if err then x.err else x.done).toNat
  issue i c
    (fun e =>
      if e.eff.isEmpty then .ok (retire e.s e i)
      else
        match counterIx (firstV e a) with
        | .error x => .error x
        | .ok n => .ok (pairResult e i d (val e.s e.b n)))
    (fun e =>
      match counterIx (srcSU e a).toNat with
      | .error x => .error x
      | .ok n => .ok (seqResult e d (val e.s e.b n))) s

/-- The sum that NWAIT compares (R303). -/
def State.counted (s : State) (b : Block) (n : Nat) : Nat :=
  let x := s.counter b.ctx b.die n
  (x.done + x.err).toNat

def execNwait (c : Ctl) (a b : Operand) (s : State) : Host.Outcome State Fault Refusal :=
  let i : Instr := .nwait c a b
  issue i c
    (fun e =>
      if e.eff.isEmpty then .ok (endWait e i [])
      else
        match counterIx (firstV e a) with
        | .error x => .error x
        | .ok n =>
          if firstPair e b ≤ e.s.counted e.b n then .ok (endWait { e with s := e.s.dropLeases e.b.die } i [])
          else waitOn .other e.s)
    (fun e =>
      match counterIx (srcSU e a).toNat with
      | .error x => .error x
      | .ok n =>
        if (srcSU e b).toNat ≤ e.s.counted e.b n then .ok (({ e with s := e.s.dropLeases e.b.die }).put e.q.advance)
        else waitOn .other e.s) s

/-- A ring operand and its ownership (R302). -/
def ringIx (s : State) (b : Block) (n : Nat) : Except Stop Nat :=
  if 255 < n then flt fIllegal 1
  else if !(s.ring b.die n).valid || (s.ring b.die n).ctx != b.ctx then flt fAccess 13
  else .ok n

/-- Words of 64 bits from a V register on, the same in every effective lane. -/
def wideCells (e : WEnv) (d : Operand) (l : List Word64) : List (Cell × Nat) :=
  e.eff.flatMap fun x =>
    let n := regOf e.b x.2 d
    (l.zip (List.range l.length)).flatMap fun v =>
      [(.v x.2 (n + 2 * v.2), (v.1.setWidth 32).toNat), (.v x.2 (n + 2 * v.2 + 1), (v.1.extractLsb' 32 32).toNat)]

/-- 64-bit results from an S register on. -/
def seqWords (q : SeqThread) (d : Operand) (l : List Word64) : SeqThread :=
  (l.zip (List.range l.length)).foldl (fun q v => q.put (regS d + v.2) v.1) q

def execRngpeek (c : Ctl) (d a : Operand) (s : State) : Host.Outcome State Fault Refusal :=
  let i : Instr := .rngpeek c d a
  issue i c
    (fun e =>
      if e.eff.isEmpty then .ok (retire e.s e i)
      else
        match ringIx e.s e.b (firstV e a) with
        | .error x => .error x
        | .ok n =>
          let r := e.s.ring e.b.die n
          .ok (retireNow e i (wideCells e d [r.prod, r.cons])))
    (fun e =>
      match ringIx e.s e.b (srcSU e a).toNat with
      | .error x => .error x
      | .ok n =>
        let r := e.s.ring e.b.die n
        .ok (e.put (seqWords e.q.advance d [r.prod, r.cons]))) s

/-- RNGADV's step at the ring (R304): the ring and the result. -/
def ringAdvance (r : Ring) (e n : Word64) : Ring × Word64 :=
  if r.cons ≠ e then (r, r.cons - e)
  else if r.prod.toNat < e.toNat + n.toNat then (r, BitVec.allOnes 64)
  else ({ r with cons := e + n }, 0)

def execRngadv (c : Ctl) (d a b : Operand) (s : State) : Host.Outcome State Fault Refusal :=
  let i : Instr := .rngadv c d a b
  issue i c
    (fun e =>
      if e.eff.isEmpty then .ok (retire e.s e i)
      else
        match ringIx e.s e.b (firstV e a) with
        | .error x => .error x
        | .ok n =>
          if !e.s.agentSettled true .die e.w.aid then waitOn .other e.s
          else
            let r := ringAdvance (e.s.ring e.b.die n) (srcPair e e.first d) (BitVec.ofNat 64 (firstV e b))
            .ok (retireNow { e with s := e.s.setRing e.b.die n r.1 } i (pairCells e d r.2)))
    (fun e =>
      match ringIx e.s e.b (srcSU e a).toNat with
      | .error x => .error x
      | .ok n =>
        if !e.s.agentSettled true .die e.q.aid then waitOn .other e.s
        else
          let r := ringAdvance (e.s.ring e.b.die n) (e.q.get (regS d)) (srcSU e b)
          .ok (({ e with s := e.s.setRing e.b.die n r.1 }).put (e.q.advance.put (regS d) r.2))) s

/-- RNGSTAT: the four loss counters in one step, and what is left of them. -/
def ringStat (i : Instr) (c : Ctl) (reset : Bool) (d a : Operand) (s : State) : Host.Outcome State Fault Refusal :=
  let after (r : Ring) : Ring := if reset then { r with full := 0, key := 0, frame := 0, nomat := 0 } else r
  issue i c
    (fun e =>
      if e.eff.isEmpty then .ok (retire e.s e i)
      else
        match ringIx e.s e.b (firstV e a) with
        | .error x => .error x
        | .ok n =>
          let r := e.s.ring e.b.die n
          .ok (retireNow { e with s := e.s.setRing e.b.die n (after r) } i
            (wideCells e d [r.full, r.key, r.frame, r.nomat])))
    (fun e =>
      match ringIx e.s e.b (srcSU e a).toNat with
      | .error x => .error x
      | .ok n =>
        let r := e.s.ring e.b.die n
        .ok (({ e with s := e.s.setRing e.b.die n (after r) }).put
          (seqWords e.q.advance d [r.full, r.key, r.frame, r.nomat]))) s

def execRngstatPeek (c : Ctl) (d a : Operand) (s : State) : Host.Outcome State Fault Refusal :=
  ringStat (.rngstatPeek c d a) c false d a s

def execRngstatReset (c : Ctl) (d a : Operand) (s : State) : Host.Outcome State Fault Refusal :=
  ringStat (.rngstatReset c d a) c true d a s

/-- NQFENCE (R43). -/
def execNqfence (c : Ctl) (a : Operand) (s : State) : Host.Outcome State Fault Refusal :=
  let named (m : Nat) (q : QueueId) : Bool := match q with
    | .nq _ k => m.testBit k
    | _ => false
  issue (.nqfence c a) c
    (fun e =>
      if e.eff.isEmpty then .ok (retire e.s e (.nqfence c a))
      else .ok (retire (e.s.fenceQueues e.w.aid (named (firstPair e a))) e (.nqfence c a)))
    (fun e => .ok (({ e with s := e.s.fenceQueues e.q.aid (named (srcSU e a).toNat) }).put e.q.advance)) s

end Sys2Proof.Machine
end

