-- ==== Sys2Proof/Machine/EngineSteps.lean ====
section
/-!
DEFINITION. The steps of engine entries (R35, R43): BEGIN, one unit of work, COMPLETE.
-/
namespace Sys2Proof.Machine

/-- Whether every handle an entry names is still its buffer's (R260). -/
def State.handlesLive (s : State) (e : Entry) : Bool := e.handles.all fun h => s.handleLive e.ctx h

/-- BEGIN of an entry whose conditions hold. -/
def State.beginStep (s : State) (e : Entry) : State :=
  match e.form with
  | .mat m =>
    let s := s.setEntry { e with st := .begun }
    s.modBlock e.blk m.begin
  | .copy f r d x =>
    let s := s.copyBegin e f r d x
    (match s.entry e.id with
     | some e => s.netBegin e
     | none => s)
  | .bd f =>
    let e := { e with ends := s.bdEnds e.ctx f, revoked := e.revoked || !s.handlesLive e }
    if e.revoked then s.setEntry { e with st := .begun }
    else
      (match s.bdBegin e f with
       | .wait s => s
       | .go s f early v => s.setEntry { e with
           st := .begun, form := .bd f, early := early, verdict := v, base := s.baseOf e f })
  | .net w =>
    let h := s.handleAt e.ctx (handleSlot w.lh)
    let e := { e with st := .begun, ends := [h.end_], revoked := e.revoked || !s.handlesLive e }
    s.netBegin e

def execBeginEntry (id : Nat) (s : State) : Host.Outcome State Fault Refusal :=
  .next (match s.entry id with
    | some e => if s.canBegin e then s.beginStep e else s
    | none => s)

-- Units.

/-- The unit that holds position u, as positions. -/
def Entry.unitAt (e : Entry) (u : Nat) : List Nat :=
  match e.form with
  | .copy f _ d x => f.unit e d x u
  | .bd f => (List.range (f.unit u).2).map fun i => (f.unit u).1 + i
  | _ => [u]

def State.unitWork (s : State) (e : Entry) (l : List Nat) : Moved :=
  match e.form with
  | .copy f _ d x => s.copyUnit e f d x l
  | .bd f => s.bdWork e f (l.headD 0) l.length
  | _ => .ok s

/-- Positions of a strided copy whose bytes a unit has moved too, because rows overlap at both ends (R271). -/
def Entry.twins (e : Entry) (l : List Nat) : List Nat :=
  match e.form with
  | .copy f _ _ _ =>
    (l.flatMap fun p => f.posAll (f.map p).1 (f.map p).2).filter fun q =>
      !l.contains q && !e.done.contains q && decide (q < e.limit f.total)
  | _ => []

/-- A unit is done: its positions, and the pieces begun (R260). -/
def State.markDone (s : State) (id : Nat) (l : List Nat) : State :=
  match s.entry id with
  | some e => s.setEntry { e with
      done := e.done ++ l ++ dedup (e.twins l), moved := max e.moved (maxOf l / 4096 + 1) }
  | none => s

/-- The units from position u on, in transfer order. -/
def State.runFrom (id : Nat) : Nat → Nat → State → Moved
  | 0, _, s => .ok s
  | fuel + 1, u, s =>
    match s.entry id with
    | none => .ok s
    | some e =>
      if e.total ≤ u then .ok s
      else if e.done.contains u || !(e.unitAt u).all e.mayWork then State.runFrom id fuel (u + 1) s
      else
        match s.unitWork e (e.unitAt u) with
        | .ok s => State.runFrom id fuel (u + 1) (s.markDone id (e.unitAt u))
        | r => r

/-- Every unit that is left: first those of a column block partly written, then the others (R282). -/
def State.runAll (s : State) (e : Entry) : Moved :=
  match State.runFrom e.id (e.total + 1) 0 s with
  | .ok s => State.runFrom e.id (e.total + 1) 0 s
  | r => r

/-- DONE of an entry that ends (R260): the bytes before the first of its transfer that it has not moved; of an MXV, those it has
written. -/
def Entry.bytesDone (e : Entry) : Nat :=
  match e.form with
  | .bd (.mxv _ _ _ _ _ _ _ _ _ _ _ _ _ _ _) => 4 * e.done.length
  | _ => ((List.range e.total).takeWhile e.done.contains).length

/-- Whether the writes of an entry let it take COMPLETE: an output that MXV adds is performed by its BASEOP (R282). -/
def State.entryQuiet (s : State) (e : Entry) : Bool :=
  match e.form with
  | .bd _ => s.noAccesses e
  | _ => s.writesDone e

/-- COMPLETE of a copy between ends of the package, or of a base-die entry, as far as it goes now. -/
def State.workComplete (s : State) (e : Entry) : State :=
  match e.verdict with
  | some (c, n) => if s.entryQuiet e then s.finish e c n else s
  | none =>
    match s.runAll e with
    | .wait s => s
    | .fail c s =>
      (match s.entry e.id with
       | some e =>
         let e := { e with verdict := some (c, e.bytesDone) }
         if s.entryQuiet e then s.finish e c e.bytesDone else s.setEntry e
       | none => s)
    | .ok s =>
      match s.entry e.id with
      | none => s
      | some e =>
        if !s.entryQuiet e then s
        else s.finish e (if e.done.length < e.total then 1 else 0) e.bytesDone

def State.completeStep (s : State) (e : Entry) : State :=
  match e.form with
  | .mat m => s.matComplete e m
  | .net w => s.msgComplete e w
  | .copy _ _ _ _ => if e.farEnd then s.farComplete e else s.workComplete e
  | .bd _ => s.workComplete e

/-- COMPLETE: what is left of the entry's work, then its status, its number and its signal. -/
def execCompleteEntry (id : Nat) (s : State) : Host.Outcome State Fault Refusal :=
  .next (match s.entry id with
    | some e => if e.live && e.st == .begun then s.completeStep e else s
    | none => s)

/-- The core-local lists and vectors that an entry names. -/
def Entry.lists (e : Entry) : List (Nat × Nat) :=
  match e.form with
  | .copy (.indexed _ _ cnt la _ _) _ _ _ => [(la, 4 * cnt)]
  | .bd (.mgath _ _ _ _ _ _ la _ cnt _ _ _) => [(la, 4 * cnt)]
  | .bd (.mxv _ _ _ _ _ _ aaddr astr vm1 fa _ _ k _ _) =>
    (List.range (vm1 + 1)).map fun v => (aaddr + v * astr, k * fmtBytes fa)
  | _ => []

/-- Whether an entry has not read its lists yet: it does so between its issue and its BEGIN. -/
def Entry.listsDue (e : Entry) : Bool :=
  match e.form with
  | .copy (.indexed _ _ _ _ _ none) _ _ _ => true
  | .bd (.mgath _ _ _ _ _ _ _ _ _ _ _ none) => true
  | .bd (.mxv _ _ _ _ _ _ _ _ _ _ _ _ _ _ none) => true
  | _ => false

/-- The core-local ranges that an entry still reads before its BEGIN. -/
def Entry.listRanges (e : Entry) : List (Nat × Nat) := if e.listsDue then e.lists else []

/-- One unit of an entry's work, in whatever order the agenda gives. -/
def State.moveUnit (s : State) (id u : Nat) : State :=
  match s.entry id with
  | none => s
  | some e =>
    if !e.live then s
    else if e.st == .queued then
      match e.listRanges.find? fun r => decide (r.1 ≤ u) && decide (u < r.1 + r.2) with
      | some r => s.readEarly e r.1 r.2 u
      | none => s
    else if e.verdict.isSome then s
    else
      match e.form with
      | .mat m => s.matMove e m u
      | _ =>
        if e.isNet then
          match s.sendPkt id u with
          | .ok s => s
          | .wait s => s
          | .fail c s => s.failEntry id c
        else if u < e.total then
          let l := e.unitAt u
          let clear := match e.form with
            | .copy f _ d x => s.copyClear e f d x u
            | _ => true
          if e.done.contains u || !l.all e.mayWork || !clear then s
          else
            match s.unitWork e l with
            | .ok s => s.markDone id l
            | .wait s => s
            | .fail _ _ => s
        else
          match e.form with
          | .copy f _ d x => if u - e.total < e.total then s.copyAhead e f x (f.unit e d x (u - e.total)) else s
          | .bd f => s.bdAhead e f (u - e.total)
          | _ => s

end Sys2Proof.Machine
end

