-- ==== Sys2Proof/Machine/Banker.lean ====
section
/-!
DEFINITION. The resource banker (R112 to R126): pools and vectors, the decision, grants and returns with the physical units behind
them, zeroing and retry events, and the banker's instructions.
-/
namespace Sys2Proof.Machine

-- Vectors.

def rvOfWord (w : Nat) : RV := ⟨w % 256, w / 2 ^ 8 % 256, w / 2 ^ 16 % 256, w / 2 ^ 24 % 16, w / 2 ^ 32 % 256⟩
/-- The must-be-zero bits of a packed vector (R126). -/
def rvMbz (w : Nat) : Bool := w / 2 ^ 28 % 16 != 0 || w / 2 ^ 40 != 0
def rvPack (v : RV) : Nat := v.reg + v.clm * 2 ^ 8 + v.acc * 2 ^ 16 + v.mslot * 2 ^ 24 + v.stile * 2 ^ 32
def rvList (v : RV) : List Nat := [v.reg, v.clm, v.acc, v.mslot, v.stile]
def rvAdd (a b : RV) : RV := ⟨a.reg + b.reg, a.clm + b.clm, a.acc + b.acc, a.mslot + b.mslot, a.stile + b.stile⟩
def rvSub (a b : RV) : RV := ⟨a.reg - b.reg, a.clm - b.clm, a.acc - b.acc, a.mslot - b.mslot, a.stile - b.stile⟩

/-- The lowest class in which `a` exceeds `b`. -/
def overClass (a b : RV) : Option Nat :=
  (((rvList a).zip (rvList b)).zip (List.range 5)).findSome? fun x => if x.1.2 < x.1.1 then some x.2 else none

/-- Warps of a block of `nw` in partition p (R113). -/
def nPart (nw p : Nat) : Nat := (nw + 3 - p) / 4

/-- A vector over the eight pools. -/
def poolsOf (nw : Nat) (v : RV) : List Nat :=
  ((List.range 4).map fun p => v.reg * nPart nw p) ++ [v.clm, v.acc, v.mslot, v.stile]

def Quota.pools (q : Quota) : List Nat :=
  [q.lim.reg, q.lim.reg, q.lim.reg, q.lim.reg, q.lim.clm, q.lim.acc, q.lim.mslot, q.lim.stile]

def Phys.pools (p : Phys) : List Nat :=
  ((List.range 4).map fun i => (p.reg.getD i []).length) ++ [p.clm.length, p.acc.length, p.mslot.length, p.stile.length]

def leV (a b : List Nat) : Bool := (a.zip b).all fun x => decide (x.1 ≤ x.2)
def addV (a b : List Nat) : List Nat := (a.zip b).map fun x => x.1 + x.2
def subV (a b : List Nat) : List Nat := (a.zip b).map fun x => x.1 - x.2

/-- The base allocation of a header (R93). -/
def Header.floor (h : Header) : RV := { h.base with reg := (h.regs + 7) / 8, clm := h.clmg }

-- The resident set and F (R115, R116).

def insertSlot (b : Block) : List Block → List Block
  | [] => [b]
  | x :: t => if b.slot ≤ x.slot then b :: x :: t else x :: insertSlot b t

/-- The blocks of a core, lowest slot first. -/
def State.coreBlocks (s : State) (core : Nat) : List Block :=
  ((s.task.blocks.map Prod.snd).filter fun b => b.gcore == core).foldr insertSlot []

def State.resident (s : State) (core kid : Nat) : List Block := (s.coreBlocks core).filter fun b => b.kid == kid

/-- The quota of a kernel on a core: 0 until the die's kernel has recovered the controls (R100, R315). -/
def State.quota (s : State) (core kid : Nat) : Quota :=
  if (s.die (core / 96)).recovered then agetD kid ⟨0, RV.zero⟩ (s.core core).quotas else ⟨0, RV.zero⟩

/-- F: the quota less the holdings of the resident blocks and the returns not yet zeroed. -/
def State.freeV (s : State) (core kid : Nat) : List Nat :=
  let held := (s.resident core kid).map fun b => poolsOf b.nWarps b.hold
  let zs := ((s.core core).zero.filter fun z => z.kid == kid).map fun z => z.phys.pools
  (held ++ zs).foldl subV (s.quota core kid).pools

/-- F once the blocks of some teams have left and their units are zeroed (R103). -/
def State.freeWithout (s : State) (core kid : Nat) (gone : List Nat) : List Nat :=
  let held := ((s.resident core kid).filter fun b => !gone.contains b.team).map fun b => poolsOf b.nWarps b.hold
  let zs := ((s.core core).zero.filter fun z => z.kid == kid).map fun z => z.phys.pools
  (held ++ zs).foldl subV (s.quota core kid).pools

/-- safe (R116): need and holding of each block, lowest slot first. -/
def safeGo : Nat → List Nat → List (List Nat × List Nat) → Bool
  | 0, _, l => l.isEmpty
  | fuel + 1, work, l =>
    match l.find? fun x => leV x.1 work with
    | some x => safeGo fuel (addV work x.2) (l.erase x)
    | none => l.isEmpty

def bankSafe (f : List Nat) (l : List (Nat × RV × RV)) : Bool :=
  safeGo (l.length + 1) f (l.map fun x => (poolsOf x.1 (rvSub x.2.1 x.2.2), poolsOf x.1 x.2.2))

inductive Decision where
  | exceeded (cls : Nat)
  | busy
  | isUnsafe
  | grant
  deriving DecidableEq, Repr

/-- The decision of R116 for a resident block. -/
def State.decide_ (s : State) (b : Block) (q : RV) : Decision :=
  match overClass (rvAdd b.hold q) b.claim with
  | some k => .exceeded k
  | none =>
    let f := s.freeV b.gcore b.kid
    let p := poolsOf b.nWarps q
    if !leV p f then .busy
    else
      let l := (s.resident b.gcore b.kid).map fun x =>
        (x.nWarps, x.claim, if x.id = b.id then rvAdd b.hold q else x.hold)
      if bankSafe (subV f p) l then .grant else .isUnsafe

-- Physical units (R316): the lowest free ones.

/-- Units in use on a core: held by any block, or being zeroed. -/
def State.unitsUsed (s : State) (core : Nat) (f : Phys → List Nat) : List Nat :=
  ((s.coreBlocks core).flatMap fun b => f b.phys) ++ (s.core core).zero.flatMap fun z => f z.phys

def lowestFree (used : List Nat) (total n : Nat) : List Nat :=
  ((List.range total).filter fun k => !used.contains k).take n

/-- Units for a vector on a core. -/
def State.newUnits (s : State) (core nw : Nat) (q : RV) : Phys where
  reg := (List.range 4).map fun p => lowestFree (s.unitsUsed core fun x => x.reg.getD p []) 128 (q.reg * nPart nw p)
  clm := lowestFree (s.unitsUsed core Phys.clm) 128 q.clm
  acc := lowestFree (s.unitsUsed core Phys.acc) 64 q.acc
  mslot := lowestFree (s.unitsUsed core Phys.mslot) 8 q.mslot
  stile := lowestFree (s.unitsUsed core Phys.stile) 64 q.stile

def Phys.append (a b : Phys) : Phys where
  reg := (List.range 4).map fun p => a.reg.getD p [] ++ b.reg.getD p []
  clm := a.clm ++ b.clm
  acc := a.acc ++ b.acc
  mslot := a.mslot ++ b.mslot
  stile := a.stile ++ b.stile

/-- A grant takes effect (R114, R117, R121, R123). -/
def Block.grow (b : Block) (q : RV) (u : Phys) : Block :=
  let hold := rvAdd b.hold q
  { b with
    hold := hold
    phys := b.phys.append u
    bnd := if q.reg = 0 then b.bnd else 8 * hold.reg
    stiles := b.stiles ++ List.replicate q.stile ⟨0, 0, []⟩ }

def State.grantTo (s : State) (b : Block) (q : RV) : State :=
  let s := s.abandonTake b
  s.setBlock (b.grow q (s.newUnits b.gcore b.nWarps q))

-- Retry events (R119).

/-- One WAITING TAKE is decided again. A grant completes its instruction. R118 does not say whether a TAKE may be granted between its
team's being told to stop and the save: the model's choice is that it may (log entry 48). -/
def State.retryTake (s : State) (x : Nat × RV) : State :=
  match s.block x.1 with
  | none => s
  | some b =>
    match b.seq with
    | some q =>
      if q.wait = .take then
        match s.decide_ b x.2 with
        | .grant => s.grantTo { b with seq := some q.advance } x.2
        | _ => s
      else s
    | none => s

/-- A retry event on a core (R119): every WAITING TAKE is decided again, oldest first. The admissions that wait follow them within the
same step (`State.admitDue`). -/
def State.retry (s : State) (core : Nat) : State :=
  let s := (s.core core).waiting.foldl State.retryTake s
  if (s.die (core / 96)).admWait.isEmpty then s else s.modDie (core / 96) fun d => { d with admDue := true }

-- Returns (R120, R121).

/-- The units a return gives back: names are removed from the top. -/
def Phys.drop (p : Phys) (nw : Nat) (q : RV) : Phys where
  reg := (List.range 4).map fun i =>
    let l := p.reg.getD i []
    l.drop (l.length - q.reg * nPart nw i)
  clm := p.clm.drop (p.clm.length - q.clm)
  acc := p.acc.drop (p.acc.length - q.acc)
  mslot := p.mslot.drop (p.mslot.length - q.mslot)
  stile := p.stile.drop (p.stile.length - q.stile)

def Phys.keep (p : Phys) (nw : Nat) (q : RV) : Phys where
  reg := (List.range 4).map fun i =>
    let l := p.reg.getD i []
    l.take (l.length - q.reg * nPart nw i)
  clm := p.clm.take (p.clm.length - q.clm)
  acc := p.acc.take (p.acc.length - q.acc)
  mslot := p.mslot.take (p.mslot.length - q.mslot)
  stile := p.stile.take (p.stile.length - q.stile)

/-- Units begin to be zeroed. -/
def State.zeroUnits (s : State) (core kid : Nat) (p : Phys) : State :=
  if p.pools.all fun n => n == 0 then s
  else s.modCore core fun c => { c with zero := c.zero ++ [⟨kid, p⟩] }

/-- Registers from `n` on are no more (R123). -/
def Thread.truncate (n : Nat) (t : Thread) : Thread :=
  { t with v := t.v.filter fun p => decide (p.1 < n), dead := t.dead.filter fun k => decide (k < n) }

/-- Pending results and bindings of a warp on registers from `n` on are dropped. -/
def Warp.truncate (n : Nat) (w : Warp) : Warp :=
  { w with
    pend := (w.pend.map fun p => { p with vals := p.vals.filter fun v => match v.1 with
      | .v _ k => decide (k < n)
      | _ => true }).filter fun p => !p.vals.isEmpty
    binds := w.binds.filter fun x => decide (x.1 < n)
    pre := w.pre.filter fun x => decide (x.2.1 < n) }

/-- What an SVCP kept of registers from `n` on is dropped (R121): a roll-back leaves them as the banker grants them. -/
def Spec.truncate (n : Nat) (x : Spec) : Spec :=
  { x with
    warp := x.warp.map (Warp.truncate n)
    threads := x.threads.map fun p => (p.1, p.2.truncate n)
    undo := if x.warp.isSome then x.undo.filter fun u => decide (u.1 < n) else x.undo }

/-- The block after a return (R114, R123, R121). Shadow pairs that name a returned bank end. -/
def Block.shrink (b : Block) (q : RV) : Block :=
  let hold := rvSub b.hold q
  let bnd := min b.bnd (8 * hold.reg)
  let gone (k : Nat) : Bool := decide (hold.acc ≤ k)
  let dead := b.pair.filter fun p => gone p.shadow || gone p.live
  let b := dead.foldl (fun (b : Block) p => b.zeroBank p.shadow) b
  let b := (List.range q.acc).foldl (fun (b : Block) i => b.zeroBank (hold.acc + i)) b
  { b with
    hold := hold
    bnd := bnd
    phys := b.phys.keep b.nWarps q
    pair := b.pair.filter fun p => !(gone p.shadow || gone p.live)
    threads := b.threads.map (Thread.truncate bnd)
    warps := b.warps.map (Warp.truncate bnd)
    parked := b.parked.map (Warp.truncate bnd)
    spec := b.spec.map (Spec.truncate bnd)
    stiles := b.stiles.take hold.stile
    clm := b.clm.filter fun c => decide (c.1 < 4096 * hold.clm) }

/-- Entries forget what they would have given to returned units: signals to returned stiles, results for returned registers. -/
def State.forget (s : State) (b : Block) : State :=
  { s with om := { s.om with entries := s.om.entries.map fun e =>
      let e := if e.sigBlk = b.id ∧ sigOn e.sig ∧ b.hold.stile ≤ sigStile e.sig then { e with dropSig := true } else e
      match e.form with
      | .mat m => if e.blk = b.id then
          { e with form := .mat { m with
            out := m.out.filter fun o => decide (o.2.1 < b.bnd)
            regs := m.regs.filter fun r => decide (r.reg < b.bnd) } }
        else e
      | _ => e } }

/-- A return takes effect: the block shrinks, zeroing begins, and the retry event. -/
def State.giveBack (s : State) (b : Block) (q : RV) : State :=
  let p := b.phys.drop b.nWarps q
  let b' := b.shrink q
  let s := if q = RV.zero then s.setBlock b else (s.setBlock b').forget b'
  (s.zeroUnits b.gcore b.kid p).retry b.gcore

/-- Everything a block holds returns (R16, R110, R103): the block is no longer resident. The results of its matrix entries that no
MWAIT has taken stay with the entries: a saved block's MWAIT takes them after its readmission (R241). -/
def State.releaseBlock (s : State) (b : Block) : State :=
  let s := s.abandonTake b
  let s := (s.delBlock b.id).forget { b with hold := RV.zero }
  (s.zeroUnits b.gcore b.kid b.phys).retry b.gcore

-- The conditions of GIVE (R120, R262).

/-- The core-local bytes an end of a copy names: block, least byte, byte past the greatest; none for a handle end. -/
def endLocal (z : End) (sp : Int × Int) : List (Nat × Int × Int) :=
  match z with
  | .loc blk off => [(blk, off + sp.1, off + sp.2)]
  | .handle _ _ => []

/-- The core-local bytes an entry names, its lists and vectors among them (R120). An indexed end names its whole window. -/
def Entry.localBytes (e : Entry) : List (Nat × Int × Int) :=
  let lists := e.lists.map fun r => (e.blk, (r.1 : Int), (r.1 + r.2 : Int))
  lists ++ match e.form with
    | .copy f _ d x =>
      let all : Int × Int := (0, 2 ^ 20)
      let sp := match f with
        | .indexed scat _ _ _ _ _ => if scat then (f.spans.1, all) else (all, f.spans.2)
        | f => f.spans
      endLocal d sp.2 ++ endLocal x sp.1
    | .bd (.mgath g sum srch srcoff dsth dstoff laddr gm1 count rsz rstr idx) =>
      let f : BdForm := .mgath g sum srch srcoff dsth dstoff laddr gm1 count rsz rstr idx
      if g then [] else [(e.blk, dstoff, dstoff + f.total)]
    | _ => []

/-- Whether an entry that has not completed names a core-local byte of a block from `lo` on. -/
def Entry.usesLocal (e : Entry) (blk lo : Nat) : Bool :=
  e.live && e.localBytes.any fun r => r.1 == blk && decide (r.2.1 < r.2.2) && decide ((lo : Int) < r.2.2)

/-- Whether a return of `q` may take effect. -/
def State.mayGive (s : State) (b : Block) (q : RV) : Bool :=
  let h := rvSub b.hold q
  let bnd := min b.bnd (8 * h.reg)
  let lo := 4096 * h.clm
  (s.matEntries b.id).all (fun p => !p.1.live ||
    !((p.2.bindRegs.any fun n => decide (bnd ≤ n)) || (p.2.banks.any fun k => decide (h.acc ≤ k)) ||
      decide (h.mslot ≤ p.2.slot))) &&
  (q.clm == 0 || s.om.entries.all fun e => !e.usesLocal b.id lo) &&
  (q.clm == 0 || s.om.accs.all fun p => !(p.2.loc == some b.id && p.2.st == .buffer &&
    (storeBytes p.2).any fun c => decide (lo ≤ c.1))) &&
  (q.clm == 0 || b.spec.all fun x => x.stores.all fun a => !(a.loc == some b.id &&
    (storeBytes a).any fun c => decide (lo ≤ c.1))) &&
  ((s.outstanding b.id) ++ b.svc.flatMap fun x => x.d).all fun c => match c with
    | .v _ n => decide (n < bnd)
    | _ => true

-- Instructions.

/-- A vector operand (R126). -/
def vectorS (e : SEnv) (a : SReg) : Except Stop RV :=
  let w := (e.q.get a.val).toNat
  if rvMbz w then flt fClaimExceeded 7 else .ok (rvOfWord w)

def execClaim (c : Ctl) (a : SReg) (s : State) : Host.Outcome State Fault Refusal :=
  issueS (.claim c a) c (fun e =>
    match vectorS e a with
    | .error x => .error x
    | .ok v =>
      let k := (((rvList v).zip ((rvList e.b.claim).zip (rvList e.b.hold))).zip (List.range 5)).findSome? fun x =>
        if x.1.2.1 < x.1.1 ∨ x.1.1 < x.1.2.2 then some x.2 else none
      match k with
      | some k => flt fClaimExceeded k
      | none =>
        let s := ({ e with b := { e.b with claim := v } }).put e.q.advance
        .ok (if v = e.b.claim then s else s.retry e.b.gcore)) s

/-- TAKE (R118): while WAITING it changes state by retry events alone. -/
def execTake (c : Ctl) (a : SReg) (s : State) : Host.Outcome State Fault Refusal :=
  issueS (.take c a) c (fun e =>
    if (e.s.core e.b.gcore).waiting.any fun x => x.1 == e.b.id then waitOn .take e.s
    else
      match vectorS e a with
      | .error x => .error x
      | .ok v =>
        if v = RV.zero then .ok (e.put e.q.advance)
        else
          match e.s.decide_ e.b v with
          | .exceeded k => flt fClaimExceeded k
          | .grant => .ok (e.s.grantTo { e.b with seq := some e.q.advance } v)
          | _ => waitOn .take (e.s.modCore e.b.gcore fun x => { x with waiting := x.waiting ++ [(e.b.id, v)] })) s

def execTaket (c : Ctl) (d a : SReg) (s : State) : Host.Outcome State Fault Refusal :=
  issueS (.taket c d a) c (fun e =>
    let done (n : Nat) : SeqThread := e.q.advance.put d.val (BitVec.ofNat 64 n)
    match vectorS e a with
    | .error x => .error x
    | .ok v =>
      if v = RV.zero then .ok (e.put (done 0))
      else
        match e.s.decide_ e.b v with
        | .exceeded k => flt fClaimExceeded k
        | .grant => .ok (e.s.grantTo { e.b with seq := some (done 0) } v)
        | .busy => .ok (e.put (done 1))
        | .isUnsafe => .ok (e.put (done 2))) s

/-- GIVE and GIVEALL of a vector. -/
def giveOp (e : SEnv) (q : RV) : Except Stop State :=
  match overClass (rvAdd e.b.hdr.floor q) e.b.hold with
  | some k => flt fClaimExceeded k
  | none =>
    if !e.s.mayGive e.b q then waitOn .other e.s
    else .ok (e.s.giveBack { e.b with seq := some e.q.advance } q)

def execGive (c : Ctl) (a : SReg) (s : State) : Host.Outcome State Fault Refusal :=
  issueS (.give c a) c (fun e =>
    match vectorS e a with
    | .error x => .error x
    | .ok v => giveOp e v) s

def execGiveall (c : Ctl) (s : State) : Host.Outcome State Fault Refusal :=
  issueS (.giveall c) c (fun e => giveOp e (rvSub e.b.hold e.b.hdr.floor)) s

/-- F of the kernel on the core, packed (HOLD.FREE). -/
def State.holdFree (s : State) (b : Block) : RV :=
  let f := s.freeV b.gcore b.kid
  let parts := (List.range 4).filter fun p => nPart b.nWarps p != 0
  let reg := match parts with
    | [] => 32
    | l => min 32 (minOf (l.map fun p => f.getD p 0 / nPart b.nWarps p))
  ⟨reg, f.getD 4 0, f.getD 5 0, f.getD 6 0, f.getD 7 0⟩

def State.holdValue (s : State) (b : Block) : HoldKind → RV
  | .holding => b.hold
  | .claim => b.claim
  | .free => s.holdFree b
  | .floor => b.hdr.floor

def execHold (c : Ctl) (k : HoldKind) (d : Operand) (s : State) : Host.Outcome State Fault Refusal :=
  issue (.hold c k d) c
    (fun e => .ok (pairResult e (.hold c k d) d (rvPack (e.s.holdValue e.b k))))
    (fun e => .ok (seqResult e d (rvPack (e.s.holdValue e.b k)))) s

/-- ZEROING_DONE: the oldest return of the core counts in F, one retry event (R121). -/
def execZeroingDone (core : Nat) (s : State) : Host.Outcome State Fault Refusal :=
  .next (match (s.core core).zero with
    | [] => s
    | _ :: t => (s.modCore core fun c => { c with zero := t }).retry core)

end Sys2Proof.Machine
end

