-- ==== Sys2Proof/Machine/Task.lean ====
section
/-!
DEFINITION. The task engine: launch headers and records (R93 to R97), pushes and joins (R17, R98, R101), dealing and placement (R13,
R14), admission (R15, R122), the end of a block (R16), kill (R110), pre-emption and readmission (R102 to R106), and the
task-engine instructions (R111).
-/
namespace Sys2Proof.Machine

/-- `n` bits of a word from bit `lo` on. -/
def fld (w lo n : Nat) : Nat := w / 2 ^ lo % 2 ^ n

-- Launch headers.

def headerOf (w : List Nat) : Header :=
  let h (i : Nat) : Nat := w.getD i 0
  { widths := (List.range 6).map fun i => fld (h 0) (7 * i) 7
    regs := fld (h 0) 42 9
    fuse := (h 0).testBit 51
    seqv := (h 0).testBit 52
    warpv := (h 0).testBit 53
    trapv := (h 0).testBit 54
    seqEntry := BitVec.ofNat 54 (h 1)
    warpEntry := BitVec.ofNat 54 (h 2)
    trapEntry := BitVec.ofNat 54 (h 3)
    dataPtr := fld (h 4) 0 54
    dataSize := fld (h 5) 0 20
    clmg := fld (h 5) 32 8
    hdlg := fld (h 5) 40 8
    claim := rvOfWord (h 6)
    base := ⟨0, 0, fld (h 7) 16 8, fld (h 7) 24 4, fld (h 7) 32 8⟩
    mbz := fld (h 0) 55 9 != 0 || (fld (h 1) 54 10 != 0 || fld (h 2) 54 10 != 0 || fld (h 3) 54 10 != 0 ||
      fld (h 4) 54 10 != 0) || fld (h 5) 20 12 != 0 || fld (h 5) 48 16 != 0 || rvMbz (h 6) ||
      fld (h 7) 0 16 != 0 || fld (h 7) 28 4 != 0 || fld (h 7) 40 24 != 0 }

def Header.f (h : Header) (i : Nat) : Nat := h.widths.getD i 0

/-- The warps of a block (R12, R15). -/
def Header.warps (h : Header) : Nat := if h.warpv then (2 ^ h.f 0 + 31) / 32 else 0

/-- R9. -/
def Header.widthsOk (h : Header) : Bool := decide (h.widths.sum ≤ 64) && decide (h.f 0 ≤ 10) && decide (h.f 1 ≤ 3)

/-- Checks 1 to 8 of R94: the first that fails. -/
def Header.check (h : Header) : Option Nat :=
  let fails : List (Nat × Bool) := [
    (1, h.mbz),
    (2, !h.widthsOk),
    (3, !h.seqv && !h.warpv),
    (4, decide (256 < h.regs)),
    (5, (h.seqv && h.seqEntry.toNat % 4 != 0) || (h.warpv && h.warpEntry.toNat % 4 != 0) ||
      (h.trapv && h.trapEntry.toNat % 4 != 0)),
    (6, decide (h.clmg < h.hdlg) || decide ((h.clmg - h.hdlg) * 4096 < h.dataSize)),
    (7, (overClass h.claim ⟨32, 128, 64, 8, 64⟩).isSome),
    (8, (overClass h.floor h.claim).isSome)]
  (fails.find? fun x => x.2).map Prod.fst

-- Records.

def recOf (w : List Nat) : Rec :=
  let c (i : Nat) : Nat := w.getD i 0
  { code := fld (c 0) 0 54
    edge := fld (c 0) 54 10
    frame := fld (c 1) 0 54
    prio := fld (c 1) 54 4
    workid := c 2 % 2 ^ 64
    join := fld (c 3) 0 16
    kid := fld (c 3) 16 12
    range := (c 3).testBit 28
    restart := (c 3).testBit 29
    resume := (c 3).testBit 30
    retries := fld (c 3) 32 2
    pdies := fld (c 3) 48 8
    rangel := fld (c 3) 56 6
    mbz := fld (c 1) 58 6 != 0 || (c 3).testBit 31 || fld (c 3) 34 14 != 0 || fld (c 3) 62 2 != 0 }

/-- R96, with the header the record names. A RESUME record names a save area, whose first word is the header's address; it has
LAUNCH_RANGE clear and is one team. -/
def Rec.legal (r : Rec) (h : Header) : Bool :=
  !r.mbz && !(r.resume && r.range) &&
  (if r.range then
    decide (h.f 1 ≤ r.rangel) && decide (h.f 0 + r.rangel ≤ h.widths.sum) &&
      r.workid % 2 ^ (h.f 0 + r.rangel) == 0
  else r.rangel == 0 && r.workid % 2 ^ (h.f 0 + h.f 1) == 0)

-- The task engine's reads.

/-- A page as the task engine of a die translates it for a context. -/
def State.taskPage (s : State) (die ctx : Nat) (t : AccType) (va : Nat) : State × EntryX :=
  let (s, x) := s.xlate 0 die none ctx (va % 2 ^ 54)
  match x with
  | .wait => (s, .wait)
  | .fail _ => (s.dropFails die 0, .fail 2)
  | .done tl =>
    match s.checkPage die t tl.pte (tl.phys (va % 2 ^ 54)) with
    | none => (s, .ok tl)
    | some f => (s, .fail (if f.cls = 2 then 8 else 2))

inductive TRead where
  | wait
  | fail
  | ok (bytes : List Byte)
  deriving DecidableEq, Repr

/-- Bytes of one page. -/
def State.pageBytes (s : State) (tl : Tlb) (va n : Nat) : List Byte := s.readHome (pteKeyid tl.pte) (tl.phys (va % 2 ^ 54)) n

/-- The homes of `n` bytes serve an access of a context (R321). -/
def State.touchHomes (s : State) (ctx pa n : Nat) : State :=
  (dedup ((List.range ((pa + n + 127) / 128 - pa / 128)).map fun i => s.phys.homeDie (128 * (pa / 128 + i)))).foldl
    (fun (t : State) d => t.touch ctx d) s

/-- `n` bytes from `va` on, page by page. -/
def State.taskBytes (s : State) (die ctx : Nat) : Nat → Nat → Nat → State × TRead
  | 0, _, _ => (s, .ok [])
  | fuel + 1, va, n =>
    if n = 0 then (s, .ok [])
    else
      let k := min n (2 ^ 16 - va % 2 ^ 16)
      match s.taskPage die ctx .ld va with
      | (s, .wait) => (s, .wait)
      | (s, .fail _) => (s, .fail)
      | (s, .ok tl) =>
        match s.taskBytes die ctx fuel (va + k) (n - k) with
        | (s, .ok r) => (s.touchHomes ctx (tl.phys (va % 2 ^ 54)) k, .ok (s.pageBytes tl va k ++ r))
        | x => x

def State.taskRead (s : State) (die ctx va n : Nat) : State × TRead := s.taskBytes die ctx (n / 2 ^ 16 + 2) va n

/-- A write of the task engine at a home, with its replica (R101, R324). -/
def State.taskWrite (s : State) (die ctx va keyid : Nat) (repl : Bool) (pa : Nat) (bytes : List Byte) : State :=
  let home := s.phys.homeDie pa
  let s := ((s.writeHome keyid (cellsFrom pa bytes)).dropLease die (lineOf pa)).touch ctx home
  if repl then
    let (o, s) := s.newId
    (s.addAccess {
      aid := 0, inst := 1, die := die, ctx := ctx, loc := none, line := lineOf pa, va := va, page := 0, keyid := keyid
      slice := 0, kind := .store (cellsFrom pa bytes), acq := none, rel := none, st := .replica o (cellsFrom pa bytes)
      refusals := 0, firstRef := 0, retryAt := 0, repl := true }).2
  else s

-- Hampers.

/-- Whether a push to a hamper finds room (R98). -/
def Die.roomFor (d : Die) (p : Nat) : Bool :=
  decide ((d.hampers.getD p []).length < 64) ||
    decide ((d.hampers.map fun (h : List QRec) => h.length - 64).sum < d.ovf)

def State.pushRec (s : State) (die : Nat) (q : QRec) : State :=
  s.modDie die fun d => { d with hampers := d.hampers.modify q.crec.prio fun h => h ++ [q] }

/-- The highest priority in a scheduling group, resident or queued (R102). -/
def State.groupPrio (s : State) (launch group : Nat) : Nat :=
  maxOf (((s.task.teams.map Prod.snd).filterMap fun t =>
      if t.launch = launch ∧ t.group = group then some t.crec.prio else none) ++
    (s.dies.flatMap fun d => d.hampers.flatten).filterMap fun q =>
      if q.launch = launch ∧ q.group = group ∧ !q.crec.range then some q.crec.prio else none)

/-- The record as it is pushed: a RESUME record takes the highest priority of its group at that moment (R102). -/
def State.asPushed (s : State) (q : QRec) : QRec :=
  if q.crec.resume then { q with crec := { q.crec with prio := max q.crec.prio (s.groupPrio q.launch q.group) } } else q

/-- A push that needs no instruction: it waits while the overflow ring is full. -/
def State.pushLater (s : State) (die : Nat) (q : QRec) : State :=
  if (s.die die).pushq.isEmpty && (s.die die).roomFor (s.asPushed q).crec.prio then s.pushRec die (s.asPushed q)
  else s.modDie die fun d => { d with pushq := d.pushq ++ [q] }

/-- The pushes that wait find room, oldest first. -/
def State.pushDue (s : State) (die : Nat) : State :=
  let l := (s.die die).pushq
  l.foldl (fun s q => s.pushLater die q) (s.modDie die fun d => { d with pushq := [] })

/-- A record that has just been pushed, its launch its own. -/
def State.newRec (s : State) (r : Rec) (addr ctx : Nat) (prod : List Nat) : QRec × State :=
  let (id, s) := s.newId
  (⟨id, r, addr, ctx, id, 0, 0, if r.edge = 0 then [] else prod, false, none⟩, s)

/-- The saved team whose save area lies at a physical address. -/
def State.saved? (s : State) (area : Nat) : Option SavedTeam := aget area s.task.saved

/-- Whether a record may be pushed (R96): none while its header's translation is awaited. A RESUME record must name a save area of
its context; the header is the one saved there. -/
def State.recCheck (s : State) (die ctx : Nat) (r : Rec) : State × Option Bool :=
  if r.resume then
    (s, some (match s.saved? r.code with
      | some sv => sv.team.ctx == ctx && sv.blocks.all fun x => r.legal x.1.hdr
      | none => false))
  else match s.taskRead die ctx r.code 8 with
  | (s, .wait) => (s, none)
  | (s, .fail) => (s, some false)
  | (s, .ok bytes) => (s, some (r.legal (headerOf [leNat bytes])))

-- Joins (R101, R17).

/-- The dies of a mask. -/
def diesOf (m : Nat) : List Nat := (List.range 8).filter fun d => m.testBit d

/-- The record that a join pushes. A RESUME record is one of its team: it belongs to the team's launch and group, and takes the
highest priority that the group holds at the push (R102). -/
def State.joinRec (s : State) (r : Rec) (addr ctx : Nat) : QRec × State :=
  let (q, s) := s.newRec r addr ctx (diesOf r.pdies)
  match (if r.resume then s.saved? r.code else none) with
  | some sv => (s.asPushed { q with
      id := sv.team.id, launch := sv.team.launch, group := sv.team.group
      crec := { r with prio := max r.prio sv.team.crec.prio } }, s)
  | none => (q, s)

/-- One decrement of the record at physical address `pa`: none while its push finds no room or awaits the header. -/
def State.joinAt (s : State) (die ctx prio va keyid : Nat) (repl : Bool) (pa : Nat) : State × Bool :=
  let w := wordsOf (s.readHome keyid pa 32)
  let r := recOf w
  if r.join = 0 then ((s.touchHomes ctx pa 32).report die (.joinUnderflow va), true)
  else
    let r' := { r with join := r.join - 1, prio := max r.prio prio, pdies := r.pdies ||| 2 ^ die }
    let c1 := w.getD 1 0 - r.prio * 2 ^ 54 + r'.prio * 2 ^ 54
    let c3 := w.getD 3 0 - r.join - r.pdies * 2 ^ 48 + r'.join + r'.pdies * 2 ^ 48
    let write (s : State) : State :=
      (s.taskWrite die ctx va keyid repl (pa + 8) (leBytes 8 c1)).taskWrite die ctx va keyid repl (pa + 24) (leBytes 8 c3)
    if r'.join ≠ 0 then (write s, true)
    else
      match s.recCheck die ctx r' with
      | (s, none) => (s, false)
      | (s, some false) => ((write s).report die (.badRecord va), true)
      | (s, some true) =>
        let (q, t) := (write s).joinRec r' va ctx
        if (t.die die).roomFor q.crec.prio then (t.pushRec die q, true) else (s, false)

-- SPAWN.

/-- A load of the sequencer that binds at once; none where it has to wait. -/
def State.loadNow (s : State) (b : Block) (aid : Nat) (x : Site) (n : Nat) : Option (State × List Byte) :=
  let a := mkAccess b aid s.nextId x (.load x.a n []) .issued
  if s.canLoad 0 a then some (s.bind 0 a x.a n) else none

def State.prioOf (s : State) (b : Block) : Nat :=
  match s.team b.team with
  | some t => t.crec.prio
  | none => 0

def spawnOp (e : SEnv) (d a : SReg) (f : Rec → Rec) : Except Stop State :=
  let va := (e.q.get a.val).toNat % 2 ^ 54
  let done (s : State) (v : Nat) : State := ({ e with s := s }).put (e.q.advance.put d.val (BitVec.ofNat 64 v))
  match e.s.spots e.q.aid e.b .ld 32 [(0, 0, va)] with
  | .error x => .error x
  | .ok (s, l) =>
    match l with
    | [] => .ok s
    | p :: _ =>
      match s.loadNow e.b e.q.aid p.site 32 with
      | none => waitOn .other s
      | some (s, bytes) =>
        let r0 := recOf (wordsOf bytes)
        if r0.kid ≠ e.b.kid then flt fAccess 0 va
        else
          let r := f r0
          if r.resume || r.mbz then .ok (done s 2)
          else if r.join ≠ 0 then .ok (done s 1)
          else
            let r := { r with prio := max r.prio (s.prioOf e.b) }
            match s.recCheck e.b.die e.b.ctx r with
            | (s, none) => waitOn .other s
            | (s, some false) => .ok ((done s 0).report e.b.die (.badRecord va))
            | (s, some true) =>
              if !(s.die e.b.die).roomFor r.prio then waitOn .other s
              else
                let (q, s) := (done s 0).newRec r va e.b.ctx [e.b.die]
                .ok (s.pushRec e.b.die q)

def execSpawn (c : Ctl) (d a : SReg) (s : State) : Host.Outcome State Fault Refusal :=
  issueS (.spawn c d a) c (fun e => spawnOp e d a id) s

def execSpawnr (c : Ctl) (rangel : Fin 55) (d a b : SReg) (s : State) : Host.Outcome State Fault Refusal :=
  issueS (.spawnr c rangel d a b) c (fun e =>
    spawnOp e d a fun r => { r with range := true, workid := (e.q.get b.val).toNat, rangel := rangel.val }) s

-- JOINDEC.

/-- Every decrement of an instruction, or none. -/
def State.joinAll (s : State) (b : Block) : List Site → State × Bool
  | [] => (s, true)
  | x :: t =>
    match s.joinAt b.die b.ctx (s.prioOf b) x.va (pteKeyid x.pte) (pteRepl x.pte) x.a with
    | (s, true) => s.joinAll b t
    | r => r

/-- The headers of the records that the decrements bring to 0 are looked up before any of them. -/
def State.joinHeads (s : State) (b : Block) (xs : List Site) : State :=
  xs.foldl (fun s x =>
    let r := recOf (wordsOf (s.readHome (pteKeyid x.pte) x.a 32))
    if r.join ≤ (xs.filter fun y => y.a == x.a).length then (s.recCheck b.die b.ctx r).1 else s) s

def joinOp (b : Block) (r : Except Stop (State × List Site)) (done : State → State) : Except Stop State :=
  match r with
  | .error x => .error x
  | .ok (s, xs) =>
    match (done s).joinAll b xs with
    | (s, true) => .ok s
    | _ => waitOn .other (s.joinHeads b xs)

def execJoindec (c : Ctl) (a : Operand) (s : State) : Host.Outcome State Fault Refusal :=
  issue (.joindec c a) c
    (fun e => joinOp e.b (sitesW e .st 32 a none) fun s => retire s e (.joindec c a))
    (fun e => joinOp e.b (sitesS e .st 32 a none) fun s => ({ e with s := s }).put e.q.advance) s

-- Kill (R110).

/-- A team is no more: the engine that dealt it need not deal it again (R323). -/
def State.forgetDealt (s : State) (id : Nat) : State :=
  { s with dies := s.dies.map fun d => { d with dealt := d.dealt.filter fun x => x.2.id != id } }

def State.delTeam (s : State) (id : Nat) : State := { s with task := { s.task with teams := adel id s.task.teams } }

/-- A block's window outlives it for the entries that still name it (R16, R26, R273): what they read is what the block left. -/
def State.keepWindow (s : State) (b : Block) : State :=
  if s.om.entries.any fun e => e.live && e.localBytes.any fun r => r.1 == b.id then
    { s with om := { s.om with gone := aset b.id b.window s.om.gone } }
  else s

/-- Every block of a team ends: its matrix entries are discarded, everything it holds returns, and its copies run on (R26). -/
def State.endTeam (s : State) (id : Nat) : State :=
  let bs := s.teamBlocks id
  let s := { s with om := { s.om with entries := s.om.entries.filter fun e =>
    !(e.isMat && bs.any fun b => b.id == e.blk) } }
  let s := bs.foldl (fun s b => (s.keepWindow b).releaseBlock b) s
  s.delTeam id

def State.killTeam (s : State) (die id : Nat) (tr : TrapRec) : State :=
  ((s.endTeam id).forgetDealt id).report die (.killed id tr)

/-- Whether an entry reads the element that MATRIX.OPFAULT names (R246): an operand or scale byte with TRAUX 0xFFFF, or a bank with
TRADDR 0. -/
def MatEntry.mayFail (m : MatEntry) (addr aux : Nat) : Bool :=
  (aux == 0xFFFF && m.d.ranges.any fun r => decide (r.1 ≤ addr) && decide (addr < r.1 + r.2)) ||
    (addr == 0 && m.banks.contains aux)

/-- MATRIX.OPFAULT (R246, R110): the team is killed whatever its handler, and relaunched where its record allows. The relaunch's push
waits where the hamper is full. -/
def execMatrixOpfault (entry addr aux : Nat) (s : State) : Host.Outcome State Fault Refusal :=
  .next (match s.entry entry with
    | some e =>
      match e.form, s.team e.team with
      | .mat m, some t =>
        if e.live && e.st == .begun && m.mayFail addr aux then
          let tr : TrapRec := ⟨fMatrixOpfault, e.pc, addr, aux, e.issuer, 0⟩
          let r := { t.crec with retries := t.crec.retries + 1 }
          if t.crec.restart && decide (t.crec.retries < 3) then
            let s := s.endTeam t.id
            let s : State := { s with dies := s.dies.map fun d =>
              { d with dealt := d.dealt.map fun x => if x.2.id = t.id then (x.1, { x.2 with crec := r }) else x } }
            s.pushLater t.die ⟨t.id, r, t.addr, t.ctx, t.launch, t.group, 0, [], true, none⟩
          else s.killTeam t.die t.id tr
        else s
      | _, _ => s
    | none => s)

-- The service ring (R308).

/-- The 64 bytes of a request record. -/
def SvcRec.image (r : SvcRec) : List Byte :=
  leBytes 8 (r.ctx % 2 ^ 16 + r.kid % 2 ^ 12 * 2 ^ 16 + r.svcn % 2 ^ 12 * 2 ^ 28 + (if r.pred then 2 ^ 40 else 0) +
    r.core % 2 ^ 7 * 2 ^ 41 + r.slot % 2 ^ 3 * 2 ^ 48 + r.warp % 2 ^ 6 * 2 ^ 51) ++
  leBytes 8 (r.tag % 2 ^ 32) ++ ((List.range 4).flatMap fun i => leBytes 8 (r.args.getD i 0).toNat) ++ List.replicate 16 0

/-- The ring is full while its oldest record that is not consumed stands where the next one would go. -/
def Die.ringFull (d : Die) : Bool :=
  match d.ring with
  | [] => d.ringCap == 0
  | r :: _ => decide (d.ringCap ≤ d.svcHead - r.pos)

/-- The hardware appends a record to the ring in HBM. -/
def State.ringPut (s : State) (die : Nat) (r : SvcRec) : State :=
  let d := s.die die
  let s := s.writeHome 0 (cellsFrom (d.svcBase + 64 * (d.svcHead % d.ringCap)) r.image)
  s.modDie die fun d => { d with ring := d.ring ++ [{ r with pos := d.svcHead }], svcHead := d.svcHead + 1 }

-- EXIT.

/-- Threads of the effective set stop. -/
def exitWarp (e : WEnv) : State :=
  let b := e.eff.foldl (fun b l => b.modThread l.2 fun th => { th with live := false }) e.b
  -- what a warp that ends still has pending takes effect (R86), an XWIN that its home warp's other threads read among it
  let (b, w) := if warpAlive b e.w then (b, e.w) else settleAll b e.w
  let b := ((b.setWarp (w.advance e.c)).endWarps).freeDq
  (e.s.setBlock b).advancePaths b.id (pathFuel b)

/-- The sequencer thread ends and its decision queue closes. In a handler the block is passed on to its die kernel as FORWARD passes
it: by a request record of service 0 (R109, R111, R308), for which a full ring holds the instruction. -/
def exitSeq (e : SEnv) (j : Option Nat) : Except Stop State :=
  if e.b.hst = .handler then
    if (e.s.die e.b.die).ringFull then waitOn .other e.s
    else
      let (tag, s) := e.s.newId
      let s := s.ringPut e.b.die ⟨e.b.ctx, e.b.kid, 0, false, e.b.core, e.b.slot, 0x3F, tag, [], 0⟩
      .ok ((({ e with s := s, b := { e.b with fwd := some tag } }).put e.q.advance).toKernel e.b.id)
  else
    .ok (e.s.setBlock { e.b with seq := some { e.q.advance with exited := true }, closed := true, exitJ := j })

def execExit (c : Ctl) (s : State) : Host.Outcome State Fault Refusal :=
  issue (.exit c) c (fun e => .ok (exitWarp e)) (fun e => exitSeq e none) s

def execExitJ (c : Ctl) (a : SReg) (s : State) : Host.Outcome State Fault Refusal :=
  issueS (.exitJ c a) c (fun e =>
    let va := (e.q.get a.val).toNat % 2 ^ 54
    if va % 32 ≠ 0 then flt fAlign 0 va else exitSeq e (some va)) s

def execExitK (c : Ctl) (s : State) : Host.Outcome State Fault Refusal :=
  issueS (.exitK c) c (fun e => .ok ((e.put e.q.advance).killTeam e.b.die e.b.team e.b.trap)) s

-- TRET.

/-- Whether a block's trap is that of TRAP or BRK, whose class CALL gives the resumption an acquire at SYS scope (R49). -/
def Block.calledTrap (b : Block) : Bool := decide (fBrk ≤ b.trap.code) && decide (b.trap.code < 0x80)

/-- A stopped block resumes, as TRET lets it. -/
def State.resume (s : State) (b : Block) (skip : Bool) : State :=
  let s := s.setBlock (resumeBlock b skip)
  if b.calledTrap then s.dropLeases b.die else s

def tretOp (skip : Bool) (e : SEnv) : Except Stop State :=
  if e.b.hst ≠ .handler then flt fIllegal 0 else .ok (e.s.resume e.b skip)

def execTret (c : Ctl) (s : State) : Host.Outcome State Fault Refusal := issueS (.tret c) c (tretOp false) s

def execTretSkip (c : Ctl) (s : State) : Host.Outcome State Fault Refusal := issueS (.tretSkip c) c (tretOp true) s

-- WFLD.

def State.wfldValue (s : State) (b : Block) (k : WfldKind) : Nat :=
  let r : Rec := match s.team b.team with
    | some t => t.crec
    | none => recOf []
  match k with
  | .frame => r.frame
  | .prio => r.prio
  | .kid => r.kid
  | .edge => r.edge
  | .retries => r.retries
  | .die => b.die
  | .core => b.core

def execWfld (c : Ctl) (f : WfldKind) (d : Operand) (s : State) : Host.Outcome State Fault Refusal :=
  issue (.wfld c f d) c
    (fun e => .ok (pairResult e (.wfld c f d) d (e.s.wfldValue e.b f)))
    (fun e => .ok (seqResult e d (e.s.wfldValue e.b f))) s

-- The end of a block (R16).

/-- Every store of a block is performed at DIE scope (R111). -/
def State.storesDone (s : State) (blk : Nat) : Bool :=
  s.om.accs.all fun p =>
    match s.agent p.2.aid with
    | some r => agentBlock r.kind != some blk || (match p.2.kind with
      | .load _ _ _ => true
      | .ldas _ _ _ _ _ _ _ => true
      | .clean _ => true
      | .inval _ => true
      | .fence _ => true
      | .arrive _ _ => true
      | _ => s.perfAt true .die p.2)
    | none => true

/-- The join of a block that has ended, as soon as it can be made. -/
def State.endJoin (s : State) (blk : Nat) : State :=
  match s.task.joins.find? fun j => j.blk == blk with
  | none => s
  | some j =>
    let gone (s : State) : State := { s with task := { s.task with joins := s.task.joins.filter fun x => x.blk != blk } }
    if !s.storesDone blk then s
    else
      match s.taskPage j.die j.ctx .st j.addr with
      | (s, .wait) => s
      | (s, .fail _) => (gone s).report j.die (.joinUnderflow j.addr)
      | (s, .ok tl) =>
        match s.joinAt j.die j.ctx j.prio j.addr (pteKeyid tl.pte) (pteRepl tl.pte) (tl.phys j.addr) with
        | (s, true) => gone s
        | (s, false) => s

/-- Whether every party of a block has exited. -/
def Block.over (b : Block) : Bool :=
  b.hst == .run && (match b.seq with
    | some q => q.exited
    | none => true) && b.threads.all fun t => !t.live

def execBlockEnd (blk : Nat) (s : State) : Host.Outcome State Fault Refusal :=
  .next (match s.block blk with
    | some b =>
      if b.over && (s.matEntries blk).all fun p => !p.1.live then
        let prio := s.prioOf b
        let s := s.keepWindow b
        let s := s.releaseBlock b
        let s : State := match b.exitJ with
          | some a => { s with task := { s.task with
              joins := s.task.joins ++ [({ blk := blk, die := b.die, ctx := b.ctx, prio := prio, addr := a } : PendJoin)] } }
          | none => s
        let s := if (s.teamBlocks b.team).isEmpty then (s.delTeam b.team).forgetDealt b.team else s
        s.endJoin blk
      else s
    | none => s.endJoin blk)

-- Placement (R14, R122).

/-- A core as placement sees it: block slots and warp places in use, F of the kernel, its resident blocks, and the blocks of the
team put there so far. -/
structure Room where
  core   : Nat
  open_  : Bool
  slots  : Nat
  kslots : Nat
  limit  : Nat
  places : List Nat
  f      : List Nat
  res    : List (Nat × RV × RV)
  put    : List (Nat × RV × RV)
  deriving DecidableEq, Repr

def placesOf (nw : Nat) : List Nat := (List.range 4).map (nPart nw)

/-- Whether an accepted command that the die has not delivered yet holds its admissions back: the package's verdict on FUSE and
COREOFF is given at the first DELIVER, and the setting changes at the owning die's, so the cluster or core stays as the verdict found
it until then (R100, R312; log entry 76). -/
def State.ctlDue (s : State) (die : Nat) (f : Cmd → Bool) : Bool :=
  s.pkg.msgs.any fun m => decide ((s.die die).delivered < m.seq) && m.verdict == some true && (match m.body with
    | .cmd c => f c
    | _ => false)

def State.fuseDue (s : State) (die cl : Nat) : Bool :=
  s.ctlDue die fun c => match c with
    | .fuse k _ => k == 12 * die + cl
    | _ => false

def State.coreoffDue (s : State) (die core : Nat) : Bool :=
  s.ctlDue die fun c => match c with
    | .coreoff k => k == coreIx die core
    | _ => false

/-- A core with the blocks of some teams taken for gone. -/
def State.room (s : State) (die kid : Nat) (gone : List Nat) (core : Nat) : Room :=
  let g := coreIx die core
  let all := s.coreBlocks g
  let bs := all.filter fun b => !gone.contains b.team
  let mine := bs.filter fun b => b.kid == kid
  { core := core
    open_ := (s.core g).enabled && !s.coreoffDue die core
    slots := bs.length
    kslots := mine.length
    limit := (s.quota g kid).slots
    places := bs.foldl (fun l b => addV l (placesOf b.nWarps)) [0, 0, 0, 0]
    f := s.freeWithout g kid gone
    res := mine.map fun b => (b.nWarps, b.claim, b.hold)
    put := [] }

/-- A core of an empty cluster. -/
def State.emptyRoom (s : State) (die kid core : Nat) : Room :=
  let g := coreIx die core
  { core := core, open_ := (s.core g).enabled, slots := 0, kslots := 0, limit := (s.quota g kid).slots
    places := [0, 0, 0, 0], f := (s.quota g kid).pools, res := [], put := [] }

/-- A block (warps, claim, request) goes to a core, where every condition of R14 holds: one decision takes all of the team's
blocks there together. -/
def Room.takes (r : Room) (b : Nat × RV × RV) : Option Room :=
  let put := r.put ++ [b]
  let ask := put.foldl (fun l x => addV l (poolsOf x.1 x.2.2)) [0, 0, 0, 0, 0, 0, 0, 0]
  let places := addV r.places (placesOf b.1)
  if r.open_ && decide (r.slots < 8) && decide (r.kslots < r.limit) && places.all (fun n => decide (n ≤ 16)) &&
      (overClass b.2.2 b.2.1).isNone && leV ask r.f && bankSafe (subV r.f ask) (r.res ++ put) then
    some { r with slots := r.slots + 1, kslots := r.kslots + 1, places := places, put := put }
  else none

/-- The lowest core that takes a block. -/
def placeOne (b : Nat × RV × RV) : List Room → Option (Nat × List Room)
  | [] => none
  | r :: t =>
    match r.takes b with
    | some r' => some (r.core, r' :: t)
    | none => (placeOne b t).map fun x => (x.1, r :: x.2)

/-- A team's blocks in ascending WF1: the core of each. -/
def placeAll (rooms : List Room) : List (Nat × RV × RV) → Option (List Nat)
  | [] => some []
  | b :: t =>
    match placeOne b rooms with
    | none => none
    | some (c, rooms) => (placeAll rooms t).map fun l => c :: l

def clusterCores (cl : Nat) : List Nat := (List.range 8).map fun i => 8 * cl + i

def State.fusedOk (s : State) (die cl : Nat) (fuse : Bool) : Bool :=
  !fuse || ((s.die die).clusters.getD cl ⟨false, false, false⟩).fused

/-- The placement of a team on a cluster, with some teams taken for gone. -/
def State.fitOn (s : State) (die kid : Nat) (fuse : Bool) (gone : List Nat) (bs : List (Nat × RV × RV)) (cl : Nat) :
    Option (List Nat) :=
  if s.fusedOk die cl fuse && !s.fuseDue die cl then placeAll ((clusterCores cl).map (s.room die kid gone)) bs else none

/-- The lowest cluster that can admitTeam a team, or the one R103 chose. -/
def State.fit (s : State) (die kid : Nat) (fuse : Bool) (only : Option Nat) (bs : List (Nat × RV × RV)) :
    Option (Nat × List Nat) :=
  let cls := match only with
    | some c => [c]
    | none => List.range 12
  cls.findSome? fun cl => (s.fitOn die kid fuse [] bs cl).map fun l => (cl, l)

/-- What a fresh team asks for. -/
def Header.asks (h : Header) : List (Nat × RV × RV) := List.replicate (2 ^ h.f 1) (h.warps, h.claim, h.floor)

/-- Check 9 of R94. -/
def State.couldHold (s : State) (dies : List Nat) (kid : Nat) (h : Header) : Bool :=
  dies.any fun d => (List.range 12).any fun cl =>
    s.fusedOk d cl h.fuse && (placeAll ((clusterCores cl).map (s.emptyRoom d kid)) h.asks).isSome

-- Dealing (R13).

def State.enabledCores (s : State) (die : Nat) : Nat :=
  ((List.range 96).filter fun c => (s.core (coreIx die c)).enabled).length

/-- The eligible dies with an enabled core, each with its count. -/
def State.eligible (s : State) (die ctx : Nat) : List (Nat × Nat) :=
  ((diesOf ((s.ctx ctx).place.getD die 0)).filter fun d => s.seesLive die d).filterMap fun d =>
    let n := s.enabledCores d
    if n = 0 then none else some (d, n)

/-- The die with the smallest (dealt + 1) / enabled; a tie goes to the lower number. -/
def dealTo (dealt : List Nat) : List (Nat × Nat) → Option (Nat × Nat)
  | [] => none
  | x :: t =>
    match dealTo dealt t with
    | none => some x
    | some y =>
      if (dealt.getD y.1 0 + 1) * x.2 < (dealt.getD x.1 0 + 1) * y.2 then some y else some x

/-- The dies that some group of a range goes to. -/
def dealtDies (el : List (Nat × Nat)) : Nat → List Nat → List Nat
  | 0, _ => []
  | n + 1, dealt =>
    match dealTo dealt el with
    | none => []
    | some x => x.1 :: dealtDies el n (dealt.modify x.1 (· + 1))

-- Edges (R17, R97).

/-- The used regions of an edge-table entry, as (base, length). -/
def State.edgeRegions (s : State) (ctx edge : Nat) : List (Nat × Nat) :=
  if edge = 0 then []
  else
    ((List.range 4).map fun i =>
      let a := (s.ctx ctx).etab + 64 * edge + 16 * i
      ((s.word64At a).toNat % 2 ^ 54, (s.word64At (a + 8)).toNat)).filter fun r => r.2 != 0

/-- A line (by its virtual address) meets a region. -/
def inEdges (rs : List (Nat × Nat)) (va : Nat) : Bool :=
  rs.any fun r => decide (va < r.1 + r.2) && decide (r.1 < va + 128)

/-- The copies of the regions on the producers' dies are written back; whether nothing of that still travels. -/
def State.edgeClean (s : State) (q : QRec) : State × Bool :=
  let rs := s.edgeRegions q.ctx q.crec.edge
  let s := s.touchHomes q.ctx ((s.ctx q.ctx).etab + 64 * q.crec.edge) 64
  let mine (c : SwmCopy) : Bool := q.prod.contains c.die && c.ctx == q.ctx && inEdges rs c.va
  let s := (s.om.swm.filter mine).foldl (fun s c => s.writeBack c) s
  (s, s.om.accs.all fun p => !(p.2.inst == 0 && p.2.loc.isNone && q.prod.contains p.2.die && p.2.ctx == q.ctx &&
    inEdges rs p.2.va))

/-- The copies of the regions on the consumer's dies are dropped. -/
def State.edgeInval (s : State) (q : QRec) (dies : List Nat) : State :=
  let rs := s.edgeRegions q.ctx q.crec.edge
  { s with om := { s.om with
      swm := s.om.swm.filter fun c => !(dies.contains c.die && c.ctx == q.ctx && inEdges rs c.va)
      leases := s.om.leases.filter fun c => !(dies.contains c.die && c.ctx == q.ctx && inEdges rs c.va) } }

/-- The dies that will run a consumer have the regions of its edge invalidated, once for a launch on each: `die` deals it. -/
def State.edgeOn (s : State) (die : Nat) (q : QRec) (dies : List Nat) : State :=
  let had := agetD q.launch [] (s.die die).edged
  let new := (dedup dies).filter fun d => !had.contains d
  if q.crec.edge = 0 ∨ new.isEmpty then s
  else (s.edgeInval q new).modDie die fun x => { x with edged := aset q.launch (had ++ new) x.edged }

-- Admission (R15, R121 to R123).

/-- The lanes of home warp `k` of a block of `n` threads (R12). -/
def homeLanes (n k : Nat) : List (Option Nat) :=
  (List.range 32).map fun i => if 32 * k + i < n then some (32 * k + i) else none

/-- A thread as it starts (R61, R138). -/
def freshThread (live : Bool) (workid : Nat) : Thread :=
  ⟨[], [], List.replicate 4 0, 0, 0, rngWrite (BitVec.ofNat 32 workid ^^^ 0x2545F491#32), live⟩

def startWarps (blk die : Nat) (h : Header) : List Nat → State → State × List Warp
  | [], s => (s, [])
  | k :: t, s =>
    let (aid, s) := s.newId
    let s := s.setAgent aid ⟨.warp blk k, die, [], [], []⟩
    let (s, l) := startWarps blk die h t s
    (s, Warp.fresh k aid h.warpEntry (homeLanes (2 ^ h.f 0) k) :: l)

def State.freeSlot (s : State) (g : Nat) : Nat :=
  ((List.range 8).find? fun k => (s.coreBlocks g).all fun b => b.slot != k).getD 0

/-- One block starts on a core: its first identifier, its window filled from the image. -/
def State.startBlock (s : State) (q : QRec) (die core adm : Nat) (h : Header) (trapPa wf1 : Nat) (image : List Byte) :
    Nat × State :=
  let g := coreIx die core
  let (id, s) := s.newId
  let n := 2 ^ h.f 0
  let workid := q.crec.workid + wf1 * n
  let (s, ws) := startWarps id die h (List.range h.warps) s
  let (seq, s) : Option SeqThread × State :=
    if h.seqv then
      let (aid, s) := s.newId
      (some (SeqThread.fresh aid h.seqEntry), s.setAgent aid ⟨.seq id, die, [], [], []⟩)
    else (none, s)
  let hold := h.floor
  let b : Block := {
    id := id, die := die, core := core, slot := s.freeSlot g, team := q.id, ctx := q.ctx, kid := q.crec.kid
    workid := workid, adm := adm, hdr := h, trapPa := trapPa, claim := h.claim, hold := hold, bnd := h.regs
    phys := s.newUnits g h.warps hold
    threads := (List.range n).map fun t => freshThread h.warpv (workid + t)
    homes := List.replicate h.warps ⟨List.replicate 4 (0, 0), false, 0⟩
    warps := ws, seq := seq, dq := [], dqBase := 0, closed := !h.seqv, stack := [], parked := []
    remap := (List.range n).map fun t => if h.warpv then BitVec.ofNat 8 (t / 32 + 32) else 0
    stiles := List.replicate hold.stile ⟨0, 0, []⟩, acc := [], bw := List.replicate 64 0, pair := []
    trap := ⟨0, 0, 0, 0, 0, 0⟩, hst := .run, fwd := none, exitJ := none, bias := List.replicate 12 0
    clm := putBytes [] (cellsFrom 0 image), svc := [], spec := [] }
  (id, s.setBlock b)

def startBlocks (q : QRec) (die adm : Nat) (h : Header) (trapPa : Nat) (image : List Byte) :
    Nat → List Nat → State → State × List Nat
  | _, [], s => (s, [])
  | i, core :: t, s =>
    let (id, s) := s.startBlock q die core adm h trapPa i image
    let (s, l) := startBlocks q die adm h trapPa image (i + 1) t s
    (s, id :: l)

/-- A team is admitted: its blocks start in the same step. -/
def State.admitTeam (s : State) (q : QRec) (die cl : Nat) (cores : List Nat) (h : Header) (trapPa : Nat)
    (image : List Byte) : State :=
  let adm := s.task.adm + 1
  let s := { s with task := { s.task with adm := adm } }
  let (s, ids) := startBlocks q die adm h trapPa image 0 cores s
  (s.setTeam ⟨q.id, q.ctx, die, cl, q.crec, q.addr, q.launch, q.group, ids, adm, false⟩).touch q.ctx die

-- Readmission (R106).

/-- SEQ of the twelve queues that have a bias, on a core. -/
def State.seqs (s : State) (g : Nat) : List Nat := ((s.core g).cq ++ (s.core g).bq).map QueueRec.seq

/-- One saved block comes back on a core. -/
def State.restoreBlock (s : State) (die core : Nat) (b : Block) (seqs : List Nat) : State :=
  let g := coreIx die core
  let bias := (b.bias.zip ((s.seqs g).zip seqs)).map fun x => (x.1 + x.2.1 + 2 ^ 64 - x.2.2) % 2 ^ 64
  s.setBlock { b with
    die := die, core := core, slot := s.freeSlot g, phys := s.newUnits g b.nWarps b.hold, bias := bias }

def restoreBlocks (die : Nat) : List (Nat × Block × List Nat) → State → State
  | [], s => s
  | (core, b, seqs) :: t, s => restoreBlocks die t (s.restoreBlock die core b seqs)

def State.readmit (s : State) (q : QRec) (die cl : Nat) (cores : List Nat) (sv : SavedTeam) : State :=
  let adm := s.task.adm + 1
  let s := { s with task := { s.task with adm := adm, saved := adel sv.area s.task.saved } }
  let s := restoreBlocks die (cores.zip sv.blocks) s
  (s.setTeam { sv.team with
    die := die, cluster := cl, adm := adm, stop := false, crec := { sv.team.crec with prio := q.crec.prio } }).touch q.ctx die

-- The scan (R98, R99).

/-- A team of a range that a lost die held is dealt again (R323): none where no die is eligible, or the hamper has no room. -/
def State.redealOne (s : State) (die : Nat) (t : QRec) : Option State :=
  let counts := agetD t.launch (List.replicate 8 0) (s.die die).launches
  match dealTo counts (s.eligible die t.ctx) with
  | none => none
  | some (d, _) =>
    if !(s.die d).roomFor t.crec.prio then none
    else some (((s.edgeOn die t [d]).pushRec d t).modDie die fun x => { x with
      dealt := x.dealt.map fun y => if y.1 = 8 ∧ y.2.id = t.id then (d, t) else y
      launches := aset t.launch (counts.modify d (· + 1)) x.launches })

/-- Every team that waits to be dealt again. -/
def State.redeal (s : State) (die : Nat) : State :=
  ((s.die die).dealt.filter fun x => x.1 == 8).foldl (fun s x => (s.redealOne die x.2).getD s) s

def State.popHead (s : State) (die p : Nat) : State :=
  s.modDie die fun d => { d with
    hampers := d.hampers.modify p List.tail
    admWait := match d.hampers.getD p [] with
      | [] => d.admWait
      | q :: _ => d.admWait.filter fun k => k != q.id }

/-- The admission of a head is WAITING (R118). -/
def State.admWaits (s : State) (die : Nat) (q : QRec) : State :=
  if (s.die die).admWait.contains q.id then s else s.modDie die fun d => { d with admWait := d.admWait ++ [q.id] }

def State.setHead (s : State) (die p : Nat) (q : QRec) : State :=
  s.modDie die fun d => { d with hampers := d.hampers.modify p fun h => h.set 0 q }

/-- The priority of a team that is dealt: the range's, or what RAISE has given its group (R102). -/
def State.dealPrio (s : State) (q : QRec) (group : Nat) : Nat :=
  maxOf (q.crec.prio :: s.task.raised.filterMap fun x =>
    if x.1 = q.launch ∧ x.2.1 = group then some x.2.2 else none)

/-- One dealing from a range at the head of hamper `p`. The counts of R13 are the launch's, groups dealt again among them. -/
def State.deal (s : State) (die p : Nat) (q : QRec) (h : Header) : Option State :=
  let total := 2 ^ (q.crec.rangel - h.f 1)
  let counts := agetD q.launch (List.replicate 8 0) (s.die die).launches
  match dealTo counts (s.eligible die q.ctx) with
  | none => none
  | some (d, _) =>
    let workid := q.crec.workid + q.pos * 2 ^ (h.f 0 + h.f 1)
    let group := workid / 2 ^ (h.f 0 + h.f 1 + h.f 2)
    let prio := s.dealPrio q group
    if !(s.die d).roomFor prio then none
    else
      let (id, s) := s.newId
      let t : QRec := ⟨id, { q.crec with range := false, rangel := 0, workid := workid, prio := prio }, q.addr, q.ctx,
        q.launch, group, 0, [], true, none⟩
      let s := if q.pos + 1 < total then s.setHead die p { q with pos := q.pos + 1 } else s.popHead die p
      some (((s.edgeOn die t [d]).pushRec d t).modDie die fun x => { x with
        dealt := x.dealt ++ [(d, t)]
        launches := aset q.launch (counts.modify d (· + 1)) x.launches })

/-- A team at the head of hamper `p`, its header checked and its edges clean. -/
def State.tryAdmit (s : State) (die p : Nat) (q : QRec) (h : Header) : State × Bool :=
  match s.fit die q.crec.kid h.fuse q.cluster h.asks with
  | none => (s.admWaits die q, false)
  | some (cl, cores) =>
    match s.taskPage die q.ctx .ld (q.crec.code + 24) with
    | (s, .wait) => (s, false)
    | (s, .fail _) => ((s.popHead die p).report die (.rejected q.addr 0), true)
    | (s, .ok tl) =>
      match s.taskRead die q.ctx h.dataPtr h.dataSize with
      | (s, .wait) => (s, false)
      | (s, .fail) => ((s.popHead die p).report die (.rejected q.addr 0), true)
      | (s, .ok image) =>
        let s := s.popHead die p
        let s := if q.prod.isEmpty then s else s.edgeInval q [die]
        (s.admitTeam q die cl cores h (tl.phys (q.crec.code + 24)) image, true)

/-- Edge cleaning, then dealing or admission. -/
def State.tryChecked (s : State) (die p : Nat) (q : QRec) (h : Header) : State × Bool :=
  match (if q.prod.isEmpty then (s, true) else s.edgeClean q) with
  | (s, false) => (s, false)
  | (s, true) =>
    if q.crec.range then
      let total := min 1024 (2 ^ (q.crec.rangel - h.f 1))
      let s := if q.prod.isEmpty then s
        else s.edgeOn die q (dealtDies (s.eligible die q.ctx) total (List.replicate 8 0))
      let q := { q with prod := [] }
      match (s.setHead die p q).deal die p q h with
      | some s => (s, true)
      | none => (s.setHead die p q, false)
    else s.tryAdmit die p q h

/-- A RESUME record at the head of hamper `p`: the team comes back once the edges of a record that a join pushed are clean (R97, R17).
Where its save area is gone, because another RESUME record has readmitted the team, the spec states nothing: the record is retired and
reported as a bad one (log entry 40). -/
def State.tryResume (s : State) (die p : Nat) (q : QRec) : State × Bool :=
  match s.saved? q.crec.code with
  | none => ((s.popHead die p).report die (.badRecord q.addr), true)
  | some sv =>
    match (if q.prod.isEmpty then (s, true) else s.edgeClean q) with
    | (s, false) => (s, false)
    | (s, true) =>
      let fuse := sv.blocks.any fun x => x.1.hdr.fuse
      match s.fit die sv.team.crec.kid fuse q.cluster (sv.blocks.map fun x => (x.1.nWarps, x.1.claim, x.1.hold)) with
      | none => (s.admWaits die q, false)
      | some (cl, cores) =>
        let s := s.popHead die p
        let s := if q.prod.isEmpty then s else s.edgeInval q [die]
        (s.readmit q die cl cores sv, true)

/-- The head of hamper `p`: the state, and whether the task engine could act on it. -/
def State.tryHead (s : State) (die p : Nat) : State × Bool :=
  match (s.die die).hampers.getD p [] with
  | [] => (s, false)
  | q :: _ =>
    if q.crec.resume then s.tryResume die p q
    else
      match s.taskRead die q.ctx q.crec.code 64 with
      | (s, .wait) => (s, false)
      | (s, .fail) => ((s.popHead die p).report die (.rejected q.addr 0), true)
      | (s, .ok bytes) =>
        let h := headerOf (wordsOf bytes)
        let dies := if q.crec.range then (s.eligible die q.ctx).map Prod.fst else [die]
        let bad := if q.checked then none
          else match h.check with
            | some k => some k
            | none => if s.couldHold dies q.crec.kid h then none else some 9
        match bad with
        | some k => ((s.popHead die p).report die (.rejected q.addr k), true)
        | none =>
          let q := { q with checked := true }
          (s.setHead die p q).tryChecked die p q h

/-- The kernel a head belongs to: a saved team keeps its own. -/
def State.headKid (s : State) (q : QRec) : Nat :=
  if q.crec.resume then
    match s.saved? q.crec.code with
    | some sv => sv.team.crec.kid
    | none => q.crec.kid
  else q.crec.kid

/-- The hampers from priority 15 downward. -/
def State.scanFrom (s : State) (die : Nat) : List Nat → State
  | [] => s
  | p :: t =>
    match s.tryHead die p with
    | (s, true) => s
    | (s, false) => s.scanFrom die t

/-- Whether a core of a die has a free block slot. -/
def State.slotFree (s : State) (die : Nat) : Bool :=
  (List.range 96).any fun c =>
    (s.core (coreIx die c)).enabled && decide ((s.coreBlocks (coreIx die c)).length < 8)

/-- A retry event has come: the admissions of a die that wait are decided again, oldest first (R119). -/
def State.admitDue (s : State) (die : Nat) : State :=
  if !(s.die die).admDue then s
  else
    let s := s.modDie die fun d => { d with admDue := false }
    (s.die die).admWait.foldl (fun (s : State) id =>
      let at_ := (List.range 16).find? fun p => match (s.die die).hampers.getD p [] with
        | [] => false
        | q :: _ => q.id == id
      match at_ with
      | some p => if (s.die die).st == .live && (s.die die).recovered && s.slotFree die then (s.tryHead die p).1 else s
      -- a head that RAISE has moved to another hamper is decided again once it is a head there
      | none => s.modDie die fun d => { d with admWait := d.admWait.filter fun k => k != id }) s

/-- HAMPER_SCAN: pushes that wait go first where there is room, and again once the scan has taken a record out. -/
def execHamperScan (die : DieNo) (s : State) : Host.Outcome State Fault Refusal :=
  let d := s.die die.val
  .next (if d.st != .live then s
    else
      let s := s.pushDue die.val
      if d.recovered && s.slotFree die.val then
        ((s.redeal die.val).scanFrom die.val (List.range 16).reverse).pushDue die.val
      else s)

-- Priorities (R102).

/-- Queued records of a group go to the tail of the hamper of their new priority; those that wait for room, and those a die keeps of
the teams it dealt (R323), take it too. -/
def Die.raiseQueued (d : Die) (launch group prio : Nat) : Die :=
  let mine (q : QRec) : Bool := q.launch == launch && q.group == group && !q.crec.range && decide (q.crec.prio < prio)
  let up (q : QRec) : QRec := if mine q then { q with crec := { q.crec with prio := prio } } else q
  let moved := (d.hampers.flatten.filter mine).map up
  { d with
    hampers := (d.hampers.map fun h => h.filter fun q => !mine q).modify prio fun h => h ++ moved
    pushq := d.pushq.map up
    dealt := d.dealt.map fun x => (x.1, up x.2) }

def State.raiseGroup (s : State) (launch group prio : Nat) : State :=
  let up (t : Team) : Team :=
    if t.launch = launch ∧ t.group = group ∧ t.crec.prio < prio then { t with crec := { t.crec with prio := prio } } else t
  { s with
    task := { s.task with
      teams := s.task.teams.map fun p => (p.1, up p.2)
      raised := s.task.raised ++ [(launch, group, prio)] }
    dies := s.dies.map fun d => d.raiseQueued launch group prio }

/-- RAISE names a team that is resident on the die or queued in one of its hampers. -/
def execPrioRaise (die : DieNo) (ctx team prio : Nat) (s : State) : Host.Outcome State Fault Refusal :=
  let res := (s.task.teams.map Prod.snd).findSome? fun t =>
    if t.id = team ∧ t.ctx = ctx ∧ t.die = die.val then some (t.launch, t.group, t.crec.prio) else none
  let queued := (s.die die.val).hampers.flatten.findSome? fun q =>
    if q.id = team ∧ q.ctx = ctx ∧ !q.crec.range then some (q.launch, q.group, q.crec.prio) else none
  .next (match res <|> queued with
    | some (l, g, p) => if p < prio ∧ prio < 16 then s.raiseGroup l g prio else s
    | none => s)

-- Pre-emption (R103 to R105).

/-- The size of a block's part of a save area (R104). -/
def Block.saveSize (b : Block) : Nat :=
  4096 + 1024 * b.nWarps + 1024 * b.hold.reg * b.nWarps + 4096 * b.hold.clm + (8192 + 128) * b.hold.acc

def State.saveSize (s : State) (team : Nat) : Nat := ((s.teamBlocks team).map Block.saveSize).sum

/-- Bytes of a context's save pool that are taken, or promised to teams told to stop. -/
def State.saveUsed (s : State) (ctx : Nat) : Nat :=
  ((s.task.saved.filter fun p => p.2.team.ctx == ctx).map fun p => p.2.size).sum +
  ((s.task.teams.filter fun p => p.2.ctx == ctx && p.2.stop).map fun p => s.saveSize p.1).sum

/-- The lowest place in a context's save pool for an area of `size` bytes beside those in use. -/
def State.savePlace (s : State) (ctx size : Nat) : Option Nat :=
  let c := s.ctx ctx
  let used := s.task.saved.filterMap fun p => if p.2.team.ctx = ctx then some (p.1, p.2.size) else none
  let ok (a : Nat) : Bool := decide (a + size ≤ c.saveBase + c.savePool) &&
    used.all fun u => decide (a + size ≤ u.1) || decide (u.1 + u.2 ≤ a)
  match (c.saveBase :: used.map fun u => u.1 + u.2).filter ok with
  | [] => none
  | l => some (minOf l)

/-- Whether the save pool of a team's context has room for it. -/
def State.saveRoom (s : State) (t : Team) : Bool :=
  decide (s.saveUsed t.ctx + s.saveSize t.id ≤ (s.ctx t.ctx).savePool) && (s.savePlace t.ctx (s.saveSize t.id)).isSome

def State.stopTeam (s : State) (t : Team) : State := s.setTeam { t with stop := true }

/-- Stop teams, each where its context's save pool has room. -/
def State.stopAll (s : State) : List Team → State
  | [] => s
  | t :: r =>
    if s.saveRoom t then (s.stopTeam t).stopAll r else s.stopAll r

/-- What a team asks for: FUSE, and its blocks. -/
abbrev Asks := Bool × List (Nat × RV × RV)

/-- What a head asks for, where it is a team; none while its header's translation is awaited. -/
def State.headAsks (s : State) (die : Nat) (q : QRec) : State × Option (Option Asks) :=
  if q.crec.range then (s, some none)
  else if q.crec.resume then
    (s, some ((s.saved? q.crec.code).map fun sv =>
      (sv.blocks.any fun x => x.1.hdr.fuse, sv.blocks.map fun x => (x.1.nWarps, x.1.claim, x.1.hold))))
  else
    match s.taskRead die q.ctx q.crec.code 64 with
    | (s, .wait) => (s, none)
    | (s, .fail) => (s, some none)
    | (s, .ok bytes) =>
      let h := headerOf (wordsOf bytes)
      (s, some (if h.check.isNone then some (h.fuse, h.asks) else none))

/-- What a head asks for, where it is a team that cannot be admitted. -/
def State.headStuck (s : State) (die : Nat) (q : QRec) : State × Option (Option Asks) :=
  match s.headAsks die q with
  | (s, some (some a)) => (s, some (if (s.fit die (s.headKid q) a.1 q.cluster a.2).isNone then some a else none))
  | r => r

/-- Lowest priority first, then most recently admitted first. -/
def victimBefore (a b : Team) : Bool :=
  decide (a.crec.prio < b.crec.prio) || (a.crec.prio == b.crec.prio && decide (b.adm ≤ a.adm))

def insertVictim (t : Team) : List Team → List Team
  | [] => [t]
  | x :: r => if victimBefore t x then t :: x :: r else x :: insertVictim t r

/-- The shortest list of a cluster's candidates after which the head fits. -/
def State.victimsGo (s : State) (die kid : Nat) (ask : Bool × List (Nat × RV × RV)) (cl : Nat) (taken : List Team) :
    List Team → Option (List Team)
  | [] => if (s.fitOn die kid ask.1 (taken.map Team.id) ask.2 cl).isSome then some taken else none
  | t :: r =>
    if (s.fitOn die kid ask.1 (taken.map Team.id) ask.2 cl).isSome then some taken
    else s.victimsGo die kid ask cl (taken ++ [t]) r

def State.victims (s : State) (die kid prio : Nat) (ask : Bool × List (Nat × RV × RV)) (cl : Nat) : Option (List Team) :=
  let ts := (s.task.teams.map Prod.snd).filter fun t => t.die == die && t.cluster == cl && decide (t.crec.prio < prio)
  s.victimsGo die kid ask cl [] (ts.foldr insertVictim [])

/-- The list to prefer: lowest highest priority, fewest teams, lowest cluster. -/
def betterList (a b : Nat × List Team) : Bool :=
  let p (x : Nat × List Team) : Nat := maxOf (x.2.map fun t => t.crec.prio)
  decide (p a < p b) || (p a == p b && (decide (a.2.length < b.2.length) ||
    (a.2.length == b.2.length && decide (a.1 ≤ b.1))))

def bestList : List (Nat × List Team) → Option (Nat × List Team)
  | [] => none
  | x :: t =>
    match bestList t with
    | none => some x
    | some y => if betterList x y then some x else some y

/-- The victims of the highest non-empty hamper's head are told to stop. -/
def State.choosePreempt (s : State) (die : Nat) : State :=
  match (List.range 16).reverse.find? fun p => !((s.die die).hampers.getD p []).isEmpty with
  | none => s
  | some p =>
    match (s.die die).hampers.getD p [] with
    | [] => s
    | q :: _ =>
      match s.headStuck die q with
      | (s, some (some ask)) =>
        let ls := (List.range 12).filterMap fun cl => (s.victims die (s.headKid q) q.crec.prio ask cl).map fun l => (cl, l)
        (match bestList ls with
         | none => s
         | some (cl, l) =>
           let t := s.stopAll l
           if t.task.teams.any fun x => x.2.die == die && x.2.stop then t.setHead die p { q with cluster := some cl } else s)
      | (s, _) => s

/-- Whether a stopped team can be saved: every block at its boundary, matrix, copy and base-die entries drained, no result and
no store to a window still due. -/
def State.mayStash (s : State) (t : Team) : Bool :=
  let bs := s.teamBlocks t.id
  bs.all (fun b => s.blockQuiet b && (s.outstanding b.id).isEmpty &&
    s.om.accs.all fun p => !(p.2.loc == some b.id && p.2.st == .buffer)) &&
  s.om.entries.all fun e => !(e.live && e.team == t.id) || (match e.form with
    | .net _ => true
    | _ => false)

/-- A wait that is reissued on resumption ends; the wait for a reply, at a join, or of a revocation made goes on, and a stamped wait
keeps that its checks are passed (R223). -/
def Wait.saved : Wait → Wait
  | .reply => .reply
  | .join => .join
  | .revoke h => .revoke h
  | .stamp t n k => .stamp t n k
  | .sts => .sts
  | _ => .none

/-- A sequencer thread as it is saved: a YIELD, the thread's own or the one a handler interrupted, completes with S[d] = 1 (R111). -/
def SeqThread.stash (q : SeqThread) : SeqThread :=
  let q : SeqThread := match q.wait with
    | .yield d => q.advance.put d 1
    | w => { q with wait := w.saved }
  match q.held with
  | .yield d => { q.put d 1 with held := .none, hidden := q.hidden.map fun a => a + 12 }
  | w => { q with held := w.saved }

def Block.stash (b : Block) : Block :=
  { b with
    warps := b.warps.map fun w => { w with wait := w.wait.saved }
    seq := b.seq.map SeqThread.stash }

/-- The bytes of a block's part of a save area (R104): the address of its header and its window; those whose layout R104 does not
give are free values. -/
def Block.saveImage (b : Block) (code fresh : Nat) : List Byte :=
  let free (i n : Nat) : List Byte := (List.range n).map fun k => Config.saveByte (Nat.pair fresh (i + k))
  let regs := 1024 * b.nWarps + 1024 * b.hold.reg * b.nWarps
  leBytes 8 code ++ free 8 (4088 + regs) ++ bytesAt b.clm 0 b.winSize ++ free (4096 + regs + b.winSize) ((8192 + 128) * b.hold.acc)

/-- The block parts of a save area are written from `a` on, under the context's key (R337). -/
def State.writeSaved (s : State) (ctx code : Nat) : Nat → List Block → State
  | _, [] => s
  | a, b :: t =>
    let (ix, s) := s.freeIx
    (s.writeHome (s.ctx ctx).keyid (cellsFrom a (b.saveImage code ix))).writeSaved ctx code (a + b.saveSize) t

/-- A stop that finds no room in the save pool ends; a YIELD then issues again (R104). -/
def State.unstop (s : State) (t : Team) : State :=
  let go (b : Block) : Block := { b with seq := b.seq.map fun q =>
    { q with wait := if q.wait.isYield then .none else q.wait, held := if q.held.isYield then .none else q.held } }
  ((s.teamBlocks t.id).foldl (fun (s : State) b => s.setBlock (go b)) s).setTeam { t with stop := false }

/-- Steps 3 to 5 of R103: only the push of step 5 waits where the hamper is full. -/
def State.stashTeam (s : State) (t : Team) : State :=
  let size := s.saveSize t.id
  match (if s.saveUsed t.ctx ≤ (s.ctx t.ctx).savePool then s.savePlace t.ctx size else none) with
  | none => s.unstop t
  | some area =>
    let s := (s.teamBlocks t.id).foldl (fun (s : State) b => s.rollbackAll b.id) s
    let bs := s.teamBlocks t.id
    let prio := max t.crec.prio (s.groupPrio t.launch t.group)
    let sv : SavedTeam := ⟨area, size, { t with stop := false }, bs.map fun b => (b.stash, s.seqs b.gcore)⟩
    let s := s.writeSaved t.ctx t.crec.code area bs
    let s := (bs.foldl State.releaseBlock s).delTeam t.id
    let s := { s with task := { s.task with saved := aset area sv s.task.saved } }
    s.pushLater t.die ⟨t.id, { t.crec with code := area, resume := true, prio := prio }, t.addr, t.ctx, t.launch,
      t.group, 0, [], true, none⟩

/-- PREEMPT: a stopped team that has drained is saved; where none is stopping, victims are chosen. -/
def execPreempt (die : DieNo) (s : State) : Host.Outcome State Fault Refusal :=
  let stopping := (s.task.teams.map Prod.snd).filter fun t => t.die == die.val && t.stop
  .next (if (s.die die.val).st != .live then s
    else if stopping.isEmpty then s.choosePreempt die.val
    else match stopping.find? s.mayStash with
      | some t => s.stashTeam t
      | none => s)

/-- Whether some of these hampers has a head that is a team and cannot be admitted; none while a header's translation is awaited. -/
def State.someStuck (s : State) (die : Nat) : List Nat → State × Option Bool
  | [] => (s, some false)
  | p :: t =>
    match (s.die die).hampers.getD p [] with
    | [] => s.someStuck die t
    | q :: _ =>
      match s.headStuck die q with
      | (s, none) => (s, none)
      | (s, some (some _)) => (s, some true)
      | (s, some none) => s.someStuck die t

/-- YIELD: a team that yields stops here, and PREEMPT saves it; S[d] reads 1 when it resumes. Where the save pool has no room it is not
saved (R104), and S[d] is 0. -/
def execYield (c : Ctl) (d : SReg) (s : State) : Host.Outcome State Fault Refusal :=
  issueS (.yieldTeam c d) c (fun e =>
    let done (s : State) (v : Nat) : State := ({ e with s := s }).put (e.q.advance.put d.val (BitVec.ofNat 64 v))
    if e.b.hst = .handler then .ok (done e.s 0)
    else
      match e.s.team e.b.team with
      | none => .ok (done e.s 0)
      | some t =>
        match e.s.someStuck e.b.die ((List.range 16).filter fun p => decide (t.crec.prio ≤ p)) with
        | (s, none) => waitOn .other s
        | (s, some true) =>
          if s.saveRoom t then waitOn (.yield d.val) (s.stopTeam t) else .ok (done s 0)
        | (s, some false) => .ok (done s 0)) s

end Sys2Proof.Machine
end

