-- ==== Sys2Proof/Machine/System.lean ====
section
/-!
DEFINITION. The system instructions (R326 to R328): SVC, SVCP and their replies (R308), TRAP, BRK, TDMASK; and words that are no
instruction (R82, R90).
-/
namespace Sys2Proof.Machine

-- Words that fault ILLEGAL.

/-- The guard and hint of a word whose other fields may be anything. -/
def ctlOfWord (w : Word96) : Option Ctl :=
  (Guard.ofBits (w.extractLsb' 13 4) (w.getLsbD 12)).map fun g => ⟨g, w.extractLsb' 1 5, w.getLsbD 0⟩

/-- A word that check 1 of R82 turns away, on whichever engine issues it; the sequencer issues nothing before a fence or an acquire
load of it is performed (R132). -/
def illegalWord (w : Word96) (s : State) : Host.Outcome State Fault Refusal :=
  match s.issuer with
  | none => .fault .noIssuer
  | some x =>
    if !s.canIssue x then .next s
    else match x with
      | .warp b wp =>
        let e := warpEnv s b wp ((ctlOfWord w).getD ⟨.always, 0, false⟩)
        let lanes := if (ctlOfWord w).isSome then lanesMask e.eff else 0
        .next (warpOutcome e (fltLanes fIllegal 0 0 lanes))
      | .seq b q => .next (seqOutcome ⟨s, b, q, ⟨.always, 0, false⟩⟩
          (if seqFenced s q then waitOn .other s else flt fIllegal 0))

def execReservedOpcodeIssue (w : Word96) (s : State) : Host.Outcome State Fault Refusal := illegalWord w s

-- SVC and SVCP.

/-- The call of an agent that has been made at an address and not answered yet, or whose answer it has not taken. -/
def Block.svcAt (b : Block) (aid : Nat) (pc : Addr54) : Option SvcWait :=
  b.svc.find? fun x => x.aid == aid && x.pc == pc

def Block.dropSvc (b : Block) (tag : Nat) : Block := { b with svc := b.svc.filter fun x => x.tag != tag }

/-- What SVC and SVCP do on either engine, once their operands are read: the agent, its warp number (63 for the sequencer), PC,
service, arguments and result cells. -/
structure Call where
  aid  : Nat
  warp : Nat
  pc   : Addr54
  svcn : Nat
  pred : Bool
  args : List Word64
  d    : List Cell
  deriving DecidableEq, Repr

/-- How a call stands. -/
inductive CallStep where
  | wait (r : Wait) (s : State)
  | forward (s : State)
  | begun (tag : Nat) (s : State)
  | ok (v : Word64) (s : State)
  | denied (s : State)
  deriving DecidableEq, Repr

/-- A request record (R308) is appended once every access of the agent is performed at SYS scope and the ring has room. -/
def State.callStep (s : State) (b : Block) (k : Call) : CallStep :=
  match b.svcAt k.aid k.pc with
  | some x =>
    (match x.reply with
     | none => .wait .reply s
     | some (v, no) =>
       let s := (s.setBlock (b.dropSvc x.tag)).dropLeases b.die
       if no then .denied s else .ok v s)
  | none =>
    if !s.agentSettled true .sys k.aid then .wait .other s
    else if (s.die b.die).ringFull then .wait .other s
    else
      let s := s.dropLeases b.die
      let (tag, s) := s.newId
      let r : SvcRec := ⟨b.ctx, b.kid, k.svcn, k.pred, b.core, b.slot, k.warp, tag, k.args, 0⟩
      let s := s.ringPut b.die r
      if k.svcn = 0 ∧ b.hst = .handler then .forward (s.setBlock { b with fwd := some tag })
      else .begun tag (s.setBlock { b with svc := b.svc ++ [⟨k.aid, tag, k.svcn, k.d, k.pc, none⟩] })

def callW (e : WEnv) (pred : Bool) (d a : Operand) (n : BitVec 19) : Call where
  aid := e.w.aid
  warp := e.w.k
  pc := e.w.pc
  svcn := n.toNat
  pred := pred
  args := (List.range 4).map fun i => regV e e.first a (2 * i + 1) ++ regV e e.first a (2 * i)
  d := (pairCells e d 0).map Prod.fst

def callS (e : SEnv) (pred : Bool) (d a : Operand) (n : BitVec 19) : Call where
  aid := e.q.aid
  warp := 0x3F
  pc := e.q.pc
  svcn := n.toNat
  pred := pred
  args := (List.range 4).map fun i => e.q.get (regS a + i)
  d := [.s (regS d)]

/-- The environment again, its block as the state holds it. -/
def WEnv.reload (e : WEnv) (s : State) : WEnv := { e with s := s, b := (s.block e.b.id).getD e.b }
def SEnv.reload (e : SEnv) (s : State) : SEnv := { e with s := s, b := (s.block e.b.id).getD e.b }

/-- A warp's call; `begun` says what happens once the record stands in the ring. -/
def callWarp (i : Instr) (e : WEnv) (pred : Bool) (d a : Operand) (n : BitVec 19)
    (begun : WEnv → Nat → Except Stop State) : Except Stop State :=
  if e.eff.isEmpty then .ok (retire e.s e i)
  else
    match e.s.callStep e.b (callW e pred d a n) with
    | .wait r s => waitOn r s
    | .forward s => .ok (s.toKernel e.b.id)
    | .begun tag s => begun (e.reload s) tag
    | .ok v s => let e := e.reload s; .ok (retireNow e i (pairCells e d v))
    | .denied s => .ok (warpOutcome (e.reload s) (flt fSvcDenied n.toNat))

def callSeq (e : SEnv) (pred : Bool) (d a : Operand) (n : BitVec 19) (begun : SEnv → Nat → Except Stop State) :
    Except Stop State :=
  match e.s.callStep e.b (callS e pred d a n) with
  | .wait r s => waitOn r s
  | .forward s => .ok (s.toKernel e.b.id)
  | .begun tag s => begun (e.reload s) tag
  | .ok v s => let e := e.reload s; .ok (e.put (e.q.advance.put (regS d) v))
  | .denied s => .ok (seqOutcome (e.reload s) (flt fSvcDenied n.toNat))

def execSvc (c : Ctl) (d a : Operand) (n : BitVec 19) (s : State) : Host.Outcome State Fault Refusal :=
  issue (.svc c d a n) c
    (fun e => callWarp (.svc c d a n) e false d a n fun e _ => waitOn .reply e.s)
    (fun e => callSeq e false d a n fun e _ => waitOn .reply e.s) s

/-- The agent runs on with its prediction (R327): what a roll-back needs is kept. -/
def execSvcp (c : Ctl) (d a : Operand) (n : BitVec 19) (s : State) : Host.Outcome State Fault Refusal :=
  issue (.svcp c d a n) c
    (fun e => callWarp (.svcp c d a n) e true d a n fun e tag =>
      let ts := (liveLanes e.b e.w).map Prod.snd
      let x : Spec := {
        aid := e.w.aid, tag := tag, pred := regV e e.first d 1 ++ regV e e.first d 0, warp := some e.w
        threads := ts.map fun t => (t, e.b.thread t)
        homes := (dedup (ts.map fun t => t / 32)).map fun h => (h, e.b.home (32 * h))
        seq := none, undo := [], stores := [] }
      .ok (retireNow { e with b := { e.b with spec := e.b.spec ++ [x] } } (.svcp c d a n) []))
    (fun e => callSeq e true d a n fun e tag =>
      let x : Spec := {
        aid := e.q.aid, tag := tag, pred := e.q.get (regS d), warp := none, threads := [], homes := []
        seq := some e.q, undo := [], stores := [] }
      .ok (({ e with b := { e.b with spec := e.b.spec ++ [x] } }).put e.q.advance)) s

-- Replies.

/-- A block, resident or saved, changed in place. -/
def State.modKnown (s : State) (p : Block → Bool) (f : Block → Block) : State :=
  { s with task := { s.task with
      blocks := s.task.blocks.map fun x => if p x.2 then (x.1, f x.2) else x
      saved := s.task.saved.map fun x => (x.1, { x.2 with
        blocks := x.2.blocks.map fun y => if p y.1 then (f y.1, y.2) else y }) } }

/-- A reply reaches the call its TAG names; where there is none it is discarded. -/
def State.reply (s : State) (die tag : Nat) (value : Word64) (denied : Bool) : State :=
  let s := s.modDie die fun d => { d with
    port := { d.port with reply := value }
    ring := d.ring.filter fun r => r.tag != tag }
  s.modKnown (fun b => b.die == die) fun b =>
    { b with svc := b.svc.map fun x =>
        if x.tag = tag ∧ x.reply.isNone then { x with reply := some (value, denied) } else x }

/-- Whether a job of the die kernel answers a tag. -/
def jobTag : Job → Nat
  | .map tag _ => tag
  | .unmap tag _ _ _ _ _ => tag

/-- Whether a block, resident or saved, has a property. -/
def State.anyBlock (s : State) (p : Block → Bool) : Bool :=
  s.task.blocks.any (fun x => p x.2) || s.task.saved.any fun x => x.2.blocks.any fun y => p y.1

/-- REPLY_WRITE: the answer to a call that is none of the services MAP and UNMAP, which SVC_MAP and SVC_UNMAP carry out: DENIED, as
R308 states for every other service number, and for service 0 outside a handler. It consumes the record; where the caller is no more,
the reply is discarded. The record that passes a stopped block on is SVC_FORWARD's. -/
def execReplyWrite (die : DieNo) (tag : Nat) (value : Word64) (denied : Bool) (s : State) :
    Host.Outcome State Fault Refusal :=
  let d := s.die die.val
  let known := d.ring.any fun r => r.tag == tag && (r.svcn == 0 || decide (3 ≤ r.svcn))
  let served := d.ring.any fun r => r.tag == tag && (r.svcn == 1 || r.svcn == 2)
  let passes := s.anyBlock fun b => b.fwd == some tag
  let waits := s.anyBlock fun b => b.svc.any fun x => x.tag == tag
  .next (if d.st != .live || served || passes || !(waits || known) || d.jobs.any fun j => jobTag j == tag then s
    else s.reply die.val tag value (denied || known))

/-- A match (R328): the buffered stores take ISSUE, D is written in every lane. -/
def State.specMatch (s : State) (b : Block) (x : Spec) (w : SvcWait) (v : Word64) : State :=
  let b := { b.dropSvc w.tag with spec := b.spec.filter fun y => y.aid != x.aid }
  let cells : List (Cell × Nat) := (w.d.zip (List.range w.d.length)).map fun p =>
    match p.1 with
    | .s _ => (p.1, v.toNat)
    | _ => (p.1, if p.2 % 2 = 0 then (v.setWidth 32).toNat else (v.extractLsb' 32 32).toNat)
  let b := b.putCells cells
  let b := { b with
    warps := b.warps.map fun y =>
      if y.aid = x.aid then
        let y := y.supersede w.d
        { y with wait := if y.wait = .reply then .none else y.wait }
      else y
    seq := b.seq.map fun q => if q.aid = x.aid ∧ q.wait = .reply then { q with wait := .none } else q }
  ((s.setBlock b).addAccesses x.stores).dropLeases b.die

/-- SPECULATION_RESOLVE: the reply that has come commits the speculation, or rolls it back; the SVCP then takes the reply. -/
def execSpeculationResolve (tag : Nat) (s : State) : Host.Outcome State Fault Refusal :=
  let hit := (s.task.blocks.map Prod.snd).findSome? fun b =>
    match b.spec.find? (fun x => x.tag == tag), b.svc.find? (fun x => x.tag == tag) with
    | some x, some w => w.reply.map fun r => (b, x, w, r)
    | _, _ => none
  .next (match hit with
    | none => s
    | some (b, x, w, (v, no)) =>
      if !no && v == x.pred then s.specMatch b x w v
      else s.rollbackOne b.id x)

-- TRAP, BRK: class CALL (R49). The fault is taken once every access of the agent is performed at SYS scope.

/-- The fault of a call, after the FENCE.SYS of its class, which drops the lease copies of its die as it completes (R40); `outcome`
says what a fault of the agent leads to. -/
def callFault (s : State) (die aid code aux : Nat) (outcome : State → Except Stop State → State) : Except Stop State :=
  if s.agentSettled true .sys aid then .ok (outcome (s.dropLeases die) (flt code aux)) else waitOn .other s

def callFaultW (e : WEnv) (code aux : Nat) : Except Stop State :=
  callFault e.s e.b.die e.w.aid code aux fun s r => warpOutcome { e with s := s } r

def callFaultS (e : SEnv) (code aux : Nat) : Except Stop State :=
  callFault e.s e.b.die e.q.aid code aux fun s r => seqOutcome { e with s := s } r

def execTrap (c : Ctl) (code : BitVec 6) (a : Operand) (s : State) : Host.Outcome State Fault Refusal :=
  issue (.trap c code a) c
    (fun e => if e.eff.isEmpty then .ok (retire e.s e (.trap c code a))
      else callFaultW e (0x40 + code.toNat) (firstV e a))
    (fun e => callFaultS e (0x40 + code.toNat) (srcSU e a).toNat) s

def brkAux : Option (BitVec 19) → Nat
  | some v => v.toNat
  | none => 0

def execBrk (c : Ctl) (v : Option (BitVec 19)) (s : State) : Host.Outcome State Fault Refusal :=
  issue (.brk c v) c
    (fun e => if e.eff.isEmpty then .ok (retire e.s e (.brk c v))
      else callFaultW e fBrk (brkAux v))
    (fun e => callFaultS e fBrk (brkAux v)) s

-- TDMASK.

def State.tdmask (s : State) (b : Block) : TdmaskKind → Nat
  | .touched => (s.ctx b.ctx).touched % 256
  | .place => (s.ctx b.ctx).place.getD b.die 0 % 256
  | .live => (((List.range 8).filter (s.seesLive b.die)).map fun d => 2 ^ d).sum

def execTdmask (c : Ctl) (k : TdmaskKind) (d : Operand) (s : State) : Host.Outcome State Fault Refusal :=
  issue (.tdmask c k d) c
    (fun e => .ok (retireNow e (.tdmask c k d) (e.eff.map fun l => (.v l.2 (regOf e.b l.2 d), e.s.tdmask e.b k))))
    (fun e => .ok (seqResult e d (e.s.tdmask e.b k))) s

end Sys2Proof.Machine
end

