-- ==== Sys2Proof/Machine/OrderEvents.lean ====
section
/-!
DEFINITION. The steps of the ordering machine as events: one row each (R35, R47, R202, R204, R213, R215, R324). An event whose
condition does not hold changes nothing.
-/
namespace Sys2Proof.Machine

def execDrain (acc : Nat) (s : State) : Host.Outcome State Fault Refusal := .next (s.drain acc)

def execCommit (acc : Nat) (s : State) : Host.Outcome State Fault Refusal := .next (s.commitAcc acc)

def execTransit (acc : Nat) (s : State) : Host.Outcome State Fault Refusal := .next (s.transitAcc acc)

def execServe (line : Nat) (s : State) : Host.Outcome State Fault Refusal := .next (s.serveLine line)

def execLoadEvent (acc : Nat) (s : State) : Host.Outcome State Fault Refusal := .next (s.loadAcc acc)

def execExpire (die line : Nat) (s : State) : Host.Outcome State Fault Refusal := .next (s.dropLease die line)

def execBaseop (stack : Nat) (s : State) : Host.Outcome State Fault Refusal := .next (s.baseOp stack)

def execRequestRefusedRetry (acc : Nat) (s : State) : Host.Outcome State Fault Refusal := .next (s.retryAcc acc)

/-- A slice evicts a windrow line: its partial is on its way to the home. -/
def execWindrowEvict (die : DieNo) (slice line : Nat) (s : State) : Host.Outcome State Fault Refusal :=
  let hit (w : Windrow) : Bool := w.die == die.val && w.slice == slice && w.line == line
  .next (match s.om.windrows.find? hit with
    | some w => { s with om := { s.om with
        windrows := s.om.windrows.filter fun x => !hit x
        partials := s.om.partials ++ [w.partial] } }
    | none => s)

def dropFirst {α : Type} (p : α → Bool) : List α → List α
  | [] => []
  | x :: t => if p x then t else x :: dropFirst p t

/-- A partial arrives: it is combined into the home value of its line. -/
def execPartialCombine (die : DieNo) (line : Nat) (s : State) : Host.Outcome State Fault Refusal :=
  let hit (p : Partial) : Bool := p.die == die.val && p.line == line
  .next (match s.om.partials.find? hit, s.range line with
    | some p, some r =>
      ({ s with om := { s.om with partials := dropFirst hit s.om.partials } } : State).combineHome r p
    | _, _ => s)

def execWriteback (die : DieNo) (line : Nat) (s : State) : Host.Outcome State Fault Refusal :=
  .next (match s.swmCopy die.val line with
    | some c => s.writeBack c
    | none => s)

def execSwmCopyDrop (die : DieNo) (line : Nat) (s : State) : Host.Outcome State Fault Refusal :=
  .next (match s.swmCopy die.val line with
    | some c => if c.bytes.all fun p => !p.2.2 then s.dropSwm die.val line else s
    | none => s)

/-- A walk ends (R202): a leaf fills the die's cache; a failure is kept for each requester, and is not cached. A page that a
shoot-down holds meanwhile is walked again after its COMMIT. -/
def execTranslationWalkEnd (die : DieNo) (ctx page : Nat) (s : State) : Host.Outcome State Fault Refusal :=
  let d := s.die die.val
  .next (match d.walks.find? fun w => w.ctx == ctx && w.page == page with
    | none => s
    | some w =>
      let s := s.modDie die.val fun x => { x with walks := x.walks.filter fun y => !(y.ctx == ctx && y.page == page) }
      if d.held.any fun h => h.covers ctx (page * 2 ^ 16) then s
      else
        let (_, s) := s.freeIx
        match s.walkTables ctx (page * 2 ^ 16) with
        | .ok pte va size pa => s.modDie die.val fun x => { x with tlb := tlbAdd 16384 x.tlb ⟨ctx, va, size, pte, pa⟩ }
        | .fail aux => s.modDie die.val fun x => { x with fails := x.fails ++ w.who.map fun a => ⟨a, ctx, page, aux⟩ })

def execReplicaWrite (acc : Nat) (s : State) : Host.Outcome State Fault Refusal := .next (s.replicaAcc acc)

end Sys2Proof.Machine
end

