-- ==== Sys2Proof/Machine/Channel.lean ====
section
/-!
DEFINITION. The message channel (R309 to R315, R318 to R325): the message order, the package owner, commands with their checks and
the journal, shoot-downs, the region switch (R220), re-homing, the loss of a die and its return.
-/
namespace Sys2Proof.Machine

-- Messages in memory (R309, R310).

/-- The number of a message's TYPE, and of a command's KIND. -/
def msgType : MsgBody → Nat
  | .cmd _ => 1
  | .inv _ _ _ _ => 2
  | .ack _ _ => 3
  | .commit _ _ _ _ => 4
  | .diedown _ => 5
  | .fenced _ => 6
  | .dieup _ => 7
  | .elect => 8
  | .other ty _ => ty % 256

def cmdKind : Cmd → Nat
  | .quota _ _ _ _ => 1
  | .fuse _ _ => 2
  | .place _ _ => 3
  | .map _ _ _ _ => 4
  | .unmap _ _ _ => 5
  | .region _ _ _ _ => 6
  | .commdecl _ _ _ _ _ => 7
  | .keyload _ _ => 8
  | .barset _ _ _ => 9
  | .handover _ => 10
  | .coreoff _ => 11
  | .coreon _ => 12
  | .rehome _ => 13
  | .checkpoint _ => 14

/-- Bits of a body that R310 gives no field, and the arguments of a command, whose places R312 does not give: free values, `i` the
byte of the body. -/
def openBits (seq i n : Nat) : Nat := leNat ((List.range 8).map fun k => Config.argByte seq (i + k)) % 2 ^ n

/-- The three fields that INV and COMMIT share, and the rest of the body. -/
def rangeBody (seq ctx gen va pages : Nat) : List Byte :=
  leBytes 8 (ctx % 2 ^ 16 + gen % 2 ^ 32 * 2 ^ 16 + openBits seq 0 16 * 2 ^ 48) ++
  leBytes 8 (openBits seq 8 16 + va / 2 ^ 16 % 2 ^ 38 * 2 ^ 16 + openBits seq 10 10 * 2 ^ 54) ++
  leBytes 8 (pages % 2 ^ 32 + openBits seq 16 32 * 2 ^ 32) ++ (List.range 24).map fun k => Config.argByte seq (24 + k)

/-- A body that starts with a word of `n` stated bits. -/
def wordBody (seq n v : Nat) : List Byte :=
  leBytes 8 (v % 2 ^ n + openBits seq 0 (64 - n) * 2 ^ n) ++ (List.range 40).map fun k => Config.argByte seq (8 + k)

/-- The 48 bytes of a body. -/
def msgBytes (seq : Nat) : MsgBody → List Byte
  | .cmd c => wordBody seq 8 (cmdKind c)
  | .inv ctx gen va pages => rangeBody seq ctx gen va pages
  | .ack init gen => leBytes 8 (init % 8 + openBits seq 0 13 * 2 ^ 3 + gen % 2 ^ 32 * 2 ^ 16 + openBits seq 2 16 * 2 ^ 48) ++
      (List.range 40).map fun k => Config.argByte seq (8 + k)
  | .commit ctx gen va pages => rangeBody seq ctx gen va pages
  | .diedown d => wordBody seq 3 d
  | .fenced d => wordBody seq 3 d
  | .dieup d => wordBody seq 3 d
  | .elect => wordBody seq 0 0
  | .other _ body => (List.range 48).map fun k => body.getD k 0

/-- The 64 bytes of a message. -/
def Msg.image (m : Msg) : List Byte :=
  leBytes 8 m.seq ++ leBytes 8 (msgType m.body + m.sender % 8 * 2 ^ 8 + (if m.hw then 2 ^ 11 else 0)) ++ msgBytes m.seq m.body

/-- The port writes a message into entry `i` of a ring of `cap` entries at `base`. -/
def State.putMsg (s : State) (base cap i : Nat) (m : Msg) : State :=
  s.writeHome 0 (cellsFrom (base + 64 * (i % cap)) m.image)

-- The order.

/-- APPEND (R48). -/
def State.append (s : State) (die : Nat) (hw : Bool) (body : MsgBody) : State :=
  { s with pkg := { s.pkg with
      msgs := s.pkg.msgs ++ [⟨s.pkg.nextSeq, die, hw, body, none, []⟩]
      nextSeq := s.pkg.nextSeq + 1 } }

/-- The owner at a position (R311). -/
def ownerAt (msgs : List Msg) (pos : Nat) : Option Nat :=
  msgs.foldl (fun o m =>
    if pos < m.seq then o
    else match m.body with
      | .elect => if o.isNone then some m.sender else o
      | .cmd (.handover d) => if m.verdict = some true then some d else o
      | .diedown d => if o = some d then none else o
      | .fenced d => if o = some d then none else o
      | _ => o) none

/-- The quotas of a core at a position: what its commands up to there have loaded. -/
def quotasAt (msgs : List Msg) (pos core : Nat) : Assoc Quota :=
  msgs.foldl (fun q m =>
    if pos < m.seq || m.verdict != some true then q
    else match m.body with
      | .cmd (.quota c kid slots lim) => if c = core then aset kid ⟨slots, lim⟩ q else q
      | _ => q) []

-- Commands (R312).

/-- A core by its number on the package: die, and core on the die. -/
def coreDie (core : Nat) : Nat := core / 96

def quotaSum (q : Assoc Quota) (f : Quota → Nat) : Nat := (q.map fun p => f p.2).sum

/-- The sums over kernels stay within the totals of R112 and 8 block slots. -/
def quotasOk (q : Assoc Quota) : Bool :=
  decide (quotaSum q Quota.slots ≤ 8) && decide (quotaSum q (fun x => x.lim.reg) ≤ 128) &&
  decide (quotaSum q (fun x => x.lim.clm) ≤ 128) && decide (quotaSum q (fun x => x.lim.acc) ≤ 64) &&
  decide (quotaSum q (fun x => x.lim.mslot) ≤ 8) && decide (quotaSum q (fun x => x.lim.stile) ≤ 64)

/-- The pairs of R214. -/
def commPairOk (op : RedOp) (f : CommFmt) : Bool := f != .bf16 || op == .add

/-- Whether the command of a message is accepted at its position. -/
def State.cmdOk (s : State) (m : Msg) (c : Cmd) : Bool :=
  let pos := m.seq - 1
  let own := ownerAt s.pkg.msgs pos == some m.sender
  let live (d : Nat) : Bool := lifeAt s.pkg.msgs pos d == some true
  !m.hw && (match c with
    | .quota core kid slots lim =>
      own && decide (core < 768) && quotasOk (aset kid ⟨slots, lim⟩ (quotasAt s.pkg.msgs pos core))
    | .fuse cl _ =>
      own && decide (cl < 96) && s.task.blocks.all fun p => !(p.2.die == cl / 12 && p.2.cluster == cl % 12)
    | .place _ mask => own && decide (mask < 256)
    | .map _ _ _ _ => true
    | .unmap _ _ _ => true
    | .region _ _ _ _ => own
    | .commdecl _ _ _ op f => own && commPairOk op f
    | .keyload die ix => m.sender == die && decide (ix < 4096)
    | .barset bar _ n => own && decide (bar < 64) && decide (1 ≤ n) && decide (n ≤ 4096) && !s.barrierWaited bar
    | .handover d => own && live d
    | .coreoff core =>
      own && decide (core < 768) && (quotasAt s.pkg.msgs pos core).all (fun p => p.2.slots == 0) &&
        (s.coreBlocks core).isEmpty
    | .coreon core => own && decide (core < 768)
    | .rehome d => own && lifeAt s.pkg.msgs pos d == some false
    | .checkpoint _ => own)

def pagesFrom (va pages : Nat) : List Nat := (List.range pages).map fun i => va + i * 2 ^ 16

/-- The physical address that the tables give a mapped page of a context that is not FAR. -/
def State.pagePhys (s : State) (ctx va : Nat) : Option Nat :=
  match s.walkTables ctx va with
  | .ok p va0 _ pa => if pteFar p then none else some (pa + (va - va0))
  | .fail _ => none

/-- The pages of memory that a command declares commutative. R214 does not say whether a range follows the context's pages or their
memory: the model's choice is the memory that the pages map when the command is judged, the same for every die (log entry 73). -/
def State.declared (s : State) : Cmd → List Nat
  | .commdecl ctx va len _ _ => (pagesFrom va ((len + 65535) / 65536)).filterMap (s.pagePhys ctx)
  | _ => []

/-- A commutative range is declared on a die page by page. -/
def State.declareComm (s : State) (die ctx : Nat) (pas : List Nat) (op : RedOp) (f : CommFmt) : State :=
  s.modDie die fun d => { d with
    comm := (d.comm.filter fun r => !pas.contains r.base) ++ pas.map fun pa => ⟨ctx, pa, 65536, op, f⟩ }

/-- What an accepted command does to package state, once: the sideband tree takes the barrier's N. -/
def State.applyPkg (s : State) : Cmd → State
  | .barset bar _ n => s.setBarrier bar { s.barrier bar with n := n }
  | _ => s

/-- What an accepted command does to the controls of one die; `pas` is what it declares commutative. -/
def State.applyControl (s : State) (die : Nat) (pas : List Nat) : Cmd → State
  | .quota core kid slots lim =>
    if coreDie core = die then s.modCore core fun c => { c with quotas := aset kid ⟨slots, lim⟩ c.quotas } else s
  | .commdecl ctx _ _ op f => s.declareComm die ctx pas op f
  | .barset bar ctx _ => s.modDie die fun d => { d with bars := aset bar ctx d.bars }
  | .fuse cl fused =>
    if cl / 12 = die then
      s.modDie die fun d => { d with clusters := d.clusters.modify (cl % 12) fun c => { c with fused := fused } }
    else s
  | .place ctx mask => s.modCtx ctx fun c => { c with place := c.place.set die mask }
  | .coreoff core => if coreDie core = die then s.modCore core fun c => { c with enabled := false } else s
  | .coreon core => if coreDie core = die then s.modCore core fun c => { c with enabled := true } else s
  | _ => s

/-- New translations of a range are held on a die, and its caches drop what covers it (R318). A running entry of the die keeps what the
die's cache held: an engine translates ahead of its work (log entry 74). -/
def State.holdRange (s : State) (die seq init ctx va len gen : Nat) : State :=
  let kept (t : Tlb) : Bool :=
    !((ctx == 0xFFFF || t.ctx == ctx) && decide (t.va < va + len) && decide (va < t.va + t.size))
  let old := (s.die die).tlb.filter fun t => !kept t
  let running := s.om.entries.filter fun e => e.die == die && e.live && e.st == .begun && !e.isMat
  let h : HeldRange := ⟨seq, init, ctx, va, len, gen, false,
    running.flatMap fun e => (old.filter fun t => t.ctx == e.ctx).map fun t => (e.id, t)⟩
  let s := s.modDie die fun d => { d with tlb := d.tlb.filter kept, held := d.held ++ [h] }
  let clear (p : Nat × Core) : Nat × Core :=
    if coreDie p.1 = die then (p.1, { p.2 with tlb := p.2.tlb.filter kept }) else p
  { s with task := { s.task with cores := s.task.cores.map clear } }

/-- An accepted command at a die's DELIVER. KEYLOAD loads the key that the Phidy root has passed on for the entry; a quota's change is a
retry event (R119). -/
def State.applyCmd (s : State) (die : Nat) (m : Msg) (c : Cmd) : State :=
  match c with
  | .keyload d ix =>
    if d = die then
      match aget ix (s.die die).portKeys with
      | some k => s.modDie die fun x => { x with
          net := { x.net with keys := aset ix k x.net.keys }, portKeys := adel ix x.portKeys }
      | none => s
    else s
  | .quota core _ _ _ =>
    let s := s.applyControl die m.pas c
    if coreDie core = die then s.retry core else s
  | .region ctx va pages _ => s.holdRange die m.seq 8 ctx va (pages * 2 ^ 16) 0
  | .rehome _ => s.holdRange die m.seq 8 0xFFFF 0 (2 ^ 54) 0
  | c => s.applyControl die m.pas c

-- The journal (R313).

def isCheckpoint (m : Msg) : Bool :=
  match m.body with
  | .cmd (.checkpoint _) => true
  | _ => false

/-- The entries older than the newest CHECKPOINT; none without one. -/
def beforeCheckpoint (l : List Msg) : Option Nat :=
  if l.any isCheckpoint then some (l.length - 1 - (l.reverse.takeWhile fun m => !isCheckpoint m).length) else none

/-- An accepted command is written into a die's journal. -/
def Die.journalWrite (d : Die) (m : Msg) : Die × Bool :=
  let cap := 2 ^ d.jn
  let full := decide (cap ≤ d.journal.length)
  let l := (if full then d.journal.drop 1 else d.journal) ++ [m]
  let cp := isCheckpoint m
  let gap := !cp && (d.port.jgap || (full && !l.any isCheckpoint))
  let low := !cp && (match beforeCheckpoint l with
    | some k => decide (cap - l.length + k < 2 ^ (d.jn - 2))
    | none => d.port.jlow)
  ({ d with journal := l, port := { d.port with jhead := m.seq, jgap := gap, jlow := low } }, low && !d.port.jlow)

/-- The entry is written verbatim into the die's ring of 2^N entries. -/
def State.journalPut (s : State) (die : Nat) (m : Msg) : State :=
  let d := s.die die
  (s.putMsg d.jBase (2 ^ d.jn) d.jcount m).modDie die fun x => { x with jcount := x.jcount + 1 }

def State.journal (s : State) (die : Nat) (m : Msg) : State :=
  let s := s.journalPut die m
  let (d, low) := (s.die die).journalWrite m
  let s := s.setDie die d
  if low then s.report die .jlow else s

-- Recovery (R314, R315).

/-- A lost die leaves every placement mask of a die (R312). -/
def State.unplace (s : State) (die d : Nat) : State :=
  { s with task := { s.task with ctxs := s.task.ctxs.map fun p =>
    let m := p.2.place.getD die 0
    (p.1, if m.testBit d then { p.2 with place := p.2.place.set die (m - 2 ^ d) } else p.2) } }

/-- A die's kernel applies every accepted command up to a position, takes lost dies out of its masks where they were lost, and knows
the owner there. -/
def State.recover (s : State) (die : Nat) : State :=
  let x := s.die die
  let s := s.pkg.msgs.foldl (fun s m =>
    if x.delivered < m.seq then s
    else match m.body with
      | .cmd c => if m.verdict = some true then s.applyControl die m.pas c else s
      | .diedown d => s.unplace die d
      | .fenced d => s.unplace die d
      | _ => s) s
  s.modDie die fun d => { d with
    recovered := true, owner := ownerAt s.pkg.msgs x.delivered }

/-- The kernel of a live die runs again after a crash or an update: it recovers from its journal, unless JGAP says that the journal
alone does not rebuild the controls (R314). -/
def State.restartKernel (s : State) (die : Nat) : State :=
  let d := s.die die
  if d.st == .live && d.recovered && !d.port.jgap then s.recover die else s

/-- Whether a die still runs since its DIEUP at a position: it has not been lost or started again after it. -/
def State.upSince (s : State) (d pos : Nat) : Bool :=
  (s.die d).st == .live && s.pkg.msgs.all fun m => decide (m.seq ≤ pos) || (match m.body with
    | .diedown x => x != d
    | .fenced x => x != d
    | .dieup x => x != d
    | _ => true)

/-- A die that has come back writes the entries it receives, and behind them the commands it has accepted since, into its ring in SEQ
order (R315): the bounds and bits of R313 follow each entry. -/
def State.takeJournal (s : State) (d : Nat) (l : List Msg) : State :=
  let own := (s.die d).journal
  let s := s.modDie d fun y => { y with
    journal := [], jcount := 0, port := { y.port with jgap := false, jlow := false } }
  (l ++ own).foldl (fun (s : State) m => s.journal d m) s

/-- The owner's die, or the lowest live die but `d`, sends its journal to a die that has come back and still runs. -/
def State.sendJournal (s : State) (die d pos : Nat) : State :=
  let sender := match ownerAt s.pkg.msgs pos with
    | some o => some o
    | none => (List.range 8).find? fun x => x != d && lifeAt s.pkg.msgs pos x == some true
  if sender ≠ some die ∨ die = d ∨ !s.upSince d pos then s
  else
    let x := s.die die
    if x.port.jgap then s
    else
      let l := x.journal.filter fun m => decide (m.seq < pos)
      let l := l.drop ((beforeCheckpoint l).getD 0)
      let s := s.takeJournal d l
      if (s.die d).recovered then s else s.recover d

-- The loss of a die (R320 to R323).

/-- Where a block stands at an asynchronous trap (R322). -/
def Block.boundary (b : Block) : Addr54 :=
  match b.seq with
  | some q => if q.exited then (b.running.head?.map Warp.pc).getD q.pc else q.pc
  | none => (b.running.head?.map Warp.pc).getD 0

/-- DIE.LOST, one trap per block (R322). -/
def State.dieLostTrap (s : State) (b : Block) (d : Nat) : State :=
  takeTrap s b.id ⟨fDieLost, b.boundary, 0, d, 0x3E, 0⟩

/-- What a live die does at its DELIVER of a DIEDOWN or FENCED (R311, R318, R321, R323). -/
def State.noteLoss (s : State) (die d : Nat) : State :=
  let hit := (s.task.blocks.map Prod.snd).filter fun b => b.die == die && (s.ctx b.ctx).touched.testBit d
  let s := hit.foldl (fun s b => s.dieLostTrap b d) s
  let s := s.unplace die d
  let lost := (s.die die).dealt.filter fun x => x.1 == d
  let s := s.modDie die fun x => { x with
    owner := if x.owner = some d then none else x.owner
    shoots := x.shoots.map fun k => { k with acked := if k.acked.contains d then k.acked else k.acked ++ [d] }
    dealt := x.dealt.filterMap fun y =>
      if y.1 ≠ d then some y
      else if y.2.crec.restart && decide (y.2.crec.retries < 3) then
        some (8, { y.2 with crec := { y.2.crec with retries := y.2.crec.retries + 1 } })
      else none }
  let s := lost.foldl (fun (s : State) y =>
    if y.2.crec.restart && decide (y.2.crec.retries < 3) then s
    else s.report die (.lostTeam y.2.crec.workid d)) s
  s.redeal die

/-- What the home has served goes through to the replicas, for the accesses that `p` picks, in the order of serving. -/
def State.flushReplicas (s : State) (p : Access → Bool) : State := (s.replicaIds p).foldl (fun (s : State) id => s.replicaAcc id) s

/-- The replica of an access of a lost die, written in the step that performs it at its home. -/
def State.replicaNow (s : State) (a : Access) (cells : List Host.Cell) : State :=
  if a.repl then
    let (ix, s) := s.freeIx
    if Config.lostWrite ix then s.writeHome a.keyid (cells.map fun c => (c.1 ^^^ 2 ^ 39, c.2)) else s
  else s

/-- The writes that a lost die sent: what a live home has served goes through to its replica, the home's work; what had not been served
is performed or not, each as a free value says (R320). -/
def State.lostWrites (s : State) (d : Nat) : State :=
  let homeLive (s : State) (a : Access) : Bool := (s.die (s.homeOf a)).st == .live && s.homeOf a != d
  let lines := s.om.accs.filterMap fun p =>
    if p.2.die = d ∧ p.2.loc.isNone ∧ homeLive s p.2 then some p.2.line else none
  let s := s.flushReplicas fun a => lines.contains a.line && homeLive s a
  -- what its own homes have served waits for its replica's die, as `State.lostRequests` says
  let mine := s.om.accs.filter fun p => p.2.die == d && p.2.loc.isNone && !(p.2.isServed && s.homeOf p.2 == d)
  mine.foldl (fun (s : State) p =>
    let sent := p.2.isWrite && (match p.2.st with
      | .transit _ => true
      | .queued => true
      | .baseq => true
      | _ => false)
    let (ix, s) := s.freeIx
    let s := if sent && homeLive s p.2 && Config.lostWrite ix then
        let (s, _, cells) := s.homeWrite p.2
        s.replicaNow p.2 cells
      else s
    s.delAccess p.1) s

/-- Requests of other dies that were on their way to a lost home go nowhere; what an atomic among them would have returned is a free
value. What the lost home had served and sent on to a replica reaches it or not, each as a free value says. -/
def State.lostRequests (s : State) (d : Nat) : State :=
  let s := (s.replicaIds fun a => s.homeOf a == d).foldl (fun (s : State) id =>
    let (ix, s) := s.freeIx
    if Config.lostWrite ix then s.replicaAcc id else s.performed id) s
  let toD := s.om.accs.filter fun p => p.2.die != d && p.2.loc.isNone && s.homeOf p.2 == d && (match p.2.st with
    | .transit _ => true
    | .queued => true
    | .baseq => true
    | _ => false)
  toD.foldl (fun (s : State) p => s.refusedAcc p.1 p.2) s

/-- The HBM of a die loses its contents, and its two base dies their key tables (R336). -/
def PMem.forget (m : PMem) (d : Nat) : PMem :=
  let gone (a : Nat) : Bool := (m.region a == .hbm || m.region a == .staging) && m.homeDie a == d
  { m with
    bytes := m.bytes.filter fun c => !gone c.1
    stamps := m.stamps.filter fun p => !gone (128 * p.1)
    keys := m.keys.filter fun p => !gone (128 * p.1)
    keytab := m.keytab.filter fun p => p.1 / 512 != d
    old := m.old.filter fun o => !gone (128 * o.line)
    inb := m.inb.filter fun o => !gone (128 * o.line) }

/-- Blocks, records and hampers of a die are gone (R323), with every access and entry of it. -/
def State.loseDie (s : State) (d : Nat) (st : DieSt) (fenced : Bool) : State :=
  let s := (s.lostWrites d).lostRequests d
  let onD (id : Nat) : Bool := match s.team id with
    | some t => t.die == d
    | none => false
  { s with
    task := { s.task with
      blocks := s.task.blocks.filter fun p => p.2.die != d
      saved := s.task.saved.filter fun p => p.2.team.die != d
      joins := s.task.joins.filter fun j => j.die != d
      teams := s.task.teams.filter fun p => !onD p.1
      cores := s.task.cores.filter fun p => coreDie p.1 != d }
    om := { s.om with
      entries := s.om.entries.filter fun e => e.die != d
      leases := s.om.leases.filter fun l => l.die != d
      accs := s.om.accs.filter fun p => p.2.die != d
      agents := s.om.agents.filter fun p => p.2.die != d
      swm := s.om.swm.filter fun c => c.die != d
      windrows := s.om.windrows.filter fun w => w.die != d
      partials := s.om.partials.filter fun w => w.die != d }
    dies := s.dies.set d { Die.reset with st := st, fenced := fenced } }

/-- A die enters reset (R320, R338): its caches, then DIEDOWN, then everything it holds. A die in reset stays there. -/
def State.enterReset (s : State) (d : Nat) : State :=
  let x := s.die d
  match x.st with
  | .inReset => s
  | _ =>
    let s := s.append d true (.diedown d)
    let s := s.loseDie d .lost false
    { s with phys := s.phys.forget d }

/-- The control block of a gleaning log as it is created (R218): its counts 0, the ring's base and the logarithm of its size. -/
def State.makeGlean (s : State) (g : Nat × Nat × Nat) : State :=
  let s := (List.range 8).foldl (fun (s : State) i => s.putWord64 (g.1 + 8 * i) 0) s
  s.putWord64 (g.1 + 32) (BitVec.ofNat 64 (g.2.1 / 2 ^ 12 % 2 ^ 42 * 2 ^ 12 + g.2.2 % 2 ^ 6 * 2 ^ 58))

/-- A die leaves reset (R333, R315): its monitor places its rings, it appends DIEUP and delivers from there on. N of the journal is
from 16 to 24 (R313). -/
def State.startDie (s : State) (d : Nat) (fresh : Bool) (p : Places) : State :=
  let seq := s.pkg.nextSeq
  let s := s.append d true (.dieup d)
  let s := match p.glean with
    | some g => s.makeGlean g
    | none => s
  s.setDie d { Die.reset with
    st := .live, measured := true, recovered := fresh, delivered := seq
    svcBase := p.svcBase, ringCap := p.svcCap, dlvBase := p.dlvBase, dlvCap := p.dlvCap
    jBase := p.jBase, jn := max 16 (min 24 p.jLog)
    glean := match p.glean with
      | some g => { Die.reset.glean with made := true, ctl := g.1 }
      | none => Die.reset.glean }

-- DELIVER.

/-- The next message of the order for a die. -/
def State.nextMsg (s : State) (die : Nat) : Option Msg :=
  s.pkg.msgs.find? fun m => decide ((s.die die).delivered < m.seq)

/-- A command is judged once. -/
def State.judge (s : State) (m : Msg) : State × Msg :=
  match m.body with
  | .cmd c =>
    if m.verdict.isSome then (s, m)
    else
      let ok := s.cmdOk m c
      let m' := { m with verdict := some ok, pas := if ok then s.declared c else [] }
      let s : State := { s with pkg := { s.pkg with msgs := s.pkg.msgs.map fun x => if x.seq = m.seq then m' else x } }
      (if ok then s.applyPkg c else s, m')
  | _ => (s, m)

/-- The commands before a position that no die has delivered yet are judged before the one there, in SEQ order (R312, log entry 44). -/
def State.judgeBefore (s : State) (seq : Nat) : State :=
  (s.pkg.msgs.filter fun m => decide (m.seq < seq)).foldl (fun (s : State) m => (s.judge m).1) s

/-- What a delivered message does on a die. -/
def State.onMessage (s : State) (die : Nat) (m : Msg) : State :=
  match m.body with
  | .cmd c =>
    if m.verdict = some true then
      let s := s.applyCmd die m c
      let s := s.journal die m
      let s := match c with
        | .handover d => s.modDie die fun x => { x with owner := some d }
        | _ => s
      if isCheckpoint m && !(s.die die).recovered then s.recover die else s
    else if m.sender = die then s.modDie die fun x => { x with port := { x.port with rej := m.seq } }
    else s
  | .inv ctx gen va pages =>
    let s := s.holdRange die m.seq m.sender ctx va (pages * 2 ^ 16) gen
    if m.sender = die then
      let live := (List.range 8).filter fun d => lifeAt s.pkg.msgs m.seq d == some true
      s.modDie die fun x => { x with shoots := x.shoots ++ [⟨gen, s.now, live, []⟩] }
    else s
  | .ack init gen =>
    if init = die then
      s.modDie die fun x => { x with shoots := x.shoots.map fun k =>
        if k.gen = gen ∧ !k.acked.contains m.sender then { k with acked := k.acked ++ [m.sender] } else k }
    else s
  | .commit _ gen _ _ =>
    s.modDie die fun x => { x with
      held := x.held.filter fun h => !(h.init == m.sender && h.gen == gen)
      shoots := if m.sender = die then x.shoots.filter fun k => k.gen != gen else x.shoots }
  -- a die is lost where it was live before (R321)
  | .diedown d => if d = die || lifeAt s.pkg.msgs (m.seq - 1) d != some true then s else s.noteLoss die d
  | .fenced d => if d = die || lifeAt s.pkg.msgs (m.seq - 1) d != some true then s else s.noteLoss die d
  | .dieup d => s.sendJournal die d m.seq
  | .elect => s.modDie die fun x => { x with owner := if x.owner.isNone then some m.sender else x.owner }
  | .other _ _ => s

/-- What stands in a die's delivery ring, not consumed yet: where the ring is full, a free value says how much of it the die's software
has consumed by now. -/
def State.unread (s : State) (die : Nat) : State × List Msg :=
  let d := s.die die
  if d.delivery.length < d.dlvCap then (s, d.delivery)
  else
    let (ix, s) := s.freeIx
    (s, d.delivery.drop (Config.consumed ix))

/-- A die takes DELIVER of the next message (R310): its port writes it into the delivery ring. A full ring stalls the port. -/
def State.deliverNext (s : State) (die : Nat) : State :=
  match s.nextMsg die with
  | none => s
  | some m =>
    match s.unread die with
    | (s, l) =>
      let d := s.die die
      if d.dlvCap ≤ l.length then s
      else
        let (s, m) := (s.judgeBefore m.seq).judge m
        let s := (s.putMsg d.dlvBase d.dlvCap d.dtail m).modDie die fun d => { d with
          delivered := m.seq, delivery := l ++ [m], dtail := d.dtail + 1, port := { d.port with dhead := d.port.dhead + 1 } }
        s.onMessage die m

/-- A die delivers its next message where it is one of a kind. -/
def State.deliverIf (s : State) (die : DieNo) (p : MsgBody → Bool) : State :=
  if (s.die die.val).st != .live then s
  else match s.nextMsg die.val with
    | some m => if p m.body then s.deliverNext die.val else s
    | none => s

def cmdIs (p : Cmd → Bool) : MsgBody → Bool
  | .cmd c => p c
  | _ => false

-- Shoot-down (R318 to R320).

/-- An access of a die through a translation of a held range. -/
def HeldRange.touches (h : HeldRange) (die : Nat) (a : Access) : Bool :=
  a.die == die && a.loc.isNone && (h.ctx == 0xFFFF || h.ctx == a.ctx) && decide (h.va ≤ a.va % 2 ^ 54) &&
    decide (a.va % 2 ^ 54 < h.va + h.len)

/-- One unit of an entry's work, or one packet, attempted. -/
def State.tryUnit (s : State) (e : Entry) (u : Nat) : Moved := if e.isNet then s.sendPkt e.id u else s.unitWork e (e.unitAt u)

def Moved.isOk : Moved → Bool
  | .ok _ => true
  | _ => false

def Moved.isWait : Moved → Bool
  | .wait _ => true
  | _ => false

/-- The state with no translation kept on a die. -/
def State.dropKept (s : State) (die : Nat) : State :=
  s.modDie die fun d => { d with held := d.held.map fun h => { h with kept := [] } }

/-- An entry has drained for its translated pages: no unit that is left can move through a kept translation alone. -/
def State.entryDrained (s : State) (die : Nat) (e : Entry) : Bool :=
  !e.live || (List.range (if e.isNet then e.pkts.length else e.total)).all fun u =>
    (if e.isNet then ((e.pkts[u]?).map Pkt.sent).getD true else e.done.contains u) ||
      !((s.tryUnit e u).isOk && ((s.dropKept die).tryUnit e u).isWait)

/-- Every access already translated is performed at PKG scope: those of the ordering machine, stores that an SVCP holds back, and the
work of engine entries on their translated pages (R319). -/
def State.heldDrained (s : State) (die : Nat) (h : HeldRange) : Bool :=
  (s.om.accs.all fun p => !h.touches die p.2 || s.perfAt true .pkg p.2) &&
  (s.task.blocks.all fun p => p.2.die != die || p.2.spec.all fun x => x.stores.all fun a => !h.touches die a) &&
  s.om.entries.all fun e => !(h.kept.any fun k => k.1 == e.id) || s.entryDrained die e

def HeldRange.copies (h : HeldRange) (die : Nat) (c : SwmCopy) : Bool :=
  c.die == die && (h.ctx == 0xFFFF || h.ctx == c.ctx) && decide (h.va ≤ c.va) && decide (c.va < h.va + h.len)

/-- The SWM copies of a held range are cleaned to their homes. -/
def State.cleanHeld (s : State) (die : Nat) (h : HeldRange) : State :=
  (s.om.swm.filter (h.copies die)).foldl (fun s c => s.writeBack c) s

/-- The hardware of a die appends its ACK (R319). A range that a REGION or REHOME holds (initiator 8) is no shoot-down and has none. -/
def State.acknowledge (s : State) (die init gen : Nat) : State :=
  match (s.die die).held.find? fun h => h.init == init && decide (init < 8) && h.gen == gen && !h.acked with
  | none => s
  | some h =>
    let s := s.cleanHeld die h
    if !s.heldDrained die h then s
    else
      (s.modDie die fun d => { d with held := d.held.map fun x =>
        if x.init = init ∧ x.gen = gen then { x with acked := true, kept := [] } else x }).append die true (.ack init gen)

/-- Every die that was live at the INV has answered. -/
def ShootDown.complete (k : ShootDown) : Bool := k.live.all k.acked.contains

-- Page-table entries.

/-- Where the leaf of a page stands: its address, and the leaf; none where the page is not mapped. A FAR leaf counts. -/
def State.leafOf (s : State) (ctx va : Nat) : Option (Nat × Word64) :=
  let l1 := (s.ctx ctx).l1
  let e1 := s.pteAt (l1 + 8 * (va / 2 ^ 42 % 4096))
  if 2 ^ 54 ≤ va ∨ !pteV e1 ∨ pteMalformed 1 e1 then none
  else
    let a2 := pteAddr e1 + 8 * (va / 2 ^ 29 % 8192)
    let e2 := s.pteAt a2
    if !pteV e2 || pteMalformed 2 e2 then none
    else if pteLeaf e2 then some (a2, e2)
    else
      let a3 := pteAddr e2 + 8 * (va / 2 ^ 16 % 8192)
      let e3 := s.pteAt a3
      if !pteV e3 || pteMalformed 3 e3 then none else some (a3, e3)

/-- A table that the kernel of a context takes for new entries: 64 KiB of invalid ones (R329, log entry 47). -/
def State.newTable (s : State) (ctx : Nat) : Nat × State :=
  let t := (s.ctx ctx).tabNext
  let s : State := { s with phys := { s.phys with
    bytes := s.phys.bytes.filter fun c => !(decide (t ≤ c.1) && decide (c.1 < t + 65536))
    keys := s.phys.keys.filter fun k => !(decide (t ≤ 128 * k.1) && decide (128 * k.1 < t + 65536)) } }
  (t, s.modCtx ctx fun c => { c with tabNext := t + 65536 })

/-- The table that an entry at `a` of a level names, made where there is none; none where the entry is a leaf or malformed. -/
def State.tableUnder (s : State) (ctx level a : Nat) : Option (Nat × State) :=
  let e := s.pteAt a
  if !pteV e then
    let (t, s) := s.newTable ctx
    some (t, s.putWord64 a (BitVec.ofNat 64 t ||| 1#64))
  else if pteLeaf e || pteMalformed level e then none
  else some (pteAddr e, s)

/-- Where the level-3 entry of a page stands, with the tables on the way made where there are none. No table reaches a page at 2^54 or
above. -/
def State.slotFor (s : State) (ctx va : Nat) : Option (Nat × State) :=
  if 2 ^ 54 ≤ va then none
  else match s.tableUnder ctx 1 ((s.ctx ctx).l1 + 8 * (va / 2 ^ 42 % 4096)) with
  | none => none
  | some (t2, s) =>
    match s.tableUnder ctx 2 (t2 + 8 * (va / 2 ^ 29 % 8192)) with
    | none => none
    | some (t3, s) => some (t3 + 8 * (va / 2 ^ 16 % 8192), s)

/-- Where the level-3 entry of a page stands, whether or not it is valid; none without a level-3 table. -/
def State.slotOf (s : State) (ctx va : Nat) : Option Nat :=
  let e1 := s.pteAt ((s.ctx ctx).l1 + 8 * (va / 2 ^ 42 % 4096))
  if !pteV e1 || pteMalformed 1 e1 then none
  else
    let e2 := s.pteAt (pteAddr e1 + 8 * (va / 2 ^ 29 % 8192))
    if !pteV e2 || pteMalformed 2 e2 || pteLeaf e2 then none
    else some (pteAddr e2 + 8 * (va / 2 ^ 16 % 8192))

/-- Every leaf of a context, with its address and the size of its page. -/
def State.leaves (s : State) (ctx : Nat) : List (Nat × Word64 × Nat) :=
  let l1 := (s.ctx ctx).l1
  (List.range 4096).flatMap fun i =>
    let e1 := s.pteAt (l1 + 8 * i)
    if !pteV e1 || pteMalformed 1 e1 then []
    else (List.range 8192).flatMap fun j =>
      let a2 := pteAddr e1 + 8 * j
      let e2 := s.pteAt a2
      if !pteV e2 || pteMalformed 2 e2 then []
      else if pteLeaf e2 then [(a2, e2, 2 ^ 29)]
      else (List.range 8192).filterMap fun k =>
        let a3 := pteAddr e2 + 8 * k
        let e3 := s.pteAt a3
        if !pteV e3 || pteMalformed 3 e3 then none else some (a3, e3, 2 ^ 16)

/-- Whether an address lies in a page that some context maps with one of these KINDs. -/
def State.mappedAs (s : State) (kinds : List Nat) (pa : Nat) : Bool :=
  s.task.ctxs.any fun c => (s.leaves c.1).any fun x =>
    !pteFar x.2.1 && kinds.contains (pteKind x.2.1) && decide (pteAddr x.2.1 ≤ pa) && decide (pa < pteAddr x.2.1 + x.2.2)

/-- A line outside a STAMPED page has stamp 0 (R226), so a stamped segment placed there later starts with stamp 0 (R8): run where
page-table entries have changed. A replica's line counts as its home line's (R324). -/
def State.settleStamps (s : State) : State :=
  let stamped (line : Nat) : Bool := s.mappedAs [3] (128 * line) || s.mappedAs [3] (128 * (line ^^^ 2 ^ 32))
  { s with phys := { s.phys with stamps := s.phys.stamps.filter fun x => stamped x.1 } }

/-- The die kernel's next GEN is taken (R318, R329). -/
def State.takeGen (s : State) (die : Nat) : State := s.modDie die fun d => { d with nextGen := d.nextGen + 1 }

/-- What supervisor software and the hardware may append (R310, R318). An INV has its kernel's next GEN: of one numbering with those of
UNMAP, so that none repeats (log entry 44). -/
def State.mayAppend (s : State) (die : Nat) : MsgBody → Bool
  | .cmd _ => true
  | .inv _ gen _ pages => decide (1 ≤ pages) && gen == (s.die die).nextGen
  | .commit _ gen _ _ => (s.die die).shoots.any fun k => k.gen == gen && k.complete
  | .elect => true
  | .other _ _ => true
  | _ => false

def execAppend (die : DieNo) (hw : Bool) (body : MsgBody) (s : State) : Host.Outcome State Fault Refusal :=
  .next (if (s.die die.val).st != .live then s
    else match hw, body with
      | true, .ack init gen => s.acknowledge die.val init gen
      | true, _ => s
      | false, .commit ctx gen va pages =>
        if s.mayAppend die.val (.commit ctx gen va pages) then s.settleStamps.append die.val false (.commit ctx gen va pages) else s
      | false, .inv ctx gen va pages =>
        if s.mayAppend die.val (.inv ctx gen va pages) then
          (s.takeGen die.val).append die.val false (.inv ctx gen va pages)
        else s
      | false, b => if s.mayAppend die.val b then s.append die.val false b else s)

def execDeliver (die : DieNo) (s : State) : Host.Outcome State Fault Refusal := .next (s.deliverIf die fun _ => true)

def execAck (die : DieNo) (initiator gen : Nat) (s : State) : Host.Outcome State Fault Refusal :=
  .next (if (s.die die.val).st == .live then s.acknowledge die.val initiator gen else s)

def execInv (die : DieNo) (s : State) : Host.Outcome State Fault Refusal :=
  .next (s.deliverIf die fun b => match b with
    | .inv _ _ _ _ => true
    | _ => false)

def execCommitMsg (die : DieNo) (s : State) : Host.Outcome State Fault Refusal :=
  .next (s.deliverIf die fun b => match b with
    | .commit _ _ _ _ => true
    | _ => false)

def execDiedown (die : DieNo) (s : State) : Host.Outcome State Fault Refusal :=
  .next (s.deliverIf die fun b => match b with
    | .diedown _ => true
    | _ => false)

def execElect (die : DieNo) (s : State) : Host.Outcome State Fault Refusal := .next (s.deliverIf die fun b => b == .elect)

/-- FENCED (R320): a die that has not answered an INV for 50 us is cut off; the initiator counts it at its DELIVER of the message
(R329). -/
def execFenced (die : DieNo) (target : Nat) (s : State) : Host.Outcome State Fault Refusal :=
  let late := (s.die die.val).shoots.any fun k =>
    decide (k.since + 50000 ≤ s.now) && k.live.contains target && !k.acked.contains target
  .next (if (s.die die.val).st == .live && late && target != die.val && decide (target < 8) && (s.die target).st == .live then
      (s.loseDie target .lost true).append die.val true (.fenced target)
    else s)

/-- DIEUP: a die that was lost has restarted (R315). -/
def execDieup (x : Restart) (s : State) : Host.Outcome State Fault Refusal :=
  let d := s.die x.die.val
  .next (if s.pkg.powered && d.st == .lost && !d.fenced then s.startDie x.die.val false x.places else s)

-- Commands as events: a die delivers the next message where it is that command.

def execCmdQuota (die : DieNo) (s : State) : Host.Outcome State Fault Refusal :=
  .next (s.deliverIf die (cmdIs fun c => match c with
    | .quota _ _ _ _ => true
    | _ => false))

def execCmdFuse (die : DieNo) (s : State) : Host.Outcome State Fault Refusal :=
  .next (s.deliverIf die (cmdIs fun c => match c with
    | .fuse _ _ => true
    | _ => false))

def execCmdPlace (die : DieNo) (s : State) : Host.Outcome State Fault Refusal :=
  .next (s.deliverIf die (cmdIs fun c => match c with
    | .place _ _ => true
    | _ => false))

def execCmdMap (die : DieNo) (s : State) : Host.Outcome State Fault Refusal :=
  .next (s.deliverIf die (cmdIs fun c => match c with
    | .map _ _ _ _ => true
    | _ => false))

def execCmdUnmap (die : DieNo) (s : State) : Host.Outcome State Fault Refusal :=
  .next (s.deliverIf die (cmdIs fun c => match c with
    | .unmap _ _ _ => true
    | _ => false))

def execCmdRegion (die : DieNo) (s : State) : Host.Outcome State Fault Refusal :=
  .next (s.deliverIf die (cmdIs fun c => match c with
    | .region _ _ _ _ => true
    | _ => false))

def execCmdCommdecl (die : DieNo) (s : State) : Host.Outcome State Fault Refusal :=
  .next (s.deliverIf die (cmdIs fun c => match c with
    | .commdecl _ _ _ _ _ => true
    | _ => false))

def execCmdKeyload (die : DieNo) (s : State) : Host.Outcome State Fault Refusal :=
  .next (s.deliverIf die (cmdIs fun c => match c with
    | .keyload _ _ => true
    | _ => false))

def execCmdBarset (die : DieNo) (s : State) : Host.Outcome State Fault Refusal :=
  .next (s.deliverIf die (cmdIs fun c => match c with
    | .barset _ _ _ => true
    | _ => false))

def execCmdHandover (die : DieNo) (s : State) : Host.Outcome State Fault Refusal :=
  .next (s.deliverIf die (cmdIs fun c => match c with
    | .handover _ => true
    | _ => false))

def execCmdCoreoff (die : DieNo) (s : State) : Host.Outcome State Fault Refusal :=
  .next (s.deliverIf die (cmdIs fun c => match c with
    | .coreoff _ => true
    | _ => false))

def execCmdCoreon (die : DieNo) (s : State) : Host.Outcome State Fault Refusal :=
  .next (s.deliverIf die (cmdIs fun c => match c with
    | .coreon _ => true
    | _ => false))

def execCmdRehome (die : DieNo) (s : State) : Host.Outcome State Fault Refusal :=
  .next (s.deliverIf die (cmdIs fun c => match c with
    | .rehome _ => true
    | _ => false))

def execCmdCheckpoint (die : DieNo) (s : State) : Host.Outcome State Fault Refusal :=
  .next (s.deliverIf die (cmdIs fun c => match c with
    | .checkpoint _ => true
    | _ => false))

-- The region switch (R220).

/-- The bytes of a line that some copies hold dirty: byte number, value of the lowest die, the dies. -/
def dirtyOf (cs : List SwmCopy) : List (Nat × Byte × List Nat) :=
  (List.range 128).filterMap fun i =>
    let ds := (List.range 8).filterMap fun d =>
      match (cs.find? fun c => c.die == d).bind fun c => aget i c.bytes with
      | some (v, true) => some (d, v)
      | _ => none
    match ds with
    | [] => none
    | x :: _ => some (i, x.2, ds.map Prod.fst)

/-- A CONFLICT entry waits for room in its log. -/
def State.queueConflict (s : State) (ctx gran : Nat) (dies : List Nat) : State :=
  match dies with
  | [] => s
  | d :: _ =>
    if (s.die d).glean.made then
      s.modDie d fun x => { x with glean := { x.glean with
        waitq := x.glean.waitq ++ [(ctx, gran, (dies.map fun k => 2 ^ k).sum)] } }
    else s

/-- Bytes that a home has written for a copy of a REPL line go on to the replica (R324). -/
def State.writeThrough (s : State) (c : SwmCopy) (cells : List Host.Cell) : State :=
  if c.repl && !cells.isEmpty then
    let (o, s) := s.newId
    (s.addAccess {
      aid := 0, inst := o, die := s.phys.homeDie (128 * c.line), ctx := c.ctx, loc := none, line := c.line, va := c.va, page := 1
      keyid := c.keyid, slice := 0, kind := .store cells, acq := none, rel := none, st := .replica o cells
      refusals := 0, firstRef := 0, retryAt := 0, repl := true }).2
  else s

/-- Steps 2 to 4 for one line. A lost home takes nothing (R320). -/
def State.mergeLine (s : State) (line : Nat) (cs : List SwmCopy) : State :=
  match cs with
  | [] => s
  | c :: _ =>
    let home := s.phys.homeDie (128 * line)
    let cells := (dirtyOf cs).map fun x => (128 * line + x.1, x.2.1)
    if (s.die home).st == .lost then s
    else (((s.writeLine line c.keyid cells).patchInb line c.keyid cells).touch c.ctx home).writeThrough c cells

/-- The clashing dies of each granule of a run, ascending. -/
def clashes (cs : List SwmCopy) : List (Nat × List Nat) :=
  (dedup (cs.map fun c => c.va / 256)).filterMap fun g =>
    let ls := dedup ((cs.filter fun c => c.va / 256 == g).map fun c => c.line)
    let ds := ls.flatMap fun ln => ((dirtyOf (cs.filter fun c => c.line == ln)).flatMap fun x =>
      if 2 ≤ x.2.2.length then x.2.2 else [])
    match (List.range 8).filter ds.contains with
    | [] => none
    | l => some (g, l)

/-- Steps 2 to 4: the copies of a run go home and the clashes are queued for their logs. Once done it finds no copy and does nothing. -/
def State.mergeRegion (s : State) (ctx va pages : Nat) : State :=
  let mine (c : SwmCopy) : Bool := c.ctx == ctx && decide (va ≤ c.va) && decide (c.va < va + pages * 2 ^ 16)
  let cs := s.om.swm.filter mine
  let s := (dedup (cs.map fun c => c.line)).foldl (fun (s : State) ln => s.mergeLine ln (cs.filter fun c => c.line == ln)) s
  let s := (clashes cs).foldl (fun (s : State) x => s.queueConflict ctx x.1 x.2) s
  { s with om := { s.om with swm := s.om.swm.filter fun c => !mine c } }

/-- Whether a CONFLICT entry of a run still waits for room. -/
def State.conflictDue (s : State) (ctx va pages : Nat) : Bool :=
  s.dies.any fun d => d.glean.waitq.any fun w => w.1 == ctx && decide (va ≤ 256 * w.2.1) && decide (256 * w.2.1 < va + pages * 2 ^ 16)

/-- Step 5: the entries of a run take their KIND. A leaf larger than the part of it that lies in the run takes it whole, which R220 does
not say: the model's choice (log entry 47). -/
def State.setKind (s : State) (ctx va pages : Nat) (toSwm : Bool) : State :=
  (pagesFrom va pages).foldl (fun (s : State) a =>
    match s.leafOf ctx a with
    | some (at_, p) => s.putWord64 at_ ((p &&& 0xFFFFFFFFFFFFF8FF#64) ||| (if toSwm then 0x100 else 0))
    | none => s) s

/-- REPL pages homed on a lost die name their replicas (R324). -/
def State.finishRehome (s : State) (d : Nat) : State :=
  (s.task.ctxs.map Prod.fst).foldl (fun (s : State) ctx =>
    (s.leaves ctx).foldl (fun (s : State) x =>
      let pa := pteAddr x.2.1
      if pteRepl x.2.1 && !pteFar x.2.1 && s.phys.region pa == .hbm && s.phys.homeDie pa == d then
        s.putWord64 x.1 ((x.2.1 ^^^ (1#64 <<< 39)) &&& ~~~(1#64 <<< 11))
      else s) s) s

/-- A REGION or REHOME goes on once every live die has delivered it and its translated accesses are performed (R220, R324). -/
def State.switchReady (s : State) (seq : Nat) : Bool :=
  (List.range 8).all fun d =>
    (s.die d).st != .live ||
      (match (s.die d).held.find? fun h => h.seq == seq with
       | some h => s.heldDrained d h
       | none => decide (seq < (s.die d).delivered) && !(s.pkg.msgs.any fun m =>
           m.seq == seq && lifeAt s.pkg.msgs seq d == some true))

def State.release (s : State) (seq : Nat) : State :=
  { s with dies := s.dies.map fun d => { d with held := d.held.filter fun h => h.seq != seq } }

/-- CONFLICT entries that have room are appended. -/
def State.conflictDie (s : State) (d : Nat) : Nat → State
  | 0 => s
  | n + 1 =>
    let g := (s.die d).glean
    match g.waitq with
    | [] => s
    | (ctx, gran, dies) :: t =>
      if !s.gleanRoom g.ctl then s
      else
        let s := s.gleanAppend d 1 ctx gran dies
        (s.modDie d fun x => { x with glean := { x.glean with waitq := t } }).conflictDie d n

def State.conflictSweep (s : State) : State :=
  (List.range 8).foldl (fun (s : State) d => s.conflictDie d (s.die d).glean.waitq.length) s


/-- The switches that can end now. One whose CONFLICT entries wait for room goes on with step 5 when they are appended (R220). -/
def State.switchSweep (s : State) : State :=
  let seqs := dedup ((s.dies.flatMap fun d => d.held.filter fun h => h.init == 8).map fun h => h.seq)
  seqs.foldl (fun (s : State) q =>
    match s.pkg.msgs.find? fun m => m.seq == q with
    | some m =>
      (match m.body with
       | .cmd (.region ctx va pages toSwm) =>
         if s.switchReady q then
           let s := if toSwm then s else (s.mergeRegion ctx va pages).conflictSweep
           -- what the homes wrote is performed at PKG scope first, at the replicas too (R324)
           if s.conflictDue ctx va pages || !s.switchReady q then s else (s.setKind ctx va pages toSwm).settleStamps.release q
         else s
       | .cmd (.rehome d) => if s.switchReady q then (s.finishRehome d).settleStamps.release q else s
       | _ => s)
    | none => s) s


end Sys2Proof.Machine
end

