-- ==== Sys2Proof/Machine/Supervisor.lean ====
section
/-!
DEFINITION. What the die kernel does that programs see: the services FORWARD, MAP and UNMAP (R308, R329), HALT, the privileged
window and the supervisor registers (R316, R317, R337, R344).
-/
namespace Sys2Proof.Machine

-- Services.

/-- Whether a service record is the one by which its handler has passed a block on to the die kernel. -/
def SvcRec.forwards (r : SvcRec) (b : Block) : Bool := b.fwd == some r.tag

/-- FORWARD (R308): the die kernel resumes a block that its handler has passed on, as TRET would and with the acquire of R49, or kills
its team and reports it. A block whose trap went to the die kernel without a handler, or from within it, is killed (R109, R254). -/
def execSvcForward (blk : Nat) (resume : Bool) (s : State) : Host.Outcome State Fault Refusal :=
  .next (match s.block blk with
    | some b =>
      if b.hst ≠ .kernel then s
      else
        let s := s.modDie b.die fun d => { d with ring := d.ring.filter fun r => !r.forwards b }
        if resume && b.hdr.trapv && b.fwd.isSome then (s.resume b false).dropLeases b.die else s.killTeam b.die b.team b.trap
    | none => s)

def State.takeRecord (s : State) (die tag : Nat) : State :=
  s.modDie die fun d => { d with ring := d.ring.filter fun r => r.tag != tag }

def State.addJob (s : State) (die : Nat) (j : Job) : State := s.modDie die fun d => { d with jobs := d.jobs ++ [j] }
def State.dropJob (s : State) (die tag : Nat) : State :=
  s.modDie die fun d => { d with jobs := d.jobs.filter fun j => jobTag j != tag }

def SvcRec.arg (r : SvcRec) (i : Nat) : Nat := (r.args.getD i 0).toNat

/-- The leaf entries that a MAP writes: page and value of each; none where it is refused (R329). -/
def State.mapPlan (s : State) (r : SvcRec) : Option (List (Nat × Word64)) :=
  let va := r.arg 0
  let n := r.arg 1
  let hdl := r.arg 2
  let h := s.handleAt r.ctx (handleSlot hdl)
  if n = 0 ∨ va % 65536 ≠ 0 ∨ !s.handleLive r.ctx hdl ∨ h.far ∨ h.len < n * 65536 ∨ h.base % 65536 ≠ 0 then none
  else
    ((pagesFrom va n).zip (pagesFrom h.base n)).foldr (fun p acc =>
      match acc, s.leafOf r.ctx p.1, s.walkTables r.ctx p.2 with
      | some l, none, .ok pte va0 _ pa =>
        if pteFar pte then none
        else
          let phys := pa + (p.2 - va0)
          let keep := pte &&& ((0xFF#64 <<< 52) ||| (1#64 <<< 11))
          some ((p.1, BitVec.ofNat 64 phys ||| keep ||| 0x2F#64) :: l)
      | _, _, _ => none) (some [])

/-- The leaf entries of a MAP are written, tables made where there are none; none where an entry on the way is malformed (log entry
47). -/
def State.mapWrite (s : State) (ctx : Nat) : List (Nat × Word64) → Option State
  | [] => some s
  | x :: t =>
    match s.slotFor ctx x.1 with
    | none => none
    | some (a, s) => (s.putWord64 a x.2).mapWrite ctx t

/-- MAP: what is due of the oldest one begun, else the oldest record. -/
def execSvcMap (die : DieNo) (s : State) : Host.Outcome State Fault Refusal :=
  let d := s.die die.val
  let due := d.jobs.findSome? fun j => match j with
    | .map tag seq => if seq ≤ d.delivered then some tag else none
    | _ => none
  .next (if d.st != .live then s
    else match due with
      | some tag => (s.dropJob die.val tag).reply die.val tag 0 false
      | none =>
        match d.ring.find? fun r => r.svcn == 1 with
        | none => s
        | some r =>
          match (s.mapPlan r).bind fun l => s.mapWrite r.ctx l with
          | none => s.reply die.val r.tag 0 true
          | some s =>
            let seq := s.pkg.nextSeq
            let s := s.append die.val false (.cmd (.map r.ctx (r.arg 0) (r.arg 1) (r.arg 2 % 2 ^ 32)))
            (s.takeRecord die.val r.tag).addJob die.val (.map r.tag seq))

/-- The leaf entries that an UNMAP clears; none where it is refused (R329). -/
def State.unmapPlan (s : State) (r : SvcRec) : Option (List (Nat × Word64)) :=
  let va := r.arg 0
  let n := r.arg 1
  if n = 0 ∨ va % 65536 ≠ 0 then none
  else (pagesFrom va n).foldr (fun a acc =>
    match acc, s.leafOf r.ctx a with
    | some l, some x => some (x :: l)
    | _, _ => none) (some [])

/-- UNMAP: its reply once its COMMIT is delivered, else its COMMIT once every die has answered, else the oldest record. -/
def execSvcUnmap (die : DieNo) (s : State) : Host.Outcome State Fault Refusal :=
  let d := s.die die.val
  let replyDue := d.jobs.findSome? fun j => match j with
    | .unmap tag _ _ _ _ (some seq) => if seq ≤ d.delivered then some tag else none
    | _ => none
  let commitDue := d.jobs.find? fun j => match j with
    | .unmap _ _ gen _ _ none => d.shoots.any fun k => k.gen == gen && k.complete
    | _ => false
  .next (if d.st != .live then s
    else match replyDue, commitDue with
      | some tag, _ => (s.dropJob die.val tag).reply die.val tag 0 false
      | none, some (.unmap tag ctx gen va pages _) =>
        let seq := s.pkg.nextSeq
        let s := s.settleStamps.append die.val false (.commit ctx gen va pages)
        (s.dropJob die.val tag).addJob die.val (.unmap tag ctx gen va pages (some seq))
      | _, _ =>
        match d.ring.find? fun r => r.svcn == 2 with
        | none => s
        | some r =>
          match s.unmapPlan r with
          | none => s.reply die.val r.tag 0 true
          | some l =>
            let s := l.foldl (fun (s : State) x => s.putWord64 x.1 (x.2 &&& ~~~1#64)) s
            let gen := d.nextGen
            let s := s.takeGen die.val
            let s := s.append die.val false (.cmd (.unmap r.ctx (r.arg 0) (r.arg 1)))
            let s := s.append die.val false (.inv r.ctx gen (r.arg 0) (r.arg 1))
            (s.takeRecord die.val r.tag).addJob die.val (.unmap r.tag r.ctx gen (r.arg 0) (r.arg 1) none))

-- HALT (R317).

/-- The blocks of a cluster. -/
def State.clusterBlocks (s : State) (die cl : Nat) : List Block :=
  (s.task.blocks.map Prod.snd).filter fun b => b.die == die && b.cluster == cl

/-- Matrix and copy entries of a cluster's blocks have drained. -/
def State.clusterQuiet (s : State) (die cl : Nat) : Bool :=
  let bs := (s.clusterBlocks die cl).map fun b => b.id
  s.om.entries.all fun e => !(e.live && bs.contains e.blk) || (match e.form with
    | .net _ => true
    | .bd _ => true
    | _ => false)

/-- HALTED is set once a halted cluster has drained. -/
def State.haltSweep (s : State) : State :=
  (List.range 8).foldl (fun (s : State) d =>
    (List.range 12).foldl (fun (s : State) c =>
      let x := (s.die d).clusters.getD c ⟨false, false, false⟩
      if x.halt && !x.halted && s.clusterQuiet d c then
        s.modDie d fun y => { y with clusters := y.clusters.modify c fun k => { k with halted := true } }
      else s) s) s

def execHalt (die : DieNo) (cluster : Nat) (set : Bool) (s : State) : Host.Outcome State Fault Refusal :=
  .next (if (s.die die.val).st != .live then s
    else
      let s := s.modDie die.val fun d => { d with clusters := d.clusters.modify cluster fun c =>
        { c with halt := set, halted := c.halted && set } }
      s.haltSweep)

-- The privileged window (R316).

/-- The block that holds a unit of a class, with the unit's place in the block's list. -/
def State.holder (s : State) (g : Nat) (f : Phys → List Nat) (u : Nat) : Option (Block × Nat) :=
  (s.coreBlocks g).findSome? fun b => ((f b.phys).idxOf? u).map fun i => (b, i)

/-- A block of a CONF context shows nothing (R337). -/
def State.hidden (s : State) (b : Block) : Bool := (s.ctx b.ctx).conf

/-- A byte of the register file: partition, granule, byte of the granule. Granule i of a block's list in partition p is row
i / n_p of the block's (i mod n_p)-th warp there. -/
def State.winReg (s : State) (g o : Nat) : Byte :=
  let p := o / 2 ^ 17
  let r := o % 2 ^ 10
  match s.holder g (fun x => x.reg.getD p []) (o % 2 ^ 17 / 2 ^ 10) with
  | none => 0
  | some (b, i) =>
    let np := nPart b.nWarps p
    let row := i / np
    let w := p + 4 * (i % np)
    let n := 8 * row + r / 128
    let t := 32 * w + r % 128 / 4
    if s.hidden b then 0 else (((b.thread t).getV n).toNat / 256 ^ (r % 4) : Nat)

def State.winClm (s : State) (g o : Nat) : Byte :=
  match s.holder g Phys.clm (o / 4096) with
  | none => 0
  | some (b, i) => if s.hidden b then 0 else byteAt b.clm (4096 * i + o % 4096)

def State.winAcc (s : State) (g o : Nat) : Byte :=
  match s.holder g Phys.acc (o / 8192) with
  | none => 0
  | some (b, i) =>
    if s.hidden b then 0
    else
      let e := agetD (512 * i + o % 8192 / 16) ⟨0, false, false⟩ b.acc
      (e.v.toNat / 256 ^ (o % 16) : Nat)

/-- Four elements' flags in a byte. -/
def State.winFlags (s : State) (g o : Nat) : Byte :=
  match s.holder g Phys.acc (o / 128) with
  | none => 0
  | some (b, i) =>
    if s.hidden b then 0
    else
      let el (k : Nat) : AccEl := agetD (512 * i + 4 * (o % 128) + k) ⟨0, false, false⟩ b.acc
      ((List.range 4).map fun k => (if (el k).sat then 2 ^ (2 * k) else 0) + (if (el k).inv then 2 ^ (2 * k + 1) else 0)).sum

def State.winBw (s : State) (g o : Nat) : Byte :=
  match s.holder g Phys.acc o with
  | none => 0
  | some (b, i) => if s.hidden b then 0 else BitVec.ofInt 8 (b.bw.getD i 0)

/-- The address of a block's header: its team's CODE. -/
def State.headerOf (s : State) (b : Block) : Nat :=
  match s.team b.team with
  | some t => t.crec.code
  | none => 0

/-- The block directory. Its slot starts with the block part of R104, 4 KiB, whose first word is the header's address; the other bytes
have no stated layout and are free values. Those of a block of a CONF context read as 0 but for the granule lists, which stand behind
the block part, at a place not stated either (R337, log entry 15). -/
def State.winDir (s : State) (g o : Nat) : Byte :=
  let i := o % 2 ^ 14
  match (s.coreBlocks g).find? fun b => b.slot == o / 2 ^ 14 with
  | some b =>
    if s.hidden b && (decide (i < 4096) || !Config.dirList b.id i) then 0
    else if i < 8 then (leBytes 8 (s.headerOf b)).getD i 0
    else Config.dirByte (Nat.pair g s.fresh) o
  | none => Config.dirByte (Nat.pair g s.fresh) o

/-- One byte of a core's window. -/
def State.winByte (s : State) (g o : Nat) : Byte :=
  if o < 0x80000 then s.winReg g o
  else if o < 0x100000 then s.winClm g (o - 0x80000)
  else if o < 0x180000 then s.winAcc g (o - 0x100000)
  else if o < 0x1A0000 then s.winDir g (o - 0x180000)
  else if o < 0x1A2000 then s.winFlags g (o - 0x1A0000)
  else if o < 0x1A2040 then s.winBw g (o - 0x1A2000)
  else 0

/-- The address of a die's SENSE register (R344). -/
def senseAddr (die : Nat) : Nat := 0x8000000000000 + die * 2 ^ 32

def Sense.word (x : Sense) : Word64 :=
  BitVec.ofNat 64 (x.tj.toNat + x.fclk.toNat * 2 ^ 16 + x.pmod.toNat * 2 ^ 32 + (if x.throt then 2 ^ 44 else 0) +
    if x.hot then 2 ^ 45 else 0)

/-- A read of 8 bytes from a supervisor core of `die`: SENSE at its address, or a place of the window; all ones and WINERR while the
cluster is not halted (R317). -/
def execPrivilegedWindowRead (die : DieNo) (addr : Nat) (s : State) : Host.Outcome State Fault Refusal :=
  let o := addr - 0x8010000000000
  let d := o / 2 ^ 32
  let cl := o % 2 ^ 32 / 2 ^ 24
  let g := coreIx d (8 * cl + o % 2 ^ 24 / 2 ^ 21)
  .next (if (s.die die.val).st != .live then s
    else if addr = senseAddr (addr / 2 ^ 32 % 8) then s.emit (.winRead die.val (s.die (addr / 2 ^ 32 % 8)).sense.word)
    else if decide (addr < 0x8010000000000) || decide (7 < d) || decide (11 < cl) then s
    else if ((s.die d).clusters.getD cl ⟨false, false, false⟩).halted then
      let v := leNat ((List.range 8).map fun i => s.winByte g (o % 2 ^ 21 + i))
      (s.freeIx.2).emit (.winRead die.val (BitVec.ofNat 64 v))
    else
      (s.modDie die.val fun x => { x with port := { x.port with winerr := true } }).emit
        (.winRead die.val (BitVec.allOnes 64)))

-- Registers.

/-- THROT of a die is cleared; while the clock stands below 1,250 MHz it is set again (R344). -/
def State.clearThrot (s : State) (die : Nat) : State :=
  s.modDie die fun d => { d with sense := { d.sense with throt := decide (d.sense.fclk.toNat < 1250) } }

def execThrotClear (die : DieNo) (s : State) : Host.Outcome State Fault Refusal := .next (s.clearThrot die.val)

/-- A write from a supervisor core of `die`: a 1 to THROT clears it; every other field of SENSE, and the window, ignore writes (R317,
R344). -/
def execRegisterWrite (die : DieNo) (addr : Nat) (value : Word64) (s : State) : Host.Outcome State Fault Refusal :=
  let d := addr / 2 ^ 32 % 8
  .next (if (s.die die.val).st == .live && addr == senseAddr d && value.getLsbD 44 then s.clearThrot d else s)

end Sys2Proof.Machine
end

