-- ==== Sys2Proof/Machine/Boot.lean ====
section
/-!
DEFINITION. Bring-up, trust and power: resets and power (R333, R338, R343), the clock's throttle and the sensors (R342, R344),
attestation (R334, R335), memory keys (R336, R337), inbound requests, links and expanders (R205, R339, R340), and the
teardown of a context (R321).
-/
namespace Sys2Proof.Machine

-- Clock and sensors.

/-- The limits of R342: 3.4 kW and 105 degrees in sixteenths. -/
def throttleCause (pmod : Nat) (tj : List Nat) : Bool := decide (3400 < pmod) || tj.any fun t => decide (1680 < t)

/-- One die's sensors after a clock step to `fclk`. -/
def Sense.after (x : Sense) (fclk pmod tj : Nat) : Sense :=
  { tj := BitVec.ofNat 16 (min tj 65535)
    fclk := BitVec.ofNat 16 fclk
    pmod := BitVec.ofNat 12 (min pmod 4095)
    throt := x.throt || decide (fclk < 1250)
    hot := decide (1680 < tj) }

def fclkDown (f : Nat) : Nat := max 625 (f - 25)
def fclkUp (f : Nat) : Nat := min 1250 (f + 25)

/-- The clock of every die takes one step together. -/
def State.clockStep (s : State) (f : Nat → Nat) (pmod : Nat) (tj : List Nat) : State :=
  { s with
    pkg := { s.pkg with throttleAt := s.now }
    dies := (s.dies.zip (List.range 8)).map fun p =>
      { p.1 with sense := p.1.sense.after (f p.1.sense.fclk.toNat) pmod (tj.getD p.2 0) } }

/-- At most one step in a millisecond. -/
def State.clockDue (s : State) : Bool := s.pkg.powered && decide (s.pkg.throttleAt + 1000000 ≤ s.now)

/-- The device keeps when it last saw a cause. -/
def State.noteCause (s : State) (pmod : Nat) (tj : List Nat) : State :=
  if throttleCause pmod tj then { s with pkg := { s.pkg with causeAt := s.now } } else s

def execClockStepDown (pmod : Nat) (tj : List Nat) (s : State) : Host.Outcome State Fault Refusal :=
  let t := s.noteCause pmod tj
  .next (if s.clockDue && throttleCause pmod tj then t.clockStep fclkDown pmod tj else t)

/-- A step up once no cause has been present for 1 ms. -/
def execClockStepUp (pmod : Nat) (tj : List Nat) (s : State) : Host.Outcome State Fault Refusal :=
  let t := s.noteCause pmod tj
  .next (if s.clockDue && !throttleCause pmod tj && decide (s.pkg.causeAt + 1000000 ≤ s.now) then t.clockStep fclkUp pmod tj
    else t)

-- Resets and power.

/-- A die at 115 degrees enters reset (R343); it is a cause of R342 too. -/
def execOvertempReset (die : DieNo) (tj : Nat) (s : State) : Host.Outcome State Fault Refusal :=
  .next (if s.pkg.powered && decide (1840 ≤ tj) then (s.noteCause 0 [tj]).enterReset die.val else s)

/-- Where the monitor of a die places its rings when nothing is said: the top of the die's HBM (log entry 75). -/
def defaultPlaces (die : Nat) : Places where
  svcBase := (die + 1) * 2 ^ 37 - 2 ^ 22
  svcCap := 1024
  dlvBase := (die + 1) * 2 ^ 37 - 2 ^ 21
  dlvCap := 1024
  jBase := (die + 1) * 2 ^ 37 - 2 ^ 23
  jLog := 16
  glean := none

/-- Every die whose signature checks pass starts, in ascending order; the others stay in reset (R333). -/
def State.startAll (s : State) (bad : List Nat) (places : List Places) : State :=
  ((List.range 8).filter fun d => !bad.contains d).foldl (fun s d => s.startDie d true (places.getD d (defaultPlaces d))) s

def execPowerGood (x : PowerUp) (s : State) : Host.Outcome State Fault Refusal :=
  .next (if s.dies.all fun d => d.st == .inReset then
      { s with pkg := { s.pkg with powered := true } }.startAll x.bad x.places
    else s)

/-- The machine after a reset of the whole package: what is outside it goes on (R338). A CXL expander keeps its bytes. -/
def State.resetPackage (s : State) (powered : Bool) : State :=
  { State.reset with
    now := s.now
    fresh := s.fresh
    nextId := s.nextId
    agenda := s.agenda
    phys := { State.reset.phys with bytes := s.phys.bytes.filter fun c => decide (2 ^ 48 ≤ c.1) }
    pkg := { State.reset.pkg with powered := powered, out := s.pkg.out } }

def execPackageReset (s : State) : Host.Outcome State Fault Refusal :=
  .next ((if s.pkg.powered then s.resetPackage true else s).emit .resetAck)

def execDieReset (die : DieNo) (s : State) : Host.Outcome State Fault Refusal :=
  .next ((if s.pkg.powered then s.enterReset die.val else s).emit .resetAck)

def execPackageUnpowered (s : State) : Host.Outcome State Fault Refusal := .next (s.resetPackage false)

-- Attestation.

/-- Whether a die's Phidy root answers on a path; the sideband port is wired to die 0 or die 4. -/
def State.responder (s : State) (die : Nat) (side : Bool) : Bool :=
  s.pkg.powered && (s.die die).measured && (!side || die == 0 || die == 4)

/-- Any request: Busy on the sideband while the package is unpowered; `f` where the die's root answers. -/
def State.spdm (s : State) (die : DieNo) (side : Bool) (f : State → State) : Host.Outcome State Fault Refusal :=
  .next (if side && !s.pkg.powered then s.emit (.spdmBusy die.val)
    else if s.responder die.val side then f s
    else s)

/-- The responder's version is SPDM 1.3 (R335). -/
def execGetVersion (die : DieNo) (side : Bool) (s : State) : Host.Outcome State Fault Refusal :=
  s.spdm die side fun s => s.emit (.spdmVersion die.val "GET_VERSION" 1 3)

def execGetCapabilities (die : DieNo) (side : Bool) (s : State) : Host.Outcome State Fault Refusal :=
  s.spdm die side fun s => s.emit (.spdmOk die.val "GET_CAPABILITIES")

/-- What the responder uses (R335): signing, hash and measurement, key exchange, session protection. -/
def spdmAlgorithms : List String := ["Ed25519", "SHA-512", "secp384r1", "AES-256-GCM"]

def execNegotiateAlgorithms (die : DieNo) (side : Bool) (s : State) : Host.Outcome State Fault Refusal :=
  s.spdm die side fun s => s.emit (.spdmAlgos die.val "NEGOTIATE_ALGORITHMS" spdmAlgorithms)

def execGetDigests (die : DieNo) (side : Bool) (s : State) : Host.Outcome State Fault Refusal :=
  s.spdm die side fun s => s.emit (.spdmOk die.val "GET_DIGESTS")

def execGetCertificate (die : DieNo) (side : Bool) (s : State) : Host.Outcome State Fault Refusal :=
  s.spdm die side fun s => s.emit (.spdmOk die.val "GET_CERTIFICATE")

def execChallenge (die : DieNo) (side : Bool) (s : State) : Host.Outcome State Fault Refusal :=
  s.spdm die side fun s => s.emit (.spdmOk die.val "CHALLENGE")

/-- The fusion controls at a position: the clusters fused then. -/
def fusedAt (msgs : List Msg) (pos : Nat) : List Nat :=
  msgs.foldl (fun l m =>
    if pos < m.seq || m.verdict != some true then l
    else match m.body with
      | .cmd (.fuse cl fused) => (l.filter fun x => x != cl) ++ (if fused then [cl] else [])
      | _ => l) []

/-- The placement controls at a position: lost dies leave every mask where they are lost (R312). -/
def placesAt (msgs : List Msg) (pos : Nat) : Assoc Nat :=
  let without (d : Nat) (l : Assoc Nat) : Assoc Nat := l.map fun p => (p.1, if p.2.testBit d then p.2 - 2 ^ d else p.2)
  msgs.foldl (fun l m =>
    if pos < m.seq then l
    else match m.body with
      | .cmd (.place ctx mask) => if m.verdict = some true then aset ctx mask l else l
      | .diedown d => without d l
      | .fenced d => without d l
      | _ => l) []

/-- The controls that measurement 10 hashes, as numbers: each list behind its length, so that no two settings read alike. -/
def State.partition (s : State) (die : Nat) : List Nat :=
  let pos := (s.die die).delivered
  let quotas := (List.range 768).flatMap fun c => (quotasAt s.pkg.msgs pos c).flatMap fun q =>
    [c, q.1, q.2.slots, q.2.lim.reg, q.2.lim.clm, q.2.lim.acc, q.2.lim.mslot, q.2.lim.stile]
  let fused := (List.range 96).filter (fusedAt s.pkg.msgs pos).contains
  let places := (placesAt s.pkg.msgs pos).flatMap fun p => [p.1, p.2]
  [quotas, fused, places].flatMap fun l => l.length :: l

/-- The contexts marked CONF, ascending. -/
def State.confList (s : State) : List Nat := s.task.ctxs.filterMap fun p => if p.2.conf then some p.1 else none

/-- One measurement (R334): every index of SHA-512 is an unknown function of what it measures. -/
def State.measurement (s : State) (die index : Nat) : BitVec 512 :=
  if index = 1 then Config.digest 1 [die]
  else if index ≤ 9 then
    if (s.die (index - 2)).st == .live then Config.digest 2 [index - 2] else 0
  else if index = 10 then Config.digest 10 (s.partition die)
  else Config.digest 11 s.confList

def execGetMeasurements (die : DieNo) (side : Bool) (s : State) : Host.Outcome State Fault Refusal :=
  s.spdm die side fun s =>
    ((List.range 11).map (· + 1)).foldl (fun st i => st.emit (.spdmMeas die.val i (s.measurement die.val i))) s

/-- The lowest session number not in use. -/
def freeSession (l : Assoc Bool) : Option Nat := (List.range 16).find? fun n => (aget n l).isNone

def execKeyExchange (die : DieNo) (side : Bool) (s : State) : Host.Outcome State Fault Refusal :=
  s.spdm die side fun s =>
    if side then s.emit (.spdmUnsupported die.val)
    else match freeSession (s.die die.val).sessions with
      | none => s.emit (.spdmBusy die.val)
      | some n => (s.modDie die.val fun d => { d with sessions := aset n false d.sessions }).emit
          (.spdmAlgos die.val "KEY_EXCHANGE" spdmAlgorithms)

/-- A request inside a session: one that KEY_EXCHANGE began (`open_` false), or one that FINISH opened. -/
def State.inSession (s : State) (die : DieNo) (side open_ : Bool) (session : Nat) (f : State → State) :
    Host.Outcome State Fault Refusal :=
  s.spdm die side fun s => if aget session (s.die die.val).sessions = some open_ then f s else s

/-- FINISH opens the session. -/
def execFinish (die : DieNo) (side : Bool) (session : Nat) (s : State) : Host.Outcome State Fault Refusal :=
  s.inSession die side false session fun s =>
    (s.modDie die.val fun d => { d with sessions := aset session true d.sessions }).emit (.spdmOk die.val "FINISH")

def execEndSession (die : DieNo) (side : Bool) (session : Nat) (s : State) : Host.Outcome State Fault Refusal :=
  s.inSession die side true session fun s =>
    (s.modDie die.val fun d => { d with sessions := adel session d.sessions }).emit
      (.spdmOk die.val "END_SESSION")

def execHeartbeat (die : DieNo) (side : Bool) (session : Nat) (s : State) : Host.Outcome State Fault Refusal :=
  s.inSession die side true session fun s => s.emit (.spdmOk die.val "HEARTBEAT")

def execSpdmUnsupported (die : DieNo) (side : Bool) (_code : Nat) (s : State) : Host.Outcome State Fault Refusal :=
  s.spdm die side fun s => s.emit (.spdmUnsupported die.val)

/-- A message type the sideband port does not accept is discarded (R338). -/
def execMctpMessageDiscard (_ty : Nat) (s : State) : Host.Outcome State Fault Refusal := .next s

-- Keys and contexts.

/-- Whether a session is open on a die (R335). -/
def State.sessionOpen (s : State) (die session : Nat) : Bool :=
  (s.die die).st == .live && aget session (s.die die).sessions == some true

/-- A key that comes in an open session: a port key waits at the die for KEYLOAD (R301, R312), a memory key is loaded by the monitor
into the same entry of all sixteen tables (R336). Entry 0 means no encryption. -/
def execMemoryKeyLoad (via : SessionOf) (k : NewKey) (s : State) : Host.Outcome State Fault Refusal :=
  .next (if !s.sessionOpen via.die.val via.session then s
    else if k.port then
      if 0 < k.ix ∧ k.ix < 4096 then s.modDie via.die.val fun d => { d with portKeys := aset k.ix (k.key, k.sa) d.portKeys } else s
    else if 0 < k.ix ∧ k.ix < 256 then
      { s with phys := { s.phys with
        keytab := (List.range 16).foldl (fun t n => aset (n * 256 + k.ix) k.key t) s.phys.keytab } }
    else s)

/-- A context is marked CONF once its tenant has opened a session and supplied its keys (R337). -/
def execContextMarkedConf (via : SessionOf) (x : ConfMark) (s : State) : Host.Outcome State Fault Refusal :=
  .next (if s.sessionOpen via.die.val via.session && 0 < x.keyid && x.keyid < 256 &&
      (aget (2 * via.die.val * 256 + x.keyid) s.phys.keytab).isSome then
      s.modCtx x.ctx fun c => { c with conf := true, keyid := x.keyid }
    else s)

/-- Whether anything of a context is resident, saved or at work. -/
def State.ctxBusy (s : State) (ctx : Nat) : Bool :=
  s.task.blocks.any (fun p => p.2.ctx == ctx) || s.task.saved.any (fun p => p.2.team.ctx == ctx) ||
    s.om.entries.any fun e => e.ctx == ctx && e.result.isNone

/-- A die kernel tears a context down: its mask and every other control of it are gone, with its translations (R321) and the stamps of
lines that were STAMPED in it alone (R226). -/
def execContextTeardown (die : DieNo) (ctx : Nat) (s : State) : Host.Outcome State Fault Refusal :=
  .next (if (s.die die.val).st != .live || s.ctxBusy ctx then s
    else
      let keep (l : List Tlb) : List Tlb := l.filter fun t => t.ctx != ctx
      State.settleStamps { s with
        task := { s.task with
          ctxs := adel ctx s.task.ctxs
          cores := s.task.cores.map fun p => (p.1, { p.2 with tlb := keep p.2.tlb }) }
        dies := s.dies.map fun d => { d with tlb := keep d.tlb } })

-- Inbound requests (R205).

/-- A COMM or STAMPED line: of a declared range, or of a leaf of that KIND. -/
def State.guardedLine (s : State) (pa : Nat) : Bool := (s.range (lineOf pa)).isSome || s.mappedAs [2, 3] pa

/-- What an inbound request can reach: HBM, CXL windows and staging windows of a die that is live. -/
def State.inboundOk (s : State) (pa n : Nat) : Bool :=
  (List.range n).all fun i =>
    let r := s.phys.region (pa + i)
    (r == .hbm || r == .staging || r == .cxl) && (s.die (s.phys.homeDie (pa + i))).st == .live

def State.refuseInbound (s : State) (die fn pa : Nat) : State :=
  (s.emit (.inboundUR die fn)).report (s.phys.homeDie pa) (.inbound pa)

/-- The lines of a run of bytes, as they are before an inbound write (R36). -/
def State.noteInbound (s : State) (pa n : Nat) : State :=
  let lines := dedup ((List.range n).map fun i => lineOf (pa + i))
  { s with phys := { s.phys with
      inb := s.phys.inb ++ lines.map fun ln => ⟨ln, s.now, agetD ln 0 s.phys.keys, bytesAt s.phys.bytes (128 * ln) 128⟩ } }

/-- A write is served at its home; no copy on any die is updated. -/
def execInboundWrite (die : DieNo) (fn pa keyid : Nat) (data : List Byte) (s : State) :
    Host.Outcome State Fault Refusal :=
  let n := data.length
  .next (if (s.die die.val).st != .live then s
    else if (List.range n).any fun i => s.guardedLine (pa + i) then s.refuseInbound die.val fn pa
    else if s.inboundOk pa n then (s.noteInbound pa n).writeHome keyid (cellsFrom pa data)
    else s.emit (.inboundUR die.val fn))

/-- A read binds at its home, a commutative line after its recall. -/
def execInboundRead (die : DieNo) (fn pa keyid n : Nat) (s : State) : Host.Outcome State Fault Refusal :=
  .next (if (s.die die.val).st != .live then s
    else if s.inboundOk pa n then
      let lines := dedup ((List.range n).map fun i => lineOf (pa + i))
      let s := lines.foldl (fun (s : State) ln => s.recall ln) s
      s.emit (.inbound die.val fn (s.readHome keyid pa n))
    else s.emit (.inboundUR die.val fn))

/-- An atomic operation, or a write to a COMM or STAMPED line, is refused (R205, R339). -/
def execInboundRefused (die : DieNo) (fn pa : Nat) (atomic : Bool) (s : State) : Host.Outcome State Fault Refusal :=
  .next (if (s.die die.val).st == .live && (atomic || s.guardedLine pa) then s.refuseInbound die.val fn pa else s)

-- Links and expanders.

/-- Whether enumeration accepts what stands behind a port with CXL (R340): a type-3 expander without CXL.cache and without a switch. -/
def cxlAccepted (x : CxlDev) : Bool := !x.cache && x.type == 3 && !x.switch

/-- The port's links in a bifurcation of 1, 2 or 4: untrained ones where it changes. -/
def Link.as (l : Link) (ways : Nat) : Link :=
  if l.bifur = ways then l else ⟨ways, List.replicate ways ⟨false, false, 0⟩⟩

/-- The die kernel opens an expander's capacity as a window of the CXL range. -/
def State.openWindow (s : State) (die : Nat) (x : CxlDev) : State :=
  if 2 ^ 48 ≤ x.base ∧ x.base + x.len ≤ 2 ^ 51 then
    { s with phys := { s.phys with cxl := (s.phys.cxl.filter fun w => w.base != x.base) ++ [⟨die, x.base, x.len, false⟩] } }
  else s

/-- A link of a port, bifurcated as the die kernel configured it, trains to the highest rate that both ends support (R339); behind it
may stand a CXL device (R340). -/
def execLinkTraining (die : DieNo) (port : PortLink) (ends : LinkEnds) (s : State) : Host.Outcome State Fault Refusal :=
  let both := ends.ours.filter ends.theirs.contains
  let n := port.ways
  .next (if (s.die die.val).st != .live || !(n == 1 || n == 2 || n == 4) || decide (n ≤ port.link) || both.isEmpty then s
    else
      let cxl := match ends.dev with
        | some x => cxlAccepted x
        | none => false
      let s := s.modDie die.val fun d =>
        let l := d.link.as n
        { d with link := { l with links := l.links.set port.link ⟨true, cxl, maxOf both⟩ } }
      match ends.dev with
      | some x => if cxl then s.openWindow die.val x else s
      | none => s)

/-- An access in flight to a window that stops answering: reads complete with all ones, an LDAS's stamp among them, writes and atomics
are gone, and what an atomic would have returned reads as all ones too (R340, log entry 53). -/
def State.endCxl (s : State) (id : Nat) (a : Access) : State :=
  let ones : List (Cell × Nat) := match a.kind with
    | .load _ n ds => destVals (List.replicate n 0xFF) ds
    | .ldas _ n t _ ds st pr => ldasVals (List.replicate n 0xFF) (BitVec.allOnes 64) t ds st pr
    | .rmw _ lanes => lanes.filterMap fun l => l.ret.map fun c => (c, 0xFFFFFFFF)
    | _ => []
  ((s.deliver a.aid ones).performed id).afterAcquire a

def execCxlExpanderLost (die : DieNo) (window : Nat) (s : State) : Host.Outcome State Fault Refusal :=
  .next (match s.phys.cxl[window]? with
    | none => s
    | some w =>
      if w.die ≠ die.val ∨ w.lost then s
      else
        let within (a : Access) : Bool := a.loc.isNone && a.isMem && decide (w.base ≤ 128 * a.line) &&
          decide (128 * a.line < w.base + w.len) && (match a.st with
            | .buffer => false
            | .commitWait => false
            | _ => true)
        let hit := s.om.accs.filter fun p => within p.2
        let s := hit.foldl (fun (s : State) p => s.endCxl p.1 p.2) s
        { s with phys := { s.phys with cxl := s.phys.cxl.set window { w with lost := true } } })

end Sys2Proof.Machine
end

