-- ==== Sys2Proof/Machine/WarpInt.lean ====
section
/-!
DEFINITION. Group 1 of the warp engine: integer and bit operations (R174 to R177).
-/
namespace Sys2Proof.Machine

/-- The value of an operation on A and B in a lane. -/
def opAB (f : Word32 → Word32 → Word32) (a b : Operand) (e : WEnv) (l : Nat × Nat) : Word32 :=
  f (srcI e l a) (srcI e l b)

/-- The value of an operation on D, A and B in a lane. -/
def opDAB (f : Word32 → Word32 → Word32 → Word32) (d a b : Operand) (e : WEnv) (l : Nat × Nat) : Word32 :=
  f (regV e l d 0) (srcI e l a) (srcI e l b)

def execMov (c : Ctl) (d : Operand) (a : MovSrc) (s : State) : Host.Outcome State Fault Refusal :=
  fixedV (.mov c d a) c 4 d (fun e l =>
    match a with
    | .short o => srcI e l o
    | .long v => v) s

def execIadd (c : Ctl) (d a b : Operand) (s : State) : Host.Outcome State Fault Refusal :=
  fixedV (.iadd c d a b) c 4 d (opAB (fun x y => x + y) a b) s

def execIsub (c : Ctl) (d a b : Operand) (s : State) : Host.Outcome State Fault Refusal :=
  fixedV (.isub c d a b) c 4 d (opAB (fun x y => x - y) a b) s

def execImul (c : Ctl) (d a b : Operand) (s : State) : Host.Outcome State Fault Refusal :=
  fixedV (.imul c d a b) c 4 d (opAB (fun x y => x * y) a b) s

/-- The upper half of the exact product. -/
def mulHi {w : Nat} (uns : Bool) (x y : BitVec w) : BitVec w :=
  if uns then BitVec.ofNat w (x.toNat * y.toNat / 2 ^ w) else BitVec.ofInt w (x.toInt * y.toInt / 2 ^ w)

def execImulhi (c : Ctl) (uns : Bool) (d a b : Operand) (s : State) : Host.Outcome State Fault Refusal :=
  fixedV (.imulhi c uns d a b) c 4 d (opAB (mulHi uns) a b) s

def execImad (c : Ctl) (d a b : Operand) (s : State) : Host.Outcome State Fault Refusal :=
  fixedV (.imad c d a b) c 4 d (opDAB (fun z x y => z + x * y) d a b) s

def execIdiv (c : Ctl) (uns : Bool) (d a b : Operand) (s : State) : Host.Outcome State Fault Refusal :=
  fixedV (.idiv c uns d a b) c 12 d (opAB (fun x y => if uns then divU x y else divS x y) a b) s

def execIrem (c : Ctl) (uns : Bool) (d a b : Operand) (s : State) : Host.Outcome State Fault Refusal :=
  fixedV (.irem c uns d a b) c 12 d (opAB (fun x y => if uns then remU x y else remS x y) a b) s

/-- The lesser of two values, compared signed or unsigned; the greater by the same comparison. -/
def minBV {w : Nat} (uns : Bool) (x y : BitVec w) : BitVec w := if relInt .lt uns y x then y else x
def maxBV {w : Nat} (uns : Bool) (x y : BitVec w) : BitVec w := if relInt .lt uns x y then y else x

def execImin (c : Ctl) (uns : Bool) (d a b : Operand) (s : State) : Host.Outcome State Fault Refusal :=
  fixedV (.imin c uns d a b) c 4 d (opAB (minBV uns) a b) s

def execImax (c : Ctl) (uns : Bool) (d a b : Operand) (s : State) : Host.Outcome State Fault Refusal :=
  fixedV (.imax c uns d a b) c 4 d (opAB (maxBV uns) a b) s

def execIabs (c : Ctl) (d a : Operand) (s : State) : Host.Outcome State Fault Refusal :=
  fixedV (.iabs c d a) c 4 d (fun e l => let x := srcI e l a; if x.msb then 0 - x else x) s

def execAnd (c : Ctl) (d a b : Operand) (s : State) : Host.Outcome State Fault Refusal :=
  fixedV (.and c d a b) c 4 d (opAB (fun x y => x &&& y) a b) s

def execOr (c : Ctl) (d a b : Operand) (s : State) : Host.Outcome State Fault Refusal :=
  fixedV (.or c d a b) c 4 d (opAB (fun x y => x ||| y) a b) s

def execXor (c : Ctl) (d a b : Operand) (s : State) : Host.Outcome State Fault Refusal :=
  fixedV (.xor c d a b) c 4 d (opAB (fun x y => x ^^^ y) a b) s

def execNot (c : Ctl) (d a : Operand) (s : State) : Host.Outcome State Fault Refusal :=
  fixedV (.not c d a) c 4 d (fun e l => ~~~ srcI e l a) s

/-- Shift counts are taken modulo the width (R56). -/
def shl {w : Nat} (x y : BitVec w) : BitVec w := x <<< (y.toNat % w)
def shr {w : Nat} (uns : Bool) (x y : BitVec w) : BitVec w :=
  if uns then x >>> (y.toNat % w) else x.sshiftRight (y.toNat % w)

def execShl (c : Ctl) (d a b : Operand) (s : State) : Host.Outcome State Fault Refusal :=
  fixedV (.shl c d a b) c 4 d (opAB shl a b) s

def execShr (c : Ctl) (uns : Bool) (d a b : Operand) (s : State) : Host.Outcome State Fault Refusal :=
  fixedV (.shr c uns d a b) c 4 d (opAB (shr uns) a b) s

def execPopc (c : Ctl) (d a : Operand) (s : State) : Host.Outcome State Fault Refusal :=
  fixedV (.popc c d a) c 4 d (fun e l => w32 (popCount (srcI e l a))) s

def execClz (c : Ctl) (d a : Operand) (s : State) : Host.Outcome State Fault Refusal :=
  fixedV (.clz c d a) c 4 d (fun e l => w32 (leadZeros (srcI e l a))) s

def execBrev (c : Ctl) (d a : Operand) (s : State) : Host.Outcome State Fault Refusal :=
  fixedV (.brev c d a) c 4 d (fun e l => bitReverse (srcI e l a)) s

/-- Position p and the number m of field bits inside the word (R176). -/
def fieldPos (b : Word32) : Nat := b.toNat % 32
def fieldLen (b : Word32) : Nat := min (min (b.toNat / 256 % 64) 32) (32 - fieldPos b)

/-- BFE (R176). -/
def bitExtract (uns : Bool) (a b : Word32) : Word32 :=
  let m := fieldLen b
  let x := a.toNat / 2 ^ fieldPos b % 2 ^ m
  if m = 0 then 0
  else if !uns && decide (2 ^ (m - 1) ≤ x) then BitVec.ofInt 32 ((x : Int) - 2 ^ m)
  else w32 x

/-- BFI (R176). -/
def bitInsert (d a b : Word32) : Word32 :=
  let mask : Word32 := w32 ((2 ^ fieldLen b - 1) * 2 ^ fieldPos b)
  (d &&& ~~~mask) ||| ((a <<< fieldPos b) &&& mask)

def execBfe (c : Ctl) (uns : Bool) (d a b : Operand) (s : State) : Host.Outcome State Fault Refusal :=
  fixedV (.bfe c uns d a b) c 4 d (opAB (bitExtract uns) a b) s

def execBfi (c : Ctl) (d a b : Operand) (s : State) : Host.Outcome State Fault Refusal :=
  fixedV (.bfi c d a b) c 4 d (opDAB bitInsert d a b) s

/-- SEL (R177). -/
def execSel (c : Ctl) (p : PReg) (d a b : Operand) (s : State) : Host.Outcome State Fault Refusal :=
  fixedV (.sel c p d a b) c 4 d (fun e l =>
    if (e.b.thread l.2).getP p.val then srcI e l a else srcI e l b) s

end Sys2Proof.Machine
end

