-- ==== Sys2Proof/Machine/Sequencer.lean ====
section
/-!
DEFINITION. Group 12: the sequencer's own instructions (R127 to R137).
-/
namespace Sys2Proof.Machine

/-- A sequencer instruction that writes one S register. -/
def seqV (i : Instr) (c : Ctl) (d : SReg) (f : SEnv → Word64) (s : State) : Host.Outcome State Fault Refusal :=
  issueS i c (fun e => .ok (e.put (e.q.advance.put d.val (f e)))) s

/-- The value of an operation on A and B. -/
def opS (f : Word64 → Word64 → Word64) (a b : Operand) (e : SEnv) : Word64 := f (srcS e a) (srcS e b)

def execSmov (c : Ctl) (d : SReg) (a : SMovSrc) (s : State) : Host.Outcome State Fault Refusal :=
  seqV (.smov c d a) c d (fun e =>
    match a with
    | .short o => srcS e o
    | .sext v => v.signExtend 64
    | .zext v => v.setWidth 64) s

def execSmovh (c : Ctl) (d : SReg) (v : BitVec 32) (s : State) : Host.Outcome State Fault Refusal :=
  seqV (.smovh c d v) c d (fun e => v ++ (e.q.get d.val).setWidth 32) s

def execSadd (c : Ctl) (d : SReg) (a b : Operand) (s : State) : Host.Outcome State Fault Refusal :=
  seqV (.sadd c d a b) c d (opS (fun x y => x + y) a b) s

def execSsub (c : Ctl) (d : SReg) (a b : Operand) (s : State) : Host.Outcome State Fault Refusal :=
  seqV (.ssub c d a b) c d (opS (fun x y => x - y) a b) s

def execSmul (c : Ctl) (d : SReg) (a b : Operand) (s : State) : Host.Outcome State Fault Refusal :=
  seqV (.smul c d a b) c d (opS (fun x y => x * y) a b) s

def execSmulhi (c : Ctl) (uns : Bool) (d : SReg) (a b : Operand) (s : State) : Host.Outcome State Fault Refusal :=
  seqV (.smulhi c uns d a b) c d (opS (mulHi uns) a b) s

def execSdiv (c : Ctl) (uns : Bool) (d : SReg) (a b : Operand) (s : State) : Host.Outcome State Fault Refusal :=
  seqV (.sdiv c uns d a b) c d (opS (fun x y => if uns then divU x y else divS x y) a b) s

def execSrem (c : Ctl) (uns : Bool) (d : SReg) (a b : Operand) (s : State) : Host.Outcome State Fault Refusal :=
  seqV (.srem c uns d a b) c d (opS (fun x y => if uns then remU x y else remS x y) a b) s

def execSmin (c : Ctl) (uns : Bool) (d : SReg) (a b : Operand) (s : State) : Host.Outcome State Fault Refusal :=
  seqV (.smin c uns d a b) c d (opS (minBV uns) a b) s

def execSmax (c : Ctl) (uns : Bool) (d : SReg) (a b : Operand) (s : State) : Host.Outcome State Fault Refusal :=
  seqV (.smax c uns d a b) c d (opS (maxBV uns) a b) s

def execSand (c : Ctl) (d : SReg) (a b : Operand) (s : State) : Host.Outcome State Fault Refusal :=
  seqV (.sand c d a b) c d (opS (fun x y => x &&& y) a b) s

def execSor (c : Ctl) (d : SReg) (a b : Operand) (s : State) : Host.Outcome State Fault Refusal :=
  seqV (.sor c d a b) c d (opS (fun x y => x ||| y) a b) s

def execSxor (c : Ctl) (d : SReg) (a b : Operand) (s : State) : Host.Outcome State Fault Refusal :=
  seqV (.sxor c d a b) c d (opS (fun x y => x ^^^ y) a b) s

def execSshl (c : Ctl) (d : SReg) (a b : Operand) (s : State) : Host.Outcome State Fault Refusal :=
  seqV (.sshl c d a b) c d (opS shl a b) s

def execSshr (c : Ctl) (uns : Bool) (d : SReg) (a b : Operand) (s : State) : Host.Outcome State Fault Refusal :=
  seqV (.sshr c uns d a b) c d (opS (shr uns) a b) s

def execSpopc (c : Ctl) (d : SReg) (a : Operand) (s : State) : Host.Outcome State Fault Refusal :=
  seqV (.spopc c d a) c d (fun e => BitVec.ofNat 64 (popCount (srcS e a))) s

def execSclz (c : Ctl) (d : SReg) (a : Operand) (s : State) : Host.Outcome State Fault Refusal :=
  seqV (.sclz c d a) c d (fun e => BitVec.ofNat 64 (leadZeros (srcS e a))) s

def execSsel (c : Ctl) (q : QReg) (d : SReg) (a b : Operand) (s : State) : Host.Outcome State Fault Refusal :=
  seqV (.ssel c q d a b) c d (fun e => if e.q.getQ q.val then srcS e a else srcS e b) s

def execSset (c : Ctl) (rel : Rel) (uns : Bool) (q : QReg) (a b : Operand) (s : State) :
    Host.Outcome State Fault Refusal :=
  issueS (.sset c rel uns q a b) c
    (fun e => .ok (e.put (e.q.advance.putQ q.val (relInt rel uns (srcS e a) (srcS e b))))) s

def execQlop (c : Ctl) (tt : BitVec 4) (d a b : QReg) (s : State) : Host.Outcome State Fault Refusal :=
  issueS (.qlop c tt d a b) c
    (fun e => .ok (e.put (e.q.advance.putQ d.val (truthTable tt (e.q.getQ a.val) (e.q.getQ b.val))))) s

/-- The sequencer goes on at `pc`. -/
def SeqThread.advanceTo (q : SeqThread) (pc : Addr54) : SeqThread := { q with pc := pc, wait := .none }

def execSbr (c : Ctl) (off : Off) (s : State) : Host.Outcome State Fault Refusal :=
  issueS (.sbr c off) c (fun e => .ok (e.put (e.q.advanceTo (branchTo e.q.pc (offInt off))))) s

/-- SBRX (R136): the header is read and checked, then the index, then the entry. -/
def execSbrx (c : Ctl) (a : SReg) (table : BitVec 19) (s : State) : Host.Outcome State Fault Refusal :=
  issueS (.sbrx c a table) c (fun e =>
    let t := branchTo e.q.pc table.toInt
    match e.s.tableHead e.q.aid e.b t with
    | .error x => .error x
    | .ok (s1, count, mbz, _) =>
      let x := (e.q.get a.val).toNat
      if mbz then flt fBrxTarget 1 t.toNat
      else if count ≤ x then flt fBrxTarget 0 t.toNat
      else
        match s1.tableEntry e.q.aid e.b t x with
        | .error y => .error y
        | .ok (s2, pc) => .ok (({ e with s := s2 }).put (e.q.advanceTo pc))) s

/-- SCALL: the link is written after S[a] has been read. -/
def execScall (c : Ctl) (d : SReg) (t : SCallTgt) (s : State) : Host.Outcome State Fault Refusal :=
  issueS (.scall c d t) c (fun e =>
    let target : Addr54 := match t with
      | .short v => branchTo e.q.pc v.toInt
      | .long v => branchTo e.q.pc v.toInt
      | .reg a => (e.q.get a.val).setWidth 54
    if target.toNat % 4 ≠ 0 then flt fAlign 0 target.toNat
    else .ok (e.put ((e.q.advanceTo target).put d.val ((e.q.pc + 12).setWidth 64)))) s

def execSret (c : Ctl) (a : SReg) (s : State) : Host.Outcome State Fault Refusal :=
  issueS (.sret c a) c (fun e =>
    let target : Addr54 := (e.q.get a.val).setWidth 54
    if target.toNat % 4 ≠ 0 then flt fAlign 0 target.toNat
    else .ok (e.put (e.q.advanceTo target))) s

/-- DQPUSH (R130): discarded without a live warp and in a handler-only thread. Without a live warp R130 frees the entry at once, and
the instruction's pseudocode returns before it counts: the model's choice is to count the push (log entry 72). -/
def execDqpush (c : Ctl) (a : PushSrc) (s : State) : Host.Outcome State Fault Refusal :=
  issueS (.dqpush c a) c (fun e =>
    let v : Word64 := match a with
      | .short o => srcS e o
      | .long x => x.signExtend 64
    if e.q.handlerOnly then .ok (e.put e.q.advance)
    else if e.b.liveHomes.isEmpty then
      -- the entry is freed at once
      .ok (({ e with b := { e.b with dqBase := e.b.push + 1, dq := [] } }).put e.q.advance)
    else if 32 ≤ e.b.dq.length then waitOn .push e.s
    else .ok (({ e with b := { e.b with dq := e.b.dq ++ [v] } }).put e.q.advance)) s

def execWwaitDq (c : Ctl) (s : State) : Host.Outcome State Fault Refusal :=
  issueS (.wwaitDq c) c (fun e =>
    if e.b.liveHomes.all fun h => e.b.rdpos h == e.b.push then .ok (e.put e.q.advance)
    else waitOn .wwait e.s) s

/-- Whether every access of the warps in a mask is performed at BLK scope (R137). While paths run, every running warp counts:
a compacted warp may hold threads of any home warp. -/
def State.warpsDone (s : State) (b : Block) (mask : Nat) : Bool :=
  s.om.accs.all fun p =>
    match s.agent p.2.aid with
    | some r => (match r.kind with
      | .warp bk k => bk != b.id || (b.stack.isEmpty && !mask.testBit k) ||
          (s.perfAt true .blk p.2 && !p.2.isFence)
      | _ => true)
    | none => true

def execWwaitExit (c : Ctl) (d a : SReg) (s : State) : Host.Outcome State Fault Refusal :=
  issueS (.wwaitExit c d a) c (fun e =>
    let m := (e.q.get a.val).toNat % 2 ^ e.b.nWarps
    let live := e.b.liveHomes
    if (live.any fun h => m.testBit h) || !e.s.warpsDone e.b m then waitOn .wwait e.s
    else .ok (e.put (e.q.advance.put d.val ((maskOf live).setWidth 64)))) s

end Sys2Proof.Machine
end

