-- ==== Sys2Proof/Machine/WarpFp.lean ====
section
/-!
DEFINITION. Group 2 of the warp engine: binary32 and packed 16-bit arithmetic (R178 to R180), and group 3: conversions and
special functions (R181 to R186).
-/
namespace Sys2Proof.Machine

/-- An operation on binary32 sources A and B in a lane. -/
def opF (f : Nat → Nat → Nat) (a b : Operand) (e : WEnv) (l : Nat × Nat) : Word32 :=
  w32 (f (srcF e l a).toNat (srcF e l b).toNat)

def execFadd (c : Ctl) (rnd : Rnd) (d a b : Operand) (s : State) : Host.Outcome State Fault Refusal :=
  fixedV (.fadd c rnd d a b) c 5 d (opF (f32.add rnd) a b) s

def execFsub (c : Ctl) (rnd : Rnd) (d a b : Operand) (s : State) : Host.Outcome State Fault Refusal :=
  fixedV (.fsub c rnd d a b) c 5 d (opF (f32.sub rnd) a b) s

def execFmul (c : Ctl) (rnd : Rnd) (d a b : Operand) (s : State) : Host.Outcome State Fault Refusal :=
  fixedV (.fmul c rnd d a b) c 5 d (opF (f32.mul rnd) a b) s

def execFfma (c : Ctl) (rnd : Rnd) (d a b : Operand) (s : State) : Host.Outcome State Fault Refusal :=
  fixedV (.ffma c rnd d a b) c 5 d (fun e l =>
    w32 (f32.fma rnd (srcF e l a).toNat (srcF e l b).toNat (regV e l d 0).toNat)) s

def execFmin (c : Ctl) (d a b : Operand) (s : State) : Host.Outcome State Fault Refusal :=
  fixedV (.fmin c d a b) c 5 d (opF f32.minC a b) s

def execFmax (c : Ctl) (d a b : Operand) (s : State) : Host.Outcome State Fault Refusal :=
  fixedV (.fmax c d a b) c 5 d (opF f32.maxC a b) s

def execFabs (c : Ctl) (d a : Operand) (s : State) : Host.Outcome State Fault Refusal :=
  fixedV (.fabs c d a) c 5 d (fun e l => w32 (f32.enc .rne (f32.dec (srcF e l a).toNat).abs)) s

def execFneg (c : Ctl) (d a : Operand) (s : State) : Host.Outcome State Fault Refusal :=
  fixedV (.fneg c d a) c 5 d (fun e l => w32 (f32.enc .rne (f32.dec (srcF e l a).toNat).neg)) s

def execPkadd (c : Ctl) (rnd : Rnd) (bf : Bool) (d a b : Operand) (s : State) : Host.Outcome State Fault Refusal :=
  fixedV (.pkadd c rnd bf d a b) c 5 d (fun e l =>
    packed (fun x y _ => (pkFmt bf).add rnd x y) (srcI e l a) (srcI e l b) 0) s

def execPkmul (c : Ctl) (rnd : Rnd) (bf : Bool) (d a b : Operand) (s : State) : Host.Outcome State Fault Refusal :=
  fixedV (.pkmul c rnd bf d a b) c 5 d (fun e l =>
    packed (fun x y _ => (pkFmt bf).mul rnd x y) (srcI e l a) (srcI e l b) 0) s

def execPkfma (c : Ctl) (rnd : Rnd) (bf : Bool) (d a b : Operand) (s : State) : Host.Outcome State Fault Refusal :=
  fixedV (.pkfma c rnd bf d a b) c 5 d (fun e l =>
    packed ((pkFmt bf).fma rnd) (srcI e l a) (srcI e l b) (regV e l d 0)) s

def execPkmin (c : Ctl) (bf : Bool) (d a b : Operand) (s : State) : Host.Outcome State Fault Refusal :=
  fixedV (.pkmin c bf d a b) c 5 d (fun e l =>
    packed (fun x y _ => (pkFmt bf).minC x y) (srcI e l a) (srcI e l b) 0) s

def execPkmax (c : Ctl) (bf : Bool) (d a b : Operand) (s : State) : Host.Outcome State Fault Refusal :=
  fixedV (.pkmax c bf d a b) c 5 d (fun e l =>
    packed (fun x y _ => (pkFmt bf).maxC x y) (srcI e l a) (srcI e l b) 0) s

/-- CVT (R182). -/
def cvtValue (code : CvtCode) (rnd : Rnd) (a : Word32) : Word32 :=
  let x := f32.dec a.toNat
  let lo := a.toNat % 2 ^ 16
  match code with
  | .f32s32 => w32 (f32.enc rnd (FV.ofInt a.toInt))
  | .f32u32 => w32 (f32.enc rnd (FV.ofInt a.toNat))
  | .s32f32 => BitVec.ofInt 32 (x.toInt rnd (-(2 ^ 31)) (2 ^ 31 - 1))
  | .u32f32 => BitVec.ofInt 32 (x.toInt rnd 0 (2 ^ 32 - 1))
  | .f16f32 => w32 (f16.enc rnd x)
  | .bf16f32 => w32 (bf16.enc rnd x)
  | .f32f16 => w32 (f32.enc rnd (f16.dec lo))
  | .f32bf16 => w32 (f32.enc rnd (bf16.dec lo))
  | .f32f32 => w32 (f32.enc rnd (x.integral rnd))

def execCvt (c : Ctl) (code : CvtCode) (rnd : Rnd) (d a : Operand) (s : State) :
    Host.Outcome State Fault Refusal :=
  fixedV (.cvt c code rnd d a) c 6 d (fun e l => cvtValue code rnd (srcI e l a)) s

/-- Replace byte `k` of a word. -/
def setByte (x : Word32) (k v : Nat) : Word32 :=
  (x &&& ~~~(0xFF#32 <<< (8 * k))) ||| (w32 (v % 256) <<< (8 * k))

/-- The values CVT8 converts, in element order (R184). -/
def cvt8Elems (ctl : BitVec 19) (a : Word32) : List FV :=
  if ctl.getLsbD 8 then
    let f := if ctl.getLsbD 9 then bf16 else f16
    [f.dec (a.toNat % 2 ^ 16), f.dec (a.toNat / 2 ^ 16)]
  else [f32.dec a.toNat]

/-- CVT8 in a lane: D's new value and RNG after its steps (R61, R184). -/
def cvt8Go (f : B8) (rnd : Cvt8Rnd) (sat : Bool) : List FV → Nat → Word32 → Word32 → Word32 × Word32
  | [], _, x, rng => (x, rng)
  | v :: t, k, x, rng =>
    match rnd with
    | .mode r => cvt8Go f rnd sat t (k + 1) (setByte x k (f.enc (.mode r) sat v)) rng
    | .sr => cvt8Go f rnd sat t (k + 1) (setByte x k (f.enc (.sr (rng.toNat % 256)) sat v)) (rngStep rng)

def cvt8Lane (rnd : Cvt8Rnd) (sat : Bool) (ctl : BitVec 19) (a d rng : Word32) : Word32 × Word32 :=
  cvt8Go (B8.ofCode (ctl.toNat % 64)) rnd sat (cvt8Elems ctl a) (ctl.toNat / 64 % 4) d rng

/-- CVT8 (R184): RNG steps at issue in the active lanes. -/
def execCvt8 (c : Ctl) (rnd : Cvt8Rnd) (sat : Bool) (d a : Operand) (ctl : BitVec 19) (s : State) :
    Host.Outcome State Fault Refusal :=
  issueW (.cvt8 c rnd sat d a ctl) c (fun e =>
    let out (l : Nat × Nat) : Word32 × Word32 :=
      cvt8Lane rnd sat ctl (srcI e l a) (regV e l d 0) (e.b.thread l.2).rng
    let b := e.eff.foldl (fun b l => b.modThread l.2 fun th => { th with rng := (out l).2 }) e.b
    .ok (retireFixed { e with b := b } (.cvt8 c rnd sat d a ctl) 6 (perLane e d fun l => (out l).1))) s

/-- CVTF8 in a lane (R185). -/
def cvtf8Value (rnd : Rnd) (ctl : BitVec 19) (a : Word32) : Word32 :=
  let f := B8.ofCode (ctl.toNat % 64)
  let pos := ctl.toNat / 64 % 4
  let at_ (k : Nat) : FV := f.dec (a.toNat / 2 ^ (8 * k) % 256)
  let two (g : Fmt) (r : Rnd) : Word32 :=
    BitVec.ofNat 16 (g.enc r (at_ (pos + 1))) ++ BitVec.ofNat 16 (g.enc r (at_ pos))
  match ctl.toNat / 256 % 4 with
  | 0 => w32 (f32.enc rnd (at_ pos))
  | 1 => two f16 rnd
  | _ => two bf16 rnd

def execCvtf8 (c : Ctl) (rnd : Rnd) (d a : Operand) (ctl : BitVec 19) (s : State) :
    Host.Outcome State Fault Refusal :=
  fixedV (.cvtf8 c rnd d a ctl) c 6 d (fun e l => cvtf8Value rnd ctl (srcI e l a)) s

/-- SFU (R186). -/
def execSfu (c : Ctl) (fn : SfuFn) (d a : Operand) (s : State) : Host.Outcome State Fault Refusal :=
  fixedV (.sfu c fn d a) c 12 d (fun e l => sfu fn (srcI e l a)) s

end Sys2Proof.Machine
end

