-- ==== Sys2Proof/Machine/WarpMisc.lean ====
section
/-!
DEFINITION. Group 4 of the warp engine: predicates, cross-lane operations, index registers and MSR (R187 to R194).
-/
namespace Sys2Proof.Machine

/-- One predicate per effective lane. -/
def perPred (e : WEnv) (p : Nat) (f : Nat × Nat → Bool) : Res :=
  ⟨[], e.eff.map fun l => (.p l.2 p, (f l).toNat)⟩

def execIset (c : Ctl) (rel : Rel) (uns : Bool) (p : PReg) (a b : Operand) (s : State) :
    Host.Outcome State Fault Refusal :=
  issueW (.iset c rel uns p a b) c (fun e =>
    .ok (retireFixed e (.iset c rel uns p a b) 2
      (perPred e p.val fun l => relInt rel uns (srcI e l a) (srcI e l b)))) s

def execFset (c : Ctl) (rel : Rel) (p : PReg) (a b : Operand) (s : State) : Host.Outcome State Fault Refusal :=
  issueW (.fset c rel p a b) c (fun e =>
    .ok (retireFixed e (.fset c rel p a b) 2 (perPred e p.val fun l => relF32 rel (srcF e l a) (srcF e l b)))) s

def execPlop (c : Ctl) (tt : BitVec 4) (d a b : PReg) (s : State) : Host.Outcome State Fault Refusal :=
  issueW (.plop c tt d a b) c (fun e =>
    .ok (retireFixed e (.plop c tt d a b) 2
      (perPred e d.val fun l => truthTable tt ((e.b.thread l.2).getP a.val) ((e.b.thread l.2).getP b.val)))) s

/-- PMOV to a V register (R189). -/
def execPmov (c : Ctl) (d : Operand) (s : State) : Host.Outcome State Fault Refusal :=
  fixedV (.pmov c d) c 2 d (fun e l => ((e.b.thread l.2).p).setWidth 32) s

/-- PMOV from a V register: all twelve predicates. -/
def execPmovP (c : Ctl) (a : Operand) (s : State) : Host.Outcome State Fault Refusal :=
  issueW (.pmovP c a) c (fun e =>
    .ok (retireFixed e (.pmovP c a) 2 ⟨[], e.eff.flatMap fun l =>
      let v := srcI e l a
      (List.range 12).map fun n => (.p l.2 n, (v.getLsbD n).toNat)⟩)) s

/-- The thread a SHFL names, or none (R190). -/
def shflSource (mode : ShflMode) (n t : Nat) (b : Word32) : Option Nat :=
  let src : Int := match mode with
    | .idx => b.toNat
    | .up => (t : Int) - b.toNat
    | .down => (t : Int) + b.toNat
    | .xor => (t ^^^ b.toNat : Nat)
  if src < 0 ∨ (n : Int) ≤ src then none else some src.toNat

/-- A lane's SHFL: the value, and whether the source supplied it. -/
def shflLane (e : WEnv) (mode : ShflMode) (a b : Operand) (l : Nat × Nat) : Word32 × Bool :=
  match shflSource mode e.b.nThreads l.2 (srcI e l b) with
  | none => (poison, false)
  | some t =>
    if (e.b.remap.getD t 0).getLsbD 5 && e.w.lanes.contains (some t) && (e.b.thread t).live then
      (readV e.b e.w t (regOf e.b t a), true)
    else (poison, false)

def execShfl (c : Ctl) (mode : ShflMode) (pr : Option PReg) (d a b : Operand) (s : State) :
    Host.Outcome State Fault Refusal :=
  issueW (.shfl c mode pr d a b) c (fun e =>
    let preds := match pr with
      | some p => e.eff.map fun l => (Cell.p l.2 p.val, (shflLane e mode a b l).2.toNat)
      | none => []
    .ok (retireFixed e (.shfl c mode pr d a b) 8
      ⟨(perLane e d fun l => (shflLane e mode a b l).1).v, preds⟩)) s

/-- "h(l)" of R191. -/
def senseOf (e : WEnv) (sense : Bool) (a : PReg) (l : Nat × Nat) : Bool := (e.b.thread l.2).getP a.val != sense

def execAgree (c : Ctl) (mode : AgreeMode) (sense : Bool) (d a : PReg) (s : State) :
    Host.Outcome State Fault Refusal :=
  issueW (.agree c mode sense d a) c (fun e =>
    let v := agree mode (e.eff.map (senseOf e sense a))
    .ok (retireFixed e (.agree c mode sense d a) 8 (perPred e d.val fun _ => v))) s

def execBallot (c : Ctl) (sense : Bool) (d : Operand) (a : PReg) (s : State) : Host.Outcome State Fault Refusal :=
  fixedV (.ballot c sense d a) c 8 d (fun e _ => lanesMask (e.eff.filter (senseOf e sense a))) s

/-- REMAP (R192). -/
def execRemap (c : Ctl) (d a : Operand) (s : State) : Host.Outcome State Fault Refusal :=
  fixedV (.remap c d a) c 8 d (fun e l =>
    let t := (srcI e l a).toNat
    if t < e.b.nThreads then (e.b.remap.getD t 0).setWidth 32 else 0) s

/-- XWIN (R193): the window of the home warp of every effective thread. -/
def execXwin (c : Ctl) (x : XReg) (base len : BitVec 19) (s : State) : Host.Outcome State Fault Refusal :=
  issueW (.xwin c x base len) c (fun e =>
    let homes := dedup (e.eff.map fun l => l.2 / 32)
    .ok (retireFixed e (.xwin c x base len) 4
      ⟨[], homes.map fun h => (.xwin h x.val, base.toNat * 512 + len.toNat)⟩)) s

/-- XSET (R193). -/
def execXset (c : Ctl) (x : XReg) (a : Operand) (s : State) : Host.Outcome State Fault Refusal :=
  issueW (.xset c x a) c (fun e =>
    .ok (retireFixed e (.xset c x a) 4
      ⟨[], e.eff.map fun l => (.x l.2 x.val, (srcI e l a).toNat % 2 ^ 16)⟩)) s

/-- MSR (R194, R61): the write has taken effect when the next instruction issues. -/
def execMsr (c : Ctl) (sp : MsrReg) (a : Operand) (s : State) : Host.Outcome State Fault Refusal :=
  issueW (.msr c sp a) c (fun e =>
    let i : Instr := .msr c sp a
    let b := killMarks e.b e.eff i
    let b := match sp with
      | .rng => e.eff.foldl (fun b l => b.modThread l.2 fun th => { th with rng := rngWrite (srcI e l a) }) b
      | .schk => match e.eff with
        | [] => b
        | l :: _ =>
          let on := (srcI e l a).getLsbD 0
          (dedup (e.eff.map fun l => l.2 / 32)).foldl (fun b h =>
            { b with homes := b.homes.modify h fun x => { x with schk := on } }) b
    .ok (e.put b (e.w.advance c))) s

end Sys2Proof.Machine
end

