-- ==== Sys2Proof/Machine/Dispatch.lean ====
section
/-!
DEFINITION. The meaning of every row of the opcode table: one direct call each.
-/
namespace Sys2Proof.Machine

def exec (i : Instr) (s : State) : Host.Outcome State Fault Refusal :=
  match i with
  | .nop c => Sys2Proof.Machine.execNop c s
  | .br c off => Sys2Proof.Machine.execBr c off s
  | .brd c target join => Sys2Proof.Machine.execBrd c target join s
  | .brx c a table => Sys2Proof.Machine.execBrx c a table s
  | .call c d off => Sys2Proof.Machine.execCall c d off s
  | .ret c a => Sys2Proof.Machine.execRet c a s
  | .brq c off => Sys2Proof.Machine.execBrq c off s
  | .movq c d => Sys2Proof.Machine.execMovq c d s
  | .ifOpen c sense p => Sys2Proof.Machine.execIf c sense p s
  | .elseFlip c => Sys2Proof.Machine.execElse c s
  | .endIf c => Sys2Proof.Machine.execEndif c s
  | .loop c => Sys2Proof.Machine.execLoop c s
  | .brkLoop c sense depth p => Sys2Proof.Machine.execBrkLoop c sense depth p s
  | .cont c sense depth p => Sys2Proof.Machine.execCont c sense depth p s
  | .endl c off => Sys2Proof.Machine.execEndl c off s
  | .bar c => Sys2Proof.Machine.execBar c s
  | .barTeam c => Sys2Proof.Machine.execBarTeam c s
  | .mov c d a => Sys2Proof.Machine.execMov c d a s
  | .iadd c d a b => Sys2Proof.Machine.execIadd c d a b s
  | .isub c d a b => Sys2Proof.Machine.execIsub c d a b s
  | .imul c d a b => Sys2Proof.Machine.execImul c d a b s
  | .imulhi c uns d a b => Sys2Proof.Machine.execImulhi c uns d a b s
  | .imad c d a b => Sys2Proof.Machine.execImad c d a b s
  | .idiv c uns d a b => Sys2Proof.Machine.execIdiv c uns d a b s
  | .irem c uns d a b => Sys2Proof.Machine.execIrem c uns d a b s
  | .imin c uns d a b => Sys2Proof.Machine.execImin c uns d a b s
  | .imax c uns d a b => Sys2Proof.Machine.execImax c uns d a b s
  | .iabs c d a => Sys2Proof.Machine.execIabs c d a s
  | .and c d a b => Sys2Proof.Machine.execAnd c d a b s
  | .or c d a b => Sys2Proof.Machine.execOr c d a b s
  | .xor c d a b => Sys2Proof.Machine.execXor c d a b s
  | .not c d a => Sys2Proof.Machine.execNot c d a s
  | .shl c d a b => Sys2Proof.Machine.execShl c d a b s
  | .shr c uns d a b => Sys2Proof.Machine.execShr c uns d a b s
  | .popc c d a => Sys2Proof.Machine.execPopc c d a s
  | .clz c d a => Sys2Proof.Machine.execClz c d a s
  | .brev c d a => Sys2Proof.Machine.execBrev c d a s
  | .bfe c uns d a b => Sys2Proof.Machine.execBfe c uns d a b s
  | .bfi c d a b => Sys2Proof.Machine.execBfi c d a b s
  | .sel c p d a b => Sys2Proof.Machine.execSel c p d a b s
  | .fadd c rnd d a b => Sys2Proof.Machine.execFadd c rnd d a b s
  | .fsub c rnd d a b => Sys2Proof.Machine.execFsub c rnd d a b s
  | .fmul c rnd d a b => Sys2Proof.Machine.execFmul c rnd d a b s
  | .ffma c rnd d a b => Sys2Proof.Machine.execFfma c rnd d a b s
  | .fmin c d a b => Sys2Proof.Machine.execFmin c d a b s
  | .fmax c d a b => Sys2Proof.Machine.execFmax c d a b s
  | .fabs c d a => Sys2Proof.Machine.execFabs c d a s
  | .fneg c d a => Sys2Proof.Machine.execFneg c d a s
  | .pkadd c rnd bf d a b => Sys2Proof.Machine.execPkadd c rnd bf d a b s
  | .pkmul c rnd bf d a b => Sys2Proof.Machine.execPkmul c rnd bf d a b s
  | .pkfma c rnd bf d a b => Sys2Proof.Machine.execPkfma c rnd bf d a b s
  | .pkmin c bf d a b => Sys2Proof.Machine.execPkmin c bf d a b s
  | .pkmax c bf d a b => Sys2Proof.Machine.execPkmax c bf d a b s
  | .cvt c code rnd d a => Sys2Proof.Machine.execCvt c code rnd d a s
  | .cvt8 c rnd sat d a ctl => Sys2Proof.Machine.execCvt8 c rnd sat d a ctl s
  | .cvtf8 c rnd d a ctl => Sys2Proof.Machine.execCvtf8 c rnd d a ctl s
  | .sfu c fn d a => Sys2Proof.Machine.execSfu c fn d a s
  | .iset c rel uns p a b => Sys2Proof.Machine.execIset c rel uns p a b s
  | .fset c rel p a b => Sys2Proof.Machine.execFset c rel p a b s
  | .plop c tt d a b => Sys2Proof.Machine.execPlop c tt d a b s
  | .pmov c d => Sys2Proof.Machine.execPmov c d s
  | .pmovP c a => Sys2Proof.Machine.execPmovP c a s
  | .shfl c mode pr d a b => Sys2Proof.Machine.execShfl c mode pr d a b s
  | .agree c mode sense d a => Sys2Proof.Machine.execAgree c mode sense d a s
  | .ballot c sense d a => Sys2Proof.Machine.execBallot c sense d a s
  | .remap c d a => Sys2Proof.Machine.execRemap c d a s
  | .xwin c x base len => Sys2Proof.Machine.execXwin c x base len s
  | .xset c x a => Sys2Proof.Machine.execXset c x a s
  | .msr c sp a => Sys2Proof.Machine.execMsr c sp a s
  | .ld c mode d a disp => Sys2Proof.Machine.execLd c mode d a disp s
  | .st c mode d a disp => Sys2Proof.Machine.execSt c mode d a disp s
  | .ldl c mode d a disp => Sys2Proof.Machine.execLdl c mode d a disp s
  | .stl c mode d a disp => Sys2Proof.Machine.execStl c mode d a disp s
  | .pref c lvl a disp => Sys2Proof.Machine.execPref c lvl a disp s
  | .fence c sc => Sys2Proof.Machine.execFence c sc s
  | .clean c a count => Sys2Proof.Machine.execClean c a count s
  | .inval c a count => Sys2Proof.Machine.execInval c a count s
  | .atom c op d a b => Sys2Proof.Machine.execAtom c op d a b s
  | .acas c exch ord d a b => Sys2Proof.Machine.execAcas c exch ord d a b s
  | .redM c op fmt a b => Sys2Proof.Machine.execRedM c op fmt a b s
  | .redC c sz a b => Sys2Proof.Machine.execRedC c sz a b s
  | .clk c d => Sys2Proof.Machine.execClk c d s
  | .sts c b64 d a b => Sys2Proof.Machine.execSts c b64 d a b s
  | .ldas c pr b64 d a b => Sys2Proof.Machine.execLdas c pr b64 d a b s
  | .cwait c a => Sys2Proof.Machine.execCwait c a s
  | .bara c bar d => Sys2Proof.Machine.execBara c bar d s
  | .barw c bar a => Sys2Proof.Machine.execBarw c bar a s
  | .tdclr c d a => Sys2Proof.Machine.execTdclr c d a s
  | .mma c start d a => Sys2Proof.Machine.execMma c start d a s
  | .mmaA c start d a => Sys2Proof.Machine.execMmaA c start d a s
  | .mmaS c start tag d a b => Sys2Proof.Machine.execMmaS c start tag d a b s
  | .mcommit c batch => Sys2Proof.Machine.execMcommit c batch s
  | .mwait c batch => Sys2Proof.Machine.execMwait c batch s
  | .accz c bank count => Sys2Proof.Machine.execAccz c bank count s
  | .accld c raw bank a ctl => Sys2Proof.Machine.execAccld c raw bank a ctl s
  | .accst c kind clr bank a ctl => Sys2Proof.Machine.execAccst c kind clr bank a ctl s
  | .accfold c bank count => Sys2Proof.Machine.execAccfold c bank count s
  | .shcommit c tag => Sys2Proof.Machine.execShcommit c tag s
  | .shdrop c tag => Sys2Proof.Machine.execShdrop c tag s
  | .cpy c q route d a b => Sys2Proof.Machine.execCpy c q route d a b s
  | .cpys c q route d a b => Sys2Proof.Machine.execCpys c q route d a b s
  | .cpyx c q route d a b => Sys2Proof.Machine.execCpyx c q route d a b s
  | .qfence c mask => Sys2Proof.Machine.execQfence c mask s
  | .seqrd c q kind d => Sys2Proof.Machine.execSeqrd c q kind d s
  | .seqwait c q a => Sys2Proof.Machine.execSeqwait c q a s
  | .stinit c d a => Sys2Proof.Machine.execStinit c d a s
  | .starr c d => Sys2Proof.Machine.execStarr c d s
  | .stwait c a => Sys2Proof.Machine.execStwait c a s
  | .hrev c d a => Sys2Proof.Machine.execHrev c d a s
  | .mgath c q g sum a => Sys2Proof.Machine.execMgath c q g sum a s
  | .mconvCvt c q a => Sys2Proof.Machine.execMconvCvt c q a s
  | .mconvStripe c q a => Sys2Proof.Machine.execMconvStripe c q a s
  | .mxv c q a => Sys2Proof.Machine.execMxv c q a s
  | .mseqwait c q a => Sys2Proof.Machine.execMseqwait c q a s
  | .mrstat c q kind d => Sys2Proof.Machine.execMrstat c q kind d s
  | .npost c q a => Sys2Proof.Machine.execNpost c q a s
  | .ncnt c err d a => Sys2Proof.Machine.execNcnt c err d a s
  | .nwait c a b => Sys2Proof.Machine.execNwait c a b s
  | .rngpeek c d a => Sys2Proof.Machine.execRngpeek c d a s
  | .rngadv c d a b => Sys2Proof.Machine.execRngadv c d a b s
  | .rngstatPeek c d a => Sys2Proof.Machine.execRngstatPeek c d a s
  | .rngstatReset c d a => Sys2Proof.Machine.execRngstatReset c d a s
  | .nqfence c a => Sys2Proof.Machine.execNqfence c a s
  | .spawn c d a => Sys2Proof.Machine.execSpawn c d a s
  | .spawnr c rangel d a b => Sys2Proof.Machine.execSpawnr c rangel d a b s
  | .joindec c a => Sys2Proof.Machine.execJoindec c a s
  | .exit c => Sys2Proof.Machine.execExit c s
  | .exitJ c a => Sys2Proof.Machine.execExitJ c a s
  | .exitK c => Sys2Proof.Machine.execExitK c s
  | .yieldTeam c d => Sys2Proof.Machine.execYield c d s
  | .tret c => Sys2Proof.Machine.execTret c s
  | .tretSkip c => Sys2Proof.Machine.execTretSkip c s
  | .wfld c f d => Sys2Proof.Machine.execWfld c f d s
  | .claim c a => Sys2Proof.Machine.execClaim c a s
  | .take c a => Sys2Proof.Machine.execTake c a s
  | .taket c d a => Sys2Proof.Machine.execTaket c d a s
  | .give c a => Sys2Proof.Machine.execGive c a s
  | .giveall c => Sys2Proof.Machine.execGiveall c s
  | .hold c k d => Sys2Proof.Machine.execHold c k d s
  | .smov c d a => Sys2Proof.Machine.execSmov c d a s
  | .smovh c d v => Sys2Proof.Machine.execSmovh c d v s
  | .sadd c d a b => Sys2Proof.Machine.execSadd c d a b s
  | .ssub c d a b => Sys2Proof.Machine.execSsub c d a b s
  | .smul c d a b => Sys2Proof.Machine.execSmul c d a b s
  | .smulhi c uns d a b => Sys2Proof.Machine.execSmulhi c uns d a b s
  | .sdiv c uns d a b => Sys2Proof.Machine.execSdiv c uns d a b s
  | .srem c uns d a b => Sys2Proof.Machine.execSrem c uns d a b s
  | .smin c uns d a b => Sys2Proof.Machine.execSmin c uns d a b s
  | .smax c uns d a b => Sys2Proof.Machine.execSmax c uns d a b s
  | .sand c d a b => Sys2Proof.Machine.execSand c d a b s
  | .sor c d a b => Sys2Proof.Machine.execSor c d a b s
  | .sxor c d a b => Sys2Proof.Machine.execSxor c d a b s
  | .sshl c d a b => Sys2Proof.Machine.execSshl c d a b s
  | .sshr c uns d a b => Sys2Proof.Machine.execSshr c uns d a b s
  | .spopc c d a => Sys2Proof.Machine.execSpopc c d a s
  | .sclz c d a => Sys2Proof.Machine.execSclz c d a s
  | .ssel c q d a b => Sys2Proof.Machine.execSsel c q d a b s
  | .sset c rel uns q a b => Sys2Proof.Machine.execSset c rel uns q a b s
  | .qlop c tt d a b => Sys2Proof.Machine.execQlop c tt d a b s
  | .sbr c off => Sys2Proof.Machine.execSbr c off s
  | .sbrx c a table => Sys2Proof.Machine.execSbrx c a table s
  | .scall c d t => Sys2Proof.Machine.execScall c d t s
  | .sret c a => Sys2Proof.Machine.execSret c a s
  | .dqpush c a => Sys2Proof.Machine.execDqpush c a s
  | .wwaitDq c => Sys2Proof.Machine.execWwaitDq c s
  | .wwaitExit c d a => Sys2Proof.Machine.execWwaitExit c d a s
  | .svc c d a n => Sys2Proof.Machine.execSvc c d a n s
  | .svcp c d a n => Sys2Proof.Machine.execSvcp c d a n s
  | .trap c code a => Sys2Proof.Machine.execTrap c code a s
  | .brk c v => Sys2Proof.Machine.execBrk c v s
  | .tdmask c k d => Sys2Proof.Machine.execTdmask c k d s
  | .reservedOpcodeIssue w => Sys2Proof.Machine.execReservedOpcodeIssue w s
  | .speculationResolve tag => Sys2Proof.Machine.execSpeculationResolve tag s
  | .drain acc => Sys2Proof.Machine.execDrain acc s
  | .commit acc => Sys2Proof.Machine.execCommit acc s
  | .transit acc => Sys2Proof.Machine.execTransit acc s
  | .serve line => Sys2Proof.Machine.execServe line s
  | .load acc => Sys2Proof.Machine.execLoadEvent acc s
  | .expire die line => Sys2Proof.Machine.execExpire die line s
  | .beginEntry id => Sys2Proof.Machine.execBeginEntry id s
  | .completeEntry id => Sys2Proof.Machine.execCompleteEntry id s
  | .baseop stack => Sys2Proof.Machine.execBaseop stack s
  | .append die hw body => Sys2Proof.Machine.execAppend die hw body s
  | .deliver die => Sys2Proof.Machine.execDeliver die s
  | .requestRefusedRetry acc => Sys2Proof.Machine.execRequestRefusedRetry acc s
  | .windrowEvict die slice line => Sys2Proof.Machine.execWindrowEvict die slice line s
  | .partialCombine die line => Sys2Proof.Machine.execPartialCombine die line s
  | .writeback die line => Sys2Proof.Machine.execWriteback die line s
  | .swmCopyDrop die line => Sys2Proof.Machine.execSwmCopyDrop die line s
  | .replicaWrite acc => Sys2Proof.Machine.execReplicaWrite acc s
  | .translationWalkEnd die ctx page => Sys2Proof.Machine.execTranslationWalkEnd die ctx page s
  | .hamperScan die => Sys2Proof.Machine.execHamperScan die s
  | .preempt die => Sys2Proof.Machine.execPreempt die s
  | .blockEnd blk => Sys2Proof.Machine.execBlockEnd blk s
  | .prioRaise die ctx team prio => Sys2Proof.Machine.execPrioRaise die ctx team prio s
  | .matrixOpfault entry addr aux => Sys2Proof.Machine.execMatrixOpfault entry addr aux s
  | .zeroingDone core => Sys2Proof.Machine.execZeroingDone core s
  | .retransmit entry pkt => Sys2Proof.Machine.execRetransmit entry pkt s
  | .packetAck entry pkt ok => Sys2Proof.Machine.execPacketAck entry pkt ok s
  | .packetReceive die p => Sys2Proof.Machine.execPacketReceive die p s
  | .sendReceive die p => Sys2Proof.Machine.execSendReceive die p s
  | .uudPlacementTimeout die conn msg => Sys2Proof.Machine.execUudPlacementTimeout die conn msg s
  | .frameReceive die f => Sys2Proof.Machine.execFrameReceive die f s
  | .timeUpdate die earliest latest => Sys2Proof.Machine.execTimeUpdate die earliest latest s
  | .holdover die => Sys2Proof.Machine.execHoldover die s
  | .barrierArrivalAccept acc => Sys2Proof.Machine.execBarrierArrivalAccept acc s
  | .barrierRelease bar => Sys2Proof.Machine.execBarrierRelease bar s
  | .barrierReset bar => Sys2Proof.Machine.execBarrierReset bar s
  | .replyWrite die tag value denied => Sys2Proof.Machine.execReplyWrite die tag value denied s
  | .svcForward blk resume => Sys2Proof.Machine.execSvcForward blk resume s
  | .svcMap die => Sys2Proof.Machine.execSvcMap die s
  | .svcUnmap die => Sys2Proof.Machine.execSvcUnmap die s
  | .cmdQuota die => Sys2Proof.Machine.execCmdQuota die s
  | .cmdFuse die => Sys2Proof.Machine.execCmdFuse die s
  | .cmdPlace die => Sys2Proof.Machine.execCmdPlace die s
  | .cmdMap die => Sys2Proof.Machine.execCmdMap die s
  | .cmdUnmap die => Sys2Proof.Machine.execCmdUnmap die s
  | .cmdRegion die => Sys2Proof.Machine.execCmdRegion die s
  | .cmdCommdecl die => Sys2Proof.Machine.execCmdCommdecl die s
  | .cmdKeyload die => Sys2Proof.Machine.execCmdKeyload die s
  | .cmdBarset die => Sys2Proof.Machine.execCmdBarset die s
  | .cmdHandover die => Sys2Proof.Machine.execCmdHandover die s
  | .cmdCoreoff die => Sys2Proof.Machine.execCmdCoreoff die s
  | .cmdCoreon die => Sys2Proof.Machine.execCmdCoreon die s
  | .cmdRehome die => Sys2Proof.Machine.execCmdRehome die s
  | .cmdCheckpoint die => Sys2Proof.Machine.execCmdCheckpoint die s
  | .inv die => Sys2Proof.Machine.execInv die s
  | .ack die initiator gen => Sys2Proof.Machine.execAck die initiator gen s
  | .commitMsg die => Sys2Proof.Machine.execCommitMsg die s
  | .diedown die => Sys2Proof.Machine.execDiedown die s
  | .fenced die target => Sys2Proof.Machine.execFenced die target s
  | .dieup x => Sys2Proof.Machine.execDieup x s
  | .elect die => Sys2Proof.Machine.execElect die s
  | .halt die cluster set => Sys2Proof.Machine.execHalt die cluster set s
  | .throtClear die => Sys2Proof.Machine.execThrotClear die s
  | .registerWrite die addr value => Sys2Proof.Machine.execRegisterWrite die addr value s
  | .clockStepDown pmod tj => Sys2Proof.Machine.execClockStepDown pmod tj s
  | .clockStepUp pmod tj => Sys2Proof.Machine.execClockStepUp pmod tj s
  | .overtempReset die tj => Sys2Proof.Machine.execOvertempReset die tj s
  | .powerGood x => Sys2Proof.Machine.execPowerGood x s
  | .packageReset => Sys2Proof.Machine.execPackageReset s
  | .dieReset die => Sys2Proof.Machine.execDieReset die s
  | .getVersion die side => Sys2Proof.Machine.execGetVersion die side s
  | .getCapabilities die side => Sys2Proof.Machine.execGetCapabilities die side s
  | .negotiateAlgorithms die side => Sys2Proof.Machine.execNegotiateAlgorithms die side s
  | .getDigests die side => Sys2Proof.Machine.execGetDigests die side s
  | .getCertificate die side => Sys2Proof.Machine.execGetCertificate die side s
  | .challenge die side => Sys2Proof.Machine.execChallenge die side s
  | .getMeasurements die side => Sys2Proof.Machine.execGetMeasurements die side s
  | .keyExchange die side => Sys2Proof.Machine.execKeyExchange die side s
  | .finish die side session => Sys2Proof.Machine.execFinish die side session s
  | .endSession die side session => Sys2Proof.Machine.execEndSession die side session s
  | .heartbeat die side session => Sys2Proof.Machine.execHeartbeat die side session s
  | .spdmUnsupported die side code => Sys2Proof.Machine.execSpdmUnsupported die side code s
  | .inboundWrite die fn pa keyid data => Sys2Proof.Machine.execInboundWrite die fn pa keyid data s
  | .inboundRead die fn pa keyid n => Sys2Proof.Machine.execInboundRead die fn pa keyid n s
  | .inboundRefused die fn pa atomic => Sys2Proof.Machine.execInboundRefused die fn pa atomic s
  | .cxlExpanderLost die window => Sys2Proof.Machine.execCxlExpanderLost die window s
  | .stampSurelyPast aid => Sys2Proof.Machine.execStampSurelyPast aid s
  | .readPacketReceive die p len => Sys2Proof.Machine.execReadPacketReceive die p len s
  | .handleGenRaise die ctx slot => Sys2Proof.Machine.execHandleGenRaise die ctx slot s
  | .packageUnpowered => Sys2Proof.Machine.execPackageUnpowered s
  | .mctpMessageDiscard ty => Sys2Proof.Machine.execMctpMessageDiscard ty s
  | .linkTraining die port ends => Sys2Proof.Machine.execLinkTraining die port ends s
  | .privilegedWindowRead die addr => Sys2Proof.Machine.execPrivilegedWindowRead die addr s
  | .memoryKeyLoad via k => Sys2Proof.Machine.execMemoryKeyLoad via k s
  | .contextMarkedConf via x => Sys2Proof.Machine.execContextMarkedConf via x s
  | .contextTeardown die ctx => Sys2Proof.Machine.execContextTeardown die ctx s

end Sys2Proof.Machine
end

