-- ==== Sys2Proof/Machine/Run.lean ====
section
/-!
DEFINITION. What happens between instructions: an agent fetches and issues (R74, R75, R82), what completes by its own
condition, waits that can never end (R134, R157, R266), the events the machine makes by itself, and the choice of the next
step.
-/
namespace Sys2Proof.Machine

-- One agent issues.

/-- The outcome of a fetch that gave no word: a fault of the instruction as a whole, or a wait. -/
def State.fetchStop (s : State) (r : Stop) : Issuer → State
  | .warp b w =>
    match r with
    | .wait _ t => if w.wait = .none then setWaitW t b.id w.k .other else t
    | .trap x => warpOutcome (warpEnv s b w ⟨.always, 0, false⟩) (.error (.trap x))
  | .seq b q =>
    match r with
    | .wait _ t => if q.wait = .none then setWaitS t b.id .other else t
    | .trap x => seqOutcome ⟨s, b, q, ⟨.always, 0, false⟩⟩ (.error (.trap x))

/-- The word at an address: ALIGN, a failed page, or twelve bytes (R74). -/
def State.fetchWord (s : State) (aid : Nat) (b : Block) (pc : Addr54) : Except Stop (State × List Byte) :=
  if pc.toNat % 4 ≠ 0 then flt fAlign 0 pc.toNat else s.fetch aid b pc pc 12

/-- Fetch, decode, execute. -/
def State.fetchRun (s : State) (aid : Nat) (x : Issuer) (b : Block) (pc : Addr54) : Host.Outcome State Fault Refusal :=
  match s.fetchWord aid b pc with
  | .error r => .next (s.fetchStop r x)
  | .ok (t, bytes) =>
    match decodeBytes bytes with
    | .ok i => exec i t
    | .error _ => illegalWord (BitVec.ofNat 96 (wordOfBytes bytes)) t

/-- An agent issues, if there is one that may. A warp at the join of the running path waits there (R150). -/
def State.runAgent (s : State) (aid : Nat) : Host.Outcome State Fault Refusal :=
  let s := { s with actor := some aid }
  match s.issuer with
  | none => .next s
  | some x =>
    if !s.canIssue x then .next s
    else match x with
      | .warp b w => if b.atJoin w then .next (s.joinStep b w) else s.fetchRun aid x b w.pc
      | .seq b q => s.fetchRun aid x b q.pc

-- Waits that can never end.

/-- Whether the word at an address can be read now. -/
def State.fetchable (s : State) (aid : Nat) (b : Block) (pc : Addr54) : Bool :=
  match s.fetchWord aid b pc with
  | .ok _ => true
  | .error _ => false

/-- Whether an agent that tries again only waits again. One whose instruction cannot be fetched yet has not tried. -/
def State.stuck (s : State) (aid : Nat) : Bool :=
  let who (t : State) : Option Issuer := ({ t with actor := some aid }).issuer
  match who s, s.runAgent aid with
  | some (.warp b w), .next t =>
    (b.atJoin w || s.fetchable aid b w.pc) && (match who t with
     | some (.warp b x) => b.hst == .run && x.pc == w.pc && x.wait == w.wait
     | _ => false)
  | some (.seq b q), .next t =>
    s.fetchable aid b q.pc && (match who t with
     | some (.seq b x) => b.hst == .run && x.pc == q.pc && x.wait == q.wait
     | _ => false)
  | _, _ => false

/-- The effective lanes of the instruction at a warp's PC (R107); 0 where its word cannot be fetched. -/
def State.lanesAt (s : State) (b : Block) (w : Warp) : Word32 :=
  match s.fetchWord w.aid b w.pc with
  | .ok (_, bytes) =>
    (match ctlOfWord (BitVec.ofNat 96 (wordOfBytes bytes)) with
     | some c => lanesMask (effLanes b w c)
     | none => 0)
  | .error _ => 0

/-- A trap that no instruction raises at its issue: it names a waiting warp. -/
def State.waitTrap (s : State) (b : Block) (w : Warp) (code aux : Nat) : State :=
  takeTrap s b.id ⟨code, w.pc, 0, aux, w.k, s.lanesAt b w⟩

def lowestWarp : List Warp → Option Warp
  | [] => none
  | w :: t =>
    match lowestWarp t with
    | none => some w
    | some x => if x.k < w.k then some x else some w

/-- A wait at a meeting, a block barrier, a pop, or the join of the running path. -/
def Wait.inCycle : Wait → Bool
  | .meet => true
  | .join => true
  | .bar _ => true
  | .pop => true
  | _ => false

def Wait.inPush : Wait → Bool
  | .push => true
  | .wwait => true
  | _ => false

/-- Whether the waits of the warps are all at one meeting address, or all at one kind of block barrier. -/
def oneWait (l : List Warp) : Bool :=
  match l with
  | [] => true
  | w :: t =>
    (match w.wait with
     | .meet => t.all fun x => x.wait == .meet && x.pc == w.pc
     | .bar k => t.all fun x => x.wait == .bar k
     | _ => false)

/-- JOIN.CYCLE (R134, R157): the warp it names. -/
def State.joinCycle (s : State) (b : Block) : Option Warp :=
  let l := b.running
  let seqOk := match b.seq with
    | none => true
    | some q => q.exited || q.wait.inPush
  let seqStuck := match b.seq with
    | none => true
    | some q => q.exited || s.stuck q.aid
  if b.hst == .run && !l.isEmpty && seqOk && (l.all fun w => w.wait.inCycle) && !oneWait l && !b.pathDone &&
      b.spec.isEmpty && !s.blockHeld b && s.warpsSettled b .blk && seqStuck && l.all fun w => s.stuck w.aid then
    lowestWarp l
  else none

/-- Entries that name stile `n` of a block with SIGE and have not completed. -/
def State.signallers (s : State) (blk n : Nat) : Bool :=
  s.om.entries.any fun e => e.live && sigOn e.sig && e.sigBlk == blk && sigStile e.sig == n

/-- A wait that R266 counts among those that cannot signal. -/
def State.silent (s : State) (blk : Nat) : Wait → Bool
  | .stile n => !s.signallers blk n
  | .bar _ => true
  | .pop => true
  | .meet => true
  | _ => false

/-- Whether every party of a block has ended or waits so, and waits on. A barrier or a meeting whose warps have accesses still to be
performed (R42, R173) may yet complete. -/
def State.blockSilent (s : State) (b : Block) : Bool :=
  b.hst == .run && !s.blockHeld b && s.warpsSettled b .cls &&
  (b.running.all fun w => s.silent b.id w.wait) &&
  (match b.seq with
   | none => true
   | some q => q.exited || s.silent b.id q.wait) &&
  (b.running.all fun w => s.stuck w.aid) &&
  (match b.seq with
   | none => true
   | some q => q.exited || s.stuck q.aid)

/-- The resident blocks of a block's team, in the order of the team. -/
def State.mates (s : State) (b : Block) : List Block :=
  match s.team b.team with
  | some t => t.blocks.filterMap s.block
  | none => [b]

/-- The stile a party waits on. -/
def Wait.stile? (w : Wait) : Option Nat :=
  match w with
  | .stile n => some n
  | _ => Option.none

/-- STILE.ORPHAN (R266) of a block: the trap's record. Another block of the team may name any stile of this one, so every party of
the team has to wait. -/
def State.orphan (s : State) (b : Block) : Option TrapRec :=
  let ws := b.running.filter fun w => w.wait.stile?.isSome
  let sq := match b.seq with
    | some q => if q.exited then none else q.wait.stile?.map fun n => (q, n)
    | none => none
  if (ws.isEmpty && sq.isNone) || !(s.mates b).all s.blockSilent then none
  else match lowestWarp ws with
    | some w => some ⟨fStileOrphan, w.pc, 0, (w.wait.stile?).getD 0, w.k, s.lanesAt b w⟩
    | none => sq.map fun x => ⟨fStileOrphan, x.1.pc, 0, x.2, 0x3F, 0⟩

/-- The traps of waits that can never end, of one block. -/
def State.deadBlock (s : State) (blk : Nat) : State :=
  match s.block blk with
  | none => s
  | some b =>
    match s.joinCycle b with
    | some w => s.waitTrap b w fJoinCycle 0
    | none =>
      match s.orphan b with
      | some r => takeTrap s blk r
      | none => s

-- What completes by its own condition.

/-- Path ends of a block that waited for accesses (R150, R42). -/
def State.pathBlock (s : State) (blk : Nat) : State :=
  match s.block blk with
  | some b => if b.stack.isEmpty || b.hst != .run then s else s.advancePaths blk (pathFuel b)
  | none => s

/-- Records that nothing can use any more: queue places of accesses that are gone, a reservation whose holder is gone, lines
kept for fetches of blocks that are gone, lines kept for 1 us after an inbound write. -/
def State.tidy (s : State) : State :=
  let known (id : Nat) : Bool := (aget id s.om.accs).isSome
  let line (h : HomeLine) : HomeLine :=
    { q := h.q.filter known, resv := match h.resv with
      | some r => if known r.1 then some r else none
      | none => none }
  let homeq := (s.om.homeq.map fun p => (p.1, line p.2)).filter fun p => !(p.2.q.isEmpty && p.2.resv.isNone)
  let baseq := (s.om.baseq.map fun p => (p.1, p.2.filter known)).filter fun p => !p.2.isEmpty
  let used (o : OldLine) : Bool :=
    s.task.blocks.any (fun p => decide (p.2.adm ≤ o.adm)) ||
      s.task.saved.any fun p => p.2.blocks.any fun x => decide (x.1.adm ≤ o.adm)
  { s with
    om := { s.om with homeq := homeq, baseq := baseq }
    phys := { s.phys with
      old := s.phys.old.filter used
      inb := s.phys.inb.filter fun o => decide (s.now ≤ o.time + 1000) } }

/-- Everything that follows a choice at once. -/
def State.follow (s : State) : State :=
  let s := s.sweep
  let s := s.placeSweep
  let s := s.switchSweep
  let s := s.conflictSweep
  let s := s.haltSweep
  let s := (List.range 8).foldl State.admitDue s
  let s := (s.task.blocks.map Prod.fst).foldl State.pathBlock s
  let s := (s.task.blocks.map Prod.fst).foldl State.deadBlock s
  s.prune.tidy

-- Choices.

/-- Whether a row of the opcode table is an event: it has no word. -/
def Instr.isEvent (i : Instr) : Bool :=
  match i with
  | .reservedOpcodeIssue _ => false
  | i => i.raw.isNone

/-- Whether a barrier's release is due: it lands exactly 96 ns after its generation completed (R228), so no time passes before it. -/
def State.releaseDue (s : State) : Bool := s.pkg.barriers.any fun p => p.2.travel.any fun t => decide (t ≤ s.now)

/-- 1 ns passes. -/
def State.tick (s : State) : State := if s.releaseDue then s else { s with now := s.now + 1 }

/-- One choice, before what follows at once. -/
def State.choose (s : State) : Choice → Host.Outcome State Fault Refusal
  | .run aid => s.runAgent aid
  | .event i => if Instr.isEvent i then exec i s else .next s
  | .tick => .next s.tick
  | .move id u => .next (s.moveUnit id u)
  | .restart d => .next (s.restartKernel d)

def afterChoice : Host.Outcome State Fault Refusal → Host.Outcome State Fault Refusal
  | .next s => .next s.follow
  | r => r

-- The machine left to itself: the events that its hardware and its die kernels make without an outside input.

def liveDies (s : State) : List DieNo := (List.finRange 8).filter fun d => (s.die d.val).st == .live

/-- Events of the ordering machine. -/
def State.memEvents (s : State) : List Instr :=
  (s.om.accs.flatMap fun p => match p.2.st with
    | .issued => (match p.2.kind with
      | .arrive _ _ => [.barrierArrivalAccept p.1]
      | .fence _ => []
      | _ => [.load p.1])
    | .buffer => if p.2.refusals = 0 then [.drain p.1] else [.requestRefusedRetry p.1]
    | .commitWait => if p.2.refusals = 0 then [.commit p.1] else [.requestRefusedRetry p.1]
    | .transit _ => if p.2.refusals = 0 then [.transit p.1] else [.requestRefusedRetry p.1]
    | .replica _ _ => [.replicaWrite p.1]
    | _ => []) ++
  s.om.homeq.map (fun p => .serve p.1) ++
  s.om.baseq.map (fun p => .baseop p.1)

/-- Events of dies: walks, leases, the message channel, tasks, the die kernel's own services. -/
def State.dieEvents (s : State) : List Instr :=
  (liveDies s).flatMap (fun d =>
    let x := s.die d.val
    [.deliver d] ++ x.walks.map (fun w => .translationWalkEnd d w.ctx w.page) ++
    (x.held.filter fun h => decide (h.init < 8)).map (fun h => .ack d h.init h.gen) ++
    x.shoots.flatMap (fun k => (k.live.filter fun t => !k.acked.contains t).map fun t => .fenced d t) ++
    x.ring.map (fun r => .replyWrite d r.tag 0 true) ++
    [.svcMap d, .svcUnmap d, .preempt d, .hamperScan d, .holdover d]) ++
  (s.om.leases.filter (fun l => decide (l.exp ≤ s.now))).map (fun l => .expire l.die l.line) ++
  (List.finRange 8).filterMap fun d => if (s.die d.val).st == .lost then some (.dieup ⟨d, defaultPlaces d.val⟩) else none

/-- Events of blocks, cores, engine entries and barriers. Calael's die kernel kills the team of a block that stops in it (R308). -/
def State.workEvents (s : State) : List Instr :=
  s.om.entries.flatMap (fun e => if !e.live then [] else if e.st == .queued then [.beginEntry e.id] else [.completeEntry e.id]) ++
  s.task.blocks.flatMap (fun p => p.2.spec.map fun x => .speculationResolve x.tag) ++
  s.task.blocks.map (fun p => .blockEnd p.1) ++
  (s.task.blocks.filter (fun p => p.2.hst == .kernel)).map (fun p => .svcForward p.1 false) ++
  s.task.joins.map (fun j => .blockEnd j.blk) ++
  (s.task.cores.filter (fun p => !p.2.zero.isEmpty)).map (fun p => .zeroingDone p.1) ++
  (s.pkg.barriers.filter (fun p => !p.2.travel.isEmpty)).map fun p => .barrierRelease p.1

/-- The state an event leads to, where it changes anything. -/
def State.moves (s : State) (i : Instr) : Option State :=
  match exec i s with
  | .next t => if t = s then none else some t
  | _ => none

/-- Agents that may issue, in the order of blocks. -/
def State.readyAgents (s : State) : List Nat :=
  s.task.blocks.flatMap fun p =>
    ((p.2.warps.filter fun w => s.canIssue (.warp p.2 w)).map Warp.aid) ++
      (match p.2.seq with
       | some q => if s.canIssue (.seq p.2 q) then [q.aid] else []
       | none => [])

def leastOf : List Nat → Option Nat
  | [] => none
  | a :: t =>
    match leastOf t with
    | none => some a
    | some b => some (min a b)

/-- The agent after the one that issued last, in turn: agents issue in the order of their names, round and round. -/
def State.turn (s : State) : Option Nat :=
  let l := s.readyAgents
  match leastOf (l.filter fun a => decide ((s.actor.getD 0) < a)) with
  | some a => some a
  | none => leastOf l

/-- What the machine does when no choice is given: a powered package whose dies have not started starts; then an event that
changes something; then time passes and the next agent in turn issues. -/
def State.auto (s : State) : Host.Outcome State Fault Refusal :=
  if s.pkg.powered && s.dies.all fun d => d.st == .inReset then exec (.powerGood ⟨[], []⟩) s
  else match (s.memEvents ++ s.dieEvents ++ s.workEvents).findSome? s.moves with
    | some t => .next t
    | none =>
      match s.turn with
      | some a => s.tick.runAgent a
      | none => .next s.tick

-- Placing one instruction where the next step fetches.

/-- The header of the block that `placeWord` makes: one thread, a warp and a sequencer thread, no handler. -/
def placedHeader : Header where
  widths := List.replicate 6 0
  regs := 64
  fuse := false
  seqv := true
  warpv := true
  trapv := false
  seqEntry := 0
  warpEntry := 0
  trapEntry := 0
  dataPtr := 0
  dataSize := 0
  clmg := 1
  hdlg := 0
  claim := ⟨8, 1, 1, 1, 4⟩
  base := ⟨8, 1, 1, 1, 4⟩
  mbz := false

/-- A thread as admission makes it, with work identifier 0 (R61). -/
def placedThread : Thread := ⟨[], [], List.replicate 4 0, 0, 0, 0x2545F491, true⟩

/-- A resident block on core 0 of die 0, its warp and its sequencer thread at address 0. -/
def placedBlock (id adm : Nat) : Block where
  id := id
  die := 0
  core := 0
  slot := 0
  team := id
  ctx := 0
  kid := 0
  workid := 0
  adm := adm
  hdr := placedHeader
  trapPa := 0
  claim := ⟨8, 1, 1, 1, 4⟩
  hold := ⟨8, 1, 1, 1, 4⟩
  bnd := 64
  phys := ⟨[List.range 8, [], [], []], [0], [0], [0], List.range 4⟩
  threads := [placedThread]
  homes := [⟨List.replicate 4 (0, 0), false, 0⟩]
  warps := [Warp.fresh 0 (id + 1) 0 (some 0 :: List.replicate 31 none)]
  seq := some (SeqThread.fresh (id + 2) 0)
  dq := []
  dqBase := 0
  closed := false
  stack := []
  parked := []
  remap := [0x20]
  stiles := List.replicate 4 ⟨0, 0, []⟩
  acc := []
  bw := [0]
  pair := []
  trap := ⟨0, 0, 0, 0, 0, 0⟩
  hst := .run
  fwd := none
  exitJ := none
  bias := List.replicate 12 0
  clm := []
  svc := []
  spec := []

/-- A page of code, readable, writable and executable: address 0 at physical address 0. -/
def placedPage : Tlb := ⟨0, 0, 2 ^ 16, 0x3F#64, 0⟩

/-- The agent that can issue an instruction: the warp, or the sequencer thread where only it accepts the instruction. -/
def placedAgent (id : Nat) (bytes : List Byte) : Nat :=
  match decodeBytes bytes with
  | .ok i => if i.wfOn .warp || !i.wfOn .seq then id + 1 else id + 2
  | .error _ => id + 1

/-- A block is made resident with twelve bytes of code at its PC, and the next choice is that its agent issues. Nothing stands in
the way of the fetch: no translation of the page is held, cluster 0 is not halted, the line is under no key. -/
def State.placeWord (s : State) (bytes : List Byte) : State :=
  let id := s.nextId
  let adm := s.task.adm + 1
  let s := { s with nextId := id + 3, agenda := .run (placedAgent id bytes) :: s.agenda }
  let s := (s.setBlock (placedBlock id adm)).setTeam
    ⟨id, 0, 0, 0, ⟨0, 0, 0, 0, 0, 0, 0, false, false, false, 0, 0, 0, false⟩, 0, 0, 0, [id], adm, false⟩
  let s := (s.setAgent (id + 1) ⟨.warp id 0, 0, [], [], []⟩).setAgent (id + 2) ⟨.seq id, 0, [], [], []⟩
  let s := s.modCore 0 fun c => { c with tlb := placedPage :: c.tlb }
  let s := s.modDie 0 fun d => { d with
    held := d.held.filter fun h => !h.covers 0 0
    clusters := d.clusters.modify 0 fun c => { c with halt := false } }
  { s with
    task := { s.task with adm := adm }
    phys := { s.phys with
      bytes := putBytes s.phys.bytes (cellsFrom 0 bytes)
      keys := adel 0 s.phys.keys
      old := s.phys.old.filter fun o => o.line != 0 } }

end Sys2Proof.Machine
end

