-- ==== Sys2Proof/Machine/Step.lean ====
section
/-!
DEFINITION. The step: the next choice of the agenda, or what the machine does when left to itself, and what follows it at
once.
-/
namespace Sys2Proof.Machine

/-- One step of the machine. -/
def step (s : State) : Host.Outcome State Fault Refusal :=
  match s.agenda with
  | [] => afterChoice s.auto
  | c :: t => afterChoice ({ s with agenda := t }.choose c)

/-- `s` with an instruction of `nbits` bits placed where the next step fetches: twelve bytes at a block's PC (log entry 1). -/
def State.withFetchWord (s : State) (nbits w : Nat) : State := s.placeWord (bytesOfNat 12 (w % 2 ^ nbits))

end Sys2Proof.Machine
end

