-- ==== Sys2Proof/Safety.lean ====
section
/-!
DEFINITION. What the statements say of a state and of an outcome: when a word's own effect begins, what a register reads as at a
distance, the records that every step keeps in order, and the canonical form of memory.
-/
namespace Sys2Proof.Machine

-- Memory.

/-- Every memory of a state is in canonical form: physical memory and every resident block's core-local window. -/
def State.memOk (s : State) : Prop :=
  Memory.wf s.phys.bytes = true ∧ ∀ p ∈ s.task.blocks, Memory.wf p.2.clm = true

/-- One byte of physical memory. -/
def State.byte (s : State) (a : Nat) : Byte := byteAt s.phys.bytes a

/-- One byte of a block's core-local window. -/
def Block.byte (b : Block) (o : Nat) : Byte := byteAt b.clm o

-- When a word's own effect begins.

/-- The warp whose instruction takes effect now: it is the step's actor, it may issue, checks 1 to 3 of R82, the interlock of R87
and the index checks let the instruction issue, and so do the stall rules of R327 where the warp speculates. -/
def State.warpStart (s : State) (i : Instr) (c : Ctl) : Option WEnv :=
  match s.issuer with
  | some (.warp b w) =>
    if s.canIssue (.warp b w) then
      let e := warpEnv s b w c
      match warpChecks e i with
      | .ok () => (specGate e.b e.w.aid i (writtenV e i)).map fun b => { e with b := b }
      | .error _ => none
    else none
  | _ => none

/-- The same for the sequencer thread, its guard holding. -/
def State.seqStart (s : State) (i : Instr) (c : Ctl) : Option SEnv :=
  match s.issuer with
  | some (.seq b q) =>
    if s.canIssue (.seq b q) && i.wfOn .seq && !seqBlocked s b q i && guardS q c then
      (specGate b q.aid i (writtenS i)).map fun b => ⟨s, b, q, c⟩
    else none
  | _ => none

/-- On a warp the instruction completes with `f`: whenever its own effect begins, `exec` answers the state `f` gives. -/
def WarpDoes (s : State) (i : Instr) (c : Ctl) (f : WEnv → State) : Prop :=
  ∀ e, s.warpStart i c = some e → exec i s = .next (f e)

/-- On the sequencer the instruction completes with `f`. -/
def SeqDoes (s : State) (i : Instr) (c : Ctl) (f : SEnv → State) : Prop :=
  ∀ e, s.seqStart i c = some e → exec i s = .next (f e)

/-- The same under a condition on the state and the operands. -/
def WarpIf (s : State) (i : Instr) (c : Ctl) (p : WEnv → Prop) (f : WEnv → State) : Prop :=
  ∀ e, s.warpStart i c = some e → p e → exec i s = .next (f e)

def SeqIf (s : State) (i : Instr) (c : Ctl) (p : SEnv → Prop) (f : SEnv → State) : Prop :=
  ∀ e, s.seqStart i c = some e → p e → exec i s = .next (f e)

/-- On a warp that does not speculate the instruction takes an exception under a condition (R107). -/
def WarpTraps (s : State) (i : Instr) (c : Ctl) (p : WEnv → Prop) (x : WEnv → TrapInfo) : Prop :=
  ∀ e, s.warpStart i c = some e → e.b.specOf e.w.aid = none → p e →
    exec i s = .next (takeTrap (e.s.dropFails e.b.die e.w.aid) e.b.id (trapRecW e (x e)))

def SeqTraps (s : State) (i : Instr) (c : Ctl) (p : SEnv → Prop) (x : SEnv → TrapInfo) : Prop :=
  ∀ e, s.seqStart i c = some e → e.b.specOf e.q.aid = none → p e →
    exec i s = .next (takeTrap (e.s.dropFails e.b.die e.q.aid) e.b.id
      ⟨(x e).code, e.q.pc, (x e).addr, (x e).aux, 0x3F, 0⟩)

/-- The warp waits where it stands, under a condition: the state but for the wait is the one before the instruction. -/
def WarpWaits (s : State) (i : Instr) (c : Ctl) (p : WEnv → Prop) (r : WEnv → Wait) : Prop :=
  ∀ e, s.warpStart i c = some e → p e → exec i s = .next (setWaitW e.s e.b.id e.w.k (r e))

def SeqWaits (s : State) (i : Instr) (c : Ctl) (p : SEnv → Prop) (r : SEnv → Wait) : Prop :=
  ∀ e, s.seqStart i c = some e → p e → exec i s = .next (setWaitS e.s e.b.id (r e))

/-- A fixed-latency instruction writes `f` of each effective lane to its destination after `lat` (R84 to R86, R145). -/
def WarpWrites (s : State) (i : Instr) (c : Ctl) (lat : Nat) (d : Operand) (f : WEnv → Nat × Nat → Word32) : Prop :=
  WarpDoes s i c fun e => retireFixed e i lat ⟨e.eff.map fun l => (l.2, regOf e.b l.2 d, f e l), []⟩

/-- A sequencer instruction writes one S register and goes on at PC + 12 (R135). -/
def SeqWrites (s : State) (i : Instr) (c : Ctl) (d : SReg) (f : SEnv → Word64) : Prop :=
  SeqDoes s i c fun e =>
    e.s.setBlock { e.b with seq := some { e.q with s := e.q.s.set d.val (f e), pc := e.q.pc + 12, wait := .none } }

/-- The warp instructions of the fixed-latency classes whose one effect is what they write (R85): all but CVT8, which also steps
RNG, and MSR. -/
def fixedClass : Instr → Bool
  | .mov _ _ _ | .iadd _ _ _ _ | .isub _ _ _ _ | .imul _ _ _ _ | .imulhi _ _ _ _ _ | .imad _ _ _ _ => true
  | .idiv _ _ _ _ _ | .irem _ _ _ _ _ | .imin _ _ _ _ _ | .imax _ _ _ _ _ | .iabs _ _ _ => true
  | .and _ _ _ _ | .or _ _ _ _ | .xor _ _ _ _ | .not _ _ _ | .shl _ _ _ _ | .shr _ _ _ _ _ => true
  | .popc _ _ _ | .clz _ _ _ | .brev _ _ _ | .bfe _ _ _ _ _ | .bfi _ _ _ _ | .sel _ _ _ _ _ => true
  | .fadd _ _ _ _ _ | .fsub _ _ _ _ _ | .fmul _ _ _ _ _ | .ffma _ _ _ _ _ => true
  | .fmin _ _ _ _ | .fmax _ _ _ _ | .fabs _ _ _ | .fneg _ _ _ => true
  | .pkadd _ _ _ _ _ _ | .pkmul _ _ _ _ _ _ | .pkfma _ _ _ _ _ _ | .pkmin _ _ _ _ _ | .pkmax _ _ _ _ _ => true
  | .cvt _ _ _ _ _ | .cvtf8 _ _ _ _ _ | .sfu _ _ _ _ => true
  | .iset _ _ _ _ _ _ | .fset _ _ _ _ _ | .plop _ _ _ _ _ | .pmov _ _ | .pmovP _ _ => true
  | .shfl _ _ _ _ _ _ | .agree _ _ _ _ _ | .ballot _ _ _ _ | .remap _ _ _ | .xwin _ _ _ _ | .xset _ _ _ => true
  | _ => false

/-- The sequencer's instructions that write one S register, and which. -/
def seqAlu : Instr → Option SReg
  | .smov _ d _ | .smovh _ d _ | .sadd _ d _ _ | .ssub _ d _ _ | .smul _ d _ _ | .smulhi _ _ d _ _ => some d
  | .sdiv _ _ d _ _ | .srem _ _ d _ _ | .smin _ _ d _ _ | .smax _ _ d _ _ => some d
  | .sand _ d _ _ | .sor _ d _ _ | .sxor _ d _ _ | .sshl _ d _ _ | .sshr _ _ d _ _ => some d
  | .spopc _ d _ | .sclz _ d _ | .ssel _ _ d _ _ => some d
  | _ => none

/-- Nothing outside the block has changed: memory, every other block, dies, the ordering machine, the package. -/
def State.sameOutside (s t : State) (blk : Nat) : Prop :=
  (∀ a, t.byte a = s.byte a) ∧ (∀ k, k ≠ blk → t.block k = s.block k) ∧ t.dies = s.dies ∧ t.om = s.om ∧ t.pkg = s.pkg ∧
    t.task.cores = s.task.cores ∧ t.task.teams = s.task.teams ∧ t.task.ctxs = s.task.ctxs ∧ t.now = s.now

/-- Nothing of a block has changed but its warps, its sequencer thread, and what its threads hold. -/
def Block.sameRest (b b' : Block) : Prop :=
  (∀ o, b'.byte o = b.byte o) ∧ b'.acc = b.acc ∧ b'.bw = b.bw ∧ b'.pair = b.pair ∧ b'.stiles = b.stiles ∧
    b'.hold = b.hold ∧ b'.claim = b.claim ∧ b'.bnd = b.bnd ∧ b'.dq = b.dq ∧ b'.dqBase = b.dqBase ∧ b'.stack = b.stack ∧
    b'.remap = b.remap ∧ b'.trap = b.trap ∧ b'.hst = b.hst ∧ b'.homes = b.homes

-- Numbers as exact rationals (R53, R58 to R60).

/-- The exact value of a finite value. -/
def FV.val : FV → ℚ
  | .fin neg m e => (if neg then -1 else 1) * ((m : ℚ) * 2 ^ e)
  | _ => 0

/-- The value of a magnitude code of a format with `p` significand bits, its exponent range unbounded above. -/
def codeVal (p : Nat) (qmin : Int) (k : Nat) : ℚ :=
  if k / 2 ^ (p - 1) = 0 then (k : ℚ) * 2 ^ qmin
  else ((k % 2 ^ (p - 1) + 2 ^ (p - 1) : Nat) : ℚ) * 2 ^ (qmin + (k / 2 ^ (p - 1) : Nat) - 1)

/-- `k` is the magnitude code that `x` is rounded to once, in a mode, for a value of that sign (R58). -/
def RoundsTo (p : Nat) (qmin : Int) (r : Rnd) (neg : Bool) (x : ℚ) (k : Nat) : Prop :=
  let v := codeVal p qmin
  let down : Prop := v k ≤ x ∧ x < v (k + 1)
  let up : Prop := x ≤ v k ∧ (0 < k → v (k - 1) < x)
  match r with
  | .rne => 2 * x ≤ v k + v (k + 1) ∧ (2 * x = v k + v (k + 1) → k % 2 = 0) ∧
      (0 < k → v (k - 1) + v k ≤ 2 * x ∧ (v (k - 1) + v k = 2 * x → k % 2 = 0))
  | .rtz => down
  | .rup => if neg then down else up
  | .rdn => if neg then up else down

/-- `n` is the integer that `x` is rounded to in a mode (R57). -/
def IntRounds (r : Rnd) (x : ℚ) (n : Int) : Prop :=
  match r with
  | .rne => 2 * |x - n| ≤ 1 ∧ (2 * |x - n| = 1 → n % 2 = 0)
  | .rtz => n = if 0 ≤ x then ⌊x⌋ else ⌈x⌉
  | .rup => n = ⌈x⌉
  | .rdn => n = ⌊x⌋

-- What a later instruction of the warp reads (R86, R141, R143).

/-- V register `n` of thread `t` as warp `w` reads it at distance clock `clk`. -/
def Block.readAt (b : Block) (w : Warp) (clk t n : Nat) : Word32 :=
  let r := settle b { w with clock := clk }
  readV r.1 r.2 t n

/-- Predicate `n` of thread `t` as warp `w` reads it at distance clock `clk`. -/
def Block.predAt (b : Block) (w : Warp) (clk t n : Nat) : Bool :=
  ((settle b { w with clock := clk }).1.thread t).getP n

/-- Index register `n` of thread `t`, and window register `n` of home warp `h`, at distance clock `clk` (R193). -/
def Block.xAt (b : Block) (w : Warp) (clk t n : Nat) : BitVec 16 :=
  ((settle b { w with clock := clk }).1.thread t).getX n

def Block.xwinAt (b : Block) (w : Warp) (clk h n : Nat) : Nat × Nat :=
  ((settle b { w with clock := clk }).1.home (32 * h)).xwin.getD n (0, 0)

-- Records that every step leaves in order.

/-- Every queue place names an access that exists, every reservation is held by one, and no line kept for an inbound write is
older than 1 us (R36). -/
def State.tidyOk (s : State) : Prop :=
  (∀ p ∈ s.om.homeq, ∀ id ∈ p.2.q, (s.access id).isSome) ∧
  (∀ p ∈ s.om.homeq, ∀ r, p.2.resv = some r → (s.access r.1).isSome) ∧
  (∀ p ∈ s.om.baseq, ∀ id ∈ p.2, (s.access id).isSome) ∧
  (∀ o ∈ s.phys.inb, s.now ≤ o.time + 1000)

end Sys2Proof.Machine
end

