-- ==== Sys2Proof/Certificates/Slice0/Obligations.lean ====
section
/-!
DEFINITION. The statements for the provers.
-/
open Sys2Proof Sys2Proof.Machine

-- Warp engine, group 1 (R174 to R177).

/-- R175, R56: the value each integer instruction writes in every effective lane, 12 after its issue for IDIV and IREM, else 4; what the
bit counts and the bit reversal compute, and that the quotient of the most negative value by -1 wraps. -/
def Obligations.IntegerResults : Prop :=
  (∀ (s : State) (c : Ctl) (uns : Bool) (d a b : Operand) (m : MovSrc),
      WarpWrites s (.mov c d m) c 4 d (fun e l => match m with
        | .short o => srcI e l o
        | .long v => v) ∧
      WarpWrites s (.iadd c d a b) c 4 d (fun e l => srcI e l a + srcI e l b) ∧
      WarpWrites s (.isub c d a b) c 4 d (fun e l => srcI e l a - srcI e l b) ∧
      WarpWrites s (.imul c d a b) c 4 d (fun e l => srcI e l a * srcI e l b) ∧
      WarpWrites s (.imad c d a b) c 4 d (fun e l => regV e l d 0 + srcI e l a * srcI e l b) ∧
      WarpWrites s (.imulhi c uns d a b) c 4 d (fun e l =>
        if uns then BitVec.ofNat 32 ((srcI e l a).toNat * (srcI e l b).toNat / 2 ^ 32)
        else BitVec.ofInt 32 ((srcI e l a).toInt * (srcI e l b).toInt / 2 ^ 32)) ∧
      WarpWrites s (.idiv c uns d a b) c 12 d (fun e l =>
        if uns then (if srcI e l b = 0 then BitVec.allOnes 32 else srcI e l a / srcI e l b)
        else if srcI e l b = 0 then BitVec.allOnes 32
        else BitVec.ofInt 32 ((srcI e l a).toInt.tdiv (srcI e l b).toInt)) ∧
      WarpWrites s (.irem c uns d a b) c 12 d (fun e l =>
        if uns then (if srcI e l b = 0 then srcI e l a else srcI e l a % srcI e l b)
        else if srcI e l b = 0 then srcI e l a
        else BitVec.ofInt 32 ((srcI e l a).toInt.tmod (srcI e l b).toInt)) ∧
      WarpWrites s (.imin c uns d a b) c 4 d (fun e l =>
        if relInt .lt uns (srcI e l b) (srcI e l a) then srcI e l b else srcI e l a) ∧
      WarpWrites s (.imax c uns d a b) c 4 d (fun e l =>
        if relInt .lt uns (srcI e l a) (srcI e l b) then srcI e l b else srcI e l a) ∧
      WarpWrites s (.iabs c d a) c 4 d (fun e l => if (srcI e l a).msb then 0 - srcI e l a else srcI e l a) ∧
      WarpWrites s (.and c d a b) c 4 d (fun e l => srcI e l a &&& srcI e l b) ∧
      WarpWrites s (.or c d a b) c 4 d (fun e l => srcI e l a ||| srcI e l b) ∧
      WarpWrites s (.xor c d a b) c 4 d (fun e l => srcI e l a ^^^ srcI e l b) ∧
      WarpWrites s (.not c d a) c 4 d (fun e l => ~~~ srcI e l a) ∧
      WarpWrites s (.shl c d a b) c 4 d (fun e l => srcI e l a <<< ((srcI e l b).toNat % 32)) ∧
      WarpWrites s (.shr c uns d a b) c 4 d (fun e l =>
        if uns then srcI e l a >>> ((srcI e l b).toNat % 32)
        else (srcI e l a).sshiftRight ((srcI e l b).toNat % 32)) ∧
      WarpWrites s (.popc c d a) c 4 d (fun e l => BitVec.ofNat 32 (popCount (srcI e l a))) ∧
      WarpWrites s (.clz c d a) c 4 d (fun e l => BitVec.ofNat 32 (leadZeros (srcI e l a))) ∧
      WarpWrites s (.brev c d a) c 4 d (fun e l => bitReverse (srcI e l a))) ∧
  (∀ x : Word32,
    popCount x = ((List.range 32).filter fun i => x.getLsbD i).length ∧
    (∀ i, i < 32 → (bitReverse x).getLsbD i = x.getLsbD (31 - i)) ∧
    (x ≠ 0 → x.getLsbD (31 - leadZeros x) = true ∧ ∀ i, 31 - leadZeros x < i → x.getLsbD i = false) ∧
    leadZeros (0 : Word32) = 32 ∧
    BitVec.ofInt 32 ((0x80000000#32).toInt.tdiv (0xFFFFFFFF#32).toInt) = 0x80000000#32 ∧
    BitVec.ofInt 32 ((0x80000000#32).toInt.tmod (0xFFFFFFFF#32).toInt) = 0#32)


/-- R176, R177: BFE, BFI and SEL write in every effective lane, 4 after their issue. Bit by bit: with p = B[4:0] and
m = min(min(B[13:8], 32), 32 - p), bit i of BFE is bit p + i of A below m; above, it is 0 or, for .SGN with m > 0, A's bit p + m - 1;
BFI takes bits p to p + m - 1 from A and every other bit from D. -/
def Obligations.FieldResults : Prop :=
  (∀ (s : State) (c : Ctl) (uns : Bool) (p : PReg) (d a b : Operand),
      WarpWrites s (.bfe c uns d a b) c 4 d (fun e l => bitExtract uns (srcI e l a) (srcI e l b)) ∧
      WarpWrites s (.bfi c d a b) c 4 d (fun e l => bitInsert (regV e l d 0) (srcI e l a) (srcI e l b)) ∧
      WarpWrites s (.sel c p d a b) c 4 d (fun e l =>
        if (e.b.thread l.2).getP p.val then srcI e l a else srcI e l b)) ∧
  (∀ (uns : Bool) (d a b : Word32) (i : Nat), i < 32 →
    let p := b.toNat % 32
    let m := min (min (b.toNat / 256 % 64) 32) (32 - p)
    (bitExtract uns a b).getLsbD i =
      (if i < m then a.getLsbD (p + i) else if uns || m == 0 then false else a.getLsbD (p + m - 1)) ∧
    (bitInsert d a b).getLsbD i = (if p ≤ i ∧ i < p + m then a.getLsbD (i - p) else d.getLsbD i))

-- Groups 2 and 3 (R178 to R186).

/-- R53, R58, R179, R180: binary32 and packed arithmetic, 5 after the issue. Each operation takes the exact result of its operands and
rounds it once: sums, differences, products and the fused product and sum; an exact zero has the sign that IEEE 754 gives it in the mode.
Minimum and maximum order -0 below +0, and equal values and infinities as any order of the reals does. `enc` of what a code stands for
is that code. -/
def Obligations.FloatResults : Prop :=
  (∀ (s : State) (c : Ctl) (r : Rnd) (bf : Bool) (d a b : Operand),
    WarpWrites s (.fadd c r d a b) c 5 d (fun e l => w32 (f32.add r (srcF e l a).toNat (srcF e l b).toNat)) ∧
    WarpWrites s (.fsub c r d a b) c 5 d (fun e l => w32 (f32.sub r (srcF e l a).toNat (srcF e l b).toNat)) ∧
    WarpWrites s (.fmul c r d a b) c 5 d (fun e l => w32 (f32.mul r (srcF e l a).toNat (srcF e l b).toNat)) ∧
    WarpWrites s (.ffma c r d a b) c 5 d (fun e l =>
      w32 (f32.fma r (srcF e l a).toNat (srcF e l b).toNat (regV e l d 0).toNat)) ∧
    WarpWrites s (.fmin c d a b) c 5 d (fun e l => w32 (f32.minC (srcF e l a).toNat (srcF e l b).toNat)) ∧
    WarpWrites s (.fmax c d a b) c 5 d (fun e l => w32 (f32.maxC (srcF e l a).toNat (srcF e l b).toNat)) ∧
    WarpWrites s (.fabs c d a) c 5 d (fun e l => w32 (f32.enc .rne (f32.dec (srcF e l a).toNat).abs)) ∧
    WarpWrites s (.fneg c d a) c 5 d (fun e l => w32 (f32.enc .rne (f32.dec (srcF e l a).toNat).neg)) ∧
    WarpWrites s (.pkadd c r bf d a b) c 5 d (fun e l =>
      packed (fun x y _ => (pkFmt bf).add r x y) (srcI e l a) (srcI e l b) 0) ∧
    WarpWrites s (.pkmul c r bf d a b) c 5 d (fun e l =>
      packed (fun x y _ => (pkFmt bf).mul r x y) (srcI e l a) (srcI e l b) 0) ∧
    WarpWrites s (.pkfma c r bf d a b) c 5 d (fun e l =>
      packed ((pkFmt bf).fma r) (srcI e l a) (srcI e l b) (regV e l d 0)) ∧
    WarpWrites s (.pkmin c bf d a b) c 5 d (fun e l =>
      packed (fun x y _ => (pkFmt bf).minC x y) (srcI e l a) (srcI e l b) 0) ∧
    WarpWrites s (.pkmax c bf d a b) c 5 d (fun e l =>
      packed (fun x y _ => (pkFmt bf).maxC x y) (srcI e l a) (srcI e l b) 0)) ∧
  (∀ (g : Nat → Nat → Nat → Nat) (a b d : Word32),
    (packed g a b d).extractLsb' 0 16 = BitVec.ofNat 16 (g (a.toNat % 2 ^ 16) (b.toNat % 2 ^ 16) (d.toNat % 2 ^ 16)) ∧
    (packed g a b d).extractLsb' 16 16 = BitVec.ofNat 16 (g (a.toNat / 2 ^ 16) (b.toNat / 2 ^ 16) (d.toNat / 2 ^ 16))) ∧
  (∀ (f : Fmt) (r : Rnd) (a b d : Nat) (s t w : Bool) (m n o : Nat) (e g i : Int),
    f.dec a = .fin s m e → f.dec b = .fin t n g → f.dec d = .fin w o i →
    let x := (f.dec a).val
    let y := (f.dec b).val
    let exact (code : Nat) (v : ℚ) (zero : Bool) : Prop :=
      ∃ u k h, code = f.enc r (.fin u k h) ∧ (FV.fin u k h).val = v ∧ (k = 0 → u = zero)
    let sum (s t : Bool) : Bool := if s = t then s else r == .rdn
    exact (f.add r a b) (x + y) (sum s t) ∧ exact (f.sub r a b) (x - y) (sum s !t) ∧
    exact (f.mul r a b) (x * y) (s != t) ∧ exact (f.fma r a b d) (x * y + (f.dec d).val) (sum (s != t) w) ∧
    (x < y → f.minC a b = f.enc .rne (f.dec a) ∧ f.maxC a b = f.enc .rne (f.dec b)) ∧
    (x = 0 → y = 0 → f.minC a b = f.enc .rne (.fin (s || t) 0 0) ∧ f.maxC a b = f.enc .rne (.fin (s && t) 0 0)) ∧
    (x = y → x ≠ 0 → f.minC a b = f.enc .rne (f.dec a) ∧ f.maxC a b = f.enc .rne (f.dec a))) ∧
  (∀ (f : Fmt) (a b : Nat), f.dec b ≠ .nan →
    let least : Prop := f.minC a b = f.enc .rne (f.dec a) ∧ f.maxC a b = f.enc .rne (f.dec b) ∧
      f.minC b a = f.enc .rne (f.dec a) ∧ f.maxC b a = f.enc .rne (f.dec b)
    let most : Prop := f.maxC a b = f.enc .rne (f.dec a) ∧ f.minC a b = f.enc .rne (f.dec b) ∧
      f.maxC b a = f.enc .rne (f.dec a) ∧ f.minC b a = f.enc .rne (f.dec b)
    (f.dec a = .inf true → least) ∧ (f.dec a = .inf false → most)) ∧
  (∀ f ∈ [f32, f16, bf16], ∀ (r : Rnd) (a : Nat), a < 2 * f.sgn → f.dec a ≠ .nan →
    f.enc r (f.dec a) = a ∧ f.enc r (f.dec a).abs = a % f.sgn ∧ f.enc r (f.dec a).neg = (a + f.sgn) % (2 * f.sgn))

/-- R53, R58 to R60, R186: every value is rounded once. A code of binary32, binary16 or bfloat16 stands for its sign, exponent and
fraction; encoding rounds in the mode and overflows to the infinity or the largest finite value as the mode says. Binary8 likewise, with
the overflow table of R59 and its special inputs; a tie goes to the even code (log entry 64). Stochastic rounding takes the neighbour above when g + RNG[7:0]
reaches 256. RCP, SQRT and RSQ are the nearest values of the exact ones. -/
def Obligations.RoundedOnce : Prop :=
  (∀ f ∈ [f32, f16, bf16], ∀ c < 2 * f.sgn,
    (c % f.sgn < f.inf → ∃ m e, f.dec c = .fin (decide (f.sgn ≤ c)) m e ∧ (m : ℚ) * 2 ^ e = codeVal f.p f.qmin (c % f.sgn)) ∧
    (c % f.sgn = f.inf → f.dec c = .inf (decide (f.sgn ≤ c))) ∧ (f.inf < c % f.sgn → f.dec c = .nan)) ∧
  (∀ f ∈ [f32, f16, bf16], ∀ (r : Rnd) (s : Bool) (m : Nat) (e : Int), ∃ k, RoundsTo f.p f.qmin r s ((m : ℚ) * 2 ^ e) k ∧
    f.enc r (.fin s m e) = (if s then f.sgn else 0) + (if k < f.inf then k else match r with
      | .rne => f.inf
      | .rtz => f.inf - 1
      | .rup => if s then f.inf - 1 else f.inf
      | .rdn => if s then f.inf else f.inf - 1)) ∧
  (∀ (f : B8) (sat s : Bool) (m : Nat) (e : Int), 0 < f.p → f.p ≤ 8 → 0 < m → (f.uns && s) = false →
    let x : ℚ := (m : ℚ) * 2 ^ e
    let v := codeVal f.p f.qmin
    let code (k : Nat) : Nat := if s = true ∧ k ≠ 0 then k + 128 else k
    let most := code f.maxFin
    let beyond := if f.fin then f.nan else code (f.maxFin + 1)
    (∀ r : Rnd, ∃ k, RoundsTo f.p f.qmin r s x k ∧ f.enc (.mode r) sat (.fin s m e) =
      (if k ≤ f.maxFin then code k else if sat then most else match r with
        | .rne => beyond
        | .rtz => most
        | .rup => if s then most else beyond
        | .rdn => if s then beyond else most)) ∧
    (∀ rng : Nat, ∃ lo, v lo ≤ x ∧ x < v (lo + 1) ∧
      let g := ⌊256 * (x - v lo) / (v (lo + 1) - v lo)⌋
      let k := if x = v lo then lo else if 256 ≤ g + rng then lo + 1 else lo
      f.enc (.sr rng) sat (.fin s m e) = (if k ≤ f.maxFin then code k else if sat then most else beyond))) ∧
  (∀ (f : B8) (r : Round8) (sat : Bool),
    f.enc r sat .nan = f.nan ∧ (∀ s e, f.enc r sat (.fin s 0 e) = 0) ∧
    (∀ s, (f.uns && s) = false → f.enc r sat (.inf s) =
      if f.fin && !sat then f.nan else (if f.fin then f.maxFin else f.maxFin + 1) + (if s then 128 else 0)) ∧
    (f.uns = true → f.enc r sat (.inf true) = f.nan ∧ ∀ m e, 0 < m → f.enc r sat (.fin true m e) = f.nan)) ∧
  (∀ (a : Word32) (s : Bool) (m : Nat) (e : Int), f32.dec a.toNat = .fin s m e → 0 < m →
    let x : ℚ := (m : ℚ) * 2 ^ e
    let v := codeVal 24 (-149)
    let at_ (fn : SfuFn) (neg : Bool) (f : ℚ → Prop) (g : ℚ → Prop) : Prop := ∃ k ≤ f32.inf,
      (sfu fn a).toNat = k + (if neg then f32.sgn else 0) ∧ (k < f32.inf → f (v k + v (k + 1))) ∧ (0 < k → g (v (k - 1) + v k))
    at_ .rcp s (fun y => 2 ≤ x * y) (fun y => x * y ≤ 2) ∧
    (s = false → at_ .sqrt false (fun y => 4 * x ≤ y ^ 2) (fun y => y ^ 2 ≤ 4 * x)) ∧
    (s = false → at_ .rsq false (fun y => 4 ≤ x * y ^ 2) (fun y => x * y ^ 2 ≤ 4)))

/-- R182 to R186: conversions 6 after the issue, the special functions 12 after it. CVT8 also leaves each active lane's RNG after
its steps (R61, R184). What each conversion computes: CVT rounds to an integer and clamps, or encodes the value in the target; CVT8 writes
the bytes it names and keeps the others; CVTF8 encodes the bytes it names, exactly in binary32 and bfloat16; the special cases of SFU. -/
def Obligations.ConvertResults : Prop :=
  (∀ (s : State) (c : Ctl) (code : CvtCode) (r : Rnd) (r8 : Cvt8Rnd) (sat : Bool) (fn : SfuFn) (d a : Operand)
    (ctl : BitVec 19),
    WarpWrites s (.cvt c code r d a) c 6 d (fun e l => cvtValue code r (srcI e l a)) ∧
    WarpDoes s (.cvt8 c r8 sat d a ctl) c (fun e =>
      let out (l : Nat × Nat) : Word32 × Word32 :=
        cvt8Lane r8 sat ctl (srcI e l a) (regV e l d 0) (e.b.thread l.2).rng
      retireFixed
        { e with b := e.eff.foldl (fun b l => b.modThread l.2 fun th => { th with rng := (out l).2 }) e.b }
        (.cvt8 c r8 sat d a ctl) 6 ⟨e.eff.map fun l => (l.2, regOf e.b l.2 d, (out l).1), []⟩) ∧
    WarpWrites s (.cvtf8 c r d a ctl) c 6 d (fun e l => cvtf8Value r ctl (srcI e l a)) ∧
    WarpWrites s (.sfu c fn d a) c 12 d (fun e l => sfu fn (srcI e l a))) ∧
  (∀ (r : Rnd) (a : Word32),
    cvtValue .f32s32 r a = w32 (f32.enc r (.fin (decide (a.toInt < 0)) a.toInt.natAbs 0)) ∧
    cvtValue .f32u32 r a = w32 (f32.enc r (.fin false a.toNat 0)) ∧
    cvtValue .f16f32 r a = w32 (f16.enc r (f32.dec a.toNat)) ∧ cvtValue .bf16f32 r a = w32 (bf16.enc r (f32.dec a.toNat)) ∧
    cvtValue .f32f16 r a = w32 (f32.enc r (f16.dec (a.toNat % 2 ^ 16))) ∧
    cvtValue .f32bf16 r a = w32 (f32.enc r (bf16.dec (a.toNat % 2 ^ 16))) ∧
    ∀ s m e, f32.dec a.toNat = .fin s m e → ∃ n : Int, IntRounds r (f32.dec a.toNat).val n ∧
      cvtValue .s32f32 r a = BitVec.ofInt 32 (max (-(2 ^ 31)) (min (2 ^ 31 - 1) n)) ∧
      cvtValue .u32f32 r a = BitVec.ofInt 32 (max 0 (min (2 ^ 32 - 1) n)) ∧
      cvtValue .f32f32 r a = w32 (f32.enc r (.fin s n.natAbs 0))) ∧
  (∀ (r : Rnd) (a : Word32), (f32.dec a.toNat = .nan → cvtValue .f32f32 r a = 0x7FC00000) ∧
    (∀ s, f32.dec a.toNat = .inf s → cvtValue .f32f32 r a = a)) ∧
  (∀ (r8 : Cvt8Rnd) (sat : Bool) (ctl : BitVec 19) (a d rng : Word32),
    let f := B8.ofCode (ctl.toNat % 64)
    let pos := ctl.toNat / 64 % 4
    let half := if ctl.getLsbD 9 then bf16 else f16
    let conv (x : FV) (g : Word32) : Nat := match r8 with
      | .mode r => f.enc (.mode r) sat x
      | .sr => f.enc (.sr (g.toNat % 256)) sat x
    let next (g : Word32) : Word32 := match r8 with
      | .mode _ => g
      | .sr => rngStep g
    let out := cvt8Lane r8 sat ctl a d rng
    let byte (x : Word32) (j : Nat) : Nat := x.toNat / 256 ^ j % 256
    (ctl.getLsbD 8 = false → out.2 = next rng ∧ ∀ j < 4,
      byte out.1 j = if j = pos then conv (f32.dec a.toNat) rng % 256 else byte d j) ∧
    (ctl.getLsbD 8 = true → out.2 = next (next rng) ∧ ∀ j < 4,
      byte out.1 j = if j = pos then conv (half.dec (a.toNat % 2 ^ 16)) rng % 256
        else if j = pos + 1 then conv (half.dec (a.toNat / 2 ^ 16)) (next rng) % 256 else byte d j)) ∧
  (∀ (r : Rnd) (ctl : BitVec 19) (a : Word32),
    let f := B8.ofCode (ctl.toNat % 64)
    let pos := ctl.toNat / 64 % 4
    let tgt := ctl.toNat / 256 % 4
    let el (j : Nat) : FV := f.dec (a.toNat / 256 ^ j % 256)
    let two (g : Fmt) : Prop := (cvtf8Value r ctl a).extractLsb' 0 16 = BitVec.ofNat 16 (g.enc r (el pos)) ∧
      (cvtf8Value r ctl a).extractLsb' 16 16 = BitVec.ofNat 16 (g.enc r (el (pos + 1)))
    (tgt = 0 → cvtf8Value r ctl a = w32 (f32.enc r (el pos))) ∧ (tgt = 1 → two f16) ∧ (tgt = 2 → two bf16)) ∧
  (∀ (n c : Nat) (r : Rnd) (s : Bool) (m : Nat) (e : Int), n < 64 → n % 8 ≠ 0 → c < 256 → (B8.ofCode n).dec c = .fin s m e →
    (f32.dec (f32.enc r (.fin s m e))).val = (FV.fin s m e).val ∧ (bf16.dec (bf16.enc r (.fin s m e))).val = (FV.fin s m e).val) ∧
  (∀ (a : Word32),
    (f32.dec a.toNat = .nan → ∀ fn, sfu fn a = w32 f32.nan) ∧
    (∀ s e, f32.dec a.toNat = .fin s 0 e →
      sfu .rcp a = w32 (f32.enc .rne (.inf s)) ∧ sfu .rsq a = w32 (f32.enc .rne (.inf s)) ∧ sfu .sqrt a = a ∧
      sfu .ex2 a = 0x3F800000 ∧ sfu .lg2 a = 0xFF800000 ∧ sfu .sin a = a ∧ sfu .cos a = 0x3F800000 ∧ sfu .tanh a = a) ∧
    (f32.dec a.toNat = .inf false →
      sfu .rcp a = 0 ∧ sfu .rsq a = 0 ∧ sfu .sqrt a = a ∧ sfu .ex2 a = a ∧ sfu .lg2 a = a ∧ sfu .sin a = w32 f32.nan ∧
      sfu .cos a = w32 f32.nan ∧ sfu .tanh a = 0x3F800000) ∧
    (f32.dec a.toNat = .inf true →
      sfu .rcp a = 0x80000000 ∧ sfu .rsq a = w32 f32.nan ∧ sfu .sqrt a = w32 f32.nan ∧ sfu .ex2 a = 0 ∧ sfu .lg2 a = w32 f32.nan ∧
      sfu .sin a = w32 f32.nan ∧ sfu .cos a = w32 f32.nan ∧ sfu .tanh a = 0xBF800000) ∧
    (∀ m e, f32.dec a.toNat = .fin true m e → 0 < m →
      sfu .rsq a = w32 f32.nan ∧ sfu .sqrt a = w32 f32.nan ∧ sfu .lg2 a = w32 f32.nan) ∧
    (∀ s m e, f32.dec a.toNat = .fin s m e → 2 ^ 20 ≤ |(FV.fin s m e).val| → sfu .sin a = w32 f32.nan ∧ sfu .cos a = w32 f32.nan) ∧
    (∀ s m e (n : Int), f32.dec a.toNat = .fin s m e → -149 ≤ n → n ≤ 127 → (FV.fin s m e).val = n →
      sfu .ex2 a = w32 (f32.enc .rne (.fin false 1 n))) ∧
    (∀ m e (n : Int), f32.dec a.toNat = .fin false m e → (FV.fin false m e).val = 2 ^ n →
      sfu .lg2 a = w32 (f32.enc .rne (.fin (decide (n < 0)) n.natAbs 0))))

/-- R186: EX2, LG2, SIN, COS and TANH are faithful: the result is the exact value where binary32 holds it, else one of the two
binary32 values that bracket it. Which of the two is a free value (log entry 9). -/
def Obligations.FaithfulFunctions : Prop :=
  ∀ (a : Word32) (s : Bool) (m : Nat) (e : Int), f32.dec a.toNat = .fin s m e → 0 < m →
    let x : ℝ := ((FV.fin s m e).val : ℝ)
    let v (k : Nat) : ℝ := (codeVal 24 (-149) k : ℝ)
    -- the code is the value's own, or next to it
    let near (fn : SfuFn) (y : ℝ) : Prop := ∃ k ≤ f32.inf, (sfu fn a).toNat = k + (if y < 0 then f32.sgn else 0) ∧
      (0 < k → v (k - 1) < |y|) ∧ (k + 1 < f32.inf → |y| < v (k + 1))
    near .ex2 ((2 : ℝ) ^ x) ∧ (s = false → near .lg2 (Real.logb 2 x)) ∧ near .tanh (Real.tanh x) ∧
    (|x| < 2 ^ 20 → near .sin (Real.sin x) ∧ near .cos (Real.cos x))

/-- R54, R57, R182: a NaN operand or an invalid operation gives the canonical NaN, in every mode and every IEEE format; a NaN converts
to 0, an infinity or a value beyond the range to the end of the range on its side. -/
def Obligations.NanAndRangeEdges : Prop :=
  (∀ (f : Fmt) (r : Rnd) (a b d : Nat),
    ((f.dec a = .nan ∨ f.dec b = .nan) →
      f.add r a b = f.nan ∧ f.sub r a b = f.nan ∧ f.mul r a b = f.nan ∧ f.fma r a b d = f.nan ∧
        f.minC a b = f.nan ∧ f.maxC a b = f.nan) ∧
    (f.dec d = .nan → f.fma r a b d = f.nan) ∧
    (∀ s, f.dec a = .inf s → f.dec b = .inf (!s) → f.add r a b = f.nan) ∧
    (∀ s, f.dec a = .inf s → f.dec b = .inf s → f.sub r a b = f.nan) ∧
    (∀ s t e, f.dec a = .inf s → f.dec b = .fin t 0 e → f.mul r a b = f.nan ∧ f.mul r b a = f.nan) ∧
    (∀ s t m e, f.dec a = .inf s → f.dec b = .fin t m e →
      f.add r a b = f.enc r (.inf s) ∧ f.add r b a = f.enc r (.inf s) ∧ f.sub r a b = f.enc r (.inf s) ∧
      f.sub r b a = f.enc r (.inf !s) ∧ (0 < m → f.mul r a b = f.enc r (.inf (s != t)) ∧ f.mul r b a = f.enc r (.inf (s != t)))) ∧
    (∀ s, f.dec a = .inf s → f.dec b = .inf s → f.add r a b = f.enc r (.inf s)) ∧
    (∀ s t, f.dec a = .inf s → f.dec b = .inf t → f.mul r a b = f.enc r (.inf (s != t))) ∧
    (f.dec a = .nan → f.enc r (f.dec a).abs = f.nan ∧ f.enc r (f.dec a).neg = f.nan) ∧
    -- the fused product and sum: an infinity times zero, and infinities of unlike signs
    (∀ s t e, f.dec a = .inf s → f.dec b = .fin t 0 e → f.fma r a b d = f.nan ∧ f.fma r b a d = f.nan) ∧
    (∀ s t, f.dec a = .inf s → (f.dec b = .inf t ∨ ∃ m e, 0 < m ∧ f.dec b = .fin t m e) →
      (∀ u, f.dec d = .inf u → let v := if u = (s != t) then f.enc r (.inf u) else f.nan
        f.fma r a b d = v ∧ f.fma r b a d = v) ∧
      (∀ u k g, f.dec d = .fin u k g → f.fma r a b d = f.enc r (.inf (s != t)) ∧ f.fma r b a d = f.enc r (.inf (s != t)))) ∧
    (∀ s m e t n g u, f.dec a = .fin s m e → f.dec b = .fin t n g → f.dec d = .inf u → f.fma r a b d = f.enc r (.inf u))) ∧
  (∀ (r : Rnd) (a : Word32),
    (f32.dec a.toNat = .nan → cvtValue .s32f32 r a = 0 ∧ cvtValue .u32f32 r a = 0) ∧
    (f32.dec a.toNat = .inf false → cvtValue .s32f32 r a = 0x7FFFFFFF ∧ cvtValue .u32f32 r a = 0xFFFFFFFF) ∧
    (f32.dec a.toNat = .inf true → cvtValue .s32f32 r a = 0x80000000 ∧ cvtValue .u32f32 r a = 0) ∧
    (∀ m e, f32.dec a.toNat = .fin false m e → 2 ^ 32 ≤ m * 2 ^ e.toNat → 0 ≤ e →
      cvtValue .s32f32 r a = 0x7FFFFFFF ∧ cvtValue .u32f32 r a = 0xFFFFFFFF) ∧
    (∀ m e, f32.dec a.toNat = .fin true m e → cvtValue .u32f32 r a = 0) ∧
    (∀ m e, f32.dec a.toNat = .fin true m e → 2 ^ 32 ≤ m * 2 ^ e.toNat → 0 ≤ e →
      cvtValue .s32f32 r a = 0x80000000))

-- Group 4 (R187 to R194).

/-- R188, R189, R191: what the predicate instructions write, 2 after their issue; AGREE and BALLOT 8 after it. -/
def Obligations.PredicateResults : Prop :=
  ∀ (s : State) (c : Ctl) (rel : Rel) (uns sense : Bool) (tt : BitVec 4) (m : AgreeMode) (p q r : PReg)
    (d a b : Operand),
    WarpDoes s (.iset c rel uns p a b) c (fun e => retireFixed e (.iset c rel uns p a b) 2
      ⟨[], e.eff.map fun l => (.p l.2 p.val, (relInt rel uns (srcI e l a) (srcI e l b)).toNat)⟩) ∧
    WarpDoes s (.fset c rel p a b) c (fun e => retireFixed e (.fset c rel p a b) 2
      ⟨[], e.eff.map fun l => (.p l.2 p.val, (relF32 rel (srcF e l a) (srcF e l b)).toNat)⟩) ∧
    WarpDoes s (.plop c tt p q r) c (fun e => retireFixed e (.plop c tt p q r) 2
      ⟨[], e.eff.map fun l => (.p l.2 p.val,
        (tt.getLsbD (2 * ((e.b.thread l.2).getP q.val).toNat + ((e.b.thread l.2).getP r.val).toNat)).toNat)⟩) ∧
    WarpWrites s (.pmov c d) c 2 d (fun e l => (e.b.thread l.2).p.setWidth 32) ∧
    WarpDoes s (.pmovP c a) c (fun e => retireFixed e (.pmovP c a) 2
      ⟨[], e.eff.flatMap fun l => (List.range 12).map fun n => (.p l.2 n, ((srcI e l a).getLsbD n).toNat)⟩) ∧
    WarpDoes s (.agree c m sense p q) c (fun e =>
      let h := e.eff.map fun l => (e.b.thread l.2).getP q.val != sense
      let v := match m with
        | .all => h.all id
        | .any => h.any id
        | .same => h.all id || h.all (!·)
        | .none => h.all (!·)
      retireFixed e (.agree c m sense p q) 8 ⟨[], e.eff.map fun l => (.p l.2 p.val, v.toNat)⟩) ∧
    WarpWrites s (.ballot c sense d q) c 8 d (fun e _ =>
      lanesMask (e.eff.filter fun l => (e.b.thread l.2).getP q.val != sense))

/-- R188: the relations. FSET orders the values, -0 equal to +0, between the infinities; an unordered pair makes NE alone true (R54). -/
def Obligations.Relations : Prop :=
  (∀ (uns : Bool) (a b : Word32),
    relInt .eq uns a b = decide (a = b) ∧ relInt .ne uns a b = decide (a ≠ b) ∧
    relInt .lt true a b = decide (a.toNat < b.toNat) ∧ relInt .lt false a b = decide (a.toInt < b.toInt) ∧
    relInt .le uns a b = !relInt .lt uns b a ∧ relInt .gt uns a b = relInt .lt uns b a ∧
    relInt .ge uns a b = !relInt .lt uns a b) ∧
  (∀ (r : Rel) (a b : Word32), (f32.dec a.toNat = .nan ∨ f32.dec b.toNat = .nan) → relF32 r a b = decide (r = .ne)) ∧
  ∀ (a b : Word32), f32.dec a.toNat ≠ .nan → f32.dec b.toNat ≠ .nan →
    let rel (lt eq gt : Prop) [Decidable lt] [Decidable eq] [Decidable gt] : Prop :=
      relF32 .lt a b = decide lt ∧ relF32 .eq a b = decide eq ∧ relF32 .gt a b = decide gt ∧
      relF32 .le a b = !decide gt ∧ relF32 .ne a b = !decide eq ∧ relF32 .ge a b = !decide lt
    let x := f32.dec a.toNat
    let y := f32.dec b.toNat
    ((∀ s, x ≠ .inf s) → (∀ s, y ≠ .inf s) → rel (x.val < y.val) (x.val = y.val) (y.val < x.val)) ∧
    (x = .inf false → rel False (y = .inf false) (y ≠ .inf false)) ∧
    (x = .inf true → rel (y ≠ .inf true) (y = .inf true) False) ∧
    (y = .inf false → rel (x ≠ .inf false) (x = .inf false) False) ∧
    (y = .inf true → rel False (x = .inf true) (x ≠ .inf true))

/-- R190, R192 to R194: SHFL, REMAP, XWIN and XSET write after their latency, MSR at once. R190: what a lane's SHFL reads. The source
number that a mode gives is taken without wrap; a source out of the block, that does not run in the reading warp, or that has ended gives
poison and a false predicate. R192: REMAP reads the remapping table, zero-extended, or 0 from 2^F0 on. -/
def Obligations.LaneResults : Prop :=
  (∀ (s : State) (c : Ctl) (mode : ShflMode) (pr : Option PReg) (x : XReg) (base len : BitVec 19) (d a b : Operand),
      WarpDoes s (.shfl c mode pr d a b) c (fun e => retireFixed e (.shfl c mode pr d a b) 8
        ⟨e.eff.map fun l => (l.2, regOf e.b l.2 d, (shflLane e mode a b l).1),
          match pr with
          | some p => e.eff.map fun l => (Cell.p l.2 p.val, (shflLane e mode a b l).2.toNat)
          | none => []⟩) ∧
      WarpDoes s (.xwin c x base len) c (fun e => retireFixed e (.xwin c x base len) 4
        ⟨[], (dedup (e.eff.map fun l => l.2 / 32)).map fun h => (.xwin h x.val, base.toNat * 512 + len.toNat)⟩) ∧
      WarpDoes s (.xset c x a) c (fun e => retireFixed e (.xset c x a) 4
        ⟨[], e.eff.map fun l => (.x l.2 x.val, (srcI e l a).toNat % 2 ^ 16)⟩) ∧
      WarpDoes s (.msr c .rng a) c (fun e => e.put
        (e.eff.foldl (fun b l => b.modThread l.2 fun th =>
          { th with rng := if srcI e l a = 0 then 1 else srcI e l a }) (killMarks e.b e.eff (.msr c .rng a)))
        (e.w.advance c)) ∧
      WarpDoes s (.msr c .schk a) c (fun e => e.put
        ((dedup (e.eff.map fun l => l.2 / 32)).foldl (fun b h =>
          { b with homes := b.homes.modify h fun y => { y with schk := (srcI e e.first a).getLsbD 0 } })
          (killMarks e.b e.eff (.msr c .schk a)))
        (e.w.advance c)) ∧
      WarpWrites s (.remap c d a) c 8 d (fun e l =>
        if (srcI e l a).toNat < 2 ^ (e.b.hdr.widths.getD 0 0) then (e.b.remap.getD (srcI e l a).toNat 0).setWidth 32
        else 0)) ∧
  (∀ (e : WEnv) (a b : Operand) (l : Nat × Nat),
      let v := (srcI e l b).toNat
      let at_ (m : ShflMode) (src : Int) : Prop :=
        (∀ t : Nat, src = t → t < e.b.nThreads → (e.b.remap.getD t 0).getLsbD 5 = true →
          e.w.lanes.contains (some t) = true → (e.b.thread t).live = true →
          shflLane e m a b l = (readV e.b e.w t (regOf e.b t a), true)) ∧
        ((src < 0 ∨ (e.b.nThreads : Int) ≤ src) → shflLane e m a b l = (poison, false)) ∧
        (∀ t : Nat, src = t → ((e.b.thread t).live = false ∨ e.w.lanes.contains (some t) = false) →
          shflLane e m a b l = (poison, false))
      at_ .idx v ∧ at_ .up ((l.2 : Int) - v) ∧ at_ .down ((l.2 : Int) + v) ∧ at_ .xor ((l.2 ^^^ v : Nat) : Int))

/-- R76, R77, R80, R140, R160: what a source gives. An immediate is sign-extended in an integer position, the top 19 bits in a binary32
position; a register operand is read in the lane, an indexed one at base + x + d; a pair has its low word first. What each special
register reads as on its engine (R11): SCHK in a compacted warp is each lane's own home warp's bit, the model's choice (log entry
78). On the sequencer WF0 reads 0 and the trap-record registers read the block's record (R107). An operand that a warp takes once is
its lowest-slot lane's. -/
def Obligations.OperandValues : Prop :=
  (∀ (e : WEnv) (l : Nat × Nat) (v : BitVec 19) (r : BitVec 8) (x : BitVec 2) (k : BitVec 6) (u m : Bool),
    let reg : Operand := .reg r u m
    let ix : Operand := .idx x k u m
    let win := (e.b.home l.2).xwin.getD x.toNat (0, 0)
    (srcI e l (.imm v)).toInt = v.toInt ∧ (srcF e l (.imm v)).toNat = v.toNat * 2 ^ 13 ∧ (srcU e l (.imm v)).toNat = v.toNat ∧
    (srcPair e l (.imm v)).toNat = v.toNat ∧
    regOf e.b l.2 reg = r.toNat ∧ regOf e.b l.2 ix = win.1 + (((e.b.thread l.2).getX x.toNat).toNat + k.toNat) ∧
    (∀ o, o = reg ∨ o = ix → srcI e l o = readV e.b e.w l.2 (regOf e.b l.2 o) ∧ srcF e l o = srcI e l o ∧ srcU e l o = srcI e l o ∧
      (srcPair e l o).toNat = (srcI e l o).toNat + 2 ^ 32 * (readV e.b e.w l.2 (regOf e.b l.2 o + 1)).toNat)) ∧
  (∀ (e : WEnv) (l : Nat × Nat), l.2 < 2 ^ 32 → l.1 < 2 ^ 32 → e.w.k < 2 ^ 32 →
    let sp (n : BitVec 9) : Word32 := srcI e l (.special n)
    (sp 0x000).toNat = l.2 ∧ (sp 0x001).toNat = l.1 ∧ (sp 0x002).toNat = e.w.k ∧
    (∀ j < 32, (sp 0x003).getLsbD j = true ↔ ∃ y ∈ e.eff, y.1 = j) ∧
    (∀ j < 6, e.b.hdr.widths.getD j 0 < 32 → (sp (BitVec.ofNat 9 (8 + j))).toNat =
      (e.b.workid + l.2) / 2 ^ (e.b.hdr.widths.take j).sum % 2 ^ e.b.hdr.widths.getD j 0) ∧
    sp 0x010 = (e.b.thread l.2).rng ∧ sp 0x011 = (if (e.b.home l.2).schk then 1 else 0) ∧
    ∀ n, srcF e l (.special n) = srcI e l (.special n)) ∧
  (∀ (e : SEnv) (v : BitVec 19) (r : BitVec 8) (u m : Bool),
    let sp (n : BitVec 9) : Word64 := srcS e (.special n)
    (srcS e (.imm v)).toInt = v.toInt ∧ (srcSU e (.imm v)).toNat = v.toNat ∧
    srcS e (.reg r u m) = e.q.get r.toNat ∧ srcSU e (.reg r u m) = e.q.get r.toNat ∧ regS (.reg r u m) = r.toNat ∧
    sp 0x008 = 0 ∧
    (∀ j, 1 ≤ j → j < 6 → e.b.hdr.widths.getD j 0 < 64 → (sp (BitVec.ofNat 9 (8 + j))).toNat =
      e.b.workid / 2 ^ (e.b.hdr.widths.take j).sum % 2 ^ e.b.hdr.widths.getD j 0) ∧
    sp 0x018 = e.q.clke ∧ sp 0x019 = e.q.clkl ∧
    sp 0x020 = BitVec.ofNat 64 e.b.trap.code ∧ (sp 0x021).toNat = e.b.trap.pc.toNat ∧ sp 0x022 = BitVec.ofNat 64 e.b.trap.addr ∧
    sp 0x023 = BitVec.ofNat 64 e.b.trap.aux ∧ sp 0x024 = BitVec.ofNat 64 e.b.trap.warp ∧
    (sp 0x025).toNat = e.b.trap.lanes.toNat) ∧
  -- an operand taken once
  ∀ (e : WEnv) (l : Nat × Nat) (r : List (Nat × Nat)) (o : Operand), e.eff = l :: r →
    firstV e o = (srcU e l o).toNat ∧ firstPair e o = (srcPair e l o).toNat

-- Latency, bypass and marks (R84 to R86, R141, R143, R145).

/-- R86, R143, R193: a reader at or past the latency sees the result of a fixed-latency instruction, from the bypass or from the register
file, whatever was pending before it; a reader before the latency sees the register as it was before the instruction. So do readers of a
predicate, of an index register and of a window. A transient destination is read from the bypass alone: the register keeps what it
held. -/
def Obligations.LatencyShows : Prop :=
  (∀ (e : WEnv) (i : Instr) (lat clk : Nat) (v : List (Nat × Nat × Word32)) (t n : Nat) (x : Word32) (b : Block) (w : Warp),
      writesV i = true → isTransient i = false → (v.map fun y => (y.1, y.2.1)).Nodup → (t, n, x) ∈ v →
      (retireFixed e i lat ⟨v, []⟩).block e.b.id = some b → b.warp? e.w.k = some w →
      boundV e.b e.w t n = false → t < e.b.threads.length → e.w.clock + lat ≤ clk →
      b.readAt w clk t n = x ∧ b.readAt { w with byp := [] } clk t n = x) ∧
  (∀ (e : WEnv) (i : Instr) (lat clk : Nat) (v : List (Nat × Nat × Word32)) (t n : Nat) (x : Word32) (b : Block) (w : Warp),
      writesV i = true → isTransient i = false → (t, n, x) ∈ v →
      (retireFixed e i lat ⟨v, []⟩).block e.b.id = some b → b.warp? e.w.k = some w → clk < e.w.clock + lat →
      b.readAt w clk t n = (killMarks e.b e.eff i).readAt { e.w with byp := [] } clk t n) ∧
  (∀ (e : WEnv) (i : Instr) (lat clk : Nat) (r : Res) (b : Block) (w : Warp),
      (r.other.map Prod.fst).Nodup → (retireFixed e i lat r).block e.b.id = some b → b.warp? e.w.k = some w →
      let due := e.w.clock + lat
      let old := killMarks e.b e.eff i
      (∀ t n x, (Cell.p t n, x) ∈ r.other → n < 12 → t < e.b.threads.length →
        (due ≤ clk → b.predAt w clk t n = (x % 2 == 1)) ∧ (clk < due → b.predAt w clk t n = old.predAt e.w clk t n)) ∧
      (∀ t n x, (Cell.x t n, x) ∈ r.other → n < (e.b.thread t).x.length → t < e.b.threads.length →
        (due ≤ clk → b.xAt w clk t n = BitVec.ofNat 16 x) ∧ (clk < due → b.xAt w clk t n = old.xAt e.w clk t n)) ∧
      (∀ h n x, (Cell.xwin h n, x) ∈ r.other → h < e.b.homes.length → n < (e.b.home (32 * h)).xwin.length →
        (due ≤ clk → b.xwinAt w clk h n = (x / 512, x % 512)) ∧ (clk < due → b.xwinAt w clk h n = old.xwinAt e.w clk h n))) ∧
  (∀ (e : WEnv) (i : Instr) (lat clk : Nat) (v : List (Nat × Nat × Word32)) (t n : Nat) (x : Word32) (b : Block) (w : Warp),
      writesV i = true → isTransient i = true → (v.map fun y => (y.1, y.2.1)).Nodup → (t, n, x) ∈ v →
      (retireFixed e i lat ⟨v, []⟩).block e.b.id = some b → b.warp? e.w.k = some w →
      boundV e.b e.w t n = false → ((killMarks e.b e.eff i).thread t).dead.contains n = false →
      (e.w.clock + lat ≤ clk → b.readAt w clk t n = x) ∧
      b.readAt { w with byp := [] } clk t n = (killMarks e.b e.eff i).readAt { e.w with byp := [] } clk t n)

/-- R141, R145, R236: a dead or a bound register reads as poison, whatever the bypass holds; in a path's warp a register that a batch of
the thread's home warp binds is bound too (log entry 58). A source with the last-use bit is dead afterwards in every effective lane, and
in no other: A and B, D where it is a source, an indexed source's own register of the lane; of a pair the register it names (log entry
20). -/
def Obligations.DeadRegisters : Prop :=
  (∀ (b : Block) (w : Warp) (t n : Nat),
      ((b.thread t).dead.contains n = true ∨ (w.binds.any fun y => y.1 == n) = true ∨
        ∃ h ∈ b.parked, some t ∈ h.lanes ∧ ∃ y ∈ h.binds, y.1 = n) → readV b w t n = 0xFFBADBAD) ∧
  (∀ (b : Block) (c : Ctl) (eff : List (Nat × Nat)) (d a o : Operand) (v : Option (BitVec 19)) (lm : LdMode) (sm : StMode)
    (uns x : Bool) (rnd : Rnd) (ord : AcasOrd) (p : PReg) (t : Nat), t < b.threads.length →
      let marked (y : Operand) : Bool := match y with
        | .reg _ u _ | .idx _ _ u _ => u
        | _ => false
      let rule (i : Instr) (srcs : List Operand) : Prop := let b' := killMarks b eff i
        (∀ m, m ∈ (b'.thread t).dead ↔ m ∈ (b.thread t).dead ∨
          (∃ l ∈ eff, l.2 = t) ∧ ∃ y ∈ srcs, marked y = true ∧ regOf b t y = m) ∧ (b'.thread t).v = (b.thread t).v
      rule (.not c d a) [a] ∧ rule (.iadd c d a o) [a, o] ∧ rule (.imad c d a o) [a, o] ∧ rule (.shr c uns d a o) [a, o] ∧
      rule (.ffma c rnd d a o) [a, o] ∧ rule (.sel c p d a o) [a, o] ∧
      rule (.st c sm d a v) [d, a] ∧ rule (.stl c sm d a v) [d, a] ∧ rule (.ld c lm d a v) [a] ∧
      rule (.acas c x ord d a o) [a, o] ∧ rule (.ret c a) [a])


/-- R76, R85, R86: the frame of the fixed-latency instructions. At its issue such an instruction changes no register, predicate,
index register, window, counter or RNG of any thread (its results come later), no byte of memory, and nothing outside the block. -/
def Obligations.FixedFrame : Prop :=
  ∀ (s : State) (i : Instr) (c : Ctl) (e : WEnv), fixedClass i = true → i.ctl = some c → s.warpStart i c = some e →
    ∃ t b', exec i s = .next t ∧ t.block e.b.id = some b' ∧ s.sameOutside t e.b.id ∧ e.b.sameRest b' ∧ b'.seq = e.b.seq ∧
      (∀ u, (b'.thread u).v = (e.b.thread u).v ∧ (b'.thread u).p = (e.b.thread u).p ∧ (b'.thread u).x = (e.b.thread u).x ∧
        (b'.thread u).nest = (e.b.thread u).nest ∧ (b'.thread u).rng = (e.b.thread u).rng ∧
        (b'.thread u).live = (e.b.thread u).live) ∧
      ∀ w, w ∈ b'.warps → w.k ≠ e.w.k → w ∈ e.b.warps

-- The sequencer's own instructions (R135 to R137).

/-- R135: the value each arithmetic instruction of the sequencer writes to S[d]; SSET and QLOP write Q[d]. -/
def Obligations.SequencerResults : Prop :=
  ∀ (s : State) (c : Ctl) (uns : Bool) (rel : Rel) (tt : BitVec 4) (d : SReg) (q p r : QReg) (m : SMovSrc) (v : BitVec 32)
    (a b : Operand),
    SeqWrites s (.smov c d m) c d (fun e => match m with
      | .short o => srcS e o
      | .sext x => x.signExtend 64
      | .zext x => x.setWidth 64) ∧
    SeqWrites s (.smovh c d v) c d (fun e => v ++ (e.q.get d.val).setWidth 32) ∧
    SeqWrites s (.sadd c d a b) c d (fun e => srcS e a + srcS e b) ∧
    SeqWrites s (.ssub c d a b) c d (fun e => srcS e a - srcS e b) ∧
    SeqWrites s (.smul c d a b) c d (fun e => srcS e a * srcS e b) ∧
    SeqWrites s (.smulhi c uns d a b) c d (fun e =>
      if uns then BitVec.ofNat 64 ((srcS e a).toNat * (srcS e b).toNat / 2 ^ 64)
      else BitVec.ofInt 64 ((srcS e a).toInt * (srcS e b).toInt / 2 ^ 64)) ∧
    SeqWrites s (.sdiv c uns d a b) c d (fun e =>
      if uns then (if srcS e b = 0 then BitVec.allOnes 64 else srcS e a / srcS e b)
      else if srcS e b = 0 then BitVec.allOnes 64
      else BitVec.ofInt 64 ((srcS e a).toInt.tdiv (srcS e b).toInt)) ∧
    SeqWrites s (.srem c uns d a b) c d (fun e =>
      if uns then (if srcS e b = 0 then srcS e a else srcS e a % srcS e b)
      else if srcS e b = 0 then srcS e a
      else BitVec.ofInt 64 ((srcS e a).toInt.tmod (srcS e b).toInt)) ∧
    SeqWrites s (.smin c uns d a b) c d (fun e => if relInt .lt uns (srcS e b) (srcS e a) then srcS e b else srcS e a) ∧
    SeqWrites s (.smax c uns d a b) c d (fun e => if relInt .lt uns (srcS e a) (srcS e b) then srcS e b else srcS e a) ∧
    SeqWrites s (.sand c d a b) c d (fun e => srcS e a &&& srcS e b) ∧
    SeqWrites s (.sor c d a b) c d (fun e => srcS e a ||| srcS e b) ∧
    SeqWrites s (.sxor c d a b) c d (fun e => srcS e a ^^^ srcS e b) ∧
    SeqWrites s (.sshl c d a b) c d (fun e => srcS e a <<< ((srcS e b).toNat % 64)) ∧
    SeqWrites s (.sshr c uns d a b) c d (fun e =>
      if uns then srcS e a >>> ((srcS e b).toNat % 64) else (srcS e a).sshiftRight ((srcS e b).toNat % 64)) ∧
    SeqWrites s (.spopc c d a) c d (fun e => BitVec.ofNat 64 (popCount (srcS e a))) ∧
    SeqWrites s (.sclz c d a) c d (fun e => BitVec.ofNat 64 (leadZeros (srcS e a))) ∧
    SeqWrites s (.ssel c q d a b) c d (fun e => if e.q.getQ q.val then srcS e a else srcS e b) ∧
    SeqDoes s (.sset c rel uns q a b) c (fun e =>
      e.put (e.q.advance.putQ q.val (relInt rel uns (srcS e a) (srcS e b)))) ∧
    SeqDoes s (.qlop c tt q p r) c (fun e =>
      e.put (e.q.advance.putQ q.val (tt.getLsbD (2 * (e.q.getQ p.val).toNat + (e.q.getQ r.val).toNat))))

/-- R135: the frame of the sequencer's arithmetic. Every S register but S[d], every Q register, CLKE and CLKL, every thread and
everything outside the block are as before, and the PC is 12 further. -/
def Obligations.SequencerFrame : Prop :=
  ∀ (s : State) (i : Instr) (c : Ctl) (e : SEnv) (d : SReg), seqAlu i = some d → i.ctl = some c → s.seqStart i c = some e →
    ∃ t b' q', exec i s = .next t ∧ t.block e.b.id = some b' ∧ b'.seq = some q' ∧ s.sameOutside t e.b.id ∧
      e.b.sameRest b' ∧ b'.threads = e.b.threads ∧ b'.warps = e.b.warps ∧
      (∀ n, n ≠ d.val → q'.get n = e.q.get n) ∧ q'.q = e.q.q ∧ q'.clke = e.q.clke ∧ q'.clkl = e.q.clkl ∧
      q'.pc = e.q.pc + 12 ∧ q'.tickets = e.q.tickets ∧ q'.exited = e.q.exited

/-- R81, R135: on the sequencer a word whose guard does not hold only moves the PC on. -/
def Obligations.SequencerSkips : Prop :=
  ∀ (s : State) (i : Instr) (c : Ctl) (b : Block) (q : SeqThread), i.ctl = some c → s.issuer = some (.seq b q) →
    s.canIssue (.seq b q) = true → i.wfOn .seq = true → seqBlocked s b q i = false → guardS q c = false →
    exec i s = .next (s.setBlock { b with seq := some { q with pc := q.pc + 12, wait := .none } })

/-- R74, R135: branches, calls and returns of the sequencer. SCALL reads its register before it writes the link. R136: SBRX reads the
table's header and its entry for the index, and branches to T + 12 times the entry's offset. -/
def Obligations.SequencerBranches : Prop :=
  (∀ (s : State) (c : Ctl) (off : Off) (o : BitVec 19) (d a : SReg) (v : BitVec 32),
      SeqDoes s (.sbr c off) c (fun e => e.put { e.q with pc := branchTo e.q.pc (offInt off), wait := .none }) ∧
      (∀ (x : SCallTgt) (f : SEnv → Addr54),
        (x = .short o ∧ f = fun e => branchTo e.q.pc o.toInt) ∨ (x = .long v ∧ f = fun e => branchTo e.q.pc v.toInt) ∨
          (x = .reg a ∧ f = fun e => (e.q.get a.val).setWidth 54) →
        SeqIf s (.scall c d x) c (fun e => (f e).toNat % 4 = 0) (fun e =>
          e.put { e.q with pc := f e, wait := .none, s := e.q.s.set d.val ((e.q.pc + 12).setWidth 64) }) ∧
        SeqTraps s (.scall c d x) c (fun e => (f e).toNat % 4 ≠ 0) (fun e => ⟨fAlign, (f e).toNat, 0, none⟩)) ∧
      SeqIf s (.sret c a) c (fun e => (e.q.get a.val).toNat % 4 = 0)
        (fun e => e.put { e.q with pc := (e.q.get a.val).setWidth 54, wait := .none }) ∧
      SeqTraps s (.sret c a) c (fun e => (e.q.get a.val).toNat % 4 ≠ 0)
        (fun e => ⟨fAlign, (e.q.get a.val).toNat % 2 ^ 54, 0, none⟩)) ∧
  (∀ (s : State) (c : Ctl) (a : SReg) (table : BitVec 19) (e : SEnv) (s1 s2 : State) (count : Nat) (mbz : Bool) (join : Int)
      (pc : Addr54),
      let t := branchTo e.q.pc table.toInt
      let x := (e.q.get a.val).toNat
      s.seqStart (.sbrx c a table) c = some e → e.s.tableHead e.q.aid e.b t = .ok (s1, count, mbz, join) →
      (mbz = false → x < count → s1.tableEntry e.q.aid e.b t x = .ok (s2, pc) →
        exec (.sbrx c a table) s = .next (s2.setBlock { e.b with seq := some { e.q with pc := pc, wait := .none } })) ∧
      (e.b.specOf e.q.aid = none → (mbz = true ∨ count ≤ x) →
        exec (.sbrx c a table) s = .next (takeTrap (e.s.dropFails e.b.die e.q.aid) e.b.id
          ⟨fBrxTarget, e.q.pc, t.toNat, if mbz then 1 else 0, 0x3F, 0⟩)))

/-- R127, R130, R137: a push joins the decision queue while it holds fewer than 32 entries and waits while it is full; in a
handler-only thread it is discarded; without a live warp its entry is freed at once. That such a push still counts in the push count is
the model's choice (log entry 72). The two waits of WWAIT. -/
def Obligations.DecisionPush : Prop :=
  ∀ (s : State) (c : Ctl) (a : PushSrc) (d x : SReg),
    let v (e : SEnv) : Word64 := match a with
      | .short o => srcS e o
      | .long y => y.signExtend 64
    SeqIf s (.dqpush c a) c (fun e => e.q.handlerOnly = false ∧ e.b.liveHomes ≠ [] ∧ e.b.dq.length < 32)
      (fun e => e.s.setBlock { e.b with dq := e.b.dq ++ [v e], seq := some e.q.advance }) ∧
    SeqWaits s (.dqpush c a) c (fun e => e.q.handlerOnly = false ∧ e.b.liveHomes ≠ [] ∧ 32 ≤ e.b.dq.length)
      (fun _ => .push) ∧
    SeqIf s (.dqpush c a) c (fun e => e.q.handlerOnly = true) (fun e => e.put e.q.advance) ∧
    SeqIf s (.dqpush c a) c (fun e => e.q.handlerOnly = false ∧ e.b.liveHomes = [])
      (fun e => e.s.setBlock { e.b with dqBase := e.b.dqBase + e.b.dq.length + 1, dq := [], seq := some e.q.advance }) ∧
    SeqIf s (.wwaitDq c) c (fun e => ∀ h ∈ e.b.liveHomes, e.b.rdpos h = e.b.push) (fun e => e.put e.q.advance) ∧
    SeqWaits s (.wwaitDq c) c (fun e => ∃ h ∈ e.b.liveHomes, e.b.rdpos h ≠ e.b.push) (fun _ => .wwait) ∧
    SeqIf s (.wwaitExit c d x) c
      (fun e => (∀ h ∈ e.b.liveHomes, ((e.q.get x.val).toNat % 2 ^ e.b.nWarps).testBit h = false) ∧
        e.s.warpsDone e.b ((e.q.get x.val).toNat % 2 ^ e.b.nWarps) = true)
      (fun e => e.put (e.q.advance.put d.val ((maskOf e.b.liveHomes).setWidth 64)))

-- Issue, faults and exceptions (R82, R107 to R111).

/-- R82, R87, R88, R140: the order of the checks before a warp's word acts: ILLEGAL, then REG.WINDOW, then the interlock's wait,
then STALL.SHORT with TRAUX naming the first register read early, then INDEX.RANGE. Where the interlock's wait stands, that INDEX.RANGE
comes last and over which registers the checks go is the model's choice (log entry 22). What each check decides: R77, R139: every
register that a field names, with those after it in a pair, quad or octet, is below B; R87: the registers of the fields and the
predicates, in every live lane, whose result is outstanding; R86, R88: the guard, then predicates that stand in no field (log entry 22),
then D (an index register, its window, then the register where D is read), A and B, and which register is early; R140: x + d is below
the window's length and the register below B, the first field that fails in an effective lane, TRAUX x + d of its lowest lane. -/
def Obligations.CheckOrder : Prop :=
  (∀ (e : WEnv) (i : Instr),
    let early := if checksStall e.b e.w && !e.w.waive then earlyRead e.b e.w i e.c else none
    (i.wfOn .warp = false → warpChecks e i = .error (.trap ⟨0x01, 0, 0, none⟩)) ∧
    (i.wfOn .warp = true → windowOk e.b i = false → warpChecks e i = .error (.trap ⟨0x02, 0, 0, none⟩)) ∧
    (i.wfOn .warp = true → windowOk e.b i = true →
      (∃ x ∈ touchedCells e.b e.w i e.c, x ∈ e.s.outstanding e.b.id) → warpChecks e i = .error (.wait .other e.s)) ∧
    (i.wfOn .warp = true → windowOk e.b i = true →
      (∀ x ∈ touchedCells e.b e.w i e.c, x ∉ e.s.outstanding e.b.id) →
      (∀ n, early = some n → warpChecks e i = .error (.trap ⟨0x04, 0, n, none⟩) ∧
        ∀ k, warpChecks e i (some k) = .error (.trap ⟨0x04, 0, k, none⟩)) ∧
      (∀ t, early = none → indexFault e.b e.eff i = some t → warpChecks e i = .error (.trap t)) ∧
      (early = none → indexFault e.b e.eff i = none → indexPairFault e.b e.eff i = false → boundWrite e i = none →
        warpChecks e i = .ok ()))) ∧
  (∀ (b : Block) (w : Warp) (c : Ctl) (d a o : BitVec 8) (u m v k x y : Bool) (ix : BitVec 2) (dis : BitVec 6) (off : Off)
      (xr : XReg) (p q r : PReg) (n tt : BitVec 19) (tt4 : BitVec 4) (sense : Bool),
    let rd : Operand := .reg d u m
    let ra : Operand := .reg a v k
    let rb : Operand := .reg o x y
    let xd : Operand := .idx ix dis u m
    let ts := (liveLanes b w).map Prod.snd
    -- REG.WINDOW
    (windowOk b (.iadd c rd ra rb) = true ↔ d.toNat < b.bnd ∧ a.toNat < b.bnd ∧ o.toNat < b.bnd) ∧
    (windowOk b (.call c rd off) = true ↔ d.toNat + 1 < b.bnd) ∧ (windowOk b (.ret c ra) = true ↔ a.toNat + 1 < b.bnd) ∧
    (windowOk b (.svc c rd ra n) = true ↔ d.toNat + 1 < b.bnd ∧ a.toNat + 7 < b.bnd) ∧
    (windowOk b (.clk c rd) = true ↔ d.toNat + 3 < b.bnd) ∧
    windowOk b (.not c xd (.imm n)) = true ∧
    -- the interlock
    (∀ z, z ∈ touchedCells b w (.iadd c rd ra rb) c ↔ ∃ t ∈ ts,
      (∃ j, (j = d.toNat ∨ j = a.toNat ∨ j = o.toNat) ∧ j < b.bnd ∧ z = .v t j) ∨
        ∃ g neg, c.guard = .pred g neg ∧ z = .p t g.toNat) ∧
    (∀ z, z ∈ touchedCells b w (.sel c p rd ra (.imm n)) c ↔ ∃ t ∈ ts,
      (∃ j, (j = d.toNat ∨ j = a.toNat) ∧ j < b.bnd ∧ z = .v t j) ∨ z = .p t p.val ∨
        ∃ g neg, c.guard = .pred g neg ∧ z = .p t g.toNat) ∧
    (∀ z, z ∈ touchedCells b w (.svc c rd ra n) c ↔ ∃ t ∈ ts,
      (∃ j, (d.toNat ≤ j ∧ j < d.toNat + 2 ∨ a.toNat ≤ j ∧ j < a.toNat + 8) ∧ j < b.bnd ∧ z = .v t j) ∨
        ∃ g neg, c.guard = .pred g neg ∧ z = .p t g.toNat) ∧
    (∀ z, z ∈ touchedCells b w (.not c xd (.imm n)) c ↔ ∃ t ∈ ts,
      (∃ j, j = ((b.home t).xwin.getD ix.toNat (0, 0)).1 + (((b.thread t).getX ix.toNat).toNat + dis.toNat) ∧ j < b.bnd ∧
        z = .v t j) ∨ ∃ g neg, c.guard = .pred g neg ∧ z = .p t g.toNat) ∧
    -- STALL.SHORT
    (let P (j : Nat) : Bool × Nat := (ts.any fun t => pendHas w (.p t j), j + 256)
     let V (j : BitVec 8) : Bool × Nat := (decide (j.toNat < b.bnd) && ts.any fun t => earlyV w t j.toNat, j.toNat)
     let X (j : Nat) : Bool × Nat := (ts.any fun t => pendHas w (.x t j), j + 512)
     let W (j : Nat) : Bool × Nat := (ts.any fun t => pendHas w (.xwin (t / 32) j), j + 768)
     let g : List (Bool × Nat) := match c.guard with
       | .pred j _ => [P j.toNat]
       | .always => []
     let reads (i : Instr) (l : List (Bool × Nat)) : Prop := earlyRead b w i c = (l.find? fun z => z.1).map fun z => z.2
     reads (.iadd c rd ra rb) (g ++ [V a, V o]) ∧ reads (.imad c rd ra rb) (g ++ [V d, V a, V o]) ∧
     reads (.sel c p rd ra rb) (g ++ [P p.val, V a, V o]) ∧ reads (.not c xd ra) (g ++ [X ix.toNat, W ix.toNat, V a]) ∧
     reads (.xset c xr ra) (g ++ [X xr.val, V a]) ∧ reads (.ballot c sense xd p) (g ++ [X ix.toNat, W ix.toNat, P p.val]) ∧
     reads (.plop c tt4 p q r) (g ++ [P q.val, P r.val]) ∧ reads (.pmov c rd) (g ++ (List.range 12).map P) ∧
     reads (.nop c) [] ∧ reads (.brd c n tt) []) ∧
    -- which results are early
    (∀ z, pendHas w z = true ↔ ∃ f ∈ w.pend, ∃ y ∈ f.vals, y.1 = z) ∧
    (∀ (t j : Nat) (pre post : List Byp) (f : Byp), w.byp = pre ++ f :: post →
      (∀ f' ∈ pre, ∀ y ∈ f'.vals, ¬ (y.1 = t ∧ y.2.1 = j)) → (∃ y ∈ f.vals, y.1 = t ∧ y.2.1 = j) →
      (earlyV w t j = true ↔ w.clock < f.due)) ∧
    (∀ (t j : Nat), (∀ f ∈ w.byp, ∀ y ∈ f.vals, ¬ (y.1 = t ∧ y.2.1 = j)) → earlyV w t j = pendHas w (.v t j))) ∧
  -- INDEX.RANGE
  ∀ (b : Block) (eff : List (Nat × Nat)) (c : Ctl) (d a o : Operand),
    let sum (l : Nat × Nat) (ix : BitVec 2) (dis : BitVec 6) : Nat := ((b.thread l.2).getX ix.toNat).toNat + dis.toNat
    let bad (y : Operand) : List (Nat × Nat) := match y with
      | .idx ix dis _ _ => eff.filter fun l =>
          let win := (b.home l.2).xwin.getD ix.toNat (0, 0)
          decide (win.2 ≤ sum l ix dis ∨ b.bnd ≤ win.1 + sum l ix dis)
      | _ => []
    let trap (y : Operand) : Option TrapInfo := match y with
      | .idx ix dis _ _ => (bad y).head?.map fun l => ⟨0x03, 0, sum l ix dis, some (lanesMask (bad y))⟩
      | _ => none
    indexFault b eff (.iadd c d a o) = (((trap d).or (trap a)).or (trap o))

/-- R82, R107: for every instruction, a failed check is taken as an exception, and TRLANES is the effective lane set. -/
def Obligations.FaultTaken : Prop :=
  ∀ (s : State) (i : Instr) (c : Ctl) (b : Block) (w : Warp) (x : TrapInfo), i.ctl = some c →
    s.issuer = some (.warp b w) → s.canIssue (.warp b w) = true →
    let e := warpEnv s b w c
    warpChecks e i = .error (.trap x) → x.lanes = none → e.b.specOf e.w.aid = none →
    ∃ aux, exec i s = .next (takeTrap (e.s.dropFails e.b.die e.w.aid) e.b.id
      ⟨x.code, e.w.pc, x.addr, aux, e.w.k, lanesMask e.eff⟩) ∧
      ((∀ st d a, i ≠ .mma c st d a) ∨ x.code ≠ 0x04 → aux = x.aux)

/-- R103, R107, R109, R317: while its block is held, stopped by an exception or with its die kernel, or where it has ended, an agent
executes nothing: every instruction leaves the state as it is. R87: a word that names a register with a result outstanding waits;
nothing but the warp's wait changes. That the wait comes before STALL.SHORT, and that a word that only writes such a register waits as a
reader does, is the model's choice (log entry 22). -/
def Obligations.IdleAndInterlocked : Prop :=
  (∀ (s : State) (i : Instr) (c : Ctl) (x : Issuer), i.ctl = some c → s.issuer = some x → s.canIssue x = false →
    exec i s = .next s) ∧
  (∀ (s : State) (i : Instr) (c : Ctl) (b : Block) (w : Warp), i.ctl = some c → s.issuer = some (.warp b w) →
    s.canIssue (.warp b w) = true →
    let e := warpEnv s b w c
    i.wfOn .warp = true → windowOk e.b i = true → (∃ x ∈ touchedCells e.b e.w i e.c, x ∈ e.s.outstanding e.b.id) →
    exec i s = .next (setWaitW e.s e.b.id e.w.k .other))


/-- R27, R107, R109, R111: taking an exception. The trap record is written; the handler starts at TRAPENTRY on the sequencer
thread, whose PC goes to the hidden register; without a handler, or inside one, the block goes to its die kernel, which is told. No
V register, predicate, window, warp or accumulator of the block changes, and no byte of memory. That TRAPENTRY is read at the physical
address its header had at admission is the model's reading (log entry 37). -/
def Obligations.TrapEntry : Prop :=
  ∀ (s : State) (b : Block) (r : TrapRec), s.block b.id = some b → b.spec = [] →
    let t := takeTrap s b.id r
    let entry : Addr54 := BitVec.ofNat 54 (leNat (bytesAt s.phys.bytes b.trapPa 8))
    (∀ q, b.hst = .run → b.hdr.trapv = true → b.seq = some q → q.exited = false → b.hdr.seqv = true →
      t.block b.id = some { b with
        trap := r, hst := .handler, seq := some { q with hidden := some q.pc, pc := entry, held := q.wait, wait := .none } }) ∧
    (∀ q, b.hst = .run → b.hdr.trapv = true → b.seq = some q → q.exited = true → b.hdr.seqv = true →
      t.block b.id = some { b with
        trap := r, hst := .handler
        seq := some { q with hidden := some q.pc, pc := entry, handlerOnly := true, wait := .none } }) ∧
    (b.hst = .run → b.hdr.trapv = true → b.seq = none →
      t.block b.id = some { b with
        trap := r, hst := .handler
        seq := some { SeqThread.fresh s.nextId entry with hidden := some entry, exited := true, handlerOnly := true } }) ∧
    (b.hst = .handler ∨ b.hdr.trapv = false → t.block b.id = some { b with trap := r, hst := .kernel } ∧
      (b.die < s.dies.length → Report.forwarded b.id ∈ (t.die b.die).reports)) ∧
    (∀ a, t.byte a = s.byte a) ∧ (∀ k, k ≠ b.id → t.block k = s.block k) ∧ t.om = { s.om with agents := t.om.agents }

/-- R111: TRET resumes every party where it stood, TRET.SKIP the one that trapped after its instruction; elsewhere both fault
ILLEGAL. A warp that trapped with STALL.SHORT issues its instruction once without the check (R88). R49, R326: after TRAP or BRK the
resumption is an acquire at SYS scope: the die's leases are gone. -/
def Obligations.TrapReturns : Prop :=
  ∀ (s : State) (c : Ctl),
    let acquired (b : Block) (t : State) : State := if 0x3F ≤ b.trap.code ∧ b.trap.code < 0x80 then
      { t with om := { t.om with leases := t.om.leases.filter fun l => l.die != b.die } } else t
    SeqIf s (.tret c) c (fun e => e.b.hst = .handler) (fun e => acquired e.b (e.s.setBlock (resumeBlock e.b false))) ∧
    SeqIf s (.tretSkip c) c (fun e => e.b.hst = .handler) (fun e => acquired e.b (e.s.setBlock (resumeBlock e.b true))) ∧
    SeqTraps s (.tret c) c (fun e => e.b.hst ≠ .handler) (fun _ => ⟨fIllegal, 0, 0, none⟩) ∧
    SeqTraps s (.tretSkip c) c (fun e => e.b.hst ≠ .handler) (fun _ => ⟨fIllegal, 0, 0, none⟩) ∧
    ∀ (b : Block) (q : SeqThread) (pc : Addr54), b.seq = some q → q.hidden = some pc →
      (∀ w ∈ b.warps, w.k ≠ b.trap.warp → w ∈ (resumeBlock b false).warps ∧ w ∈ (resumeBlock b true).warps) ∧
      (∀ w ∈ b.warps, w.k = b.trap.warp →
        { w with waive := b.trap.code == 0x04 } ∈ (resumeBlock b false).warps ∧
        { w with pc := b.trap.pc + 12, waive := false, wait := .none } ∈ (resumeBlock b true).warps) ∧
      (resumeBlock b false).seq = some { q with
        pc := pc, hidden := none, handlerOnly := false, held := .none, wait := q.held } ∧
      (b.trap.warp = 0x3F → (resumeBlock b true).seq = some { q with
        pc := b.trap.pc + 12, hidden := none, handlerOnly := false, held := .none, wait := .none }) ∧
      (∀ k, (resumeBlock b k).hst = .run ∧ (resumeBlock b k).threads = b.threads ∧ b.sameRest { resumeBlock b k with hst := b.hst })

/-- R40, R49, R82, R90, R326: TRAP and BRK trap on every engine with their code, TRAUX the argument, once everything before them is
performed at SYS scope, and the lease copies of the die go as that fence completes; on a warp without effective lanes they retire. A word that is no instruction faults ILLEGAL on either engine;
the sequencer waits with it while a fence or an acquire of it is not performed (R132). -/
def Obligations.SoftwareTraps : Prop :=
  ∀ (s : State) (c : Ctl) (code : BitVec 6) (a : Operand) (v : Option (BitVec 19)) (word : Word96) (b : Block),
    let arg := match v with
      | some x => x.toNat
      | none => 0
    let doneW (e : WEnv) : Prop := e.s.agentSettled true .sys e.w.aid = true
    let doneS (e : SEnv) : Prop := e.s.agentSettled true .sys e.q.aid = true
    let fenced (s : State) (die aid : Nat) : State :=
      ({ s with om := { s.om with leases := s.om.leases.filter fun l => l.die != die } }).dropFails die aid
    let traps (i : Instr) (code : Nat) (auxW : WEnv → Nat) (auxS : SEnv → Nat) : Prop :=
      (∀ e, s.warpStart i c = some e → e.b.specOf e.w.aid = none → e.eff ≠ [] → doneW e →
        exec i s = .next (takeTrap (fenced e.s e.b.die e.w.aid) e.b.id ⟨code, e.w.pc, 0, auxW e, e.w.k, lanesMask e.eff⟩)) ∧
      WarpIf s i c (fun e => e.eff = []) (fun e => retire e.s e i) ∧
      ∀ e, s.seqStart i c = some e → e.b.specOf e.q.aid = none → doneS e →
        exec i s = .next (takeTrap (fenced e.s e.b.die e.q.aid) e.b.id ⟨code, e.q.pc, 0, auxS e, 0x3F, 0⟩)
    traps (.trap c code a) (0x40 + code.toNat) (fun e => firstV e a) (fun e => (srcSU e a).toNat) ∧
    traps (.brk c v) 0x3F (fun _ => arg) (fun _ => arg) ∧
    (∀ i, i = .trap c code a ∨ i = .brk c v →
      WarpWaits s i c (fun e => e.eff ≠ [] ∧ ¬ doneW e) (fun _ => .other) ∧ SeqWaits s i c (fun e => ¬ doneS e) (fun _ => .other)) ∧
    (∀ w, s.issuer = some (.warp b w) → s.canIssue (.warp b w) = true → b.specOf w.aid = none → ∃ lanes,
      exec (.reservedOpcodeIssue word) s = .next (takeTrap ((s.setBlock (settle b w).1).dropFails b.die w.aid) b.id
        ⟨0x01, w.pc, 0, 0, w.k, lanes⟩)) ∧
    (∀ q, s.issuer = some (.seq b q) → s.canIssue (.seq b q) = true →
      (seqFenced s q = false → b.specOf q.aid = none → exec (.reservedOpcodeIssue word) s =
        .next (takeTrap (s.dropFails b.die q.aid) b.id ⟨0x01, q.pc, 0, 0, 0x3F, 0⟩)) ∧
      (seqFenced s q = true → exec (.reservedOpcodeIssue word) s = .next (setWaitS s b.id .other)))

-- Group 0 of the warp engine (R162 to R173).

/-- R163: NOP does nothing but count for issue and stall distances: its engine moves on, and no bypass entry is added. A guarded NOP is
legal wherever its guard is, and the guard has no effect. -/
def Obligations.NopOnlyMovesOn : Prop :=
  ∀ (s : State) (c : Ctl),
    WarpDoes s (.nop c) c (fun e => e.s.setBlock (e.b.setWarp { e.w with
      pc := e.w.pc + 12, clock := e.w.clock + stallN c, since := min 3 (e.w.since + 1), wait := .none, waive := false })) ∧
    SeqDoes s (.nop c) c (fun e => e.s.setBlock { e.b with seq := some { e.q with pc := e.q.pc + 12, wait := .none } }) ∧
    (∀ b q, s.issuer = some (.seq b q) → s.canIssue (.seq b q) = true → (Instr.nop c).wfOn .seq = true →
      seqBlocked s b q (.nop c) = false → guardS q c = false →
      exec (.nop c) s = .next (s.setBlock { b with seq := some { q with pc := q.pc + 12, wait := .none } })) ∧
    (∀ x : Engine, (Instr.nop c).wfOn x = c.guard.okOn x)

/-- R74, R147, R164 to R166, R169, R170: a warp's branches, its unguarded calls, its returns and its pops. A guard that holds in
some counted lanes only, return addresses that differ, or popped entries of which some are zero and some are not, fault BR.NONUNIFORM. A
pop past the pushes waits, or faults DQ.CLOSED where no push can come. -/
def Obligations.WarpBranches : Prop :=
  ∀ (s : State) (c : Ctl) (off : Off) (o : BitVec 19) (d a : Operand),
    let hold (e : WEnv) := (countedLanes e.b e.w).filter fun l => guardHolds e.b e.c l.2
    let next (e : WEnv) (pc : Addr54) := e.put e.b (e.w.advanceTo c pc)
    WarpIf s (.br c off) c (fun e => hold e ≠ [] ∧ (hold e).length = (countedLanes e.b e.w).length)
      (fun e => next e (e.w.pc + BitVec.ofInt 54 (12 * offInt off))) ∧
    WarpIf s (.br c off) c (fun e => hold e = []) (fun e => next e (e.w.pc + 12)) ∧
    WarpTraps s (.br c off) c (fun e => hold e ≠ [] ∧ (hold e).length ≠ (countedLanes e.b e.w).length)
      (fun _ => ⟨0x06, 0, 0, none⟩) ∧
    (c.guard = .always → WarpDoes s (.call c d off) c (fun e =>
      let cells := pairCells e d ((e.w.pc + 12).setWidth 64)
      e.put (e.b.putCells cells) (((e.w.supersede (cells.map Prod.fst)).pushByp ⟨e.w.clock, [], false⟩).advanceTo c
        (e.w.pc + BitVec.ofInt 54 (12 * offInt off))))) ∧
    WarpIf s (.ret c a) c (fun e => e.eff = []) (fun e => retire e.s e (.ret c a)) ∧
    (∀ x : Addr54, WarpIf s (.ret c a) c
      (fun e => x.toNat % 4 = 0 ∧ e.eff ≠ [] ∧ ∀ l ∈ e.eff, addr54 (regV e l a 0) (regV e l a 1) = x)
      (fun e => e.put (killMarks e.b e.eff (.ret c a)) (e.w.advanceTo c x))) ∧
    (∀ x : Addr54, WarpTraps s (.ret c a) c
      (fun e => x.toNat % 4 ≠ 0 ∧ e.eff ≠ [] ∧ ∀ l ∈ e.eff, addr54 (regV e l a 0) (regV e l a 1) = x)
      (fun _ => ⟨0x12, x.toNat, 0, none⟩)) ∧
    WarpTraps s (.ret c a) c
      (fun e => ∃ l ∈ e.eff, ∃ k ∈ e.eff, addr54 (regV e l a 0) (regV e l a 1) ≠ addr54 (regV e k a 0) (regV e k a 1))
      (fun _ => ⟨0x06, 0, 0, none⟩) ∧
    (∀ taken : Bool, WarpIf s (.brq c o) c
      (fun e => popHomes e.b e.w ≠ [] ∧ ∀ h ∈ popHomes e.b e.w, e.b.rdpos h < e.b.push ∧ (e.b.dqAt h != 0) = taken)
      (fun e => e.put (advancePops e.b e.w) (e.w.advanceTo c
        (if taken then e.w.pc + BitVec.ofInt 54 (12 * o.toInt) else e.w.pc + 12)))) ∧
    WarpTraps s (.brq c o) c
      (fun e => (∀ h ∈ popHomes e.b e.w, e.b.rdpos h < e.b.push) ∧ ∃ h ∈ popHomes e.b e.w, ∃ k ∈ popHomes e.b e.w,
        e.b.dqAt h = 0 ∧ e.b.dqAt k ≠ 0) (fun _ => ⟨0x06, 0, 0, none⟩) ∧
    WarpIf s (.movq c d) c (fun e => ∀ h ∈ popHomes e.b e.w, e.b.rdpos h < e.b.push)
      (fun e => retireNow { e with b := advancePops e.b e.w } (.movq c d) (e.eff.flatMap fun l =>
        let v := e.b.dqAt (l.2 / 32)
        [(.v l.2 (regOf e.b l.2 d), (v.setWidth 32).toNat), (.v l.2 (regOf e.b l.2 d + 1), (v.extractLsb' 32 32).toNat)])) ∧
    ∀ i, i = .brq c o ∨ i = .movq c d →
      WarpWaits s i c (fun e => e.b.closed = false ∧ ∃ h ∈ popHomes e.b e.w, e.b.push ≤ e.b.rdpos h) (fun _ => .pop) ∧
      WarpTraps s i c (fun e => e.b.closed = true ∧ ∃ h ∈ popHomes e.b e.w, e.b.push ≤ e.b.rdpos h)
        (fun _ => ⟨0x23, 0, 0, none⟩)

/-- R148, R167 to R169: a meeting waits until every running warp stands at it. Where every thread that acts goes one way no entry is
pushed and every warp of the block goes that way; where none acts, all go on at PC + 12; where they part, an entry of the stack is pushed
and the path of the lowest tag starts, once the accesses of the running warps are performed at BLK scope (R42). R168: the faults of
BRX's table. -/
def Obligations.Meetings : Prop :=
  ∀ (s : State) (c : Ctl) (t j : BitVec 19) (a d : Operand) (off : Off),
    let brd : Instr := .brd c t j
    let brx : Instr := .brx c a t
    let call : Instr := .call c d off
    let at_ (e : WEnv) (o : Int) : Addr54 := e.w.pc + BitVec.ofInt 54 (12 * o)
    let tags (e : WEnv) := meetingTags e.b.settleWarps fun _ t => if guardHolds e.b.settleWarps c t then 0 else 1
    let room (e : WEnv) := meetingReady e.b e.w = true ∧ e.s.warpsSettled e.b .blk = true ∧ e.b.settleWarps.canPush = true
    (∀ i, i = brd ∨ i = brx ∨ (i = call ∧ c.guard ≠ .always) →
      WarpWaits s i c (fun e => meetingReady e.b e.w = false) (fun _ => .meet)) ∧
    WarpIf s brd c (fun e => meetingReady e.b e.w = true ∧ pathTags (tags e) = [0])
      (fun e => e.s.setBlock (e.b.settleWarps.sendAll c (at_ e t.toInt))) ∧
    WarpIf s brd c (fun e => meetingReady e.b e.w = true ∧ pathTags (tags e) = [1])
      (fun e => e.s.setBlock (e.b.settleWarps.sendAll c (e.w.pc + 12))) ∧
    WarpIf s brd c (fun e => room e ∧ pathTags (tags e) = [0, 1])
      (fun e => e.s.pushMeeting e.b.settleWarps ⟨at_ e j.toInt, .brd, 0, 1, at_ e t.toInt, e.w.pc + 12, tags e, []⟩
        (at_ e t.toInt)) ∧
    (∀ i, i = brd ∨ (i = call ∧ c.guard ≠ .always) →
      WarpIf s i c (fun e => meetingReady e.b e.w = true ∧ pathTags (tags e) = [])
        (fun e => e.s.setBlock (e.b.settleWarps.sendAll c (e.w.pc + 12))) ∧
      WarpWaits s i c (fun e => meetingReady e.b e.w = true ∧ pathTags (tags e) = [0, 1] ∧
        e.s.warpsSettled e.b .blk = false) (fun _ => .meet)) ∧
    (c.guard ≠ .always →
      WarpIf s call c (fun e => meetingReady e.b e.w = true ∧ pathTags (tags e) = [0])
        (fun e => e.s.setBlock ((writeLink e.b.settleWarps d (e.w.pc + 12)
          (((meetingLanes e.b.settleWarps).map fun l => l.2.2).filter fun t =>
            (e.b.settleWarps.thread t).nest == 0 && guardHolds e.b.settleWarps c t)).sendAll c (at_ e (offInt off)))) ∧
      WarpIf s call c (fun e => meetingReady e.b e.w = true ∧ pathTags (tags e) = [1])
        (fun e => e.s.setBlock (e.b.settleWarps.sendAll c (e.w.pc + 12))) ∧
      WarpIf s call c (fun e => room e ∧ pathTags (tags e) = [0, 1])
        (fun e => e.s.pushMeeting (writeLink e.b.settleWarps d (e.w.pc + 12)
            (((meetingLanes e.b.settleWarps).map fun l => l.2.2).filter fun t =>
              (e.b.settleWarps.thread t).nest == 0 && guardHolds e.b.settleWarps c t))
          ⟨e.w.pc + 12, .call, 0, 1, at_ e (offInt off), e.w.pc + 12, tags e, []⟩ (at_ e (offInt off)))) ∧
    WarpTraps s brd c (fun e => meetingReady e.b e.w = true ∧ e.s.warpsSettled e.b .blk = true ∧
        e.b.settleWarps.canPush = false ∧ pathTags (tags e) = [0, 1]) (fun _ => ⟨0x11, 0, 2, none⟩) ∧
    ∀ (e : WEnv), s.warpStart brx c = some e → meetingReady e.b e.w = true →
      let b := e.b.settleWarps
      let lanes := (meetingLanes b).filter fun l => (b.thread l.2.2).nest == 0
      let table := at_ e t.toInt
      let marked : Block := match a with
        | .reg n true _ => lanes.foldl (fun b l => b.modThread l.2.2 fun th => th.kill n.toNat) b
        | _ => b
      (lanes = [] → exec brx s = .next (e.s.setBlock (b.sendAll c (e.w.pc + 12)))) ∧
      ∀ (s1 : State) (count : Nat) (mbz : Bool) (join : Int),
        lanes ≠ [] → e.s.tableHead e.w.aid e.b table = .ok (s1, count, mbz, join) →
        let bad := lanes.filter fun l => decide (count ≤ brxIndex b l.1 a l.2.2)
        (mbz = true → e.b.specOf e.w.aid = none → exec brx s = .next (takeTrap (e.s.dropFails e.b.die e.w.aid) e.b.id
          ⟨0x07, e.w.pc, table.toNat, 1, e.w.k, lanesMask e.eff⟩)) ∧
        (∀ l ∈ bad, mbz = false → (∀ k ∈ bad, l.2.2 ≤ k.2.2 ∧ (k.2.2 = l.2.2 → k.1.k = l.1.k)) →
          exec brx s = .next (takeTrap (setWaitW e.s e.b.id e.w.k .meet) e.b.id ⟨0x07, e.w.pc, table.toNat, 0, l.1.k,
            maskOf ((bad.filter fun k => k.1.k == l.1.k).map fun k => k.2.1)⟩)) ∧
        (∀ (s2 : State) (start : Addr54) (x : Nat), mbz = false → bad = [] →
          s1.tableEntry e.w.aid e.b table x = .ok (s2, start) →
          ((∀ l ∈ lanes, brxIndex b l.1 a l.2.2 = x) → exec brx s = .next (s2.setBlock (marked.sendAll c start))) ∧
          (∀ r, (∃ l ∈ lanes, ∃ k ∈ lanes, brxIndex b l.1 a l.2.2 ≠ brxIndex b k.1 a k.2.2) →
            let parted := meetingTags b fun w t => brxIndex b w a t
            pathTags parted = x :: r →
            (s2.warpsSettled e.b .blk = false → exec brx s = .next (setWaitW e.s e.b.id e.w.k .meet)) ∧
            (s2.warpsSettled e.b .blk = true → b.canPush = false → e.b.specOf e.w.aid = none →
              exec brx s = .next (takeTrap (e.s.dropFails e.b.die e.w.aid) e.b.id
                ⟨0x11, e.w.pc, 0, 2, e.w.k, lanesMask e.eff⟩)) ∧
            (s2.warpsSettled e.b .blk = true → b.canPush = true → exec brx s = .next (s2.pushMeeting marked
              ⟨table + BitVec.ofInt 54 (12 * join), .brx, x, maxOf (x :: r), table, 0, parted, []⟩ start))))

/-- R171, R172: the structured instructions change the nesting counters of the live lanes of the warp and nothing else; a counter
that would pass 15 faults NEST.OVERFLOW, TRLANES the lanes where it would. -/
def Obligations.Nesting : Prop :=
  ∀ (s : State) (c : Ctl) (sense : Bool) (p : PReg) (depth : BitVec 4) (o : BitVec 19),
    let holds (e : WEnv) (t : Nat) : Bool := (e.b.thread t).getP p.val != sense
    let bump (e : WEnv) (f : Nat → Nat → Nat) (b : Block) : Block :=
      (liveLanes e.b e.w).foldl (fun b l => b.modThread l.2 fun th => { th with nest := f l.2 th.nest }) b
    let ok (i : Instr) (f : WEnv → Nat → Nat → Nat) : Prop :=
      WarpIf s i c (fun e => ∀ l ∈ liveLanes e.b e.w, f e l.2 (e.b.thread l.2).nest ≤ 15)
        (fun e => e.put (bump e (f e) e.b) (e.w.advance c))
    let traps (i : Instr) (k : Nat) : Prop :=
      WarpTraps s i c (fun e => ∃ l ∈ liveLanes e.b e.w, 0 < (e.b.thread l.2).nest ∧ 15 < (e.b.thread l.2).nest + k)
        (fun e => ⟨0x05, 0, 0, some (lanesMask ((liveLanes e.b e.w).filter fun l =>
          decide (0 < (e.b.thread l.2).nest ∧ 15 < (e.b.thread l.2).nest + k)))⟩)
    ok (.ifOpen c sense p) (fun e t n => if n = 0 then (if holds e t then 0 else 1) else n + 1) ∧
    traps (.ifOpen c sense p) 1 ∧
    ok (.elseFlip c) (fun _ _ n => if n = 0 then 1 else if n = 1 then 0 else n) ∧
    ok (.endIf c) (fun _ _ n => n - 1) ∧
    ok (.loop c) (fun _ _ n => if n = 0 then 0 else n + 2) ∧
    traps (.loop c) 2 ∧
    ok (.brkLoop c sense depth p) (fun e t n => if n = 0 ∧ holds e t = true then 2 + depth.toNat else n) ∧
    ok (.cont c sense depth p) (fun e t n => if n = 0 ∧ holds e t = true then 1 + depth.toNat else n) ∧
    ∀ e, s.warpStart (.endl c o) c = some e → (∀ l ∈ liveLanes e.b e.w, (e.b.thread l.2).nest ≤ 15) →
      let back (n : Nat) : Nat := if n = 1 then 0 else n
      let b := bump e (fun _ n => back n) e.b
      ((∃ l ∈ liveLanes b e.w, (b.thread l.2).nest = 0) → exec (.endl c o) s =
        .next (e.put b (e.w.advanceTo c (e.w.pc + BitVec.ofInt 54 (12 * o.toInt))))) ∧
      ((∀ l ∈ liveLanes b e.w, (b.thread l.2).nest ≠ 0) → exec (.endl c o) s =
        .next (e.put ((liveLanes b e.w).foldl (fun b l => b.modThread l.2 fun th => { th with nest := th.nest - 2 }) b)
          (e.w.advance c)))

-- Memory (R31 to R49, R195 to R209).

/-- R209: the address of a lane: a pair's 54 low bits, or FRAME plus the immediate, plus the sign-extended displacement, modulo 2^54;
core-local offsets are 32 bits plus the displacement and do not wrap. The model's choices: an immediate local address is taken as 0 to
524287, though R160 extends the sign of an immediate (log entry 28); a range both outside the window and in the headland has TRAUX 1
(log entry 23). -/
def Obligations.LaneAddresses : Prop :=
  ∀ (e : WEnv) (q : SEnv) (l : Nat × Nat) (n v : BitVec 19) (k : BitVec 8) (m u : Bool) (x : Int),
    let r : Operand := .reg k m u
    gaddrW e r none l = ((regV e l r 0).toNat + 2 ^ 32 * (regV e l r 1).toNat) % 2 ^ 54 ∧
    (gaddrW e r (some v) l : Int) = (((regV e l r 0).toNat + 2 ^ 32 * (regV e l r 1).toNat : Nat) + v.toInt) % 2 ^ 54 ∧
    gaddrW e (.imm n) none l = (e.s.frame e.b + n.toNat) % 2 ^ 54 ∧
    (gaddrW e (.imm n) (some v) l : Int) = ((e.s.frame e.b + n.toNat : Nat) + v.toInt) % 2 ^ 54 ∧
    gaddrS q r none = (q.q.get k.toNat).toNat % 2 ^ 54 ∧
    (gaddrS q r (some v) : Int) = ((q.q.get k.toNat).toNat + v.toInt) % 2 ^ 54 ∧
    laddrW e (.imm n) (some v) l = n.toNat + v.toInt ∧ laddrW e r (some v) l = (regV e l r 0).toNat + v.toInt ∧
    laddrS q r (some v) = (q.q.get k.toNat).toNat + v.toInt ∧
    (∀ (b : Block) (w : Nat), 0 < w → (b.winCheck x w = none ↔
      0 ≤ x ∧ x + w ≤ b.winSize ∧ ¬(b.headLo < b.headHi ∧ x < b.headHi ∧ b.headLo < x + w)) ∧
      (b.winCheck x w = some 1 ↔ x < 0 ∨ b.winSize < x + w))

/-- R196, R203: a misaligned lane faults ALIGN before anything is translated, TRADDR the address of the lowest faulting lane, TRLANES
every one; an offset outside the window or in the headland faults ACCESS. All lanes fault together: nothing is stored or loaded. The
sequencer's one access likewise. A negative offset stands in TRADDR modulo 2^64, and TRAUX 1 goes before 3 (log entry 23). R203, R322:
of what the lanes raise after translation the first class in the order XLATE, FAR.ACCESS, DIE.LOST, ACCESS, COMM.STORE is taken, its
address and code those of the lowest lane that raises it. -/
def Obligations.AccessFaults : Prop :=
  (∀ (s : State) (c : Ctl) (lm : LdMode) (sm : StMode) (d a : Operand) (disp : Option (BitVec 19)) (l : Nat × Nat)
    (r : List (Nat × Nat)),
    let mask := maskOf ((l :: r).map Prod.fst)
    let bad (n : Nat) (e : WEnv) := e.eff.filter fun l => gaddrW e a disp l % n != 0
    let lbad (n : Nat) (e : WEnv) := e.eff.filter fun l => laddrW e a disp l % (n : Int) != 0
    let out (n : Nat) (e : WEnv) := e.eff.filter fun l => (e.b.winCheck (laddrW e a disp l) n).isSome
    let rule (n : Nat) (g lc : Instr) : Prop :=
      WarpTraps s g c (fun e => bad n e = l :: r) (fun e => ⟨0x12, gaddrW e a disp l, 0, some mask⟩) ∧
      WarpTraps s lc c (fun e => lbad n e = l :: r) (fun e => ⟨0x12, offBits (laddrW e a disp l), 0, some mask⟩) ∧
      WarpTraps s lc c (fun e => lbad n e = [] ∧ out n e = l :: r)
        (fun e => ⟨0x11, offBits (laddrW e a disp l), (e.b.winCheck (laddrW e a disp l) n).getD 0, some mask⟩)
    let ruleS (n : Nat) (g lc : Instr) : Prop :=
      SeqTraps s g c (fun e => gaddrS e a disp % n ≠ 0) (fun e => ⟨0x12, gaddrS e a disp, 0, none⟩) ∧
      SeqTraps s lc c (fun e => laddrS e a disp % (n : Int) ≠ 0) (fun e => ⟨0x12, offBits (laddrS e a disp), 0, none⟩) ∧
      ∀ k, SeqTraps s lc c (fun e => laddrS e a disp % (n : Int) = 0 ∧ e.b.winCheck (laddrS e a disp) n = some k)
        (fun e => ⟨0x11, offBits (laddrS e a disp), k, none⟩)
    rule (ldBytes lm).1 (.ld c lm d a disp) (.ldl c lm d a disp) ∧ rule (stBytes sm) (.st c sm d a disp) (.stl c sm d a disp) ∧
    ruleS (ldBytes lm).1 (.ld c lm d a disp) (.ldl c lm d a disp) ∧ ruleS (stBytes sm) (.st c sm d a disp) (.stl c sm d a disp)) ∧
  (∀ x : Int, (offBits x : Int) = x % 2 ^ 64) ∧
  ∀ (s s1 : State) (aid n : Nat) (b : Block) (t : AccType) (lanes : List (Nat × Nat × Nat)) (xs : List Xl),
    (∀ l ∈ lanes, l.2.2 % n = 0) → s.xlateAll aid b.die (some b.gcore) b.ctx (lanes.map fun l => l.2.2) = (s1, xs) → .wait ∉ xs →
    let raised := (lanes.zip xs).filterMap fun p => (match p.2 with
      | .fail aux => some (⟨0, aux⟩ : AFault)
      | .done tl => s1.checkPage b.die t tl.pte (tl.phys p.1.2.2)
      | .wait => none).map fun f => (p.1, f)
    (raised = [] → ∃ l, s.spots aid b t n lanes = .ok (s1, l)) ∧
    ∀ x ∈ raised, (∀ y ∈ raised, x.2.cls ≤ y.2.cls) → x.2.cls < 5 → ∀ h r, raised.filter (fun y => y.2.cls == x.2.cls) = h :: r →
      s.spots aid b t n lanes = .error (.trap ⟨[0x10, 0x13, 0x30, 0x11, 0x14].getD x.2.cls 0, h.1.2.2, h.2.aux,
        some (maskOf ((h :: r).map fun y => y.1.1))⟩)

/-- R200, R201, R322, R336: the checks of a translated page, in their order: FAR.ACCESS; DIE.LOST for a line homed on a lost die; then
ACCESS with TRAUX 5 (no U), 4 (a store-type access without W), 8 (a fetch without X), 0 (another access without R), 14 (a KEYID with no
key), 6 where the page's KIND and its region do not permit the access, COMM.STORE where R201's table says so, 7 (no such physical range);
else no fault. -/
def Obligations.PageChecks : Prop :=
  ∀ (s : State) (die : Nat) (t : AccType) (p : Word64) (pa : Nat),
    let r := s.phys.region pa
    let lost := (r = .hbm ∨ r = .staging) ∧
      lifeAt s.pkg.msgs (s.die die).delivered (s.phys.homeDie pa) = some false
    let key := (p.extractLsb' 52 8).toNat
    let kind := (p.extractLsb' 8 3).toNat
    let open_ := p.getLsbD 7 = false ∧ ¬lost
    let perms := p.getLsbD 5 = true ∧ (t.isStore = true → p.getLsbD 3 = true) ∧ (t = .fetch → p.getLsbD 4 = true) ∧
      (t.isStore = false → t ≠ .fetch → p.getLsbD 2 = true)
    let keyed := key = 0 ∨ (aget (s.phys.keyIx pa key) s.phys.keytab).isSome = true
    let there := r ≠ .device ∧ r ≠ .none
    (t.isStore = true ↔ t = .st ∨ t = .sts ∨ t = .atom ∨ t = .redm ∨ t = .inval) ∧
    (p.getLsbD 7 = true → s.checkPage die t p pa = some ⟨1, 0⟩) ∧
    (p.getLsbD 7 = false → lost → s.checkPage die t p pa = some ⟨2, s.phys.homeDie pa⟩) ∧
    (open_ → p.getLsbD 5 = false → s.checkPage die t p pa = some ⟨3, 5⟩) ∧
    (open_ → p.getLsbD 5 = true → t.isStore = true → p.getLsbD 3 = false → s.checkPage die t p pa = some ⟨3, 4⟩) ∧
    (open_ → p.getLsbD 5 = true → t = .fetch → p.getLsbD 4 = false → s.checkPage die t p pa = some ⟨3, 8⟩) ∧
    (open_ → p.getLsbD 5 = true → t.isStore = false → t ≠ .fetch → p.getLsbD 2 = false →
      s.checkPage die t p pa = some ⟨3, 0⟩) ∧
    (open_ → perms → ¬keyed → s.checkPage die t p pa = some ⟨3, 14⟩) ∧
    (open_ → perms → keyed →
      (kind = 2 → t = .st ∨ t = .sts ∨ t = .atom ∨ t = .redm → there → s.checkPage die t p pa = some ⟨4, 0⟩) ∧
      (kind ≠ 2 → t = .redc → s.checkPage die t p pa = some ⟨3, 6⟩) ∧
      (kind = 3 → t = .st ∨ t = .atom ∨ t = .redm → s.checkPage die t p pa = some ⟨3, 6⟩) ∧
      (kind = 0 ∨ kind = 1 → t = .sts → s.checkPage die t p pa = some ⟨3, 6⟩) ∧
      (kind = 0 ∨ kind = 1 → t = .atom ∨ t = .redm → r = .staging ∨ r = .cxl → s.checkPage die t p pa = some ⟨3, 6⟩) ∧
      (t = .ld ∨ t = .fetch ∨ t = .clean ∨ t = .inval ∨ kind ≤ 1 ∧ t = .st ∨ kind = 3 ∧ t = .sts ∨ kind = 2 ∧ t = .redc ∨
        kind ≤ 1 ∧ r = .hbm ∧ (t = .atom ∨ t = .redm) →
        (there → s.checkPage die t p pa = none) ∧ (¬there → s.checkPage die t p pa = some ⟨3, 7⟩)))

/-- R35, R208: a load issues one access per effective lane, at the lane's own address, and moves on; its result comes with LOAD.
On the sequencer it issues one access. -/
def Obligations.LoadsIssue : Prop :=
  ∀ (s : State) (c : Ctl) (m : LdMode) (d a : Operand) (disp : Option (BitVec 19)),
    let n := (ldBytes m).1
    let asks (b : Block) (aid inst : Nat) (ds : Site → List Dest) (x : Site) : Access :=
      { mkAccess b aid inst x (.load x.a n (ds x)) .issued with acq := ldAcq m }
    (∀ (i : Instr) (e : WEnv) (s1 : State) (xs : List Site),
      (i = .ld c m d a disp ∧ sitesW e .ld n a disp = .ok (s1, xs) ∨
        i = .ldl c m d a disp ∧ lsitesW e n a disp = .ok (s1, xs)) →
      s.warpStart i c = some e → e.b.specOf e.w.aid = none →
      let ds (x : Site) : List Dest := ldDests m x.thr (regOf e.b x.thr d)
      exec i s = .next (retireLater
        ({ s1 with nextId := s1.nextId + 1 }.addAccesses (xs.map (asks e.b e.w.aid s1.nextId ds))) e i
        (xs.flatMap fun x => (ds x).map Dest.cell)) ∧
      (i = .ld c m d a disp → xs.map (fun x => (x.slot, x.thr, x.va)) =
        e.eff.map (fun l => (l.1, l.2, gaddrW e a disp l)) ∧ ∀ x ∈ xs, x.loc = none) ∧
      (i = .ldl c m d a disp → xs = e.eff.map fun l =>
        ⟨l.1, l.2, some e.b.id, (laddrW e a disp l).toNat, (laddrW e a disp l).toNat, 0⟩)) ∧
    (∀ (i : Instr) (e : SEnv) (s1 : State) (x : Site),
      (i = .ld c m d a disp ∧ sitesS e .ld n a disp = .ok (s1, [x]) ∨
        i = .ldl c m d a disp ∧ lsitesS e n a disp = .ok (s1, [x])) →
      s.seqStart i c = some e → e.b.specOf e.q.aid = none →
      exec i s = .next (({ e with s := ({ s1 with nextId := s1.nextId + 1 }.addAccesses
        [asks e.b e.q.aid s1.nextId (fun _ => [⟨.s (regS d), 0, n, (ldBytes m).2⟩]) x]) }).put e.q.advance))

/-- R32, R35, R208: a store issues one access per effective lane that keeps a byte, its bytes the lane's value at the lane's address;
where several lanes write one byte, exactly one of their values is kept. Its frame at issue: no byte of memory and no byte of a window changes (the bytes
land with DRAIN, COMMIT and SERVE). A store of the sequencer issues one access of S[d]'s bytes, little-endian. -/
def Obligations.StoresIssue : Prop :=
  (∀ (s : State) (c : Ctl) (m : StMode) (d a : Operand) (disp : Option (BitVec 19)) (i : Instr) (e : WEnv) (s1 : State)
    (xs : List Site),
    let n := stBytes m
    let cellsOf (y : Access) : List Host.Cell := match y.kind with
      | .store cells => cells
      | _ => []
    (i = .st c m d a disp ∧ sitesW e .st n a disp = .ok (s1, xs) ∨
      i = .stl c m d a disp ∧ lsitesW e n a disp = .ok (s1, xs)) →
    s.warpStart i c = some e → e.b.specOf e.w.aid = none →
    ∃ as t, exec i s = .next t ∧
      t = (retire { s1 with nextId := s1.nextId + 1, fresh := s1.fresh + 1 } e i).addAccesses as ∧
      (∀ x, t.byte x = s.byte x) ∧ (∀ k b', t.block k = some b' → k ≠ e.b.id → s.block k = some b') ∧
      (∃ b', t.block e.b.id = some b' ∧ ∀ o, b'.byte o = e.b.byte o) ∧
      (∀ y ∈ as, y.st = .buffer ∧ y.rel = stRel m ∧ ∃ x ∈ xs, y.line = lineOf x.a ∧ y.loc = x.loc ∧ ∃ cells,
        y.kind = .store cells ∧ ∀ p ∈ cells, ∃ k, k < n ∧ p.1 = x.a + k ∧
          p.2 = BitVec.ofNat 8 ((if k < 4 then srcI e (x.slot, x.thr) d else regV e (x.slot, x.thr) d (k / 4)).toNat /
            256 ^ (k % 4))) ∧
      ((as.flatMap cellsOf).map Prod.fst).Nodup ∧
      (∀ z, z ∈ (as.flatMap cellsOf).map Prod.fst ↔ ∃ x ∈ xs, x.a ≤ z ∧ z < x.a + n) ∧
      (i = .st c m d a disp → xs.map (fun x => (x.slot, x.thr, x.va)) =
        e.eff.map fun l => (l.1, l.2, gaddrW e a disp l))) ∧
  ∀ (s : State) (c : Ctl) (m : StMode) (d a : Operand) (disp : Option (BitVec 19)) (i : Instr) (e : SEnv) (s1 : State)
    (x : Site),
    let n := stBytes m
    (i = .st c m d a disp ∧ sitesS e .st n a disp = .ok (s1, [x]) ∨
      i = .stl c m d a disp ∧ lsitesS e n a disp = .ok (s1, [x])) →
    s.seqStart i c = some e → e.b.specOf e.q.aid = none →
    exec i s = .next ((({ e with s := { s1 with nextId := s1.nextId + 1 } }).put e.q.advance).addAccesses
      [{ mkAccess e.b e.q.aid s1.nextId x (.store ((List.range n).map fun k =>
          (x.a + k, BitVec.ofNat 8 ((srcS e d).toNat / 256 ^ k)))) .buffer with rel := stRel m }])

/-- R40, R209: FENCE enters the agent's program order; that it acts on a warp whatever its effective set is the model's choice (log entry
27), and so is what PREF may copy (log entry 34): what a load of the line could. CLEAN and INVAL enter as one access for each SWM page,
over its granules of their ranges; where there are none they do nothing. -/
def Obligations.FencesAndRanges : Prop :=
  ∀ (s : State) (c : Ctl) (sc : Scope) (lvl : PrefLevel) (a : Operand) (disp : Option (BitVec 19)) (count : BitVec 19),
    WarpDoes s (.fence c sc) c (fun e =>
      ((retire { e.s with nextId := e.s.nextId + 1 } e (.fence c sc)).addAccess
        (fenceAccess e.b e.w.aid e.s.nextId sc)).2) ∧
    SeqDoes s (.fence c sc) c (fun e =>
      ((({ e with s := { e.s with nextId := e.s.nextId + 1 } }).put e.q.advance).addAccess
        (fenceAccess e.b e.q.aid e.s.nextId sc)).2) ∧
    WarpDoes s (.pref c lvl a disp) c (fun e =>
      retire (match lvl with
        | .l2copy => (e.eff.map (gaddrW e a disp)).foldl (fun s va => s.prefLine e.b va) e.s
        | _ => e.s) e (.pref c lvl a disp)) ∧
    SeqDoes s (.pref c lvl a disp) c (fun e =>
      ({ e with s := match lvl with
        | .l2copy => e.s.prefLine e.b (gaddrS e a disp)
        | _ => e.s }).put e.q.advance) ∧
    ∀ (inval : Bool) (t : AccType), t = (if inval then .inval else .clean) →
      let i : Instr := if inval then .inval c a count else .clean c a count
      (∀ (e : WEnv) (s1 : State) (xs : List Spot),
        s.warpStart i c = some e → e.b.specOf e.w.aid = none →
        e.s.spots e.w.aid e.b t 1 (e.eff.flatMap fun l =>
          (rangePages (gaddrW e a none l) count.toNat).map fun va => (l.1, l.2, va)) = .ok (s1, xs) →
        exec i s = .next ({ retire s1 e i with nextId := s1.nextId + 1 }.addAccesses (rangeAccesses e.b e.w.aid s1.nextId inval
          (xs.map Spot.site) (e.eff.map (gaddrW e a none)) count.toNat))) ∧
      (∀ (e : SEnv) (s1 : State) (xs : List Spot),
        s.seqStart i c = some e → e.b.specOf e.q.aid = none →
        e.s.spots e.q.aid e.b t 1 ((rangePages (gaddrS e a none) count.toNat).map fun va => (0, 0, va)) = .ok (s1, xs) →
        exec i s = .next ({ ({ e with s := s1 }).put e.q.advance with nextId := s1.nextId + 1 }.addAccesses
          (rangeAccesses e.b e.q.aid s1.nextId inval (xs.map Spot.site) [gaddrS e a none] count.toNat))) ∧
      ∀ (b : Block) (aid inst : Nat) (xs : List Site) (vas : List Nat) (n : Nat),
        let kind (g : List Nat) : AccKind := if inval then .inval g else .clean g
        let va (a k : Nat) : Nat := (a / 256 + k) * 256 % 2 ^ 54
        let covers (x : Site) (g : Nat) : Prop := pageKind x.a x.pte = 1 ∧ ∃ a ∈ vas, ∃ k < n, pageOf (va a k) = pageOf x.va ∧
          g = (x.a / 2 ^ 16 * 2 ^ 16 + va a k % 2 ^ 16) / 256
        let as := rangeAccesses b aid inst inval xs vas n
        (∀ y ∈ as, ∃ x ∈ xs, ∃ g, g ≠ [] ∧ y = mkAccess b aid inst x (kind g) .buffer ∧ ∀ k ∈ g, covers x k) ∧
        ((∀ x ∈ xs, ∀ y ∈ xs, pageOf x.va = pageOf y.va → x.a / 2 ^ 16 = y.a / 2 ^ 16 ∧ pageKind x.a x.pte = pageKind y.a y.pte) →
          ∀ x ∈ xs, ∀ k, covers x k → ∃ y ∈ as, ∃ g, y.kind = kind g ∧ k ∈ g)

/-- R206, R207, R214, R215, R229: an atomic issues one request for each line its lanes touch, the lanes of a line in ascending thread,
and its old values come when the home serves it; RED.C needs a range of its element size under every lane: that it faults COMM.STORE with
TRAUX 1 where there is no range at all is the model's choice (log entry 32), and so is that an immediate of ATOM.FADD and of RED.M F32
is an integer (log entry 24). What each operation makes of the old value. R215: a RED.C takes its lanes one after another into the windrow
line of its die and of the slice 4c + (s mod 4), which starts at the identity, and changes no other line; R214: the identity changes no
value. -/
def Obligations.AtomicsIssue : Prop :=
  (∀ (s : State) (c : Ctl) (op : AtomOp) (exch : Bool) (ord : AcasOrd) (rop : RedOp) (rfmt : RedFmt) (sz : RedcSize)
    (d a b : Operand),
    let val (e : WEnv) (x : Site) : Word64 := (srcI e (x.slot, x.thr) b).setWidth 64
    let rule (i : Instr) (t : AccType) (o : RmwOp) (exp : WEnv → Site → Word32) (ret : Bool) (acq rel : Option Scope) : Prop :=
      ∀ (e : WEnv) (s1 : State) (xs : List Site), s.warpStart i c = some e → sitesW e t 4 a none = .ok (s1, xs) →
        let cell (x : Site) : Option Cell := if ret then some (.v x.thr (regOf e.b x.thr d)) else none
        let lanes := xs.map fun x => (x, (⟨x.thr, x.a, val e x, exp e x, cell x⟩ : AtomLane))
        exec i s = .next (retireLater ({ s1 with nextId := s1.nextId + 1 }.addAccesses
          ((requestsOf e.b e.w.aid s1.nextId o lanes).map fun (r : Access) => { r with acq := acq, rel := rel })) e i
          (xs.filterMap cell))
    rule (.atom c op d a b) .atom (.atom op) (fun _ _ => 0) true none none ∧
    rule (.acas c exch ord d a b) .atom (if exch then .exch else .cas) (fun e x => regV e (x.slot, x.thr) d 0) true
      (acasAcq ord) (acasRel ord) ∧
    rule (.redM c rop rfmt a b) .redm (.redm rop rfmt) (fun _ _ => 0) false none none ∧
    (∀ (e : WEnv) (s1 : State) (xs : List Site), s.warpStart (.redC c sz a b) c = some e →
      sitesW e .redc (redcBytes sz) a none = .ok (s1, xs) →
      (∀ x ∈ xs, ∃ r, s1.rangeAt e.b.die (lineOf x.a) = some r ∧ commSize r.fmt = redcBytes sz) →
      exec (.redC c sz a b) s = .next ((retire { s1 with nextId := s1.nextId + 1 } e (.redC c sz a b)).addAccesses
        (requestsOf e.b e.w.aid s1.nextId .redc (xs.map fun x => (x, (⟨x.thr, x.a,
          if sz = .b64 then srcPair e (x.slot, x.thr) b else val e x, 0, none⟩ : AtomLane)))))) ∧
    (∀ (e : WEnv) (s1 : State) (x : Site), s.warpStart (.redC c sz a b) c = some e → e.b.specOf e.w.aid = none →
      sitesW e .redc (redcBytes sz) a none = .ok (s1, [x]) →
      (∀ r, s1.rangeAt e.b.die (lineOf x.a) = some r → commSize r.fmt ≠ redcBytes sz) →
      exec (.redC c sz a b) s = .next (takeTrap (e.s.dropFails e.b.die e.w.aid) e.b.id
        ⟨0x14, e.w.pc, x.va, 1, e.w.k, maskOf [x.slot]⟩)) ∧
    ∀ (l : AtomLane) (old : Word32),
      let v : Word32 := l.b.setWidth 32
      rmwNew (.atom .add) l old = old + v ∧ rmwNew (.atom .and) l old = old &&& v ∧
      rmwNew (.atom .or) l old = old ||| v ∧ rmwNew (.atom .xor) l old = old ^^^ v ∧
      rmwNew .exch l old = v ∧ rmwNew .cas l old = (if old = l.d then v else old) ∧
      rmwNew (.atom (.min true)) l old = (if v.toNat < old.toNat then v else old) ∧
      rmwNew (.atom (.max false)) l old = (if old.toInt < v.toInt then v else old) ∧
      rmwNew (.atom (.min false)) l old = (if v.toInt < old.toInt then v else old) ∧
      rmwNew (.atom (.max true)) l old = (if old.toNat < v.toNat then v else old) ∧
      rmwNew (.atom .fadd) l old = w32 (f32.add .rne old.toNat v.toNat) ∧
      rmwNew (.redm .add .u32) l old = old + v ∧ rmwNew (.redm .add .s32) l old = old + v ∧
      rmwNew (.redm .add .f32) l old = w32 (f32.add .rne old.toNat v.toNat) ∧
      rmwNew (.redm .min .u32) l old = (if v.toNat < old.toNat then v else old) ∧
      rmwNew (.redm .max .u32) l old = (if old.toNat < v.toNat then v else old) ∧
      rmwNew (.redm .min .s32) l old = (if v.toInt < old.toInt then v else old) ∧
      rmwNew (.redm .max .s32) l old = (if old.toInt < v.toInt then v else old) ∧
      rmwNew (.redm .min .f32) l old = w32 (f32.minC old.toNat v.toNat) ∧
      rmwNew (.redm .max .f32) l old = w32 (f32.maxC old.toNat v.toNat)) ∧
  (∀ (s : State) (a : Access) (l : AtomLane) (ls : List AtomLane) (r : CommRange), s.rangeAt a.die a.line = some r →
    let n := commSize r.fmt
    let sl := 4 * a.slice + sliceOf (128 * a.line) % 4
    let mine (w : Windrow) : Prop := w.die = a.die ∧ w.slice = sl ∧ w.line = a.line
    let t := s.redc a [l]
    let o := l.a % 128
    s.redc a (l :: ls) = t.redc a ls ∧ t = { s with om := { s.om with windrows := t.om.windrows } } ∧
    (∀ w, ¬ mine w → (w ∈ t.om.windrows ↔ w ∈ s.om.windrows)) ∧
    ∀ w, (w ∈ s.om.windrows ∧ mine w ∧ (∀ y ∈ s.om.windrows, mine y → y = w) ∨
        (∀ y ∈ s.om.windrows, ¬ mine y) ∧ w = ⟨a.die, sl, a.line, a.ctx, a.keyid, a.repl,
          (List.replicate (128 / n) (leBytes n (commIdentity r.op r.fmt))).flatten⟩) →
      w.data.length = 128 → o + n ≤ 128 → ∃ w' ∈ t.om.windrows, w' = { w with data := w'.data } ∧ w'.data.length = 128 ∧
        (∀ k, k < o ∨ o + n ≤ k → w'.data.getD k 0 = w.data.getD k 0) ∧
        leNat ((w'.data.drop o).take n) =
          commOp r.op r.fmt (leNat ((w.data.drop o).take n)) (l.b.toNat % 256 ^ n) % 256 ^ n) ∧
  (∀ (x y : Word64) (u v : Word32) (p q : Nat),
    commOp .add .int32 u.toNat v.toNat = (u + v).toNat ∧ commOp .add .int64 x.toNat y.toNat = (x + y).toNat ∧
    commOp .min .int32 u.toNat v.toNat = (if v.toInt < u.toInt then v else u).toNat ∧
    commOp .max .int32 u.toNat v.toNat = (if u.toInt < v.toInt then v else u).toNat ∧
    commOp .min .int64 x.toNat y.toNat = (if y.toInt < x.toInt then y else x).toNat ∧
    commOp .max .int64 x.toNat y.toNat = (if x.toInt < y.toInt then y else x).toNat ∧
    commOp .add .fp32 u.toNat v.toNat = (w32 (f32.add .rne u.toNat v.toNat)).toNat ∧
    commOp .min .fp32 u.toNat v.toNat = (w32 (f32.minC u.toNat v.toNat)).toNat ∧
    commOp .max .fp32 u.toNat v.toNat = (w32 (f32.maxC u.toNat v.toNat)).toNat ∧
    commOp .add .bf16 p q = bf16.add .rne p q) ∧
  ∀ (op : RedOp) (fmt : CommFmt) (v : Nat), (fmt = .bf16 → op = .add) → v < 256 ^ commSize fmt →
    (fmt = .fp32 → f32.dec v ≠ .nan) → (fmt = .bf16 → bf16.dec v ≠ .nan) →
    commOp op fmt (commIdentity op fmt) v = v ∧ commOp op fmt v (commIdentity op fmt) = v

/-- R221 to R226, R47: CLK reads both ends of the die's interval at once; STS takes the stamp max(latest, previous + 1) and waits
for its commit; LDAS and CWAIT wait for theirs; an interval wider than the ceiling faults TIME.WIDE. Of the pair with a last-use mark that
a waiting CWAIT names, the named register alone is dead afterwards (log entry 20). -/
def Obligations.StampedForms : Prop :=
  ∀ (s : State) (c : Ctl) (b64 : Bool) (pr : Option PReg) (d a b : Operand),
    let n := if b64 then 8 else 4
    let lo (s : State) (b : Block) := (s.die b.die).time.earliest s.now
    let hi (s : State) (b : Block) := (s.die b.die).time.latest s.now
    let narrow (s : State) (b : Block) : Prop := hi s b - lo s b ≤ (s.die b.die).ceil
    let near (s : State) (b : Block) (t : Nat) : Prop := t - lo s b ≤ max (s.die b.die).wl (s.die b.die).ceil
    WarpDoes s (.clk c d) c (fun e =>
      let w (v : Word64) (k : Nat) (l : Nat × Nat) : List (Cell × Nat) := let r := regOf e.b l.2 d
        [(.v l.2 (r + k), v.toNat % 2 ^ 32), (.v l.2 (r + k + 1), v.toNat / 2 ^ 32)]
      retireNow e (.clk c d) (e.eff.flatMap fun l =>
        w (BitVec.ofNat 64 (lo e.s e.b)) 0 l ++ w (BitVec.ofNat 64 (hi e.s e.b)) 2 l)) ∧
    SeqDoes s (.clk c d) c (fun e =>
      let l := BitVec.ofNat 64 (lo e.s e.b)
      let h := BitVec.ofNat 64 (hi e.s e.b)
      e.put { e.q.advance.put (regS d) (h - l) with clke := l, clkl := h }) ∧
    (∀ i, i = .sts c b64 d a b ∨ i = .ldas c pr b64 d a b ∨ i = .cwait c a →
      WarpIf s i c (fun e => e.eff = []) (fun e => retire e.s e i)) ∧
    (∀ (e : WEnv) (s1 : State) (xs : List Site), s.warpStart (.sts c b64 d a b) c = some e → e.eff ≠ [] →
      sitesW e .sts n a none = .ok (s1, xs) → e.w.wait ≠ .sts → narrow s1 e.b → s1.loadsBound e.w.aid = true →
      s1.commitWaiters e.b.die + (dedup (xs.map fun x => lineOf x.a)).length ≤ 256 →
      let stamp := max (hi s1 e.b) (match (s1.die e.b.die).time.prev with
        | some p => p + 1
        | none => 0)
      let s2 := s1.modDie e.b.die fun x => { x with time := { x.time with prev := some stamp } }
      let data (x : Site) : List Byte :=
        leBytes n (if b64 then (srcPair e (x.slot, x.thr) b).toNat else (srcI e (x.slot, x.thr) b).toNat)
      let s3 : State := { s2 with nextId := s1.nextId + 1, fresh := s1.fresh + 1 }
      let s4 := s3.addAccesses (stsAccesses e.b e.w.aid s1.nextId (BitVec.ofNat 64 stamp) (xs.zip
        (survivors s1.fresh (xs.map fun x => (x.slot, cellsFrom x.a (data x))))))
      exec (.sts c b64 d a b) s = .next (retireNow { e with s := s4 } (.sts c b64 d a b)
        (pairCells e d (BitVec.ofNat 64 stamp)))) ∧
    (∀ (e : WEnv) (s1 : State) (xs : List Site), s.warpStart (.ldas c pr b64 d a b) c = some e → e.eff ≠ [] →
      sitesW e .ld n a none = .ok (s1, xs) → narrow s1 e.b →
      let t (x : Site) := srcPair e (x.slot, x.thr) b
      let tmax := maxOf (xs.map fun x => (t x).toNat)
      near s1 e.b tmax →
      let as := xs.map fun x => mkAccess e.b e.w.aid s1.nextId x (.ldas x.a n (t x) (BitVec.ofNat 64 tmax)
        ((List.range (n / 4)).map fun k => ⟨.v x.thr (regOf e.b x.thr d + k), 4 * k, 4, false⟩)
        [.v x.thr (regOf e.b x.thr d + 2), .v x.thr (regOf e.b x.thr d + 3)] (pr.map fun p => .p x.thr p.val)) .issued
      exec (.ldas c pr b64 d a b) s = .next (retireLater ({ s1 with nextId := s1.nextId + 1 }.addAccesses as) e
        (.ldas c pr b64 d a b) (as.flatMap fun r => destCells r.kind))) ∧
    (∀ t : Nat,
      let fresh (e : WEnv) : Prop := e.eff ≠ [] ∧ maxOf (e.eff.map fun l => (srcPair e l a).toNat) = t ∧
        (∀ x y z, e.w.wait ≠ .stamp x y z) ∧ narrow e.s e.b ∧ near e.s e.b t
      WarpIf s (.cwait c a) c (fun e => fresh e ∧ e.s.stampPast e.b.die e.w.aid t = true)
        (fun e => retire e.s e (.cwait c a)) ∧
      WarpWaits s (.cwait c a) c (fun e => fresh e ∧ e.s.stampPast e.b.die e.w.aid t = false)
        (fun e => .stamp t (stallN c) (match a with
          | .reg _ true _ | .idx _ _ true _ => e.eff.map fun l => (l.2, Sys2Proof.Machine.regOf e.b l.2 a)
          | _ => [])) ∧
      SeqIf s (.cwait c a) c (fun e => (srcSU e a).toNat = t ∧ narrow e.s e.b ∧ near e.s e.b t ∧
          e.s.stampPast e.b.die e.q.aid t = true) (fun e => e.put e.q.advance)) ∧
    WarpTraps s (.cwait c a) c (fun e => e.eff ≠ [] ∧ (∀ x y z, e.w.wait ≠ .stamp x y z) ∧ ¬narrow e.s e.b)
      (fun e => ⟨0x28, 0, min (hi e.s e.b - lo e.s e.b) (2 ^ 32 - 1), none⟩)

/-- R173, R227 to R229, R321: a block barrier completes once every running warp of the block waits at it and their accesses are
performed at BLK scope, a team barrier once that holds of every block of the team at CLS scope; BARA arrives, BARW passes a released
generation; TDCLR clears the bits it may and returns them. That a BAR and a BAR.TEAM do not complete one another is the model's choice (log
entry 25), and so is that BARA and BARW with an empty set skip the check of the assignment (log entry 27). -/
def Obligations.BarriersPass : Prop :=
  ∀ (s : State) (c : Ctl) (bar : SReg) (d a : Operand) (sd sa : SReg),
    let own (e : WEnv) : Prop := e.s.barrierOk e.b.die bar.val e.b.ctx = true
    let past (e : WEnv) (v : Word32) : Prop := ((e.s.barrier bar.val).rg - v - 1).toNat < 2 ^ 31
    WarpIf s (.bar c) c (fun e => (∀ w ∈ e.b.running, w.k = e.w.k ∨ w.wait = .bar false) ∧
      e.s.warpsSettled e.b .blk = true) (fun e => e.s.setBlock (e.b.barDone c)) ∧
    WarpWaits s (.bar c) c (fun e => ∃ w ∈ e.b.running, w.k ≠ e.w.k ∧ w.wait ≠ .bar false) (fun _ => .bar false) ∧
    WarpIf s (.barTeam c) c (fun e => (∀ w ∈ e.b.running, w.k = e.w.k ∨ w.wait = .bar true) ∧
        ∀ b ∈ e.s.teamBlocks e.b.team, e.s.warpsSettled b .cls = true ∧
          (b.id ≠ e.b.id → b.hst = .run ∧ ∀ w ∈ b.running, w.wait = .bar true))
      (fun e => (e.s.teamBlocks e.b.team).foldl
        (fun s b => s.setBlock ((if b.id = e.b.id then e.b else b).barDone c)) e.s) ∧
    WarpIf s (.bara c bar d) c (fun e => e.eff ≠ [] ∧ own e) (fun e => retireLater
      (({ e.s with nextId := e.s.nextId + 1 }.addAccess (arriveAccess e.b e.w.aid e.s.nextId bar.val
        (e.eff.map fun (l : Nat × Nat) => Cell.v l.2 (Sys2Proof.Machine.regOf e.b l.2 d)))).2) e (.bara c bar d)
      (e.eff.map fun (l : Nat × Nat) => Cell.v l.2 (Sys2Proof.Machine.regOf e.b l.2 d))) ∧
    WarpTraps s (.bara c bar d) c (fun e => e.eff ≠ [] ∧ ¬own e) (fun _ => ⟨0x11, 0, 9, none⟩) ∧
    SeqIf s (.bara c bar d) c (fun e => e.s.barrierOk e.b.die bar.val e.b.ctx = true) (fun e =>
      ({ e with s := (({ e.s with nextId := e.s.nextId + 1 }.addAccess (arriveAccess e.b e.q.aid e.s.nextId bar.val
        [.s (regS d)])).2) }).put e.q.advance) ∧
    WarpIf s (.barw c bar a) c (fun e => e.eff ≠ [] ∧ own e ∧ ∀ l ∈ e.eff, past e (srcU e l a))
      (fun e => retire (e.s.dropLeases e.b.die) e (.barw c bar a)) ∧
    WarpWaits s (.barw c bar a) c (fun e => own e ∧ ∃ l ∈ e.eff, ¬past e (srcU e l a)) (fun _ => .barw bar.val) ∧
    (∀ i, i = .bara c bar d ∨ i = .barw c bar a → WarpIf s i c (fun e => e.eff = []) (fun e => retire e.s e i)) ∧
    SeqTraps s (.tdclr c sd sa) c (fun e => 256 ≤ (e.q.get sa.val).toNat) (fun _ => ⟨0x01, 0, 0, none⟩) ∧
    SeqIf s (.tdclr c sd sa) c
      (fun e => (e.q.get sa.val).toNat < 256 ∧ e.s.agentSettled true .pkg e.q.aid = true)
      (fun e =>
        let t := e.s.dropLeases e.b.die
        let may (k : Nat) : Bool := (e.q.get sa.val).toNat.testBit k && (t.ctx e.b.ctx).touched.testBit k &&
          t.mayClear e.b.die e.b.ctx k
        let mask := (((List.range 8).filter may).map fun k => 2 ^ k).sum
        ({ e with s := t.modCtx e.b.ctx fun x => { x with touched := x.touched - mask } }).put
          (e.q.advance.put sd.val (BitVec.ofNat 64 mask))) ∧
    SeqWaits s (.tdclr c sd sa) c
      (fun e => (e.q.get sa.val).toNat < 256 ∧ e.s.agentSettled true .pkg e.q.aid = false) (fun _ => .other)

-- The matrix engine (R230 to R249).

/-- R233 to R240, R244: an MMA joins the matrix queue once its descriptor, its registers or banks, and a slot allow it. A register
product binds its registers; each element that it updates has a cell, which names its row, column, thread and register: +0 with START;
else the register's value, the result of the latest entry of the open batch that updates it, or the value before that batch bound it
(R235, R236). A bank number above 63 faults ILLEGAL once the descriptor passes, TRADDR its offset (R233, R237; log entry 23). -/
def Obligations.MatrixIssue : Prop :=
  ∀ (s : State) (c : Ctl) (start : Bool) (tag : Fin 4) (d a b : Operand),
    (∀ (e : WEnv) (md : MDesc) (sa sb : List Nat) (slot : Nat), s.warpStart (.mma c start d a) c = some e → e.eff ≠ [] →
      readMDesc e.s e.b e.w.aid true (firstV e a) = .ok (md, sa, sb) →
      let base := Machine.regOf e.b e.first.2 d
      let regs := (List.range ((md.m + 31) / 32 * md.n)).map fun i => base + i
      base + regs.length ≤ e.b.bnd →
      (∀ p ∈ liveLanes e.b e.w, ∀ n ∈ regs, Cell.v p.2 n ∉ e.s.outstanding e.b.id) → checksStall e.b e.w = false →
      (∀ x ∈ e.w.binds, x.1 ∈ regs → e.w.committed x.2 = false) →
      (∀ p ∈ liveLanes e.b e.w, ∀ n ∈ regs, homeBinds e.b p.2 n = false) → matSlot e.s e.b md (firstV e a) = .ok slot →
      ∃ cells id s1, e.s.enqueueMat ⟨e.b, e.w.aid, e.w.k, e.w.pc⟩ ⟨.mma base, start, md, sa, sb, slot, cells, [], [], [], []⟩ =
          (id, s1) ∧
        exec (.mma c start d a) s = .next (retireLater s1 { e with w := { e.w with
          openB := e.w.openB ++ [id]
          binds := (e.w.binds.filter fun x => !regs.contains x.1) ++ regs.map fun n => (n, id)
          pre := e.w.pre ++ bindSnap e regs } } (.mma c start d a) []) ∧
        (∀ x ∈ cells, x.r < md.m ∧ x.n < md.n ∧ x.reg = base + x.r / 32 * md.n + x.n ∧
          (∃ l ∈ e.eff, l.1 = x.r % 32 ∧ l.2 = x.thr) ∧ (start = true → x.val = 0 ∧ x.chain = none) ∧
          (start = false → (∀ y ∈ e.w.binds, y.1 ≠ x.reg) → x.val = readV e.b e.w x.thr x.reg ∧ x.chain = none) ∧
          (start = false → (∃ y ∈ e.w.binds, y.1 = x.reg) →
            let updates (k : Nat) : Prop := ∃ y m, e.s.entry k = some y ∧ y.matOf = some m ∧
              ((∃ z ∈ m.regs, z.thr = x.thr ∧ z.reg = x.reg) ∨ ∃ z ∈ m.out, z.1 = x.thr ∧ z.2.1 = x.reg)
            (∀ k pre post, e.w.openB = pre ++ k :: post → updates k → (∀ j ∈ post, ¬ updates j) → x.chain = some k) ∧
            ((∀ j ∈ e.w.openB, ¬ updates j) → x.chain = none ∧
              (∀ v, (x.thr, x.reg, v) ∈ e.w.pre → (∀ z ∈ e.w.pre, z.1 = x.thr → z.2.1 = x.reg → z.2.2 = v) → x.val = v) ∧
              ((∀ z ∈ e.w.pre, ¬ (z.1 = x.thr ∧ z.2.1 = x.reg)) → x.val = 0xFFBADBAD)))) ∧
        (md.k ≠ 0 ∨ start = true → ∀ r < md.m, ∀ n < md.n, (∃ l ∈ e.eff, l.1 = r % 32) → ∃ x ∈ cells, x.r = r ∧ x.n = n) ∧
        (md.k = 0 → start = false → cells = [])) ∧
    (∀ (b : Block) (w : Warp) (c : Ctl) (s : State) (regs : List Nat), let e : WEnv := ⟨s, b, w, c⟩
      ∀ t n v, (t, n, v) ∈ bindSnap e regs ↔ (∃ l ∈ liveLanes b w, l.2 = t) ∧ n ∈ regs ∧ (∀ y ∈ w.binds, y.1 ≠ n) ∧
        v = readV b w t n) ∧
    (∀ (e : WEnv) (md : MDesc) (sa sb : List Nat) (slot : Nat), s.warpStart (.mmaA c start d a) c = some e → e.eff ≠ [] →
      readMDesc e.s e.b e.w.aid false (firstV e a) = .ok (md, sa, sb) →
      let base := firstV e d
      let banks := (List.range md.bankCount).map fun k => base + k
      (md.bankCount = 0 ∨ base + md.bankCount ≤ e.b.hold.acc) →
      (∀ k ∈ banks, k ∉ warpBanks e.s e.w false ∧ e.b.paired k = false) → matSlot e.s e.b md (firstV e a) = .ok slot →
      ∃ id s1, e.s.enqueueMat ⟨e.b, e.w.aid, e.w.k, e.w.pc⟩ ⟨.mmaA base, start, md, sa, sb, slot, [], [], [], [], []⟩ =
          (id, s1) ∧
        exec (.mmaA c start d a) s =
          .next (retire s1 { e with w := { e.w with openB := e.w.openB ++ [id] } } (.mmaA c start d a))) ∧
    (∀ (e : SEnv) (md : MDesc) (sa sb : List Nat) (slot : Nat), s.seqStart (.mmaA c start d a) c = some e →
      let base := (srcSU e d).toNat
      let o := (srcSU e a).toNat
      base < 64 → readMDesc e.s e.b e.q.aid false o = .ok (md, sa, sb) →
      (md.bankCount = 0 ∨ base + md.bankCount ≤ e.b.hold.acc) →
      (∀ k, base ≤ k → k < base + md.bankCount → e.b.paired k = false) → matSlot e.s e.b md o = .ok slot →
      ∃ id s1, e.s.enqueueMat ⟨e.b, e.q.aid, 63, e.q.pc⟩ ⟨.mmaA base, start, md, sa, sb, slot, [], [], [], [], []⟩ =
          (id, s1) ∧
        exec (.mmaA c start d a) s = .next (({ e with s := s1 }).put e.q.advance)) ∧
    (∀ (e : SEnv) (md : MDesc) (sa sb : List Nat) (slot : Nat), s.seqStart (.mmaS c start tag d a b) c = some e →
      let live := (srcSU e d).toNat
      let shadow := (srcSU e b).toNat
      let o := (srcSU e a).toNat
      live < 64 → shadow < 64 → readMDesc e.s e.b e.q.aid false o = .ok (md, sa, sb) →
      (md.bankCount = 0 ∨ live + md.bankCount ≤ e.b.hold.acc ∧ shadow + md.bankCount ≤ e.b.hold.acc ∧
        (shadow + md.bankCount ≤ live ∨ live + md.bankCount ≤ shadow)) →
      (∀ k, k < md.bankCount → ∀ p ∈ e.s.pairsOf e.b,
        p.shadow ≠ shadow + k ∧ p.shadow ≠ live + k ∧ p.live ≠ live + k) → matSlot e.s e.b md o = .ok slot →
      ∃ id s1, e.s.enqueueMat ⟨e.b, e.q.aid, 63, e.q.pc⟩
          ⟨.mmaS tag.val live shadow, start, md, sa, sb, slot, [], [], [], [], []⟩ = (id, s1) ∧
        exec (.mmaS c start tag d a b) s = .next (({ e with s := s1 }).put e.q.advance)) ∧
    (∀ i, i = .mma c start d a ∨ i = .mmaA c start d a → WarpIf s i c (fun e => e.eff = []) (fun e => retire e.s e i)) ∧
    (∀ (e : SEnv) (md : MDesc) (sa sb : List Nat) (i : Instr), i = .mmaS c start tag d a b ∨ i = .mmaA c start d a →
      s.seqStart i c = some e → e.b.specOf e.q.aid = none →
      readMDesc e.s e.b e.q.aid false (srcSU e a).toNat = .ok (md, sa, sb) →
      (64 ≤ (srcSU e d).toNat ∨ i = .mmaS c start tag d a b ∧ 64 ≤ (srcSU e b).toNat) →
      exec i s = .next (takeTrap (e.s.dropFails e.b.die e.q.aid) e.b.id
        ⟨0x01, e.q.pc, (srcSU e a).toNat, 0, 0x3F, 0⟩))

/-- R241, R244, R245: MCOMMIT closes the open batch, first finishing an earlier one of its name; MWAIT waits until its batch has
completed, then the results stand and the bindings end. SHCOMMIT copies each shadow bank of the tag, elements and window, to its live
bank, SHDROP leaves the live banks as they are; both zero the shadow banks and end the pairs, and touch no other bank. -/
def Obligations.MatrixBatches : Prop :=
  ∀ (s : State) (c : Ctl) (n tag : Fin 4),
    let open_ (e : WEnv) : Batch := e.w.batches.getD n.val ⟨false, []⟩
    let done (e : WEnv) : Prop := (open_ e).out = false ∨ ∀ id ∈ (open_ e).entries, ∀ x ∈ e.s.om.entries, x.id = id →
      x.result.isSome = true
    WarpIf s (.mcommit c n) c (fun e => (open_ e).out = false) (fun e =>
      e.put e.b ({ e.w with batches := e.w.batches.set n.val ⟨true, e.w.openB⟩, openB := [], pre := [] }.advance c)) ∧
    WarpIf s (.mcommit c n) c (fun e => (open_ e).out = true ∧ done e) (fun e =>
      let e := finishBatch e n.val
      e.put e.b ({ e.w with batches := e.w.batches.set n.val ⟨true, e.w.openB⟩, openB := [], pre := [] }.advance c)) ∧
    WarpIf s (.mwait c n) c done (fun e => let e := finishBatch e n.val; e.put e.b (e.w.advance c)) ∧
    (∀ i, i = .mcommit c n ∨ i = .mwait c n → WarpWaits s i c (fun e => ¬done e) (fun _ => .other)) ∧
    (∀ (e : WEnv), let f := finishBatch e n.val
      (∀ x ∈ f.w.binds, (open_ e).out = true → x.2 ∉ (open_ e).entries) ∧ f.w.pend = [] ∧ f.w.byp = []) ∧
    SeqIf s (.shcommit c tag) c (fun e => ∀ x ∈ e.s.tagEntries e.b.id tag.val, x.result.isSome = true) (fun e =>
      ({ e with
        s := e.s.observe e.q.aid ((e.s.tagEntries e.b.id tag.val).map Entry.id)
        b := e.b.unpair tag.val true }).put e.q.advance) ∧
    SeqWaits s (.shcommit c tag) c (fun e => ∃ x ∈ e.s.tagEntries e.b.id tag.val, x.result = none) (fun _ => .other) ∧
    SeqDoes s (.shdrop c tag) c (fun e =>
      let ids := (e.s.tagEntries e.b.id tag.val).map Entry.id
      ({ e with
        s := { e.s with om := { e.s.om with entries := e.s.om.entries.filter fun x => !ids.contains x.id } }
        b := e.b.unpair tag.val false }).put e.q.advance) ∧
    ∀ (b : Block) (k : Bool), let ps := b.pair.filter fun p => p.tag == tag.val
      let b' := b.unpair tag.val k
      b'.pair = b.pair.filter (fun p => p.tag != tag.val) ∧
      ((ps.flatMap fun p => [p.shadow, p.live]).Nodup → (b.acc.map Prod.fst).Nodup →
        (∀ p ∈ ps, (∀ i < 512, b'.getAcc (512 * p.shadow + i) = AccEl.zero ∧
            b'.getAcc (512 * p.live + i) = b.getAcc (512 * (if k then p.shadow else p.live) + i)) ∧
          (p.shadow < b.bw.length → b'.bw.getD p.shadow 0 = 0) ∧
          (p.live < b.bw.length → b'.bw.getD p.live 0 = b.bw.getD (if k then p.shadow else p.live) 0)) ∧
        ∀ ix, (∀ p ∈ ps, ix / 512 ≠ p.shadow ∧ ix / 512 ≠ p.live) → b'.getAcc ix = b.getAcc ix)

/-- R62 to R64, R237, R247, R248: ACCZ zeroes whole banks, ACCFOLD leaves each element's fold in its even half, ACCLD reads rows of
the window, ACCST writes them; a bank not held faults ACC.UNALLOC, and a bank in flight ACC.INFLIGHT. What products add: a WIDE element
takes each exact product rounded once to its unit, clamped with SAT, and a NaN with INV; a register element and a split element take
each into the chain of its parity, rounded once, and fold at the end (R70); a product is that of the elements and their scales (R68); an
MXV sums segments of 1,024 in ascending order (R282). -/
def Obligations.Accumulators : Prop :=
  (∀ (s : State) (c : Ctl) (bank count ctl : BitVec 19) (raw clr : Bool) (kind : AccstKind) (a : Operand),
    let free (e : WEnv) (lo n : Nat) : Prop := ∀ k, lo ≤ k → k < lo + n →
      k < e.b.hold.acc ∧ k ∉ warpBanks e.s e.w true ∧ e.b.paired k = false
    let stride := ctl.toNat % 8192
    let cols := ctl.toNat / 8192 % 32 + 1
    let named (ix : Nat) : Prop := bank.toNat ≤ ix / 512 ∧ ix / 512 < bank.toNat + count.toNat
    (∀ e, s.warpStart (.accz c bank count) c = some e → e.eff ≠ [] → free e bank.toNat count.toNat →
      ∃ b', exec (.accz c bank count) s = .next (retire e.s { e with b := b' } (.accz c bank count)) ∧
        b' = { e.b with acc := b'.acc } ∧ (∀ ix, named ix → b'.getAcc ix = AccEl.zero) ∧
        ∀ ix, ¬named ix → b'.getAcc ix = e.b.getAcc ix) ∧
    (∀ e, s.warpStart (.accfold c bank count) c = some e → e.eff ≠ [] → free e bank.toNat count.toNat →
      ∃ b', exec (.accfold c bank count) s = .next (retire e.s { e with b := b' } (.accfold c bank count)) ∧
        b' = { e.b with acc := b'.acc } ∧
        (∀ ix, named ix → b'.getAcc ix = AccEl.split (e.b.getAcc ix).fold 0 (e.b.getAcc ix)) ∧
        ∀ ix, ¬named ix → b'.getAcc ix = e.b.getAcc ix) ∧
    (∀ (e : WEnv) (o : Nat) (rows : List (List Byte)), s.warpStart (.accld c raw bank a ctl) c = some e → e.eff ≠ [] →
      let sz := if raw then 16 else 4
      accAddr e bank a ctl sz = .ok o →
      (List.range 16).mapM (fun r => e.s.readWindow e.w.aid e.b.id (o + r * stride)
        (cols * sz)) = some rows →
      let b' := ((List.range 16).zip rows).foldl (fun b r => (List.range (ctl.toNat / 8192 % 32 + 1)).foldl (fun b j =>
        let v := leNat ((r.2.drop (j * sz)).take sz)
        b.putAcc (bank.toNat * 512 + r.1 * 32 + j)
          (if raw then ⟨BitVec.ofNat 128 v, false, false⟩ else AccEl.split v 0 AccEl.zero)) b) e.b
      exec (.accld c raw bank a ctl) s = .next (retire e.s { e with b := b' } (.accld c raw bank a ctl))) ∧
    (∀ (e : WEnv) (o : Nat), s.warpStart (.accst c kind clr bank a ctl) c = some e → e.eff ≠ [] →
      let sz := if kind = .raw then 16 else 4
      e.b.specOf e.w.aid = none → accAddr e bank a ctl sz = .ok o →
      ∃ as b', exec (.accst c kind clr bank a ctl) s = .next ((retire { e.s with nextId := e.s.nextId + 1 }
        { e with b := b' } (.accst c kind clr bank a ctl)).addAccesses as) ∧
        b' = { e.b with acc := b'.acc } ∧ (clr = false → b' = e.b) ∧
        (clr = true → ∀ r < 16, ∀ j < cols, b'.getAcc (bank.toNat * 512 + r * 32 + j) = AccEl.zero) ∧
        (∀ x ∈ as, x.loc = some e.b.id ∧ x.st = .buffer ∧ ∃ cells : List Host.Cell, x.kind = .store cells ∧
          ∀ y ∈ cells, ∃ r j k, r < 16 ∧ j < cols ∧ k < sz ∧ y.1 = o + r * stride + j * sz + k ∧
            y.2 = (drainEl kind (e.b.bw.getD bank.toNat 0) (e.b.getAcc (bank.toNat * 512 + r * 32 + j))).getD k 0) ∧
        ∀ r j k, r < 16 → j < cols → k < sz → ∃ x ∈ as, ∃ cells : List Host.Cell, x.kind = .store cells ∧
          ∃ y ∈ cells, y.1 = o + r * stride + j * sz + k) ∧
    (∀ i, i = .accz c bank count ∨ i = .accfold c bank count ∨ i = .accld c raw bank a ctl ∨
        i = .accst c kind clr bank a ctl → WarpIf s i c (fun e => e.eff = []) (fun e => retire e.s e i)) ∧
    (∀ i, i = .accz c bank count ∨ i = .accfold c bank count →
      WarpTraps s i c (fun e => e.eff ≠ [] ∧ 0 < count.toNat ∧ e.b.hold.acc ≤ bank.toNat)
        (fun _ => ⟨0x19, 0, bank.toNat, none⟩) ∧
      WarpTraps s i c (fun e => e.eff ≠ [] ∧ 0 < count.toNat ∧ bank.toNat < e.b.hold.acc ∧
          (bank.toNat ∈ warpBanks e.s e.w true ∨ e.b.paired bank.toNat = true))
        (fun _ => ⟨0x1A, 0, bank.toNat, none⟩))) ∧
  -- R63: one product added to a WIDE element
  (∀ (w : Int) (x : AccEl) (s : Bool) (m : Nat) (e : Int),
    let y : ℚ := (m : ℚ) * 2 ^ (e - (w - 80))
    let lo : Int := -2 ^ 127
    let hi : Int := 2 ^ 127 - 1
    (∃ k : Nat, 2 * y - 1 ≤ 2 * k ∧ 2 * (k : ℚ) ≤ 2 * y + 1 ∧ (2 * y - 1 = 2 * k ∨ 2 * (k : ℚ) = 2 * y + 1 → k % 2 = 0) ∧
      let t : Int := x.v.toInt + (if s then -(k : Int) else (k : Int))
      (x.addWide w (.fin s m e)).v.toInt = max lo (min hi t) ∧
      (x.addWide w (.fin s m e)).sat = (x.sat || decide (t < lo) || decide (hi < t)) ∧
      (x.addWide w (.fin s m e)).inv = x.inv) ∧
    (x.addWide w (.inf s)).v.toInt = (if s then lo else hi) ∧ (x.addWide w (.inf s)).sat = true ∧
    (x.addWide w (.inf s)).inv = x.inv ∧ x.addWide w .nan = { x with inv := true } ∧
    -- R64: its value in binary32
    x.wide32 w = (if x.inv then f32.nan else f32.enc .rne (.fin (decide (x.v.toInt < 0)) x.v.toInt.natAbs (w - 80)))) ∧
  (let rne (c : Nat) (p : FV) : Nat := f32.enc .rne (FV.add .rne (f32.dec c) p);
    (∀ (m : MatEntry) (clm : List Host.Cell) (i n : Nat),
      -- R70: a register element
      let p (k : Nat) : FV := m.product clm i n k
      (∀ acc : Nat, ∃ even odd : Nat → Nat, even 0 = acc ∧ odd 0 = 0 ∧
        (∀ k, even (k + 1) = (if k % 2 = 0 then rne (even k) (p k) else even k) ∧
          odd (k + 1) = if k % 2 = 0 then odd k else rne (odd k) (p k)) ∧
        m.regResult clm i n acc = f32.add .rne (even m.d.k) (odd m.d.k)) ∧
      -- R62, R70: one step on an element of a bank
      (∀ (k : Nat) (x : AccEl),
        (m.d.wide = true → m.stepEl clm i n k x = x.addWide m.d.fa.w (p k)) ∧
        (m.d.wide = false → m.stepEl clm i n k x =
          if k % 2 = 0 then ⟨w32 (rne x.even (p k)) ++ w32 x.odd ++ 0#64, x.sat, x.inv⟩
          else ⟨w32 x.even ++ w32 (rne x.odd (p k)) ++ 0#64, x.sat, x.inv⟩)) ∧
      -- R68: a product of elements with their scales, of an entry that has read no operand ahead
      (m.ea = [] → m.eb = [] → ∀ k,
        let d := m.d
        let el (f : FmtBlk) (l : List Nat) (r o : Nat) : FV :=
          let v := elemDec f.fmt (leNat (bytesAt clm o d.s))
          let c := l.getD (r * ((d.k + 8 * 2 ^ f.blk - 1) / (8 * 2 ^ f.blk)) + k / (8 * 2 ^ f.blk)) 0
          if f.blk = 0 then v
          else FV.mul v (if f.sfmt then f16.dec c else if c = 255 then .nan else .fin false 1 ((c : Int) - 127))
        p k = FV.mul (el d.fa m.sa i (d.aaddr + i * d.astr + k * d.s)) (el d.fb m.sb n (d.baddr + k * d.bstr + n * d.s)))) ∧
    -- R282: one output of an MXV
    ∀ (fa fb : Nat) (a b : List Nat) (nseg : Nat), a.length = b.length → nseg * 1024 < a.length → a.length ≤ (nseg + 1) * 1024 →
      let p (k : Nat) : FV := FV.mul (elemDec fa (a.getD k 0)) (elemDec fb (b.getD k 0))
      ∃ (even odd : Nat → Nat → Nat) (seg total : Nat → Nat),
        (∀ j, even j 0 = 0 ∧ odd j 0 = 0 ∧
          (∀ k, even j (k + 1) = (if k % 2 = 0 then rne (even j k) (p (1024 * j + k)) else even j k) ∧
            odd j (k + 1) = if k % 2 = 0 then odd j k else rne (odd j k) (p (1024 * j + k))) ∧
          seg j = (let n := min 1024 (a.length - 1024 * j); f32.add .rne (even j n) (odd j n))) ∧
        total 0 = seg 0 ∧ (∀ j, total (j + 1) = f32.add .rne (total j) (seg (j + 1))) ∧ mxvTotal fa fb a b = total nseg)

-- Commands of the copy, base-die and network engines (R256 to R264, R275 to R279, R298).

/-- R43, R256, R259, R261 to R264, R279, R298: a command joins its queue once its operands and its handles pass their checks and the
chain pool has room: a new entry at the queue's tail, numbered next, whose reads and writes have not begun. Nothing else of memory,
of the tasks or of other queues changes; the agent moves on with the entry's number in its ticket (R268). -/
def Obligations.CommandsIssue : Prop :=
  ∀ (s : State) (c : Ctl) (q : QReg) (k : Fin 4) (nq : SReg) (r : Route) (g sum : Bool) (d a b : Operand),
    let pw (e : WEnv) : Poster := ⟨e.b, e.w.aid, e.w.k, e.w.pc⟩
    let ps (e : SEnv) : Poster := ⟨e.b, e.q.aid, 63, e.q.pc⟩
    -- a copy, over what gives its form and signal word
    let copyW (i : Instr) (f : WEnv → Except Stop (CopyForm × Nat)) : Prop :=
      ∀ (e : WEnv) (form : CopyForm) (sig blk : Nat) (dst src : End), s.warpStart i c = some e → e.eff ≠ [] →
        f e = .ok (form, sig) → sigBad sig r = false → copyEnds e.s (copyOpsW e r d a) form = .ok (dst, src, blk) →
        let sb := if sigRemote sig then blk else e.b.id
        e.s.stileBad sb sig = false → e.s.poolHas e.b.ctx 1 = true →
        let n := e.s.enqueue (pw e) (.cq e.b.gcore q.val) sig sb (.copy form r dst src)
        exec i s = .next (enqueuedW e i c.yld n.1 n.2)
    let copyS (i : Instr) (f : SEnv → Except Stop (CopyForm × Nat)) : Prop :=
      ∀ (e : SEnv) (form : CopyForm) (sig blk : Nat) (dst src : End), s.seqStart i c = some e →
        f e = .ok (form, sig) → sigBad sig r = false → copyEnds e.s (copyOpsS e r d a) form = .ok (dst, src, blk) →
        let sb := if sigRemote sig then blk else e.b.id
        e.s.stileBad sb sig = false → e.s.poolHas e.b.ctx 1 = true →
        let n := e.s.enqueue (ps e) (.cq e.b.gcore q.val) sig sb (.copy form r dst src)
        exec i s = .next (enqueuedS e n.1 n.2)
    -- a base-die command with a descriptor of `n` bytes
    let baseDie (i : Instr) (n : Nat) (parse : Nat → List Nat → Except Stop BdCmd) : Prop :=
      (∀ (e : WEnv) (w : List Nat) (m : BdCmd), s.warpStart i c = some e → e.eff ≠ [] →
        readDesc e.s e.b e.w.aid (firstV e a) n = .ok w → parse (firstV e a) w = .ok m → sigRemote m.sig = false →
        e.s.handleChecks e.b.ctx m.ends = .ok () → (∀ x ∈ m.locs, e.b.winCheck x.1 x.2 = none) →
        e.s.stileBad e.b.id m.sig = false → e.s.poolHas e.b.ctx 2 = true →
        let n := e.s.enqueue (pw e) (.bq e.b.gcore k.val) m.sig e.b.id (.bd m.f)
        exec i s = .next (enqueuedW e i false n.1 n.2)) ∧
      (∀ (e : SEnv) (w : List Nat) (m : BdCmd), s.seqStart i c = some e →
        readDesc e.s e.b e.q.aid (srcSU e a).toNat n = .ok w → parse (srcSU e a).toNat w = .ok m →
        sigRemote m.sig = false → e.s.handleChecks e.b.ctx m.ends = .ok () →
        (∀ x ∈ m.locs, e.b.winCheck x.1 x.2 = none) → e.s.stileBad e.b.id m.sig = false →
        e.s.poolHas e.b.ctx 2 = true →
        let n := e.s.enqueue (ps e) (.bq e.b.gcore k.val) m.sig e.b.id (.bd m.f)
        exec i s = .next (enqueuedS e n.1 n.2))
    let netOk (s : State) (b : Block) (w : NetWork) : Prop :=
      (s.conn b.die w.conn).valid = true ∧ (s.conn b.die w.conn).ctx = b.ctx ∧
      (w.op = 2 → (s.conn b.die w.conn).uud = false) ∧
      (w.op = 0 → w.rh = 0 ∧ w.roff = 0 ∧ w.tce = false ∧ w.len ≤ (s.conn b.die w.conn).psize) ∧
      s.handleChecks b.ctx [hend w.lh w.loff w.len (w.op == 2)] = .ok () ∧ s.poolHas b.ctx 1 = true
    copyW (.cpy c q r d a b) (fun e => .ok (match b with
      | .imm v => (.lin v.toNat, 0)
      | o => (.lin (firstPair e o % 2 ^ 32), firstPair e o / 2 ^ 32))) ∧
    copyW (.cpys c q r d a b) (fun e => cpysForm e.s e.b e.w.aid (firstV e b)) ∧
    copyW (.cpyx c q r d a b) (fun e => cpyxForm e.s e.b e.w.aid (firstV e b)) ∧
    copyS (.cpy c q r d a b) (fun e => match b with
      | .imm v => .ok (.lin v.toNat, 0)
      | o => if (srcS e o).toNat / 2 ^ 40 ≠ 0 then flt fIllegal 0
        else .ok (.lin ((srcS e o).toNat % 2 ^ 32), (srcS e o).toNat / 2 ^ 32)) ∧
    copyS (.cpys c q r d a b) (fun e => cpysForm e.s e.b e.q.aid (srcSU e b).toNat) ∧
    copyS (.cpyx c q r d a b) (fun e => cpyxForm e.s e.b e.q.aid (srcSU e b).toNat) ∧
    baseDie (.mgath c k g sum a) 32 (mgathParse g sum) ∧
    baseDie (.mconvCvt c k a) 32 (mconvParse false) ∧
    baseDie (.mconvStripe c k a) 32 (mconvParse true) ∧
    baseDie (.mxv c k a) 64 mxvParse ∧
    (∀ (e : WEnv) (l : List Nat) (w : NetWork), s.warpStart (.npost c nq a) c = some e → e.eff ≠ [] →
      readDesc e.s e.b e.w.aid (firstV e a) 32 = .ok l → npostParse (firstV e a) l = .ok w → netOk e.s e.b w →
      let n := e.s.enqueue (pw e) (.nq e.b.gcore nq.val) 0 e.b.id (.net w)
      exec (.npost c nq a) s = .next (enqueuedW e (.npost c nq a) false n.1 n.2)) ∧
    (∀ (e : SEnv) (l : List Nat) (w : NetWork), s.seqStart (.npost c nq a) c = some e →
      readDesc e.s e.b e.q.aid (srcSU e a).toNat 32 = .ok l → npostParse (srcSU e a).toNat l = .ok w → netOk e.s e.b w →
      let n := e.s.enqueue (ps e) (.nq e.b.gcore nq.val) 0 e.b.id (.net w)
      exec (.npost c nq a) s = .next (enqueuedS e n.1 n.2)) ∧
    (∀ i, i = .cpy c q r d a b ∨ i = .cpys c q r d a b ∨ i = .cpyx c q r d a b ∨ i = .mgath c k g sum a ∨
        i = .mconvCvt c k a ∨ i = .mconvStripe c k a ∨ i = .mxv c k a ∨ i = .npost c nq a →
      WarpIf s i c (fun e => e.eff = []) (fun e => retire e.s e i)) ∧
    -- what joining a queue does
    (∀ (t : State) (p : Poster) (x : QueueId) (sig blk : Nat) (form : EntryForm),
      let n := t.enqueue p x sig blk form
      n.1.queue = x ∧ n.1.num = (n.2.queue x).enq ∧ n.1.form = form ∧ n.1.blk = p.b.id ∧ n.1.aid = p.aid ∧ n.1.pc = p.pc ∧
      n.1.st = .queued ∧ n.1.result = none ∧ n.1.sig = sig ∧ n.2.om.entries = t.om.entries ++ [n.1] ∧
      n.2.om.accs = t.om.accs ∧ n.2.phys = t.phys ∧ n.2.dies = t.dies ∧ n.2.task.blocks = t.task.blocks ∧
      (∀ y, y ≠ x → n.2.queue y = t.queue y) ∧ (n.2.queue x).seq = (t.queue x).seq ∧
      ((match x with
        | .cq y j => j < (t.core y).cq.length
        | .bq y j => j < (t.core y).bq.length
        | .nq _ _ => True
        | .mat _ => False) → (n.2.queue x).enq = (t.queue x).enq + 1)) ∧
    (∀ (l : List Nat) (x : QueueId) (v j : Nat), x.ix = some j → j < l.length → ticketOf (setTicket l x v) x = v)

-- Counts, stiles, revocation (R43, R256, R260, R265, R268 to R270, R286, R287).

/-- R256, R268, R286: SEQRD and MRSTAT read a queue's counts in the block's view, the agent's ticket, or a status word. R269, R287:
SEQWAIT and MSEQWAIT end once the count has been reached, wait where it has been given but not reached, and fault SEQ.NEVER where
it has not been given. R43: QFENCE and NQFENCE hold the agent's later entries behind its live ones on the queues named. -/
def Obligations.CountsAndWaits : Prop :=
  ∀ (s : State) (c : Ctl) (q : QReg) (k : Fin 4) (kind : SeqKind) (mask : BitVec 19) (d a : Operand),
    let value (s : State) (b : Block) (tickets : List Nat) (x : QueueId) (t : Operand → Nat) : Nat :=
      match kind with
      | .seq => b.view x (s.queue x).seq
      | .enq => b.view x (s.queue x).enq
      | .ticket => ticketOf tickets x
      | .status o => (s.statusOf b x (t o)).toNat
    let reads (i : Instr) (x : Block → QueueId) : Prop :=
      WarpDoes s i c (fun e => retireNow e i (pairCells e d
        (BitVec.ofNat 64 (value e.s e.b e.w.tickets (x e.b) (firstPair e))))) ∧
      SeqDoes s i c (fun e => e.put (e.q.advance.put (regS d)
        (BitVec.ofNat 64 (value e.s e.b e.q.tickets (x e.b) fun o => (srcSU e o).toNat))))
    let waits (i : Instr) (x : Block → QueueId) (aux : Nat) : Prop :=
      let given (s : State) (b : Block) (t : Nat) : Prop := t ≤ b.view (x b) (s.queue (x b)).enq
      let reached (s : State) (b : Block) (t : Nat) : Prop := t ≤ b.view (x b) (s.queue (x b)).seq
      let ids (s : State) (b : Block) (t : Nat) := s.entriesUpTo (x b) ((t + b.biasOf (x b)) % 2 ^ 64)
      WarpIf s i c (fun e => e.eff = []) (fun e =>
        let r := settleAll e.b e.w
        retire (e.s.observe e.w.aid []) { e with b := r.1, w := r.2 } i) ∧
      WarpIf s i c (fun e => e.eff ≠ [] ∧ given e.s e.b (firstPair e a) ∧ reached e.s e.b (firstPair e a)) (fun e =>
        let r := settleAll e.b e.w
        retire (e.s.observe e.w.aid (ids e.s e.b (firstPair e a))) { e with b := r.1, w := r.2 } i) ∧
      WarpWaits s i c (fun e => e.eff ≠ [] ∧ given e.s e.b (firstPair e a) ∧ ¬reached e.s e.b (firstPair e a))
        (fun _ => .other) ∧
      WarpTraps s i c (fun e => e.eff ≠ [] ∧ ¬given e.s e.b (firstPair e a)) (fun _ => ⟨fSeqNever, 0, aux, none⟩) ∧
      SeqIf s i c (fun e => given e.s e.b (srcSU e a).toNat ∧ reached e.s e.b (srcSU e a).toNat) (fun e =>
        ({ e with s := e.s.observe e.q.aid (ids e.s e.b (srcSU e a).toNat) }).put e.q.advance) ∧
      SeqWaits s i c (fun e => given e.s e.b (srcSU e a).toNat ∧ ¬reached e.s e.b (srcSU e a).toNat) (fun _ => .other) ∧
      SeqTraps s i c (fun e => ¬given e.s e.b (srcSU e a).toNat) (fun _ => ⟨fSeqNever, 0, aux, none⟩)
    let behind (s : State) (aid : Nat) (names : QueueId → Bool) : State := s.modAgent aid fun r => { r with
      qf := dedup (r.qf ++ (s.om.entries.filter fun x => x.aid == aid && x.live && names x.queue).map Entry.id) }
    let cq (x : QueueId) : Bool := match x with
      | .cq _ j => mask.getLsbD j
      | _ => false
    let nq (m : Nat) (x : QueueId) : Bool := match x with
      | .nq _ j => m.testBit j
      | _ => false
    reads (.seqrd c q kind d) (fun b => .cq b.gcore q.val) ∧ reads (.mrstat c k kind d) (fun b => .bq b.gcore k.val) ∧
    waits (.seqwait c q a) (fun b => .cq b.gcore q.val) q.val ∧
    waits (.mseqwait c k a) (fun b => .bq b.gcore k.val) (8 + k.val) ∧
    WarpIf s (.qfence c mask) c (fun e => e.eff ≠ []) (fun e => retire (behind e.s e.w.aid cq) e (.qfence c mask)) ∧
    SeqDoes s (.qfence c mask) c (fun e => ({ e with s := behind e.s e.q.aid cq }).put e.q.advance) ∧
    WarpIf s (.nqfence c a) c (fun e => e.eff ≠ []) (fun e =>
      retire (behind e.s e.w.aid (nq (firstPair e a))) e (.nqfence c a)) ∧
    SeqDoes s (.nqfence c a) c (fun e => ({ e with s := behind e.s e.q.aid (nq (srcSU e a).toNat) }).put e.q.advance) ∧
    (∀ i, i = .qfence c mask ∨ i = .nqfence c a → WarpIf s i c (fun e => e.eff = []) (fun e => retire e.s e i)) ∧
    ∀ (b : Block) (x : QueueId) (n : Nat), b.biasOf x < 2 ^ 64 → n < 2 ^ 64 →
      (b.biasOf x ≤ n → b.view x n = n - b.biasOf x) ∧ (n < b.biasOf x → b.view x n = n + 2 ^ 64 - b.biasOf x)

/-- R265: STINIT sets a stile's count to zero and its target; STARR waits as FENCE.CORE does and adds one arrival, up to 65535;
STWAIT passes where the target is not zero and the count has reached it, and waits elsewhere; a stile the block does not hold faults
ACC.UNALLOC. R260, R270: HREV advances the slot's generation and gives the new handle once every entry that held the old one has
stopped; a handle that names nothing gives zero. -/
def Obligations.StilesAndRevocation : Prop :=
  ∀ (s : State) (c : Ctl) (d a : Operand) (rd ra : SReg),
    let imm (o : Operand) : Nat := match o with
      | .imm v => v.toNat
      | _ => 0
    let heldS (e : SEnv) (o : Operand) : Prop := (srcSU e o).toNat < 64 ∧ (srcSU e o).toNat < e.b.hold.stile
    let passes (b : Block) (n : Nat) : Prop := (b.stileAt n).tgt ≠ 0 ∧ (b.stileAt n).tgt ≤ (b.stileAt n).cnt
    let arrived (b : Block) (n : Nat) : Block :=
      { b with stiles := b.stiles.modify n fun x => { x with cnt := min (x.cnt + 1) 65535 } }
    SeqIf s (.stinit c d a) c (fun e => heldS e d ∧ (srcSU e a).toNat ≤ 65535) (fun e => ({ e with
      b := { e.b with stiles := e.b.stiles.set (srcSU e d).toNat ⟨0, (srcSU e a).toNat, []⟩ } }).put e.q.advance) ∧
    SeqTraps s (.stinit c d a) c (fun e => heldS e d ∧ 65535 < (srcSU e a).toNat) (fun _ => ⟨fIllegal, 0, 0, none⟩) ∧
    WarpIf s (.starr c d) c (fun e => e.eff = []) (fun e => retire e.s e (.starr c d)) ∧
    WarpIf s (.starr c d) c (fun e => e.eff ≠ [] ∧ imm d < e.b.hold.stile ∧ e.s.agentSettled true .core e.w.aid = true)
      (fun e => retire e.s { e with b := arrived e.b (imm d) } (.starr c d)) ∧
    WarpWaits s (.starr c d) c (fun e => e.eff ≠ [] ∧ imm d < e.b.hold.stile ∧
      e.s.agentSettled true .core e.w.aid = false) (fun _ => .other) ∧
    SeqIf s (.starr c d) c (fun e => heldS e d ∧ e.s.agentSettled true .core e.q.aid = true)
      (fun e => ({ e with b := arrived e.b (srcSU e d).toNat }).put e.q.advance) ∧
    WarpIf s (.stwait c a) c (fun e => e.eff = []) (fun e =>
      let r := settleAll e.b e.w
      retire (e.s.observe e.w.aid []) { e with b := r.1, w := r.2 } (.stwait c a)) ∧
    WarpIf s (.stwait c a) c (fun e => e.eff ≠ [] ∧ imm a < e.b.hold.stile ∧ passes e.b (imm a)) (fun e =>
      let r := settleAll e.b e.w
      retire (e.s.observe e.w.aid (e.b.stileAt (imm a)).obs) { e with b := r.1, w := r.2 } (.stwait c a)) ∧
    WarpWaits s (.stwait c a) c (fun e => e.eff ≠ [] ∧ imm a < e.b.hold.stile ∧ ¬passes e.b (imm a))
      (fun _ => .stile (imm a)) ∧
    SeqIf s (.stwait c a) c (fun e => heldS e a ∧ passes e.b (srcSU e a).toNat) (fun e =>
      ({ e with s := e.s.observe e.q.aid (e.b.stileAt (srcSU e a).toNat).obs }).put e.q.advance) ∧
    SeqWaits s (.stwait c a) c (fun e => heldS e a ∧ ¬passes e.b (srcSU e a).toNat)
      (fun e => .stile (srcSU e a).toNat) ∧
    WarpTraps s (.starr c d) c (fun e => e.eff ≠ [] ∧ e.b.hold.stile ≤ imm d)
      (fun _ => ⟨fAccUnalloc, 0, 0x200 + imm d, none⟩) ∧
    (∀ i o, i = .stinit c o a ∨ i = .starr c o ∨ i = .stwait c o →
      SeqTraps s i c (fun e => (srcSU e o).toNat < 64 ∧ e.b.hold.stile ≤ (srcSU e o).toNat)
        (fun e => ⟨fAccUnalloc, 0, 0x200 + (srcSU e o).toNat, none⟩)) ∧
    (∀ e, s.seqStart (.hrev c rd ra) c = some e → (∀ h, e.q.wait ≠ .revoke h) →
      e.s.agentSettled true .pkg e.q.aid = true →
      let s1 := e.s.dropLeases e.b.die
      let h := (e.q.get ra.val).toNat % 2 ^ 32
      let s2 := s1.revoke e.b.ctx h
      let stopped : Prop := ∀ x ∈ s2.om.entries, x.ctx = e.b.ctx → x.revoked = true → h ∈ x.handles → x.stopped = true
      (s1.handleLive e.b.ctx h = false →
        exec (.hrev c rd ra) s = .next (({ e with s := s1 }).put (e.q.advance.put rd.val 0))) ∧
      (s1.handleLive e.b.ctx h = true → stopped → exec (.hrev c rd ra) s = .next (({ e with s := s2 }).put
        (e.q.advance.put rd.val (BitVec.ofNat 64 ((h / 2 ^ 16 + 1) % 2 ^ 16 * 2 ^ 16 + h % 2 ^ 16))))) ∧
      (s1.handleLive e.b.ctx h = true → ¬stopped →
        exec (.hrev c rd ra) s = .next (setWaitS s2 e.b.id (.revoke h)))) ∧
    SeqWaits s (.hrev c rd ra) c (fun e => (∀ h, e.q.wait ≠ .revoke h) ∧ e.s.agentSettled true .pkg e.q.aid = false)
      (fun _ => .other) ∧
    (∀ (t : State) (ctx h : Nat) (x : Entry), x ∈ t.om.entries → x.ctx = ctx → x.result = none → h ∈ x.handles →
      { x with revoked := true } ∈ (t.revoke ctx h).om.entries)

-- Network counters and rings (R302 to R304).

/-- R302 to R304: NCNT reads a counter; NWAIT passes once DONE + ERR has reached the target, dropping the die's leases as an acquire
does; RNGPEEK reads PROD and CONS; RNGADV moves CONS on by B where CONS is E and the messages are there; RNGSTAT reads the four loss
counters, and .RESET zeroes them in the same step. -/
def Obligations.RingsAndCounters : Prop :=
  ∀ (s : State) (c : Ctl) (err : Bool) (d a b : Operand),
    let count (s : State) (x : Block) (n : Nat) : Nat := (if err then (s.counter x.ctx x.die n).err else (s.counter x.ctx x.die n).done).toNat
    let total (s : State) (x : Block) (n : Nat) : Nat := ((s.counter x.ctx x.die n).done + (s.counter x.ctx x.die n).err).toNat
    let mine (s : State) (x : Block) (n : Nat) : Prop :=
      n ≤ 255 ∧ (s.ring x.die n).valid = true ∧ (s.ring x.die n).ctx = x.ctx
    let words (e : WEnv) (l : List Word64) : List (Cell × Nat) := e.eff.flatMap fun x => (l.zip (List.range l.length)).flatMap
      fun v => [(.v x.2 (Machine.regOf e.b x.2 d + 2 * v.2), v.1.toNat % 2 ^ 32), (.v x.2 (Machine.regOf e.b x.2 d + 2 * v.2 + 1), v.1.toNat / 2 ^ 32)]
    let losses (r : Ring) : List Word64 := [r.full, r.key, r.frame, r.nomat]
    let stat (i : Instr) (after : Ring → Ring) : Prop :=
      WarpIf s i c (fun e => e.eff ≠ [] ∧ mine e.s e.b (firstV e a)) (fun e =>
        let r := e.s.ring e.b.die (firstV e a)
        retireNow { e with s := e.s.setRing e.b.die (firstV e a) (after r) } i (words e (losses r))) ∧
      SeqIf s i c (fun e => mine e.s e.b (srcSU e a).toNat) (fun e =>
        let r := e.s.ring e.b.die (srcSU e a).toNat
        ({ e with s := e.s.setRing e.b.die (srcSU e a).toNat (after r) }).put (seqWords e.q.advance d (losses r)))
    WarpIf s (.ncnt c err d a) c (fun e => e.eff ≠ [] ∧ firstV e a ≤ 255) (fun e =>
      retireNow e (.ncnt c err d a) (pairCells e d (BitVec.ofNat 64 (count e.s e.b (firstV e a))))) ∧
    SeqIf s (.ncnt c err d a) c (fun e => (srcSU e a).toNat ≤ 255) (fun e =>
      e.put (e.q.advance.put (regS d) (BitVec.ofNat 64 (count e.s e.b (srcSU e a).toNat)))) ∧
    WarpIf s (.nwait c a b) c (fun e => e.eff ≠ [] ∧ firstV e a ≤ 255 ∧ firstPair e b ≤ total e.s e.b (firstV e a)) (fun e =>
      let r := settleAll e.b e.w
      retire ((e.s.dropLeases e.b.die).observe e.w.aid []) { e with s := e.s.dropLeases e.b.die, b := r.1, w := r.2 } (.nwait c a b)) ∧
    WarpWaits s (.nwait c a b) c (fun e => e.eff ≠ [] ∧ firstV e a ≤ 255 ∧ total e.s e.b (firstV e a) < firstPair e b)
      (fun _ => .other) ∧
    SeqIf s (.nwait c a b) c (fun e => (srcSU e a).toNat ≤ 255 ∧ (srcSU e b).toNat ≤ total e.s e.b (srcSU e a).toNat)
      (fun e => ({ e with s := e.s.dropLeases e.b.die }).put e.q.advance) ∧
    WarpIf s (.rngpeek c d a) c (fun e => e.eff ≠ [] ∧ mine e.s e.b (firstV e a)) (fun e =>
      let r := e.s.ring e.b.die (firstV e a)
      retireNow e (.rngpeek c d a) (words e [r.prod, r.cons])) ∧
    SeqIf s (.rngpeek c d a) c (fun e => mine e.s e.b (srcSU e a).toNat) (fun e =>
      let r := e.s.ring e.b.die (srcSU e a).toNat
      e.put (seqWords e.q.advance d [r.prod, r.cons])) ∧
    WarpIf s (.rngadv c d a b) c (fun e => e.eff ≠ [] ∧ mine e.s e.b (firstV e a) ∧
        e.s.agentSettled true .die e.w.aid = true) (fun e =>
      let r := ringAdvance (e.s.ring e.b.die (firstV e a)) (srcPair e e.first d) (BitVec.ofNat 64 (firstV e b))
      retireNow { e with s := e.s.setRing e.b.die (firstV e a) r.1 } (.rngadv c d a b) (pairCells e d r.2)) ∧
    SeqIf s (.rngadv c d a b) c (fun e => mine e.s e.b (srcSU e a).toNat ∧ e.s.agentSettled true .die e.q.aid = true)
      (fun e =>
        let r := ringAdvance (e.s.ring e.b.die (srcSU e a).toNat) (e.q.get (regS d)) (srcSU e b)
        ({ e with s := e.s.setRing e.b.die (srcSU e a).toNat r.1 }).put (e.q.advance.put (regS d) r.2)) ∧
    stat (.rngstatPeek c d a) id ∧ stat (.rngstatReset c d a) (fun r => { r with full := 0, key := 0, frame := 0, nomat := 0 }) ∧
    (∀ i, i = .ncnt c err d a ∨ i = .rngpeek c d a ∨ i = .rngadv c d a b ∨ i = .rngstatPeek c d a ∨ i = .rngstatReset c d a →
      WarpTraps s i c (fun e => e.eff ≠ [] ∧ 255 < firstV e a) (fun _ => ⟨fIllegal, 0, 1, none⟩) ∧
      SeqTraps s i c (fun e => 255 < (srcSU e a).toNat) (fun _ => ⟨fIllegal, 0, 1, none⟩) ∧
      WarpIf s i c (fun e => e.eff = []) (fun e => retire e.s e i)) ∧
    WarpIf s (.nwait c a b) c (fun e => e.eff = []) (fun e =>
      let r := settleAll e.b e.w
      retire (e.s.observe e.w.aid []) { e with b := r.1, w := r.2 } (.nwait c a b)) ∧
    ∀ (r : Ring) (x n : Word64),
      (r.cons ≠ x → ringAdvance r x n = (r, r.cons - x)) ∧
      (r.cons = x → r.prod.toNat < x.toNat + n.toNat → ringAdvance r x n = (r, BitVec.allOnes 64)) ∧
      (r.cons = x → x.toNat + n.toNat ≤ r.prod.toNat → ringAdvance r x n = ({ r with cons := x + n }, 0))

-- Tasks and the banker (R16, R96 to R106, R112 to R126).

/-- R115 to R126: CLAIM lowers the claim, never below the holding; TAKE and TAKE.T are granted where the claim and the free units allow
and the state stays safe, TAKE waits and TAKE.T answers 1 or 2 elsewhere; GIVE and GIVEALL return what lies above the floor; HOLD
reads a vector. R96, R100, R101: SPAWN and SPAWNR push the record read, answer 1 for a pending join and 2 for a bad record; JOINDEC
makes its decrements. R16, R109, R110: EXIT ends threads or the sequencer thread, and in a handler passes the block on by a record of
service 0 (R111); EXIT.J names a join, EXIT.K kills the team. R106: WFLD reads a field of the record; YIELD stops the team where another
could use its place and the save pool has room, and waits for the save, and answers 0 elsewhere. The answer 0 where the save pool has no
room (log entry 43), JOINDEC's check as a store (log entry 40) and what GIVE waits for (log entry 63) are the model's choices. R86, R121: a
warp that ends writes what is pending; a return leaves no register above the bound, nor in what an SVCP keeps. -/
def Obligations.TasksAndBanker : Prop :=
  ∀ (s : State) (c : Ctl) (k : HoldKind) (f : WfldKind) (n : Fin 55) (o : Operand) (d a b : SReg),
    let word (e : SEnv) : Nat := (e.q.get a.val).toNat
    let vec (e : SEnv) : RV := rvOfWord (word e)
    let good (e : SEnv) : Prop := rvMbz (word e) = false
    let notWaiting (e : SEnv) : Prop := ∀ x ∈ (e.s.core e.b.gcore).waiting, x.1 ≠ e.b.id
    let within (e : SEnv) (v : RV) : Prop := ∀ x ∈ (rvList v).zip ((rvList e.b.claim).zip (rvList e.b.hold)),
      x.1 ≤ x.2.1 ∧ x.2.2 ≤ x.1
    let answer (e : SEnv) (v : Nat) : SeqThread := e.q.advance.put d.val (BitVec.ofNat 64 v)
    let gives (i : Instr) (p : SEnv → Prop) (v : SEnv → RV) : Prop :=
      SeqIf s i c (fun e => p e ∧ overClass (rvAdd e.b.hdr.floor (v e)) e.b.hold = none ∧ e.s.mayGive e.b (v e) = true)
        (fun e => e.s.giveBack { e.b with seq := some e.q.advance } (v e)) ∧
      SeqWaits s i c (fun e => p e ∧ overClass (rvAdd e.b.hdr.floor (v e)) e.b.hold = none ∧ e.s.mayGive e.b (v e) = false)
        (fun _ => .other)
    let spawns (i : Instr) (g : SEnv → Rec → Rec) : Prop :=
      ∀ (e : SEnv) (s1 s2 : State) (p : Spot) (ps : List Spot) (bytes : List Byte), s.seqStart i c = some e →
        let va := (e.q.get a.val).toNat % 2 ^ 54
        e.s.spots e.q.aid e.b .ld 32 [(0, 0, va)] = .ok (s1, p :: ps) →
        s1.loadNow e.b e.q.aid p.site 32 = some (s2, bytes) → (recOf (wordsOf bytes)).kid = e.b.kid →
        let r := g e (recOf (wordsOf bytes))
        let put (t : State) (v : Nat) : State := ({ e with s := t }).put (answer e v)
        (r.resume = true ∨ r.mbz = true → exec i s = .next (put s2 2)) ∧
        (r.resume = false → r.mbz = false → r.join ≠ 0 → exec i s = .next (put s2 1)) ∧
        (r.resume = false → r.mbz = false → r.join = 0 → ∀ s3,
          let r' : Rec := { r with prio := max r.prio (s2.prioOf e.b) }
          s2.recCheck e.b.die e.b.ctx r' = (s3, some true) → (s3.die e.b.die).roomFor r'.prio = true →
          let x := (put s3 0).newRec r' va e.b.ctx [e.b.die]
          exec i s = .next (x.2.pushRec e.b.die x.1))
    SeqIf s (.claim c a) c (fun e => good e ∧ within e (vec e)) (fun e =>
      let t := e.s.setBlock { e.b with claim := vec e, seq := some e.q.advance }
      if vec e = e.b.claim then t else t.retry e.b.gcore) ∧
    SeqIf s (.take c a) c (fun e => notWaiting e ∧ good e ∧ vec e = RV.zero) (fun e => e.put e.q.advance) ∧
    SeqIf s (.take c a) c (fun e => notWaiting e ∧ good e ∧ vec e ≠ RV.zero ∧ e.s.decide_ e.b (vec e) = .grant) (fun e =>
      e.s.grantTo { e.b with seq := some e.q.advance } (vec e)) ∧
    SeqIf s (.take c a) c (fun e => notWaiting e ∧ good e ∧ vec e ≠ RV.zero ∧
        (e.s.decide_ e.b (vec e) = .busy ∨ e.s.decide_ e.b (vec e) = .isUnsafe)) (fun e =>
      setWaitS (e.s.modCore e.b.gcore fun x => { x with waiting := x.waiting ++ [(e.b.id, vec e)] }) e.b.id .take) ∧
    SeqIf s (.taket c d a) c (fun e => good e ∧ vec e = RV.zero) (fun e => e.put (answer e 0)) ∧
    SeqIf s (.taket c d a) c (fun e => good e ∧ vec e ≠ RV.zero ∧ e.s.decide_ e.b (vec e) = .grant) (fun e =>
      e.s.grantTo { e.b with seq := some (answer e 0) } (vec e)) ∧
    SeqIf s (.taket c d a) c (fun e => good e ∧ vec e ≠ RV.zero ∧ e.s.decide_ e.b (vec e) = .busy)
      (fun e => e.put (answer e 1)) ∧
    SeqIf s (.taket c d a) c (fun e => good e ∧ vec e ≠ RV.zero ∧ e.s.decide_ e.b (vec e) = .isUnsafe)
      (fun e => e.put (answer e 2)) ∧
    (∀ j, SeqTraps s (.take c a) c (fun e => notWaiting e ∧ good e ∧ vec e ≠ RV.zero ∧
        e.s.decide_ e.b (vec e) = .exceeded j) (fun _ => ⟨fClaimExceeded, 0, j, none⟩)) ∧
    gives (.give c a) good vec ∧ gives (.giveall c) (fun _ => True) (fun e => rvSub e.b.hold e.b.hdr.floor) ∧
    WarpDoes s (.hold c k o) c (fun e => retireNow e (.hold c k o) (pairCells e o
      (BitVec.ofNat 64 (rvPack (e.s.holdValue e.b k))))) ∧
    SeqDoes s (.hold c k o) c (fun e => e.put (e.q.advance.put (regS o)
      (BitVec.ofNat 64 (rvPack (e.s.holdValue e.b k))))) ∧
    spawns (.spawn c d a) (fun _ r => r) ∧
    spawns (.spawnr c n d a b) (fun e r => { r with range := true, workid := (e.q.get b.val).toNat, rangel := n.val }) ∧
    (∀ (e : WEnv) (s1 t : State) (xs : List Site), s.warpStart (.joindec c o) c = some e →
      sitesW e .st 32 o none = .ok (s1, xs) → (retire s1 e (.joindec c o)).joinAll e.b xs = (t, true) →
      exec (.joindec c o) s = .next t) ∧
    (∀ (e : SEnv) (s1 t : State) (xs : List Site), s.seqStart (.joindec c o) c = some e →
      sitesS e .st 32 o none = .ok (s1, xs) → (({ e with s := s1 }).put e.q.advance).joinAll e.b xs = (t, true) →
      exec (.joindec c o) s = .next t) ∧
    WarpDoes s (.exit c) c (fun e =>
      let x := e.eff.foldl (fun y l => y.modThread l.2 fun th => { th with live := false }) e.b
      let y := if warpAlive x e.w then (x, e.w) else settleAll x e.w
      let x := ((y.1.setWarp (y.2.advance e.c)).endWarps).freeDq
      (e.s.setBlock x).advancePaths x.id (pathFuel x)) ∧
    SeqIf s (.exit c) c (fun e => e.b.hst ≠ .handler) (fun e => e.s.setBlock { e.b with
      seq := some { e.q.advance with exited := true }, closed := true, exitJ := none }) ∧
    SeqIf s (.exitJ c a) c (fun e => e.b.hst ≠ .handler ∧ (e.q.get a.val).toNat % 32 = 0) (fun e => e.s.setBlock { e.b with
      seq := some { e.q.advance with exited := true }, closed := true, exitJ := some ((e.q.get a.val).toNat % 2 ^ 54) }) ∧
    SeqTraps s (.exitJ c a) c (fun e => (e.q.get a.val).toNat % 32 ≠ 0)
      (fun e => ⟨fAlign, (e.q.get a.val).toNat % 2 ^ 54, 0, none⟩) ∧
    SeqIf s (.exit c) c (fun e => e.b.hst = .handler ∧ (e.s.die e.b.die).ringFull = false) (fun e =>
      let t := e.s.newId.2.ringPut e.b.die ⟨e.b.ctx, e.b.kid, 0, false, e.b.core, e.b.slot, 0x3F, e.s.nextId, [], 0⟩
      (({ e with s := t, b := { e.b with fwd := some e.s.nextId } }).put e.q.advance).toKernel e.b.id) ∧
    SeqWaits s (.exit c) c (fun e => e.b.hst = .handler ∧ (e.s.die e.b.die).ringFull = true) (fun _ => .other) ∧
    SeqDoes s (.exitK c) c (fun e => (e.put e.q.advance).killTeam e.b.die e.b.team e.b.trap) ∧
    WarpDoes s (.wfld c f o) c (fun e => retireNow e (.wfld c f o) (pairCells e o
      (BitVec.ofNat 64 (e.s.wfldValue e.b f)))) ∧
    SeqDoes s (.wfld c f o) c (fun e => e.put (e.q.advance.put (regS o) (BitVec.ofNat 64 (e.s.wfldValue e.b f)))) ∧
    SeqIf s (.yieldTeam c d) c (fun e => e.b.hst = .handler ∨ e.s.team e.b.team = none) (fun e => e.put (answer e 0)) ∧
    (∀ (e : SEnv) (t : Team) (s1 : State) (stuck : Bool), s.seqStart (.yieldTeam c d) c = some e → e.b.hst ≠ .handler →
      e.s.team e.b.team = some t →
      e.s.someStuck e.b.die ((List.range 16).filter fun p => decide (t.crec.prio ≤ p)) = (s1, some stuck) →
      let room : Prop := s1.saveRoom t = true
      (stuck = true → room → exec (.yieldTeam c d) s = .next (setWaitS (s1.stopTeam t) e.b.id (.yield d.val))) ∧
      (stuck = false ∨ ¬room → exec (.yieldTeam c d) s = .next (({ e with s := s1 }).put (answer e 0)))) ∧
    -- a grant adds to the holding, a return takes from it
    (∀ (x : Block) (q : RV) (u : Phys), (x.grow q u).hold = rvAdd x.hold q ∧ (x.grow q u).claim = x.claim ∧
      (q.reg ≠ 0 → (x.grow q u).bnd = 8 * (x.hold.reg + q.reg)) ∧ (q.reg = 0 → (x.grow q u).bnd = x.bnd) ∧
      (x.grow q u).threads = x.threads) ∧
    (∀ (x : Block) (q : RV), (x.shrink q).hold = rvSub x.hold q ∧ (x.shrink q).bnd ≤ x.bnd ∧
      (x.shrink q).bnd ≤ 8 * (rvSub x.hold q).reg ∧
      (∀ t ∈ (x.shrink q).threads, ∀ m, (x.shrink q).bnd ≤ m → t.getV m = 0 ∧ m ∉ t.dead) ∧
      ∀ y ∈ (x.shrink q).spec, ∀ p ∈ y.threads, ∀ m, (x.shrink q).bnd ≤ m → p.2.getV m = 0 ∧ m ∉ p.2.dead)

-- System calls (R308, R326, R327).

/-- R308, R326: SVC first waits for its accesses and for room, then appends a request record and waits for the reply, which it
writes to D; a reply DENIED traps SVC.DENIED with TRAUX the service number; service 0 inside a handler goes to the die kernel at once, by a
record that the die kernel may answer by FORWARD. R327: SVCP runs on with its prediction; R328: an SVCP that stands at its reply, after a
roll-back, takes it as SVC does. A call is known by its agent and its PC, the model's choice (log entry 31). TDMASK reads a mask of
dies. -/
def Obligations.SystemCalls : Prop :=
  ∀ (s : State) (c : Ctl) (k : TdmaskKind) (d a : Operand) (n : BitVec 19),
    let room (s : State) (b : Block) : Prop := (s.die b.die).ringFull = false
    let requests (s : State) (b : Block) (x : Call) : State :=
      (s.dropLeases b.die).newId.2.ringPut b.die ⟨b.ctx, b.kid, x.svcn, x.pred, b.core, b.slot, x.warp, s.nextId, x.args, 0⟩
    let called (s : State) (b : Block) (x : Call) : State :=
      (requests s b x).setBlock { b with svc := b.svc ++ [⟨x.aid, s.nextId, x.svcn, x.d, x.pc, none⟩] }
    let callableW (e : WEnv) : Prop := e.eff ≠ [] ∧ e.b.svcAt e.w.aid e.w.pc = none ∧
      e.s.agentSettled true .sys e.w.aid = true ∧ room e.s e.b
    let callableS (e : SEnv) : Prop := e.b.svcAt e.q.aid e.q.pc = none ∧
      e.s.agentSettled true .sys e.q.aid = true ∧ room e.s e.b
    let answeredW (e : WEnv) (x : SvcWait) (v : Word64) (no : Bool) : Prop := e.eff ≠ [] ∧
      e.b.svcAt e.w.aid e.w.pc = some x ∧ x.reply = some (v, no)
    let answeredS (e : SEnv) (x : SvcWait) (v : Word64) (no : Bool) : Prop :=
      e.b.svcAt e.q.aid e.q.pc = some x ∧ x.reply = some (v, no)
    let taken (s : State) (b : Block) (x : SvcWait) : State := (s.setBlock (b.dropSvc x.tag)).dropLeases b.die
    let toKernel (b : Block) : Prop := n.toNat = 0 ∧ b.hst = .handler
    WarpIf s (.svc c d a n) c (fun e => callableW e ∧ ¬toKernel e.b) (fun e =>
      setWaitW (called e.s e.b (callW e false d a n)) e.b.id e.w.k .reply) ∧
    SeqIf s (.svc c d a n) c (fun e => callableS e ∧ ¬toKernel e.b) (fun e =>
      setWaitS (called e.s e.b (callS e false d a n)) e.b.id .reply) ∧
    (∀ (i : Instr) (p : Bool), (i = .svc c d a n ∧ p = false) ∨ (i = .svcp c d a n ∧ p = true) →
      SeqIf s i c (fun e => callableS e ∧ toKernel e.b) (fun e =>
        ((requests e.s e.b (callS e p d a n)).setBlock { e.b with fwd := some e.s.nextId }).toKernel e.b.id) ∧
      (∀ x v, WarpIf s i c (fun e => answeredW e x v false) (fun e =>
        let b := e.b.dropSvc x.tag
        retireNow { e with s := taken e.s e.b x, b := b } i (pairCells { e with b := b } d v))) ∧
      (∀ x v, SeqIf s i c (fun e => answeredS e x v false) (fun e =>
        ({ e with s := taken e.s e.b x, b := e.b.dropSvc x.tag }).put (e.q.advance.put (regS d) v))) ∧
      (∀ e x v, s.warpStart i c = some e → e.b.spec = [] → answeredW e x v true → exec i s = .next
        (takeTrap ((taken e.s e.b x).dropFails e.b.die e.w.aid) e.b.id ⟨0x38, e.w.pc, 0, n.toNat, e.w.k, lanesMask e.eff⟩)) ∧
      (∀ e x v, s.seqStart i c = some e → e.b.spec = [] → answeredS e x v true → exec i s = .next
        (takeTrap ((taken e.s e.b x).dropFails e.b.die e.q.aid) e.b.id ⟨0x38, e.q.pc, 0, n.toNat, 0x3F, 0⟩)) ∧
      (∀ x, WarpWaits s i c (fun e => e.eff ≠ [] ∧ e.b.svcAt e.w.aid e.w.pc = some x ∧ x.reply = none) (fun _ => .reply) ∧
        SeqWaits s i c (fun e => e.b.svcAt e.q.aid e.q.pc = some x ∧ x.reply = none) (fun _ => .reply))) ∧
    WarpIf s (.svcp c d a n) c (fun e => callableW e ∧ ¬toKernel e.b) (fun e =>
      let x := callW e true d a n
      let b : Block := { e.b with svc := e.b.svc ++ [⟨x.aid, e.s.nextId, x.svcn, x.d, x.pc, none⟩] }
      let ts := (liveLanes b e.w).map Prod.snd
      retireNow { e with s := called e.s e.b x, b := { b with spec := b.spec ++ [{
        aid := e.w.aid, tag := e.s.nextId, pred := regV { e with b := b } e.first d 1 ++ regV { e with b := b } e.first d 0
        warp := some e.w, threads := ts.map fun t => (t, b.thread t)
        homes := (dedup (ts.map fun t => t / 32)).map fun h => (h, b.home (32 * h))
        seq := none, undo := [], stores := [] }] } } (.svcp c d a n) []) ∧
    SeqIf s (.svcp c d a n) c (fun e => callableS e ∧ ¬toKernel e.b) (fun e =>
      let x := callS e true d a n
      let w : SvcWait := ⟨x.aid, e.s.nextId, x.svcn, x.d, x.pc, none⟩
      let p : Spec := {
        aid := e.q.aid, tag := e.s.nextId, pred := e.q.get (regS d), warp := none, threads := [], homes := []
        seq := some e.q, undo := [], stores := [] }
      let b : Block := { e.b with svc := e.b.svc ++ [w], spec := e.b.spec ++ [p] }
      ({ e with s := called e.s e.b x, b := b }).put e.q.advance) ∧
    (∀ i, i = .svc c d a n ∨ i = .svcp c d a n →
      WarpIf s i c (fun e => e.eff = []) (fun e => retire e.s e i) ∧
      WarpWaits s i c (fun e => e.eff ≠ [] ∧ e.b.svcAt e.w.aid e.w.pc = none ∧
        (e.s.agentSettled true .sys e.w.aid = false ∨ ¬room e.s e.b)) (fun _ => .other) ∧
      SeqWaits s i c (fun e => e.b.svcAt e.q.aid e.q.pc = none ∧
        (e.s.agentSettled true .sys e.q.aid = false ∨ ¬room e.s e.b)) (fun _ => .other)) ∧
    WarpDoes s (.tdmask c k d) c (fun e => retireNow e (.tdmask c k d)
      (e.eff.map fun l => (.v l.2 (Machine.regOf e.b l.2 d), e.s.tdmask e.b k))) ∧
    SeqDoes s (.tdmask c k d) c (fun e => e.put (e.q.advance.put (regS d) (BitVec.ofNat 64 (e.s.tdmask e.b k)))) ∧
    (∀ (t : State) (b : Block), t.tdmask b .touched = (t.ctx b.ctx).touched % 256 ∧
      (∀ j, (t.tdmask b .live).testBit j = (decide (j < 8) && t.seesLive b.die j)))

-- The steps of the ordering machine (R35, R36, R44, R47, R202, R204, R213, R215, R216, R222, R324, R328).

/-- R35, R204: DRAIN of a buffered store: into the block's own window, into the die's copy of a page written before, into the home
line's queue of its own die, or on its way to another die; with 32 requests queued it is refused and waits within its backoff. SERVE:
the oldest request of a line takes effect at its home, a store changing exactly its own bytes. COMMIT, TRANSIT, BASEOP, a refused
request's retry and the replica's write. R320: a request to a home on a lost die goes nowhere. -/
def Obligations.WritesReachMemory : Prop :=
  ∀ (s : State) (id : Nat) (a : Access), s.access id = some a →
    (s.canDrain id a = true →
      (∀ blk bytes, a.loc = some blk → a.kind = .store bytes →
        (∀ b, s.block blk = some b → exec (.drain id) s =
          .next ((s.setBlock { b with clm := putBytes b.clm (bytes.filter fun x => decide (x.1 < b.winSize)) }).performed id)) ∧
        (∀ w, s.block blk = none → aget blk s.om.gone = some w → exec (.drain id) s = .next (State.performed { s with om := { s.om with
          gone := aset blk { w with bytes := putBytes w.bytes (bytes.filter fun x => decide (x.1 < w.size)) } s.om.gone } } id))) ∧
      (∀ bytes, a.loc = none → a.kind = .store bytes → a.page = 1 → s.homeOf a ≠ a.die → exec (.drain id) s =
        .next ((s.swmWrite a.die a.ctx a.line a.va a.keyid a.repl bytes).performed id)) ∧
      (∀ bytes, a.loc = none → a.kind = .store bytes → a.page ≠ 1 ∨ s.homeOf a = a.die → s.homeLost a = true →
        ∃ t, exec (.drain id) s = .next t ∧ t.access id = none ∧ ∀ x, t.byte x = s.byte x) ∧
      (∀ bytes, a.loc = none → a.kind = .store bytes → a.page ≠ 1 → s.homeOf a ≠ a.die → s.homeLost a = false → exec (.drain id) s =
        .next (s.setAccess id { a with st := .transit (s.homeOf a), refusals := 0 })) ∧
      (∀ bytes, a.loc = none → a.kind = .store bytes → s.homeOf a = a.die → s.homeLost a = false → (s.homeLine a.line).resv = none →
        (∀ p ∈ s.om.accs, ¬(p.2.st = .issued ∧ p.2.page = 2 ∧ p.2.loc = none ∧ p.2.line = a.line)) →
        (∀ q ∈ s.om.baseq, ∀ n ∈ q.2, ∀ y, s.access n = some y → y.line ≠ a.line) →
        ((s.homeLine a.line).q.length < 32 → exec (.drain id) s =
          .next ((s.setHomeLine a.line ⟨(s.homeLine a.line).q ++ [id], none⟩).setAccess id { a with st := .queued })) ∧
        (32 ≤ (s.homeLine a.line).q.length →
          let most := min (64 * 2 ^ a.refusals) 4000
          ∃ t w, exec (.drain id) s = .next t ∧ most / 2 ≤ w ∧ w ≤ most ∧ t.access id = some { a with
            refusals := a.refusals + 1, firstRef := if a.refusals = 0 then s.now else a.firstRef, retryAt := s.now + w })) ∧
      exec (.drain id) s = .next (s.drainStep id a)) ∧
    (∀ bytes stamp, a.kind = .sts bytes stamp → a.st = .commitWait → stamp.toNat < s.earliest a.die → s.lineTurn id a = true →
      a.retryAt ≤ s.now → exec (.commit id) s = .next (s.sendHome id a)) ∧
    (s.canTransit id a = true → s.homeLost a = true →
      ∃ t, exec (.transit id) s = .next t ∧ t.access id = none ∧ ∀ x, t.byte x = s.byte x) ∧
    (s.canTransit id a = true → s.homeLost a = false → a.isBank = false → exec (.transit id) s = .next (s.enterHome id a)) ∧
    (s.canTransit id a = true → s.homeLost a = false → a.isBank = true → exec (.transit id) s = .next (({ s with om := { s.om with
      baseq := aset (stackOf (128 * a.line)) (agetD (stackOf (128 * a.line)) [] s.om.baseq ++ [id]) s.om.baseq } }).setAccess
        id { a with st := .baseq })) ∧
    (a.refusals ≠ 0 →
      (a.st = .buffer → exec (.requestRefusedRetry id) s = exec (.drain id) s) ∧
      (∀ h, a.st = .transit h → exec (.requestRefusedRetry id) s = exec (.transit id) s) ∧
      (a.st = .commitWait → exec (.requestRefusedRetry id) s = exec (.commit id) s)) ∧
    -- what the home does for a store, a stamped store and one lane of an atomic
    (∀ bytes, a.kind = .store bytes →
      s.homeWrite a = ((s.writeLine a.line a.keyid bytes).patchInb a.line a.keyid bytes, [], bytes)) ∧
    (∀ bytes stamp, a.kind = .sts bytes stamp → (s.homeWrite a).2 = ([], bytes) ∧
      agetD a.line 0 (s.homeWrite a).1.phys.stamps = stamp ∧
      (s.homeWrite a).1.phys.bytes = (s.writeLine a.line a.keyid bytes).phys.bytes) ∧
    (∀ op l, a.kind = .rmw op [l] →
      let old : Word32 := BitVec.ofNat 32 (leNat (s.readHome a.keyid l.a 4))
      ∃ cells, s.homeWrite a = ((s.writeLine (lineOf l.a) a.keyid (cellsFrom l.a (leBytes 4 (rmwNew op l old).toNat))).patchInb
        a.line a.keyid cells, (match l.ret with
          | some c => [(c, old.toNat)]
          | none => []), cells)) ∧
    (∀ line t, (s.homeLine line).q = id :: t → (s.homeLine line).resv = none → a.isWrite = true →
      let s1 := s.setHomeLine line ⟨t, none⟩
      let w := s1.homeWrite a
      ∃ s2, exec (.serve line) s = .next s2 ∧ s2 = ((w.1.deliver a.aid w.2.1).served id a w.2.2).afterAcquire a ∧
        (∀ l ∈ s2.om.leases, ¬(l.die = a.die ∧ l.line = a.line)) ∧ s2.phys.bytes = w.1.phys.bytes ∧
        (a.repl = false → s2.access id = none) ∧
        (a.repl = true → ∃ o, s2.access id = some { a with st := .replica o w.2.2 }) ∧
        ∀ bytes, a.kind = .store bytes → agetD a.line 0 s.phys.keys = s.phys.key a.line a.keyid →
          (∀ x, (∀ p ∈ bytes, p.1 ≠ x) → s2.byte x = s.byte x) ∧
          ((bytes.map Prod.fst).Nodup →
            (∀ d ∈ s.dies, d.glean.made = true → ∀ p ∈ bytes, p.1 < d.glean.ctl ∨ d.glean.ctl + 64 ≤ p.1) →
            ∀ p ∈ bytes, s2.byte p.1 = p.2)) ∧
    (∀ stack t, agetD stack [] s.om.baseq = id :: t → a.isWrite = true →
      let s1 : State := { s with om := { s.om with
        baseq := if t.isEmpty then adel stack s.om.baseq else aset stack t s.om.baseq } }
      exec (.baseop stack) s = .next ((s1.homeWrite a).1.homeDone id a (s1.homeWrite a).2.2)) ∧
    (∀ ord cells, a.st = .replica ord cells → s.replicaTurn a.line ord = true →
      let s1 := s.writeHome a.keyid (cells.map fun c => (c.1 ^^^ 2 ^ 39, c.2))
      let done (s2 : State) : Prop :=
        exec (.replicaWrite id) s = .next ((s2.touch a.ctx (s2.phys.homeDie ((128 * a.line) ^^^ 2 ^ 39))).performed id)
      ((∀ b x, a.kind ≠ .sts b x) → done s1) ∧
      (∀ b x, a.kind = .sts b x →
        done { s1 with phys := { s1.phys with stamps := aset (a.line ^^^ 2 ^ 32) x s1.phys.stamps } })) ∧
    (∀ (t : State) (k : Nat) (cells : List Host.Cell), (t.patchInb a.line k cells).phys.bytes = t.phys.bytes ∧
      (t.patchInb a.line k cells).om = t.om ∧ (t.patchInb a.line k cells).task = t.task)

/-- R35, R36, R39, R226: LOAD binds a load's bytes and gives its results; R202: a walk's end; R204: write-back, the end of a copy,
EXPIRE of a lease; R215, R216: a windrow line goes to its home and is combined there; R224: a waiting CWAIT ends; R328: an answer
commits a speculation, or takes it back: the agent then stands at its SVCP, and the reply that came is still to be taken there, as
SystemCalls says (D gets the true value). R261 to R264: where each byte of a copy goes, and one byte's move between windows; R280: which
element stands where in the striped form. -/
def Obligations.ReadsAndCopies : Prop :=
  (∀ (s : State),
    (∀ id a x n ds, s.access id = some a → a.kind = .load x n ds → s.canLoad id a = true →
      exec (.load id) s = .next ((((s.bind id a x n).1.deliver a.aid (destVals (s.bind id a x n).2 ds)).performed
        id).afterAcquire a)) ∧
    (∀ id a x n t tm ds st pr, s.access id = some a → a.kind = .ldas x n t tm ds st pr → s.canLoad id a = true →
      exec (.load id) s = .next (s.loadStep id a) ∧
      -- R226: the bytes at the home, the line's stamp (0 outside a stamped page), and whether the stamp is past T
      ∀ lo hi, st = [lo, hi] →
        let s1 := (if a.page = 2 then s.recall a.line else s).touch a.ctx ((if a.page = 2 then s.recall a.line else s).homeOf a)
        let stamp : Word64 := if a.page = 3 then agetD a.line 0 s1.phys.stamps else 0
        exec (.load id) s = .next ((s1.deliver a.aid (destVals (s1.readHome a.keyid x n) ds ++
          [(lo, stamp.toNat % 2 ^ 32), (hi, stamp.toNat / 2 ^ 32)] ++ match pr with
            | some c => [(c, if t.toNat < stamp.toNat then 1 else 0)]
            | none => [])).performed id)) ∧
    (∀ (bytes : List Byte) (t n off k : Nat), k ≤ 4 →
      destVals bytes [⟨.v t n, off, k, false⟩] = [(.v t n, leNat ((bytes.drop off).take k))]) ∧
    -- a load of the window reads the window, one that its own stores cover reads those
    (∀ id a x n blk b, a.loc = some blk → s.block blk = some b → s.ownStores id a = [] →
      s.bind id a x n = (s, bytesAt b.clm x n)) ∧
    (∀ id a x n, s.ownStores id a ≠ [] →
      s.bind id a x n = (s, (List.range n).map fun i => (ownByte (s.ownStores id a) (x + i)).getD 0)) ∧
    (∀ die line, ∃ t, exec (.expire die line) s = .next t ∧
      (∀ l, l ∈ t.om.leases ↔ l ∈ s.om.leases ∧ ¬(l.die = die ∧ l.line = line)) ∧ t = { s with om := { s.om with
        leases := t.om.leases } }) ∧
    (∀ (die : DieNo) slice line w, s.om.windrows.find? (fun w => w.die == die.val && w.slice == slice && w.line == line) = some w →
      exec (.windrowEvict die slice line) s = .next { s with om := { s.om with
        windrows := s.om.windrows.filter fun x => !(x.die == die.val && x.slice == slice && x.line == line)
        partials := s.om.partials ++ [⟨w.die, w.line, w.ctx, w.keyid, w.repl, w.data⟩] } }) ∧
    (∀ (die : DieNo) line p r, s.om.partials.find? (fun p => p.die == die.val && p.line == line) = some p →
      s.range line = some r → (s.die (s.phys.homeDie (128 * line))).st ≠ .lost → ∃ t, exec (.partialCombine die line) s = .next t ∧
        (∀ x, x / 128 ≠ line → t.byte x = s.byte x) ∧ t.om.partials.length + 1 = s.om.partials.length ∧
        (agetD line 0 s.phys.keys = s.phys.key line p.keyid →
          (∀ d ∈ s.dies, d.glean.made = true → d.glean.ctl + 64 ≤ 128 * line ∨ 128 * line + 128 ≤ d.glean.ctl) →
          t.phys.bytes = putBytes s.phys.bytes (cellsFrom (128 * line)
            (commCombine r (bytesAt s.phys.bytes (128 * line) 128) p.data)))) ∧
    (∀ (die : DieNo) line cp, s.swmCopy die.val line = some cp →
      exec (.writeback die line) s = .next (s.writeBack cp) ∧
      ((∀ p ∈ cp.bytes, p.2.2 = false) → exec (.swmCopyDrop die line) s = .next (s.dropSwm die.val line))) ∧
    (∀ (die : DieNo) ctx page w, (s.die die.val).walks.find? (fun w => w.ctx == ctx && w.page == page) = some w →
      (∀ h ∈ (s.die die.val).held, h.covers ctx (page * 2 ^ 16) = false) →
      let s1 := (s.modDie die.val fun x => { x with walks := x.walks.filter fun y => !(y.ctx == ctx && y.page == page) }).freeIx.2
      (∀ pte va size pa, s1.walkTables ctx (page * 2 ^ 16) = .ok pte va size pa →
        exec (.translationWalkEnd die ctx page) s = .next (s1.modDie die.val fun x =>
          { x with tlb := tlbAdd 16384 x.tlb ⟨ctx, va, size, pte, pa⟩ })) ∧
      (∀ aux, s1.walkTables ctx (page * 2 ^ 16) = .fail aux →
        exec (.translationWalkEnd die ctx page) s = .next (s1.modDie die.val fun x =>
          { x with fails := x.fails ++ w.who.map fun y => ⟨y, ctx, page, aux⟩ }))) ∧
    (∀ aid b w t stall kill, ({ s with actor := some aid } : State).issuer = some (.warp b w) → w.wait = .stamp t stall kill → b.hst = .run →
      s.stampPast b.die aid t = true → exec (.stampSurelyPast aid) s =
        .next (s.setBlock ((kill.foldl (fun bl x => bl.modThread x.1 fun th => th.kill x.2) b).setWarp { w with
          pc := w.pc + 12, clock := w.clock + stall, since := min 3 (w.since + 1), wait := .none, waive := false }))) ∧
    (∀ aid b q t stall kill, ({ s with actor := some aid } : State).issuer = some (.seq b q) → q.wait = .stamp t stall kill → b.hst = .run →
      s.stampPast b.die aid t = true → exec (.stampSurelyPast aid) s =
        .next (s.setBlock { b with seq := some { q with pc := q.pc + 12, wait := .none } })) ∧
    (∀ tag b x w v no, b ∈ s.task.blocks.map Prod.snd →
      (∀ y ∈ s.task.blocks.map Prod.snd, y = b ∨ ∀ z ∈ y.spec, z.tag ≠ tag) →
      b.spec.find? (fun z => z.tag == tag) = some x → b.svc.find? (fun z => z.tag == tag) = some w →
      w.reply = some (v, no) →
      (no = false → v = x.pred → exec (.speculationResolve tag) s = .next (s.specMatch b x w v)) ∧
      (no = true ∨ v ≠ x.pred → exec (.speculationResolve tag) s = .next (s.rollbackOne b.id x) ∧
        (s.block b.id = some b → ∃ b', (s.rollbackOne b.id x).block b.id = some b' ∧ b'.specOf x.aid = none ∧ w ∈ b'.svc ∧
          (∀ y, x.warp = some y → (∃ z ∈ b.warps, z.k = y.k) → { y with wait := .reply } ∈ b'.warps) ∧
          (∀ y z, x.seq = some y → b.seq = some z → ∃ q, b'.seq = some q ∧ q.pc = y.pc ∧ q.wait = .reply ∧
            ∀ n < z.s.length, (∃ u ∈ x.undo, u.1 = n) → x.warp = none → q.get n = y.get n))))) ∧
  -- R261, R263, R264: where each position of a copy's transfer order is read and written, from its ends
  (∀ n u : Nat, (CopyForm.lin n).map u = ((u : Int), (u : Int))) ∧
  (∀ (x y z i j k : Nat) (ssy ssz dsy dsz : Int), i < x → j < y →
    (CopyForm.strided x y z ssy ssz dsy dsz).map (i + x * j + x * y * k) =
      (i + j * ssy + k * ssz, i + j * dsy + k * dsz)) ∧
  (∀ (scat : Bool) (lg cnt laddr estr j i : Nat) (idx : List Nat), i < 2 ^ lg →
    let far : Int := (idx.getD j 0 * estr + i : Nat)
    let near : Int := (j * 2 ^ lg + i : Nat)
    (CopyForm.indexed scat lg cnt laddr estr (some idx)).map (j * 2 ^ lg + i) = if scat then (near, far) else (far, near)) ∧
  -- R262: one byte of a copy between windows
  (∀ (s : State) (e : Entry) (f : CopyForm) (bd od bs os u p q : Nat) (b b' : Block), e.early = [] → s.block bs = some b →
    s.block bd = some b' → (os : Int) + (f.map u).1 = p → (od : Int) + (f.map u).2 = q → p < b.winSize → q < b'.winSize →
    s.copyUnit e f (.loc bd od) (.loc bs os) [u] = .ok (s.setBlock { b' with clm := putByte b'.clm q (byteAt b.clm p) })) ∧
  -- R280, R285: which element of a K x N matrix stands at each place of its striped form
  (∀ K N k n : Nat, n < N →
    stripeSrc K N (k / 1024 * 1024 * N + n * 1024 + k % 1024) = if k < K then some (k * N + n) else none)

-- Events of engines, tasks, time and barriers (R16, R43, R96 to R105, R121, R222, R228, R246, R260).

/-- R43: an entry begins once the entries before it of its queue have completed, and its fences; COMPLETE gives SEQ and the status ring,
counts the stile's signal, frees a parked warp and writes no memory. R16, R17: a block whose parties have exited ends and its join is
made. R15, R98: the scan takes the highest hamper that can act; what a block starts with. R103: pre-emption stops teams of lower priority
only. R102: RAISE moves a group, resident, queued or yet to be dealt. R118, R119, R121: zeroed units count as free, and what waits for
units is decided again. R246, R110: MATRIX.OPFAULT ends the
team whatever its handler, and pushes a restartable one again. R260: HANDLE_GEN_RAISE revokes. R222: an accepted update narrows the
interval; holdover after 100 us. R228: an arrival is accepted, a release lands, a reset zeroes a barrier nobody waits on. The model's
choices among these: what update is accepted (log entry 69); the address of TRAPENTRY that a block keeps from its admission (37); a RAISE
whatever room the ring has (39); TAKEs decided at a retry event and admissions right after them (71); who waits on a barrier (33); a
RESUME record whose save area is gone (40). -/
def Obligations.EngineAndTaskEvents : Prop :=
  ∀ (s : State),
    -- BEGIN
    (∀ id e, s.entry id = some e → s.canBegin e = true →
      exec (.beginEntry id) s = .next (s.beginStep e) ∧ e.st = .queued ∧ e.result = none ∧ (∀ p ∈ e.pre, s.preDone p = true) ∧
      (∀ x ∈ s.om.entries, x.queue = e.queue → x.num ≤ e.num → x.id < e.id → e.isMat = false → (∀ y, e.queue ≠ .mat y) →
        x.result.isSome = true) ∧
      (∀ x ∈ s.om.entries, x.id ∈ e.preQ → x.result.isSome = true) ∧
      (∀ m, e.form = .mat m → s.beginStep e = (s.setEntry { e with st := .begun }).modBlock e.blk m.begin)) ∧
    -- COMPLETE
    (∀ id e, s.entry id = some e → e.result = none → e.st = .begun →
      exec (.completeEntry id) s = .next (s.completeStep e)) ∧
    (∀ id e c n, s.entry id = some e → e.result = none → e.st = .begun → e.verdict = some (c, n) → e.farEnd = false →
      s.writesDone e = true → (∃ f r d x, e.form = .copy f r d x) → exec (.completeEntry id) s = .next (s.finish e c n)) ∧
    (∀ e c n, let t := s.finish e c n
      t.phys = s.phys ∧ (∀ y, y ≠ e.queue → t.queue y = s.queue y) ∧
      ((match e.queue with
        | .cq y j => j < (s.core y).cq.length
        | .bq y j => j < (s.core y).bq.length
        | .nq _ _ => True
        | .mat _ => False) → t.queue e.queue = { s.queue e.queue with
          seq := (s.queue e.queue).seq + 1
          ring := (s.queue e.queue).ring.set (e.num % 16) (BitVec.ofNat 64 (n % 2 ^ 32 + c * 2 ^ 32)) }) ∧
      t.om.entries = s.om.entries.map (fun x => if x.id = e.id then { e with result := some (c, n) } else x) ∧
      (∀ k b, s.block k = some b → (∀ j x, s.block j = some x → x.id = j) → ∃ b', t.block k = some b' ∧ b'.stiles =
        if sigOn e.sig && !e.dropSig && k == e.sigBlk then b.stiles.modify (sigStile e.sig) fun x =>
          { x with cnt := min (x.cnt + 1) 65535, obs := x.obs ++ [e.id] }
        else b.stiles) ∧
      (∀ b w, s.block e.blk = some b → (∀ j x, s.block j = some x → x.id = j) → w ∈ b.warps → w.wait = .park e.id →
        (∀ x ∈ b.warps, x.wait = .park e.id → x = w) → ∃ b', t.block e.blk = some b' ∧
          ∀ x ∈ b'.warps, x.k = w.k → x.wait = .none ∧ x.pc = w.pc ∧ x.pend = [] ∧ x.byp = [])) ∧
    (∀ core z t, (s.core core).zero = z :: t →
      exec (.zeroingDone core) s = .next ((s.modCore core fun x => { x with zero := t }).retry core)) ∧
    (∀ id addr aux e m t, s.entry id = some e → e.form = .mat m → e.result = none → e.st = .begun →
      s.team e.team = some t → m.mayFail addr aux = true →
      (t.crec.restart = false ∨ 3 ≤ t.crec.retries → exec (.matrixOpfault id addr aux) s =
        .next (s.killTeam t.die t.id ⟨fMatrixOpfault, e.pc, addr, aux, e.issuer, 0⟩)) ∧
      (t.crec.restart = true → t.crec.retries < 3 → ∃ s1 : State, s1.om = (s.endTeam t.id).om ∧ s1.task = (s.endTeam t.id).task ∧
        exec (.matrixOpfault id addr aux) s = .next (s1.pushLater t.die
          ⟨t.id, { t.crec with retries := t.crec.retries + 1 }, t.addr, t.ctx, t.launch, t.group, 0, [], true, none⟩))) ∧
    (∀ (die : DieNo) ctx slot, (s.die die.val).st = .live → slot < (s.ctx ctx).hsize →
      exec (.handleGenRaise die ctx slot) s = .next (s.revoke ctx ((s.handleAt ctx slot).gen * 2 ^ 16 + slot))) ∧
    (∀ blk b, s.block blk = some b → b.hst = .run → (∀ q, b.seq = some q → q.exited = true) →
      (∀ t ∈ b.threads, t.live = false) → (∀ p ∈ s.matEntries blk, p.1.result.isSome = true) →
      let s1 := (s.keepWindow b).releaseBlock b
      let s2 : State := match b.exitJ with
        | some a => { s1 with task := { s1.task with joins := s1.task.joins ++ [⟨blk, b.die, b.ctx, s.prioOf b, a⟩] } }
        | none => s1
      let s3 := if s2.teamBlocks b.team = [] then (s2.delTeam b.team).forgetDealt b.team else s2
      exec (.blockEnd blk) s = .next (s3.endJoin blk)) ∧
    -- the scan
    (∀ die : DieNo, (s.die die.val).st = .live →
      let s1 := s.pushDue die.val
      ((s.die die.val).recovered = true → s1.slotFree die.val = true → exec (.hamperScan die) s =
        .next (((s1.redeal die.val).scanFrom die.val [15, 14, 13, 12, 11, 10, 9, 8, 7, 6, 5, 4, 3, 2, 1, 0]).pushDue die.val)) ∧
      ((s.die die.val).recovered = false ∨ s1.slotFree die.val = false → exec (.hamperScan die) s = .next s1)) ∧
    (∀ die p l, s.scanFrom die (p :: l) = if (s.tryHead die p).2 then (s.tryHead die p).1 else (s.tryHead die p).1.scanFrom die l) ∧
    (∀ die p, (s.die die).hampers.getD p [] = [] → s.tryHead die p = (s, false)) ∧
    (∀ die p q l, (s.die die).hampers.getD p [] = q :: l → q.crec.resume = true → s.saved? q.crec.code = none →
      s.tryHead die p = ((s.popHead die p).report die (.badRecord q.addr), true)) ∧
    -- R103, R105: a saved team comes back
    (∀ die p q l sv, (s.die die).hampers.getD p [] = q :: l → q.crec.resume = true → s.saved? q.crec.code = some sv → q.prod = [] →
      let fit := s.fit die sv.team.crec.kid (sv.blocks.any fun x => x.1.hdr.fuse) q.cluster
        (sv.blocks.map fun x => (x.1.nWarps, x.1.claim, x.1.hold))
      (∀ cl cores, fit = some (cl, cores) → s.tryHead die p = ((s.popHead die p).readmit q die cl cores sv, true)) ∧
      (fit = none → s.tryHead die p = (s.admWaits die q, false))) ∧
    -- R118, R119: what waits is decided again at a retry event, TAKEs first, then admissions in the same step
    (∀ core, let t := (s.core core).waiting.foldl State.retryTake s
      s.retry core = if (t.die (core / 96)).admWait = [] then t else t.modDie (core / 96) fun d => { d with admDue := true }) ∧
    (∀ die p q l, (s.die die).admDue = true → (s.die die).admWait = [q.id] → p < 16 → (s.die die).hampers.getD p [] = q :: l →
      (∀ j < 16, j ≠ p → ∀ y z, (s.die die).hampers.getD j [] = y :: z → y.id ≠ q.id) → (s.die die).st = .live →
      (s.die die).recovered = true → die < s.dies.length →
      let t := s.modDie die fun d => { d with admDue := false }
      t.slotFree die = true → s.admitDue die = (t.tryHead die p).1) ∧
    (∀ die p q h, s.fit die q.crec.kid h.fuse q.cluster h.asks = none → s.tryAdmit die p q h = (s.admWaits die q, false)) ∧
    (∀ die p q h cl cores s1 tl s2 image, s.fit die q.crec.kid h.fuse q.cluster h.asks = some (cl, cores) → q.prod = [] →
      s.taskPage die q.ctx .ld (q.crec.code + 24) = (s1, .ok tl) → s1.taskRead die q.ctx h.dataPtr h.dataSize = (s2, .ok image) →
      s.tryAdmit die p q h = ((s2.popHead die p).admitTeam q die cl cores h (tl.phys (q.crec.code + 24)) image, true)) ∧
    (∀ (q : QRec) (die core adm : Nat) (h : Header) (pa wf1 : Nat) (image : List Byte),
      let r := s.startBlock q die core adm h pa wf1 image
      let first := q.crec.workid + wf1 * 2 ^ h.f 0
      ∃ b, r.2.block r.1 = some b ∧ b.team = q.id ∧ b.ctx = q.ctx ∧ b.kid = q.crec.kid ∧ b.die = die ∧ b.core = core ∧
        b.workid = first ∧ b.hold = h.floor ∧ b.claim = h.claim ∧ b.bnd = h.regs ∧ b.hst = .run ∧ b.dq = [] ∧ b.stack = [] ∧
        b.clm = putBytes [] (cellsFrom 0 image) ∧ b.seq.isSome = h.seqv ∧ (∀ x, b.seq = some x → x.pc = h.seqEntry) ∧
        b.warps.length = h.warps ∧ (∀ w ∈ b.warps, w.pc = h.warpEntry) ∧
        (∀ n < 2 ^ h.f 0, b.thread n = freshThread h.warpv (first + n)) ∧ (∀ k, k ≠ r.1 → r.2.block k = s.block k)) ∧
    -- pre-emption
    (∀ die : DieNo, (s.die die.val).st = .live →
      ((∀ p ∈ s.task.teams, p.2.die = die.val → p.2.stop = false) →
        exec (.preempt die) s = .next (s.choosePreempt die.val)) ∧
      (∀ t, ((s.task.teams.map Prod.snd).filter fun t => t.die == die.val && t.stop).find? s.mayStash = some t →
        exec (.preempt die) s = .next (s.stashTeam t))) ∧
    (∀ die kid prio ask cl l, s.victims die kid prio ask cl = some l →
      ∀ t ∈ l, t.crec.prio < prio ∧ t.die = die ∧ t.cluster = cl ∧ t ∈ s.task.teams.map Prod.snd) ∧
    (∀ die, (∀ p < 16, (s.die die).hampers.getD p [] = []) → s.choosePreempt die = s) ∧
    -- RAISE
    (∀ (die : DieNo) ctx team prio t, (s.task.teams.map Prod.snd).find? (fun t => t.id == team && t.ctx == ctx && t.die == die.val) =
        some t → t.crec.prio < prio → prio < 16 →
      exec (.prioRaise die ctx team prio) s = .next (s.raiseGroup t.launch t.group prio)) ∧
    (∀ launch group prio, prio < 16 →
      let t := s.raiseGroup launch group prio
      (∀ p ∈ t.task.teams, p.2.launch = launch → p.2.group = group → prio ≤ p.2.crec.prio) ∧
      t.task.raised = s.task.raised ++ [(launch, group, prio)] ∧
      ∀ d ∈ t.dies, (∀ q, q ∈ d.pushq ∨ q ∈ d.dealt.map Prod.snd ∨ (∃ h ∈ d.hampers, q ∈ h) → q.launch = launch →
        q.group = group → q.crec.range = false → prio ≤ q.crec.prio)) ∧
    -- time
    (∀ (die : DieNo) lo hi, (s.die die.val).st = .live → die.val < s.dies.length → lo ≤ s.now → s.now ≤ hi →
      hi ≤ lo + (if Config.timeInput then 8 else 300) →
      ∃ t, exec (.timeUpdate die lo hi) s = .next t ∧ (t.die die.val).time.st = .disciplined ∧
        lo ≤ t.earliest die.val ∧ s.earliest die.val ≤ t.earliest die.val ∧
        ((s.die die.val).time.st ≠ .unset → s.latest die.val ≤ t.latest die.val) ∧
        ((s.die die.val).time.st = .unset → t.latest die.val = min hi (2 ^ 64 - 1)) ∧ t.phys = s.phys ∧ t.om = s.om) ∧
    (∀ die : DieNo, (s.die die.val).time.st = .disciplined → (s.die die.val).time.t0 + 100000 ≤ s.now →
      exec (.holdover die) s = .next ((s.modDie die.val fun x => { x with time := { x.time with st := .holdover } }).report
        die.val .holdover)) ∧
    -- package barriers
    (∀ id a bar dest, s.access id = some a → a.kind = .arrive bar dest → s.settledAt false .pkg id a = true →
      (∀ e ∈ s.earlier id a, e.isFence = false) →
      let x := s.barrier bar
      (x.cnt + 1 ≠ x.n → exec (.barrierArrivalAccept id) s = .next (((s.setBarrier bar { x with cnt := x.cnt + 1 }).deliver
        a.aid (dest.map fun c => (c, (x.rg + BitVec.ofNat 32 x.pend).toNat))).performed id)) ∧
      (x.cnt + 1 = x.n → x.pend < 255 → exec (.barrierArrivalAccept id) s = .next (((s.setBarrier bar { x with
        cnt := 0, pend := x.pend + 1, travel := x.travel ++ [s.now + 96] }).deliver
        a.aid (dest.map fun c => (c, (x.rg + BitVec.ofNat 32 x.pend).toNat))).performed id))) ∧
    (∀ bar t r, (s.barrier bar).travel = t :: r → t ≤ s.now →
      exec (.barrierRelease bar) s = .next (s.setBarrier bar { s.barrier bar with
        rg := (s.barrier bar).rg + 1, pend := (s.barrier bar).pend - 1, travel := r })) ∧
    (∀ bar, s.barrierWaited bar = false →
      exec (.barrierReset bar) s = .next (s.setBarrier bar { s.barrier bar with rg := 0, cnt := 0, pend := 0, travel := [] }))

-- The network (R290 to R300).

/-- R289, R292, R293: a packet that leaves carries its length, its target counter, its number of packets, its path and its bytes. R294,
R295: an unacknowledged packet is sent again, up to 16 times, then its message fails; an acknowledgement counts a packet, a refusal fails
the message. R295: a WRITE packet is placed under its key and its handle, or refused; a READ packet is answered by a packet of its own path
and seal, and its message counts when its packets are placed; a UUD message of which packets are missing after 1 ms counts as an error
once its placements have ended. That this time-out waits for placements on their way, and that the target counts a READ packet when the
initiator tells of the placement of its reply, are the model's choices (log entry 62). R335: a datagram for the Phidy port comes to no
ring. R291, R295: a message counts once, when its last packet is placed, and a refused one not at all. R296: a SEND is placed in the
connection's ring. R299: a frame is placed in the ring its flow names, or counted as a loss. R301: what is sealed under another key or
another security association than the table's is not placed. -/
def Obligations.NetworkEvents : Prop :=
  ∀ (s : State),
    (∀ e k p, let w := e.wire p.start
      (s.emitPkt e k p).pkg.out = s.pkg.out ++ [.packet e.id k w.op w.conn w.rh w.off p.len e.pkts.length e.target.1 e.target.2
        (s.nextPath e.die w.conn) ((s.netKey e.die (s.conn e.die w.conn).keyix).getD (0, 0)).1
        ((s.netKey e.die (s.conn e.die w.conn).keyix).getD (0, 0)).2 p.data] ∧
      (e.die < s.dies.length → agetD w.conn 0 ((s.emitPkt e k p).net e.die).rot = agetD w.conn 0 (s.net e.die).rot + 1)) ∧
    (∀ id k e p, s.entry id = some e → e.pkts[k]? = some p → e.result = none → e.st = .begun → e.isNet = true →
      e.verdict = none → p.sent = true → p.acked = false → (s.conn e.die (e.wire 0).conn).uud = false →
      (16 ≤ p.tx → exec (.retransmit id k) s =
        .next ((s.setEntry (e.setPkt k { p with lapsed := true })).failEntry id 5)) ∧
      (p.tx < 16 → e.mayCarry p = true → exec (.retransmit id k) s = .next (s.emitPkt e k p))) ∧
    (∀ id k e p, s.entry id = some e → e.pkts[k]? = some p → e.result = none → e.st = .begun → e.isNet = true →
      p.sent = true → p.acked = false →
      exec (.packetAck id k false) s = .next ((s.setEntry (e.setPkt k { p with refused := true })).failEntry id 5) ∧
      ((e.wire 0).op ≠ 2 → exec (.packetAck id k true) s = .next (s.ackPkt e k p))) ∧
    (∀ (die : DieNo) p, (s.die die.val).st = .live → p.reply = none →
      let c := s.conn die.val p.conn
      let sealed : Prop := s.netKey die.val c.keyix = some (p.key, p.sa)
      let refused : State := s.refusePkt die.val c.ctx p
      (c.valid = false → c.uud = false → exec (.packetReceive die p) s = .next refused) ∧
      (c.valid = true → ¬ sealed → exec (.packetReceive die p) s = .next s) ∧
      (c.valid = true → sealed → c.uud = false →
        (s.remoteEnd die.val p p.data.length true = none → exec (.packetReceive die p) s = .next refused) ∧
        (∀ va s1 pages, s.remoteEnd die.val p p.data.length true = some va →
          s.remotePages die.val c.ctx .st (.remoteXlate p.conn (p.roff + p.idx * p.psize)) (pagesOf va p.data.length) =
            (s1, .ok pages) →
          exec (.packetReceive die p) s = .next ((s1.noteArrival die.val c.ctx p).place die.val c.ctx pages p.data
            (.packet p.conn p.msg p.idx p.total p.tcnt p.tce c.ctx)))) ∧
      (∀ a, c.valid = true → c.uud = true → s.arrival die.val p.conn p.msg = some a →
        (a.done = true ∨ (a.got ≠ [] ∧ a.first + 1000000 < s.now)) → exec (.packetReceive die p) s = .next s)) ∧
    (∀ die va p (wr : Bool) n a, s.remoteEnd die p n wr = some va →
      let c := s.conn die p.conn
      let h := s.handleAt c.ctx (handleSlot p.rh)
      c.valid = true ∧ h.far = false ∧ s.handleLive c.ctx p.rh = true ∧ va = (h.base + (p.roff + p.idx * p.psize)) % 2 ^ 54 ∧
        (a < n → p.roff + p.idx * p.psize + a < h.len)) ∧
    (∀ (die : DieNo) p id, (s.die die.val).st = .live → p.reply = some id →
      exec (.packetReceive die p) s = .next (s.placeReply die.val p id)) ∧
    -- a placement ends when its bytes are performed; only then is its packet acknowledged
    (∀ die q, (s.net die).placing = [q] →
      ((∃ a ∈ s.om.accs, a.2.aid = q.aid) → s.placeSweepDie die = s) ∧
      ((∀ a ∈ s.om.accs, a.2.aid ≠ q.aid) →
        let t := s.modNet die fun n => { n with placing := n.placing.filter fun y => y.aid != q.aid }
        s.placeSweepDie die = State.placed { t with om := { t.om with agents := adel q.aid t.om.agents } } die q)) ∧
    (∀ die aid id k conn msg, (s.placed die ⟨aid, .reply id k conn msg⟩).pkg.out = s.pkg.out ++ [.netAck die conn msg k] ∧
      ∀ e p, s.entry id = some e → e.pkts[k]? = some p → e.result = none →
        s.placed die ⟨aid, .reply id k conn msg⟩ = (s.emit (.netAck die conn msg k)).ackPkt e k p) ∧
    (∀ (die : DieNo) p len, (s.die die.val).st = .live →
      let c := s.conn die.val p.conn
      c.valid = true → s.netKey die.val c.keyix = some (p.key, p.sa) →
      (p.reply.isSome = true → exec (.readPacketReceive die p len) s = .next (s.notePacket die.val p.conn p.msg p.idx)) ∧
      (p.reply = none → s.remoteEnd die.val p len false = none →
        exec (.readPacketReceive die p len) s = .next (s.refusePkt die.val c.ctx p)) ∧
      (∀ va s1 pages, p.reply = none → s.remoteEnd die.val p len false = some va →
        s.remotePages die.val c.ctx .ld (.remoteXlate p.conn (p.roff + p.idx * p.psize)) (pagesOf va len) = (s1, .ok pages) →
        let r := s1.readRemote c.ctx pages
        let key := (r.1.netKey die.val c.keyix).getD (0, 0)
        exec (.readPacketReceive die p len) s = .next (((r.1.noteArrival die.val c.ctx p).emit
          (.netReply die.val p.conn p.msg p.idx (r.1.nextPath die.val p.conn) key.1 key.2 r.2)).turnPath die.val p.conn))) ∧
    -- a message counts once
    (∀ die conn msg idx a, s.arrival die conn msg = some a → die < s.dies.length →
      a.conn = conn → a.msg = msg →
      let t := s.notePacket die conn msg idx
      let full : Prop := a.total ≤ (if idx ∈ a.got then a.got.length else a.got.length + 1) ∧ a.done = false ∧
        s.overdue die a = false
      (t.counter a.ctx die a.tcnt).err = (s.counter a.ctx die a.tcnt).err ∧
      (full → a.tce = true → a.refused = false →
        (t.counter a.ctx die a.tcnt).done = (s.counter a.ctx die a.tcnt).done + 1) ∧
      (¬ full ∨ a.tce = false ∨ a.refused = true → t.counter a.ctx die a.tcnt = s.counter a.ctx die a.tcnt) ∧
      ∃ a', t.arrival die conn msg = some a' ∧ idx ∈ a'.got ∧ (a'.done = true ↔ a.done = true ∨ full)) ∧
    (∀ (die : DieNo) conn msg a, s.arrival die.val conn msg = some a → a.done = false → s.overdue die.val a = true →
      (∀ q ∈ (s.net die.val).placing, ∀ i n c tce x, q.kind ≠ .packet conn msg i n c tce x) →
      let s1 := s.setArrival die.val { a with done := true }
      exec (.uudPlacementTimeout die conn msg) s = .next (if a.tce && !a.refused then s1.count a.ctx die.val a.tcnt false
        else s1)) ∧
    (∀ (die : DieNo) conn msg q i n c tce x, q ∈ (s.net die.val).placing → q.kind = .packet conn msg i n c tce x →
      exec (.uudPlacementTimeout die conn msg) s = .next s) ∧
    (∀ (die : DieNo) p, (s.die die.val).st = .live →
      let c := s.conn die.val p.conn
      let r := s.ring die.val c.rxring
      let sealed : Prop := s.netKey die.val c.keyix = some (p.key, p.sa)
      let refuse (t : State) : State := t.emit (.netRefuse die.val p.conn p.msg p.idx)
      (c.valid = false ∨ c.rxv = false ∨ r.valid = false → exec (.sendReceive die p) s = .next (refuse s)) ∧
      (c.valid = true → c.rxv = true → r.valid = true →
        (r.slot - 32 < p.data.length → exec (.sendReceive die p) s =
          .next (refuse (s.setRing die.val c.rxring { r with frame := r.frame + 1 }))) ∧
        (p.data.length ≤ r.slot - 32 → ¬ sealed → exec (.sendReceive die p) s =
          .next (s.setRing die.val c.rxring { r with key := r.key + 1 })) ∧
        (p.data.length ≤ r.slot - 32 → sealed →
          (c.uud = true ∨ (p.conn, p.seq) ∉ (s.net die.val).sendWin) → exec (.sendReceive die p) s =
            .next (s.placeFrame die.val c.rxring 0xFFFF p.data (some (p.conn, p.msg, p.idx, p.seq)))))) ∧
    (∀ (die : DieNo) f, (s.die die.val).st = .live →
      (f.parses = false → exec (.frameReceive die f) s =
        .next (s.defaultLoss die.val f.port fun r => { r with frame := r.frame + 1 })) ∧
      (f.parses = true → f.udp = some (Config.spdmPort die.val) → exec (.frameReceive die f) s = .next s) ∧
      (f.parses = true → f.udp ≠ some (Config.spdmPort die.val) →
        let fl := (s.net die.val).flows
        let hit := (fl.zip (List.range fl.length)).find? fun x =>
          x.1.port == f.port && x.1.hdr == f.hdr && (s.ring die.val x.1.ring).valid
        (hit = none → exec (.frameReceive die f) s =
          .next (s.defaultLoss die.val f.port fun r => { r with nomat := r.nomat + 1 })) ∧
        (∀ x ix, hit = some (x, ix) →
          let r := s.ring die.val x.ring
          let sealed : Prop := s.netKey die.val x.keyix = some (f.key, f.sa)
          (f.good = true → f.data.length ≤ r.slot - 32 → sealed →
            exec (.frameReceive die f) s = .next (s.placeFrame die.val x.ring ix f.data none)) ∧
          (f.good = true → f.data.length ≤ r.slot - 32 → ¬ sealed →
            exec (.frameReceive die f) s = .next (s.setRing die.val x.ring { r with key := r.key + 1 })) ∧
          (f.good = false ∨ r.slot - 32 < f.data.length →
            exec (.frameReceive die f) s = .next (s.setRing die.val x.ring { r with frame := r.frame + 1 }))))) ∧
    (∀ die r flow data ack, s.ringBusy die r = false → (s.ring die r).isFull = true → (s.ring die r).dropOld = false →
      s.placeFrame die r flow data ack = s.setRing die r { s.ring die r with full := (s.ring die r).full + 1 })

-- The message channel (R309 to R315, R318 to R325).

/-- R310: a live die delivers the message after the last it delivered: its port writes the 64 bytes of R309 into the delivery ring and
DHEAD counts them; a full ring stalls it. R312: a command is accepted or rejected once; an accepted one acts on the package at its first
delivery, acts on the die's controls, and is journaled; a rejected one writes REJ at its sender alone. R311: ELECT and HANDOVER name
the owner. R318, R319: INV holds new translations, its sender counts answers, COMMIT lets them go. R320, R321, R323: what a DIEDOWN, a
FENCED and a DIEUP do at a die. The model's choices: a command is judged at its first delivery, those before it in SEQ order first (log
entry 44); COMMDECL follows the memory the pages map when it is judged, the same for every die (log entry 73); how much of a full
delivery ring software has consumed is a free value (log entry 76); REGION and REHOME hold translations, REHOME every address of every
context (log entry 47). -/
def Obligations.ChannelEvents : Prop :=
  (∀ m : Msg, m.image.length = 64 ∧ leNat (m.image.take 8) = m.seq % 2 ^ 64 ∧
    leNat ((m.image.drop 8).take 8) = msgType m.body + m.sender % 8 * 256 + (if m.hw then 2048 else 0) ∧
    (∀ init gen, m.body = .ack init gen → ∃ x y, leNat ((m.image.drop 16).take 8) = init % 8 + x * 2 ^ 3 + gen % 2 ^ 32 * 2 ^ 16 +
      y * 2 ^ 48 ∧ x < 2 ^ 13) ∧
    (∀ ctx gen va pages, m.body = .inv ctx gen va pages ∨ m.body = .commit ctx gen va pages →
      ∃ x y z w, leNat ((m.image.drop 16).take 8) = ctx % 2 ^ 16 + gen % 2 ^ 32 * 2 ^ 16 + x * 2 ^ 48 ∧
        leNat ((m.image.drop 24).take 8) = y + va / 2 ^ 16 % 2 ^ 38 * 2 ^ 16 + z * 2 ^ 54 ∧ y < 2 ^ 16 ∧
        leNat ((m.image.drop 32).take 8) = pages % 2 ^ 32 + w * 2 ^ 32)) ∧
  ∀ (s : State) (die : DieNo) (m : Msg), (s.die die.val).st = .live → s.nextMsg die.val = some m →
    let d0 := s.die die.val
    (d0.dlvCap ≤ (s.unread die.val).2.length → exec (.deliver die) s = .next (s.unread die.val).1) ∧
    (d0.delivery.length < d0.dlvCap →
    let adv (t : State) (x : Msg) : State :=
      (t.writeHome 0 (cellsFrom (d0.dlvBase + 64 * (d0.dtail % d0.dlvCap)) x.image)).modDie die.val fun d => { d with
        delivered := x.seq, delivery := d0.delivery ++ [x], dtail := d.dtail + 1, port := { d.port with dhead := d.port.dhead + 1 } }
    let s0 := s.judgeBefore m.seq
    let a := adv s0 m
    let stays (i : Instr) : Prop := exec i s = .next s
    (m.body = .elect → exec (.elect die) s = .next (a.modDie die.val fun d =>
      { d with owner := if d.owner.isNone then some m.sender else d.owner })) ∧
    (m.body ≠ .elect → stays (.elect die)) ∧
    (∀ ty v, m.body = .other ty v → exec (.deliver die) s = .next a) ∧
    (∀ ctx gen va pages, m.body = .inv ctx gen va pages →
      (m.sender ≠ die.val → exec (.inv die) s = .next (a.holdRange die.val m.seq m.sender ctx va (pages * 65536) gen)) ∧
      (m.sender = die.val → exec (.inv die) s =
        .next ((a.holdRange die.val m.seq m.sender ctx va (pages * 65536) gen).modDie die.val fun d =>
          { d with shoots := d.shoots ++ [⟨gen, s.now, (List.range 8).filter fun x => lifeAt s0.pkg.msgs m.seq x == some true, []⟩] })) ∧
      stays (.commitMsg die) ∧ stays (.diedown die)) ∧
    (∀ ctx gen va pages, m.body = .commit ctx gen va pages →
      exec (.commitMsg die) s = .next (a.modDie die.val fun d => { d with
        held := d.held.filter fun h => !(h.init == m.sender && h.gen == gen)
        shoots := if m.sender = die.val then d.shoots.filter fun k => k.gen != gen else d.shoots }) ∧ stays (.inv die)) ∧
    (∀ init gen, m.body = .ack init gen → exec (.deliver die) s =
      .next (
        let add (k : ShootDown) : ShootDown :=
          if k.gen = gen ∧ m.sender ∉ k.acked then { k with acked := k.acked ++ [m.sender] } else k
        if init = die.val then a.modDie die.val fun d => { d with shoots := d.shoots.map add } else a)) ∧
    (∀ d, (m.body = .diedown d ∨ m.body = .fenced d) →
      exec (.deliver die) s = .next (if d = die.val ∨ lifeAt s0.pkg.msgs (m.seq - 1) d ≠ some true then a
        else a.noteLoss die.val d) ∧
      let t := a.noteLoss die.val d
      (t.die die.val).owner ≠ some d ∧ (∀ k ∈ (t.die die.val).shoots, d ∈ k.acked) ∧
      ∀ x ∈ t.task.ctxs, (x.2.place.getD die.val 0).testBit d = false) ∧
    (∀ d, m.body = .diedown d → exec (.diedown die) s = exec (.deliver die) s) ∧
    (∀ d, m.body = .dieup d → exec (.deliver die) s = .next (a.sendJournal die.val d m.seq)) ∧
    ((∀ x ∈ s.pkg.msgs, x.seq < m.seq → x.verdict.isSome = true ∨ ∀ c, x.body ≠ .cmd c) → s0 = s) ∧
    (∀ c, m.body = .cmd c →
      let ok := m.verdict.getD (s0.cmdOk m c)
      let pages : List Nat := match c with
        | .commdecl ctx va len _ _ => (pagesFrom va ((len + 65535) / 65536)).filterMap fun a => s0.pagePhys ctx a
        | _ => []
      let m' : Msg := if m.verdict.isSome then m else { m with verdict := some ok, pas := if ok then pages else [] }
      let s2 : State := { s0 with pkg := { s0.pkg with msgs := s0.pkg.msgs.map fun x => if x.seq = m.seq then m' else x } }
      let s1 : State := if m.verdict.isSome then s0 else
        if ok then (match c with
          | .barset bar _ n => s2.setBarrier bar { s2.barrier bar with n := n }
          | _ => s2) else s2
      let a' := adv s1 m'
      let rejected : State := if m.sender = die.val then a'.modDie die.val fun d => { d with port := { d.port with rej := m.seq } }
        else a'
      let does (i : Instr) (t : State) : Prop :=
        exec i s = .next (if ok then t.journal die.val m' else rejected) ∧ exec (.deliver die) s = exec i s
      let here (core : Nat) (t : State) : State := if core / 96 = die.val then t else a'
      (∀ core kid slots lim, c = .quota core kid slots lim → does (.cmdQuota die) (here core
        ((a'.modCore core fun x => { x with quotas := aset kid ⟨slots, lim⟩ x.quotas }).retry core))) ∧
      (∀ cl on, c = .fuse cl on → does (.cmdFuse die) (if cl / 12 = die.val then a'.modDie die.val fun d =>
        { d with clusters := d.clusters.modify (cl % 12) fun x => { x with fused := on } } else a')) ∧
      (∀ ctx mask, c = .place ctx mask → does (.cmdPlace die) (a'.modCtx ctx fun x => { x with place := x.place.set die.val mask })) ∧
      (∀ ctx va n h, c = .map ctx va n h → does (.cmdMap die) a') ∧
      (∀ ctx va n, c = .unmap ctx va n → does (.cmdUnmap die) a') ∧
      (∀ ctx va n k, c = .region ctx va n k → does (.cmdRegion die) (a'.holdRange die.val m.seq 8 ctx va (n * 65536) 0)) ∧
      (∀ ctx va len op f, c = .commdecl ctx va len op f →
        does (.cmdCommdecl die) (a'.declareComm die.val ctx m'.pas op f) ∧
        (die.val < s.dies.length → (∀ pa ∈ m'.pas, ⟨ctx, pa, 65536, op, f⟩ ∈ ((a'.declareComm die.val ctx m'.pas op f).die die.val).comm) ∧
          ∀ r ∈ ((a'.declareComm die.val ctx m'.pas op f).die die.val).comm, r.base ∉ m'.pas → r ∈ (a'.die die.val).comm) ∧
        (m.verdict = none → ok = true → ∀ i pa, i * 65536 < len → s0.pagePhys ctx (va + i * 65536) = some pa → pa ∈ m'.pas)) ∧
      (∀ d ix, c = .keyload d ix →
        (∀ k, d = die.val → aget ix (a'.die die.val).portKeys = some k → does (.cmdKeyload die) (a'.modDie die.val fun x =>
          { x with net := { x.net with keys := aset ix k x.net.keys }, portKeys := adel ix x.portKeys })) ∧
        (d ≠ die.val ∨ aget ix (a'.die die.val).portKeys = none → does (.cmdKeyload die) a')) ∧
      (∀ bar ctx n, c = .barset bar ctx n → does (.cmdBarset die) (a'.modDie die.val fun d =>
        { d with bars := aset bar ctx d.bars })) ∧
      (∀ core, c = .coreoff core → does (.cmdCoreoff die) (here core (a'.modCore core fun x => { x with enabled := false }))) ∧
      (∀ core, c = .coreon core → does (.cmdCoreon die) (here core (a'.modCore core fun x => { x with enabled := true }))) ∧
      (∀ d, c = .rehome d → does (.cmdRehome die) (a'.holdRange die.val m.seq 8 0xFFFF 0 18014398509481984 0)) ∧
      (∀ d, c = .handover d → exec (.cmdHandover die) s =
        .next (if ok then (a'.journal die.val m').modDie die.val fun x => { x with owner := some d } else rejected)) ∧
      (∀ v, c = .checkpoint v → exec (.cmdCheckpoint die) s =
        .next (if ok then (if ((a'.journal die.val m').die die.val).recovered then a'.journal die.val m'
            else (a'.journal die.val m').recover die.val)
          else rejected))))

/-- R311, R312, R214: what makes a command acceptable at its position: the sender that must own the package, live targets, sums of
quotas within the totals of R112 and eight block slots, no block in a cluster that changes, no quota and no block on a core that goes
off, the pairs of a declaration, the range of a barrier's count. R48: appending numbers a message. R319: a die answers an INV once
every access already translated is performed at PKG. R320: a die that has not answered for 50 us is cut off, and a FENCED says so.
A COMMIT follows once all have answered. R315: a lost die that is not fenced comes back with a DIEUP, its rings where the monitor puts
them, and is not yet recovered. That an INV which software appends takes its kernel's next GEN, of one numbering with UNMAP's, is the
model's choice (log entry 44). -/
def Obligations.CommandChecks : Prop :=
  (∀ q : Assoc Quota, quotasOk q = true ↔ (q.map fun p => p.2.slots).sum ≤ 8 ∧ (q.map fun p => p.2.lim.reg).sum ≤ 128 ∧
    (q.map fun p => p.2.lim.clm).sum ≤ 128 ∧ (q.map fun p => p.2.lim.acc).sum ≤ 64 ∧ (q.map fun p => p.2.lim.mslot).sum ≤ 8 ∧
    (q.map fun p => p.2.lim.stile).sum ≤ 64) ∧
  ∀ (s : State) (m : Msg) (die : DieNo),
    let own : Prop := ownerAt s.pkg.msgs (m.seq - 1) = some m.sender
    let live (d : Nat) : Option Bool := lifeAt s.pkg.msgs (m.seq - 1) d
    (∀ core kid slots lim, s.cmdOk m (.quota core kid slots lim) = true ↔ m.hw = false ∧ own ∧ core < 768 ∧
      quotasOk (aset kid ⟨slots, lim⟩ (quotasAt s.pkg.msgs (m.seq - 1) core)) = true) ∧
    (∀ cl on, s.cmdOk m (.fuse cl on) = true ↔ m.hw = false ∧ own ∧ cl < 96 ∧
      ∀ p ∈ s.task.blocks, ¬(p.2.die = cl / 12 ∧ p.2.cluster = cl % 12)) ∧
    (∀ core, s.cmdOk m (.coreoff core) = true ↔ m.hw = false ∧ own ∧ core < 768 ∧
      (∀ p ∈ quotasAt s.pkg.msgs (m.seq - 1) core, p.2.slots = 0) ∧ s.coreBlocks core = []) ∧
    (∀ d, s.cmdOk m (.handover d) = true ↔ m.hw = false ∧ own ∧ live d = some true) ∧
    (∀ d, s.cmdOk m (.rehome d) = true ↔ m.hw = false ∧ own ∧ live d = some false) ∧
    (∀ ctx mask, s.cmdOk m (.place ctx mask) = true ↔ m.hw = false ∧ own ∧ mask < 256) ∧
    (∀ core, s.cmdOk m (.coreon core) = true ↔ m.hw = false ∧ own ∧ core < 768) ∧
    (∀ ctx va n k, s.cmdOk m (.region ctx va n k) = true ↔ m.hw = false ∧ own) ∧
    (∀ v, s.cmdOk m (.checkpoint v) = true ↔ m.hw = false ∧ own) ∧
    (∀ ctx va n h, s.cmdOk m (.map ctx va n h) = !m.hw ∧ s.cmdOk m (.unmap ctx va n) = !m.hw) ∧
    (∀ d ix, s.cmdOk m (.keyload d ix) = true ↔ m.hw = false ∧ m.sender = d ∧ ix < 4096) ∧
    (∀ ctx va len op f, s.cmdOk m (.commdecl ctx va len op f) = true ↔ m.hw = false ∧ own ∧ (f = .bf16 → op = .add)) ∧
    (∀ bar ctx n, s.cmdOk m (.barset bar ctx n) = true ↔
      m.hw = false ∧ own ∧ bar < 64 ∧ 1 ≤ n ∧ n ≤ 4096 ∧ s.barrierWaited bar = false) ∧
    ((s.die die.val).st = .live →
      (∀ body, (body = .elect ∨ (∃ c, body = .cmd c) ∨ ∃ ty v, body = .other ty v) → exec (.append die false body) s =
        .next { s with pkg := { s.pkg with
          msgs := s.pkg.msgs ++ [⟨s.pkg.nextSeq, die.val, false, body, none, []⟩], nextSeq := s.pkg.nextSeq + 1 } }) ∧
      (∀ init gen h, init < 8 → (s.die die.val).held.find? (fun h => h.init == init && h.gen == gen && !h.acked) = some h →
        let s1 := s.cleanHeld die.val h
        (s1.heldDrained die.val h = false → exec (.ack die init gen) s = .next s1) ∧
        (s1.heldDrained die.val h = true → exec (.ack die init gen) s =
          .next (
            let mark (x : HeldRange) : HeldRange :=
              if x.init = init ∧ x.gen = gen then { x with acked := true, kept := [] } else x
            (s1.modDie die.val fun d => { d with held := d.held.map mark }).append die.val true (.ack init gen)))) ∧
      (∀ init gen, 8 ≤ init → exec (.ack die init gen) s = .next s) ∧
      (∀ ctx gen va n, exec (.append die false (.inv ctx gen va n)) s = .next (if 1 ≤ n ∧ gen = (s.die die.val).nextGen then
        { s.modDie die.val fun d => { d with nextGen := d.nextGen + 1 } with pkg := { s.pkg with
          msgs := s.pkg.msgs ++ [⟨s.pkg.nextSeq, die.val, false, .inv ctx gen va n, none, []⟩], nextSeq := s.pkg.nextSeq + 1 } }
        else s)) ∧
      (∀ ctx gen va n, exec (.append die false (.commit ctx gen va n)) s =
        .next (if ∃ k ∈ (s.die die.val).shoots, k.gen = gen ∧ k.complete = true then
          s.settleStamps.append die.val false (.commit ctx gen va n) else s)) ∧
      (∀ h, s.heldDrained die.val h = true →
        (∀ p ∈ s.om.accs, p.2.die = die.val → p.2.loc = none → (h.ctx = 0xFFFF ∨ h.ctx = p.2.ctx) →
          h.va ≤ p.2.va % 2 ^ 54 → p.2.va % 2 ^ 54 < h.va + h.len → s.perfAt true .pkg p.2 = true) ∧
        ∀ b ∈ s.task.blocks, b.2.die = die.val → ∀ x ∈ b.2.spec, ∀ a ∈ x.stores, h.touches die.val a = false) ∧
      (∀ t k, k ∈ (s.die die.val).shoots → k.since + 50000 ≤ s.now → t ∈ k.live → t ∉ k.acked → t ≠ die.val → t < 8 →
        (s.die t).st = .live →
        ∃ s1, exec (.fenced die t) s = .next s1 ∧ (s1.die t).st = .lost ∧ (s1.die t).fenced = true ∧
          (∀ b ∈ s1.task.blocks, b.2.die ≠ t) ∧ (∀ a ∈ s1.om.accs, a.2.die ≠ t) ∧
          s1.pkg.msgs = s.pkg.msgs ++ [⟨s.pkg.nextSeq, die.val, true, .fenced t, none, []⟩])) ∧
    (∀ p : Places, s.pkg.powered = true → (s.die die.val).st = .lost → (s.die die.val).fenced = false →
      ∃ t, exec (.dieup ⟨die, p⟩) s = .next t ∧
        t.pkg.msgs = s.pkg.msgs ++ [⟨s.pkg.nextSeq, die.val, true, .dieup die.val, none, []⟩] ∧
        (die.val < s.dies.length → (t.die die.val).st = .live ∧ (t.die die.val).delivered = s.pkg.nextSeq ∧
          (t.die die.val).recovered = false ∧ (t.die die.val).dlvBase = p.dlvBase ∧ (t.die die.val).dlvCap = p.dlvCap ∧
          (t.die die.val).svcBase = p.svcBase ∧ (t.die die.val).jBase = p.jBase))

-- Services of the die kernel, HALT, the window and the registers (R308, R316, R317, R328, R329, R344).

/-- R308: a block whose handler passed it on resumes as TRET resumes it, or its team is killed and reported; one that came to the die
kernel without a record is killed. R329: a MAP is refused and changes nothing but the reply, or writes a leaf for every page and answers 0
once its command is delivered; an UNMAP clears the leaves, raises an INV, then a COMMIT once every die has answered, and answers once
that is delivered. R308, R328: a reply is latched and its record leaves the ring; it reaches a call that waits and no other; service 0
and numbers from 3 on are answered DENIED. A page from 2^54 on has no table, a malformed table entry refuses a MAP, a far handle is refused,
and tables are made where there are none: the model's choices (log entry 47). R317: HALT, and what a window read answers while the cluster is not halted. R344: SENSE reads
as its fields, and ignores writes but a 1 to THROT, which stays set below 1,250 MHz. -/
def Obligations.KernelEvents : Prop :=
  ∀ (s : State),
    (∀ blk b, s.block blk = some b → b.hst = .kernel →
      let s1 := s.modDie b.die fun d => { d with ring := d.ring.filter fun r => b.fwd != some r.tag }
      exec (.svcForward blk false) s = .next (s1.killTeam b.die b.team b.trap) ∧
      (b.hdr.trapv = false ∨ b.fwd = none → exec (.svcForward blk true) s = .next (s1.killTeam b.die b.team b.trap)) ∧
      (b.hdr.trapv = true → b.fwd ≠ none → ∃ t, exec (.svcForward blk true) s = .next t ∧
        t.block b.id = some (resumeBlock b false) ∧ t.phys = s.phys ∧ t.pkg = s.pkg ∧ (t.die b.die).ring = (s1.die b.die).ring ∧
        ∀ l ∈ t.om.leases, l.die ≠ b.die)) ∧
    (∀ die : DieNo, let d := s.die die.val
      d.st = .live →
      (∀ tag seq r, d.jobs = .map tag seq :: r → seq ≤ d.delivered →
        exec (.svcMap die) s = .next ((s.dropJob die.val tag).reply die.val tag 0 false)) ∧
      (d.jobs = [] → ∀ r, d.ring.find? (fun r => r.svcn == 1) = some r →
        (s.mapPlan r = none → exec (.svcMap die) s = .next (s.reply die.val r.tag 0 true)) ∧
        (∀ l, s.mapPlan r = some l → s.mapWrite r.ctx l = none → exec (.svcMap die) s = .next (s.reply die.val r.tag 0 true)) ∧
        (∀ l s1, s.mapPlan r = some l → s.mapWrite r.ctx l = some s1 →
          exec (.svcMap die) s = .next (((s1.append die.val false (.cmd (.map r.ctx (r.arg 0) (r.arg 1) (r.arg 2 % 4294967296)))).takeRecord
            die.val r.tag).addJob die.val (.map r.tag s1.pkg.nextSeq)))) ∧
      (∀ tag ctx gen va pages seq r, d.jobs = .unmap tag ctx gen va pages (some seq) :: r → seq ≤ d.delivered →
        exec (.svcUnmap die) s = .next ((s.dropJob die.val tag).reply die.val tag 0 false)) ∧
      (∀ tag ctx gen va pages k, d.jobs = [.unmap tag ctx gen va pages none] → k ∈ d.shoots → k.gen = gen → k.complete = true →
        exec (.svcUnmap die) s = .next (((s.settleStamps.append die.val false (.commit ctx gen va pages)).dropJob die.val tag).addJob die.val
          (.unmap tag ctx gen va pages (some s.pkg.nextSeq)))) ∧
      (d.jobs = [] → ∀ r, d.ring.find? (fun r => r.svcn == 2) = some r →
        (s.unmapPlan r = none → exec (.svcUnmap die) s = .next (s.reply die.val r.tag 0 true)) ∧
        (∀ l, s.unmapPlan r = some l →
          let s1 := l.foldl (fun (s : State) x => s.putWord64 x.1 (x.2 &&& ~~~1#64)) s
          let s2 := s1.modDie die.val fun x => { x with nextGen := x.nextGen + 1 }
          let s3 := s2.append die.val false (.cmd (.unmap r.ctx (r.arg 0) (r.arg 1)))
          let s4 := s3.append die.val false (.inv r.ctx d.nextGen (r.arg 0) (r.arg 1))
          exec (.svcUnmap die) s = .next ((s4.takeRecord die.val r.tag).addJob die.val
            (.unmap r.tag r.ctx d.nextGen (r.arg 0) (r.arg 1) none)))) ∧
      (∀ tag v den, d.jobs = [] →
        let known (p : Block → Prop) : Prop := (∃ x ∈ s.task.blocks, p x.2) ∨ ∃ x ∈ s.task.saved, ∃ y ∈ x.2.blocks, p y.1
        let waits : Prop := known fun b => ∃ x ∈ b.svc, x.tag = tag
        let passes : Prop := known fun b => b.fwd = some tag
        let served : Prop := ∃ r ∈ d.ring, r.tag = tag ∧ (r.svcn = 1 ∨ r.svcn = 2)
        let other : Prop := ∃ r ∈ d.ring, r.tag = tag ∧ (r.svcn = 0 ∨ 3 ≤ r.svcn)
        (served ∨ passes ∨ (¬ waits ∧ ¬ other) → exec (.replyWrite die tag v den) s = .next s) ∧
        (¬ served → ¬ passes → other → exec (.replyWrite die tag v den) s = .next (s.reply die.val tag v true)) ∧
        (¬ served → ¬ passes → ¬ other → waits → exec (.replyWrite die tag v den) s = .next (s.reply die.val tag v den))) ∧
      (∀ tag v den, let t := s.reply die.val tag v den
        (die.val < s.dies.length → (t.die die.val).port.reply = v ∧ (t.die die.val).ring = d.ring.filter fun r => r.tag != tag) ∧
        ∀ id b, s.block id = some b → t.block id = some (if b.die = die.val then { b with svc := b.svc.map fun x =>
          if x.tag = tag ∧ x.reply = none then { x with reply := some (v, den) } else x } else b)) ∧
      (∀ cl, exec (.halt die cl true) s = .next ((s.modDie die.val fun d =>
        { d with clusters := d.clusters.modify cl fun c => { c with halt := true } }).haltSweep)) ∧
      (∀ cl, exec (.halt die cl false) s = .next ((s.modDie die.val fun d =>
        { d with clusters := d.clusters.modify cl fun c => { c with halt := false, halted := false } }).haltSweep)) ∧
      (∀ e cl o, e < 8 → cl < 12 → o < 16777216 →
        let a := 0x8010000000000 + 4294967296 * e + 16777216 * cl + o
        let on := ((s.die e).clusters.getD cl ⟨false, false, false⟩).halted
        (on = false → exec (.privilegedWindowRead die a) s = .next ((s.modDie die.val fun x =>
          { x with port := { x.port with winerr := true } }).emit (.winRead die.val 0xFFFFFFFFFFFFFFFF))) ∧
        (on = true → exec (.privilegedWindowRead die a) s = .next ((s.freeIx.2).emit (.winRead die.val (BitVec.ofNat 64
          (leNat ((List.range 8).map fun i => s.winByte (coreIx e (8 * cl + o / 2097152)) (o % 2097152 + i)))))))) ∧
      (∀ e < 8, let a := 0x8000000000000 + 4294967296 * e
        let x := (s.die e).sense
        exec (.privilegedWindowRead die a) s = .next (s.emit (.winRead die.val (BitVec.ofNat 64 (x.tj.toNat +
          x.fclk.toNat * 65536 + x.pmod.toNat * 4294967296 + (if x.throt then 17592186044416 else 0) +
          if x.hot then 35184372088832 else 0)))) ∧
        (∀ v : Word64, v.getLsbD 44 = true → exec (.registerWrite die a v) s = exec (.throtClear ⟨e % 8, by omega⟩) s) ∧
        ∀ v : Word64, v.getLsbD 44 = false → exec (.registerWrite die a v) s = .next s) ∧
      (∀ a v, (∀ e < 8, a ≠ 0x8000000000000 + 4294967296 * e) → exec (.registerWrite die a v) s = .next s)) ∧
    (∀ die : DieNo, exec (.throtClear die) s = .next (s.modDie die.val fun d =>
      { d with sense := { d.sense with throt := decide (d.sense.fclk.toNat < 1250) } })) ∧
    (∀ r, let h := s.handleAt r.ctx (handleSlot (r.arg 2))
      let range : Prop := r.arg 1 ≠ 0 ∧ r.arg 0 % 65536 = 0
      let from_ (i : Nat) (v : Word64) : Prop := ∃ pte va sz pa, s.walkTables r.ctx (h.base + i * 65536) = .ok pte va sz pa ∧
        pteFar pte = false ∧ v = BitVec.ofNat 64 (pa + (h.base + i * 65536 - va)) ||| (pte &&& ((0xFF#64 <<< 52) ||| 0x800#64)) |||
          0x2F#64
      (s.mapPlan r ≠ none ↔ range ∧ s.handleLive r.ctx (r.arg 2) = true ∧ h.far = false ∧ r.arg 1 * 65536 ≤ h.len ∧
        h.base % 65536 = 0 ∧ ∀ i < r.arg 1, s.leafOf r.ctx (r.arg 0 + i * 65536) = none ∧ ∃ v, from_ i v) ∧
      (∀ l, s.mapPlan r = some l → l.length = r.arg 1 ∧
        ∀ i < r.arg 1, ∃ v, l[i]? = some (r.arg 0 + i * 65536, v) ∧ from_ i v) ∧
      (range → (∀ a ∈ pagesFrom (r.arg 0) (r.arg 1), s.leafOf r.ctx a ≠ none) →
        s.unmapPlan r = some ((pagesFrom (r.arg 0) (r.arg 1)).filterMap fun a => s.leafOf r.ctx a)) ∧
      (¬ range ∨ (∃ a ∈ pagesFrom (r.arg 0) (r.arg 1), s.leafOf r.ctx a = none) → s.unmapPlan r = none)) ∧
    (∀ ctx x l, s.mapWrite ctx [] = some s ∧ s.mapWrite ctx (x :: l) = (s.mapWrite ctx [x]).bind fun t => t.mapWrite ctx l) ∧
    (∀ ctx va v, va < 2 ^ 54 →
      let e1 := s.pteAt ((s.ctx ctx).l1 + 8 * (va / 2 ^ 42 % 4096))
      let e2 := s.pteAt (pteAddr e1 + 8 * (va / 2 ^ 29 % 8192))
      (∀ a, s.slotOf ctx va = some a → s.mapWrite ctx [(va, v)] = some (s.putWord64 a v)) ∧
      -- a table on the way that is not there is made, empty
      (pteV e1 = true → pteMalformed 1 e1 = false → pteV e2 = false →
        let t := (s.ctx ctx).tabNext
        let s1 := (s.newTable ctx).2.putWord64 (pteAddr e1 + 8 * (va / 2 ^ 29 % 8192)) (BitVec.ofNat 64 t ||| 1#64)
        s.mapWrite ctx [(va, v)] = some (s1.putWord64 (t + 8 * (va / 2 ^ 16 % 8192)) v)) ∧
      (pteV e1 = false →
        let t := (s.ctx ctx).tabNext
        let s1 := (s.newTable ctx).2.putWord64 ((s.ctx ctx).l1 + 8 * (va / 2 ^ 42 % 4096)) (BitVec.ofNat 64 t ||| 1#64)
        let a2 := t + 8 * (va / 2 ^ 29 % 8192)
        pteV (s1.pteAt a2) = false →
        let t2 := (s1.ctx ctx).tabNext
        let s2 := (s1.newTable ctx).2.putWord64 a2 (BitVec.ofNat 64 t2 ||| 1#64)
        s.mapWrite ctx [(va, v)] = some (s2.putWord64 (t2 + 8 * (va / 2 ^ 16 % 8192)) v)))

-- Bring-up, trust and power (R205, R321, R333 to R344).

/-- R342, R344: one clock step of 25 MHz, at most one in a millisecond, down under a cause, up once a millisecond has passed without one.
R343: 115 degrees reset a die. R320, R338: a die that enters reset says so first and loses its memory. R333, R338: bring-up starts the
dies whose checks pass; resets of the package and of a die are answered; what is outside the package goes on. R334, R335: the responder's
answers and algorithms; sessions take the lowest free number, FINISH opens one, END_SESSION ends it. R336, R337: keys come in an open
session; confidential contexts; teardown. R205: inbound requests. R339, R340: a link trains to the highest common rate, an accepted
expander gets its window, and the loss of one. The model's choices: what a clock event does within a millisecond of another (log entry
49); POWER_GOOD acts only while every die is in reset, and CXL memory keeps its bytes over a package reset (log entry 50); the lowest
free session number (log entry 51); where the monitor puts its rings by default (log entry 75). -/
def Obligations.BootEvents : Prop :=
  ∀ (s : State),
    (∀ pmod tj, s.pkg.powered = true → s.pkg.throttleAt + 1000000 ≤ s.now →
      let cause : Prop := 3400 < pmod ∨ ∃ t ∈ tj, 1680 < t
      let noted : State := { s with pkg := { s.pkg with causeAt := s.now } }
      let clock (x : State) (f : Nat → Nat) : State := { x with
        pkg := { x.pkg with throttleAt := s.now }
        dies := (s.dies.zip (List.range 8)).map fun p =>
          { p.1 with sense := p.1.sense.after (f p.1.sense.fclk.toNat) pmod (tj.getD p.2 0) } }
      (cause → exec (.clockStepDown pmod tj) s = .next (clock noted fun f => max 625 (f - 25)) ∧
        exec (.clockStepUp pmod tj) s = .next noted) ∧
      (¬ cause → exec (.clockStepDown pmod tj) s = .next s ∧
        (s.pkg.causeAt + 1000000 ≤ s.now →
          exec (.clockStepUp pmod tj) s = .next (clock s fun f => min 1250 (f + 25))) ∧
        (s.now < s.pkg.causeAt + 1000000 → exec (.clockStepUp pmod tj) s = .next s))) ∧
    (∀ (x : Sense) f pmod tj, let y := x.after f pmod tj
      (f < 65536 → y.fclk.toNat = f) ∧ (tj < 65536 → y.tj.toNat = tj) ∧ (pmod < 4096 → y.pmod.toNat = pmod) ∧
      (y.throt = true ↔ x.throt = true ∨ f < 1250) ∧ (y.hot = true ↔ 1680 < tj)) ∧
    (∀ (die : DieNo) tj, s.pkg.powered = true →
      (1840 ≤ tj → exec (.overtempReset die tj) s =
        .next ({ s with pkg := { s.pkg with causeAt := s.now } }.enterReset die.val)) ∧
      (tj < 1840 → exec (.overtempReset die tj) s = .next s) ∧
      exec (.dieReset die) s = .next ((s.enterReset die.val).emit .resetAck)) ∧
    (∀ d, (s.die d).st ≠ .inReset → let t := s.enterReset d
      t.pkg.msgs = s.pkg.msgs ++ [⟨s.pkg.nextSeq, d, true, .diedown d, none, []⟩] ∧ (t.die d).st = .lost ∧
      (∀ b ∈ t.task.blocks, b.2.die ≠ d) ∧
      ∀ a, s.phys.region a = .hbm → s.phys.homeDie a = d → byteAt t.phys.bytes a = 0) ∧
    (∀ bad places, (∀ d ∈ s.dies, d.st = .inReset) → exec (.powerGood ⟨bad, places⟩) s = .next
      (((List.range 8).filter fun d => !bad.contains d).foldl (fun s d => s.startDie d true (places.getD d (defaultPlaces d)))
        { s with pkg := { s.pkg with powered := true } })) ∧
    (s.pkg.powered = true → exec .packageReset s = .next ((s.resetPackage true).emit .resetAck)) ∧
    exec .packageUnpowered s = .next (s.resetPackage false) ∧
    (∀ p, (s.resetPackage p).now = s.now ∧ (s.resetPackage p).dies = State.reset.dies ∧ (s.resetPackage p).task = State.reset.task ∧
      (s.resetPackage p).om = State.reset.om ∧ (s.resetPackage p).pkg.powered = p ∧
      ∀ a, 2 ^ 48 ≤ a → byteAt (s.resetPackage p).phys.bytes a = byteAt s.phys.bytes a) ∧
    (∀ (die : DieNo) (side : Bool), s.pkg.powered = true → (s.die die.val).measured = true →
      (side = true → die.val = 0 ∨ die.val = 4) →
      let d := s.die die.val
      let ok (i : Instr) (n : String) : Prop := exec i s = .next (s.emit (.spdmOk die.val n))
      let algos := ["Ed25519", "SHA-512", "secp384r1", "AES-256-GCM"]
      exec (.getVersion die side) s = .next (s.emit (.spdmVersion die.val "GET_VERSION" 1 3)) ∧ ok (.getCapabilities die side) "GET_CAPABILITIES" ∧
      exec (.negotiateAlgorithms die side) s = .next (s.emit (.spdmAlgos die.val "NEGOTIATE_ALGORITHMS" algos)) ∧
      ok (.getDigests die side) "GET_DIGESTS" ∧
      ok (.getCertificate die side) "GET_CERTIFICATE" ∧ ok (.challenge die side) "CHALLENGE" ∧
      (∃ t, exec (.getMeasurements die side) s = .next t ∧
        t.pkg.out = s.pkg.out ++ [1, 2, 3, 4, 5, 6, 7, 8, 9, 10, 11].map fun i => .spdmMeas die.val i (s.measurement die.val i)) ∧
      (∀ n, (aget n d.sessions = some false → exec (.finish die side n) s = .next ((s.modDie die.val fun d =>
          { d with sessions := aset n true d.sessions }).emit (.spdmOk die.val "FINISH"))) ∧
        (aget n d.sessions = some true → ok (.heartbeat die side n) "HEARTBEAT" ∧
          exec (.endSession die side n) s = .next ((s.modDie die.val fun d =>
            { d with sessions := adel n d.sessions }).emit (.spdmOk die.val "END_SESSION"))) ∧
        (aget n d.sessions = none → exec (.finish die side n) s = .next s ∧ exec (.heartbeat die side n) s = .next s ∧
          exec (.endSession die side n) s = .next s)) ∧
      (∀ n < 16, aget n d.sessions = none → (∀ k < n, aget k d.sessions ≠ none) →
        exec (.keyExchange die false) s = .next ((s.modDie die.val fun d => { d with sessions := aset n false d.sessions }).emit
          (.spdmAlgos die.val "KEY_EXCHANGE" algos))) ∧
      ((∀ n < 16, aget n d.sessions ≠ none) → exec (.keyExchange die false) s = .next (s.emit (.spdmBusy die.val))) ∧
      (side = true → exec (.keyExchange die side) s = .next (s.emit (.spdmUnsupported die.val))) ∧
      (∀ code, exec (.spdmUnsupported die side code) s = .next (s.emit (.spdmUnsupported die.val)))) ∧
    (∀ die : DieNo, s.pkg.powered = false → exec (.getVersion die true) s = .next (s.emit (.spdmBusy die.val))) ∧
    (∀ ty, exec (.mctpMessageDiscard ty) s = .next s) ∧
    (∀ (die : DieNo) n port ix key sa, let opened : Prop := (s.die die.val).st = .live ∧ aget n (s.die die.val).sessions = some true
      (¬ opened → exec (.memoryKeyLoad ⟨die, n⟩ ⟨port, ix, key, sa⟩) s = .next s) ∧
      (opened → port = true → 0 < ix → ix < 4096 → exec (.memoryKeyLoad ⟨die, n⟩ ⟨port, ix, key, sa⟩) s =
        .next (s.modDie die.val fun d => { d with portKeys := aset ix (key, sa) d.portKeys })) ∧
      (opened → port = false → 0 < ix → ix < 256 → ∃ t, exec (.memoryKeyLoad ⟨die, n⟩ ⟨port, ix, key, sa⟩) s = .next t ∧
        (∀ k < 16, aget (k * 256 + ix) t.phys.keytab = some key) ∧
        t = { s with phys := { s.phys with keytab := t.phys.keytab } })) ∧
    (∀ (die : DieNo) n ctx k, (s.die die.val).st = .live → aget n (s.die die.val).sessions = some true → 0 < k → k < 256 →
      aget (2 * die.val * 256 + k) s.phys.keytab ≠ none →
      ∃ t, exec (.contextMarkedConf ⟨die, n⟩ ⟨ctx, k⟩) s = .next t ∧ (t.ctx ctx).conf = true ∧ (t.ctx ctx).keyid = k ∧
        ∀ c, c ≠ ctx → t.ctx c = s.ctx c) ∧
    (∀ (die : DieNo) ctx, (s.die die.val).st = .live → s.ctxBusy ctx = false →
      ∃ t, exec (.contextTeardown die ctx) s = .next t ∧ t.ctx ctx = State.reset.ctx ctx ∧ (∀ c, c ≠ ctx → t.ctx c = s.ctx c) ∧
        (∀ d ∈ t.dies, ∀ x ∈ d.tlb, x.ctx ≠ ctx) ∧
        ∀ x ∈ t.phys.stamps, t.mappedAs [3] (128 * x.1) = true ∨ t.mappedAs [3] (128 * (x.1 ^^^ 4294967296)) = true) ∧
    (∀ (die : DieNo) fn pa k data, (s.die die.val).st = .live →
      let touches : Prop := ∃ i < data.length, s.guardedLine (pa + i) = true
      (touches → exec (.inboundWrite die fn pa k data) s = .next (s.refuseInbound die.val fn pa)) ∧
      (¬ touches → s.inboundOk pa data.length = true → exec (.inboundWrite die fn pa k data) s =
        .next ((s.noteInbound pa data.length).writeHome k (cellsFrom pa data))) ∧
      (¬ touches → s.inboundOk pa data.length = false → exec (.inboundWrite die fn pa k data) s =
        .next (s.emit (.inboundUR die.val fn))) ∧
      (∀ n, s.inboundOk pa n = true →
        let s1 := (dedup ((List.range n).map fun i => lineOf (pa + i))).foldl (fun (s : State) ln => s.recall ln) s
        exec (.inboundRead die fn pa k n) s = .next (s1.emit (.inbound die.val fn (s1.readHome k pa n)))) ∧
      (∀ n, s.inboundOk pa n = false → exec (.inboundRead die fn pa k n) s = .next (s.emit (.inboundUR die.val fn))) ∧
      exec (.inboundRefused die fn pa true) s = .next (s.refuseInbound die.val fn pa) ∧
      (s.guardedLine pa = true → exec (.inboundRefused die fn pa false) s = .next (s.refuseInbound die.val fn pa))) ∧
    (∀ (die : DieNo) ways link ours theirs r, (s.die die.val).st = .live → (ways = 1 ∨ ways = 2 ∨ ways = 4) → link < ways →
      r ∈ ours → r ∈ theirs → (∀ x ∈ ours, x ∈ theirs → x ≤ r) →
      let trained (cxl : Bool) : State := s.modDie die.val fun d =>
        let l : Link := if d.link.bifur = ways then d.link else ⟨ways, List.replicate ways ⟨false, false, 0⟩⟩
        { d with link := { l with links := l.links.set link ⟨true, cxl, r⟩ } }
      exec (.linkTraining die ⟨ways, link⟩ ⟨none, ours, theirs⟩) s = .next (trained false) ∧
      (∀ x : CxlDev, x.cache = true ∨ x.type ≠ 3 ∨ x.switch = true →
        exec (.linkTraining die ⟨ways, link⟩ ⟨some x, ours, theirs⟩) s = .next (trained false)) ∧
      (∀ x : CxlDev, x.cache = false → x.type = 3 → x.switch = false → 2 ^ 48 ≤ x.base → x.base + x.len ≤ 2 ^ 51 →
        let t := trained true
        exec (.linkTraining die ⟨ways, link⟩ ⟨some x, ours, theirs⟩) s = .next { t with phys := { t.phys with
          cxl := (t.phys.cxl.filter fun w => w.base != x.base) ++ [⟨die.val, x.base, x.len, false⟩] } })) ∧
    (∀ (die : DieNo) ways link dev ours theirs, (∀ x ∈ ours, x ∉ theirs) →
      exec (.linkTraining die ⟨ways, link⟩ ⟨dev, ours, theirs⟩) s = .next s) ∧
    (∀ (die : DieNo) w x, s.phys.cxl[w]? = some x → x.die = die.val → x.lost = false → s.om.accs = [] →
      exec (.cxlExpanderLost die w) s = .next { s with phys := { s.phys with cxl := s.phys.cxl.set w { x with lost := true } } })

-- Words, steps, reset (R73, R74, R89, R90, R100, R127, R138, R222, R256, R311, R344).

/-- R73, R74: the words that the spec spells out bit by bit decode to the instructions it says they are: in the manual's order of
chapters IADD, SSET, CVT8, LD, STS, MMA.A, MMA, ACCST, TAKET, CPY, CPYS, MXV, NPOST, NWAIT, SVC, ST, SBRX; and IADD from its twelve
bytes, lowest address first. -/
def Obligations.DecodeSomeWords : Prop :=
  let u (n : BitVec 5) : Ctl := ⟨.always, n, false⟩
  let r (n : BitVec 8) : Operand := .reg n false false
  decode 0x10402000090000100015E008#96 = .ok (.iadd (u 4) (.reg 1 true false) (.reg 0 true false) (.imm 10)) ∧
  decode 0xC482000000000050_0181E002#96 = .ok (.sset (u 1) .lt false 0 (r 1) (.imm 192)) ∧
  decode 0x304400002800009002_09E00C#96 = .ok (.cvt8 (u 6) .sr false (r 5) (r 2) 0x104) ∧
  decode 0x50100000000000900021E002#96 = .ok (.ld (u 1) (.plain .b32) (r 0) (r 2) (some 16)) ∧
  decode 0x6140000022000010009A0002#96 = .ok (.sts ⟨.pred 0 false, 1, false⟩ false (r 4) (.imm 0) (.imm 77)) ∧
  decode 0x70414000020000000001E002#96 = .ok (.mmaA (u 1) true (.imm 0) (.imm 0)) ∧
  decode 0x70000003020018000001E002#96 = .ok (.mma (u 1) false (r 96) (.imm 96)) ∧
  decode 0x71C04000420C8017C181E002#96 = .ok (.accst (u 1) .split false 8 (.imm 0x3200) 0x3E0C0) ∧
  decode 0xB280000030000080_0001E002#96 = .ok (.taket (u 1) 6 2) ∧
  decode 0x8001400802000010_0101E003#96 = .ok (.cpy ⟨.always, 1, true⟩ 1 .ll (.imm 0x100) (.imm 0) (.imm 128)) ∧
  decode 0x80500000A0000690_0000A003#96 = .ok (.cpys ⟨.pred 5 false, 1, true⟩ 0 .gl (r 20) (r 26) (.imm 0)) ∧
  decode 0x9081000000000100_0001E002#96 = .ok (.mxv (u 1) 1 (r 4)) ∧
  decode 0xA002000002001000_0001E002#96 = .ok (.npost (u 1) 2 (.imm 0x40)) ∧
  decode 0xA080000002000090_0009E002#96 = .ok (.nwait (u 1) (.imm 2) (.imm 4)) ∧
  decode 0xD000000040000110_0005E002#96 = .ok (.svc (u 1) (r 8) (r 4) 2) ∧
  decode 0x5048000000000092_0001E002#96 = .ok (.st (u 1) (.plain .b32) (r 0) (r 2) (some 0x10000)) ∧
  decode 0xC540000000000050_0003E002#96 = .ok (.sbrx (u 1) 1 1) ∧
  decodeBytes [0x08, 0xE0, 0x15, 0x00, 0x10, 0x00, 0x00, 0x09, 0x00, 0x20, 0x40, 0x10] =
    .ok (.iadd (u 4) (.reg 1 true false) (.reg 0 true false) (.imm 10))

/-- R73, R76 to R81, R83, R90: decoding the word of any well-formed instruction gives that instruction back, with every operand at
every value its encoding admits. -/
def Obligations.DecodeEncode : Prop :=
  ∀ (i : Instr) (w : Word96), i.wf = true → encode i = some w → decode w = .ok i

/-- R74: the next step runs the instruction that the twelve bytes at the agent's PC decode to: `exec` of it, and then what follows it
at once. A word that is no instruction raises ILLEGAL, a PC that is no multiple of 4 raises ALIGN, and a warp at the join of the
running path waits there. An event that the next choice names happens likewise. That a fetch which faults ALIGN puts the PC into TRADDR,
and the lanes it names, are the model's choice (log entry 23). -/
def Obligations.StepRunsDecoded : Prop :=
  ∀ (s : State) (aid : Nat) (rest : List Choice), s.agenda = .run aid :: rest →
    let s1 : State := { s with agenda := rest, actor := some aid }
    (∀ b w, s1.issuer = some (.warp b w) → s1.canIssue (.warp b w) = true →
      (b.atJoin w = true → step s = .next (s1.joinStep b w).follow) ∧
      (b.atJoin w = false →
        (∀ t bytes i, s1.fetchWord aid b w.pc = .ok (t, bytes) → decodeBytes bytes = .ok i → step s = afterChoice (exec i t)) ∧
        (∀ t bytes d, s1.fetchWord aid b w.pc = .ok (t, bytes) → decodeBytes bytes = .error d →
          step s = afterChoice (illegalWord (BitVec.ofNat 96 (wordOfBytes bytes)) t)) ∧
        (w.pc.toNat % 4 ≠ 0 →
          let e := warpEnv s1 b w ⟨.always, 0, false⟩
          e.b.specOf e.w.aid = none → step s = .next (takeTrap (e.s.dropFails e.b.die e.w.aid) e.b.id
            (trapRecW e ⟨fAlign, w.pc.toNat, 0, none⟩)).follow))) ∧
    (∀ b q, s1.issuer = some (.seq b q) → s1.canIssue (.seq b q) = true →
      (∀ t bytes i, s1.fetchWord aid b q.pc = .ok (t, bytes) → decodeBytes bytes = .ok i → step s = afterChoice (exec i t)) ∧
      (∀ t bytes d, s1.fetchWord aid b q.pc = .ok (t, bytes) → decodeBytes bytes = .error d →
        step s = afterChoice (illegalWord (BitVec.ofNat 96 (wordOfBytes bytes)) t)) ∧
      (q.pc.toNat % 4 ≠ 0 → b.specOf q.aid = none →
        step s = .next (takeTrap (s1.dropFails b.die q.aid) b.id ⟨fAlign, q.pc, q.pc.toNat, 0, 0x3F, 0⟩).follow)) ∧
    (∀ (x : State) (i : Instr) (c : List Choice), x.agenda = .event i :: c → Instr.isEvent i = true →
      step x = afterChoice (exec i { x with agenda := c })) ∧
    (∀ t : State, afterChoice (.next t) = .next t.follow)

/-- Every step answers a next state, and in it every queue place names an access that exists, every reservation is held by one,
and no line kept for an inbound write is older than 1 us (R36, R42, R207). -/
def Obligations.StepKeepsRecords : Prop :=
  ∀ s : State, ∃ t, step s = .next t ∧ t.tidyOk

/-- R48, R100, R127, R138, R222, R256, R311, R321: what reset leaves. The message order is empty and counts from 1, there is no owner,
no die is live or lost, every quota is 0, the time units are UNSET, the queues' counts are 0 and their status rings hold code 15; a
sequencer thread and a thread start with the values their tables give. The records are in order and memory is in canonical form. That
an address nothing has written reads as 0 is the model's choice (log entry 3). -/
def Obligations.ResetState : Prop :=
  let s := State.reset
  s.pkg.msgs = [] ∧ s.pkg.nextSeq = 1 ∧ (∀ pos, ownerAt s.pkg.msgs pos = none) ∧ (∀ pos d, lifeAt s.pkg.msgs pos d = none) ∧
  (∀ d, (s.die d).st = .inReset ∧ (s.die d).time.st = .unset ∧ (s.die d).owner = none ∧ (s.die d).dealt = [] ∧
    (s.die d).sense.fclk = 1250 ∧ ∀ h ∈ (s.die d).hampers, h = []) ∧
  (∀ core kid, aget kid (s.core core).quotas = none) ∧
  (∀ core, ∀ q ∈ (s.core core).cq ++ (s.core core).bq, q.enq = 0 ∧ q.seq = 0 ∧ ∀ x ∈ q.ring, x.toNat / 2 ^ 32 % 16 = 15) ∧
  (∀ aid pc n, (SeqThread.fresh aid pc).get n = 0 ∧ (SeqThread.fresh aid pc).getQ n = false ∧ (SeqThread.fresh aid pc).pc = pc) ∧
  (∀ l w n, (freshThread l w).getV n = 0 ∧ (freshThread l w).getP n = false ∧ (freshThread l w).dead = [] ∧
    (freshThread l w).nest = 0) ∧
  s.task.blocks = [] ∧ s.memOk ∧ s.tidyOk ∧ (∀ a, s.byte a = 0)
end

