-- ==== Sys2Proof/Laws/Issue.lean ====
section
/-!
SUPPORT. What issuing does, once for every word: a word whose own effect begins answers what its effect gives; an agent that may
not issue changes nothing; a fault is taken as an exception.
-/
namespace Sys2Proof.Machine

/-- The facts behind a warp's start. -/
theorem warpStart_spec {s : State} {i : Instr} {c : Ctl} {e : WEnv} (h : s.warpStart i c = some e) :
    ∃ b w, s.issuer = some (.warp b w) ∧ s.canIssue (.warp b w) = true ∧
      warpChecks (warpEnv s b w c) i = .ok () ∧
      ∃ b', specGate (warpEnv s b w c).b (warpEnv s b w c).w.aid i (writtenV (warpEnv s b w c) i) = some b' ∧
        e = { warpEnv s b w c with b := b' } := by
  unfold State.warpStart at h
  split at h
  · rename_i b w hi
    split at h
    · rename_i hc
      dsimp only at h
      split at h
      · rename_i hk
        obtain ⟨b', hb, rfl⟩ := Option.map_eq_some_iff.mp h
        exact ⟨b, w, hi, hc, hk, b', hb, rfl⟩
      · cases h
    · cases h
  · cases h

/-- The facts behind the sequencer's start. -/
theorem seqStart_spec {s : State} {i : Instr} {c : Ctl} {e : SEnv} (h : s.seqStart i c = some e) :
    ∃ b q, s.issuer = some (.seq b q) ∧ s.canIssue (.seq b q) = true ∧ i.wfOn .seq = true ∧
      seqBlocked s b q i = false ∧ guardS q c = true ∧
      ∃ b', specGate b q.aid i (writtenS i) = some b' ∧ e = ⟨s, b', q, c⟩ := by
  unfold State.seqStart at h
  split at h
  · rename_i b q hi
    split at h
    · rename_i hc
      simp only [Bool.and_eq_true, Bool.not_eq_true'] at hc
      obtain ⟨b', hb, rfl⟩ := Option.map_eq_some_iff.mp h
      exact ⟨b, q, hi, hc.1.1.1, hc.1.1.2, hc.1.2, hc.2, b', hb, rfl⟩
    · cases h
  · cases h

/-- What STALL.SHORT names does not change whether a word passes its checks. -/
theorem warpChecks_first {e : WEnv} {i : Instr} (first : Option Nat) (h : warpChecks e i = .ok ()) :
    warpChecks e i first = .ok () := by
  unfold warpChecks at h ⊢
  split
  · simp_all
  · split
    · simp_all
    · dsimp only at h ⊢
      split
      · simp_all
      · split
        · simp_all [flt]
        · simp_all

/-- A thread that is not blocked has no fence or acquire load left. -/
theorem seqBlocked_fenced {s : State} {b : Block} {q : SeqThread} {i : Instr} (h : seqBlocked s b q i = false) :
    seqFenced s q = false := by
  simp only [seqBlocked, Bool.or_eq_false_iff] at h
  exact h.2

/-- A word whose effect begins on a warp answers what its effect gives. -/
theorem issue_warp_ok {s : State} {i : Instr} {c : Ctl} {e : WEnv} {wb : WEnv → Except Stop State}
    {sb : SEnv → Except Stop State} {t : State} {f : WEnv → Option Nat} (h : s.warpStart i c = some e) (ht : wb e = .ok t) :
    issue i c wb sb s f = .next t := by
  obtain ⟨b, w, hi, hc, hk, b', hb, rfl⟩ := warpStart_spec h
  simp only [issue, hi, hc, runWarp, warpChecks_first _ hk, hb, Bool.not_true, Bool.false_eq_true, if_false, ht, warpOutcome]

theorem issue_seq_ok {s : State} {i : Instr} {c : Ctl} {e : SEnv} {wb : WEnv → Except Stop State}
    {sb : SEnv → Except Stop State} {t : State} {f : WEnv → Option Nat} (h : s.seqStart i c = some e) (ht : sb e = .ok t) :
    issue i c wb sb s f = .next t := by
  obtain ⟨b, q, hi, hc, hw, hk, hg, b', hb, rfl⟩ := seqStart_spec h
  simp only [issue, hi, hc, runSeq, seqBlocked_fenced hk, hw, hk, hg, hb, Bool.not_true, Bool.false_eq_true, if_false, ht, seqOutcome]

/-- A word whose effect waits on a warp: the warp waits. -/
theorem issue_warp_wait {s : State} {i : Instr} {c : Ctl} {e : WEnv} {wb : WEnv → Except Stop State}
    {sb : SEnv → Except Stop State} {t : State} {r : Wait} {f : WEnv → Option Nat} (h : s.warpStart i c = some e)
    (ht : wb e = .error (.wait r t)) :
    ∃ b w, s.issuer = some (.warp b w) ∧
      issue i c wb sb s f = .next (setWaitW t (warpEnv s b w c).b.id (warpEnv s b w c).w.k r) := by
  obtain ⟨b, w, hi, hc, hk, b', hb, rfl⟩ := warpStart_spec h
  refine ⟨b, w, hi, ?_⟩
  simp only [issue, hi, hc, runWarp, warpChecks_first _ hk, hb, Bool.not_true, Bool.false_eq_true, if_false, ht, warpOutcome]

/-- An agent that may not issue does nothing (R107, R109, R317). -/
theorem issue_held {s : State} {i : Instr} {c : Ctl} {x : Issuer} (wb : WEnv → Except Stop State)
    (sb : SEnv → Except Stop State) (f : WEnv → Option Nat) (h : s.issuer = some x) (hc : s.canIssue x = false) :
    issue i c wb sb s f = .next s := by
  simp only [issue, h, hc, Bool.not_false, if_true]

/-- Every word answers a next state where an agent issues. -/
theorem issue_next {s : State} {i : Instr} {c : Ctl} {x : Issuer} (wb : WEnv → Except Stop State)
    (sb : SEnv → Except Stop State) (f : WEnv → Option Nat) (h : s.issuer = some x) : ∃ t, issue i c wb sb s f = .next t := by
  unfold issue
  rw [h]
  dsimp only
  split
  · exact ⟨s, rfl⟩
  · cases x <;> exact ⟨_, rfl⟩

/-- A word whose guard does not hold on the sequencer only moves the PC on (R135). -/
theorem issue_seq_skip {s : State} {i : Instr} {c : Ctl} {b : Block} {q : SeqThread} (wb : WEnv → Except Stop State)
    (sb : SEnv → Except Stop State) (f : WEnv → Option Nat) (hi : s.issuer = some (.seq b q))
    (hc : s.canIssue (.seq b q) = true) (hw : i.wfOn .seq = true) (hk : seqBlocked s b q i = false) (hg : guardS q c = false) :
    issue i c wb sb s f = .next (s.setBlock { b with seq := some q.advance }) := by
  simp only [issue, hi, hc, runSeq, seqBlocked_fenced hk, hw, hk, hg, Bool.not_true, Bool.not_false, Bool.false_eq_true, if_false, if_true,
    seqOutcome, SEnv.put]

/-- A failed check of a warp's word is taken as an exception (R82, R107). -/
theorem issue_warp_trap {s : State} {i : Instr} {c : Ctl} {b : Block} {w : Warp} {x : TrapInfo}
    (wb : WEnv → Except Stop State) (sb : SEnv → Except Stop State) (f : WEnv → Option Nat) (hi : s.issuer = some (.warp b w))
    (hc : s.canIssue (.warp b w) = true) (hk : warpChecks (warpEnv s b w c) i (f (warpEnv s b w c)) = .error (.trap x))
    (hs : (warpEnv s b w c).b.specOf (warpEnv s b w c).w.aid = none) :
    issue i c wb sb s f = .next (takeTrap ((warpEnv s b w c).s.dropFails (warpEnv s b w c).b.die (warpEnv s b w c).w.aid)
      (warpEnv s b w c).b.id (trapRecW (warpEnv s b w c) x)) := by
  simp only [issue, hi, hc, runWarp, hk, Bool.not_true, Bool.false_eq_true, if_false, warpOutcome, hs, Option.isSome_none]

/-- Where an agent does not speculate, the stall rules of R327 leave its block as it is. -/
theorem specGate_none {b b' : Block} {aid : Nat} {i : Instr} {regs : List Nat} (h : specGate b aid i regs = some b')
    (hn : b'.specOf aid = none) : b' = b ∧ b.specOf aid = none := by
  unfold specGate at h
  cases hs : b.specOf aid with
  | none => simp only [hs, Option.some.injEq] at h; exact ⟨h.symm, rfl⟩
  | some x =>
    simp only [hs] at h
    split at h
    · cases h
    · split at h
      · cases h
      · obtain ⟨y, hy, rfl⟩ := Option.map_eq_some_iff.mp h
        exfalso
        have hx : (x.aid == aid) = true := by simpa using List.find?_some (p := fun x : Spec => x.aid == aid) hs
        have hya : y.aid = x.aid := by
          unfold Spec.note at hy
          dsimp only at hy
          split at hy
          · cases hy; rfl
          · cases hy
        have hm := List.mem_of_find?_eq_some hs
        simp only [Block.specOf, Block.setSpec, List.find?_eq_none, List.mem_map] at hn
        refine hn y ⟨x, hm, ?_⟩ ?_
        · simp [hya]
        · simpa [hya] using hx

/-- A word whose effect faults on a warp that does not speculate is taken as an exception. -/
theorem issue_warp_fault {s : State} {i : Instr} {c : Ctl} {e : WEnv} {wb : WEnv → Except Stop State}
    {sb : SEnv → Except Stop State} {x : TrapInfo} {f : WEnv → Option Nat} (h : s.warpStart i c = some e) (hs : e.b.specOf e.w.aid = none)
    (ht : wb e = .error (.trap x)) :
    issue i c wb sb s f = .next (takeTrap (e.s.dropFails e.b.die e.w.aid) e.b.id (trapRecW e x)) := by
  obtain ⟨b, w, hi, hc, hk, b', hb, rfl⟩ := warpStart_spec h
  obtain ⟨rfl, hn⟩ := specGate_none hb hs
  simp only [issue, hi, hc, runWarp, warpChecks_first _ hk, hb, Bool.not_true, Bool.false_eq_true, if_false, ht, warpOutcome, hn,
    Option.isSome_none]

theorem issue_seq_fault {s : State} {i : Instr} {c : Ctl} {e : SEnv} {wb : WEnv → Except Stop State}
    {sb : SEnv → Except Stop State} {x : TrapInfo} {f : WEnv → Option Nat} (h : s.seqStart i c = some e) (hs : e.b.specOf e.q.aid = none)
    (ht : sb e = .error (.trap x)) :
    issue i c wb sb s f = .next (takeTrap (e.s.dropFails e.b.die e.q.aid) e.b.id ⟨x.code, e.q.pc, x.addr, x.aux, 0x3F, 0⟩) := by
  obtain ⟨b, q, hi, hc, hw, hk, hg, b', hb, rfl⟩ := seqStart_spec h
  obtain ⟨rfl, hn⟩ := specGate_none hb hs
  simp only [issue, hi, hc, runSeq, seqBlocked_fenced hk, hw, hk, hg, hb, Bool.not_true, Bool.false_eq_true, if_false, ht, seqOutcome, hn,
    Option.isSome_none]

/-- The stall rules keep the block's name. -/
theorem specGate_id {b b' : Block} {aid : Nat} {i : Instr} {regs : List Nat} (h : specGate b aid i regs = some b') :
    b'.id = b.id := by
  unfold specGate at h
  split at h
  · cases h; rfl
  · split at h
    · cases h
    · split at h
      · cases h
      · obtain ⟨y, -, rfl⟩ := Option.map_eq_some_iff.mp h
        rfl

/-- A word whose effect waits on a warp. -/
theorem issue_warp_stay {s : State} {i : Instr} {c : Ctl} {e : WEnv} {wb : WEnv → Except Stop State}
    {sb : SEnv → Except Stop State} {t : State} {r : Wait} {f : WEnv → Option Nat} (h : s.warpStart i c = some e)
    (ht : wb e = .error (.wait r t)) : issue i c wb sb s f = .next (setWaitW t e.b.id e.w.k r) := by
  obtain ⟨b, w, hi, hc, hk, b', hb, rfl⟩ := warpStart_spec h
  simp only [issue, hi, hc, runWarp, warpChecks_first _ hk, hb, Bool.not_true, Bool.false_eq_true, if_false, ht, warpOutcome, specGate_id hb]

theorem issue_seq_stay {s : State} {i : Instr} {c : Ctl} {e : SEnv} {wb : WEnv → Except Stop State}
    {sb : SEnv → Except Stop State} {t : State} {r : Wait} {f : WEnv → Option Nat} (h : s.seqStart i c = some e)
    (ht : sb e = .error (.wait r t)) : issue i c wb sb s f = .next (setWaitS t e.b.id r) := by
  obtain ⟨b, q, hi, hc, hw, hk, hg, b', hb, rfl⟩ := seqStart_spec h
  simp only [issue, hi, hc, runSeq, seqBlocked_fenced hk, hw, hk, hg, hb, Bool.not_true, Bool.false_eq_true, if_false, ht, seqOutcome,
    specGate_id hb]

/-- Every word that an agent issues goes through `issue`, with its own guard and hint. -/
theorem exec_issue {i : Instr} {c : Ctl} (h : i.ctl = some c) : ∃ wb sb f, ∀ s, exec i s = issue i c wb sb s f := by
  cases i <;> cases h <;> exact ⟨_, _, _, fun _ => rfl⟩

end Sys2Proof.Machine
end

