-- ==== Sys2Proof/Laws/State.lean ====
section
/-!
SUPPORT. What each update of the state leaves as it was, one lemma for a field and an update, and what reading back an updated part
gives.
-/
namespace Sys2Proof.Machine

-- Association lists.

@[simp] theorem aget_aset {α : Type} (k : Nat) (v : α) (m : Assoc α) : aget k (aset k v m) = some v := by
  induction m with
  | nil => simp [aset, aget]
  | cons p t ih =>
    simp only [aset]
    split
    · simp [aget]
    · split
      · simp [aget]
      · rename_i h
        simp [aget, h, ih]

theorem aget_aset_ne {α : Type} {k j : Nat} (v : α) (h : k ≠ j) (m : Assoc α) : aget k (aset j v m) = aget k m := by
  induction m with
  | nil => simp [aset, aget, h]
  | cons p t ih =>
    simp only [aset]
    split
    · simp [aget, h]
    · split
      · rename_i hj
        subst hj
        simp [aget, h]
      · simp only [aget, ih]

theorem aget_map {α β : Type} (k : Nat) (f : α → β) (m : Assoc α) :
    aget k (m.map fun p => (p.1, f p.2)) = (aget k m).map f := by
  induction m with
  | nil => rfl
  | cons p t ih => simp only [List.map_cons, aget, ih]; split <;> rfl

/-- A fold keeps what each of its steps keeps. -/
theorem foldl_keeps {α β : Type} {P : α → Prop} {f : α → β → α} (hf : ∀ a b, P a → P (f a b)) (l : List β) :
    ∀ a, P a → P (l.foldl f a) := by
  induction l with
  | nil => exact fun _ h => h
  | cons x t ih => exact fun a h => ih _ (hf a x h)

-- The state.

section
variable (s : State) (b : Block) (t : Team) (d c id : Nat)

@[simp] theorem setDie_phys (x : Die) : (s.setDie d x).phys = s.phys := rfl
@[simp] theorem setDie_om (x : Die) : (s.setDie d x).om = s.om := rfl
@[simp] theorem setDie_task (x : Die) : (s.setDie d x).task = s.task := rfl
@[simp] theorem setDie_pkg (x : Die) : (s.setDie d x).pkg = s.pkg := rfl
@[simp] theorem setDie_now (x : Die) : (s.setDie d x).now = s.now := rfl
@[simp] theorem setDie_actor (x : Die) : (s.setDie d x).actor = s.actor := rfl
@[simp] theorem setDie_nextId (x : Die) : (s.setDie d x).nextId = s.nextId := rfl
@[simp] theorem modDie_phys (f : Die → Die) : (s.modDie d f).phys = s.phys := rfl
@[simp] theorem modDie_om (f : Die → Die) : (s.modDie d f).om = s.om := rfl
@[simp] theorem modDie_task (f : Die → Die) : (s.modDie d f).task = s.task := rfl
@[simp] theorem modDie_pkg (f : Die → Die) : (s.modDie d f).pkg = s.pkg := rfl
@[simp] theorem modDie_now (f : Die → Die) : (s.modDie d f).now = s.now := rfl
@[simp] theorem modDie_actor (f : Die → Die) : (s.modDie d f).actor = s.actor := rfl
@[simp] theorem modDie_nextId (f : Die → Die) : (s.modDie d f).nextId = s.nextId := rfl
@[simp] theorem modDie_block (f : Die → Die) (k : Nat) : (s.modDie d f).block k = s.block k := rfl
@[simp] theorem modDie_agent (f : Die → Die) (k : Nat) : (s.modDie d f).agent k = s.agent k := rfl
theorem die_modDie (f : Die → Die) (k : Nat) :
    (s.modDie d f).die k = if k = d ∧ d < s.dies.length then f (s.die d) else s.die k := by
  simp only [State.die, State.modDie, State.setDie, List.getD_eq_getElem?_getD, List.getElem?_set]
  by_cases h : d = k
  · subst h
    by_cases hl : d < s.dies.length <;> simp [hl]
  · simp [h, Ne.symm h]

@[simp] theorem setBlock_phys : (s.setBlock b).phys = s.phys := rfl
@[simp] theorem setBlock_om : (s.setBlock b).om = s.om := rfl
@[simp] theorem setBlock_dies : (s.setBlock b).dies = s.dies := rfl
@[simp] theorem setBlock_pkg : (s.setBlock b).pkg = s.pkg := rfl
@[simp] theorem setBlock_now : (s.setBlock b).now = s.now := rfl
@[simp] theorem setBlock_actor : (s.setBlock b).actor = s.actor := rfl
@[simp] theorem setBlock_nextId : (s.setBlock b).nextId = s.nextId := rfl
@[simp] theorem setBlock_teams : (s.setBlock b).task.teams = s.task.teams := rfl
@[simp] theorem setBlock_cores : (s.setBlock b).task.cores = s.task.cores := rfl
@[simp] theorem setBlock_ctxs : (s.setBlock b).task.ctxs = s.task.ctxs := rfl
@[simp] theorem block_setBlock : (s.setBlock b).block b.id = some b := aget_aset _ _ _
theorem block_setBlock_ne {k : Nat} (h : k ≠ b.id) : (s.setBlock b).block k = s.block k := aget_aset_ne _ h _

@[simp] theorem setTeam_phys : (s.setTeam t).phys = s.phys := rfl
@[simp] theorem setTeam_om : (s.setTeam t).om = s.om := rfl
@[simp] theorem setTeam_dies : (s.setTeam t).dies = s.dies := rfl
@[simp] theorem setTeam_blocks : (s.setTeam t).task.blocks = s.task.blocks := rfl
@[simp] theorem team_setTeam : (s.setTeam t).team t.id = some t := aget_aset _ _ _

@[simp] theorem setCore_phys (x : Core) : (s.setCore c x).phys = s.phys := rfl
@[simp] theorem setCore_om (x : Core) : (s.setCore c x).om = s.om := rfl
@[simp] theorem setCore_dies (x : Core) : (s.setCore c x).dies = s.dies := rfl
@[simp] theorem setCore_actor (x : Core) : (s.setCore c x).actor = s.actor := rfl
@[simp] theorem setCore_blocks (x : Core) : (s.setCore c x).task.blocks = s.task.blocks := rfl
@[simp] theorem core_setCore (x : Core) : (s.setCore c x).core c = x := by
  simp only [State.core, State.setCore, agetD, aget_aset, Option.getD_some]
@[simp] theorem modCore_phys (f : Core → Core) : (s.modCore c f).phys = s.phys := rfl
@[simp] theorem modCore_om (f : Core → Core) : (s.modCore c f).om = s.om := rfl
@[simp] theorem modCore_dies (f : Core → Core) : (s.modCore c f).dies = s.dies := rfl
@[simp] theorem modCore_actor (f : Core → Core) : (s.modCore c f).actor = s.actor := rfl
@[simp] theorem modCore_blocks (f : Core → Core) : (s.modCore c f).task.blocks = s.task.blocks := rfl

@[simp] theorem setCtx_phys (x : Ctx) : (s.setCtx c x).phys = s.phys := rfl
@[simp] theorem setCtx_om (x : Ctx) : (s.setCtx c x).om = s.om := rfl
@[simp] theorem setCtx_dies (x : Ctx) : (s.setCtx c x).dies = s.dies := rfl
@[simp] theorem setCtx_blocks (x : Ctx) : (s.setCtx c x).task.blocks = s.task.blocks := rfl
@[simp] theorem ctx_setCtx (x : Ctx) : (s.setCtx c x).ctx c = x := by
  simp only [State.ctx, State.setCtx, agetD, aget_aset, Option.getD_some]

@[simp] theorem setAccess_phys (a : Access) : (s.setAccess id a).phys = s.phys := rfl
@[simp] theorem setAccess_task (a : Access) : (s.setAccess id a).task = s.task := rfl
@[simp] theorem setAccess_dies (a : Access) : (s.setAccess id a).dies = s.dies := rfl
@[simp] theorem setAccess_agents (a : Access) : (s.setAccess id a).om.agents = s.om.agents := rfl
@[simp] theorem access_setAccess (a : Access) : (s.setAccess id a).access id = some a := aget_aset _ _ _
theorem access_setAccess_ne {k : Nat} (a : Access) (h : k ≠ id) : (s.setAccess id a).access k = s.access k :=
  aget_aset_ne _ h _

@[simp] theorem setAgent_phys (a : AgentRec) : (s.setAgent id a).phys = s.phys := rfl
@[simp] theorem setAgent_task (a : AgentRec) : (s.setAgent id a).task = s.task := rfl
@[simp] theorem setAgent_dies (a : AgentRec) : (s.setAgent id a).dies = s.dies := rfl
@[simp] theorem setAgent_accs (a : AgentRec) : (s.setAgent id a).om.accs = s.om.accs := rfl
@[simp] theorem agent_setAgent (a : AgentRec) : (s.setAgent id a).agent id = some a := aget_aset _ _ _

@[simp] theorem setEntry_phys (e : Entry) : (s.setEntry e).phys = s.phys := rfl
@[simp] theorem setEntry_task (e : Entry) : (s.setEntry e).task = s.task := rfl
@[simp] theorem setEntry_dies (e : Entry) : (s.setEntry e).dies = s.dies := rfl
@[simp] theorem setEntry_accs (e : Entry) : (s.setEntry e).om.accs = s.om.accs := rfl

@[simp] theorem emit_phys (o : Out) : (s.emit o).phys = s.phys := rfl
@[simp] theorem emit_task (o : Out) : (s.emit o).task = s.task := rfl
@[simp] theorem emit_om (o : Out) : (s.emit o).om = s.om := rfl
@[simp] theorem emit_dies (o : Out) : (s.emit o).dies = s.dies := rfl
@[simp] theorem emit_out (o : Out) : (s.emit o).pkg.out = s.pkg.out ++ [o] := rfl
@[simp] theorem report_phys (r : Report) : (s.report d r).phys = s.phys := rfl
@[simp] theorem report_task (r : Report) : (s.report d r).task = s.task := rfl
@[simp] theorem report_om (r : Report) : (s.report d r).om = s.om := rfl

end

-- Registers of a thread.

section
variable (t : Thread) (n : Nat)

@[simp] theorem putV_p (x : Word32) : (t.putV n x).p = t.p := rfl
@[simp] theorem putV_x (x : Word32) : (t.putV n x).x = t.x := rfl
@[simp] theorem putV_dead (x : Word32) : (t.putV n x).dead = t.dead := rfl
@[simp] theorem putV_nest (x : Word32) : (t.putV n x).nest = t.nest := rfl
@[simp] theorem putV_live (x : Word32) : (t.putV n x).live = t.live := rfl
@[simp] theorem clearDead_v : (t.clearDead n).v = t.v := rfl
@[simp] theorem clearDead_p : (t.clearDead n).p = t.p := rfl
@[simp] theorem kill_v : (t.kill n).v = t.v := rfl
@[simp] theorem kill_p : (t.kill n).p = t.p := rfl
@[simp] theorem kill_x : (t.kill n).x = t.x := rfl
@[simp] theorem kill_nest : (t.kill n).nest = t.nest := rfl
@[simp] theorem kill_rng : (t.kill n).rng = t.rng := rfl
@[simp] theorem kill_live : (t.kill n).live = t.live := rfl
@[simp] theorem putP_v (x : Bool) : (t.putP n x).v = t.v := rfl
@[simp] theorem putP_dead (x : Bool) : (t.putP n x).dead = t.dead := rfl
@[simp] theorem putX_v (x : BitVec 16) : (t.putX n x).v = t.v := rfl
@[simp] theorem putX_p (x : BitVec 16) : (t.putX n x).p = t.p := rfl
@[simp] theorem isDead_clearDead : (t.clearDead n).isDead n = false := by
  simp [Thread.isDead, Thread.clearDead]

end

-- Blocks.

section
variable (b : Block) (w : Warp) (t u : Nat) (f : Thread → Thread)

@[simp] theorem modThread_id : (b.modThread t f).id = b.id := rfl
@[simp] theorem modThread_warps : (b.modThread t f).warps = b.warps := rfl
@[simp] theorem modThread_homes : (b.modThread t f).homes = b.homes := rfl
@[simp] theorem modThread_seq : (b.modThread t f).seq = b.seq := rfl
@[simp] theorem modThread_clm : (b.modThread t f).clm = b.clm := rfl
@[simp] theorem modThread_acc : (b.modThread t f).acc = b.acc := rfl
@[simp] theorem modThread_stiles : (b.modThread t f).stiles = b.stiles := rfl
@[simp] theorem modThread_len : (b.modThread t f).threads.length = b.threads.length := by
  simp [Block.modThread, Block.setThread]
theorem thread_modThread :
    (b.modThread t f).thread u = if t = u ∧ t < b.threads.length then f (b.thread t) else b.thread u := by
  simp only [Block.modThread, Block.setThread, Block.thread, List.getD_eq_getElem?_getD, List.getElem?_set]
  by_cases h : t = u
  · subst h
    by_cases hl : t < b.threads.length <;> simp [hl]
  · simp [h]

@[simp] theorem setWarp_id : (b.setWarp w).id = b.id := rfl
@[simp] theorem setWarp_threads : (b.setWarp w).threads = b.threads := rfl
@[simp] theorem setWarp_thread : (b.setWarp w).thread t = b.thread t := rfl
@[simp] theorem setWarp_homes : (b.setWarp w).homes = b.homes := rfl
@[simp] theorem setWarp_seq : (b.setWarp w).seq = b.seq := rfl
@[simp] theorem setWarp_clm : (b.setWarp w).clm = b.clm := rfl
@[simp] theorem setWarp_acc : (b.setWarp w).acc = b.acc := rfl
@[simp] theorem setWarp_stiles : (b.setWarp w).stiles = b.stiles := rfl

/-- The warp that is found after it has been put back is the one put back. -/
theorem warp_setWarp {x : Warp} (h : (b.setWarp w).warp? w.k = some x) : x = w := by
  unfold Block.warp? Block.setWarp at h
  have hk := List.find?_some h
  obtain ⟨y, _, rfl⟩ := List.mem_map.mp (List.mem_of_find?_eq_some h)
  by_cases hy : y.k = w.k
  · simp [hy]
  · simp [hy] at hk

end

/-- Marks change nothing of a block but the dead marks of its threads. -/
theorem killMarks_keeps {P : Block → Prop}
    (h : ∀ b t n, P b → P (b.modThread t fun th => th.kill n)) (b₀ : Block) (eff : List (Nat × Nat)) (i : Instr)
    (hb : P b₀) : P (killMarks b₀ eff i) := by
  unfold killMarks
  refine foldl_keeps ?_ _ _ hb
  intro b p hp
  dsimp only
  have hk : P (eff.foldl (fun bl l => bl.modThread l.2 fun th => th.kill (regOf b₀ l.2 p.1)) b) :=
    foldl_keeps (fun b l hl => h b _ _ hl) _ _ hp
  generalize (p.2.role == Role.src && _) = m
  cases m
  · exact hp
  · exact hk

@[simp] theorem killMarks_id (b : Block) (eff : List (Nat × Nat)) (i : Instr) : (killMarks b eff i).id = b.id :=
  killMarks_keeps (P := fun x => x.id = b.id) (fun _ _ _ h => h) b eff i rfl
@[simp] theorem killMarks_warps (b : Block) (eff : List (Nat × Nat)) (i : Instr) : (killMarks b eff i).warps = b.warps :=
  killMarks_keeps (P := fun x => x.warps = b.warps) (fun _ _ _ h => h) b eff i rfl
@[simp] theorem killMarks_clm (b : Block) (eff : List (Nat × Nat)) (i : Instr) : (killMarks b eff i).clm = b.clm :=
  killMarks_keeps (P := fun x => x.clm = b.clm) (fun _ _ _ h => h) b eff i rfl
@[simp] theorem killMarks_len (b : Block) (eff : List (Nat × Nat)) (i : Instr) :
    (killMarks b eff i).threads.length = b.threads.length :=
  killMarks_keeps (P := fun x => x.threads.length = b.threads.length)
    (fun _ _ _ h => (modThread_len _ _ _).trans h) b eff i rfl

/-- Every thread keeps everything but its dead marks. -/
theorem killMarks_thread (b : Block) (eff : List (Nat × Nat)) (i : Instr) (t : Nat) :
    ∃ d, (killMarks b eff i).thread t = { b.thread t with dead := d } := by
  refine killMarks_keeps (P := fun x => ∃ d, x.thread t = { b.thread t with dead := d }) ?_ b eff i ⟨_, rfl⟩
  rintro x u n ⟨d, hd⟩
  rw [thread_modThread]
  split
  · rename_i h
    obtain ⟨rfl, _⟩ := h
    rw [hd]
    exact ⟨_, rfl⟩
  · exact ⟨d, hd⟩

end Sys2Proof.Machine
end

