-- ==== Sys2Proof/Laws/Memory.lean ====
section
/-!
SUPPORT. Memory: every operation keeps the canonical form, a byte reads as what was written last, and what a write leaves alone.
-/
namespace Sys2Proof.Machine

/-- The canonical form, said without recursion. -/
theorem wf_iff (m : List Host.Cell) :
    Memory.wf m = true ↔ m.Pairwise (fun x y => x.1 < y.1) ∧ ∀ x ∈ m, x.2 ≠ unlisted := by
  induction m with
  | nil => simp [Memory.wf]
  | cons p t ih =>
    cases t with
    | nil => simp [Memory.wf]
    | cons q r =>
      rw [Memory.wf]
      simp only [Bool.and_eq_true, bne_iff_ne, ne_eq, decide_eq_true_eq, ih, List.pairwise_cons, List.mem_cons,
        forall_eq_or_imp]
      constructor
      · rintro ⟨⟨h1, h2⟩, ⟨h3, h4⟩, h5, h6⟩
        exact ⟨⟨⟨h2, fun x hx => h2.trans (h3 x hx)⟩, h3, h4⟩, h1, h5, h6⟩
      · rintro ⟨⟨⟨h2, -⟩, h3, h4⟩, h1, h5, h6⟩
        exact ⟨⟨h1, h2⟩, ⟨h3, h4⟩, h5, h6⟩

theorem mem_adel {α : Type} (k : Nat) (m : Assoc α) (x : Nat × α) (h : x ∈ adel k m) : x ∈ m := by
  induction m with
  | nil => exact h
  | cons p t ih =>
    simp only [adel] at h
    split at h
    · exact List.mem_cons_of_mem _ (ih h)
    · rcases List.mem_cons.mp h with h | h
      · exact h ▸ List.mem_cons_self
      · exact List.mem_cons_of_mem _ (ih h)

theorem mem_aset {α : Type} (k : Nat) (v : α) (m : Assoc α) (x : Nat × α) (h : x ∈ aset k v m) : x = (k, v) ∨ x ∈ m := by
  induction m with
  | nil => simpa [aset] using h
  | cons p t ih =>
    simp only [aset] at h
    split at h
    · simpa using h
    · split at h
      · exact (List.mem_cons.mp h).imp id (List.mem_cons_of_mem _)
      · rcases List.mem_cons.mp h with h | h
        · exact .inr (h ▸ List.mem_cons_self)
        · exact (ih h).imp id (List.mem_cons_of_mem _)

theorem adel_sorted {α : Type} (k : Nat) (m : Assoc α) (h : m.Pairwise fun x y => x.1 < y.1) :
    (adel k m).Pairwise fun x y => x.1 < y.1 := by
  induction m with
  | nil => exact h
  | cons p t ih =>
    obtain ⟨h1, h2⟩ := List.pairwise_cons.mp h
    simp only [adel]
    split
    · exact ih h2
    · exact List.pairwise_cons.mpr ⟨fun x hx => h1 x (mem_adel _ _ _ hx), ih h2⟩

theorem aset_sorted {α : Type} (k : Nat) (v : α) (m : Assoc α) (h : m.Pairwise fun x y => x.1 < y.1) :
    (aset k v m).Pairwise fun x y => x.1 < y.1 := by
  induction m with
  | nil => simp [aset]
  | cons p t ih =>
    obtain ⟨h1, h2⟩ := List.pairwise_cons.mp h
    simp only [aset]
    split
    · rename_i hk
      refine List.pairwise_cons.mpr ⟨?_, h⟩
      intro x hx
      rcases List.mem_cons.mp hx with rfl | hx
      · exact hk
      · exact Nat.lt_trans hk (h1 x hx)
    · split
      · rename_i hk
        exact List.pairwise_cons.mpr ⟨fun x hx => hk ▸ h1 x hx, h2⟩
      · rename_i h3 h4
        refine List.pairwise_cons.mpr ⟨?_, ih h2⟩
        intro x hx
        rcases mem_aset _ _ _ _ hx with rfl | hx
        · exact Nat.lt_of_le_of_ne (Nat.le_of_not_lt h3) (Ne.symm h4)
        · exact h1 x hx

/-- A write of one byte keeps the canonical form. -/
theorem putByte_wf {m : List Host.Cell} (a : Nat) (v : Byte) (h : Memory.wf m = true) : Memory.wf (putByte m a v) = true := by
  obtain ⟨h1, h2⟩ := (wf_iff m).mp h
  unfold putByte
  split
  · exact (wf_iff _).mpr ⟨adel_sorted a m h1, fun x hx => h2 x (mem_adel _ _ _ hx)⟩
  · rename_i hv
    refine (wf_iff _).mpr ⟨aset_sorted a v m h1, fun x hx => ?_⟩
    rcases mem_aset _ _ _ _ hx with rfl | hx
    · exact hv
    · exact h2 x hx

/-- So does a write of several. -/
theorem putBytes_wf (l : List Host.Cell) : ∀ {m : List Host.Cell}, Memory.wf m = true → Memory.wf (putBytes m l) = true := by
  induction l with
  | nil => exact fun h => h
  | cons p t ih => exact fun h => ih (putByte_wf p.1 p.2 h)

@[simp] theorem aget_adel {α : Type} (k : Nat) (m : Assoc α) : aget k (adel k m) = none := by
  induction m with
  | nil => rfl
  | cons p t ih =>
    simp only [adel]
    split
    · exact ih
    · rename_i h
      simp only [aget, if_neg h, ih]

theorem aget_adel_ne {α : Type} {k j : Nat} (h : k ≠ j) (m : Assoc α) : aget k (adel j m) = aget k m := by
  induction m with
  | nil => rfl
  | cons p t ih =>
    simp only [adel]
    split
    · rename_i hj
      subst hj
      simp only [aget, if_neg h, ih]
    · simp only [aget, ih]

@[simp] theorem byteAt_putByte (m : List Host.Cell) (a : Nat) (v : Byte) : byteAt (putByte m a v) a = v := by
  unfold putByte byteAt agetD
  split
  · rename_i h
    rw [aget_adel, h]; rfl
  · rw [aget_aset]; rfl

theorem byteAt_putByte_ne (m : List Host.Cell) {x a : Nat} (v : Byte) (h : x ≠ a) : byteAt (putByte m a v) x = byteAt m x := by
  unfold putByte byteAt agetD
  split
  · rw [aget_adel_ne h]
  · rw [aget_aset_ne _ h]

/-- A write leaves alone every byte that it does not name. -/
theorem byteAt_putBytes_ne (l : List Host.Cell) : ∀ (m : List Host.Cell) {x : Nat}, (∀ p ∈ l, p.1 ≠ x) →
    byteAt (putBytes m l) x = byteAt m x := by
  induction l with
  | nil => exact fun _ _ _ => rfl
  | cons p t ih =>
    intro m x h
    rw [putBytes, ih _ fun q hq => h q (List.mem_cons_of_mem _ hq),
      byteAt_putByte_ne _ _ (Ne.symm (h p List.mem_cons_self))]

/-- A write at a home, over one line or more, changes physical memory and nothing else. -/
theorem writePhys_eq (s : State) (line : Nat) (cells : List Host.Cell) :
    s.writePhys line cells = { s with phys := (s.writePhys line cells).phys } := rfl

theorem writePhysAll_eq (l : List Host.Cell) :
    ∀ s : State, s.writePhysAll l = { s with phys := (s.writePhysAll l).phys } := by
  induction l with
  | nil => exact fun s => rfl
  | cons p t ih => intro s; rw [State.writePhysAll, ih]; rfl

theorem writeLine_eq (s : State) (line keyid : Nat) (cells : List Host.Cell) :
    s.writeLine line keyid cells = { s with phys := (s.writeLine line keyid cells).phys } := by
  unfold State.writeLine
  dsimp only
  split <;> rfl

theorem writeHome_eq (keyid : Nat) (l : List Host.Cell) :
    ∀ s : State, s.writeHome keyid l = { s with phys := (s.writeHome keyid l).phys } := by
  induction l with
  | nil => exact fun s => rfl
  | cons p t ih => intro s; rw [State.writeHome, ih, writeLine_eq]

/-- Writes of physical memory keep the canonical form of every memory. -/
theorem writePhys_memOk {s : State} (line : Nat) (cells : List Host.Cell) (h : s.memOk) : (s.writePhys line cells).memOk := by
  refine ⟨?_, h.2⟩
  show Memory.wf (putBytes (s.phys.keepOld _ _ line).bytes cells) = true
  have : (s.phys.keepOld (!s.task.blocks.isEmpty) s.task.adm line).bytes = s.phys.bytes := by
    unfold PMem.keepOld
    split <;> rfl
  rw [this]
  exact putBytes_wf cells h.1

theorem writePhysAll_memOk (l : List Host.Cell) : ∀ {s : State}, s.memOk → (s.writePhysAll l).memOk := by
  induction l with
  | nil => exact fun h => h
  | cons p t ih => exact fun h => ih (writePhys_memOk _ _ h)

theorem writeLine_memOk {s : State} (line keyid : Nat) (cells : List Host.Cell) (h : s.memOk) :
    (s.writeLine line keyid cells).memOk := by
  unfold State.writeLine
  dsimp only
  split
  · exact writePhys_memOk _ _ h
  · exact writePhys_memOk _ _ (writePhys_memOk _ _ h)

theorem writeHome_memOk (keyid : Nat) (l : List Host.Cell) : ∀ {s : State}, s.memOk → (s.writeHome keyid l).memOk := by
  induction l with
  | nil => exact fun h => h
  | cons p t ih => exact fun h => ih (writeLine_memOk _ _ _ h)

theorem reset_memOk : State.reset.memOk := ⟨rfl, by intro p h; cases h⟩

end Sys2Proof.Machine
end

