-- ==== Sys2Proof/Laws/PerInstr.lean ====
section
/-!
SUPPORT. The family Opcode: the opcode of every instruction that has a word is assigned (R89), one lemma per constructor.
-/

namespace Sys2Proof.Laws.Opcode

/-- The opcode that the encoder writes is assigned. -/
def Statement (i : Instr) : Prop := ∀ r, i.raw = some r → opcAssigned r.opc = true

theorem nop : ∀ c, Statement (.nop c) := by
  intros; intro r h; cases h <;> rfl
theorem br : ∀ c off, Statement (.br c off) := by
  intro c off; cases off <;> (intro r h; cases h <;> rfl)
theorem brd : ∀ c target join, Statement (.brd c target join) := by
  intros; intro r h; cases h <;> rfl
theorem brx : ∀ c a table, Statement (.brx c a table) := by
  intros; intro r h; cases h <;> rfl
theorem call : ∀ c d off, Statement (.call c d off) := by
  intro c d off; cases off <;> (intro r h; cases h <;> rfl)
theorem ret : ∀ c a, Statement (.ret c a) := by
  intros; intro r h; cases h <;> rfl
theorem brq : ∀ c off, Statement (.brq c off) := by
  intros; intro r h; cases h <;> rfl
theorem movq : ∀ c d, Statement (.movq c d) := by
  intros; intro r h; cases h <;> rfl
theorem ifOpen : ∀ c sense p, Statement (.ifOpen c sense p) := by
  intros; intro r h; cases h <;> rfl
theorem elseFlip : ∀ c, Statement (.elseFlip c) := by
  intros; intro r h; cases h <;> rfl
theorem endIf : ∀ c, Statement (.endIf c) := by
  intros; intro r h; cases h <;> rfl
theorem loop : ∀ c, Statement (.loop c) := by
  intros; intro r h; cases h <;> rfl
theorem brkLoop : ∀ c sense depth p, Statement (.brkLoop c sense depth p) := by
  intros; intro r h; cases h <;> rfl
theorem cont : ∀ c sense depth p, Statement (.cont c sense depth p) := by
  intros; intro r h; cases h <;> rfl
theorem endl : ∀ c off, Statement (.endl c off) := by
  intros; intro r h; cases h <;> rfl
theorem bar : ∀ c, Statement (.bar c) := by
  intros; intro r h; cases h <;> rfl
theorem barTeam : ∀ c, Statement (.barTeam c) := by
  intros; intro r h; cases h <;> rfl
theorem mov : ∀ c d a, Statement (.mov c d a) := by
  intro c d a; cases a <;> (intro r h; cases h <;> rfl)
theorem iadd : ∀ c d a b, Statement (.iadd c d a b) := by
  intros; intro r h; cases h <;> rfl
theorem isub : ∀ c d a b, Statement (.isub c d a b) := by
  intros; intro r h; cases h <;> rfl
theorem imul : ∀ c d a b, Statement (.imul c d a b) := by
  intros; intro r h; cases h <;> rfl
theorem imulhi : ∀ c uns d a b, Statement (.imulhi c uns d a b) := by
  intros; intro r h; cases h <;> rfl
theorem imad : ∀ c d a b, Statement (.imad c d a b) := by
  intros; intro r h; cases h <;> rfl
theorem idiv : ∀ c uns d a b, Statement (.idiv c uns d a b) := by
  intros; intro r h; cases h <;> rfl
theorem irem : ∀ c uns d a b, Statement (.irem c uns d a b) := by
  intros; intro r h; cases h <;> rfl
theorem imin : ∀ c uns d a b, Statement (.imin c uns d a b) := by
  intros; intro r h; cases h <;> rfl
theorem imax : ∀ c uns d a b, Statement (.imax c uns d a b) := by
  intros; intro r h; cases h <;> rfl
theorem iabs : ∀ c d a, Statement (.iabs c d a) := by
  intros; intro r h; cases h <;> rfl
theorem and : ∀ c d a b, Statement (.and c d a b) := by
  intros; intro r h; cases h <;> rfl
theorem or : ∀ c d a b, Statement (.or c d a b) := by
  intros; intro r h; cases h <;> rfl
theorem xor : ∀ c d a b, Statement (.xor c d a b) := by
  intros; intro r h; cases h <;> rfl
theorem not : ∀ c d a, Statement (.not c d a) := by
  intros; intro r h; cases h <;> rfl
theorem shl : ∀ c d a b, Statement (.shl c d a b) := by
  intros; intro r h; cases h <;> rfl
theorem shr : ∀ c uns d a b, Statement (.shr c uns d a b) := by
  intros; intro r h; cases h <;> rfl
theorem popc : ∀ c d a, Statement (.popc c d a) := by
  intros; intro r h; cases h <;> rfl
theorem clz : ∀ c d a, Statement (.clz c d a) := by
  intros; intro r h; cases h <;> rfl
theorem brev : ∀ c d a, Statement (.brev c d a) := by
  intros; intro r h; cases h <;> rfl
theorem bfe : ∀ c uns d a b, Statement (.bfe c uns d a b) := by
  intros; intro r h; cases h <;> rfl
theorem bfi : ∀ c d a b, Statement (.bfi c d a b) := by
  intros; intro r h; cases h <;> rfl
theorem sel : ∀ c p d a b, Statement (.sel c p d a b) := by
  intros; intro r h; cases h <;> rfl
theorem fadd : ∀ c rnd d a b, Statement (.fadd c rnd d a b) := by
  intros; intro r h; cases h <;> rfl
theorem fsub : ∀ c rnd d a b, Statement (.fsub c rnd d a b) := by
  intros; intro r h; cases h <;> rfl
theorem fmul : ∀ c rnd d a b, Statement (.fmul c rnd d a b) := by
  intros; intro r h; cases h <;> rfl
theorem ffma : ∀ c rnd d a b, Statement (.ffma c rnd d a b) := by
  intros; intro r h; cases h <;> rfl
theorem fmin : ∀ c d a b, Statement (.fmin c d a b) := by
  intros; intro r h; cases h <;> rfl
theorem fmax : ∀ c d a b, Statement (.fmax c d a b) := by
  intros; intro r h; cases h <;> rfl
theorem fabs : ∀ c d a, Statement (.fabs c d a) := by
  intros; intro r h; cases h <;> rfl
theorem fneg : ∀ c d a, Statement (.fneg c d a) := by
  intros; intro r h; cases h <;> rfl
theorem pkadd : ∀ c rnd bf d a b, Statement (.pkadd c rnd bf d a b) := by
  intros; intro r h; cases h <;> rfl
theorem pkmul : ∀ c rnd bf d a b, Statement (.pkmul c rnd bf d a b) := by
  intros; intro r h; cases h <;> rfl
theorem pkfma : ∀ c rnd bf d a b, Statement (.pkfma c rnd bf d a b) := by
  intros; intro r h; cases h <;> rfl
theorem pkmin : ∀ c bf d a b, Statement (.pkmin c bf d a b) := by
  intros; intro r h; cases h <;> rfl
theorem pkmax : ∀ c bf d a b, Statement (.pkmax c bf d a b) := by
  intros; intro r h; cases h <;> rfl
theorem cvt : ∀ c code rnd d a, Statement (.cvt c code rnd d a) := by
  intros; intro r h; cases h <;> rfl
theorem cvt8 : ∀ c rnd sat d a ctl, Statement (.cvt8 c rnd sat d a ctl) := by
  intro c rnd sat d a ctl; cases rnd <;> (intro r h; cases h <;> rfl)
theorem cvtf8 : ∀ c rnd d a ctl, Statement (.cvtf8 c rnd d a ctl) := by
  intros; intro r h; cases h <;> rfl
theorem sfu : ∀ c fn d a, Statement (.sfu c fn d a) := by
  intros; intro r h; cases h <;> rfl
theorem iset : ∀ c rel uns p a b, Statement (.iset c rel uns p a b) := by
  intros; intro r h; cases h <;> rfl
theorem fset : ∀ c rel p a b, Statement (.fset c rel p a b) := by
  intros; intro r h; cases h <;> rfl
theorem plop : ∀ c tt d a b, Statement (.plop c tt d a b) := by
  intros; intro r h; cases h <;> rfl
theorem pmov : ∀ c d, Statement (.pmov c d) := by
  intros; intro r h; cases h <;> rfl
theorem pmovP : ∀ c a, Statement (.pmovP c a) := by
  intros; intro r h; cases h <;> rfl
theorem shfl : ∀ c mode pr d a b, Statement (.shfl c mode pr d a b) := by
  intros; intro r h; cases h <;> rfl
theorem agree : ∀ c mode sense d a, Statement (.agree c mode sense d a) := by
  intros; intro r h; cases h <;> rfl
theorem ballot : ∀ c sense d a, Statement (.ballot c sense d a) := by
  intros; intro r h; cases h <;> rfl
theorem remap : ∀ c d a, Statement (.remap c d a) := by
  intros; intro r h; cases h <;> rfl
theorem xwin : ∀ c x base len, Statement (.xwin c x base len) := by
  intros; intro r h; cases h <;> rfl
theorem xset : ∀ c x a, Statement (.xset c x a) := by
  intros; intro r h; cases h <;> rfl
theorem msr : ∀ c sp a, Statement (.msr c sp a) := by
  intro c sp a; cases sp <;> (intro r h; cases h <;> rfl)
theorem ld : ∀ c mode d a disp, Statement (.ld c mode d a disp) := by
  intros; intro r h; cases h <;> rfl
theorem st : ∀ c mode d a disp, Statement (.st c mode d a disp) := by
  intros; intro r h; cases h <;> rfl
theorem ldl : ∀ c mode d a disp, Statement (.ldl c mode d a disp) := by
  intros; intro r h; cases h <;> rfl
theorem stl : ∀ c mode d a disp, Statement (.stl c mode d a disp) := by
  intros; intro r h; cases h <;> rfl
theorem pref : ∀ c lvl a disp, Statement (.pref c lvl a disp) := by
  intros; intro r h; cases h <;> rfl
theorem fence : ∀ c sc, Statement (.fence c sc) := by
  intros; intro r h; cases h <;> rfl
theorem clean : ∀ c a count, Statement (.clean c a count) := by
  intros; intro r h; cases h <;> rfl
theorem inval : ∀ c a count, Statement (.inval c a count) := by
  intros; intro r h; cases h <;> rfl
theorem atom : ∀ c op d a b, Statement (.atom c op d a b) := by
  intros; intro r h; cases h <;> rfl
theorem acas : ∀ c exch ord d a b, Statement (.acas c exch ord d a b) := by
  intros; intro r h; cases h <;> rfl
theorem redM : ∀ c op fmt a b, Statement (.redM c op fmt a b) := by
  intros; intro r h; cases h <;> rfl
theorem redC : ∀ c sz a b, Statement (.redC c sz a b) := by
  intros; intro r h; cases h <;> rfl
theorem clk : ∀ c d, Statement (.clk c d) := by
  intros; intro r h; cases h <;> rfl
theorem sts : ∀ c b64 d a b, Statement (.sts c b64 d a b) := by
  intros; intro r h; cases h <;> rfl
theorem ldas : ∀ c pr b64 d a b, Statement (.ldas c pr b64 d a b) := by
  intros; intro r h; cases h <;> rfl
theorem cwait : ∀ c a, Statement (.cwait c a) := by
  intros; intro r h; cases h <;> rfl
theorem bara : ∀ c bar d, Statement (.bara c bar d) := by
  intros; intro r h; cases h <;> rfl
theorem barw : ∀ c bar a, Statement (.barw c bar a) := by
  intros; intro r h; cases h <;> rfl
theorem tdclr : ∀ c d a, Statement (.tdclr c d a) := by
  intros; intro r h; cases h <;> rfl
theorem mma : ∀ c start d a, Statement (.mma c start d a) := by
  intros; intro r h; cases h <;> rfl
theorem mmaA : ∀ c start d a, Statement (.mmaA c start d a) := by
  intros; intro r h; cases h <;> rfl
theorem mmaS : ∀ c start tag d a b, Statement (.mmaS c start tag d a b) := by
  intros; intro r h; cases h <;> rfl
theorem mcommit : ∀ c batch, Statement (.mcommit c batch) := by
  intros; intro r h; cases h <;> rfl
theorem mwait : ∀ c batch, Statement (.mwait c batch) := by
  intros; intro r h; cases h <;> rfl
theorem accz : ∀ c bank count, Statement (.accz c bank count) := by
  intros; intro r h; cases h <;> rfl
theorem accld : ∀ c raw bank a ctl, Statement (.accld c raw bank a ctl) := by
  intros; intro r h; cases h <;> rfl
theorem accst : ∀ c kind clr bank a ctl, Statement (.accst c kind clr bank a ctl) := by
  intros; intro r h; cases h <;> rfl
theorem accfold : ∀ c bank count, Statement (.accfold c bank count) := by
  intros; intro r h; cases h <;> rfl
theorem shcommit : ∀ c tag, Statement (.shcommit c tag) := by
  intros; intro r h; cases h <;> rfl
theorem shdrop : ∀ c tag, Statement (.shdrop c tag) := by
  intros; intro r h; cases h <;> rfl
theorem cpy : ∀ c q route d a b, Statement (.cpy c q route d a b) := by
  intros; intro r h; cases h <;> rfl
theorem cpys : ∀ c q route d a b, Statement (.cpys c q route d a b) := by
  intros; intro r h; cases h <;> rfl
theorem cpyx : ∀ c q route d a b, Statement (.cpyx c q route d a b) := by
  intros; intro r h; cases h <;> rfl
theorem qfence : ∀ c mask, Statement (.qfence c mask) := by
  intros; intro r h; cases h <;> rfl
theorem seqrd : ∀ c q kind d, Statement (.seqrd c q kind d) := by
  intros; intro r h; cases h <;> rfl
theorem seqwait : ∀ c q a, Statement (.seqwait c q a) := by
  intros; intro r h; cases h <;> rfl
theorem stinit : ∀ c d a, Statement (.stinit c d a) := by
  intros; intro r h; cases h <;> rfl
theorem starr : ∀ c d, Statement (.starr c d) := by
  intros; intro r h; cases h <;> rfl
theorem stwait : ∀ c a, Statement (.stwait c a) := by
  intros; intro r h; cases h <;> rfl
theorem hrev : ∀ c d a, Statement (.hrev c d a) := by
  intros; intro r h; cases h <;> rfl
theorem mgath : ∀ c q g sum a, Statement (.mgath c q g sum a) := by
  intros; intro r h; cases h <;> rfl
theorem mconvCvt : ∀ c q a, Statement (.mconvCvt c q a) := by
  intros; intro r h; cases h <;> rfl
theorem mconvStripe : ∀ c q a, Statement (.mconvStripe c q a) := by
  intros; intro r h; cases h <;> rfl
theorem mxv : ∀ c q a, Statement (.mxv c q a) := by
  intros; intro r h; cases h <;> rfl
theorem mseqwait : ∀ c q a, Statement (.mseqwait c q a) := by
  intros; intro r h; cases h <;> rfl
theorem mrstat : ∀ c q kind d, Statement (.mrstat c q kind d) := by
  intros; intro r h; cases h <;> rfl
theorem npost : ∀ c q a, Statement (.npost c q a) := by
  intros; intro r h; cases h <;> rfl
theorem ncnt : ∀ c err d a, Statement (.ncnt c err d a) := by
  intros; intro r h; cases h <;> rfl
theorem nwait : ∀ c a b, Statement (.nwait c a b) := by
  intros; intro r h; cases h <;> rfl
theorem rngpeek : ∀ c d a, Statement (.rngpeek c d a) := by
  intros; intro r h; cases h <;> rfl
theorem rngadv : ∀ c d a b, Statement (.rngadv c d a b) := by
  intros; intro r h; cases h <;> rfl
theorem rngstatPeek : ∀ c d a, Statement (.rngstatPeek c d a) := by
  intros; intro r h; cases h <;> rfl
theorem rngstatReset : ∀ c d a, Statement (.rngstatReset c d a) := by
  intros; intro r h; cases h <;> rfl
theorem nqfence : ∀ c a, Statement (.nqfence c a) := by
  intros; intro r h; cases h <;> rfl
theorem spawn : ∀ c d a, Statement (.spawn c d a) := by
  intros; intro r h; cases h <;> rfl
theorem spawnr : ∀ c rangel d a b, Statement (.spawnr c rangel d a b) := by
  intros; intro r h; cases h <;> rfl
theorem joindec : ∀ c a, Statement (.joindec c a) := by
  intros; intro r h; cases h <;> rfl
theorem exit : ∀ c, Statement (.exit c) := by
  intros; intro r h; cases h <;> rfl
theorem exitJ : ∀ c a, Statement (.exitJ c a) := by
  intros; intro r h; cases h <;> rfl
theorem exitK : ∀ c, Statement (.exitK c) := by
  intros; intro r h; cases h <;> rfl
theorem yieldTeam : ∀ c d, Statement (.yieldTeam c d) := by
  intros; intro r h; cases h <;> rfl
theorem tret : ∀ c, Statement (.tret c) := by
  intros; intro r h; cases h <;> rfl
theorem tretSkip : ∀ c, Statement (.tretSkip c) := by
  intros; intro r h; cases h <;> rfl
theorem wfld : ∀ c f d, Statement (.wfld c f d) := by
  intros; intro r h; cases h <;> rfl
theorem claim : ∀ c a, Statement (.claim c a) := by
  intros; intro r h; cases h <;> rfl
theorem take : ∀ c a, Statement (.take c a) := by
  intros; intro r h; cases h <;> rfl
theorem taket : ∀ c d a, Statement (.taket c d a) := by
  intros; intro r h; cases h <;> rfl
theorem give : ∀ c a, Statement (.give c a) := by
  intros; intro r h; cases h <;> rfl
theorem giveall : ∀ c, Statement (.giveall c) := by
  intros; intro r h; cases h <;> rfl
theorem hold : ∀ c k d, Statement (.hold c k d) := by
  intros; intro r h; cases h <;> rfl
theorem smov : ∀ c d a, Statement (.smov c d a) := by
  intro c d a; cases a <;> (intro r h; cases h <;> rfl)
theorem smovh : ∀ c d v, Statement (.smovh c d v) := by
  intros; intro r h; cases h <;> rfl
theorem sadd : ∀ c d a b, Statement (.sadd c d a b) := by
  intros; intro r h; cases h <;> rfl
theorem ssub : ∀ c d a b, Statement (.ssub c d a b) := by
  intros; intro r h; cases h <;> rfl
theorem smul : ∀ c d a b, Statement (.smul c d a b) := by
  intros; intro r h; cases h <;> rfl
theorem smulhi : ∀ c uns d a b, Statement (.smulhi c uns d a b) := by
  intros; intro r h; cases h <;> rfl
theorem sdiv : ∀ c uns d a b, Statement (.sdiv c uns d a b) := by
  intros; intro r h; cases h <;> rfl
theorem srem : ∀ c uns d a b, Statement (.srem c uns d a b) := by
  intros; intro r h; cases h <;> rfl
theorem smin : ∀ c uns d a b, Statement (.smin c uns d a b) := by
  intros; intro r h; cases h <;> rfl
theorem smax : ∀ c uns d a b, Statement (.smax c uns d a b) := by
  intros; intro r h; cases h <;> rfl
theorem sand : ∀ c d a b, Statement (.sand c d a b) := by
  intros; intro r h; cases h <;> rfl
theorem sor : ∀ c d a b, Statement (.sor c d a b) := by
  intros; intro r h; cases h <;> rfl
theorem sxor : ∀ c d a b, Statement (.sxor c d a b) := by
  intros; intro r h; cases h <;> rfl
theorem sshl : ∀ c d a b, Statement (.sshl c d a b) := by
  intros; intro r h; cases h <;> rfl
theorem sshr : ∀ c uns d a b, Statement (.sshr c uns d a b) := by
  intros; intro r h; cases h <;> rfl
theorem spopc : ∀ c d a, Statement (.spopc c d a) := by
  intros; intro r h; cases h <;> rfl
theorem sclz : ∀ c d a, Statement (.sclz c d a) := by
  intros; intro r h; cases h <;> rfl
theorem ssel : ∀ c q d a b, Statement (.ssel c q d a b) := by
  intros; intro r h; cases h <;> rfl
theorem sset : ∀ c rel uns q a b, Statement (.sset c rel uns q a b) := by
  intros; intro r h; cases h <;> rfl
theorem qlop : ∀ c tt d a b, Statement (.qlop c tt d a b) := by
  intros; intro r h; cases h <;> rfl
theorem sbr : ∀ c off, Statement (.sbr c off) := by
  intro c off; cases off <;> (intro r h; cases h <;> rfl)
theorem sbrx : ∀ c a table, Statement (.sbrx c a table) := by
  intros; intro r h; cases h <;> rfl
theorem scall : ∀ c d t, Statement (.scall c d t) := by
  intro c d t; cases t <;> (intro r h; cases h <;> rfl)
theorem sret : ∀ c a, Statement (.sret c a) := by
  intros; intro r h; cases h <;> rfl
theorem dqpush : ∀ c a, Statement (.dqpush c a) := by
  intro c a; cases a <;> (intro r h; cases h <;> rfl)
theorem wwaitDq : ∀ c, Statement (.wwaitDq c) := by
  intros; intro r h; cases h <;> rfl
theorem wwaitExit : ∀ c d a, Statement (.wwaitExit c d a) := by
  intros; intro r h; cases h <;> rfl
theorem svc : ∀ c d a n, Statement (.svc c d a n) := by
  intros; intro r h; cases h <;> rfl
theorem svcp : ∀ c d a n, Statement (.svcp c d a n) := by
  intros; intro r h; cases h <;> rfl
theorem trap : ∀ c code a, Statement (.trap c code a) := by
  intros; intro r h; cases h <;> rfl
theorem brk : ∀ c v, Statement (.brk c v) := by
  intros; intro r h; cases h <;> rfl
theorem tdmask : ∀ c k d, Statement (.tdmask c k d) := by
  intros; intro r h; cases h <;> rfl
theorem reservedOpcodeIssue : ∀ w, Statement (.reservedOpcodeIssue w) := by
  intros; intro r h; cases h <;> rfl
theorem speculationResolve : ∀ tag, Statement (.speculationResolve tag) := by
  intros; intro r h; cases h <;> rfl
theorem drain : ∀ acc, Statement (.drain acc) := by
  intros; intro r h; cases h <;> rfl
theorem commit : ∀ acc, Statement (.commit acc) := by
  intros; intro r h; cases h <;> rfl
theorem transit : ∀ acc, Statement (.transit acc) := by
  intros; intro r h; cases h <;> rfl
theorem serve : ∀ line, Statement (.serve line) := by
  intros; intro r h; cases h <;> rfl
theorem load : ∀ acc, Statement (.load acc) := by
  intros; intro r h; cases h <;> rfl
theorem expire : ∀ die line, Statement (.expire die line) := by
  intros; intro r h; cases h <;> rfl
theorem beginEntry : ∀ id, Statement (.beginEntry id) := by
  intros; intro r h; cases h <;> rfl
theorem completeEntry : ∀ id, Statement (.completeEntry id) := by
  intros; intro r h; cases h <;> rfl
theorem baseop : ∀ stack, Statement (.baseop stack) := by
  intros; intro r h; cases h <;> rfl
theorem append : ∀ die hw body, Statement (.append die hw body) := by
  intros; intro r h; cases h <;> rfl
theorem deliver : ∀ die, Statement (.deliver die) := by
  intros; intro r h; cases h <;> rfl
theorem requestRefusedRetry : ∀ acc, Statement (.requestRefusedRetry acc) := by
  intros; intro r h; cases h <;> rfl
theorem windrowEvict : ∀ die slice line, Statement (.windrowEvict die slice line) := by
  intros; intro r h; cases h <;> rfl
theorem partialCombine : ∀ die line, Statement (.partialCombine die line) := by
  intros; intro r h; cases h <;> rfl
theorem writeback : ∀ die line, Statement (.writeback die line) := by
  intros; intro r h; cases h <;> rfl
theorem swmCopyDrop : ∀ die line, Statement (.swmCopyDrop die line) := by
  intros; intro r h; cases h <;> rfl
theorem replicaWrite : ∀ acc, Statement (.replicaWrite acc) := by
  intros; intro r h; cases h <;> rfl
theorem translationWalkEnd : ∀ die ctx page, Statement (.translationWalkEnd die ctx page) := by
  intros; intro r h; cases h <;> rfl
theorem hamperScan : ∀ die, Statement (.hamperScan die) := by
  intros; intro r h; cases h <;> rfl
theorem preempt : ∀ die, Statement (.preempt die) := by
  intros; intro r h; cases h <;> rfl
theorem blockEnd : ∀ blk, Statement (.blockEnd blk) := by
  intros; intro r h; cases h <;> rfl
theorem prioRaise : ∀ die ctx team prio, Statement (.prioRaise die ctx team prio) := by
  intros; intro r h; cases h <;> rfl
theorem matrixOpfault : ∀ entry addr aux, Statement (.matrixOpfault entry addr aux) := by
  intros; intro r h; cases h <;> rfl
theorem zeroingDone : ∀ core, Statement (.zeroingDone core) := by
  intros; intro r h; cases h <;> rfl
theorem retransmit : ∀ entry pkt, Statement (.retransmit entry pkt) := by
  intros; intro r h; cases h <;> rfl
theorem packetAck : ∀ entry pkt ok, Statement (.packetAck entry pkt ok) := by
  intros; intro r h; cases h <;> rfl
theorem packetReceive : ∀ die p, Statement (.packetReceive die p) := by
  intros; intro r h; cases h <;> rfl
theorem sendReceive : ∀ die p, Statement (.sendReceive die p) := by
  intros; intro r h; cases h <;> rfl
theorem uudPlacementTimeout : ∀ die conn msg, Statement (.uudPlacementTimeout die conn msg) := by
  intros; intro r h; cases h <;> rfl
theorem frameReceive : ∀ die f, Statement (.frameReceive die f) := by
  intros; intro r h; cases h <;> rfl
theorem timeUpdate : ∀ die earliest latest, Statement (.timeUpdate die earliest latest) := by
  intros; intro r h; cases h <;> rfl
theorem holdover : ∀ die, Statement (.holdover die) := by
  intros; intro r h; cases h <;> rfl
theorem barrierArrivalAccept : ∀ acc, Statement (.barrierArrivalAccept acc) := by
  intros; intro r h; cases h <;> rfl
theorem barrierRelease : ∀ bar, Statement (.barrierRelease bar) := by
  intros; intro r h; cases h <;> rfl
theorem barrierReset : ∀ bar, Statement (.barrierReset bar) := by
  intros; intro r h; cases h <;> rfl
theorem replyWrite : ∀ die tag value denied, Statement (.replyWrite die tag value denied) := by
  intros; intro r h; cases h <;> rfl
theorem svcForward : ∀ blk resume, Statement (.svcForward blk resume) := by
  intros; intro r h; cases h <;> rfl
theorem svcMap : ∀ die, Statement (.svcMap die) := by
  intros; intro r h; cases h <;> rfl
theorem svcUnmap : ∀ die, Statement (.svcUnmap die) := by
  intros; intro r h; cases h <;> rfl
theorem cmdQuota : ∀ die, Statement (.cmdQuota die) := by
  intros; intro r h; cases h <;> rfl
theorem cmdFuse : ∀ die, Statement (.cmdFuse die) := by
  intros; intro r h; cases h <;> rfl
theorem cmdPlace : ∀ die, Statement (.cmdPlace die) := by
  intros; intro r h; cases h <;> rfl
theorem cmdMap : ∀ die, Statement (.cmdMap die) := by
  intros; intro r h; cases h <;> rfl
theorem cmdUnmap : ∀ die, Statement (.cmdUnmap die) := by
  intros; intro r h; cases h <;> rfl
theorem cmdRegion : ∀ die, Statement (.cmdRegion die) := by
  intros; intro r h; cases h <;> rfl
theorem cmdCommdecl : ∀ die, Statement (.cmdCommdecl die) := by
  intros; intro r h; cases h <;> rfl
theorem cmdKeyload : ∀ die, Statement (.cmdKeyload die) := by
  intros; intro r h; cases h <;> rfl
theorem cmdBarset : ∀ die, Statement (.cmdBarset die) := by
  intros; intro r h; cases h <;> rfl
theorem cmdHandover : ∀ die, Statement (.cmdHandover die) := by
  intros; intro r h; cases h <;> rfl
theorem cmdCoreoff : ∀ die, Statement (.cmdCoreoff die) := by
  intros; intro r h; cases h <;> rfl
theorem cmdCoreon : ∀ die, Statement (.cmdCoreon die) := by
  intros; intro r h; cases h <;> rfl
theorem cmdRehome : ∀ die, Statement (.cmdRehome die) := by
  intros; intro r h; cases h <;> rfl
theorem cmdCheckpoint : ∀ die, Statement (.cmdCheckpoint die) := by
  intros; intro r h; cases h <;> rfl
theorem inv : ∀ die, Statement (.inv die) := by
  intros; intro r h; cases h <;> rfl
theorem ack : ∀ die initiator gen, Statement (.ack die initiator gen) := by
  intros; intro r h; cases h <;> rfl
theorem commitMsg : ∀ die, Statement (.commitMsg die) := by
  intros; intro r h; cases h <;> rfl
theorem diedown : ∀ die, Statement (.diedown die) := by
  intros; intro r h; cases h <;> rfl
theorem fenced : ∀ die target, Statement (.fenced die target) := by
  intros; intro r h; cases h <;> rfl
theorem dieup : ∀ x, Statement (.dieup x) := by
  intros; intro r h; cases h <;> rfl
theorem elect : ∀ die, Statement (.elect die) := by
  intros; intro r h; cases h <;> rfl
theorem halt : ∀ die cluster set, Statement (.halt die cluster set) := by
  intros; intro r h; cases h <;> rfl
theorem throtClear : ∀ die, Statement (.throtClear die) := by
  intros; intro r h; cases h <;> rfl
theorem registerWrite : ∀ die addr value, Statement (.registerWrite die addr value) := by
  intros; intro r h; cases h <;> rfl
theorem clockStepDown : ∀ pmod tj, Statement (.clockStepDown pmod tj) := by
  intros; intro r h; cases h <;> rfl
theorem clockStepUp : ∀ pmod tj, Statement (.clockStepUp pmod tj) := by
  intros; intro r h; cases h <;> rfl
theorem overtempReset : ∀ die tj, Statement (.overtempReset die tj) := by
  intros; intro r h; cases h <;> rfl
theorem powerGood : ∀ x, Statement (.powerGood x) := by
  intros; intro r h; cases h <;> rfl
theorem packageReset : Statement .packageReset := by
  intro r h; cases h
theorem dieReset : ∀ die, Statement (.dieReset die) := by
  intros; intro r h; cases h <;> rfl
theorem getVersion : ∀ die side, Statement (.getVersion die side) := by
  intros; intro r h; cases h <;> rfl
theorem getCapabilities : ∀ die side, Statement (.getCapabilities die side) := by
  intros; intro r h; cases h <;> rfl
theorem negotiateAlgorithms : ∀ die side, Statement (.negotiateAlgorithms die side) := by
  intros; intro r h; cases h <;> rfl
theorem getDigests : ∀ die side, Statement (.getDigests die side) := by
  intros; intro r h; cases h <;> rfl
theorem getCertificate : ∀ die side, Statement (.getCertificate die side) := by
  intros; intro r h; cases h <;> rfl
theorem challenge : ∀ die side, Statement (.challenge die side) := by
  intros; intro r h; cases h <;> rfl
theorem getMeasurements : ∀ die side, Statement (.getMeasurements die side) := by
  intros; intro r h; cases h <;> rfl
theorem keyExchange : ∀ die side, Statement (.keyExchange die side) := by
  intros; intro r h; cases h <;> rfl
theorem finish : ∀ die side session, Statement (.finish die side session) := by
  intros; intro r h; cases h <;> rfl
theorem endSession : ∀ die side session, Statement (.endSession die side session) := by
  intros; intro r h; cases h <;> rfl
theorem heartbeat : ∀ die side session, Statement (.heartbeat die side session) := by
  intros; intro r h; cases h <;> rfl
theorem spdmUnsupported : ∀ die side code, Statement (.spdmUnsupported die side code) := by
  intros; intro r h; cases h <;> rfl
theorem inboundWrite : ∀ die fn pa keyid data, Statement (.inboundWrite die fn pa keyid data) := by
  intros; intro r h; cases h <;> rfl
theorem inboundRead : ∀ die fn pa keyid n, Statement (.inboundRead die fn pa keyid n) := by
  intros; intro r h; cases h <;> rfl
theorem inboundRefused : ∀ die fn pa atomic, Statement (.inboundRefused die fn pa atomic) := by
  intros; intro r h; cases h <;> rfl
theorem cxlExpanderLost : ∀ die window, Statement (.cxlExpanderLost die window) := by
  intros; intro r h; cases h <;> rfl
theorem stampSurelyPast : ∀ aid, Statement (.stampSurelyPast aid) := by
  intros; intro r h; cases h <;> rfl
theorem readPacketReceive : ∀ die p len, Statement (.readPacketReceive die p len) := by
  intros; intro r h; cases h <;> rfl
theorem handleGenRaise : ∀ die ctx slot, Statement (.handleGenRaise die ctx slot) := by
  intros; intro r h; cases h <;> rfl
theorem packageUnpowered : Statement .packageUnpowered := by
  intro r h; cases h
theorem mctpMessageDiscard : ∀ ty, Statement (.mctpMessageDiscard ty) := by
  intros; intro r h; cases h <;> rfl
theorem linkTraining : ∀ die port ends, Statement (.linkTraining die port ends) := by
  intros; intro r h; cases h <;> rfl
theorem privilegedWindowRead : ∀ die addr, Statement (.privilegedWindowRead die addr) := by
  intros; intro r h; cases h <;> rfl
theorem memoryKeyLoad : ∀ via k, Statement (.memoryKeyLoad via k) := by
  intros; intro r h; cases h <;> rfl
theorem contextMarkedConf : ∀ via x, Statement (.contextMarkedConf via x) := by
  intros; intro r h; cases h <;> rfl
theorem contextTeardown : ∀ die ctx, Statement (.contextTeardown die ctx) := by
  intros; intro r h; cases h <;> rfl

end Sys2Proof.Laws.Opcode
end

