-- ==== Sys2Proof/Laws/Retire.lean ====
section
/-!
SUPPORT. What results do when they take effect: writes of registers, settling, and the block that a fixed-latency instruction leaves.
-/
namespace Sys2Proof.Machine

/-- A cell write keeps the number of threads. -/
theorem putCell_len (b : Block) (c : Cell) (x) : (b.putCell c x).threads.length = b.threads.length := by
  cases c <;> simp [Block.putCell]
  split <;> rfl

theorem putCells_len (cs) : ∀ (b : Block), (b.putCells cs).threads.length = b.threads.length := by
  induction cs with
  | nil => intro b; rfl
  | cons p t ih => intro b; obtain ⟨c, x⟩ := p; rw [Block.putCells, ih, putCell_len]

theorem settle_len (clk all) : ∀ (l d) (b : Block), (settleList clk all b d l).1.threads.length = b.threads.length := by
  intro l
  induction l with
  | nil => intro d b; rfl
  | cons p t ih =>
    intro d b; rw [settleList]
    split
    · rw [ih, putCells_len]
    · rw [ih]

/-- Settling a list of results that has one more at its end. -/
theorem settle_append (clk) : ∀ (l d) (b : Block) (p : Pend), 
   settleList clk false b d (l ++ [p]) = 
     settleList clk false (settleList clk false b d l).1 (settleList clk false b d l).2 [p] := by
  intro l
  induction l with
  | nil => intro d b p; rfl
  | cons q t ih =>
    intro d b p
    rw [List.cons_append, settleList, ih]
    rw [ih]
    conv_rhs => rw [settleList.eq_def clk false b d (q :: t)]
    dsimp only
    split <;> rfl

/-- What a write of a V register does to every thread. -/
theorem putCell_v (b : Block) (t n x u) : (b.putCell (.v t n) x).thread u = if t = u ∧ t < b.threads.length then ((b.thread t).putV n (BitVec.ofNat 32 x)).clearDead n else b.thread u := by
  simp only [Block.putCell, thread_modThread]

/-- A V register reads what was written to it, and another register what it held. -/
theorem getV_putV (t : Thread) (n : Nat) (x : Word32) : (t.putV n x).getV n = x := by
  simp only [Thread.putV, Thread.getV, agetD]
  split
  · rename_i h; rw [aget_adel, h]; rfl
  · rw [aget_aset]; rfl

theorem getV_putV_ne (t : Thread) (n m : Nat) (x : Word32) (h : m ≠ n) : (t.putV n x).getV m = t.getV m := by
  simp only [Thread.putV, Thread.getV, agetD]; split
  · rw [aget_adel_ne h]
  · rw [aget_aset_ne _ h]

theorem getV_clear (t : Thread) (n m) : (t.clearDead n).getV m = t.getV m := rfl

theorem putCell_v_read (b : Block) (t n x u m) (h : (t, n) ≠ (u, m)) (hd : ((b.thread u).isDead m) = false) :
    ((b.putCell (.v t n) x).thread u).getV m = (b.thread u).getV m ∧ ((b.putCell (.v t n) x).thread u).isDead m = false := by
  rw [putCell_v]
  split
  · rename_i h1
    obtain ⟨rfl, h2⟩ := h1
    have hm : m ≠ n := by rintro rfl; exact h rfl
    rw [getV_clear, getV_putV_ne _ _ _ _ hm]
    refine ⟨rfl, ?_⟩
    simp only [Thread.isDead, Thread.clearDead, putV_dead] at hd ⊢
    simp only [List.contains_eq_mem, List.mem_filter, decide_eq_false_iff_not] at hd ⊢
    tauto
  · exact ⟨rfl, hd⟩

/-- Writes of V registers leave every other register as it was. -/
theorem putCells_other : ∀ (v : List (Nat × Nat × Word32)) (b : Block) (u m), (u, m) ∉ v.map (fun y => (y.1, y.2.1)) → ((b.thread u).isDead m) = false →
    ((b.putCells (vCells v)).thread u).getV m = (b.thread u).getV m ∧ ((b.putCells (vCells v)).thread u).isDead m = false := by
  intro v
  induction v with
  | nil => intro b u m h hd; exact ⟨rfl, hd⟩
  | cons y t ih =>
    intro b u m h hd
    simp only [List.map_cons, List.mem_cons, not_or] at h
    have h1 := putCell_v_read b y.1 y.2.1 y.2.2.toNat u m (fun h2 => h.1 h2.symm) hd
    have h2 := ih (b.putCell (.v y.1 y.2.1) y.2.2.toNat) u m h.2 h1.2
    simp only [vCells, List.map_cons, Block.putCells] at *
    exact ⟨h2.1.trans h1.1, h2.2⟩

/-- Writes of distinct V registers give each its value and clear its dead mark. -/
theorem putCells_val : ∀ (v : List (Nat × Nat × Word32)) (b : Block) (u m x), (v.map (fun y => (y.1, y.2.1))).Nodup → (u, m, x) ∈ v → u < b.threads.length →
    ((b.putCells (vCells v)).thread u).getV m = x ∧ ((b.putCells (vCells v)).thread u).isDead m = false := by
  intro v
  induction v with
  | nil => intro b u m x _ h; exact absurd h (by simp)
  | cons y t ih =>
    intro b u m x hn h hl
    simp only [List.map_cons, List.nodup_cons] at hn
    rcases List.mem_cons.mp h with h | h
    · subst h
      have h1 : ((b.putCell (.v u m) x.toNat).thread u).getV m = x ∧ ((b.putCell (.v u m) x.toNat).thread u).isDead m = false := by
        rw [putCell_v, if_pos ⟨rfl, hl⟩, getV_clear, getV_putV]
        simp
      have h2 := putCells_other t (b.putCell (.v u m) x.toNat) u m hn.1 h1.2
      simp only [vCells, List.map_cons, Block.putCells] at *
      exact ⟨h2.1.trans h1.1, h2.2⟩
    · have := ih (b.putCell (.v y.1 y.2.1) y.2.2.toNat) u m x hn.2 h (by rw [putCell_len]; exact hl)
      simpa only [vCells, List.map_cons, Block.putCells] using this

theorem bypFind_mem : ∀ (v : List (Nat × Nat × Word32)) (u m x), (v.map (fun y => (y.1, y.2.1))).Nodup → (u, m, x) ∈ v → 
   (v.find? fun y => y.1 == u && y.2.1 == m) = some (u, m, x) := by
  intro v
  induction v with
  | nil => intro u m x _ h; exact absurd h (by simp)
  | cons y t ih =>
    intro u m x hn h
    simp only [List.map_cons, List.nodup_cons] at hn
    rcases List.mem_cons.mp h with h | h
    · subst h; simp
    · rw [List.find?_cons_of_neg, ih u m x hn.2 h]
      intro hc
      simp only [Bool.and_eq_true, beq_iff_eq] at hc
      exact hn.1 (List.mem_map.mpr ⟨(u,m,x), h, by simp [hc.1, hc.2]⟩)

theorem settle_thread (b : Block) (w : Warp) (t) : (settle b w).1.thread t = (settleList w.clock false b [] w.pend).1.thread t := by
  simp [settle]

/-- The block that a fixed-latency instruction leaves: its marks, its pending results, its bypass entry, and the warp moved on (R85, R86, R143). -/
theorem retire_block (e : WEnv) (i lat) (v) (b : Block) (h : (retireFixed e i lat ⟨v, []⟩).block e.b.id = some b)
   (hw : writesV i = true) (ht : isTransient i = false) (hv : v ≠ []) :
   b = (killMarks e.b e.eff i).setWarp
     { e.w with pend := e.w.pend ++ [⟨e.w.clock + lat, vCells v⟩], byp := (⟨e.w.clock + lat, v, false⟩ :: e.w.byp).take 3, pc := e.w.pc + 12, clock := e.w.clock + stallN e.c, since := min 3 (e.w.since + 1), wait := .none, waive := false } := by
  unfold retireFixed at h
  simp only [hw, ht, List.append_nil, Bool.false_eq_true, if_false, if_true] at h
  have hne : (vCells v).isEmpty = false := by cases v with | nil => exact absurd rfl hv | cons => rfl
  simp only [hne, Bool.false_eq_true, if_false] at h
  unfold WEnv.put at h
  have := block_setBlock e.s ((killMarks e.b e.eff i).setWarp (Warp.advance (Warp.pushByp { e.w with pend := e.w.pend ++ [⟨e.w.clock + lat, vCells v⟩] } ⟨e.w.clock + lat, v, false⟩) e.c))
  rw [setWarp_id, killMarks_id] at this
  rw [this] at h
  exact (Option.some.inj h).symm

/-- A property of blocks that every cell write keeps is kept by settling. -/
theorem putCells_keeps {P : Block → Prop} (h : ∀ x c n, P x → P (x.putCell c n)) (l) : ∀ b, P b → P (b.putCells l) := by
  induction l with
  | nil => intro b h; exact h
  | cons p t ih => intro b hb; exact ih _ (h _ _ _ hb)

theorem settleList_keeps {P : Block → Prop} (h : ∀ x c n, P x → P (x.putCell c n)) (clk all) (l) :
   ∀ b d, P b → P (settleList clk all b d l).1 := by
  induction l with
  | nil => intro b d hb; exact hb
  | cons p t ih =>
    intro b d hb
    rw [settleList]
    split
    · exact ih _ _ (putCells_keeps h _ _ hb)
    · exact ih _ _ hb

theorem settle_keeps {P : Block → Prop} (h : ∀ x c n, P x → P (x.putCell c n)) (h2 : ∀ x y, P x → P (x.setWarp y)) {b w} (hb : P b) :
   P (settle b w).1 := h2 _ _ (settleList_keeps h _ _ _ _ _ hb)

end Sys2Proof.Machine
end

