-- ==== Sys2Proof/Laws/Shared.lean ====
section
/-!
SUPPORT. What the shared operations do and leave alone: translation, fetching, accesses, queues, the end of an entry, the loss of a die.
-/
namespace Sys2Proof.Machine

/-- An abandoned TAKE changes nothing but the core it waited at. -/
theorem abandon_block (s : State) (b k) : (s.abandonTake b).block k = s.block k := by
  unfold State.abandonTake; split <;> rfl

theorem abandon_phys (s : State) (b) : (s.abandonTake b).phys = s.phys := by
  unfold State.abandonTake; split <;> rfl

theorem abandon_om (s : State) (b) : (s.abandonTake b).om = s.om := by
  unfold State.abandonTake; split <;> rfl

theorem abandon_dies (s : State) (b) : (s.abandonTake b).dies = s.dies := by
  unfold State.abandonTake; split <;> rfl

theorem abandon_next (s : State) (b) : (s.abandonTake b).nextId = s.nextId := by
  unfold State.abandonTake; split <;> rfl

/-- The address arithmetic of R209. -/
theorem addDisp_none (a : Nat) : addDisp a none = a % 2^54 := by
  simp [addDisp, dispOf]

theorem addDisp_some (a : Nat) (v : BitVec 19) : (addDisp a (some v) : Int) = ((a:Int) + v.toInt) % 2^54 := by
  have h : (((BitVec.ofNat 54 a + BitVec.ofInt 54 (dispOf (some v))).toNat : Nat) : Int) = ((a:Int) + v.toInt) % 2^54 := by
    rw [← BitVec.ofInt_natCast, ← BitVec.ofInt_add, BitVec.toNat_ofInt]
    simp only [dispOf]
    exact Int.toNat_of_nonneg (Int.emod_nonneg _ (by norm_num))
  exact h

theorem addr54_nat (lo hi : Word32) : (addr54 lo hi).toNat = (lo.toNat + 2^32 * hi.toNat) % 2^54 := by
  simp only [addr54, BitVec.toNat_append, BitVec.toNat_setWidth]
  rw [Nat.shiftLeft_eq, Nat.mul_comm, ← Nat.two_pow_add_eq_or_of_lt lo.isLt]
  have := lo.isLt; have := hi.isLt
  omega

/-- A translation changes no memory, no block and nothing of the ordering machine. -/
theorem xlate_keeps (aid die core ctx va) (s : State) : (s.xlate aid die core ctx va).1.phys = s.phys ∧ (s.xlate aid die core ctx va).1.task.blocks = s.task.blocks := by
  unfold State.xlate
  dsimp only
  split
  · exact ⟨rfl, rfl⟩
  · split
    · exact ⟨rfl, rfl⟩
    · split
      · cases core <;> exact ⟨rfl, rfl⟩
      · split
        · exact ⟨rfl, rfl⟩
        · split
          · exact ⟨rfl, rfl⟩
          · split <;> exact ⟨rfl, rfl⟩

theorem xlateAll_keeps (aid die core ctx) (vas : List Nat) : ∀ s : State, (s.xlateAll aid die core ctx vas).1.phys = s.phys ∧ (s.xlateAll aid die core ctx vas).1.task.blocks = s.task.blocks := by
  induction vas with
  | nil => intro s; exact ⟨rfl, rfl⟩
  | cons v t ih =>
    intro s; simp only [State.xlateAll]
    have := ih (s.xlate aid die core ctx v).1
    have h2 := xlate_keeps aid die core ctx v s
    exact ⟨this.1.trans h2.1, this.2.trans h2.2⟩

theorem xlate_om (aid die core ctx va) (s : State) : (s.xlate aid die core ctx va).1.om = s.om ∧ (s.xlate aid die core ctx va).1.actor = s.actor := by
  unfold State.xlate
  dsimp only
  split
  · exact ⟨rfl, rfl⟩
  · split
    · exact ⟨rfl, rfl⟩
    · split
      · cases core <;> exact ⟨rfl, rfl⟩
      · split
        · exact ⟨rfl, rfl⟩
        · split
          · exact ⟨rfl, rfl⟩
          · split <;> exact ⟨rfl, rfl⟩

theorem xlateAll_om (aid die core ctx) (vas : List Nat) : ∀ s : State, (s.xlateAll aid die core ctx vas).1.om = s.om ∧ (s.xlateAll aid die core ctx vas).1.actor = s.actor := by
  induction vas with
  | nil => intro s; exact ⟨rfl, rfl⟩
  | cons v t ih =>
    intro s; simp only [State.xlateAll]
    have := ih (s.xlate aid die core ctx v).1
    have h2 := xlate_om aid die core ctx v s
    exact ⟨this.1.trans h2.1, this.2.trans h2.2⟩

/-- The issuing agent depends on the agents, the blocks and the actor alone. -/
theorem issuer_congr {s t : State} (h1 : t.om = s.om) (h2 : t.actor = s.actor) (h3 : t.task.blocks = s.task.blocks) : t.issuer = s.issuer := by
  unfold State.issuer State.agent State.block; rw [h1, h2, h3]

/-- The touched-die mask is no part of what says who issues (R321). -/
theorem touch_issuer (s : State) (c d) : (s.touch c d).issuer = s.issuer := by
  unfold State.touch; split <;> rfl

theorem touches_issuer (c) : ∀ (l : List Nat) (s : State), (l.foldl (fun (t : State) d => t.touch c d) s).issuer = s.issuer := by
  intro l; induction l with
  | nil => intro s; rfl
  | cons d t ih => intro s; rw [List.foldl_cons, ih, touch_issuer]

/-- A fetch leaves the issuing agent as it is. -/
theorem fetch_issuer {s t : State} {aid b pc va n l} (h : s.fetch aid b pc va n = .ok (t, l)) : t.issuer = s.issuer := by
  unfold State.fetch at h
  dsimp only at h
  split at h
  · cases h
  · split at h
    · cases h
    · split at h
      · cases h
      · cases h
        have h1 := xlateAll_om aid b.die (some b.gcore) b.ctx ((dedup (((List.range n).map fun i => (va + BitVec.ofNat 54 i).toNat).map pageOf)).map fun p => p * 2 ^ 16) s
        have h2 := xlateAll_keeps aid b.die (some b.gcore) b.ctx ((dedup (((List.range n).map fun i => (va + BitVec.ofNat 54 i).toNat).map pageOf)).map fun p => p * 2 ^ 16) s
        refine (touches_issuer b.ctx _ _).trans ?_
        split
        · exact issuer_congr h1.1 h1.2 h2.2
        · exact issuer_congr h1.1 h1.2 h2.2

/-- Adding accesses changes no memory and no task. -/
theorem addAccess_keeps (a : Access) (s : State) : (s.addAccess a).2.phys = s.phys ∧ (s.addAccess a).2.task = s.task := by
  simp only [State.addAccess, State.newId, State.modAgent]
  split <;> exact ⟨rfl, rfl⟩

theorem addAccesses_keeps (l : List Access) : ∀ s : State, (s.addAccesses l).phys = s.phys ∧ (s.addAccesses l).task = s.task := by
  induction l with
  | nil => intro s; exact ⟨rfl, rfl⟩
  | cons a t ih =>
    intro s
    have h1 := addAccess_keeps a s
    have h2 := ih (s.addAccess a).2
    exact ⟨h2.1.trans h1.1, h2.2.trans h1.2⟩

theorem retire_eq (s : State) (e : WEnv) (i) : ∃ w, retire s e i = s.setBlock ((killMarks e.b e.eff i).setWarp w) := ⟨_, rfl⟩

/-- The bytes of a run. -/
theorem mem_cellsFrom (l : List Byte) : ∀ a p, p ∈ cellsFrom a l → ∃ k, k < l.length ∧ p.1 = a + k ∧ p.2 = l.getD k 0 := by
  induction l with
  | nil => intro a p h; cases h
  | cons b t ih =>
    intro a p h
    rcases List.mem_cons.mp h with rfl | h
    · exact ⟨0, by simp, by simp, by simp⟩
    · obtain ⟨k, hk, h1, h2⟩ := ih _ _ h
      exact ⟨k + 1, by simpa using hk, by omega, by simpa using h2⟩

theorem cellsFrom_mem (l : List Byte) : ∀ a k, k < l.length → (a + k, l.getD k 0) ∈ cellsFrom a l := by
  induction l with
  | nil => intro a k h; cases h
  | cons b t ih =>
    intro a k h
    cases k with
    | zero => simp [cellsFrom]
    | succ k =>
      have := ih (a+1) k (by simpa using h)
      rw [cellsFrom]; refine List.mem_cons_of_mem _ ?_
      simpa [Nat.add_assoc, Nat.add_comm 1 k] using this

theorem leBytes_len (n) : ∀ v, (leBytes n v).length = n := by
  induction n with
  | zero => intro v; rfl
  | succ n ih => intro v; simp [leBytes, ih]

theorem leBytes_getD (n) : ∀ v k, k < n → (leBytes n v).getD k 0 = BitVec.ofNat 8 (v / 256^k) := by
  induction n with
  | zero => intro v k h; omega
  | succ n ih =>
    intro v k h
    cases k with
    | zero => simp [leBytes]
    | succ k => simp only [leBytes, List.getD_cons_succ]; rw [ih _ _ (by omega), Nat.div_div_eq_div_mul, pow_succ, Nat.mul_comm]

/-- What a core reads as after one core is set. -/
theorem coreSet (s : State) (c c' : Nat) (x : Core) : (s.setCore c x).core c' = if c' = c then x else s.core c' := by
  simp only [State.core, State.setCore, agetD]
  split
  · rename_i h; subst h; rw [aget_aset]; rfl
  · rename_i h; rw [aget_aset_ne _ h]

theorem modify_getD {α} (l : List α) (i j : Nat) (f) (d : α) (h : i ≠ j) : (l.modify i f).getD j d = l.getD j d := by
  simp only [List.getD_eq_getElem?_getD, List.getElem?_modify, if_neg h]; cases l[j]? <;> rfl

/-- A queue that is not the one modified. -/
theorem queue_mod (s : State) (x y : QueueId) (f) (h : y ≠ x) : (s.modQueue x f).queue y = s.queue y := by
  cases x <;> cases y <;> simp only [State.modQueue, State.queue, State.modCore, coreSet] at h ⊢
  all_goals
    split
    · rename_i hc
      subst hc
      first
      | rfl
      | (dsimp only; exact modify_getD _ _ _ _ _ (by rintro rfl; exact h rfl))
      | (dsimp only [agetD]; rw [aget_aset_ne _ (by rintro rfl; exact h rfl)])
    · rfl

/-- What a copy whose checks pass enqueues (R259). -/
theorem copyIssue_ok {s : State} {p : CopyOps} {q form sig dst src blk} (hb : sigBad sig p.route = false)
    (hc : copyEnds s p form = .ok (dst, src, blk)) (h1 : s.stileBad (if sigRemote sig then blk else p.p.b.id) sig = false)
    (h2 : s.poolHas p.p.b.ctx 1 = true) :
    copyIssue s p q form sig = .ok (s.enqueue p.p (.cq p.p.b.gcore q.val) sig (if sigRemote sig then blk else p.p.b.id) (.copy form p.route dst src)) := by
  simp only [copyIssue, hb, Bool.false_eq_true, if_false, hc, h1, h2, Bool.not_true]

/-- What ends an access changes nothing of the package. -/
theorem modAgent_pkg (s : State) (a f) : (s.modAgent a f).pkg = s.pkg := by unfold State.modAgent; split <;> rfl

theorem performed_pkg (s : State) (id) : (s.performed id).pkg = s.pkg := by
  unfold State.performed; split; rfl; rw [modAgent_pkg]; rfl

theorem deliver_pkg (s : State) (id c) : (s.deliver id c).pkg = s.pkg := by
  unfold State.deliver
  split
  · rfl
  · split
    · unfold State.modBlock; split <;> rfl
    · rfl

theorem writeHome_pkg (k) : ∀ (l) (s : State), (s.writeHome k l).pkg = s.pkg := by
  intro l s; rw [writeHome_eq]

theorem ite_pkg (c : Bool) (a b : State) (p : Pkg) (ha : a.pkg = p) (hb : b.pkg = p) : (if c = true then a else b).pkg = p := by
  cases c <;> assumption

theorem fold_pkg {α} (f : State → α → State) (h : ∀ s a, (f s a).pkg = s.pkg) : ∀ (l : List α) (s : State), (l.foldl f s).pkg = s.pkg := by
  intro l; induction l with
  | nil => intro s; rfl
  | cons a t ih => intro s; rw [List.foldl_cons, ih, h]

theorem touch_pkg (s : State) (c d) : (s.touch c d).pkg = s.pkg := by
  unfold State.touch; split <;> rfl

theorem writeLine_pkg (s : State) (l k c) : (s.writeLine l k c).pkg = s.pkg := by rw [writeLine_eq]

theorem patchInb_pkg (s : State) (l k c) : (s.patchInb l k c).pkg = s.pkg := by
  rfl

theorem rmw_pkg (k op) : ∀ (l) (s : State), (s.rmwLanes k op l).1.pkg = s.pkg := by
  intro l; induction l with
  | nil => intro s; rfl
  | cons x t ih => intro s; show ((s.writeLine _ _ _).rmwLanes k op t).1.pkg = _; rw [ih, writeLine_pkg]

theorem homeWrite_pkg (s : State) (a : Access) : (s.homeWrite a).1.pkg = s.pkg := by
  unfold State.homeWrite
  split
  · dsimp only; rw [patchInb_pkg, writeLine_pkg]
  · dsimp only; rw [patchInb_pkg, writeLine_pkg]
  · dsimp only; rw [patchInb_pkg, rmw_pkg]
  · dsimp only; apply fold_pkg; intro s x; rw [patchInb_pkg, writeHome_pkg]
  · rfl

theorem replicaAcc_pkg (s : State) (id) : (s.replicaAcc id).pkg = s.pkg := by
  unfold State.replicaAcc
  split
  · rfl
  · split
    · split
      · rfl
      · dsimp only; rw [performed_pkg, touch_pkg]; split <;> exact writeHome_pkg ..
    · rfl

theorem replicaNow_pkg (s : State) (a c) : (s.replicaNow a c).pkg = s.pkg := by
  unfold State.replicaNow
  split
  · dsimp only; split
    · exact writeHome_pkg ..
    · rfl
  · rfl

theorem lostWrites_pkg (s : State) (d) : (s.lostWrites d).pkg = s.pkg := by
  unfold State.lostWrites
  dsimp only
  rw [fold_pkg _ (fun s p => ?_)]
  · exact fold_pkg _ (fun s id => replicaAcc_pkg s id) _ _
  · rw [show ∀ (x : State) i, (x.delAccess i).pkg = x.pkg from fun _ _ => rfl]
    refine ite_pkg _ _ _ _ ?_ rfl
    rw [replicaNow_pkg, homeWrite_pkg]; rfl

theorem refusedAcc_pkg (s : State) (id a) : (s.refusedAcc id a).pkg = s.pkg := by
  unfold State.refusedAcc; dsimp only; rw [performed_pkg, deliver_pkg]; rfl

theorem lostRequests_pkg (s : State) (d) : (s.lostRequests d).pkg = s.pkg := by
  unfold State.lostRequests
  dsimp only
  rw [fold_pkg _ (fun s p => ?_), fold_pkg _ (fun s id => ?_)]
  · split
    · exact replicaAcc_pkg ..
    · exact performed_pkg ..
  · exact refusedAcc_pkg ..

/-- The loss of a die changes nothing of the package: its message stands apart (R323). -/
theorem loseDie_pkg (s : State) (d st f) : (s.loseDie d st f).pkg = s.pkg := by
  unfold State.loseDie
  dsimp only
  rw [lostRequests_pkg, lostWrites_pkg]

/-- Nor anything of memory. -/
theorem performed_phys (s : State) (id : Nat) : (s.performed id).phys = s.phys := by
  unfold State.performed; split
  · rfl
  · unfold State.modAgent; split <;> rfl

theorem modAgent_phys (s : State) (a f) : (s.modAgent a f).phys = s.phys := by unfold State.modAgent; split <;> rfl

theorem modBlock_phys (s : State) (a f) : (s.modBlock a f).phys = s.phys := by unfold State.modBlock; split <;> rfl

theorem modQueue_phys (s : State) (a f) : (s.modQueue a f).phys = s.phys := by cases a <;> rfl

theorem observe_phys (s : State) (a f) : (s.observe a f).phys = s.phys := by unfold State.observe; exact modAgent_phys _ _ _

theorem signal_phys (s : State) (e) : (s.signal e).phys = s.phys := by
  unfold State.signal; split
  · rfl
  · exact modBlock_phys _ _ _

theorem unpark_phys (s : State) (e) : (s.unpark e).phys = s.phys := by
  unfold State.unpark; split
  · rfl
  · split
    · rw [observe_phys]; rfl
    · rfl

/-- The end of an engine entry writes no memory (R43). -/
theorem finish_phys (s : State) (e c n) : (s.finish e c n).phys = s.phys := by
  unfold State.finish; dsimp only
  have : ∀ (x : State) d i, (x.dropFails d i).phys = x.phys := fun _ _ _ => rfl
  rw [this, unpark_phys, signal_phys]
  show (s.modQueue _ _).phys = _
  exact modQueue_phys _ _ _

end Sys2Proof.Machine
end

