-- ==== Sys2Proof/Laws/Words.lean ====
section
/-!
SUPPORT. The fields of a word (R73), of an operand (R76) and of a guard (R81), read back from where they were put.
-/
namespace Sys2Proof

/-- Every field of a word (R73). -/
theorem word_parts (o : BitVec 10) (m : BitVec 6) (d a b : BitVec 21) (g : BitVec 4) (n y : Bool) (st : BitVec 5) :
    let w := o ++ m ++ d ++ a ++ b ++ g ++ BitVec.ofBool n ++ 0#6 ++ st ++ BitVec.ofBool y
    w.extractLsb' 86 10 = o ∧ w.extractLsb' 80 6 = m ∧ w.extractLsb' 59 21 = d ∧ w.extractLsb' 38 21 = a ∧
      w.extractLsb' 17 21 = b ∧ w.extractLsb' 13 4 = g ∧ w.getLsbD 12 = n ∧ w.extractLsb' 1 5 = st ∧ w.getLsbD 0 = y := by
  intro w
  refine ⟨?_, ?_, ?_, ?_, ?_, ?_, ?_, ?_, ?_⟩
  all_goals first
    | (apply BitVec.eq_of_getLsbD_eq
       intro i hi
       simp only [w, BitVec.getLsbD_extractLsb', BitVec.getLsbD_append, BitVec.getLsbD_ofBool]
       interval_cases i <;> simp)
    | (simp only [w, BitVec.getLsbD_append, BitVec.getLsbD_ofBool]; simp)

/-- An operand field reads back (R76). -/
theorem operand_bits (o : Operand) : Operand.ofBits o.toBits = some o := by
  cases o with
  | reg n m k =>
    have h : ∀ w, w = 0#2 ++ BitVec.ofBool m ++ BitVec.ofBool k ++ 0#9 ++ n →
        w.extractLsb' 19 2 = 0#2 ∧ w.extractLsb' 8 9 = 0#9 ∧ w.extractLsb' 0 8 = n ∧ w.getLsbD 18 = m ∧ w.getLsbD 17 = k := by
      rintro w rfl
      refine ⟨?_, ?_, ?_, ?_, ?_⟩
      all_goals first
        | (apply BitVec.eq_of_getLsbD_eq
           intro i hi
           simp only [BitVec.getLsbD_extractLsb', BitVec.getLsbD_append, BitVec.getLsbD_ofBool]
           interval_cases i <;> simp)
        | (simp only [BitVec.getLsbD_append, BitVec.getLsbD_ofBool]; simp)
    obtain ⟨h1, h2, h3, h4, h5⟩ := h _ rfl
    simp only [Operand.ofBits, Operand.toBits, h1, h2, h3, h4, h5]
    rfl
  | imm v =>
    have h : ∀ w, w = 1#2 ++ v → w.extractLsb' 19 2 = 1#2 ∧ w.extractLsb' 0 19 = v := by
      rintro w rfl
      refine ⟨?_, ?_⟩
      all_goals
        apply BitVec.eq_of_getLsbD_eq
        intro i hi
        simp only [BitVec.getLsbD_extractLsb', BitVec.getLsbD_append]
        interval_cases i <;> simp
    obtain ⟨h1, h2⟩ := h _ rfl
    simp only [Operand.ofBits, Operand.toBits, h1, h2]
    rfl
  | idx x d m k =>
    have h : ∀ w, w = 2#2 ++ BitVec.ofBool m ++ BitVec.ofBool k ++ x ++ d ++ 0#9 →
        w.extractLsb' 19 2 = 2#2 ∧ w.extractLsb' 0 9 = 0#9 ∧ w.extractLsb' 15 2 = x ∧ w.extractLsb' 9 6 = d ∧
          w.getLsbD 18 = m ∧ w.getLsbD 17 = k := by
      rintro w rfl
      refine ⟨?_, ?_, ?_, ?_, ?_, ?_⟩
      all_goals first
        | (apply BitVec.eq_of_getLsbD_eq
           intro i hi
           simp only [BitVec.getLsbD_extractLsb', BitVec.getLsbD_append, BitVec.getLsbD_ofBool]
           interval_cases i <;> simp)
        | (simp only [BitVec.getLsbD_append, BitVec.getLsbD_ofBool]; simp)
    obtain ⟨h1, h2, h3, h4, h5, h6⟩ := h _ rfl
    simp only [Operand.ofBits, Operand.toBits, h1, h2, h3, h4, h5, h6]
    rfl
  | special n =>
    have h : ∀ w, w = 3#2 ++ 0#10 ++ n →
        w.extractLsb' 19 2 = 3#2 ∧ w.extractLsb' 9 10 = 0#10 ∧ w.extractLsb' 0 9 = n := by
      rintro w rfl
      refine ⟨?_, ?_, ?_⟩
      all_goals
        apply BitVec.eq_of_getLsbD_eq
        intro i hi
        simp only [BitVec.getLsbD_extractLsb', BitVec.getLsbD_append]
        interval_cases i <;> simp
    obtain ⟨h1, h2, h3⟩ := h _ rfl
    simp only [Operand.ofBits, Operand.toBits, h1, h2, h3]
    rfl

/-- A guard that some engine accepts reads back (R81). -/
theorem guard_bits (g : Guard) (h : g.okOn .warp = true ∨ g.okOn .seq = true) : Guard.ofBits g.grd g.gsn = some g := by
  cases g with
  | always => rfl
  | pred n s =>
    have : n.toNat < 12 := by
      rcases h with h | h <;> simp [Guard.okOn] at h <;> omega
    simp [Guard.ofBits, Guard.grd, Guard.gsn, this]

/-- A register number of a file reads back (R77). -/
theorem asFin_regOf (n : Nat) (h : n ≤ 256) (k : Fin n) : asFin n (regOf k.val) = some k := by
  have hk := k.isLt
  have : (BitVec.ofNat 8 k.val).toNat = k.val := by simp; omega
  simp [asFin, regOf, this]

/-- An instruction that has fields encodes to them (R73). -/
theorem encode_raw (i : Instr) (r : Raw) (hr : i.raw = some r) : encode i = some r.toWord := by
  have : encode i = i.raw.map Raw.toWord := by
    cases i <;> first | rfl | cases hr
  rw [this, hr]; rfl

end Sys2Proof
end

