-- ==== Sys2Proof/Tests/Slice0.lean ====
section
/-!
SUPPORT. Tests of the model: a term that each check of well-formedness refuses, one word of every instruction row written out from
its encoding table, single steps whose results the manual gives, and a state and operands that meet the hypotheses of each
statement.
-/
namespace Sys2Proof.Tests
open Sys2Proof Sys2Proof.Machine

set_option Elab.async false

def u : Ctl := ⟨.always, 1, false⟩
/-- A register operand without marks. -/
def r (n : BitVec 8) : Operand := .reg n false false

-- Well-formedness: one ill-formed term for each check, which the check refuses.

-- R76, R77, R78, R80: operand kinds, ranges and marks.
theorem test_wf_fields_refused : ∀ i ∈ ([
    .iadd u (.imm 1) (r 1) (r 2),                        -- an immediate destination
    .iadd u (r 0) (.imm 1) (r 2),                        -- an immediate A of IADD
    .iadd u (r 0) (r 1) (.special 4),                    -- a reserved special register
    .iadd u (r 0) (r 1) (.special 0x18),                 -- CLKE on a warp
    .sadd u 1 (.special 0) (r 1),                        -- TID on the sequencer
    .sadd u 1 (r 64) (r 1),                              -- S64
    .sadd u 1 (.reg 2 true false) (r 1),                 -- a mark on an S operand
    .iadd u (.reg 0 false true) (r 1) (r 2),             -- keep on a destination
    .iadd u (.idx 0 1 true false) (r 1) (r 2),           -- a transient indexed destination
    .clk u (.reg 0 true false),                          -- a transient destination of an interlocked instruction
    .shfl u .idx none (r 0) (.idx 0 0 false false) (r 2), -- an indexed A of SHFL
    .rngpeek u (r 63) (r 0),                             -- Sd+1 would be S64; an S destination pair
    .starr u (.imm 64),                                  -- a stile above 63
    .mmaA u true (.imm 64) (.imm 0)] : List Instr),      -- a bank above 63
    i.wfOn .seq = false ∧ (i.wfOn .warp = false ∨ i = .rngpeek u (r 63) (r 0)) := by decide +kernel

-- R171, R172, R183, R190, R207, R247, R248, R268, R326: immediates out of their ranges, on every engine.
theorem test_wf_immediates_refused : ∀ i ∈ ([
    .brkLoop u false 14 0, .cont u false 15 0,
    .cvt8 u .sr false (r 0) (r 1) 0x100,                 -- FMT 0 is no binary8 format
    .cvt8 u .sr false (r 0) (r 1) 0x144,                 -- PAIR at POS 1
    .cvtf8 u .rne (r 0) (r 1) 0x304,                     -- target 3
    .xwin u 0 256 1, .xwin u 0 0 257,
    .clean u (.imm 0) 0, .inval u (.imm 0) 0,
    .accz u 64 1, .accz u 0 65, .accfold u 0 0,
    .accld u false 64 (.imm 0) 0, .accst u .raw false 0 (.imm 0) 0x40000,
    .qfence u 256, .svc u (r 8) (r 0) 4096, .svcp u (r 8) (r 0) 4096, .brk u (some 256)] : List Instr),
    i.immOk = false ∧ i.wf = false := by decide +kernel

-- R208: a 128-bit access on the sequencer, a sign-extended word on a warp.
theorem test_wf_sizes_refused :
    (Instr.ld u (.plain .b128) (r 0) (r 2) none).wfOn .seq = false ∧
    (Instr.ld u (.plain .b128) (r 0) (r 2) none).wfOn .warp = true ∧
    (Instr.ld u (.plain .s32) (r 0) (r 2) none).wfOn .warp = false ∧
    (Instr.ld u (.plain .s32) (r 0) (r 2) none).wfOn .seq = true ∧
    (Instr.st u (.plain .b128) (r 0) (r 2) none).wfOn .seq = false := by decide +kernel

-- R81, R162: reserved guards, a guard on an unguarded instruction, Q8 to Q11 on the sequencer.
theorem test_wf_guards_refused :
    (Instr.bar ⟨.pred 0 false, 1, false⟩).wf = false ∧
    (Instr.nop ⟨.pred 12 false, 1, false⟩).wf = false ∧
    (Instr.sadd ⟨.pred 8 false, 1, false⟩ 1 (r 1) (r 1)).wf = false ∧
    Guard.ofBits 12 false = none ∧ Guard.ofBits 15 true = none ∧
    (Instr.iadd ⟨.pred 11 true, 1, false⟩ (r 0) (r 1) (r 2)).wf = true := by decide +kernel

-- R18, R89, R90: engines, reserved opcodes, and a row that is no instruction.
theorem test_wf_engines_refused :
    (Instr.iadd u (r 0) (r 1) (r 2)).wfOn .seq = false ∧ (Instr.sadd u 0 (r 1) (r 2)).wfOn .warp = false ∧
    (Instr.reservedOpcodeIssue (0x041#10 ++ 0#86)).wf = false ∧ (Instr.reservedOpcodeIssue (0x2C7#10 ++ 0#86)).wf = true ∧
    (Instr.drain 1).wf = false := by decide +kernel

-- Decoding: a word of every row, its fields written out from the row's encoding table.

/-- A word from its fields in the order of R73, unguarded, with stall count 1. -/
def word (opc : BitVec 10) (mod : BitVec 6) (d a b : BitVec 21) : Word96 :=
  opc ++ mod ++ d ++ a ++ b ++ 0b1111#4 ++ 0b0#1 ++ 0b000000_00001_0#12

/-- Decodes to this instruction, and the encoder gives the word back. -/
def reads (x : Word96 × Instr) : Bool := decide (decode x.1 = .ok x.2 ∧ encode x.2 = some x.1)

-- R162: offsets are immediates; a long offset of -3 is A = 0x8_1FFF, B = 0xF_FFFD (R79).
theorem test_decode_group0 : ([
    (word 0x000 0x00 0 0 0, .nop u),
    (word 0x001 0x00 0 0 0xFFFFE, .br u (.short (-2))),
    (word 0x001 0x01 0 0x81FFF 0xFFFFD, .br u (.long (-3))),
    (word 0x002 0x00 0 0x80010 0x80020, .brd u 16 32),
    (word 0x003 0x00 0 0x00005 0x80003, .brx u (r 5) 3),
    (word 0x004 0x00 0x00006 0 0x80009, .call u (r 6) (.short 9)),
    (word 0x004 0x01 0x00006 0x80001 0x80000, .call u (r 6) (.long 0x80000)),
    (word 0x005 0x00 0 0x00006 0, .ret u (r 6)),
    (word 0x006 0x00 0 0 0x80004, .brq u 4),
    (word 0x007 0x00 0x00008 0 0, .movq u (r 8)),
    (word 0x008 0x10 0 0x00003 0, .ifOpen u true 3),
    (word 0x009 0x00 0 0 0, .elseFlip u),
    (word 0x00A 0x00 0 0 0, .endIf u),
    (word 0x00B 0x00 0 0 0, .loop u),
    (word 0x00C 0x0D 0 0x00002 0, .brkLoop u false 13 2),
    (word 0x00D 0x1E 0 0x00002 0, .cont u true 14 2),
    (word 0x00E 0x00 0 0 0xFFFFB, .endl u (-5)),
    (word 0x00F 0x00 0 0 0, .bar u),
    (word 0x00F 0x01 0 0 0, .barTeam u)] : List (Word96 × Instr)).all reads = true := by decide +kernel

-- R174. MOV V2, 0x1234_5678 is A = 0x8_0246, B = 0xC_5678 (R79); an indexed operand, a special one, marks (R76).
theorem test_decode_group1 : ([
    (word 0x040 0x01 0x00002 0x80246 0xC5678, .mov u (r 2) (.long 0x12345678)),
    (word 0x040 0x00 0x00002 0x180011 0, .mov u (r 2) (.short (.special 0x011))),
    (word 0x041 0x00 0x40001 0x40000 0x8000A, .iadd u (.reg 1 true false) (.reg 0 true false) (.imm 10)),
    (word 0x042 0x00 0x00001 0x10A600 0x20003, .isub u (r 1) (.idx 1 19 false false) (.reg 3 false true)),
    (word 0x043 0x00 0x00001 0x00002 0x00003, .imul u (r 1) (r 2) (r 3)),
    (word 0x044 0x08 0x00001 0x00002 0x00003, .imulhi u true (r 1) (r 2) (r 3)),
    (word 0x045 0x00 0x00001 0x00002 0x00003, .imad u (r 1) (r 2) (r 3)),
    (word 0x046 0x00 0x00001 0x00002 0x00003, .idiv u false (r 1) (r 2) (r 3)),
    (word 0x047 0x08 0x00001 0x00002 0x00003, .irem u true (r 1) (r 2) (r 3)),
    (word 0x048 0x00 0x00001 0x00002 0x00003, .imin u false (r 1) (r 2) (r 3)),
    (word 0x049 0x08 0x00001 0x00002 0x00003, .imax u true (r 1) (r 2) (r 3)),
    (word 0x04A 0x00 0x00001 0x00002 0, .iabs u (r 1) (r 2)),
    (word 0x04B 0x00 0x00001 0x00002 0x00003, .and u (r 1) (r 2) (r 3)),
    (word 0x04C 0x00 0x00001 0x00002 0x00003, .or u (r 1) (r 2) (r 3)),
    (word 0x04D 0x00 0x00001 0x00002 0x00003, .xor u (r 1) (r 2) (r 3)),
    (word 0x04E 0x00 0x00001 0x00002 0, .not u (r 1) (r 2)),
    (word 0x04F 0x00 0x00001 0x00002 0x8001F, .shl u (r 1) (r 2) (.imm 31)),
    (word 0x050 0x08 0x00001 0x00002 0x00003, .shr u true (r 1) (r 2) (r 3)),
    (word 0x051 0x00 0x00001 0x00002 0, .popc u (r 1) (r 2)),
    (word 0x052 0x00 0x00001 0x00002 0, .clz u (r 1) (r 2)),
    (word 0x053 0x00 0x00001 0x00002 0, .brev u (r 1) (r 2)),
    (word 0x054 0x08 0x00001 0x00002 0x80804, .bfe u true (r 1) (r 2) (.imm 0x804)),
    (word 0x055 0x00 0x00001 0x00002 0x80804, .bfi u (r 1) (r 2) (.imm 0x804)),
    (word 0x056 0x0B 0x00001 0x00002 0x00003, .sel u 11 (r 1) (r 2) (r 3))] : List (Word96 × Instr)).all reads = true := by
  decide +kernel

-- R178: PKFMA.BF16.RTZ has MOD = 0b01_0001.
theorem test_decode_group2 : ([
    (word 0x080 0x30 0x00001 0x00002 0x00003, .fadd u .rdn (r 1) (r 2) (r 3)),
    (word 0x081 0x20 0x00001 0x00002 0x00003, .fsub u .rup (r 1) (r 2) (r 3)),
    (word 0x082 0x10 0x00001 0x00002 0x00003, .fmul u .rtz (r 1) (r 2) (r 3)),
    (word 0x083 0x00 0x00001 0x00002 0x00003, .ffma u .rne (r 1) (r 2) (r 3)),
    (word 0x084 0x00 0x00001 0x00002 0x00003, .fmin u (r 1) (r 2) (r 3)),
    (word 0x085 0x00 0x00001 0x00002 0x00003, .fmax u (r 1) (r 2) (r 3)),
    (word 0x086 0x00 0x00001 0x00002 0, .fabs u (r 1) (r 2)),
    (word 0x087 0x00 0x00001 0x00002 0, .fneg u (r 1) (r 2)),
    (word 0x088 0x21 0x00001 0x00002 0x00003, .pkadd u .rup true (r 1) (r 2) (r 3)),
    (word 0x089 0x30 0x00001 0x00002 0x00003, .pkmul u .rdn false (r 1) (r 2) (r 3)),
    (word 0x08A 0b010001 0x00001 0x00002 0x00003, .pkfma u .rtz true (r 1) (r 2) (r 3)),
    (word 0x08B 0x01 0x00001 0x00002 0x00003, .pkmin u true (r 1) (r 2) (r 3)),
    (word 0x08C 0x00 0x00001 0x00002 0x00003, .pkmax u false (r 1) (r 2) (r 3))] : List (Word96 × Instr)).all reads = true := by
  decide +kernel

-- R181, R187.
theorem test_decode_groups3_4 : ([
    (word 0x0C0 0x12 0x00001 0x00002 0, .cvt u .s32f32 .rtz (r 1) (r 2)),
    (word 0x0C1 0x04 0x00005 0x00002 0x80104, .cvt8 u .sr false (r 5) (r 2) 0x104),
    (word 0x0C2 0x10 0x00001 0x00002 0x80044, .cvtf8 u .rtz (r 1) (r 2) 0x44),
    (word 0x0C3 0x04 0x00001 0x00002 0, .sfu u .lg2 (r 1) (r 2)),
    (word 0x100 0x0A 0x0000B 0x00002 0x00003, .iset u .lt true 11 (r 2) (r 3)),
    (word 0x101 0x05 0x00001 0x00002 0x00003, .fset u .ge 1 (r 2) (r 3)),
    (word 0x102 0x08 0x00001 0x00002 0x00003, .plop u 8 1 2 3),
    (word 0x103 0x00 0x00001 0 0, .pmov u (r 1)),
    (word 0x103 0x01 0 0x00001 0, .pmovP u (r 1)),
    (word 0x104 0x2F 0x00001 0x00002 0x80001, .shfl u .xor (some 11) (r 1) (r 2) (.imm 1)),
    (word 0x104 0x3C 0x00001 0x00002 0x80001, .shfl u .idx none (r 1) (r 2) (.imm 1)),
    (word 0x105 0x06 0x00001 0x00002 0, .agree u .same true 1 2),
    (word 0x106 0x01 0x00001 0x00002 0, .ballot u true (r 1) 2),
    (word 0x107 0x00 0x00001 0x00002 0, .remap u (r 1) (r 2)),
    (word 0x108 0x00 0x00003 0x800FF 0x80100, .xwin u 3 255 256),
    (word 0x109 0x00 0x00003 0x00001 0, .xset u 3 (r 1)),
    (word 0x10A 0x00 0x180010 0x00001 0, .msr u .rng (r 1)),
    (word 0x10A 0x00 0x180011 0x80001 0, .msr u .schk (.imm 1))] : List (Word96 × Instr)).all reads = true := by
  decide +kernel

-- R207, R208. A displacement is an immediate B or an all-zero B.
theorem test_decode_group5 : ([
    (word 0x140 0b0_100_00 0x00001 0x00002 0x80010, .ld u (.plain .b32) (r 1) (r 2) (some 16)),
    (word 0x140 0b1_01_100 0x00001 0x00002 0, .ld u (.acq .b64 .pkg) (r 1) (r 2) none),
    (word 0x141 0b0_001_00 0x00001 0x80040 0, .st u (.plain .b16) (r 1) (.imm 64) none),
    (word 0x141 0b1_10_101 0x00001 0x00002 0, .st u (.rel .b128 .sys) (r 1) (r 2) none),
    (word 0x142 0b0_011_00 0x00001 0x00002 0, .ldl u (.plain .s16) (r 1) (r 2) none),
    (word 0x143 0b0_100_00 0x00001 0x00002 0, .stl u (.plain .b128) (r 1) (r 2) none),
    (word 0x144 0x02 0 0x00002 0, .pref u .l2copy (r 2) none),
    (word 0x145 0x03 0 0 0, .fence u .die),
    (word 0x146 0x00 0 0x00002 0x80004, .clean u (r 2) 4),
    (word 0x147 0x00 0 0x00002 0x80004, .inval u (r 2) 4)] : List (Word96 × Instr)).all reads = true := by decide +kernel

theorem test_decode_group6 : ([
    (word 0x180 0b00_1_010 0x00001 0x00002 0x00004, .atom u (.max true) (r 1) (r 2) (r 4)),
    (word 0x180 0b00_0_110 0x00001 0x00002 0x00004, .atom u .fadd (r 1) (r 2) (r 4)),
    (word 0x181 0b11_1_100 0x00001 0x00002 0x00004, .acas u true (.acqrel .pkg) (r 1) (r 2) (r 4)),
    (word 0x181 0b00_0_000 0x00001 0x00002 0x00004, .acas u false .relaxed (r 1) (r 2) (r 4)),
    (word 0x182 0b00_10_00 0 0x00002 0x00004, .redM u .add .f32 (r 2) (r 4)),
    (word 0x183 0x02 0 0x00002 0x00004, .redC u .b64 (r 2) (r 4)),
    (word 0x184 0x00 0x00001 0 0, .clk u (r 1)),
    (word 0x185 0x01 0x00001 0x00002 0x00004, .sts u true (r 1) (r 2) (r 4)),
    (word 0x186 0x0F 0x00001 0x00005 0x00007, .ldas u none false (r 1) (r 5) (r 7)),
    (word 0x186 0x1B 0x00001 0x00005 0x00007, .ldas u (some 11) true (r 1) (r 5) (r 7)),
    (word 0x187 0x00 0 0x00002 0, .cwait u (r 2)),
    (word 0x188 0x3F 0x00001 0 0, .bara u 63 (r 1)),
    (word 0x189 0x05 0 0x00001 0, .barw u 5 (r 1)),
    (word 0x18A 0x00 0x00001 0x00002 0, .tdclr u 1 2)] : List (Word96 × Instr)).all reads = true := by decide +kernel

theorem test_decode_group7 : ([
    (word 0x1C0 0x01 0x00060 0x80060 0, .mma u true (r 96) (.imm 96)),
    (word 0x1C1 0x00 0x80003 0x00004 0, .mmaA u false (.imm 3) (r 4)),
    (word 0x1C2 0b000_10_1 0x80001 0x80000 0x80008, .mmaS u true 2 (.imm 1) (.imm 0) (.imm 8)),
    (word 0x1C3 0x03 0 0 0, .mcommit u 3),
    (word 0x1C4 0x02 0 0 0, .mwait u 2),
    (word 0x1C5 0x00 0x80001 0x80004 0, .accz u 1 4),
    (word 0x1C6 0x01 0x80001 0x80100 0xBE0C0, .accld u true 1 (.imm 0x100) 0x3E0C0),
    (word 0x1C7 0b000_1_10 0x80008 0x80100 0xBE0C0, .accst u .raw true 8 (.imm 0x100) 0x3E0C0),
    (word 0x1C8 0x00 0x80001 0x80004 0, .accfold u 1 4),
    (word 0x1C9 0x03 0 0 0, .shcommit u 3),
    (word 0x1CA 0x01 0 0 0, .shdrop u 1)] : List (Word96 × Instr)).all reads = true := by decide +kernel

-- R261, R268: queue MOD[2:0], route MOD[5:3].
theorem test_decode_group8 : ([
    (word 0x200 0b101_111 0x00001 0x00002 0x00004, .cpy u 7 .tg (r 1) (r 2) (r 4)),
    (word 0x201 0b001_000 0x80000 0x00002 0x80040, .cpys u 0 .lg (.imm 0) (r 2) (.imm 64)),
    (word 0x202 0b011_010 0x00001 0x00003 0x80040, .cpyx u 2 .gg (r 1) (r 3) (.imm 64)),
    (word 0x203 0x00 0 0x800FF 0, .qfence u 255),
    (word 0x204 0b0_01_011 0x00001 0 0, .seqrd u 3 .enq (r 1)),
    (word 0x204 0b0_11_011 0x00001 0x80005 0, .seqrd u 3 (.status (.imm 5)) (r 1)),
    (word 0x205 0x04 0 0x00002 0, .seqwait u 4 (r 2)),
    (word 0x206 0x00 0x80003 0x8FFFF 0, .stinit u (.imm 3) (.imm 65535)),
    (word 0x207 0x00 0x8003F 0 0, .starr u (.imm 63)),
    (word 0x208 0x00 0 0x80001 0, .stwait u (.imm 1)),
    (word 0x209 0x00 0x00001 0x00002 0, .hrev u 1 2)] : List (Word96 × Instr)).all reads = true := by decide +kernel

theorem test_decode_groups9_10 : ([
    (word 0x240 0b00_1_1_10 0 0x80040 0, .mgath u 2 true true (.imm 64)),
    (word 0x241 0b000_0_01 0 0x80040 0, .mconvCvt u 1 (.imm 64)),
    (word 0x241 0b000_1_01 0 0x80040 0, .mconvStripe u 1 (.imm 64)),
    (word 0x242 0x03 0 0x00004 0, .mxv u 3 (r 4)),
    (word 0x243 0x02 0 0x00002 0, .mseqwait u 2 (r 2)),
    (word 0x244 0b00_10_01 0x00001 0 0, .mrstat u 1 .ticket (r 1)),
    (word 0x280 0x3F 0 0x80040 0, .npost u 63 (.imm 64)),
    (word 0x281 0x01 0x00001 0x00003 0, .ncnt u true (r 1) (r 3)),
    (word 0x282 0x00 0 0x80002 0x00004, .nwait u (.imm 2) (r 4)),
    (word 0x283 0x00 0x00004 0x80001 0, .rngpeek u (r 4) (.imm 1)),
    (word 0x284 0x00 0x00004 0x80001 0x80002, .rngadv u (r 4) (.imm 1) (.imm 2)),
    (word 0x285 0x00 0x00004 0x80001 0, .rngstatPeek u (r 4) (.imm 1)),
    (word 0x285 0x01 0x00004 0x80001 0, .rngstatReset u (r 4) (.imm 1)),
    (word 0x286 0x00 0 0x80003 0, .nqfence u (.imm 3))] : List (Word96 × Instr)).all reads = true := by decide +kernel

-- R111, R125: the task engine and the banker.
theorem test_decode_group11 : ([
    (word 0x2C0 0x00 0x00001 0x00002 0, .spawn u 1 2),
    (word 0x2C1 0x36 0x00001 0x00002 0x00003, .spawnr u 54 1 2 3),
    (word 0x2C2 0x00 0 0x00002 0, .joindec u (r 2)),
    (word 0x2C3 0x00 0 0 0, .exit u),
    (word 0x2C3 0x01 0 0x00002 0, .exitJ u 2),
    (word 0x2C3 0x02 0 0 0, .exitK u),
    (word 0x2C4 0x00 0x00001 0 0, .yieldTeam u 1),
    (word 0x2C5 0x00 0 0 0, .tret u),
    (word 0x2C5 0x01 0 0 0, .tretSkip u),
    (word 0x2C6 0x06 0x00001 0 0, .wfld u .core (r 1)),
    (word 0x2C8 0x00 0 0x00002 0, .claim u 2),
    (word 0x2C9 0x00 0 0x00002 0, .take u 2),
    (word 0x2CA 0x00 0x00006 0x00002 0, .taket u 6 2),
    (word 0x2CB 0x00 0 0x00002 0, .give u 2),
    (word 0x2CC 0x00 0 0 0, .giveall u),
    (word 0x2CD 0x03 0x00001 0 0, .hold u .floor (r 1))] : List (Word96 × Instr)).all reads = true := by decide +kernel

-- R135: the sequencer.
theorem test_decode_group12 : ([
    (word 0x300 0x00 0x00001 0x180018 0, .smov u 1 (.short (.special 0x018))),
    (word 0x300 0x01 0x00001 0x81FFF 0xFFFFD, .smov u 1 (.sext 0xFFFFFFFD)),
    (word 0x300 0x02 0x00001 0x81FFF 0xFFFFD, .smov u 1 (.zext 0xFFFFFFFD)),
    (word 0x301 0x00 0x00001 0x80246 0xC5678, .smovh u 1 0x12345678),
    (word 0x302 0x00 0x00001 0x00002 0xFFFFF, .sadd u 1 (r 2) (.imm 0x7FFFF)),
    (word 0x303 0x00 0x00001 0x00002 0x00003, .ssub u 1 (r 2) (r 3)),
    (word 0x304 0x00 0x00001 0x00002 0x00003, .smul u 1 (r 2) (r 3)),
    (word 0x305 0x08 0x00001 0x00002 0x00003, .smulhi u true 1 (r 2) (r 3)),
    (word 0x306 0x00 0x00001 0x00002 0x00003, .sdiv u false 1 (r 2) (r 3)),
    (word 0x307 0x08 0x00001 0x00002 0x00003, .srem u true 1 (r 2) (r 3)),
    (word 0x308 0x00 0x00001 0x00002 0x00003, .smin u false 1 (r 2) (r 3)),
    (word 0x309 0x08 0x00001 0x00002 0x00003, .smax u true 1 (r 2) (r 3)),
    (word 0x30A 0x00 0x00001 0x00002 0x00003, .sand u 1 (r 2) (r 3)),
    (word 0x30B 0x00 0x00001 0x00002 0x00003, .sor u 1 (r 2) (r 3)),
    (word 0x30C 0x00 0x00001 0x00002 0x00003, .sxor u 1 (r 2) (r 3)),
    (word 0x30D 0x00 0x00001 0x00002 0x00003, .sshl u 1 (r 2) (r 3)),
    (word 0x30E 0x08 0x00001 0x00002 0x00003, .sshr u true 1 (r 2) (r 3)),
    (word 0x30F 0x00 0x00001 0x00002 0, .spopc u 1 (r 2)),
    (word 0x310 0x00 0x00001 0x00002 0, .sclz u 1 (r 2)),
    (word 0x311 0x07 0x0003F 0x00002 0x00003, .ssel u 7 63 (r 2) (r 3)),
    (word 0x312 0x0D 0x00007 0x00002 0x00003, .sset u .ge true 7 (r 2) (r 3)),
    (word 0x313 0x06 0x00001 0x00002 0x00003, .qlop u 6 1 2 3),
    (word 0x314 0x00 0 0 0xFFFFF, .sbr u (.short (-1))),
    (word 0x314 0x01 0 0x81FFF 0xFFFFD, .sbr u (.long (-3))),
    (word 0x315 0x00 0 0x00001 0x80001, .sbrx u 1 1),
    (word 0x316 0x00 0x00001 0 0x80004, .scall u 1 (.short 4)),
    (word 0x316 0x01 0x00001 0x80001 0x80000, .scall u 1 (.long 0x80000)),
    (word 0x316 0x02 0x00001 0x00002 0, .scall u 1 (.reg 2)),
    (word 0x317 0x00 0 0x00002 0, .sret u 2),
    (word 0x318 0x00 0 0x80001 0, .dqpush u (.short (.imm 1))),
    (word 0x318 0x01 0 0x81FFF 0xFFFFD, .dqpush u (.long 0xFFFFFFFD)),
    (word 0x319 0x00 0 0 0, .wwaitDq u),
    (word 0x319 0x01 0x00001 0x00002 0, .wwaitExit u 1 2)] : List (Word96 × Instr)).all reads = true := by decide +kernel

theorem test_decode_group13 : ([
    (word 0x340 0x00 0x00008 0x00010 0x80FFF, .svc u (r 8) (r 16) 4095),
    (word 0x341 0x00 0x00008 0x00010 0x80001, .svcp u (r 8) (r 16) 1),
    (word 0x342 0x3F 0 0x80001 0, .trap u 63 (.imm 1)),
    (word 0x343 0x00 0 0x800FF 0, .brk u (some 255)),
    (word 0x343 0x00 0 0 0, .brk u none),
    (word 0x344 0x02 0x00001 0 0, .tdmask u .live (r 1))] : List (Word96 × Instr)).all reads = true := by decide +kernel

-- R73, R74, R81, R84, R90: the guard and the hint; little-endian bytes; words that are no instruction.
theorem test_decode_guard_and_hint :
    decode (0x041#10 ++ 0#6 ++ 1#21 ++ 2#21 ++ 3#21 ++ 0b0011_1#5 ++ 0b111111_11111_1#12) =
      .ok (.iadd ⟨.pred 3 true, 31, true⟩ (r 1) (r 2) (r 3)) ∧
    decodeBytes [0x02, 0xE0, 0x01, 0, 0, 0, 0, 0, 0, 0, 0, 0] = .ok (.nop u) := by decide +kernel

theorem test_decode_refused :
    decode (word 0x041 0x01 1 2 3) = .error .modOrKind ∧                     -- a MOD value of IADD
    decode (word 0x041 0x00 0x00100 2 3) = .error .operandBits ∧             -- a must-be-zero bit of a register field
    decode (word 0x001 0x01 0 0x82000 0x80000) = .error .modOrKind ∧         -- A[18:13] of a long form
    decode (word 0x000 0x00 0 0 0 ||| 0x1000#96) = .error .guardCode ∧       -- GSN with GRD 15
    decode (word 0x056 0x0C 1 2 3) = .error .modOrKind ∧                     -- SEL's P12
    decode (word 0x00C 0x0E 0 2 0) = .error .notWellFormed ∧                 -- a depth of 14
    decode (word 0x3FF 0x00 0 0 0) = .ok (.reservedOpcodeIssue (word 0x3FF 0x00 0 0 0)) := by decide +kernel

-- Single steps. The expected values are the manual's examples and tables, or worked by hand from its rules.

/-- A block of one thread on core 0 of die 0, at address 0; its warp issues. -/
def sW : State := { State.reset.placeWord [] with actor := some 2 }
/-- The same block; its sequencer thread issues. -/
def sS : State := { State.reset.placeWord [] with actor := some 3 }
def blk (s : State) (f : Block → Block) : State := s.modBlock 1 f
/-- The thread changed. -/
def thr (f : Thread → Thread) : State := blk sW fun b => b.modThread 0 f
def withV (l : List (Nat × Word32)) : State := thr fun t => { t with v := l }
def withS (l : List Word64) : State := blk sS fun b => { b with seq := b.seq.map fun q => { q with s := l ++ q.s.drop l.length } }

/-- V register `n` as the next instruction but `clk` cycles on reads it. -/
def outV (o : Host.Outcome State Fault Refusal) (clk n : Nat) : Option Word32 :=
  match o with
  | .next t => (t.block 1).bind fun b => (b.warp? 0).map fun w => b.readAt w clk 0 n
  | _ => none
def outS (o : Host.Outcome State Fault Refusal) (n : Nat) : Option Word64 :=
  match o with
  | .next t => (t.block 1).bind fun b => b.seq.map fun q => q.get n
  | _ => none
def outB {α : Type} (o : Host.Outcome State Fault Refusal) (f : Block → α) : Option α :=
  match o with
  | .next t => (t.block 1).map f
  | _ => none
def trapOf (b : Block) : Nat × Nat × HandlerSt := (b.trap.code, b.trap.aux, b.hst)

/-- What an instruction of V1 and V2 leaves in V0, `clk` cycles on. -/
def vv (a b : Word32) (clk : Nat) (i : Instr) : Option Word32 := outV (exec i (withV [(1, a), (2, b)])) clk 0

-- R175, R86: IADD wraps; before its latency the old value is read. R56: the quotients and remainders.
theorem test_iadd : vv 0xFFFFFFFF 2 4 (.iadd u (r 0) (r 1) (r 2)) = some 1 ∧ vv 0xFFFFFFFF 2 3 (.iadd u (r 0) (r 1) (r 2)) = some 0 := by
  decide +kernel
theorem test_divides :
    vv 5 0 12 (.idiv u true (r 0) (r 1) (r 2)) = some 0xFFFFFFFF ∧
    vv 0xFFFFFFF9 2 12 (.irem u false (r 0) (r 1) (r 2)) = some 0xFFFFFFFF ∧
    vv 0xFFFFFFF9 2 12 (.idiv u false (r 0) (r 1) (r 2)) = some 0xFFFFFFFD ∧
    vv 0x80000000 0xFFFFFFFF 12 (.idiv u false (r 0) (r 1) (r 2)) = some 0x80000000 := by decide +kernel
theorem test_multiplies :
    vv 0xFFFFFFFF 0xFFFFFFFF 4 (.imulhi u false (r 0) (r 1) (r 2)) = some 0 ∧
    vv 0xFFFFFFFF 0xFFFFFFFF 4 (.imulhi u true (r 0) (r 1) (r 2)) = some 0xFFFFFFFE ∧
    outV (exec (.imad u (r 0) (r 1) (r 2)) (withV [(0, 7), (1, 3), (2, 5)])) 4 0 = some 22 := by decide +kernel
theorem test_shifts_and_bits :
    vv 0x80000001 33 4 (.shl u (r 0) (r 1) (r 2)) = some 2 ∧ vv 0x80000000 4 4 (.shr u false (r 0) (r 1) (r 2)) = some 0xF8000000 ∧
    vv 0x80000000 4 4 (.shr u true (r 0) (r 1) (r 2)) = some 0x08000000 ∧ vv 0 0 4 (.clz u (r 0) (r 1)) = some 32 ∧
    vv 0x00010001 0 4 (.popc u (r 0) (r 1)) = some 2 ∧ vv 0x00000001 0 4 (.brev u (r 0) (r 1)) = some 0x80000000 ∧
    vv 0x00000F80 0x0404 4 (.bfe u false (r 0) (r 1) (r 2)) = some 0xFFFFFFF8 ∧
    vv 0x0000000A 0x0404 4 (.bfi u (r 0) (r 1) (r 2)) = some 0xA0 := by decide +kernel

-- R179: FFMA of 2^24, 1 and 1; FADD of 1.0 and -1.0. R180: two halves. R182: halves between integers. R186: 1/0 and 1/-inf.
theorem test_floats :
    outV (exec (.ffma u .rne (r 0) (r 1) (r 2)) (withV [(0, 0x3F800000), (1, 0x4B800000), (2, 0x3F800000)])) 5 0 = some 0x4B800000 ∧
    vv 0x3F800000 0xBF800000 5 (.fadd u .rdn (r 0) (r 1) (r 2)) = some 0x80000000 ∧
    vv 0x3F800000 0xBF800000 5 (.fadd u .rne (r 0) (r 1) (r 2)) = some 0 ∧
    vv 0x3C003C00 0x40003C00 5 (.pkadd u .rne false (r 0) (r 1) (r 2)) = some 0x42004000 ∧
    vv 0x7FC00000 0x3F800000 5 (.fmin u (r 0) (r 1) (r 2)) = some 0x7FC00000 := by decide +kernel
theorem test_conversions :
    vv 0x40200000 0 6 (.cvt u .s32f32 .rne (r 0) (r 1)) = some 2 ∧ vv 0x40200000 0 6 (.cvt u .s32f32 .rup (r 0) (r 1)) = some 3 ∧
    vv 0xBF800000 0 6 (.cvt u .u32f32 .rne (r 0) (r 1)) = some 0 ∧ vv 0xFFFFFFFF 0 6 (.cvt u .f32s32 .rne (r 0) (r 1)) = some 0xBF800000 ∧
    vv 0 0 12 (.sfu u .rcp (r 0) (r 1)) = some 0x7F800000 ∧ vv 0x40800000 0 12 (.sfu u .sqrt (r 0) (r 1)) = some 0x40000000 := by
  decide +kernel

-- R184's example: CVT8.SR.H0.F16 V5, V2 with RNG = 1, and the state RNG is left in.
theorem test_cvt8_example :
    let o := exec (.cvt8 u .sr false (r 5) (r 2) 0x104) (thr fun t => { t with v := [(2, 0x3C703C66)], rng := 1 })
    outV o 6 5 = some 0x4140 ∧ outB o (fun b => (b.thread 0).rng) = some 0x04080601 := by decide +kernel

-- R59, R60: the table of conversions of binary32 to b8p4sx (FMT 0x04) and b8p4sf (0x0C), into byte 0.
theorem test_cvt8_edges :
    vv 0x43680000 0 6 (.cvt8 u (.mode .rne) false (r 0) (r 1) 0x04) = some 0x7E ∧
    vv 0x43690000 0 6 (.cvt8 u (.mode .rne) false (r 0) (r 1) 0x04) = some 0x7F ∧
    vv 0x43690000 0 6 (.cvt8 u (.mode .rne) true (r 0) (r 1) 0x04) = some 0x7E ∧
    vv 0x43690000 0 6 (.cvt8 u (.mode .rne) false (r 0) (r 1) 0x0C) = some 0x7F ∧
    vv 0x43780000 0 6 (.cvt8 u (.mode .rne) false (r 0) (r 1) 0x0C) = some 0x80 ∧
    vv 0x447A0000 0 6 (.cvt8 u (.mode .rtz) false (r 0) (r 1) 0x04) = some 0x7E ∧
    vv 0xBA000000 0 6 (.cvt8 u (.mode .rne) false (r 0) (r 1) 0x04) = some 0x00 ∧
    vv 0x3A400000 0 6 (.cvt8 u (.mode .rne) false (r 0) (r 1) 0x04) = some 0x01 := by decide +kernel

-- R185: 0x7E of b8p1sx is 2^62; to binary16 it is +inf under RNE and 65504 under RTZ.
theorem test_cvtf8_example :
    vv 0x7E 0 6 (.cvtf8 u .rne (r 0) (r 1) 0x101) = some 0x7C00 ∧ vv 0x7E 0 6 (.cvtf8 u .rtz (r 0) (r 1) 0x101) = some 0x7BFF ∧
    vv 0x7E 0 6 (.cvtf8 u .rne (r 0) (r 1) 0x001) = some 0x5E800000 := by decide +kernel

-- R171: IF opens a nesting where the predicate is clear; ELSE takes the other side. R145: no lane with a counter is effective.
theorem test_if_else :
    outB (exec (.ifOpen u false 0) sW) (fun b => (b.thread 0).nest) = some 1 ∧
    outB (exec (.elseFlip u) (thr fun t => { t with nest := 1 })) (fun b => (b.thread 0).nest) = some 0 ∧
    outV (exec (.iadd u (r 0) (r 1) (.imm 1)) (thr fun t => { t with nest := 1, v := [(1, 5)] })) 4 0 = some 0 := by decide +kernel

-- R190: a lane that shuffles from itself. R192: REMAP of a thread of the block, and of one beyond it.
theorem test_shuffle_and_remap :
    vv 9 0 8 (.shfl u .idx none (r 0) (r 1) (r 2)) = some 9 ∧ vv 9 1 8 (.shfl u .up none (r 0) (r 1) (r 2)) = some 0xFFBADBAD ∧
    vv 0 0 8 (.remap u (r 0) (r 1)) = some 0x20 ∧ vv 1 0 8 (.remap u (r 0) (r 1)) = some 0 := by decide +kernel

-- R141, R145: a source with the last-use mark reads as poison afterwards.
theorem test_last_use :
    outV (exec (.iadd u (r 0) (.reg 1 true false) (r 1)) (withV [(1, 5)])) 4 1 = some 0xFFBADBAD ∧
    outV (exec (.iadd u (r 0) (.reg 1 true false) (r 1)) (withV [(1, 5)])) 4 0 = some 10 := by decide +kernel

-- R135: sequencer arithmetic on 64 bits.
theorem test_sequencer :
    outS (exec (.sadd u 2 (r 0) (r 1)) (withS [0xFFFFFFFFFFFFFFFF, 2])) 2 = some 1 ∧
    outS (exec (.smulhi u true 2 (r 0) (r 1)) (withS [0xFFFFFFFFFFFFFFFF, 2])) 2 = some 1 ∧
    outS (exec (.sdiv u false 2 (r 0) (r 1)) (withS [0xFFFFFFFFFFFFFFF9, 2])) 2 = some 0xFFFFFFFFFFFFFFFD ∧
    outS (exec (.smovh u 0 0x12345678) (withS [0xFFFFFFFFFFFFFFFF])) 0 = some 0x12345678FFFFFFFF ∧
    outS (exec (.sclz u 2 (r 0)) (withS [1])) 2 = some 63 ∧
    outB (exec (.sbr u (.short (-2))) (blk sS fun b => { b with seq := b.seq.map fun q => { q with pc := 36 } }))
      (fun b => b.seq.map SeqThread.pc) = some (some 12) := by decide +kernel

-- R107, R326, R82: TRAP 5 with argument 7; without a handler the block goes to its die kernel. STALL.SHORT names the register (R88).
theorem test_traps :
    outB (exec (.trap u 5 (.imm 7)) sS) trapOf = some (0x45, 7, .kernel) ∧
    outB (exec (.trap u 5 (.imm 7)) sW) trapOf = some (0x45, 7, .kernel) ∧
    outB (exec (.iadd u (r 0) (r 64) (r 1)) sW) trapOf = some (0x02, 0, .kernel) := by decide +kernel

-- R109, R111: a handler starts at TRAPENTRY, eight bytes of the header's HW3; TRET goes back.
theorem test_handler :
    let s : State := { blk sS fun b => { b with hdr := { b.hdr with trapv := true }, trapPa := 64 } with
      phys := { sS.phys with bytes := cellsFrom 65 [0x10] } }
    outB (exec (.brk u none) s) (fun b => (b.hst, b.seq.map fun q => (q.pc, q.hidden))) =
      some (.handler, some (0x1000, some 0)) ∧
    outB (exec (.tret u) (blk sS fun b => { b with hst := .handler, seq := b.seq.map fun q => { q with hidden := some 24 } }))
      (fun b => (b.hst, b.seq.map SeqThread.pc)) = some (.run, some 24) := by decide +kernel

-- R32, R196, R203: a local store enters the buffer; DRAIN writes it, little-endian; a misaligned one faults ALIGN.
theorem test_local_store :
    let a : Access := { aid := 2, inst := 1, die := 0, ctx := 0, loc := some 1, line := 0, va := 0, page := 0, keyid := 0, slice := 0
                        kind := .store [(8, 0x34), (9, 0x12)], acq := none, rel := none, st := .buffer, refusals := 0, firstRef := 0
                        retryAt := 0, repl := false }
    outB (exec (.drain 9) (sW.setAgent 2 ⟨.warp 1 0, 0, [9], [], []⟩ |> fun s => { s with om := { s.om with accs := [(9, a)] } }))
      (fun b => (b.byte 8, b.byte 9)) = some (0x34, 0x12) ∧
    outB (exec (.stl u (.plain .b32) (r 1) (.imm 2) none) sW) trapOf = some (0x12, 0, .kernel) := by decide +kernel

-- The first step after a word is placed runs it, on the engine that accepts it: NOP, and SADD S2, S0, 5.
theorem test_step :
    outB (step (State.reset.withFetchWord 96 (word 0x000 0 0 0 0).toNat)) (fun b => b.warps.map Warp.pc) = some [12] ∧
    outB (step (State.reset.withFetchWord 96 (word 0x302 0 2 0 0x80005).toNat)) (fun b => b.seq.map fun q => (q.pc, q.get 2)) =
      some (some (12, 5)) := by decide +kernel

-- R58, log entry 64: in a format of one significand bit a tie goes to the even code: 1.5 and 6.0 in b8p1s.
theorem test_one_bit_ties :
    (B8.ofCode 1).enc (.mode .rne) false (.fin false 3 (-1)) = 0x40 ∧ (B8.ofCode 1).enc (.mode .rne) false (.fin false 3 1) = 0x42 := by decide

theorem test_reset_mem : Memory.wf State.reset.phys.bytes = true := by decide

-- A state and operands that meet the hypotheses of each statement, one theorem for each, one line for each clause.

/-- The instruction's own effect begins, and `p` holds of what it sees. -/
def wOk (s : State) (i : Instr) (p : WEnv → Bool) : Bool :=
  match i.ctl with
  | some c => (s.warpStart i c).any p
  | none => false
def sOk (s : State) (i : Instr) (p : SEnv → Bool) : Bool :=
  match i.ctl with
  | some c => (s.seqStart i c).any p
  | none => false
def begins (l : List Instr) : Bool := l.all fun i => wOk sW i fun _ => true
def beginsS (l : List Instr) : Bool := l.all fun i => sOk sS i fun _ => true

/-- A guard on P0, which is clear. -/
def g0 : Ctl := ⟨.pred 0 false, 1, false⟩
/-- The block with two threads, the second changed. -/
def two (f : Thread → Thread) : State := blk sW fun b => { b with
  hdr := { b.hdr with widths := 1 :: b.hdr.widths.drop 1 }, threads := [b.thread 0, f (b.thread 0)], remap := [0x20, 0x20]
  warps := b.warps.map fun w => { w with lanes := some 0 :: some 1 :: w.lanes.drop 2 } }
/-- The block with a second warp that runs and waits for `x`. -/
def pair (x : Wait) : State := blk sW fun b => { b with
  threads := List.replicate 33 (b.thread 0), homes := b.homes ++ b.homes, remap := List.replicate 32 0x20 ++ [0x21]
  hdr := { b.hdr with widths := 6 :: b.hdr.widths.drop 1 }
  warps := b.warps ++ b.warps.map fun w => { w with k := 1, aid := 9, lanes := some 32 :: w.lanes.drop 1, wait := x } }
/-- The block with every thread under a nesting counter: no lane is effective. -/
def quiet : State := thr fun t => { t with nest := 1 }
/-- The block with an access of the warp outstanding on these cells. -/
def owing (ds : List Cell) : State :=
  { sW with om := { sW.om with accs := [(9, { aid := 2, inst := 1, die := 0, ctx := 0, loc := some 1, line := 0, va := 0, page := 0
                                              keyid := 0, slice := 0, kind := .load 0 4 (ds.map fun c => ⟨c, 0, 4, false⟩), acq := none
                                              rel := none, st := .issued, refusals := 0, firstRef := 0, retryAt := 0, repl := false })] } }
/-- Every agent has this access of agent `aid` outstanding. -/
def owes (s : State) (aid : Nat) (kind : AccKind) (st : AccSt) : State := { s with om := { s.om with
  accs := [(9, { aid := aid, inst := 1, die := 0, ctx := 0, loc := none, line := 0, va := 0, page := 0, keyid := 0, slice := 0, kind := kind
                 acq := none, rel := none, st := st, refusals := 0, firstRef := 0, retryAt := 0, repl := false })]
  agents := s.om.agents.map fun p => (p.1, { p.2 with issue := [9] }) } }
/-- A store that has not been performed. -/
def busy (s : State) (aid : Nat) : State := owes s aid (.store [(0, 1)]) .buffer
def err (x : Except Stop Unit) : Bool :=
  match x with
  | .error _ => true
  | .ok _ => false

theorem wit_IntegerResults : begins [.mov u (r 0) (.short (r 1)), .mov u (r 0) (.long 5), .iadd u (r 0) (r 1) (r 2), .isub u (r 0) (r 1) (r 2),
    .imul u (r 0) (r 1) (r 2), .imad u (r 0) (r 1) (r 2), .imulhi u true (r 0) (r 1) (r 2), .idiv u false (r 0) (r 1) (r 2),
    .irem u true (r 0) (r 1) (r 2), .imin u false (r 0) (r 1) (r 2), .imax u true (r 0) (r 1) (r 2), .iabs u (r 0) (r 1),
    .and u (r 0) (r 1) (r 2), .or u (r 0) (r 1) (r 2), .xor u (r 0) (r 1) (r 2), .not u (r 0) (r 1), .shl u (r 0) (r 1) (r 2),
    .shr u true (r 0) (r 1) (r 2), .popc u (r 0) (r 1), .clz u (r 0) (r 1), .brev u (r 0) (r 1)] = true ∧ (1 : Word32) ≠ 0 := by
  decide +kernel
theorem wit_FieldResults : begins [.bfe u true (r 0) (r 1) (r 2), .bfi u (r 0) (r 1) (r 2), .sel u 3 (r 0) (r 1) (r 2)] = true := by
  decide +kernel
-- R53, R58: 0 and 1 as the operands of the exact results.
theorem wit_FloatResults_exact :
    f32.dec 0 = .fin false 0 (-149) ∧ f32.dec 0x3F800000 = .fin false (2 ^ 23) (-23) ∧ (FV.fin false 0 (-149)).val = 0 ∧
    (FV.fin false 0 (-149)).val < (FV.fin false (2 ^ 23) (-23)).val ∧ 0x3F800000 < 2 * f32.sgn ∧ f32.dec 0x3F800000 ≠ .nan :=
  ⟨by decide, by decide, by norm_num [FV.val], by norm_num [FV.val], by decide, by decide⟩
-- A finite value, an infinity, a NaN; a binary8 format of each kind; 2.0.
theorem wit_RoundedOnce :
    (∀ f ∈ [f32, f16, bf16], (0 % f.sgn < f.inf ∧ 0 < 2 * f.sgn) ∧ (f.inf % f.sgn = f.inf ∧ f.inf < 2 * f.sgn) ∧
      (f.inf < (f.inf + 1) % f.sgn ∧ f.inf + 1 < 2 * f.sgn)) ∧
    (0 < (B8.ofCode 4).p ∧ (B8.ofCode 4).p ≤ 8 ∧ ((B8.ofCode 4).uns && true) = false) ∧ (B8.ofCode 0x14).uns = true ∧
    f32.dec (0x40000000#32).toNat = .fin false (2 ^ 23) (-22) := by decide
theorem wit_FloatResults : begins [.fadd u .rne (r 0) (r 1) (r 2), .fsub u .rup (r 0) (r 1) (r 2), .fmul u .rdn (r 0) (r 1) (r 2),
    .ffma u .rtz (r 0) (r 1) (r 2), .fmin u (r 0) (r 1) (r 2), .fmax u (r 0) (r 1) (r 2), .fabs u (r 0) (r 1), .fneg u (r 0) (r 1),
    .pkadd u .rne true (r 0) (r 1) (r 2), .pkmul u .rne false (r 0) (r 1) (r 2), .pkfma u .rne true (r 0) (r 1) (r 2),
    .pkmin u true (r 0) (r 1) (r 2), .pkmax u false (r 0) (r 1) (r 2)] = true := by decide +kernel
theorem wit_ConvertResults : begins [.cvt u .f16f32 .rne (r 0) (r 1), .cvt8 u .sr true (r 0) (r 1) 0x104, .cvtf8 u .rne (r 0) (r 1) 0x04,
    .sfu u .sin (r 0) (r 1)] = true ∧ (0x104#19).getLsbD 8 = true ∧ (0x04#19).getLsbD 8 = false ∧ (0x04#19).toNat / 256 % 4 = 0 ∧
    (0x104#19).toNat / 256 % 4 = 1 ∧ (0x204#19).toNat / 256 % 4 = 2 ∧ (B8.ofCode 4).dec 0x44 = .fin false 12 (-3) := by decide +kernel
-- R186: the operands that the special cases of SFU name: 1, -1, 2^20.
theorem wit_ConvertResults_special :
    f32.dec (0x3F800000#32).toNat = .fin false (2 ^ 23) (-23) ∧ (FV.fin false (2 ^ 23) (-23)).val = (1 : Int) ∧
    (FV.fin false (2 ^ 23) (-23)).val = 2 ^ (0 : Int) ∧ f32.dec (0xBF800000#32).toNat = .fin true (2 ^ 23) (-23) ∧
    f32.dec (0x49800000#32).toNat = .fin false (2 ^ 23) (-3) ∧ 2 ^ 20 ≤ |(FV.fin false (2 ^ 23) (-3)).val| ∧
    f32.dec (0x80000000#32).toNat = .fin true 0 (-149) :=
  ⟨by decide, by norm_num [FV.val], by norm_num [FV.val], by decide, by decide, by norm_num [FV.val], by decide⟩
-- R54, R182: the patterns that the clauses name.
theorem wit_NanAndRangeEdges :
    f32.dec 0x7FC00000 = .nan ∧ f16.dec 0x7E00 = .nan ∧ f32.dec 0xFF800000 = .inf true ∧ f32.dec 0x7F800000 = .inf false ∧
    (∃ e, f32.dec 0x00000000 = .fin false 0 e) ∧ (∃ m e, f32.dec 0x4F800000 = .fin false m e ∧ 2 ^ 32 ≤ m * 2 ^ e.toNat ∧ 0 ≤ e) ∧
    (∃ m e, f32.dec 0xCF800000 = .fin true m e ∧ 2 ^ 32 ≤ m * 2 ^ e.toNat ∧ 0 ≤ e) :=
  ⟨by decide, by decide, by decide, by decide, ⟨-149, by decide⟩, ⟨2 ^ 23, 9, by decide⟩, ⟨2 ^ 23, 9, by decide⟩⟩
theorem wit_PredicateResults : begins [.iset u .lt true 0 (r 1) (r 2), .fset u .ne 1 (r 1) (r 2), .plop u 8 0 1 2, .pmov u (r 0),
    .pmovP u (r 1), .agree u .all false 0 1, .ballot u true (r 0) 1] = true := by decide +kernel
theorem wit_Relations : f32.dec (0x7FC00000#32).toNat = .nan := by decide
theorem wit_LaneResults : begins [.shfl u .up (some 2) (r 0) (r 1) (r 2), .xwin u 1 2 3, .xset u 1 (r 1), .msr u .rng (r 1),
      .msr u .schk (.imm 1)] = true ∧
    wOk sW (.shfl u .idx none (r 0) (r 1) (r 2)) (fun e => decide ((srcI e (0, 0) (r 2)).toNat = 0 ∧ 0 < e.b.nThreads ∧
      (e.b.remap.getD 0 0).getLsbD 5 = true ∧ e.w.lanes.contains (some 0) = true ∧ (e.b.thread 0).live = true)) = true ∧
    wOk (withV [(2, 1)]) (.shfl u .up none (r 0) (r 1) (r 2)) (fun e => decide ((srcI e (0, 0) (r 2)).toNat = 1 ∧ e.b.nThreads ≤ 1)) = true ∧
    wOk (two fun t => { t with live := false }) (.shfl u .idx none (r 0) (r 1) (.imm 1)) (fun e => decide
      ((srcI e (0, 0) (.imm 1)).toNat = 1 ∧ (e.b.thread 1).live = false)) = true := by decide +kernel
theorem wit_LaneResults_remap : begins [.remap u (r 0) (r 1)] = true := by decide +kernel
theorem wit_LatencyShows :
    let i : Instr := .iadd u (r 0) (r 1) (r 2)
    writesV i = true ∧ isTransient i = false ∧ wOk sW i (fun e => decide (
      (∃ x ∈ [((0, 0, 5) : Nat × Nat × Word32)], x = (0, 0, 5)) ∧ (e.w.binds.any fun y => y.1 == 0) = false ∧ 0 < e.b.threads.length ∧
      e.w.clock + 4 ≤ 4 ∧ 3 < e.w.clock + 4) &&
      (((retireFixed e i 4 ⟨[(0, 0, 5)], []⟩).block e.b.id).any fun b => (b.warp? e.w.k).isSome)) = true := by decide +kernel
-- R193: a predicate, an index register and a window; R103: a transient destination.
theorem wit_LatencyShows_other :
    let t : Instr := .iadd u (.reg 0 true false) (r 1) (r 2)
    let res : Res := ⟨[], [(.p 0 3, 1), (.x 0 1, 7), (.xwin 0 1, 512 * 4 + 8)]⟩
    writesV t = true ∧ isTransient t = true ∧ (res.other.map Prod.fst).Nodup ∧ wOk sW t (fun e => decide (
      (e.w.binds.any fun y => y.1 == 0) = false ∧ ((killMarks e.b e.eff t).thread 0).dead.contains 0 = false) &&
      (((retireFixed e t 4 ⟨[(0, 0, 5)], []⟩).block e.b.id).any fun b => (b.warp? e.w.k).isSome)) = true ∧
    wOk sW (.xset u 1 (r 1)) (fun e => decide (0 < e.b.threads.length ∧ 1 < (e.b.thread 0).x.length ∧ 0 < e.b.homes.length ∧
      1 < (e.b.home (32 * 0)).xwin.length) &&
      (((retireFixed e (.xset u 1 (r 1)) 4 res).block e.b.id).any fun b => (b.warp? e.w.k).isSome)) = true := by decide +kernel
theorem wit_DeadRegisters : ((thr fun t => { t with dead := [5] }).block 1).any (fun b => (b.thread 0).dead.contains 5 &&
    decide (0 < b.threads.length)) = true := by decide +kernel
theorem wit_FixedFrame : fixedClass (.shl u (r 0) (r 1) (r 2)) = true ∧ begins [.shl u (r 0) (r 1) (r 2)] = true := by decide +kernel

theorem wit_SequencerResults : beginsS [.smov u 1 (.short (r 2)), .smov u 1 (.sext 5), .smov u 1 (.zext 5), .smovh u 1 5,
    .sadd u 1 (r 2) (r 3), .ssub u 1 (r 2) (r 3), .smul u 1 (r 2) (r 3), .smulhi u true 1 (r 2) (r 3), .sdiv u false 1 (r 2) (r 3),
    .srem u true 1 (r 2) (r 3), .smin u true 1 (r 2) (r 3), .smax u false 1 (r 2) (r 3), .sand u 1 (r 2) (r 3), .sor u 1 (r 2) (r 3),
    .sxor u 1 (r 2) (r 3), .sshl u 1 (r 2) (r 3), .sshr u true 1 (r 2) (r 3), .spopc u 1 (r 2), .sclz u 1 (r 2),
    .ssel u 3 1 (r 2) (r 3), .sset u .lt true 1 (r 2) (r 3), .qlop u 8 0 1 2] = true := by decide +kernel
theorem wit_SequencerFrame : seqAlu (.sadd u 1 (r 2) (r 3)) = some 1 ∧ beginsS [.sadd u 1 (r 2) (r 3)] = true := by decide +kernel
theorem wit_SequencerSkips :
    let i : Instr := .sadd g0 1 (r 2) (r 3)
    (match sS.issuer with
     | some (.seq b q) => sS.canIssue (.seq b q) && i.wfOn .seq && !seqBlocked sS b q i && !guardS q g0
     | _ => false) = true := by decide +kernel

/-- Memory with a table of one entry at address 64 (R136). -/
def withTable (s : State) : State := { s with phys := { s.phys with bytes := [(64, 1)] } }
theorem wit_SequencerBranches :
    beginsS [.sbr u (.short 2), .scall u 1 (.short 2), .scall u 1 (.long 2), .scall u 1 (.reg 2)] = true ∧
    sOk sS (.scall u 1 (.short 2)) (fun e => decide ((branchTo e.q.pc 2).toNat % 4 = 0)) = true ∧
    sOk (withS [0, 0, 2]) (.scall u 1 (.reg 2)) (fun e => decide (((e.q.get 2).setWidth 54).toNat % 4 ≠ 0)) = true ∧
    sOk sS (.sret u 1) (fun e => decide ((e.q.get 1).toNat % 4 = 0)) = true ∧
    sOk (withS [0, 2]) (.sret u 1) (fun e => decide ((e.q.get 1).toNat % 4 ≠ 0)) = true ∧
    sOk (withTable (blk sS fun b => { b with seq := b.seq.map fun q => { q with pc := 40 } })) (.sbrx u 1 2) (fun e =>
      match e.s.tableHead e.q.aid e.b 64 with
      | .ok (s1, 1, false, _) => decide ((e.q.get 1).toNat < 1) && (match s1.tableEntry e.q.aid e.b 64 0 with
        | .ok _ => true
        | _ => false)
      | _ => false) = true ∧
    sOk sS (.sbrx u 1 2) (fun e => match e.s.tableHead e.q.aid e.b 24 with
      | .ok (_, 0, false, _) => (e.b.specOf e.q.aid).isNone
      | _ => false) = true := by decide +kernel
theorem wit_DecisionPush :
    let i : Instr := .dqpush u (.short (r 1))
    let full := blk sS fun b => { b with dq := List.replicate 32 0 }
    sOk sS i (fun e => decide (e.q.handlerOnly = false ∧ e.b.liveHomes ≠ [] ∧ e.b.dq.length < 32)) = true ∧
    sOk full i (fun e => decide (e.q.handlerOnly = false ∧ e.b.liveHomes ≠ [] ∧ 32 ≤ e.b.dq.length)) = true ∧
    sOk (blk sS fun b => { b with seq := b.seq.map fun q => { q with handlerOnly := true } }) i (fun e => e.q.handlerOnly) = true ∧
    sOk (blk sS fun b => b.modThread 0 fun t => { t with live := false }) i (fun e => decide (e.b.liveHomes = [])) = true ∧
    sOk sS (.wwaitDq u) (fun e => decide (∀ h ∈ e.b.liveHomes, e.b.rdpos h = e.b.push)) = true ∧
    sOk full (.wwaitDq u) (fun e => decide (∃ h ∈ e.b.liveHomes, e.b.rdpos h ≠ e.b.push)) = true ∧
    sOk sS (.wwaitExit u 1 2) (fun e => decide ((∀ h ∈ e.b.liveHomes, ((e.q.get 2).toNat % 2 ^ e.b.nWarps).testBit h = false) ∧
      e.s.warpsDone e.b ((e.q.get 2).toNat % 2 ^ e.b.nWarps) = true)) = true := by decide +kernel

/-- A warp that checks early reads, with V1 due only at distance 4. -/
def early : State := blk sW fun b => { b with homes := b.homes.map fun h => { h with schk := true }
                                              warps := b.warps.map fun w => { w with byp := [⟨4, [(0, 1, 7)], false⟩] } }
theorem wit_CheckOrder :
    let e (s : State) : WEnv := match s.issuer with
      | some (.warp b w) => warpEnv s b w u
      | _ => ⟨s, placedBlock 1 1, Warp.fresh 0 0 0 [], u⟩
    let i : Instr := .iadd u (r 0) (r 1) (r 2)
    (Instr.sadd u 0 (r 1) (r 2)).wfOn .warp = false ∧
    (Instr.iadd u (r 64) (r 1) (r 2)).wfOn .warp = true ∧ windowOk (e sW).b (.iadd u (r 64) (r 1) (r 2)) = false ∧
    i.wfOn .warp = true ∧ windowOk (e sW).b i = true ∧
    (∃ x ∈ touchedCells (e (owing [.v 0 1])).b (e (owing [.v 0 1])).w i u, x ∈ (owing [.v 0 1]).outstanding 1) ∧
    checksStall (e early).b (e early).w = true ∧ earlyRead (e early).b (e early).w i u = some 1 ∧
    (∀ x ∈ touchedCells (e early).b (e early).w i u, x ∉ early.outstanding 1) ∧
    (indexFault (e sW).b (e sW).eff (.iadd u (r 0) (.idx 0 5 false false) (r 2))).isSome = true ∧
    (Instr.iadd u (r 0) (.idx 0 5 false false) (r 2)).wfOn .warp = true ∧
    indexFault (e sW).b (e sW).eff i = none ∧ indexPairFault (e sW).b (e sW).eff i = false ∧ boundWrite (e sW) i = none := by
  decide +kernel
theorem wit_FaultTaken :
    (match sW.issuer with
     | some (.warp b w) => sW.canIssue (.warp b w) && (match warpChecks (warpEnv sW b w u) (.iadd u (r 64) (r 1) (r 2)) with
        | .error (.trap x) => x.lanes.isNone && ((warpEnv sW b w u).b.specOf w.aid).isNone
        | _ => false)
     | _ => false) = true := by decide +kernel
theorem wit_IdleAndInterlocked :
    let stopped := blk sW fun b => { b with hst := .kernel }
    (stopped.issuer.any fun x => !stopped.canIssue x) = true ∧
    ((owing [.v 0 1]).issuer.any fun x => (owing [.v 0 1]).canIssue x) = true ∧
    (∃ x ∈ touchedCells (placedBlock 1 1) ((placedBlock 1 1).warps.headD (Warp.fresh 0 0 0 [])) (.iadd u (r 0) (r 1) (r 2)) u,
      x ∈ (owing [.v 0 1]).outstanding 1) := by decide +kernel
theorem wit_TrapEntry :
    let has (s : State) (p : Block → Bool) : Bool := (s.block 1).any fun b => decide (b.id = 1 ∧ b.spec = []) && p b
    let hdl := blk sW fun b => { b with hdr := { b.hdr with trapv := true } }
    has hdl (fun b => decide (b.hst = .run ∧ b.hdr.trapv = true ∧ b.hdr.seqv = true) && b.seq.any fun q => !q.exited) = true ∧
    has (blk hdl fun b => { b with seq := b.seq.map fun q => { q with exited := true } })
      (fun b => decide (b.hst = .run ∧ b.hdr.trapv = true) && b.seq.any fun q => q.exited) = true ∧
    has (blk hdl fun b => { b with seq := none }) (fun b => decide (b.hst = .run ∧ b.hdr.trapv = true ∧ b.seq = none)) = true ∧
    has (blk sW fun b => { b with hst := .handler }) (fun b => decide (b.hst = .handler ∧ b.die < sW.dies.length)) = true ∧
    has sW (fun b => decide (b.hdr.trapv = false)) = true := by decide +kernel
theorem wit_TrapReturns :
    let inside := blk sS fun b => { b with hst := .handler, seq := b.seq.map fun q => { q with hidden := some 24 } }
    ∀ i ∈ [Instr.tret u, .tretSkip u], sOk inside i (fun e => decide (e.b.hst = .handler)) = true ∧
      sOk sS i (fun e => decide (e.b.hst ≠ .handler) && (e.b.specOf e.q.aid).isNone) = true ∧
      (inside.block 1).any (fun b => b.seq.any fun q => decide (q.hidden = some 24 ∧ ∃ w ∈ b.warps, w.k = b.trap.warp)) = true := by
  decide +kernel
theorem wit_SoftwareTraps :
    (∀ i ∈ [Instr.trap u 5 (.imm 7), .brk u none],
      wOk sW i (fun e => decide (e.eff ≠ []) && e.s.agentSettled true .sys e.w.aid) = true ∧
      wOk (busy sW 2) i (fun e => decide (e.eff ≠ []) && !e.s.agentSettled true .sys e.w.aid) = true ∧
      wOk quiet i (fun e => decide (e.eff = [])) = true ∧
      sOk sS i (fun e => e.s.agentSettled true .sys e.q.aid && (e.b.specOf e.q.aid).isNone) = true ∧
      sOk (busy sS 3) i (fun e => !e.s.agentSettled true .sys e.q.aid) = true) ∧
    (∀ f : Bool, (if f then owes sS 3 (.fence .pkg) .issued else sS).issuer.any (fun x => match x with
      | .seq b q => (if f then owes sS 3 (.fence .pkg) .issued else sS).canIssue (.seq b q) &&
          seqFenced (if f then owes sS 3 (.fence .pkg) .issued else sS) q == f && (b.specOf q.aid).isNone
      | _ => false) = true) ∧
    (sW.issuer.any fun x => sW.canIssue x) = true ∧ (sS.issuer.any fun x => sS.canIssue x) = true := by decide +kernel
theorem wit_NopOnlyMovesOn : begins [.nop u] = true ∧ beginsS [.nop u] = true ∧ (Instr.nop g0).wfOn .seq = true ∧
    sS.issuer.any (fun x => match x with
      | .seq b q => sS.canIssue x && !guardS q g0 && !seqBlocked sS b q (.nop g0)
      | _ => false) = true := by decide +kernel

theorem wit_WarpBranches :
    let hold (e : WEnv) := (countedLanes e.b e.w).filter fun l => guardHolds e.b e.c l.2
    let pops (x : Word64) := blk sW fun b => { b with dq := [x] }
    let tgt (e : WEnv) (l : Nat × Nat) := addr54 (regV e l (r 2) 0) (regV e l (r 2) 1)
    wOk sW (.br u (.short 2)) (fun e => decide (hold e ≠ [] ∧ (hold e).length = (countedLanes e.b e.w).length)) = true ∧
    wOk sW (.br g0 (.short 2)) (fun e => decide (hold e = [])) = true ∧
    wOk (two fun t => { t with p := 1 }) (.br g0 (.short 2)) (fun e => decide (hold e ≠ [] ∧
      (hold e).length ≠ (countedLanes e.b e.w).length)) = true ∧
    begins [.call u (r 2) (.short 2)] = true ∧
    wOk sW (.ret u (r 2)) (fun e => decide (e.eff ≠ [] ∧ ∀ l ∈ e.eff, tgt e l = 0)) = true ∧
    wOk (withV [(2, 2)]) (.ret u (r 2)) (fun e => decide (e.eff ≠ [] ∧ ∀ l ∈ e.eff, tgt e l = 2)) = true ∧
    wOk (two fun t => { t with v := [(2, 4)] }) (.ret u (r 2)) (fun e => decide (∃ l ∈ e.eff, ∃ k ∈ e.eff, tgt e l ≠ tgt e k)) = true ∧
    (∀ x : Bool, wOk (pops (if x then 1 else 0)) (.brq u 2) (fun e => decide (popHomes e.b e.w ≠ [] ∧
      ∀ h ∈ popHomes e.b e.w, e.b.rdpos h < e.b.push ∧ (e.b.dqAt h != 0) = x)) = true) ∧
    wOk (pops 5) (.movq u (r 2)) (fun e => decide (∀ h ∈ popHomes e.b e.w, e.b.rdpos h < e.b.push)) = true ∧
    wOk sW (.movq u (r 2)) (fun e => decide (e.b.closed = false ∧ ∃ h ∈ popHomes e.b e.w, e.b.push ≤ e.b.rdpos h)) = true ∧
    wOk (blk sW fun b => { b with closed := true }) (.movq u (r 2)) (fun e => decide (e.b.closed = true ∧
      ∃ h ∈ popHomes e.b e.w, e.b.push ≤ e.b.rdpos h)) = true := by decide +kernel
theorem wit_Meetings :
    let tags (c : Ctl) (e : WEnv) := meetingTags e.b.settleWarps fun _ t => if guardHolds e.b.settleWarps c t then 0 else 1
    let room (e : WEnv) := meetingReady e.b e.w && e.s.warpsSettled e.b .blk && e.b.settleWarps.canPush
    let parted := two fun t => { t with p := 1 }
    (∀ i ∈ [Instr.brd g0 2 4, .brx u (r 1) 2, .call g0 (r 2) (.short 2)],
      wOk (pair .none) i (fun e => decide (meetingReady e.b e.w = false)) = true) ∧
    wOk sW (.brd u 2 4) (fun e => decide (meetingReady e.b e.w = true ∧ pathTags (tags u e) = [0])) = true ∧
    wOk sW (.brd g0 2 4) (fun e => decide (meetingReady e.b e.w = true ∧ pathTags (tags g0 e) = [1])) = true ∧
    wOk parted (.brd g0 2 4) (fun e => room e && decide (pathTags (tags g0 e) = [0, 1])) = true ∧
    wOk parted (.call g0 (r 2) (.short 2)) (fun e => room e && decide (pathTags (tags g0 e) = [0, 1])) = true ∧
    wOk (blk parted fun b => { b with stack := List.replicate 8 ⟨0, .brd, 0, 1, 0, 0, [], []⟩ }) (.brd g0 2 4) (fun e =>
      decide (meetingReady e.b e.w = true ∧ e.s.warpsSettled e.b .blk = true ∧ e.b.settleWarps.canPush = false ∧
        pathTags (tags g0 e) = [0, 1]) && (e.b.specOf e.w.aid).isNone) = true ∧
    wOk (withTable (blk sW fun b => { b with warps := b.warps.map fun w => { w with pc := 40 } })) (.brx u (r 1) 2) (fun e =>
      let b := e.b.settleWarps
      let ls := (meetingLanes b).filter fun l => (b.thread l.2.2).nest == 0
      decide (meetingReady e.b e.w = true ∧ ls ≠ [] ∧ (∀ l ∈ ls, brxIndex b l.1 (r 1) l.2.2 = 0) ∧
        ∀ l ∈ meetingLanes b, l.2.2 < b.threads.length) && (match e.s.tableHead e.w.aid e.b 64 with
        | .ok (s1, 1, false, _) => (match s1.tableEntry e.w.aid e.b 64 0 with
          | .ok _ => true
          | _ => false)
        | _ => false)) = true := by decide +kernel
theorem wit_Nesting :
    let deep := thr fun t => { t with nest := 15 }
    begins [.ifOpen u false 0, .elseFlip u, .endIf u, .loop u, .brkLoop u false 3 0, .cont u false 3 0] = true ∧
    wOk deep (.ifOpen u false 0) (fun e => decide (∃ l ∈ liveLanes e.b e.w, 15 < (e.b.thread l.2).nest + 1) &&
      (e.b.specOf e.w.aid).isNone) = true ∧
    wOk deep (.loop u) (fun e => decide (∃ l ∈ liveLanes e.b e.w, 15 < (e.b.thread l.2).nest + 2)) = true ∧
    wOk quiet (.endl u (-2)) (fun e => decide (∃ l ∈ liveLanes e.b e.w, (e.b.thread l.2).nest = 1)) = true ∧
    wOk (thr fun t => { t with nest := 2 }) (.endl u (-2)) (fun e => decide (∀ l ∈ liveLanes e.b e.w, (e.b.thread l.2).nest = 2)) = true := by
  decide +kernel

/-- The page at address 0 with a KIND. -/
def onPage (s : State) (kind : Nat) : State :=
  s.modCore 0 fun c => { c with tlb := [{ placedPage with pte := BitVec.ofNat 64 (0x3F + 256 * kind) }] }
/-- Die 0's time unit is disciplined: 500 to 900 at time 0. -/
def timed (s : State) : State := s.modDie 0 fun d => { d with time := ⟨.disciplined, 500, 900, 900, 0, none⟩ }
def ok {α : Type} (x : Except Stop α) : Bool :=
  match x with
  | .ok _ => true
  | .error _ => false
def okOne (x : Except Stop (State × List Site)) : Bool :=
  match x with
  | .ok (_, [_]) => true
  | _ => false

theorem wit_LaneAddresses :
    (sW.block 1).any (fun b => decide (b.winCheck 0 4 = none ∧ b.winCheck 4092 4 = none ∧ b.winCheck 4093 4 = some 1 ∧
      b.winCheck (-1) 4 = some 1)) = true ∧
    ((blk sW fun b => { b with hdr := { b.hdr with hdlg := 1 } }).block 1).any (fun b => decide (b.winCheck 0 4 = some 3)) = true := by
  decide +kernel
theorem wit_AccessFaults :
    let bad (e : WEnv) := e.eff.filter fun l => gaddrW e (r 2) none l % 4 != 0
    let lbad (e : WEnv) (a : Operand) := e.eff.filter fun l => laddrW e a none l % 4 != 0
    (∀ i ∈ [Instr.ld u (.plain .b32) (r 0) (r 2) none, .st u (.plain .b32) (r 0) (r 2) none], wOk (withV [(2, 2)]) i (fun e =>
      decide (bad e = [(0, 0)]) && (e.b.specOf e.w.aid).isNone) = true) ∧
    (∀ i ∈ [Instr.ldl u (.plain .b32) (r 0) (.imm 2) none, .stl u (.plain .b32) (r 0) (.imm 2) none],
      wOk sW i (fun e => decide (lbad e (.imm 2) = [(0, 0)])) = true) ∧
    (∀ i ∈ [Instr.ldl u (.plain .b32) (r 0) (.imm 4096) none, .stl u (.plain .b32) (r 0) (.imm 4096) none],
      wOk sW i (fun e => decide (lbad e (.imm 4096) = [] ∧
        (e.eff.filter fun l => (e.b.winCheck (laddrW e (.imm 4096) none l) 4).isSome) = [(0, 0)])) = true) := by decide +kernel
theorem wit_PageChecks :
    let lost : State := { sW with pkg := { sW.pkg with msgs := [⟨1, 0, true, .diedown 1, none, []⟩] } }.modDie 0 fun d => { d with delivered := 1 }
    sW.phys.region 0 = .hbm ∧ lifeAt sW.pkg.msgs (sW.die 0).delivered 0 ≠ some false ∧
    lost.phys.region (2 ^ 37) = .hbm ∧ lifeAt lost.pkg.msgs (lost.die 0).delivered (2 ^ 37 / 2 ^ 37 % 8) = some false ∧
    (0x80#64).getLsbD 7 = true ∧ (0x1F#64).getLsbD 5 = false ∧ (0x37#64).getLsbD 3 = false ∧ (0x2F#64).getLsbD 4 = false ∧
    (0x3B#64).getLsbD 2 = false ∧ (0x3F#64).getLsbD 7 = false ∧
    (let p : Word64 := 0x3F
     p.getLsbD 5 = true ∧ p.getLsbD 3 = true ∧ p.getLsbD 4 = true ∧ p.getLsbD 2 = true) ∧
    ((0x50000000000003F#64).extractLsb' 52 8).toNat = 0x50 ∧ aget (sW.phys.keyIx 0 0x50) sW.phys.keytab = none ∧
    (∀ k ∈ [0, 1, 2, 3], ((BitVec.ofNat 64 (0x3F + 256 * k)).extractLsb' 8 3).toNat = k) ∧
    sW.phys.region (2 ^ 40) = .staging ∧ sW.phys.region (2 ^ 51) = .device ∧
    ({ sW.phys with cxl := [⟨0, 2 ^ 48, 65536, false⟩] } : PMem).region (2 ^ 48) = .cxl := by decide +kernel
theorem wit_LoadsIssue :
    wOk sW (.ld u (.plain .b32) (r 0) (r 2) none) (fun e => okOne (sitesW e .ld 4 (r 2) none) && (e.b.specOf e.w.aid).isNone) = true ∧
    wOk sW (.ldl u (.plain .b128) (r 0) (.imm 16) none) (fun e => okOne (lsitesW e 16 (.imm 16) none)) = true ∧
    sOk sS (.ld u (.acq .b64 .die) (r 0) (r 2) (some 8)) (fun e => okOne (sitesS e .ld 8 (r 2) (some 8)) &&
      (e.b.specOf e.q.aid).isNone) = true ∧
    sOk sS (.ldl u (.plain .u8) (r 0) (.imm 16) none) (fun e => okOne (lsitesS e 1 (.imm 16) none)) = true := by decide +kernel
theorem wit_StoresIssue :
    wOk sW (.st u (.plain .b32) (r 0) (r 2) none) (fun e => okOne (sitesW e .st 4 (r 2) none) && (e.b.specOf e.w.aid).isNone) = true ∧
    wOk sW (.stl u (.plain .b8) (r 0) (.imm 4095) none) (fun e => okOne (lsitesW e 1 (.imm 4095) none)) = true := by decide +kernel
theorem wit_StoresIssue_sequencer :
    sOk sS (.st u (.rel .b64 .die) (r 0) (r 2) none) (fun e => okOne (sitesS e .st 8 (r 2) none) && (e.b.specOf e.q.aid).isNone) = true ∧
    sOk sS (.stl u (.plain .b64) (r 0) (.imm 8) none) (fun e => okOne (lsitesS e 8 (.imm 8) none)) = true := by decide +kernel
theorem wit_FencesAndRanges :
    begins [.fence u .sys, .pref u .l2 (r 2) none, .pref u .l2copy (r 2) none] = true ∧ wOk quiet (.fence u .blk) (fun _ => true) = true ∧
    beginsS [.fence u .pkg, .pref u .l2copy (r 2) none] = true ∧
    (∀ k ∈ [0, 1], ∀ x ∈ [(Instr.clean u (r 2) 2, AccType.clean), (.inval u (r 2) 2, .inval)],
      wOk (onPage sW k) x.1 (fun e => ok (e.s.spots e.w.aid e.b x.2 1 (e.eff.flatMap fun l =>
        (rangePages (gaddrW e (r 2) none l) 2).map fun va => (l.1, l.2, va))) && (e.b.specOf e.w.aid).isNone) = true ∧
      sOk (onPage sS k) x.1 (fun e => ok (e.s.spots e.q.aid e.b x.2 1 ((rangePages (gaddrS e (r 2) none) 2).map fun va => (0, 0, va)))) = true) := by
  decide +kernel
/-- Die 0 has a commutative range of binary32 sums over the page at 0. -/
def ranged (s : State) : State := (onPage s 2).modDie 0 fun d => { d with comm := [⟨0, 0, 65536, .add, .fp32⟩] }
theorem wit_AtomicsIssue :
    wOk sW (.atom u .add (r 0) (r 2) (r 4)) (fun e => ok (sitesW e .atom 4 (r 2) none)) = true ∧
    wOk sW (.acas u true .relaxed (r 0) (r 2) (r 4)) (fun e => ok (sitesW e .atom 4 (r 2) none)) = true ∧
    wOk sW (.redM u .add .f32 (r 2) (r 4)) (fun e => ok (sitesW e .redm 4 (r 2) none)) = true ∧
    wOk (ranged sW) (.redC u .b32 (r 2) (r 4)) (fun e => match sitesW e .redc 4 (r 2) none with
      | .ok (s1, [x]) => decide ((s1.rangeAt 0 (lineOf x.a)).map (fun y => commSize y.fmt) = some 4)
      | _ => false) = true ∧
    wOk (ranged sW) (.redC u .b16 (r 2) (r 4)) (fun e => match sitesW e .redc 2 (r 2) none with
      | .ok (s1, [x]) => decide ((s1.rangeAt 0 (lineOf x.a)).map (fun y => commSize y.fmt) ≠ some 2) && (e.b.specOf e.w.aid).isNone
      | _ => false) = true := by decide +kernel
theorem wit_StampedForms :
    let narrow (s : State) (b : Block) : Bool := decide ((s.die b.die).time.latest s.now - (s.die b.die).time.earliest s.now ≤ (s.die b.die).ceil)
    let near (s : State) (b : Block) (t : Nat) : Bool :=
      decide (t - (s.die b.die).time.earliest s.now ≤ max (s.die b.die).wl (s.die b.die).ceil)
    begins [.clk u (r 0)] = true ∧ beginsS [.clk u (r 0)] = true ∧
    (∀ i ∈ [Instr.sts u false (r 4) (r 2) (r 6), .ldas u none false (r 4) (r 2) (r 8), .cwait u (r 2)],
      wOk quiet i (fun e => decide (e.eff = [])) = true) ∧
    wOk (onPage (timed sW) 3) (.sts u false (r 4) (r 2) (r 6)) (fun e => match sitesW e .sts 4 (r 2) none with
      | .ok (s1, xs) => decide (e.eff ≠ [] ∧ e.w.wait ≠ .sts ∧ s1.loadsBound e.w.aid = true ∧
          s1.commitWaiters e.b.die + (dedup (xs.map fun x => lineOf x.a)).length ≤ 256) && narrow s1 e.b
      | _ => false) = true ∧
    wOk (timed sW) (.ldas u none false (r 4) (r 2) (r 8)) (fun e => match sitesW e .ld 4 (r 2) none with
      | .ok (s1, xs) => decide (e.eff ≠ []) && narrow s1 e.b && near s1 e.b (maxOf (xs.map fun x => (srcPair e (x.slot, x.thr) (r 8)).toNat))
      | _ => false) = true ∧
    (∀ p ∈ [(400, true), (500, false)], wOk (timed (withV [(2, BitVec.ofNat 32 p.1)])) (.cwait u (r 2)) (fun e =>
      decide (e.eff ≠ [] ∧ maxOf (e.eff.map fun l => (srcPair e l (r 2)).toNat) = p.1 ∧ e.w.wait = .none ∧
        e.s.stampPast e.b.die e.w.aid p.1 = p.2) && narrow e.s e.b && near e.s e.b p.1) = true) ∧
    sOk (timed sS) (.cwait u (r 2)) (fun e => decide ((srcSU e (r 2)).toNat = 0 ∧ e.s.stampPast e.b.die e.q.aid 0 = true) &&
      narrow e.s e.b && near e.s e.b 0) = true ∧
    wOk sW (.cwait u (r 2)) (fun e => decide (e.eff ≠ [] ∧ e.w.wait = .none) && !narrow e.s e.b && (e.b.specOf e.w.aid).isNone) = true := by
  decide +kernel
theorem wit_BarriersPass :
    let barred (s : State) (rg : Word32) : State := (s.setBarrier 3 ⟨2, rg, 0, 0, []⟩).modDie 0 fun d => { d with bars := [(3, 0)] }
    let owned (s : State) (b : Block) : Bool := s.barrierOk b.die 3 b.ctx
    let past (e : WEnv) : Bool := owned e.s e.b && decide (∀ l ∈ e.eff, ((e.s.barrier 3).rg - srcU e l (r 1) - 1).toNat < 2 ^ 31)
    let tds (x : Word64) : State := withS [0, 0, x]
    wOk sW (.bar u) (fun e => decide ((∀ w ∈ e.b.running, w.k = e.w.k ∨ w.wait = .bar false) ∧ e.s.warpsSettled e.b .blk = true)) = true ∧
    wOk (pair .none) (.bar u) (fun e => decide (∃ w ∈ e.b.running, w.k ≠ e.w.k ∧ w.wait ≠ .bar false)) = true ∧
    wOk sW (.barTeam u) (fun e => decide ((∀ w ∈ e.b.running, w.k = e.w.k ∨ w.wait = .bar true) ∧
      ∀ b ∈ e.s.teamBlocks e.b.team, e.s.warpsSettled b .cls = true ∧ (b.id ≠ e.b.id → ∀ w ∈ b.running, w.wait = .bar true))) = true ∧
    wOk (barred sW 0) (.bara u 3 (r 0)) (fun e => owned e.s e.b && decide (e.eff ≠ [])) = true ∧
    wOk sW (.bara u 3 (r 0)) (fun e => decide (e.eff ≠ []) && !owned e.s e.b && (e.b.specOf e.w.aid).isNone) = true ∧
    sOk (barred sS 0) (.bara u 3 (r 0)) (fun e => owned e.s e.b) = true ∧
    wOk (barred sW 1) (.barw u 3 (r 1)) (fun e => decide (e.eff ≠ []) && past e) = true ∧
    wOk (barred sW 0) (.barw u 3 (r 1)) (fun e => owned e.s e.b && !past e) = true ∧
    (∀ i ∈ [Instr.bara u 3 (r 0), .barw u 3 (r 1)], wOk quiet i (fun e => decide (e.eff = [])) = true) ∧
    sOk (tds 256) (.tdclr u 1 2) (fun e => decide (256 ≤ (e.q.get 2).toNat) && (e.b.specOf e.q.aid).isNone) = true ∧
    sOk (tds 255) (.tdclr u 1 2) (fun e => decide ((e.q.get 2).toNat < 256 ∧ e.s.agentSettled true .pkg e.q.aid = true)) = true ∧
    sOk (busy (tds 255) 3) (.tdclr u 1 2) (fun e => decide ((e.q.get 2).toNat < 256 ∧ e.s.agentSettled true .pkg e.q.aid = false)) = true := by
  decide +kernel

/-- Cells of 64-bit words from an offset on, in canonical form. -/
def cells (o : Nat) (l : List Nat) : List Host.Cell := putBytes [] (cellsFrom o (l.flatMap (bytesOfNat 8)))
/-- The window holds these words, and there are `acc` banks. -/
def window (s : State) (acc : Nat) (l : List Nat) : State :=
  blk s fun b => { b with clm := cells 0 l, hold := { b.hold with acc := acc }, bw := List.replicate acc 0 }
/-- R231's example: M 2, N 2, K 8, binary16. -/
def floush : List Nat := [0x0000040002000020, 0x0000010020100004, 0x20, 0x20]
theorem wit_MatrixIssue :
    let good (x : Except Stop (MDesc × List Nat × List Nat)) (s : State) (b : Block) : Bool := match x with
      | .ok (d, _, _) => decide (d.m = 2 ∧ d.bankCount = 1) && ok (matSlot s b d 0)
      | .error _ => false
    wOk (window sW 1 floush) (.mma u true (r 8) (.imm 0)) (fun e => good (readMDesc e.s e.b e.w.aid true 0) e.s e.b &&
      decide (e.eff ≠ [] ∧ 8 + 2 ≤ e.b.bnd ∧ (∀ p ∈ liveLanes e.b e.w, ∀ n ∈ ([8, 9] : List Nat), Cell.v p.2 n ∉ e.s.outstanding e.b.id) ∧
        checksStall e.b e.w = false ∧ e.w.binds = [])) = true ∧
    wOk (window sW 1 floush) (.mmaA u true (.imm 0) (.imm 0)) (fun e => good (readMDesc e.s e.b e.w.aid false 0) e.s e.b &&
      decide (e.eff ≠ [] ∧ 0 + 1 ≤ e.b.hold.acc ∧ 0 ∉ warpBanks e.s e.w false ∧ e.b.paired 0 = false)) = true ∧
    sOk (window sS 1 floush) (.mmaA u true (.imm 0) (.imm 0)) (fun e => good (readMDesc e.s e.b e.q.aid false 0) e.s e.b &&
      decide (0 + 1 ≤ e.b.hold.acc ∧ e.b.paired 0 = false)) = true ∧
    sOk (window sS 2 floush) (.mmaS u true 1 (.imm 0) (.imm 0) (.imm 1)) (fun e => good (readMDesc e.s e.b e.q.aid false 0) e.s e.b &&
      decide (1 + 1 ≤ e.b.hold.acc ∧ e.s.pairsOf e.b = [])) = true ∧
    (∀ i ∈ [Instr.mma u true (r 8) (.imm 0), .mmaA u true (.imm 0) (.imm 0)], wOk quiet i (fun e => decide (e.eff = [])) = true) ∧
    sOk (withS [0, 64]) (.mmaS u true 1 (r 1) (.imm 0) (.imm 1)) (fun e => decide (64 ≤ (srcSU e (r 1)).toNat) &&
      (e.b.specOf e.q.aid).isNone) = true := by decide +kernel
theorem wit_MatrixBatches :
    let open_ (e : WEnv) : Batch := e.w.batches.getD 1 ⟨false, []⟩
    let out (l : List Nat) : State := blk sW fun b => { b with warps := b.warps.map fun w => { w with batches := w.batches.set 1 ⟨true, l⟩ } }
    -- an entry of the warp that is queued
    let queued (s : State) (m : MatForm) : State := match s.block 1 with
      | some b => (s.enqueueMat ⟨b, 2, 0, 0⟩ ⟨m, true, MDesc.ofWords floush, [], [], 0, [], [], [], [], []⟩).2
      | none => s
    wOk sW (.mcommit u 1) (fun e => decide ((open_ e).out = false)) = true ∧
    wOk (out []) (.mcommit u 1) (fun e => decide ((open_ e).out = true ∧ (open_ e).entries = [])) = true ∧
    wOk sW (.mwait u 1) (fun e => decide ((open_ e).out = false)) = true ∧
    (∀ i ∈ [Instr.mcommit u 1, .mwait u 1], wOk (queued (out [4]) (.mma 8)) i (fun e => decide ((open_ e).out = true ∧
      ∃ id ∈ (open_ e).entries, ∃ x ∈ e.s.om.entries, x.id = id ∧ x.result = none)) = true) ∧
    sOk sS (.shcommit u 1) (fun e => decide (∀ x ∈ e.s.tagEntries e.b.id 1, x.result.isSome = true)) = true ∧
    sOk (queued sS (.mmaS 1 0 1)) (.shcommit u 1) (fun e => decide (∃ x ∈ e.s.tagEntries e.b.id 1, x.result = none)) = true ∧
    beginsS [.shdrop u 1] = true ∧
    ((blk sS fun b => { b with pair := [⟨0, 1, 1⟩], acc := [(0, AccEl.zero), (512, AccEl.zero)], bw := [0, 0] }).block 1).any (fun b =>
      let ps := b.pair.filter fun p => p.tag == 1
      decide ((ps.flatMap fun p => [p.shadow, p.live]).Nodup ∧ (b.acc.map Prod.fst).Nodup ∧ ∃ p ∈ ps, p.shadow < b.bw.length ∧
        p.live < b.bw.length)) = true := by decide +kernel
theorem wit_Accumulators :
    let free (e : WEnv) : Bool := decide (e.eff ≠ [] ∧ 0 < e.b.hold.acc ∧ 0 ∉ warpBanks e.s e.w true ∧ e.b.paired 0 = false)
    (∀ i ∈ [Instr.accz u 0 1, .accfold u 0 1], wOk sW i free = true ∧ wOk quiet i (fun e => decide (e.eff = [])) = true) ∧
    wOk sW (.accld u false 0 (.imm 0) 0x40) (fun e => free e && ok (accAddr e 0 (.imm 0) 0x40 4) &&
      ((List.range 16).mapM fun r => e.s.readWindow e.w.aid e.b.id (0 + r * 64) 4).isSome) = true ∧
    wOk sW (.accst u .raw true 0 (.imm 0) 0x40) (fun e => free e && ok (accAddr e 0 (.imm 0) 0x40 16) && (e.b.specOf e.w.aid).isNone) = true ∧
    (∀ i ∈ [Instr.accz u 1 1, .accfold u 1 1], wOk sW i (fun e => decide (e.eff ≠ [] ∧ e.b.hold.acc ≤ 1) && (e.b.specOf e.w.aid).isNone) = true) ∧
    wOk (blk sW fun b => { b with pair := [⟨0, 1, 1⟩] }) (.accz u 0 1) (fun e => decide (e.b.paired 0 = true ∧ 0 < e.b.hold.acc)) = true := by
  decide +kernel
theorem wit_Accumulators_sums :
    (∀ wide : Bool, ∃ m : MatEntry, m.d.wide = wide ∧ m.ea = [] ∧ m.eb = []) ∧
    ([1] : List Nat).length = [2].length ∧ 0 * 1024 < [1].length ∧ [1].length ≤ (0 + 1) * 1024 :=
  ⟨fun w => ⟨⟨.mmaA 0, true, { MDesc.ofWords [] with wide := w }, [], [], 0, [], [], [], [], []⟩, rfl, rfl, rfl⟩, by decide⟩

/-- Context 0 has a handle of 64 KiB at slot 0 and room for commands; connection 0 is its. -/
def handled (s : State) (l : List Nat) : State :=
  let s := { window s 1 l with phys := { s.phys with bytes := cells 4096 [0, 65536, 0xD0000, 0] } }
  (s.modCtx 0 fun x => { x with htab := 4096, hsize := 1, pool := 16 }).modDie 0 fun d =>
    { d with net := { d.net with conns := [(0, { Conn.reset with valid := true })] } }
theorem wit_CommandsIssue :
    let room (s : State) (b : Block) : Bool := s.poolHas b.ctx 2 && !s.stileBad b.id 0
    let mgath : List Nat := [0, 0, 0, 4]
    let cvt : List Nat := [0, 0, 16, 0x820]
    let stripe : List Nat := [0, 0, 0x10010, 0x820]
    let mxv : List Nat := [0, 0, 0, 0x20 * 2 ^ 41, 0x10010, 0, 0, 0]
    let npost : List Nat := [0, 2 ^ 44, 0, 0]
    let parsed (x : Except Stop BdCmd) (s : State) (b : Block) : Bool := match x with
      | .ok m => decide (sigRemote m.sig = false ∧ ∀ y ∈ m.locs, b.winCheck y.1 y.2 = none) && ok (s.handleChecks b.ctx m.ends)
      | .error _ => false
    let posted (x : Except Stop NetWork) (s : State) (b : Block) : Bool := match x with
      | .ok w => decide ((s.conn b.die w.conn).valid = true ∧ (s.conn b.die w.conn).ctx = b.ctx ∧ w.op = 1) &&
          ok (s.handleChecks b.ctx [hend w.lh w.loff w.len (w.op == 2)])
      | .error _ => false
    wOk (handled sW []) (.cpy u 0 .ll (.imm 256) (.imm 0) (.imm 128)) (fun e => room e.s e.b && decide (e.eff ≠ []) &&
      ok (copyEnds e.s (copyOpsW e .ll (.imm 256) (.imm 0)) (.lin 128)) && !sigBad 0 .ll) = true ∧
    wOk (handled sW []) (.cpys u 0 .lg (.imm 256) (r 2) (.imm 0)) (fun e => room e.s e.b && (match cpysForm e.s e.b e.w.aid 0 with
      | .ok (f, g) => ok (copyEnds e.s (copyOpsW e .lg (.imm 256) (r 2)) f) && !sigBad g .lg
      | _ => false)) = true ∧
    wOk (handled sW []) (.cpyx u 0 .gg (r 4) (r 2) (.imm 0)) (fun e => room e.s e.b && (match cpyxForm e.s e.b e.w.aid 0 with
      | .ok (f, g) => ok (copyEnds e.s (copyOpsW e .gg (r 4) (r 2)) f) && !sigBad g .gg
      | _ => false)) = true ∧
    sOk (handled sS []) (.cpy u 0 .tl (r 1) (.imm 0) (.imm 128)) (fun e => room e.s e.b &&
      ok (copyEnds e.s (copyOpsS e .tl (r 1) (.imm 0)) (.lin 128))) = true ∧
    sOk (handled sS []) (.cpys u 0 .lg (.imm 256) (r 2) (.imm 0)) (fun e => room e.s e.b && (match cpysForm e.s e.b e.q.aid 0 with
      | .ok (f, g) => ok (copyEnds e.s (copyOpsS e .lg (.imm 256) (r 2)) f) && !sigBad g .lg
      | _ => false)) = true ∧
    sOk (handled sS []) (.cpyx u 0 .ll (.imm 256) (.imm 0) (.imm 0)) (fun e => room e.s e.b && (match cpyxForm e.s e.b e.q.aid 0 with
      | .ok (f, g) => ok (copyEnds e.s (copyOpsS e .ll (.imm 256) (.imm 0)) f) && !sigBad g .ll
      | _ => false)) = true ∧
    (∀ x ∈ [(Instr.mgath u 1 false false (.imm 0), mgath, 0), (.mconvCvt u 1 (.imm 0), cvt, 1), (.mconvStripe u 1 (.imm 0), stripe, 2)],
      let parse (w : List Nat) := if x.2.2 = 0 then mgathParse false false 0 w else mconvParse (x.2.2 == 2) 0 w
      wOk (handled sW x.2.1) x.1 (fun e => room e.s e.b && (match readDesc e.s e.b e.w.aid 0 32 with
        | .ok w => parsed (parse w) e.s e.b
        | _ => false)) = true ∧
      sOk (handled sS x.2.1) x.1 (fun e => room e.s e.b && (match readDesc e.s e.b e.q.aid 0 32 with
        | .ok w => parsed (parse w) e.s e.b
        | _ => false)) = true ∧ wOk quiet x.1 (fun e => decide (e.eff = [])) = true) ∧
    sOk (handled sS mxv) (.mxv u 1 (.imm 0)) (fun e => room e.s e.b && (match readDesc e.s e.b e.q.aid 0 64 with
      | .ok w => parsed (mxvParse 0 w) e.s e.b
      | _ => false)) = true ∧
    wOk (handled sW npost) (.npost u 5 (.imm 0)) (fun e => room e.s e.b && (match readDesc e.s e.b e.w.aid 0 32 with
      | .ok w => posted (npostParse 0 w) e.s e.b
      | _ => false)) = true ∧
    sOk (handled sS npost) (.npost u 5 (.imm 0)) (fun e => room e.s e.b && (match readDesc e.s e.b e.q.aid 0 32 with
      | .ok w => posted (npostParse 0 w) e.s e.b
      | _ => false)) = true ∧
    (∀ i ∈ [Instr.cpy u 0 .ll (.imm 256) (.imm 0) (.imm 128), .cpys u 0 .ll (.imm 256) (.imm 0) (.imm 0),
        .cpyx u 0 .ll (.imm 256) (.imm 0) (.imm 0), .npost u 5 (.imm 0)], wOk quiet i (fun e => decide (e.eff = [])) = true) := by decide +kernel
theorem wit_CountsAndWaits :
    -- a queue that has given a number that is not reached
    let given (s : State) : State := s.modCore 0 fun c => { c with cq := c.cq.set 3 ⟨1, 0, []⟩, bq := c.bq.set 2 ⟨1, 0, []⟩ }
    let x (i : Instr) (b : Block) : QueueId := if i = .seqwait u 3 (r 2) then .cq b.gcore 3 else .bq b.gcore 2
    begins [.seqrd u 3 .seq (r 0), .mrstat u 2 .enq (r 0), .qfence u 5, .nqfence u (r 2)] = true ∧
    beginsS [.seqrd u 3 .ticket (r 0), .mrstat u 2 (.status (r 1)) (r 0), .qfence u 5, .nqfence u (r 2)] = true ∧
    (∀ i ∈ [Instr.seqwait u 3 (r 2), .mseqwait u 2 (r 2)],
      wOk quiet i (fun e => decide (e.eff = [])) = true ∧
      wOk sW i (fun e => decide (e.eff ≠ [] ∧ firstPair e (r 2) ≤ e.b.view (x i e.b) (e.s.queue (x i e.b)).seq)) = true ∧
      wOk (given (withV [(2, 1)])) i (fun e => decide (firstPair e (r 2) ≤ e.b.view (x i e.b) (e.s.queue (x i e.b)).enq ∧
        ¬firstPair e (r 2) ≤ e.b.view (x i e.b) (e.s.queue (x i e.b)).seq)) = true ∧
      wOk (withV [(2, 1)]) i (fun e => decide (¬firstPair e (r 2) ≤ e.b.view (x i e.b) (e.s.queue (x i e.b)).enq) &&
        (e.b.specOf e.w.aid).isNone) = true ∧
      sOk sS i (fun e => decide ((srcSU e (r 2)).toNat ≤ e.b.view (x i e.b) (e.s.queue (x i e.b)).seq)) = true ∧
      sOk (given (withS [0, 0, 1])) i (fun e => decide ((srcSU e (r 2)).toNat ≤ e.b.view (x i e.b) (e.s.queue (x i e.b)).enq ∧
        ¬(srcSU e (r 2)).toNat ≤ e.b.view (x i e.b) (e.s.queue (x i e.b)).seq)) = true ∧
      sOk (withS [0, 0, 1]) i (fun e => decide (¬(srcSU e (r 2)).toNat ≤ e.b.view (x i e.b) (e.s.queue (x i e.b)).enq)) = true) ∧
    (sW.block 1).any (fun b => decide (b.biasOf (.cq 0 3) < 2 ^ 64)) = true := by decide +kernel

theorem wit_StilesAndRevocation :
    let held (s : State) (c t : Nat) : State := blk s fun b => { b with stiles := b.stiles.set 1 ⟨c, t, []⟩ }
    let passes (b : Block) : Bool := decide ((b.stileAt 1).tgt ≠ 0 ∧ (b.stileAt 1).tgt ≤ (b.stileAt 1).cnt ∧ 1 < b.hold.stile)
    let live (s : State) : State := (handled s []).modDie 0 id
    -- a copy that holds handle 0 and has begun
    let using_ (s : State) : State := match (live s).block 1 with
      | some b => { live s with om := { (live s).om with entries :=
          [{ ((live s).enqueue ⟨b, 3, 63, 0⟩ (.cq 0 0) 0 1 (.copy (.lin 4) .lg (.loc 1 0) (.handle 0 0))).1 with st := .begun, moved := 1 }] } }
      | none => s
    sOk sS (.stinit u (.imm 3) (.imm 65535)) (fun e => decide ((srcSU e (.imm 3)).toNat < e.b.hold.stile)) = true ∧
    sOk (withS [0, 65536]) (.stinit u (.imm 3) (r 1)) (fun e => decide (65535 < (srcSU e (r 1)).toNat) && (e.b.specOf e.q.aid).isNone) = true ∧
    (∀ i ∈ [Instr.starr u (.imm 1), .stwait u (.imm 1)], wOk quiet i (fun e => decide (e.eff = [])) = true) ∧
    wOk sW (.starr u (.imm 3)) (fun e => decide (e.eff ≠ [] ∧ 3 < e.b.hold.stile ∧ e.s.agentSettled true .core e.w.aid = true)) = true ∧
    wOk (busy sW 2) (.starr u (.imm 3)) (fun e => decide (e.eff ≠ [] ∧ 3 < e.b.hold.stile ∧ e.s.agentSettled true .core e.w.aid = false)) = true ∧
    sOk sS (.starr u (.imm 3)) (fun e => e.s.agentSettled true .core e.q.aid) = true ∧
    wOk (held sW 2 2) (.stwait u (.imm 1)) (fun e => passes e.b && decide (e.eff ≠ [])) = true ∧
    wOk (held sW 1 2) (.stwait u (.imm 1)) (fun e => !passes e.b && decide (e.eff ≠ [] ∧ 1 < e.b.hold.stile)) = true ∧
    sOk (held sS 2 2) (.stwait u (.imm 1)) (fun e => passes e.b) = true ∧ sOk (held sS 0 0) (.stwait u (.imm 1)) (fun e => !passes e.b) = true ∧
    wOk sW (.starr u (.imm 4)) (fun e => decide (e.eff ≠ [] ∧ e.b.hold.stile ≤ 4) && (e.b.specOf e.w.aid).isNone) = true ∧
    (∀ i ∈ [Instr.stinit u (.imm 4) (.imm 1), .starr u (.imm 4), .stwait u (.imm 4)], sOk sS i (fun e =>
      decide (e.b.hold.stile ≤ 4) && (e.b.specOf e.q.aid).isNone) = true) ∧
    (∀ x ∈ [(sS, false, true), (live sS, true, true), (using_ sS, true, false)], sOk x.1 (.hrev u 1 2) (fun e =>
      let s2 := (e.s.dropLeases e.b.die).revoke e.b.ctx 0
      decide (e.q.wait = .none ∧ e.s.agentSettled true .pkg e.q.aid = true ∧ (e.s.dropLeases e.b.die).handleLive e.b.ctx 0 = x.2.1 ∧
        (s2.om.entries.all fun y => y.ctx != e.b.ctx || !y.revoked || !y.handles.contains 0 || y.stopped) = x.2.2)) = true) ∧
    sOk (busy sS 3) (.hrev u 1 2) (fun e => decide (e.q.wait = .none ∧ e.s.agentSettled true .pkg e.q.aid = false)) = true ∧
    (using_ sS).om.entries.any (fun x => decide (x.ctx = 0 ∧ x.result = none ∧ 0 ∈ x.handles)) = true := by decide +kernel
theorem wit_RingsAndCounters :
    let ringed (s : State) : State := s.setRing 0 1 { Ring.reset with valid := true, prod := 3, cons := 1 }
    let mine (s : State) (b : Block) : Bool := decide ((s.ring b.die 1).valid = true ∧ (s.ring b.die 1).ctx = b.ctx)
    wOk sW (.ncnt u true (r 4) (r 1)) (fun e => decide (e.eff ≠ [] ∧ firstV e (r 1) ≤ 255)) = true ∧
    sOk sS (.ncnt u false (r 4) (r 1)) (fun e => decide ((srcSU e (r 1)).toNat ≤ 255)) = true ∧
    wOk sW (.nwait u (.imm 2) (r 4)) (fun e => decide (e.eff ≠ [] ∧ firstPair e (r 4) ≤ 0)) = true ∧
    wOk (withV [(4, 1)]) (.nwait u (.imm 2) (r 4)) (fun e => decide (e.eff ≠ [] ∧
      ((e.s.counter e.b.ctx e.b.die 2).done + (e.s.counter e.b.ctx e.b.die 2).err).toNat < firstPair e (r 4))) = true ∧
    sOk sS (.nwait u (.imm 2) (r 4)) (fun e => decide ((srcSU e (r 4)).toNat ≤ 0)) = true ∧
    (∀ i ∈ [Instr.rngpeek u (r 4) (.imm 1), .rngadv u (r 4) (.imm 1) (.imm 2), .rngstatPeek u (r 4) (.imm 1), .rngstatReset u (r 4) (.imm 1)],
      wOk (ringed sW) i (fun e => mine e.s e.b && decide (e.eff ≠ []) && e.s.agentSettled true .die e.w.aid) = true ∧
      sOk (ringed sS) i (fun e => mine e.s e.b && e.s.agentSettled true .die e.q.aid) = true) ∧
    (∀ i ∈ [Instr.ncnt u true (r 4) (.imm 256), .rngpeek u (r 4) (.imm 256), .rngadv u (r 4) (.imm 256) (.imm 2),
        .rngstatPeek u (r 4) (.imm 256), .rngstatReset u (r 4) (.imm 256)],
      wOk sW i (fun e => decide (255 < firstV e (.imm 256)) && (e.b.specOf e.w.aid).isNone) = true ∧
      sOk sS i (fun e => decide (255 < (srcSU e (.imm 256)).toNat) && (e.b.specOf e.q.aid).isNone) = true ∧
      wOk quiet i (fun e => decide (e.eff = [])) = true) ∧
    wOk quiet (.nwait u (.imm 2) (r 4)) (fun e => decide (e.eff = [])) = true ∧
    (let x : Ring := { Ring.reset with prod := 3, cons := 1 }
     x.cons ≠ 2 ∧ x.prod.toNat < (1 : Word64).toNat + (3 : Word64).toNat ∧ (1 : Word64).toNat + (2 : Word64).toNat ≤ x.prod.toNat) := by
  decide +kernel

/-- The sequencer's block claims two banks and holds `n`, S2 holds a vector, a quota of two banks stands. -/
def bank (n : Nat) (v : Word64) : State :=
  ((blk (withS [0, 0, v]) fun b => { b with claim := { b.claim with acc := 2 }, hold := { b.hold with acc := n } }).modCore 0 fun c =>
    { c with quotas := [(0, ⟨4, ⟨64, 64, 2, 4, 64⟩⟩)] }).modDie 0 fun d => { d with recovered := true }
/-- With a second block of the kernel that claims two banks and holds one. -/
def rival : State :=
  let s := bank 0 0x10000
  match s.block 1 with
  | some b => s.setBlock { b with id := 7, slot := 1, hold := ⟨8, 1, 1, 1, 4⟩ }
  | none => s
/-- The page at 0 known to the die, and a record at address 0. -/
def recorded (w : List Nat) : State :=
  { sS with phys := { sS.phys with bytes := cells 0 w } }.modDie 0 fun d => { d with tlb := [placedPage] }
theorem wit_TasksAndBanker :
    let word (e : SEnv) : Nat := (e.q.get 2).toNat
    let vec (e : SEnv) : RV := rvOfWord (word e)
    let good (e : SEnv) : Bool := decide (rvMbz (word e) = false ∧ ∀ x ∈ (e.s.core e.b.gcore).waiting, x.1 ≠ e.b.id)
    let gives (e : SEnv) (x : Bool) : Bool := decide (overClass (rvAdd e.b.hdr.floor (vec e)) e.b.hold = none ∧ e.s.mayGive e.b (vec e) = x)
    let tight : State := { (blk (owing [.v 0 70]) fun b => { b with hold := { b.hold with reg := 9 }, bnd := 72
                                                                    seq := b.seq.map fun q => { q with s := q.s.set 2 1 } }) with actor := some 3 }
    let read (w : List Nat) (p : Rec → Bool) : Bool := sOk (recorded w) (.spawn u 1 2) (fun e =>
      match e.s.spots e.q.aid e.b .ld 32 [(0, 0, 0)] with
      | .ok (s1, x :: _) => (match s1.loadNow e.b e.q.aid x.site 32 with
        | some (s2, bytes) => decide ((recOf (wordsOf bytes)).kid = e.b.kid) && p (recOf (wordsOf bytes)) &&
            decide ((s2.recCheck e.b.die e.b.ctx (recOf (wordsOf bytes))).2 = some true ∧ (s2.die e.b.die).roomFor 0 = true)
        | none => false)
      | _ => false)
    let crowded : State := ((recorded [2 ^ 52]).modDie 0 fun d => { d with hampers := d.hampers.modify 3 fun _ =>
      [⟨9, recOf [0, 3 * 2 ^ 54], 0, 0, 9, 0, 0, [], false, none⟩] }).modCtx 0 fun x => { x with savePool := 2 ^ 30 }
    let yields (s : State) (x : Bool) : Bool := sOk s (.yieldTeam u 1) (fun e => match e.s.team e.b.team with
      | some t =>
        let y := e.s.someStuck e.b.die ((List.range 16).filter fun p => decide (t.crec.prio ≤ p))
        decide (e.b.hst ≠ .handler ∧ y.2 = some x ∧ (x = true → y.1.saveRoom t = true))
      | none => false)
    sOk (withS [0, 0, 0x0401010108]) (.claim u 2) (fun e => good e && decide (∀ x ∈ (rvList (vec e)).zip ((rvList e.b.claim).zip (rvList e.b.hold)),
      x.1 ≤ x.2.1 ∧ x.2.2 ≤ x.1)) = true ∧
    (∀ i ∈ [Instr.take u 2, .taket u 1 2], sOk sS i (fun e => good e && decide (vec e = RV.zero)) = true ∧
      sOk (bank 0 0x10000) i (fun e => good e && decide (e.s.decide_ e.b (vec e) = .grant)) = true ∧
      sOk ((bank 0 0x10000).modCore 0 fun c => { c with quotas := [] }) i (fun e => good e && decide (e.s.decide_ e.b (vec e) = .busy)) = true ∧
      sOk rival i (fun e => good e && decide (e.s.decide_ e.b (vec e) = .isUnsafe)) = true ∧
      sOk (bank 2 0x10000) i (fun e => good e && decide (e.s.decide_ e.b (vec e) = .exceeded 2) && (e.b.specOf e.q.aid).isNone) = true) ∧
    sOk (bank 2 0x10000) (.give u 2) (fun e => good e && gives e true) = true ∧ sOk tight (.give u 2) (fun e => good e && gives e false) = true ∧
    sOk (bank 2 0x10000) (.giveall u) (fun e => e.s.mayGive e.b (rvSub e.b.hold e.b.hdr.floor)) = true ∧
    sOk tight (.giveall u) (fun e => !e.s.mayGive e.b (rvSub e.b.hold e.b.hdr.floor)) = true ∧
    begins [.hold u .free (r 4), .exit u, .wfld u .prio (r 4)] = true ∧ beginsS [.hold u .claim (r 4), .exitK u, .wfld u .core (r 4),
      .spawnr u 3 1 2 4] = true ∧
    read [] (fun x => !x.resume && !x.mbz && decide (x.join = 0)) = true ∧
    sOk (recorded [0, 0, 0, 2 ^ 30]) (.spawn u 1 2) (fun e => (recOf (wordsOf (bytesAt e.s.phys.bytes 0 32))).resume) = true ∧
    sOk (recorded [0, 0, 0, 2]) (.spawn u 1 2) (fun e => decide ((recOf (wordsOf (bytesAt e.s.phys.bytes 0 32))).join = 2)) = true ∧
    wOk { recorded [0, 0, 0, 2] with actor := some 2 } (.joindec u (r 2)) (fun e => match sitesW e .st 32 (r 2) none with
      | .ok (s1, xs) => ((retire s1 e (.joindec u (r 2))).joinAll e.b xs).2
      | _ => false) = true ∧
    sOk (recorded [0, 0, 0, 2]) (.joindec u (r 2)) (fun e => match sitesS e .st 32 (r 2) none with
      | .ok (s1, xs) => ((({ e with s := s1 }).put e.q.advance).joinAll e.b xs).2
      | _ => false) = true ∧
    sOk sS (.exit u) (fun e => decide (e.b.hst ≠ .handler)) = true ∧ sOk sS (.exitJ u 2) (fun e => decide (e.b.hst ≠ .handler ∧
      (e.q.get 2).toNat % 32 = 0)) = true ∧
    sOk (withS [0, 0, 4]) (.exitJ u 2) (fun e => decide ((e.q.get 2).toNat % 32 ≠ 0) && (e.b.specOf e.q.aid).isNone) = true ∧
    sOk (blk sS fun b => { b with hst := .handler }) (.exit u) (fun e => decide (e.b.hst = .handler)) = true ∧
    sOk (blk sS fun b => { b with hst := .handler }) (.yieldTeam u 1) (fun e => decide (e.b.hst = .handler)) = true ∧
    yields sS false = true ∧ yields crowded true = true ∧ sOk (crowded.modCtx 0 fun x => { x with savePool := 0 }) (.yieldTeam u 1) (fun e =>
      (e.s.team e.b.team).any fun t => let y := e.s.someStuck e.b.die ((List.range 16).filter fun p => decide (t.crec.prio ≤ p))
        decide (y.2 = some true) && !y.1.saveRoom t) = true ∧
    (∀ x ∈ ([(8, false), (0, true)] : List (Nat × Bool)), sOk ((blk sS fun b => { b with hst := .handler }).modDie 0 fun d => { d with ringCap := x.1 }) (.exit u)
      (fun e => decide (e.b.hst = .handler ∧ (e.s.die e.b.die).ringFull = x.2)) = true) := by decide +kernel
theorem wit_SystemCalls :
    let i (p : Bool) : Instr := if p then .svcp u (r 8) (r 16) 1 else .svc u (r 8) (r 16) 1
    let room (s : State) (b : Block) : Bool := decide ((s.die b.die).ring.length < (s.die b.die).ringCap)
    let answered (s : State) (aid : Nat) : State := blk s fun b => { b with svc := [⟨aid, 5, 1, [], 0, some (7, false)⟩] }
    let full : State := sW.modDie 0 fun d => { d with ringCap := 0 }
    (∀ p : Bool, wOk sW (i p) (fun e => decide (e.eff ≠ [] ∧ e.b.svcAt e.w.aid e.w.pc = none ∧ e.s.agentSettled true .sys e.w.aid = true ∧
        e.b.hst = .run) && room e.s e.b) = true ∧
      sOk sS (i p) (fun e => decide (e.b.svcAt e.q.aid e.q.pc = none ∧ e.s.agentSettled true .sys e.q.aid = true ∧ e.b.hst = .run) &&
        room e.s e.b) = true ∧
      wOk quiet (i p) (fun e => decide (e.eff = [])) = true ∧
      wOk full (i p) (fun e => decide (e.eff ≠ [] ∧ e.b.svcAt e.w.aid e.w.pc = none) && !room e.s e.b) = true) ∧
    sOk (blk sS fun b => { b with hst := .handler }) (.svc u (r 8) (r 16) 0) (fun e => decide (e.b.svcAt e.q.aid e.q.pc = none ∧
      e.s.agentSettled true .sys e.q.aid = true ∧ e.b.hst = .handler) && room e.s e.b) = true ∧
    wOk (answered sW 2) (i false) (fun e => decide (e.eff ≠ []) && (e.b.svcAt e.w.aid e.w.pc).any fun x => decide (x.reply = some (7, false))) = true ∧
    sOk (answered sS 3) (i false) (fun e => (e.b.svcAt e.q.aid e.q.pc).any fun x => decide (x.reply = some (7, false))) = true ∧
    begins [.tdmask u .touched (r 0)] = true ∧ beginsS [.tdmask u .live (r 0)] = true := by decide +kernel

-- Events.

/-- An access of the sequencer thread (agent 3) to physical memory or to the block's window. -/
def acc (loc : Option Nat) (line : Nat) (kind : AccKind) (st : AccSt) : Access :=
  { aid := 3, inst := 1, die := 0, ctx := 0, loc := loc, line := line, va := 0, page := 0, keyid := 0, slice := 0, kind := kind
    acq := none, rel := none, st := st, refusals := 0, firstRef := 0, retryAt := 0, repl := false }
/-- The access is number 9. -/
def holding (s : State) (a : Access) : State := s.setAccess 9 a
/-- Die 0 is live. -/
def up : State := sS.modDie 0 fun d => { d with st := .live, recovered := true, measured := true }

theorem wit_WritesReachMemory :
    let far : Nat := 2 ^ 30
    let st : AccKind := .store [(8, 5)]
    let sts : AccKind := .sts [(8, 5)] 400
    let drains (a : Access) (p : State → Bool) : Bool := (holding sS a).canDrain 9 a && p (holding sS a)
    let own (n : Nat) (p : State → Bool) : Bool :=
      let s := (holding sS (acc none 0 st .buffer)).setHomeLine 0 ⟨List.replicate n 7, none⟩
      s.canDrain 9 (acc none 0 st .buffer) && decide (s.homeOf (acc none 0 st .buffer) = 0 ∧ (s.homeLine 0).resv = none ∧ s.om.baseq = [] ∧
        ∀ x ∈ s.om.accs, x.2.st ≠ .issued) && p s
    let rm : AccKind := .rmw (.redm .add .u32) [⟨0, 0, 1, 0, none⟩]
    let again (st' : AccSt) (k : AccKind) : Bool := ((holding sS { acc none 0 k st' with refusals := 1 }).access 9).any fun a => a.refusals != 0
    drains (acc (some 1) 0 st .buffer) (fun _ => true) = true ∧
    drains { acc none far st .buffer with page := 1 } (fun s => s.homeOf (acc none far st .buffer) != 0) = true ∧
    drains (acc none far st .buffer) (fun s => s.homeOf (acc none far st .buffer) != 0) = true ∧
    own 0 (fun s => decide ((s.homeLine 0).q.length < 32)) = true ∧ own 32 (fun s => decide (32 ≤ (s.homeLine 0).q.length)) = true ∧
    (timed sS).earliest 0 = 500 ∧ (400 : Word64).toNat < 500 ∧
    (holding (timed sS) (acc none 0 sts .commitWait)).lineTurn 9 (acc none 0 sts .commitWait) = true ∧
    (holding sS (acc none far st (.transit 1))).canTransit 9 (acc none far st (.transit 1)) = true ∧ (acc none far st (.transit 1)).isBank = false ∧
    (holding sS (acc none far rm (.transit 1))).canTransit 9 (acc none far rm (.transit 1)) = true ∧ (acc none far rm (.transit 1)).isBank = true ∧
    (∀ x ∈ [AccSt.buffer, .transit 1, .commitWait], again x st = true) ∧
    sS.agent 3 = some ⟨.seq 1, 0, [], [], []⟩ ∧
    (∀ k ∈ [st, sts, .rmw (.atom .add) [⟨0, 0, 1, 0, none⟩]], ∀ rp : Bool,
      let a : Access := { acc none 0 k .queued with repl := rp }
      let s := (holding sS a).setHomeLine 0 ⟨[9], none⟩
      (s.homeLine 0).q = [9] ∧ s.access 9 = some a ∧ a.isWrite = true ∧ agetD 0 0 s.phys.keys = s.phys.key 0 a.keyid ∧
      (s.dies.all fun d => !d.glean.made) = true) ∧ (([(8, 5)] : List Host.Cell).map Prod.fst).Nodup ∧
    (let s := holding { sS with om := { sS.om with baseq := [(0, [9])] } } (acc none 0 rm .baseq)
     agetD 0 [] s.om.baseq = [9] ∧ s.access 9 = some (acc none 0 rm .baseq) ∧ (acc none 0 rm .baseq).isWrite = true) ∧
    (∀ k ∈ [st, sts], let a := acc none 0 k (.replica 4 [(8, 5)])
      (holding sS a).access 9 = some a ∧ (holding sS a).replicaTurn 0 4 = true) := by decide +kernel
/-- Translation tables at 0 for the page at address 0. -/
def mapped : State := { up with phys := { up.phys with bytes := [(0, 1), (2, 1), (0x10000, 1), (0x10002, 2), (0x20000, 0x3F)] } }
/-- A sequencer thread that speculated on 7 and holds this reply. -/
def spoken (v : Word64) : State := blk sS fun b => { b with
  svc := [⟨3, 6, 1, [.s 1], 0, some (v, false)⟩], spec := [⟨3, 6, 7, none, [], [], b.seq, [], []⟩] }
def spokenHas (v : Word64) : Bool := ((spoken v).task.blocks.map Prod.snd).any fun b => (b.spec.find? fun z => z.tag == 6).isSome &&
  (b.svc.find? fun z => z.tag == 6).any fun w => w.reply == some (v, false)
theorem wit_ReadsAndCopies :
    let ld : AccKind := .load 0 4 [⟨.s 1, 0, 4, false⟩]
    let w : Windrow := ⟨0, 0, 5, 0, 0, false, []⟩
    let wound (s : State) : State := s.modDie 0 fun d => { d with walks := [⟨0, 0, [3]⟩] }
    let cp : SwmCopy := ⟨0, 5, 0, 0, 0, false, [(640, 7, false)]⟩
    (holding sS (acc none 0 ld .issued)).canLoad 9 (acc none 0 ld .issued) = true ∧
    (holding (timed sS) (acc none 0 (.ldas 0 4 400 400 [] [.v 0 2, .v 0 3] none) .issued)).canLoad 9 (acc none 0 (.ldas 0 4 400 400 [] [.v 0 2, .v 0 3] none) .issued) = true ∧
    (sS.block 1).isSome = true ∧ (holding sS (acc (some 1) 0 ld .issued)).ownStores 9 (acc (some 1) 0 ld .issued) = [] ∧
    (let s := (holding sS (acc none 0 ld .issued)).setAccess 8 (acc none 0 (.store [(0, 5)]) .buffer)
     let s := s.setAgent 3 ⟨.seq 1, 0, [8, 9], [], []⟩
     s.ownStores 9 { acc none 0 ld .issued with inst := 2 } ≠ []) ∧
    ({ sS with om := { sS.om with windrows := [w] } } : State).om.windrows.find? (fun w => w.die == 0 && w.slice == 0 && w.line == 5) = some w ∧
    (ranged sS).range 5 = some ⟨0, 0, 65536, .add, .fp32⟩ ∧
    ({ sS with om := { sS.om with swm := [cp] } } : State).swmCopy 0 5 = some cp ∧ (∀ p ∈ cp.bytes, p.2.2 = false) ∧
    ((wound sS).die 0).walks.find? (fun w => w.ctx == 0 && w.page == 0) = some ⟨0, 0, [3]⟩ ∧ ((wound sS).die 0).held = [] ∧
    (match ((wound mapped).modDie 0 fun x => { x with walks := [] }).freeIx.2.walkTables 0 0 with
     | .ok _ _ _ _ => true
     | _ => false) = true ∧ (match ((wound sS).modDie 0 fun x => { x with walks := [] }).freeIx.2.walkTables 0 0 with
     | .fail _ => true
     | _ => false) = true ∧
    (∀ x ∈ ([(2, sW), (3, sS)] : List (Nat × State)), (({ x.2 with actor := some x.1 } : State).issuer.any fun y => match y with
      | .warp b _ => b.hst == .run
      | .seq b _ => b.hst == .run) = true) ∧
    (timed (blk sW fun b => { b with warps := b.warps.map fun w => { w with wait := .stamp 400 1 [] } })).stampPast 0 2 400 = true ∧
    (timed (blk sS fun b => { b with seq := b.seq.map fun q => { q with wait := .stamp 400 1 [] } })).stampPast 0 3 400 = true ∧
    spokenHas 7 = true ∧ spokenHas 8 = true := by decide +kernel
theorem wit_ReadsAndCopies_places :
    let f : CopyForm := .strided 4 2 1 64 0 (-8) 0
    (3 < 4 ∧ 1 < 2 ∧ f.map (3 + 4 * 1 + 4 * 2 * 0) = (67, -5)) ∧ (3 < 2 ^ 2 ∧ (0 : Nat) < 16) ∧
    (up.block 1).any (fun b => decide (64 + 67 < b.winSize ∧ 16 + (-5 : Int) = (11 : Nat) ∧ 64 + (67 : Int) = (131 : Nat))) = true := by
  decide +kernel
/-- A copy of four bytes within the window, queued or begun, as entry `4`. -/
def copying (f : Entry → Entry) : State :=
  match (handled up []).block 1 with
  | some b =>
    let n := (handled up []).enqueue ⟨b, 3, 63, 0⟩ (.cq 0 0) 0 1 (.copy (.lin 4) .ll (.loc 1 0) (.loc 1 64))
    { n.2 with om := { n.2.om with entries := [f n.1] } }
  | none => sS
theorem wit_EngineAndTaskEvents :
    let ended : State := blk up fun b => { b.modThread 0 fun t => { t with live := false } with seq := b.seq.map fun q => { q with exited := true } }
    let barred (x : Barrier) : State := up.setBarrier 3 x
    let arr : Access := acc none 0 (.arrive 3 []) .issued
    let opfault (restart : Bool) : State := match up.block 1 with
      | some b =>
        let s := (up.enqueueMat ⟨b, 3, 63, 0⟩ ⟨.mmaA 0, true, MDesc.ofWords floush, [], [], 0, [], [], [], [], []⟩).2
        { s with
          om := { s.om with entries := s.om.entries.map fun e => { e with st := .begun } }
          task := { s.task with teams := s.task.teams.map fun p => (p.1, { p.2 with crec := { p.2.crec with restart := restart } }) } }
      | none => sS
    let fails (r : Bool) : Bool := (opfault r).om.entries.any fun e => (match e.form with
      | .mat m => m.mayFail 0x20 0xFFFF && m.mayFail 0 0
      | _ => false) && decide (e.result = none ∧ e.st = .begun) &&
        ((opfault r).team e.team).any fun t => t.crec.restart == r && decide (t.crec.retries < 3)
    let stopping : State := match up.team 1 with
      | some t => up.setTeam { t with stop := true }
      | none => sS
    let parked (id : Nat) : State := blk (copying fun e => { e with st := .begun }) fun b => { b with
      warps := b.warps.map fun w => { w with wait := .park id } }
    let q : QRec := ⟨9, recOf [0, 2 ^ 54], 0, 0, 9, 0, 0, [], false, none⟩
    let queued (r : Rec) : State := up.modDie 0 fun d => { d with hampers := d.hampers.set 1 [{ q with crec := r }] }
    let room : State := { bank 0 0 with phys := (recorded []).phys }.modDie 0 fun d => { d with tlb := [placedPage] }
    let h : Header := (placedBlock 1 1).hdr
    (copying id).om.entries.any (fun e => (copying id).canBegin e) = true ∧
    (copying fun e => { e with st := .begun }).om.entries.any (fun e => decide (e.result = none ∧ e.st = .begun)) = true ∧
    (copying fun e => { e with st := .begun, verdict := some (0, 4) }).om.entries.any (fun e => decide (e.verdict = some (0, 4) ∧
      e.farEnd = false) && (copying id).writesDone e) = true ∧
    (up.task.blocks.all fun p => p.1 == p.2.id) = true ∧
    (copying id).om.entries.any (fun e => ((parked e.id).block 1).any fun b => decide (e.blk = 1 ∧ ∃ w ∈ b.warps, w.wait = .park e.id ∧
      ∀ x ∈ b.warps, x.wait = .park e.id → x = w)) = true ∧
    ((up.modCore 0 fun c => { c with zero := [⟨0, ⟨[], [], [], [], []⟩⟩] }).core 0).zero ≠ [] ∧
    (∀ r : Bool, fails r = true) ∧
    (up.die 0).st = .live ∧ (0 : Nat) < ((handled up []).ctx 0).hsize ∧
    (ended.block 1).any (fun b => decide (b.hst = .run ∧ (∀ t ∈ b.threads, t.live = false) ∧ ended.matEntries 1 = []) &&
      b.seq.all fun q => q.exited) = true ∧
    (up.die 0).recovered = true ∧ (up.pushDue 0).slotFree 0 = true ∧ ((up.modDie 0 fun d => { d with recovered := false }).die 0).recovered = false ∧
    (up.die 0).hampers.getD 3 [] = [] ∧ ((queued { q.crec with resume := true, code := 32 }).die 0).hampers.getD 1 [] ≠ [] ∧
    up.saved? 32 = none ∧
    (room.fit 0 q.crec.kid h.fuse q.cluster h.asks).isSome = true ∧ q.prod = [] ∧
    (match room.taskPage 0 q.ctx .ld (q.crec.code + 24) with
     | (s1, .ok _) => (match s1.taskRead 0 q.ctx h.dataPtr h.dataSize with
        | (_, .ok _) => true
        | _ => false)
     | _ => false) = true ∧
    (∀ p ∈ up.task.teams, p.2.die = 0 → p.2.stop = false) ∧ (((stopping.task.teams.map Prod.snd).filter fun t => t.die == 0 && t.stop).find?
      stopping.mayStash).isSome = true ∧
    (room.victims 0 0 3 (h.fuse, h.asks) 0).isSome = true ∧ ((List.range 16).all fun p => ((up.die 0).hampers.getD p []).isEmpty) = true ∧
    ((up.task.teams.map Prod.snd).find? fun t => t.id == 1 && t.ctx == 0 && t.die == 0).any (fun t => decide (t.crec.prio < 3)) = true ∧
    ((up.raiseGroup 0 0 3).task.teams.all fun p => decide (p.2.launch = 0 ∧ p.2.group = 0 ∧ 3 ≤ p.2.crec.prio)) = true ∧
    (q.launch = 9 ∧ q.group = 0 ∧ q.crec.range = false) ∧
    ((up.die 0).time.st = .unset ∧ 0 ≤ up.now ∧ up.now ≤ 300 ∧ 300 ≤ 0 + 300) ∧
    ((timed up).die 0).time.st = .disciplined ∧
    ((timed up).die 0).time.t0 + 100000 ≤ ({ timed up with now := 100000 } : State).now ∧
    (holding (barred ⟨2, 0, 0, 0, []⟩) arr).settledAt false .pkg 9 arr = true ∧
    (∀ e ∈ (holding (barred ⟨2, 0, 0, 0, []⟩) arr).earlier 9 arr, e.isFence = false) ∧
    (let x := (holding (barred ⟨1, 0, 0, 0, []⟩) arr).barrier 3
     x.cnt + 1 = x.n ∧ x.pend < 255) ∧ (barred ⟨2, 0, 0, 0, []⟩).barrier 3 = ⟨2, 0, 0, 0, []⟩ ∧
    ((barred ⟨1, 0, 0, 1, [0]⟩).barrier 3).travel = [0] ∧ 0 ≤ up.now ∧ (barred ⟨1, 0, 0, 1, [0]⟩).barrierWaited 3 = false := by
  decide +kernel
def pkt : WirePkt := ⟨0, 1, 0, 1, 256, 0, 0, 0, false, 0, 0, 0, none, [1, 2]⟩
theorem wit_NetworkEvents :
    let wired : State := (handled up []).modDie 0 fun d => { d with tlb := [placedPage] }
    let conn (f : Conn → Conn) : State := wired.modDie 0 fun d => { d with net := { d.net with conns := [(0, f { Conn.reset with valid := true })] } }
    let sending (p : Pkt) : State := match wired.block 1 with
      | some b =>
        let n := wired.enqueue ⟨b, 3, 63, 0⟩ (.nq 0 0) 0 1 (.net ⟨1, 0, 0, 2, 0, 0, 0, false, 0, 0⟩)
        { n.2 with om := { n.2.om with entries := [{ n.1 with st := .begun, pkts := [p] }] } }
      | none => sS
    let on (p : Pkt) : Bool := (sending p).om.entries.any fun e => decide (e.pkts[0]? = some p ∧ e.result = none ∧ e.st = .begun ∧
      e.isNet = true ∧ e.verdict = none ∧ p.sent = true ∧ p.acked = false ∧ ((sending p).conn e.die (e.wire 0).conn).uud = false ∧
      (e.wire 0).op ≠ 2 ∧ e.mayCarry p = true)
    let c := wired.conn 0 0
    let fitted (t : AccType) : Bool := match wired.remotePages 0 0 t (.remoteXlate 0 0) (pagesOf 0 2) with
      | (_, .ok _) => true
      | _ => false
    let arr (uud : Bool) (got : List Nat) (refused : Bool) : State :=
      { conn fun c => { c with uud := uud } with now := 1000002 }.setArrival 0 ⟨0, 1, 2, got, 1, 0, true, 0, false, refused⟩
    let took (s : State) (p : Arrival → Bool) : Bool := (s.arrival 0 0 1).any fun a => p a && decide (a.conn = 0 ∧ a.msg = 1 ∧ 0 < s.dies.length ∧
      a.done = false)
    let full (s : State) (a : Arrival) : Bool := decide (a.total ≤ (if 0 ∈ a.got then a.got.length else a.got.length + 1)) && !s.overdue 0 a
    let placed (s : State) : State := s.modDie 0 fun d => { d with net := { d.net with placing := [⟨70, .packet 0 1 0 2 0 true 0⟩] } }
    let ringed (r : Ring) : State := (wired.setRing 0 1 r).modDie 0 fun d => { d with net := { d.net with
      conns := [(0, { Conn.reset with valid := true, rxv := true, rxring := 1 })], flows := [⟨0, 7, 1, 0⟩] } }
    let r0 : Ring := { Ring.reset with valid := true, slotlg := 6, cntlg := 1 }
    on ⟨0, 2, true, false, false, false, 16, [1, 2]⟩ = true ∧ on ⟨0, 2, true, false, false, false, 1, [1, 2]⟩ = true ∧
    (up.die 0).st = .live ∧ pkt.reply = none ∧ c.valid = true ∧ wired.netKey 0 c.keyix = some (pkt.key, pkt.sa) ∧ wired.netKey 0 c.keyix ≠ some (5, 0) ∧
    c.uud = false ∧ wired.remoteEnd 0 pkt 2 true = some 0 ∧ wired.remoteEnd 0 pkt 2 false = some 0 ∧ fitted .st = true ∧ fitted .ld = true ∧
    wired.remoteEnd 0 { pkt with rh := 1 } 2 true = none ∧ wired.remoteEnd 0 { pkt with rh := 1 } 2 false = none ∧
    (sS.conn 0 0).valid = false ∧ (sS.conn 0 0).uud = false ∧
    -- a message of two packets: its last packet, its first, one too late, one of a message with a refused packet
    took (arr false [1] false) (fun a => a.tce && !a.refused && full (arr false [1] false) a) = true ∧
    took (arr false [] false) (fun a => !full (arr false [] false) a) = true ∧
    took (arr true [1] false) (fun a => !full (arr true [1] false) a && (arr true [1] false).overdue 0 a && decide (a.got ≠ [] ∧
      a.first + 1000000 < (arr true [1] false).now)) = true ∧
    took (arr false [1] true) (fun a => a.refused) = true ∧
    ((arr true [1] false).conn 0 0).uud = true ∧ ((arr true [1] false).net 0).placing = [] ∧
    ((placed (arr true [1] false)).net 0).placing = [⟨70, .packet 0 1 0 2 0 true 0⟩] ∧
    (let s := ringed r0
     let d := s.conn 0 0
     d.valid = true ∧ d.rxv = true ∧ (s.ring 0 d.rxring).valid = true ∧ 2 ≤ (s.ring 0 d.rxring).slot - 32 ∧ s.netKey 0 d.keyix = some (0, 0) ∧
     (0, 0) ∉ (s.net 0).sendWin) ∧
    (ringed { r0 with slotlg := 0 }).ring 0 1 = { r0 with slotlg := 0 } ∧
    ((ringed { r0 with slotlg := 0 }).ring 0 1).slot - 32 < (List.replicate 225 (0 : Byte)).length ∧
    ((ringed r0).net 0).flows = [⟨0, 7, 1, 0⟩] ∧ ((ringed r0).ring 0 1).valid = true ∧
    (ringed r0).ringBusy 0 1 = false ∧ ((ringed { r0 with prod := 2 }).ring 0 1).isFull = true ∧
    ((ringed { r0 with prod := 2 }).ring 0 1).dropOld = false ∧ (ringed { r0 with prod := 2 }).ringBusy 0 1 = false ∧
    (ringed r0).ring 0 1 = r0 := by decide +kernel
/-- Die 0 is live, owns the package, its delivery ring is empty, and the next message is this one. -/
def told (m : MsgBody) : State :=
  { up with pkg := { up.pkg with msgs := [⟨1, 0, true, .dieup 0, none, []⟩, ⟨2, 0, false, .elect, none, []⟩, ⟨3, 0, false, m, none, []⟩], nextSeq := 4 } }.modDie 0
    fun d => { d with delivered := 2, owner := some 0, dlvBase := 2 ^ 20, dlvCap := 4 }
theorem wit_ChannelEvents :
    let cmds : List Cmd := [.quota 0 0 1 RV.zero, .fuse 5 true, .place 0 255, .map 0 0 1 0, .unmap 0 0 1, .region 0 0 1 true,
      .commdecl 0 0 65536 .add .fp32, .keyload 0 1, .barset 3 0 2, .coreoff 7, .coreon 7, .handover 0]
    let decl : MsgBody := .cmd (.commdecl 0 0 65536 .add .fp32)
    (∀ m ∈ ([.elect, .other 9 [], .inv 0 1 0 1, .commit 0 1 0 1, .ack 0 1, .diedown 1, .fenced 1, .dieup 1, .cmd (.rehome 1), .cmd (.checkpoint 0)] : List MsgBody),
      ((told m).die 0).st = .live ∧ (told m).nextMsg 0 = some ⟨3, 0, false, m, none, []⟩ ∧
      ((told m).die 0).delivery.length < ((told m).die 0).dlvCap) ∧
    (let s := (told .elect).modDie 0 fun d => { d with dlvCap := 0 }
     (s.die 0).dlvCap ≤ (s.unread 0).2.length) ∧
    (∀ c ∈ cmds, (told (.cmd c)).cmdOk ⟨3, 0, false, .cmd c, none, []⟩ c = true) ∧
    (told (.cmd (.rehome 1))).cmdOk ⟨3, 0, false, .cmd (.rehome 1), none, []⟩ (.rehome 1) = false ∧
    aget 1 ((told .elect).die 0).portKeys = none ∧
    aget 1 (((told .elect).modDie 0 fun d => { d with portKeys := [(1, (5, 0))] }).die 0).portKeys = some (5, 0) ∧
    ({ told decl with phys := mapped.phys } : State).pagePhys 0 (0 + 0 * 65536) = some 0 ∧ 0 * 65536 < 65536 ∧ (0 : Nat) < (told decl).dies.length := by
  decide +kernel
theorem wit_CommandChecks :
    let h : HeldRange := ⟨2, 1, 0, 0, 65536, 1, false, []⟩
    let kept : State := up.modDie 0 fun d => { d with held := [h] }
    let begunAt (s : State) : State := s.modDie 0 fun d => { d with shoots := [⟨1, 0, [0, 1], []⟩] }
    (up.die 0).st = .live ∧ (kept.die 0).held.find? (fun h => h.init == 1 && h.gen == 1 && !h.acked) = some h ∧
    (kept.cleanHeld 0 h).heldDrained 0 h = true ∧
    ((holding kept (acc none 0 (.load 0 4 []) .issued)).cleanHeld 0 h).heldDrained 0 h = false ∧
    (let s := (begunAt { up with now := 50000 }).modDie 1 fun d => { d with st := .live }
     (s.die 0).shoots = [⟨1, 0, [0, 1], []⟩] ∧ 0 + 50000 ≤ s.now ∧ (s.die 1).st = .live ∧ (s.die 0).st = .live) ∧
    up.pkg.powered = true ∧ ((up.modDie 0 fun d => { d with st := .lost }).die 0).st = .lost ∧ (up.die 0).fenced = false := by decide +kernel
theorem wit_KernelEvents :
    let asked (n : Nat) (l : List Word64) : State := (handled mapped []).modDie 0 fun d => { d with ring := [⟨0, 0, n, false, 0, 0, 63, 5, l, 0⟩] }
    let jobs (l : List Job) : State := up.modDie 0 fun d => { d with jobs := l, delivered := 3, shoots := [⟨1, 0, [0], [0]⟩] }
    let passed (n : Nat) : State := (blk up fun b => { b with hst := .kernel, fwd := if n = 0 then some 5 else none, hdr := { b.hdr with trapv := true } }).modDie 0 fun d =>
      { d with ring := [⟨0, 0, n, false, 0, 0, 63, 5, [], 0⟩] }
    let waiting (n : Nat) : State := (blk up fun b => { b with svc := [⟨3, 5, n, [.s 1], 0, none⟩] }).modDie 0 fun d => { d with
      ring := if n = 9 then [] else [⟨0, 0, n, false, 0, 0, 63, 5, [], 0⟩] }
    (∀ n ∈ ([0, 1] : List Nat), ((passed n).block 1).any (fun b => decide (b.hst = .kernel ∧ b.hdr.trapv = true ∧ (b.fwd ≠ none ↔ n = 0))) = true) ∧
    (passed 0).anyBlock (fun b => b.fwd == some 5) = true ∧
    (∀ n ∈ ([1, 3, 9] : List Nat), ((waiting n).task.blocks.any fun p => p.2.svc.any fun x => x.tag == 5) = true ∧ ((waiting n).die 0).jobs = []) ∧
    ((waiting 1).die 0).ring.any (fun r => decide (r.tag = 5 ∧ r.svcn = 1)) = true ∧ ((waiting 3).die 0).ring.any (fun r => decide (r.tag = 5 ∧
      r.svcn = 3)) = true ∧ ((waiting 9).die 0).ring = [] ∧
    ((jobs [.map 5 3]).die 0).jobs = [.map 5 3] ∧ ((jobs []).die 0).delivered = 3 ∧ (up.die 0).jobs = [] ∧
    (∀ n ∈ ([1, 2] : List Nat), ((asked n []).die 0).ring.find? (fun r => r.svcn == n) = some ⟨0, 0, n, false, 0, 0, 63, 5, [], 0⟩) ∧
    (asked 1 []).mapPlan ⟨0, 0, 1, false, 0, 0, 63, 5, [], 0⟩ = none ∧ (asked 2 []).unmapPlan ⟨0, 0, 2, false, 0, 0, 63, 5, [], 0⟩ = none ∧
    ((let s := asked 2 [0, 1]
      { s with phys := mapped.phys }).unmapPlan ⟨0, 0, 2, false, 0, 0, 63, 5, [0, 1], 0⟩).isSome = true ∧
    ((let s := asked 1 [65536, 1, 0]
      { s with phys := { s.phys with bytes := putBytes s.phys.bytes mapped.phys.bytes } }).mapPlan ⟨0, 0, 1, false, 0, 0, 63, 5, [65536, 1, 0], 0⟩).any (fun l => (mapped.mapWrite 0 l).isSome) = true ∧
    mapped.slotOf 0 65536 ≠ none ∧
    ((jobs [.unmap 5 0 1 0 1 none]).die 0).shoots.any (fun k => k.gen == 1 && k.complete) = true ∧
    ((jobs [.unmap 5 0 1 0 1 (some 3)]).die 0).jobs = [.unmap 5 0 1 0 1 (some 3)] ∧
    (((up.modDie 0 fun d => { d with clusters := d.clusters.modify 0 fun c => { c with halted := true } }).die 0).clusters.getD 0
      ⟨false, false, false⟩).halted = true ∧ ((up.die 0).clusters.getD 0 ⟨false, false, false⟩).halted = false := by decide +kernel
theorem wit_BootEvents :
    let cxl : State := { up with phys := { up.phys with cxl := [⟨0, 2 ^ 48, 65536, false⟩] } }
    let sess (l : Assoc Bool) : State := up.modDie 0 fun d => { d with sessions := l }
    let at_ (s : State) (n : Nat) : Option Bool := aget n (s.die 0).sessions
    let keyed : State := { sess [(0, true)] with phys := { up.phys with keytab := [(1, 7)] } }
    up.pkg.powered = true ∧ up.pkg.throttleAt + 1000000 ≤ ({ up with now := 1000000 } : State).now ∧
    (3400 < 3401 ∨ ∃ t ∈ [(0 : Nat)], 1680 < t) ∧ ¬(3400 < 3400 ∨ ∃ t ∈ [(1680 : Nat)], 1680 < t) ∧
    up.pkg.causeAt + 1000000 ≤ ({ up with now := 1000000 } : State).now ∧
    ({ up with now := 1000000 } : State).now < ({ up.pkg with causeAt := 1 } : Pkg).causeAt + 1000000 ∧
    (up.die 0).st ≠ .inReset ∧ up.phys.region 0 = .hbm ∧ up.phys.homeDie 0 = 0 ∧ (∀ d ∈ State.reset.dies, d.st = .inReset) ∧
    (up.die 0).measured = true ∧ at_ (sess [(0, false)]) 0 = some false ∧ at_ (sess [(0, true)]) 0 = some true ∧
    at_ (sess [(0, true)]) 1 = none ∧ (∀ k < 1, at_ (sess [(0, true)]) k ≠ none) ∧
    (∀ n < 16, at_ (sess ((List.range 16).map fun n => (n, true))) n ≠ none) ∧
    ({ up with pkg := { up.pkg with powered := false } } : State).pkg.powered = false ∧
    (up.die 0).st = .live ∧ aget (2 * 0 * 256 + 1) keyed.phys.keytab ≠ none ∧ at_ keyed 0 = some true ∧ up.ctxBusy 5 = false ∧
    (∃ i < 1, (ranged up).guardedLine (0 + i) = true) ∧ (¬∃ i < 1, up.guardedLine (0 + i) = true) ∧ up.inboundOk 0 1 = true ∧
    up.inboundOk (2 ^ 52) 1 = false ∧
    (4 ∈ [4, 5] ∧ 4 ∈ [3, 4] ∧ ∀ x ∈ [4, 5], x ∈ [3, 4] → x ≤ 4) ∧ (∀ x ∈ [4, 5], x ∉ [(3 : Nat)]) ∧
    (let x : CxlDev := ⟨false, 3, false, 2 ^ 48, 65536⟩
     x.cache = false ∧ x.type = 3 ∧ x.switch = false ∧ 2 ^ 48 ≤ x.base ∧ x.base + x.len ≤ 2 ^ 51) ∧
    cxl.phys.cxl[0]? = some ⟨0, 2 ^ 48, 65536, false⟩ ∧ cxl.om.accs = [] := by decide +kernel

theorem wit_DecodeEncode : (Instr.iadd u (r 1) (r 2) (.imm 5)).wf = true ∧
    encode (.iadd u (r 1) (r 2) (.imm 5)) = some (word 0x041 0 1 2 0x80005) := by decide +kernel
theorem wit_StepRunsDecoded :
    let s (w : Word96) (f : Block → Block) : State := blk (State.reset.withFetchWord 96 w.toNat) f
    let read (s : State) (aid : Nat) : Option (Option Instr) := match ({ s with agenda := [], actor := some aid } : State).issuer with
      | some (.warp b w) => (match ({ s with agenda := [], actor := some aid } : State).fetchWord aid b w.pc with
        | .ok (_, l) => (match decodeBytes l with
          | .ok i => some (some i)
          | .error _ => some none)
        | _ => none)
      | some (.seq b q) => (match ({ s with agenda := [], actor := some aid } : State).fetchWord aid b q.pc with
        | .ok (_, l) => (match decodeBytes l with
          | .ok i => some (some i)
          | .error _ => some none)
        | _ => none)
      | none => none
    (s (word 0x041 0 1 2 0x80005) id).agenda = [.run 2] ∧ read (s (word 0x041 0 1 2 0x80005) id) 2 = some (some (.iadd u (r 1) (r 2) (.imm 5))) ∧
    (s (word 0x302 0 1 2 0x80005) id).agenda = [.run 3] ∧ read (s (word 0x302 0 1 2 0x80005) id) 3 = some (some (.sadd u 1 (r 2) (.imm 5))) ∧
    read (s (word 0x041 1 1 2 3) id) 2 = some none ∧ read (s (word 0x041 1 1 2 3) id) 3 = some none ∧
    (∀ aid ∈ [2, 3], read (s 0 fun b => { b with warps := b.warps.map fun w => { w with pc := 2 }, seq := b.seq.map fun q => { q with pc := 2 } }) aid = none) ∧
    ((s 0 fun b => { b with stack := [⟨0, .brd, 0, 1, 0, 0, [0], []⟩] }).block 1).any (fun b => b.warps.any fun w => b.atJoin w) = true ∧
    Instr.isEvent (.drain 9) = true := by decide +kernel


-- Hypotheses of further clauses.

theorem wit_FloatResults_ends : f32.dec 0xFF800000 = .inf true ∧ f32.dec 0x7F800000 = .inf false ∧ f32.dec 0x3F800000 ≠ .nan ∧
    f32.dec 0x3F800000 ≠ .inf true ∧ f32.dec 0x7FC00000 = .nan ∧ (match f32.dec 0 with
      | .fin s m _ => !s && m == 0
      | _ => false) = true ∧ (match f32.dec 0x3F800000 with
      | .fin s m _ => !s && decide (0 < m)
      | _ => false) = true := by decide +kernel
theorem wit_FaithfulFunctions : ∃ m e, f32.dec (0x3F000000#32).toNat = .fin false m e ∧ 0 < m ∧ |(((FV.fin false m e).val : ℚ) : ℝ)| < 2 ^ 20 := by
  refine ⟨2 ^ 23, -24, by decide, by decide, ?_⟩
  norm_num [FV.val]
theorem wit_OperandValues : wOk sW (.nop u) (fun e => decide (e.eff = [(0, 0)] ∧ e.w.k < 2 ^ 32 ∧
    ∀ j < 6, e.b.hdr.widths.getD j 0 < 32)) = true := by decide +kernel
theorem wit_DeadRegisters_parked : ((blk sW fun b => { b with parked := b.warps.map fun w => { w with binds := [(5, 1)] } }).block 1).any (fun b =>
    decide (∃ h ∈ b.parked, some 0 ∈ h.lanes ∧ ∃ y ∈ h.binds, y.1 = 5)) = true := by decide +kernel
theorem wit_CheckOrder_early : (match early.issuer with
    | some (.warp _ w) => decide (w.byp = [] ++ (⟨4, [(0, 1, 7)], false⟩ : Byp) :: []) && decide (∀ f ∈ w.byp, ∀ y ∈ f.vals, ¬ (y.1 = 0 ∧ y.2.1 = 2))
    | _ => false) = true := by decide +kernel
theorem wit_WarpBranches_more :
    wOk quiet (.ret u (r 2)) (fun e => decide (e.eff = [])) = true ∧
    wOk (blk (two id) fun b => { b with
      dq := [1, 0], homes := b.homes.map (fun h => { h with rdpos := 0 }) ++ b.homes.map fun h => { h with rdpos := 1 }
      threads := List.replicate 33 (b.thread 0), warps := b.warps.map fun w => { w with lanes := some 0 :: some 32 :: w.lanes.drop 2 } }) (.brq u 2)
      (fun e => decide ((∀ h ∈ popHomes e.b e.w, e.b.rdpos h < e.b.push) ∧ ∃ h ∈ popHomes e.b e.w, ∃ k ∈ popHomes e.b e.w,
        e.b.dqAt h = 0 ∧ e.b.dqAt k ≠ 0)) = true ∧
    wOk sW (.brq u 2) (fun e => decide (e.b.closed = false ∧ ∃ h ∈ popHomes e.b e.w, e.b.push ≤ e.b.rdpos h)) = true ∧
    wOk (blk sW fun b => { b with closed := true }) (.brq u 2) (fun e => decide (e.b.closed = true ∧
      ∃ h ∈ popHomes e.b e.w, e.b.push ≤ e.b.rdpos h) && (e.b.specOf e.w.aid).isNone) = true := by decide +kernel
theorem wit_Meetings_more :
    let tags (c : Ctl) (e : WEnv) := meetingTags e.b.settleWarps fun _ t => if guardHolds e.b.settleWarps c t then 0 else 1
    let parted := two fun t => { t with p := 1 }
    let lanes (e : WEnv) := (meetingLanes e.b.settleWarps).filter fun l => (e.b.settleWarps.thread l.2.2).nest == 0
    let at40 (s : State) (l : List Host.Cell) : State := { blk s fun b => { b with warps := b.warps.map fun w => { w with pc := 40 } } with
      phys := { s.phys with bytes := l } }
    let head (e : WEnv) (p : State → Nat → Bool → Bool) : Bool := match e.s.tableHead e.w.aid e.b 64 with
      | .ok (s1, n, m, _) => p s1 n m
      | _ => false
    (∀ i ∈ [Instr.brd g0 2 4, .call g0 (r 2) (.short 2)],
      wOk quiet i (fun e => decide (meetingReady e.b e.w = true ∧ pathTags (tags g0 e) = [])) = true ∧
      wOk (busy parted 2) i (fun e => decide (meetingReady e.b e.w = true ∧ pathTags (tags g0 e) = [0, 1] ∧ e.s.warpsSettled e.b .blk = false)) = true) ∧
    wOk (thr fun t => { t with p := 1 }) (.call g0 (r 2) (.short 2)) (fun e => decide (meetingReady e.b e.w = true ∧ pathTags (tags g0 e) = [0])) = true ∧
    wOk sW (.call g0 (r 2) (.short 2)) (fun e => decide (meetingReady e.b e.w = true ∧ pathTags (tags g0 e) = [1])) = true ∧
    wOk quiet (.brx u (r 1) 2) (fun e => decide (meetingReady e.b e.w = true ∧ lanes e = [])) = true ∧
    wOk (at40 sW [(64, 1), (67, 128)]) (.brx u (r 1) 2) (fun e => decide (lanes e ≠ []) && head e (fun _ _ m => m) &&
      (e.b.specOf e.w.aid).isNone) = true ∧
    wOk (at40 sW []) (.brx u (r 1) 2) (fun e => head e fun _ n m => !m && decide (∃ l ∈ lanes e, n ≤ brxIndex e.b.settleWarps l.1 (r 1) l.2.2 ∧
      ∀ k ∈ lanes e, l.2.2 ≤ k.2.2 ∧ (k.2.2 = l.2.2 → k.1.k = l.1.k))) = true ∧
    (∀ f : Nat, f < 3 → wOk (let s := at40 (two fun t => { t with v := [(1, 1)] }) [(64, 2)]
        if f = 0 then s else if f = 1 then busy s 2 else blk s fun b => { b with stack := List.replicate 8 ⟨0, .brd, 0, 1, 0, 0, [], []⟩ }) (.brx u (r 1) 2)
      (fun e =>
        let tags := meetingTags e.b.settleWarps fun w t => brxIndex e.b.settleWarps w (r 1) t
        head e fun s1 n m => !m && decide (n = 2 ∧ (∃ l ∈ lanes e, ∃ k ∈ lanes e, brxIndex e.b.settleWarps l.1 (r 1) l.2.2 ≠
          brxIndex e.b.settleWarps k.1 (r 1) k.2.2) ∧ pathTags tags = [0, 1]) && (match s1.tableEntry e.w.aid e.b 64 0 with
          | .ok (s2, _) => decide (s2.warpsSettled e.b .blk = decide (f ≠ 1) ∧ e.b.settleWarps.canPush = decide (f ≠ 2))
          | _ => false)) = true) := by decide +kernel
theorem wit_AccessFaults_more :
    (∀ i ∈ [Instr.ld u (.plain .b32) (r 0) (r 2) none, .st u (.plain .b32) (r 0) (r 2) none], sOk (withS [0, 0, 2]) i (fun e =>
      decide (gaddrS e (r 2) none % 4 ≠ 0) && (e.b.specOf e.q.aid).isNone) = true) ∧
    (∀ i ∈ [Instr.ldl u (.plain .b32) (r 0) (.imm 2) none, .stl u (.plain .b32) (r 0) (.imm 2) none],
      sOk sS i (fun e => decide (laddrS e (.imm 2) none % 4 ≠ 0)) = true) ∧
    (∀ i ∈ [Instr.ldl u (.plain .b32) (r 0) (.imm 4096) none, .stl u (.plain .b32) (r 0) (.imm 4096) none],
      sOk sS i (fun e => decide (laddrS e (.imm 4096) none % 4 = 0 ∧ e.b.winCheck (laddrS e (.imm 4096) none) 4 = some 1)) = true) ∧
    -- one lane's page may not be written
    (let s := sW.modCore 0 fun c => { c with tlb := [{ placedPage with pte := 0x37 }] }
     let x := s.xlateAll 2 0 (some 0) 0 [0]
     .wait ∉ x.2 ∧ (match x.2 with
       | [.done tl] => (x.1.checkPage 0 .st tl.pte (tl.phys 0)).any fun f => decide (f.cls < 5)
       | _ => false) = true) := by decide +kernel
theorem wit_AtomicsIssue_values :
    let a : Access := { aid := 3, inst := 1, die := 0, ctx := 0, loc := none, line := 0, va := 0, page := 0, keyid := 0, slice := 0
                        kind := .rmw .redc [⟨0, 4, 1, 0, none⟩], acq := none, rel := none, st := .issued, refusals := 0, firstRef := 0, retryAt := 0
                        repl := false }
    ((ranged sS).rangeAt a.die a.line).isSome = true ∧ (∀ y ∈ (ranged sS).om.windrows, ¬(y.die = 0 ∧ y.line = 0)) ∧
    (let d : List Byte := (List.replicate 32 (leBytes 4 (commIdentity .add .fp32))).flatten
     d.length = 128 ∧ ({ sS with om := { sS.om with windrows := [⟨0, 0, 0, 0, 0, false, d⟩] } } : State).om.windrows.length = 1) ∧ 4 % 128 + 4 ≤ 128 ∧
    (0x3F800000 : Nat) < 256 ^ commSize .fp32 ∧ f32.dec 0x3F800000 ≠ .nan ∧ bf16.dec 0x3F80 ≠ .nan := by decide +kernel
theorem wit_MatrixIssue_more :
    let s := window sS 1 floush
    sOk { blk s fun b => { b with seq := b.seq.map fun q => { q with s := [0, 64] ++ q.s.drop 2 } } with actor := some 3 } (.mmaS u true 1 (r 1) (.imm 0) (.imm 1))
      (fun e => decide (64 ≤ (srcSU e (r 1)).toNat) && ok (readMDesc e.s e.b e.q.aid false (srcSU e (.imm 0)).toNat) &&
        (e.b.specOf e.q.aid).isNone) = true ∧
    wOk (window sW 1 floush) (.mma u true (r 8) (.imm 0)) (fun e => decide (∀ p ∈ liveLanes e.b e.w, ∀ n ∈ ([8, 9] : List Nat),
      homeBinds e.b p.2 n = false)) = true ∧
    -- a chained element: bound, updated by an earlier entry, or with its value before the batch
    (let w := blk sW fun b => { b with warps := b.warps.map fun w => { w with binds := [(8, 1)], openB := [4], pre := [(0, 8, 7)] } }
     (w.block 1).any fun b => b.warps.any fun w => decide (w.openB = [] ++ 4 :: [] ∧ (∃ y ∈ w.binds, y.1 = 8) ∧ (0, 8, 7) ∈ w.pre ∧
       ∀ z ∈ w.pre, ¬(z.1 = 0 ∧ z.2.1 = 9))) = true := by decide +kernel
/-- The block with a call of agent `aid` at its first word, and what has come for it. -/
def called (s : State) (aid : Nat) (x : Option (Word64 × Bool)) : State := blk s fun b => { b with svc := [⟨aid, 5, 1, [], 0, x⟩] }
def calls : List Instr := [.svc u (r 8) (r 16) 1, .svcp u (r 8) (r 16) 1]
theorem wit_SystemCalls_replies :
    (∀ i ∈ calls, ∀ no : Bool,
      wOk (called sW 2 (some (7, no))) i (fun e => decide (e.eff ≠ []) && e.b.spec.isEmpty && (e.b.svcAt e.w.aid e.w.pc).any fun y =>
        y.reply == some (7, no)) = true ∧
      sOk (called sS 3 (some (7, no))) i (fun e => e.b.spec.isEmpty && (e.b.svcAt e.q.aid e.q.pc).any fun y => y.reply == some (7, no)) = true) ∧
    (∀ i ∈ calls, wOk (called sW 2 none) i (fun e => decide (e.eff ≠ []) && (e.b.svcAt e.w.aid e.w.pc).any fun y => y.reply == none) = true ∧
      sOk (called sS 3 none) i (fun e => (e.b.svcAt e.q.aid e.q.pc).any fun y => y.reply == none) = true) := by decide +kernel
theorem wit_SystemCalls_room : ∀ i ∈ calls,
    sOk (sS.modDie 0 fun d => { d with ringCap := 0 }) i (fun e => (e.b.svcAt e.q.aid e.q.pc).isNone && (e.s.die e.b.die).ringFull) = true ∧
    sOk (busy sS 3) i (fun e => (e.b.svcAt e.q.aid e.q.pc).isNone && !e.s.agentSettled true .sys e.q.aid) = true := by decide +kernel
theorem wit_WritesReachMemory_lost :
    let st : AccKind := .store [(8, 5)]
    let lost (s : State) (d : Nat) : State := s.modDie d fun x => { x with st := .lost }
    let a : Access := acc (some 7) 0 st .buffer
    -- a block that has ended, with its window kept
    (let s : State := { holding sS a with om := { (holding sS a).om with gone := [(7, ⟨4096, 0, 0, []⟩)] } }
     s.canDrain 9 a = true ∧ s.block 7 = none ∧ aget 7 s.om.gone = some ⟨4096, 0, 0, []⟩) ∧
    (∀ x : Nat × Nat, x ∈ [(0, 0), (2 ^ 30, 1)] → let a := acc none x.1 st .buffer
      (lost (holding sS a) x.2).canDrain 9 a = true ∧ (lost (holding sS a) x.2).homeLost a = true) ∧
    (let a := acc none (2 ^ 30) st (.transit 1)
     (lost (holding sS a) 1).canTransit 9 a = true ∧ (lost (holding sS a) 1).homeLost a = true ∧ (holding sS a).homeLost a = false) := by
  decide +kernel
theorem wit_EngineAndTaskEvents_resume :
    let sv : SavedTeam := ⟨32, 65536, (up.team 1).getD ⟨0, 0, 0, 0, recOf [], 0, 0, 0, [], 0, false⟩, []⟩
    let q : QRec := ⟨9, { recOf [0, 2 ^ 54] with resume := true, code := 32 }, 0, 0, 9, 0, 0, [], false, none⟩
    let s : State := up.modDie 0 fun d => { d with hampers := d.hampers.set 1 [q], admWait := [9], admDue := true }
    let s : State := { s with task := { s.task with saved := [(32, sv)] } }
    (s.die 0).hampers.getD 1 [] = [q] ∧ s.saved? q.crec.code = some sv ∧ q.prod = [] ∧
    (s.fit 0 sv.team.crec.kid false q.cluster []).isSome = true ∧ (s.fit 0 sv.team.crec.kid true (some 99) [(64, RV.zero, RV.zero)]) = none ∧
    (s.die 0).admDue = true ∧ (s.die 0).admWait = [q.id] ∧ (∀ j < 16, j ≠ 1 → (s.die 0).hampers.getD j [] = []) ∧
    ((s.modDie 0 fun d => { d with admDue := false }).slotFree 0) = true := by decide +kernel
theorem wit_NetworkEvents_placing :
    let s : State := up.modDie 0 fun d => { d with net := { d.net with placing := [⟨3, .reply 4 0 0 1⟩] } }
    let f : Frame := { port := 0, parses := true, good := true, hdr := 0, key := 0, sa := 0, data := [], udp := some (Config.spdmPort 0) }
    (s.net 0).placing = [⟨3, .reply 4 0 0 1⟩] ∧ (∃ a ∈ (holding s (acc none 0 (.store [(0, 1)]) .buffer)).om.accs, a.2.aid = 3) ∧
    (∀ a ∈ s.om.accs, a.2.aid ≠ 3) ∧ f.udp = some (Config.spdmPort 0) := by
  refine ⟨by decide +kernel, by decide +kernel, by decide +kernel, rfl⟩
theorem wit_ChannelEvents_commdecl :
    let c : Cmd := .commdecl 0 0 65536 .add .fp32
    let s : State := { told (.cmd c) with phys := mapped.phys }
    (s.judgeBefore 3).pagePhys 0 (0 + 0 * 65536) = some 0 ∧ (s.judgeBefore 3).cmdOk ⟨3, 0, false, .cmd c, none, []⟩ c = true ∧
    (∀ x ∈ s.pkg.msgs, x.seq < 3 → ∀ c, x.body ≠ .cmd c) := by
  refine ⟨by decide +kernel, by decide +kernel, ?_⟩
  intro x hx h c
  fin_cases hx
  · exact nofun
  · exact nofun
  · simp at h
theorem wit_CommandChecks_commit :
    (up.modDie 0 fun d => { d with shoots := [⟨1, 0, [0], [0]⟩] }).mayAppend 0 (.commit 0 1 0 1) = true ∧ up.mayAppend 0 (.commit 0 1 0 1) = false ∧
    up.mayAppend 0 (.inv 0 (up.die 0).nextGen 0 1) = true := by decide +kernel
theorem wit_KernelEvents_tables :
    pteV (mapped.pteAt 0) = true ∧ pteMalformed 1 (mapped.pteAt 0) = false ∧ pteV (mapped.pteAt (pteAddr (mapped.pteAt 0) + 8)) = false ∧
    pteV (up.pteAt 0) = false ∧ (let t := (up.ctx 0).tabNext
      pteV (((up.newTable 0).2.putWord64 (8 * 1) (BitVec.ofNat 64 t ||| 1#64)).pteAt t) = false) ∧
    (up.block 1).any (fun b => decide (b.die = 0)) = true := by decide +kernel
end Sys2Proof.Tests
end

section
/-!
PROOFS. From a word's body to the statement about it; what operands and special registers give (R76, R80, R160).
-/
namespace Sys2Proof.Machine

-- A word's body says what the word does.

section
variable {s : State} {i : Instr} {c : Ctl} {wb : WEnv → Except Stop State} {sb : SEnv → Except Stop State} {f : WEnv → Option Nat}

theorem seqIf_of_body {p : SEnv → Prop} {g : SEnv → State} (hx : exec i s = issue i c wb sb s f)
    (h : ∀ e, p e → sb e = .ok (g e)) : SeqIf s i c p g :=
  fun e he hp => hx.trans (issue_seq_ok he (h e hp))

theorem seqDoes_of_body {g : SEnv → State} (hx : exec i s = issue i c wb sb s f) (h : ∀ e, sb e = .ok (g e)) :
    SeqDoes s i c g :=
  fun e he => hx.trans (issue_seq_ok he (h e))

theorem seqWaits_of_body {p : SEnv → Prop} {r : SEnv → Wait} (hx : exec i s = issue i c wb sb s f)
    (h : ∀ e, p e → sb e = .error (.wait (r e) e.s)) : SeqWaits s i c p r :=
  fun e he hp => hx.trans (issue_seq_stay he (h e hp))

/-- A wait that leaves something behind: the state it waits in is the body's. -/
theorem seqStays_of_body {p : SEnv → Prop} {r : SEnv → Wait} {g : SEnv → State} (hx : exec i s = issue i c wb sb s f)
    (h : ∀ e, p e → sb e = .error (.wait (r e) (g e))) : SeqIf s i c p fun e => setWaitS (g e) e.b.id (r e) :=
  fun e he hp => hx.trans (issue_seq_stay he (h e hp))

theorem seqTraps_of_body {p : SEnv → Prop} {x : SEnv → TrapInfo} (hx : exec i s = issue i c wb sb s f)
    (h : ∀ e, p e → sb e = .error (.trap (x e))) : SeqTraps s i c p x :=
  fun e he hs hp => hx.trans (issue_seq_fault he hs (h e hp))

theorem warpDoes_of_body {g : WEnv → State} (hx : exec i s = issue i c wb sb s f) (h : ∀ e, wb e = .ok (g e)) :
    WarpDoes s i c g :=
  fun e he => hx.trans (issue_warp_ok he (h e))

end

-- Operands.

/-- Two registers of a field make a pair, low word first (R160). -/
theorem regPair_toNat (e : WEnv) (l : Nat × Nat) (o : Operand) :
    (regV e l o 1 ++ regV e l o 0).toNat = (regV e l o 0).toNat + 2 ^ 32 * (regV e l o 1).toNat := by
  rw [BitVec.toNat_append, Nat.shiftLeft_eq, Nat.mul_comm, ← Nat.two_pow_add_eq_or_of_lt (regV e l o 0).isLt, Nat.add_comm]

/-- The top 19 bits of a binary32 immediate (R160). -/
theorem immF_toNat (v : BitVec 19) : (v.setWidth 32 <<< 13).toNat = v.toNat * 2 ^ 13 := by
  have := v.isLt
  rw [BitVec.toNat_shiftLeft, BitVec.toNat_setWidth, Nat.shiftLeft_eq]
  omega

/-- A mask has exactly the listed bits set. -/
theorem maskOf_bit (l : List Nat) (j : Nat) (hj : j < 32) : (maskOf l).getLsbD j = true ↔ j ∈ l := by
  have go (l : List Nat) : ∀ m : Word32,
      (l.foldl (fun m i => m ||| (1#32 <<< i)) m).getLsbD j = true ↔ m.getLsbD j = true ∨ j ∈ l := by
    induction l with
    | nil => simp
    | cons i t ih =>
      intro m
      rw [List.foldl_cons, ih]
      have hbit : (1#32 <<< i).getLsbD j = decide (j = i) := by
        rw [BitVec.getLsbD_shiftLeft, BitVec.getLsbD_one]
        by_cases h : j = i
        · subst h; simp [hj]
        · simp [h]; omega
      simp only [BitVec.getLsbD_or, hbit, Bool.or_eq_true, decide_eq_true_eq, List.mem_cons]
      tauto
  exact (go l 0).trans (by simp)

/-- A work-identifier field narrower than its register is read as it is (R11). -/
theorem fieldOf_toNat {w : Nat} (widths : List Nat) (j id : Nat) (h : widths.getD j 0 < w) :
    (BitVec.ofNat w (fieldOf widths j id)).toNat = id / 2 ^ (widths.take j).sum % 2 ^ widths.getD j 0 := by
  rw [BitVec.toNat_ofNat]
  exact Nat.mod_eq_of_lt ((Nat.mod_lt _ (by positivity)).trans (Nat.pow_lt_pow_right (by norm_num) h))

/-- The special registers 8 to 13 are the fields of the work identifier (R80). -/
theorem specialW_field (e : WEnv) (l : Nat × Nat) {j : Nat} (hj : j < 6) :
    specialW e l (BitVec.ofNat 9 (8 + j)) = w32 (fieldOf e.b.hdr.widths j (e.b.workid + l.2)) := by
  interval_cases j <;> rfl

theorem specialS_field (b : Block) (q : SeqThread) {j : Nat} (h1 : 1 ≤ j) (hj : j < 6) :
    specialS b q (BitVec.ofNat 9 (8 + j)) = BitVec.ofNat 64 (fieldOf b.hdr.widths j b.workid) := by
  interval_cases j <;> rfl

/-- A trap record's PC and lanes are zero-extended (R107). -/
theorem specialS_trapPc (b : Block) (q : SeqThread) : (specialS b q 0x021).toNat = b.trap.pc.toNat := by
  have h : specialS b q 0x021 = b.trap.pc.setWidth 64 := rfl
  rw [h, BitVec.toNat_setWidth_of_le (by norm_num)]

theorem specialS_trapLanes (b : Block) (q : SeqThread) : (specialS b q 0x025).toNat = b.trap.lanes.toNat := by
  have h : specialS b q 0x025 = b.trap.lanes.setWidth 64 := rfl
  rw [h, BitVec.toNat_setWidth_of_le (by norm_num)]

/-- The mask of lanes has a bit for each slot of its lanes. -/
theorem lanesMask_bit (l : List (Nat × Nat)) (j : Nat) (hj : j < 32) :
    (lanesMask l).getLsbD j = true ↔ ∃ y ∈ l, y.1 = j := by
  rw [lanesMask, maskOf_bit _ _ hj, List.mem_map]

end Sys2Proof.Machine
end

section
open Sys2Proof Sys2Proof.Machine

/-- Settles O11: each form of an operand is read off its definition; the widths of immediates, of fields and of pairs keep every value. -/
theorem operandValues : Obligations.OperandValues := by
  unfold Obligations.OperandValues
  refine ⟨?_, ?_, ?_, ?_⟩
  · intro e l v r x k u m
    refine ⟨BitVec.toInt_signExtend_of_le (by norm_num), immF_toNat v, BitVec.toNat_setWidth_of_le (by norm_num),
      BitVec.toNat_setWidth_of_le (by norm_num), rfl, rfl, ?_⟩
    rintro o (rfl | rfl)
    · exact ⟨rfl, rfl, rfl, regPair_toNat e l _⟩
    · exact ⟨rfl, rfl, rfl, regPair_toNat e l _⟩
  · intro e l h2 h1 hk
    refine ⟨?_, ?_, ?_, fun j hj => lanesMask_bit _ j hj, fun j hj hw => ?_, rfl, rfl, fun n => rfl⟩
    · exact (BitVec.toNat_ofNat _ _).trans (Nat.mod_eq_of_lt h2)
    · exact (BitVec.toNat_ofNat _ _).trans (Nat.mod_eq_of_lt h1)
    · exact (BitVec.toNat_ofNat _ _).trans (Nat.mod_eq_of_lt hk)
    · exact (congrArg BitVec.toNat (specialW_field e l hj)).trans (fieldOf_toNat _ _ _ hw)
  · intro e v r u m
    refine ⟨BitVec.toInt_signExtend_of_le (by norm_num), BitVec.toNat_setWidth_of_le (by norm_num), rfl, rfl, rfl, rfl,
      fun j h1 hj hw => ?_, rfl, rfl, rfl, specialS_trapPc e.b e.q, rfl, rfl, rfl, specialS_trapLanes e.b e.q⟩
    exact (congrArg BitVec.toNat (specialS_field e.b e.q h1 hj)).trans (fieldOf_toNat _ _ _ hw)
  · intro e l r o he
    have hf : e.first = l := by rw [WEnv.first, he]; rfl
    exact ⟨by rw [firstV, hf], by rw [firstPair, hf]⟩

end

section
open Sys2Proof Sys2Proof.Machine

/-- Settles O19: the branches of DQPUSH exclude one another, and WWAIT's test is the one condition it waits on. -/
theorem decisionPush : Obligations.DecisionPush := by
  unfold Obligations.DecisionPush
  intro s c a d x v
  have isEmpty_of {l : List Nat} (h : l ≠ []) : l.isEmpty = false := by simpa using h
  refine ⟨seqIf_of_body rfl ?_, seqWaits_of_body rfl ?_, seqIf_of_body rfl ?_, seqIf_of_body rfl ?_, seqIf_of_body rfl ?_,
    seqWaits_of_body rfl ?_, seqIf_of_body rfl ?_⟩
  · rintro e ⟨hh, hl, hroom⟩
    simp only [hh, isEmpty_of hl, Nat.not_le.mpr hroom, Bool.false_eq_true, if_false]
    rfl
  · rintro e ⟨hh, hl, hfull⟩
    simp only [hh, isEmpty_of hl, hfull, Bool.false_eq_true, if_false, if_true]
    rfl
  · intro e hh
    simp only [hh, if_true]
  · rintro e ⟨hh, hl⟩
    simp only [hh, hl, List.isEmpty_nil, Bool.false_eq_true, if_false, if_true]
    rfl
  · intro e hall
    have h : (e.b.liveHomes.all fun h => e.b.rdpos h == e.b.push) = true := by simpa using hall
    simp only [h, if_true]
  · rintro e hsome
    have h : (e.b.liveHomes.all fun h => e.b.rdpos h == e.b.push) = false := by simpa using hsome
    simp only [h, Bool.false_eq_true, if_false]
    rfl
  · rintro e ⟨hout, hdone⟩
    have h : (e.b.liveHomes.any fun h => ((e.q.get x.val).toNat % 2 ^ e.b.nWarps).testBit h) = false := by
      simpa using hout
    simp only [h, hdone, Bool.not_true, Bool.or_false, Bool.false_eq_true, if_false]



end

section
/-!
PROOFS. Taking an exception (R27, R107, R109): what it leaves alone, where the handler starts, and the die kernel told.
-/
namespace Sys2Proof.Machine

/-- What taking an exception in block `k` leaves alone: memory, every other block, and the ordering machine but for its agents. -/
def TrapFrame (s t : State) (k : Nat) : Prop :=
  t.phys = s.phys ∧ (∀ j, j ≠ k → t.block j = s.block j) ∧ t.om = { s.om with agents := t.om.agents }

theorem TrapFrame.trans {s t u : State} {k : Nat} (h : TrapFrame s t k) (h' : TrapFrame t u k) : TrapFrame s u k := by
  obtain ⟨hp, hb, ho⟩ := h
  obtain ⟨hp', hb', ho'⟩ := h'
  exact ⟨hp'.trans hp, fun j hj => (hb' j hj).trans (hb j hj), by rw [ho', ho]⟩

theorem block_setBlock_of_id (s : State) (b : Block) {k : Nat} (h : b.id = k) : (s.setBlock b).block k = some b :=
  h ▸ block_setBlock s b

theorem abandonTake_frame (s : State) (b : Block) (k : Nat) : TrapFrame s (s.abandonTake b) k :=
  ⟨abandon_phys s b, fun j _ => abandon_block s b j, by rw [abandon_om]⟩

theorem setBlock_frame (s : State) (b : Block) : TrapFrame s (s.setBlock b) b.id :=
  ⟨rfl, fun _ hj => block_setBlock_ne s b hj, rfl⟩

theorem toKernel_frame (s : State) (k : Nat) (hid : ∀ b, s.block k = some b → b.id = k) : TrapFrame s (s.toKernel k) k := by
  unfold State.toKernel
  split
  · exact ⟨rfl, fun _ _ => rfl, rfl⟩
  · next b hb =>
    obtain rfl := hid b hb
    exact setBlock_frame s { b with hst := .kernel }

theorem startHandler_frame (s : State) (b : Block) : TrapFrame s (startHandler s b) b.id := by
  unfold startHandler
  cases b.seq with
  | some q => exact ⟨rfl, fun _ hj => aget_aset_ne _ hj _, rfl⟩
  | none => exact ⟨rfl, fun _ hj => aget_aset_ne _ hj _, rfl⟩

/-- A block without speculation has nothing to roll back (R328). -/
theorem rollbackAll_of_no_spec {s : State} {b : Block} {k : Nat} (hb : s.block k = some b) (hs : b.spec = []) :
    s.rollbackAll k = s := by
  simp only [State.rollbackAll, hb, hs, List.foldl_nil]

section
variable {s : State} {b : Block} (r : TrapRec) (hb : s.block b.id = some b) (hs : b.spec = [])
include hb hs

/-- A running block with a handler starts it (R109). -/
theorem takeTrap_handler (h : b.hst = .run) (ht : b.hdr.trapv = true) :
    takeTrap s b.id r = startHandler ((s.abandonTake b).setBlock { b with trap := r }) { b with trap := r } := by
  simp only [takeTrap, rollbackAll_of_no_spec hb hs, hb, h, ht]
  rfl

/-- Without a handler, or inside one, the block goes to its die kernel (R109). -/
theorem takeTrap_kernel (h : b.hst = .handler ∨ b.hdr.trapv = false) :
    takeTrap s b.id r = ((s.abandonTake b).setBlock { b with trap := r }).toKernel b.id := by
  have hc : (b.hst != .run || !b.hdr.trapv) = true := by
    rcases h with h | h <;> simp [h]
  simp only [takeTrap, rollbackAll_of_no_spec hb hs, hb, hc, if_true]

theorem takeTrap_frame : TrapFrame s (takeTrap s b.id r) b.id := by
  have h0 : TrapFrame s ((s.abandonTake b).setBlock { b with trap := r }) b.id :=
    (abandonTake_frame s b b.id).trans (setBlock_frame _ { b with trap := r })
  by_cases h : b.hst = .run ∧ b.hdr.trapv = true
  · rw [takeTrap_handler r hb hs h.1 h.2]
    exact h0.trans (startHandler_frame _ { b with trap := r })
  · have hc : (b.hst != .run || !b.hdr.trapv) = true := by
      rw [Bool.or_eq_true]
      by_cases hr : b.hst = .run
      · exact .inr (by simpa [hr] using h)
      · exact .inl (by simpa using hr)
    simp only [takeTrap, rollbackAll_of_no_spec hb hs, hb, hc, if_true]
    refine h0.trans (toKernel_frame _ _ fun x hx => ?_)
    rw [block_setBlock_of_id _ { b with trap := r } rfl] at hx
    cases hx
    rfl

end

/-- The block at its die kernel, and the report that names it (R109). -/
theorem toKernel_block {s : State} {b : Block} {k : Nat} (hb : s.block k = some b) (hid : b.id = k) :
    (s.toKernel k).block k = some { b with hst := .kernel } := by
  simp only [State.toKernel, hb]
  exact block_setBlock_of_id s { b with hst := .kernel } hid

theorem toKernel_report {s : State} {b : Block} {k : Nat} (hb : s.block k = some b) (hd : b.die < s.dies.length) :
    Report.forwarded k ∈ ((s.toKernel k).die b.die).reports := by
  simp only [State.toKernel, hb, State.report]
  rw [die_modDie, if_pos ⟨rfl, hd⟩]
  exact List.mem_append_right _ (List.mem_singleton.mpr rfl)

/-- Where the handler of a block starts (R93). -/
def handlerEntry (s : State) (b : Block) : Addr54 := BitVec.ofNat 54 (leNat (bytesAt s.phys.bytes b.trapPa 8))

/-- The handler on the block's own sequencer thread, which still runs (R109). -/
theorem startHandler_running (s : State) {b : Block} {q : SeqThread} (hq : b.seq = some q) (hex : q.exited = false)
    (hsv : b.hdr.seqv = true) : (startHandler s b).block b.id = some { b with
      hst := .handler
      seq := some { q with hidden := some q.pc, pc := handlerEntry s b, held := q.wait, wait := .none } } := by
  unfold startHandler
  rw [hq]
  dsimp only
  rw [if_pos hsv, if_neg (by simp [hex])]
  exact block_setBlock_of_id _ _ rfl

/-- The handler on a sequencer thread that has exited (R109). -/
theorem startHandler_exited (s : State) {b : Block} {q : SeqThread} (hq : b.seq = some q) (hex : q.exited = true)
    (hsv : b.hdr.seqv = true) : (startHandler s b).block b.id = some { b with
      hst := .handler
      seq := some { q with hidden := some q.pc, pc := handlerEntry s b, handlerOnly := true, wait := .none } } := by
  unfold startHandler
  rw [hq]
  dsimp only
  rw [if_pos hsv, if_pos hex]
  exact block_setBlock_of_id _ _ rfl

/-- The handler of a block without a sequencer thread, on a fresh one (R109). -/
theorem startHandler_fresh (s : State) {b : Block} (hq : b.seq = none) : (startHandler s b).block b.id = some { b with
      hst := .handler
      seq := some { SeqThread.fresh s.nextId (handlerEntry s b) with
        hidden := some (handlerEntry s b), exited := true, handlerOnly := true } } := by
  unfold startHandler
  rw [hq]
  exact block_setBlock_of_id _ _ rfl

end Sys2Proof.Machine
end

section
open Sys2Proof Sys2Proof.Machine

/-- Settles O23: a running block with a handler starts it on the thread that it has, another goes to its die kernel, and the frame is that
of both. -/
theorem trapEntry : Obligations.TrapEntry := by
  unfold Obligations.TrapEntry
  intro s b r hb hs t entry
  obtain ⟨hphys, hother, hom⟩ := takeTrap_frame r hb hs
  have hentry : handlerEntry ((s.abandonTake b).setBlock { b with trap := r }) { b with trap := r } = entry := by
    rw [handlerEntry, setBlock_phys, abandon_phys]
  have hstart (hrun : b.hst = .run) (htv : b.hdr.trapv = true) :
      t = startHandler ((s.abandonTake b).setBlock { b with trap := r }) { b with trap := r } :=
    takeTrap_handler r hb hs hrun htv
  have hkernel (h : b.hst = .handler ∨ b.hdr.trapv = false) :
      t = ((s.abandonTake b).setBlock { b with trap := r }).toKernel b.id := takeTrap_kernel r hb hs h
  refine ⟨?_, ?_, ?_, ?_, fun a => by rw [State.byte, hphys]; rfl, hother, hom⟩
  · intro q hrun htv hq hex hsv
    rw [← hentry, hstart hrun htv]
    exact startHandler_running _ hq hex hsv
  · intro q hrun htv hq hex hsv
    rw [← hentry, hstart hrun htv]
    exact startHandler_exited _ hq hex hsv
  · intro hrun htv hq
    rw [← hentry, hstart hrun htv, ← abandon_next s b]
    exact startHandler_fresh _ hq
  · intro h
    have hset := block_setBlock_of_id (s.abandonTake b) { b with trap := r } (k := b.id) rfl
    rw [hkernel h]
    exact ⟨toKernel_block hset rfl, fun hd => toKernel_report (b := { b with trap := r }) hset (by rwa [setBlock_dies, abandon_dies])⟩

end

section
/-!
PROOFS. The banker (R115 to R126) and the task engine's instructions (R96 to R111): what a vector operand gives, when a claim or a
return is in order, what SPAWN does with the record that it read, and what a return leaves in a thread.
-/
namespace Sys2Proof.Machine

-- Vectors.

/-- A vector operand without a must-be-zero bit set is taken as it is (R126). -/
theorem vectorS_ok {e : SEnv} {a : SReg} (h : rvMbz (e.q.get a.val).toNat = false) :
    vectorS e a = .ok (rvOfWord (e.q.get a.val).toNat) := by
  simp only [vectorS, h, Bool.false_eq_true, if_false]

/-- No class is reported where every one is in order. -/
theorem findSome_class_none {α : Type} {l : List α} {p : α → Prop} [DecidablePred p] (h : ∀ x ∈ l, ¬p x) :
    ((l.zip (List.range 5)).findSome? fun x => if p x.1 then some x.2 else none) = none := by
  rw [List.findSome?_eq_none_iff]
  rintro ⟨x, k⟩ hx
  exact if_neg (h x (List.of_mem_zip hx).1)

/-- A TAKE that is not waiting finds no request of its block. -/
theorem not_waiting {l : List (Nat × RV)} {k : Nat} (h : ∀ x ∈ l, x.1 ≠ k) : (l.any fun x => x.1 == k) = false := by
  simpa using h

section
variable {e : SEnv} {q : RV} (ho : overClass (rvAdd e.b.hdr.floor q) e.b.hold = none)
include ho

/-- A return above the floor takes effect where nothing is in its way, and waits elsewhere (R120). -/
theorem giveOp_ok (hm : e.s.mayGive e.b q = true) : giveOp e q = .ok (e.s.giveBack { e.b with seq := some e.q.advance } q) := by
  simp only [giveOp, ho, hm, Bool.not_true, Bool.false_eq_true, if_false]

theorem giveOp_wait (hm : e.s.mayGive e.b q = false) : giveOp e q = .error (.wait .other e.s) := by
  simp only [giveOp, ho, hm, Bool.not_false, if_true]
  rfl

end

-- SPAWN.

section
variable {e : SEnv} {a : SReg} {s1 s2 : State} {p : Spot} {ps : List Spot} {bytes : List Byte}
  (hspots : e.s.spots e.q.aid e.b .ld 32 [(0, 0, (e.q.get a.val).toNat % 2 ^ 54)] = .ok (s1, p :: ps))
  (hload : s1.loadNow e.b e.q.aid p.site 32 = some (s2, bytes)) (hkid : (recOf (wordsOf bytes)).kid = e.b.kid)
include hspots hload hkid

/-- SPAWN answers 2 for a bad record (R96). -/
theorem spawnOp_bad (d : SReg) (f : Rec → Rec) (h : (f (recOf (wordsOf bytes))).resume = true ∨ (f (recOf (wordsOf bytes))).mbz = true) :
    spawnOp e d a f = .ok (({ e with s := s2 }).put (e.q.advance.put d.val (BitVec.ofNat 64 2))) := by
  have hr : ((f (recOf (wordsOf bytes))).resume || (f (recOf (wordsOf bytes))).mbz) = true := by simpa using h
  simp only [spawnOp, hspots, hload, hkid, ne_eq, not_true_eq_false, if_false, hr, if_true]

section
variable {f : Rec → Rec} (hres : (f (recOf (wordsOf bytes))).resume = false) (hmbz : (f (recOf (wordsOf bytes))).mbz = false)
include hres hmbz

/-- SPAWN answers 1 for a join that is pending. -/
theorem spawnOp_pending (d : SReg) (h : (f (recOf (wordsOf bytes))).join ≠ 0) :
    spawnOp e d a f = .ok (({ e with s := s2 }).put (e.q.advance.put d.val (BitVec.ofNat 64 1))) := by
  simp only [spawnOp, hspots, hload, hkid, ne_eq, not_true_eq_false, if_false, hres, hmbz, Bool.or_self, Bool.false_eq_true, h,
    not_false_eq_true, if_true]

/-- SPAWN pushes a legal record, and answers 0. -/
theorem spawnOp_push (d : SReg) (h : (f (recOf (wordsOf bytes))).join = 0) {s3 : State} {r : Rec}
    (hr : r = { f (recOf (wordsOf bytes)) with prio := max (f (recOf (wordsOf bytes))).prio (s2.prioOf e.b) })
    (hcheck : s2.recCheck e.b.die e.b.ctx r = (s3, some true)) (hroom : (s3.die e.b.die).roomFor r.prio = true) :
    let x := (({ e with s := s3 }).put (e.q.advance.put d.val (BitVec.ofNat 64 0))).newRec r
      ((e.q.get a.val).toNat % 2 ^ 54) e.b.ctx [e.b.die]
    spawnOp e d a f = .ok (x.2.pushRec e.b.die x.1) := by
  subst hr
  unfold spawnOp
  dsimp only
  rw [hspots]
  dsimp only
  rw [hload]
  dsimp only
  rw [if_neg (not_not.mpr hkid), if_neg (by simp [hres, hmbz]), if_neg (not_not.mpr h), hcheck]
  dsimp only
  rw [if_neg (by simpa using hroom)]

end
end

-- EXIT and JOINDEC.

theorem exitSeq_run {e : SEnv} (j : Option Nat) (h : e.b.hst ≠ .handler) : exitSeq e j = .ok (e.s.setBlock { e.b with
    seq := some { e.q.advance with exited := true }, closed := true, exitJ := j }) := by
  simp only [exitSeq, h, if_false]

theorem joinOp_ok {b : Block} {s1 t : State} {xs : List Site} {done : State → State}
    (h : (done s1).joinAll b xs = (t, true)) : joinOp b (.ok (s1, xs)) done = .ok t := by
  simp only [joinOp, h]

-- Grants and returns.

theorem aget_eq_none {α : Type} {k : Nat} {m : Assoc α} (h : ∀ p ∈ m, p.1 ≠ k) : aget k m = none := by
  induction m with
  | nil => rfl
  | cons p t ih =>
    rw [aget, if_neg (Ne.symm (h p List.mem_cons_self)), ih fun q hq => h q (List.mem_cons_of_mem _ hq)]

/-- A return leaves no register above the bound (R121, R123). -/
theorem truncate_above {n m : Nat} (h : n ≤ m) (t : Thread) : (t.truncate n).getV m = 0 ∧ m ∉ (t.truncate n).dead := by
  constructor
  · have hn : aget m (t.truncate n).v = none := by
      refine aget_eq_none fun p hp => ?_
      have : p.1 < n := by simpa using (List.mem_filter.mp hp).2
      omega
    rw [Thread.getV, agetD, hn]
    rfl
  · intro hm
    have : m < n := by simpa using (List.mem_filter.mp hm).2
    omega

/-- A grant adds to the holding and moves the bound of the register window where it holds registers (R114, R117, R123). -/
theorem grow_fields (x : Block) (q : RV) (u : Phys) :
    (x.grow q u).hold = rvAdd x.hold q ∧ (x.grow q u).claim = x.claim ∧
      (q.reg ≠ 0 → (x.grow q u).bnd = 8 * (x.hold.reg + q.reg)) ∧ (q.reg = 0 → (x.grow q u).bnd = x.bnd) ∧
      (x.grow q u).threads = x.threads :=
  ⟨rfl, rfl, fun h => if_neg h, fun h => if_pos h, rfl⟩

/-- What a return keeps of the threads, and of those that an SVCP keeps, is below the new bound (R121). -/
theorem shrink_threads (x : Block) (q : RV) : ∀ t ∈ (x.shrink q).threads, ∃ t', t = Thread.truncate (x.shrink q).bnd t' := by
  intro t ht
  obtain ⟨t', -, rfl⟩ := List.mem_map.mp ht
  exact ⟨t', rfl⟩

theorem shrink_spec (x : Block) (q : RV) :
    ∀ y ∈ (x.shrink q).spec, ∀ p ∈ y.threads, ∃ t', p.2 = Thread.truncate (x.shrink q).bnd t' := by
  intro y hy p hp
  obtain ⟨y', -, rfl⟩ := List.mem_map.mp hy
  obtain ⟨p', -, rfl⟩ := List.mem_map.mp hp
  exact ⟨p'.2, rfl⟩

end Sys2Proof.Machine
end

section
open Sys2Proof Sys2Proof.Machine

/-- Settles O46: each word's body takes the branch that its premises choose; what a return leaves is what `Thread.truncate` keeps. -/
theorem tasksAndBanker : Obligations.TasksAndBanker := by
  unfold Obligations.TasksAndBanker
  intro s c k f n o d a b word vec good notWaiting within answer gives spawns
  have hasked {e : SEnv} {x : Decision} (h : e.s.decide_ e.b (vec e) = x) :
      e.s.decide_ e.b (rvOfWord (e.q.get a.val).toNat) = x := h
  have hgives (i : Instr) (p : SEnv → Prop) (v : SEnv → RV) (sb : SEnv → Except Stop State) (hx : exec i s = issueS i c sb s)
      (hb : ∀ e, p e → sb e = giveOp e (v e)) : gives i p v :=
    ⟨seqIf_of_body hx fun e ⟨hp, ho, hm⟩ => (hb e hp).trans (giveOp_ok ho hm),
      seqWaits_of_body hx fun e ⟨hp, ho, hm⟩ => (hb e hp).trans (giveOp_wait ho hm)⟩
  have hspawns (i : Instr) (g : SEnv → Rec → Rec) (hx : exec i s = issueS i c (fun e => spawnOp e d a (g e)) s) :
      spawns i g := by
    intro e s1 s2 p ps bytes he va hspots hload hkid r put
    refine ⟨fun h => ?_, fun hres hmbz hj => ?_, ?_⟩
    · exact hx.trans (issue_seq_ok he (spawnOp_bad hspots hload hkid d (g e) h))
    · exact hx.trans (issue_seq_ok he (spawnOp_pending hspots hload hkid hres hmbz d hj))
    · intro hres hmbz hj s3 r' hcheck hroom
      exact hx.trans (issue_seq_ok he (spawnOp_push hspots hload hkid hres hmbz d hj rfl hcheck hroom))
  refine ⟨?claim, ?takeZero, ?takeGrant, ?takeWait, ?taketZero, ?taketGrant, ?taketBusy, ?taketUnsafe, ?takeOver,
    hgives _ _ _ _ rfl fun e hg => ?give, hgives _ _ _ _ rfl fun e _ => rfl, warpDoes_of_body rfl fun e => rfl,
    seqDoes_of_body rfl fun e => rfl, hspawns (.spawn c d a) (fun _ r => r) rfl, ?spawnr, ?joinW, ?joinS, warpDoes_of_body rfl fun e => rfl,
    seqIf_of_body rfl fun e h => exitSeq_run none h, ?exitJ, ?exitJAlign, ?exitHandler, ?exitFull,
    seqDoes_of_body rfl fun e => rfl, warpDoes_of_body rfl fun e => rfl, seqDoes_of_body rfl fun e => rfl, ?yieldNone, ?yield,
    grow_fields, ?shrink⟩
  case claim =>
    refine seqIf_of_body rfl fun e ⟨hg, hin⟩ => ?_
    have hk := findSome_class_none (l := (rvList (vec e)).zip ((rvList e.b.claim).zip (rvList e.b.hold)))
      (p := fun x => x.2.1 < x.1 ∨ x.1 < x.2.2) fun x hx hbad => by
        have := hin x hx
        omega
    simp only [vectorS_ok hg]
    rw [hk]
    rfl
  case takeZero =>
    refine seqIf_of_body rfl fun e ⟨hw, hg, hz⟩ => ?_
    simp only [not_waiting hw, vectorS_ok hg, Bool.false_eq_true, if_false]
    exact if_pos hz
  case takeGrant =>
    refine seqIf_of_body rfl fun e ⟨hw, hg, hz, hd⟩ => ?_
    simp only [not_waiting hw, vectorS_ok hg, Bool.false_eq_true, if_false]
    rw [if_neg hz, hasked hd]
  case takeWait =>
    refine seqStays_of_body rfl fun e ⟨hw, hg, hz, hd⟩ => ?_
    simp only [not_waiting hw, vectorS_ok hg, Bool.false_eq_true, if_false]
    rw [if_neg hz]
    rcases hd with hd | hd
    all_goals
      rw [hasked hd]
      rfl
  case taketZero =>
    refine seqIf_of_body rfl fun e ⟨hg, hz⟩ => ?_
    simp only [vectorS_ok hg]
    exact if_pos hz
  case taketGrant | taketBusy | taketUnsafe =>
    refine seqIf_of_body rfl fun e ⟨hg, hz, hd⟩ => ?_
    simp only [vectorS_ok hg]
    rw [if_neg hz, hasked hd]
  case takeOver =>
    intro j
    refine seqTraps_of_body rfl fun e ⟨hw, hg, hz, hd⟩ => ?_
    simp only [not_waiting hw, vectorS_ok hg, Bool.false_eq_true, if_false]
    rw [if_neg hz, hasked hd]
    rfl
  case give =>
    rw [vectorS_ok hg]
  case spawnr =>
    exact hspawns (.spawnr c n d a b) (fun e r => { r with range := true, workid := (e.q.get b.val).toNat, rangel := n.val }) rfl
  case joinW =>
    intro e s1 t xs he hsites hall
    refine Eq.trans rfl (issue_warp_ok he ?_)
    rw [hsites]
    exact joinOp_ok hall
  case joinS =>
    intro e s1 t xs he hsites hall
    refine Eq.trans rfl (issue_seq_ok he ?_)
    rw [hsites]
    exact joinOp_ok hall
  case exitJ =>
    refine seqIf_of_body rfl fun e ⟨hh, ha⟩ => ?_
    rw [if_neg (by omega)]
    exact exitSeq_run _ hh
  case exitJAlign =>
    refine seqTraps_of_body rfl fun e ha => ?_
    rw [if_pos (by omega)]
    rfl
  case exitHandler =>
    refine seqIf_of_body rfl fun e ⟨hh, hr⟩ => ?_
    simp only [exitSeq, hh, hr, Bool.false_eq_true, if_false, if_true]
    rfl
  case exitFull =>
    refine seqWaits_of_body rfl fun e ⟨hh, hr⟩ => ?_
    simp only [exitSeq, hh, hr, if_true]
    rfl
  case yieldNone =>
    refine seqIf_of_body rfl fun e h => ?_
    by_cases hh : e.b.hst = .handler
    · simp only [hh, if_true]; rfl
    · simp only [hh, if_false, h.resolve_left hh]; rfl
  case yield =>
    intro e t s1 stuck he hh ht hs room
    refine ⟨fun hk hr => ?_, fun hno => ?_⟩
    · refine Eq.trans rfl (issue_seq_stay he ?_)
      simp only [hh, if_false, ht, hs, hk]
      exact if_pos hr
    · refine Eq.trans rfl (issue_seq_ok he ?_)
      simp only [hh, if_false, ht, hs]
      cases stuck with
      | false => rfl
      | true => exact if_neg (hno.resolve_left (by simp))
  case shrink =>
    intro x q
    refine ⟨rfl, Nat.min_le_left _ _, Nat.min_le_right _ _, fun t ht m hm => ?_, fun y hy p hp m hm => ?_⟩
    · obtain ⟨t', rfl⟩ := shrink_threads x q t ht
      exact truncate_above hm t'
    · obtain ⟨t', h⟩ := shrink_spec x q y hy p hp
      rw [h]
      exact truncate_above hm t'

end

section
/-!
PROOFS. A write on its way to memory (R35, R204, R213, R320, R324): the bytes a home writes, refusal and entry at a home line queue, what
ends an access.
-/
namespace Sys2Proof.Machine

-- Bytes.

/-- A write of distinct bytes gives each its value. -/
theorem byteAt_putBytes_mem (l : List Host.Cell) : ∀ (m : List Host.Cell), (l.map Prod.fst).Nodup →
    ∀ p ∈ l, byteAt (putBytes m l) p.1 = p.2 := by
  induction l with
  | nil => exact fun _ _ _ h => nomatch h
  | cons c t ih =>
    intro m hn p hp
    obtain ⟨hc, ht⟩ := List.nodup_cons.mp hn
    rcases List.mem_cons.mp hp with rfl | hp
    · rw [putBytes, byteAt_putBytes_ne t _ fun q hq h => hc (List.mem_map.mpr ⟨q, hq, h⟩), byteAt_putByte]
    · exact ih _ ht p hp

/-- The control blocks of gleaning logs change values that are written, never where they are written (R218). -/
theorem ctlCells_addrs (s : State) (cells : List Host.Cell) : (s.ctlCells cells).map Prod.fst = cells.map Prod.fst := by
  refine foldl_keeps (P := fun cs : List Host.Cell => cs.map Prod.fst = cells.map Prod.fst) ?_ s.dies cells rfl
  intro cs d h
  split
  · rw [← h, List.map_map]
    refine List.map_congr_left fun c _ => ?_
    rw [Function.comp_apply]
    split <;> rfl
  · exact h

/-- Bytes outside every control block are written as they are. -/
theorem ctlCells_outside {s : State} {cells : List Host.Cell}
    (h : ∀ d ∈ s.dies, d.glean.made = true → ∀ p ∈ cells, p.1 < d.glean.ctl ∨ d.glean.ctl + 64 ≤ p.1) :
    s.ctlCells cells = cells := by
  unfold State.ctlCells
  generalize s.dies = ds at h
  induction ds with
  | nil => rfl
  | cons d t ih =>
    have hd : (if d.glean.made then cells.map fun c =>
        if d.glean.ctl ≤ c.1 ∧ c.1 < d.glean.ctl + 64 then (c.1, ctlByte (c.1 - d.glean.ctl) c.2) else c else cells) = cells := by
      split
      · next hm =>
        refine (List.map_congr_left fun c hc => if_neg ?_).trans (List.map_id _)
        have := h d List.mem_cons_self hm c hc
        omega
      · rfl
    rw [List.foldl_cons, hd]
    exact ih fun x hx => h x (List.mem_cons_of_mem _ hx)

/-- A line written under the key it was written under before changes by these bytes alone. -/
theorem writeLine_bytes {s : State} {line keyid : Nat} (cells : List Host.Cell)
    (hkey : agetD line 0 s.phys.keys = s.phys.key line keyid) :
    (s.writeLine line keyid cells).phys.bytes = putBytes s.phys.bytes (s.ctlCells cells) := by
  have hold : (s.phys.keepOld (!s.task.blocks.isEmpty) s.task.adm line).bytes = s.phys.bytes := by
    unfold PMem.keepOld
    split <;> rfl
  unfold State.writeLine
  rw [if_pos hkey]
  show putBytes (s.phys.keepOld _ _ line).bytes _ = _
  rw [hold]

-- What ends an access.

@[simp] theorem deliver_om (s : State) (aid : Nat) (cells : List (Cell × Nat)) : (s.deliver aid cells).om = s.om := by
  unfold State.deliver State.modBlock
  split
  · rfl
  · split
    · split <;> rfl
    · rfl

@[simp] theorem deliver_phys (s : State) (aid : Nat) (cells : List (Cell × Nat)) : (s.deliver aid cells).phys = s.phys := by
  unfold State.deliver
  split
  · rfl
  · split
    · exact modBlock_phys _ _ _
    · rfl

@[simp] theorem touch_om (s : State) (ctx d : Nat) : (s.touch ctx d).om = s.om := by
  unfold State.touch
  split <;> rfl

@[simp] theorem touch_phys (s : State) (ctx d : Nat) : (s.touch ctx d).phys = s.phys := by
  unfold State.touch
  split <;> rfl

/-- An access that is performed is in no buffer any more (R34). -/
theorem performed_access (s : State) (id : Nat) : (s.performed id).access id = none := by
  unfold State.performed
  split
  · assumption
  · unfold State.modAgent
    split <;> exact aget_adel _ _

theorem performed_leases (s : State) (id : Nat) : (s.performed id).om.leases = s.om.leases := by
  unfold State.performed State.modAgent
  split
  · rfl
  · split <;> rfl

/-- A request to a lost home goes nowhere (R320). -/
theorem refusedAcc_access (s : State) (id : Nat) (a : Access) : (s.refusedAcc id a).access id = none := performed_access _ _

theorem refusedAcc_phys (s : State) (id : Nat) (a : Access) : (s.refusedAcc id a).phys = s.phys := by
  unfold State.refusedAcc
  rw [performed_phys, deliver_phys]
  rfl

theorem refusedAcc_gone (s : State) (id : Nat) (a : Access) :
    (s.refusedAcc id a).access id = none ∧ ∀ x, (s.refusedAcc id a).byte x = s.byte x :=
  ⟨refusedAcc_access s id a, fun x => by rw [State.byte, refusedAcc_phys]; rfl⟩

-- At the home line queue.

/-- A home line is busy only while a commutative load or a base-die operation of it is due (R212). -/
theorem lineBusy_free {s : State} {line : Nat}
    (hload : ∀ p ∈ s.om.accs, ¬(p.2.st = .issued ∧ p.2.page = 2 ∧ p.2.loc = none ∧ p.2.line = line))
    (hbank : ∀ q ∈ s.om.baseq, ∀ n ∈ q.2, ∀ y, s.access n = some y → y.line ≠ line) : s.lineBusy line = (false, s) := by
  have h1 : (s.om.accs.any fun p => p.2.st == .issued && p.2.page == 2 && p.2.loc.isNone && p.2.line == line) = false := by
    rw [List.any_eq_false]
    intro p hp
    simpa [and_assoc] using hload p hp
  have h2 : (s.om.baseq.any fun q => q.2.any fun id => (s.access id).any fun a => a.line == line) = false := by
    simp only [List.any_eq_false, Bool.not_eq_true]
    intro q hq n hn
    cases hy : s.access n with
    | none => rfl
    | some y => simpa using hbank q hq n hn y hy
  simp only [State.lineBusy, h1, h2, Bool.or_self, Bool.false_eq_true, if_false]

/-- A request joins a home line queue with room (R213). -/
theorem enterHome_joins {s : State} {a : Access} (id : Nat) (hbusy : s.lineBusy a.line = (false, s))
    (hresv : (s.homeLine a.line).resv = none) (hroom : (s.homeLine a.line).q.length < 32) : s.enterHome id a =
    (s.setHomeLine a.line ⟨(s.homeLine a.line).q ++ [id], none⟩).setAccess id { a with st := .queued } := by
  have h : (false || decide (32 ≤ (s.homeLine a.line).q.length) || ((none : Option (Nat × Nat)).isSome && !false)) = false := by
    simpa using hroom
  simp only [State.enterHome, hbusy, hresv, h, Bool.false_eq_true, if_false]

/-- A request that finds 32 queued is refused (R212). -/
theorem enterHome_refused {s : State} {a : Access} (id : Nat) (hbusy : s.lineBusy a.line = (false, s))
    (hfull : 32 ≤ (s.homeLine a.line).q.length) : s.enterHome id a = s.refuse id a := by
  simp only [State.enterHome, hbusy, hfull, decide_true, Bool.or_true, Bool.true_or, if_true]

/-- A wait that is drawn lies between half the bound and the bound. -/
theorem backoff_within (b x : Nat) : b / 2 ≤ b / 2 + x % (b - b / 2 + 1) ∧ b / 2 + x % (b - b / 2 + 1) ≤ b := by
  have := Nat.mod_lt x (show 0 < b - b / 2 + 1 by omega)
  omega

theorem access_ite {p : Prop} [Decidable p] {s t : State} {id : Nat} {x : Option Access} (hs : s.access id = x)
    (ht : t.access id = x) : (if p then s else t).access id = x := by
  split
  · exact hs
  · exact ht

/-- A refused request waits for a time within its backoff (R213). -/
theorem refuse_access (s : State) (id : Nat) (a : Access) :
    ∃ w, min (64 * 2 ^ a.refusals) 4000 / 2 ≤ w ∧ w ≤ min (64 * 2 ^ a.refusals) 4000 ∧ (s.refuse id a).access id = some { a with
      refusals := a.refusals + 1, firstRef := if a.refusals = 0 then s.now else a.firstRef, retryAt := s.now + w } := by
  have hw := backoff_within (backoffMax (a.refusals + 1)) (Config.backoff s.fresh)
  refine ⟨_, hw.1, hw.2, ?_⟩
  unfold State.refuse
  dsimp only [State.freeIx]
  split
  · exact aget_aset _ _ _
  · split
    · exact access_ite (aget_aset _ _ _) (aget_aset _ _ _)
    · exact aget_aset _ _ _

-- SERVE.

theorem homeDone_phys (s : State) (id : Nat) (a : Access) (cells : List Host.Cell) : (s.homeDone id a cells).phys = s.phys := by
  unfold State.homeDone
  dsimp only
  split
  · exact touch_phys _ _ _
  · rw [performed_phys, touch_phys]

theorem homeDone_leases (s : State) (id : Nat) (a : Access) (cells : List Host.Cell) :
    (s.homeDone id a cells).om.leases = s.om.leases := by
  unfold State.homeDone
  dsimp only
  split
  · show (s.touch _ _).om.leases = _
    rw [touch_om]
  · rw [performed_leases, touch_om]

/-- A write without a replica is performed at its home; one with a replica goes on to it (R324). -/
theorem homeDone_access (s : State) (id : Nat) (a : Access) (cells : List Host.Cell) :
    (a.repl = false → (s.homeDone id a cells).access id = none) ∧
      (a.repl = true → ∃ o, (s.homeDone id a cells).access id = some { a with st := .replica o cells }) := by
  unfold State.homeDone
  refine ⟨fun h => ?_, fun h => ?_⟩
  · rw [h]
    exact performed_access _ _
  · rw [h]
    exact ⟨_, aget_aset _ _ _⟩

theorem afterAcquire_phys (s : State) (a : Access) : (s.afterAcquire a).phys = s.phys := by
  unfold State.afterAcquire
  split
  · split <;> rfl
  · rfl

theorem afterAcquire_access (s : State) (a : Access) (id : Nat) : (s.afterAcquire a).access id = s.access id := by
  unfold State.afterAcquire
  split
  · split <;> rfl
  · rfl

/-- An acquire leaves no lease copy that was not there (R39). -/
theorem mem_afterAcquire_leases {s : State} {a : Access} {l : Lease} (h : l ∈ (s.afterAcquire a).om.leases) :
    l ∈ s.om.leases := by
  unfold State.afterAcquire at h
  split at h
  · split at h
    · exact h
    · exact (List.mem_filter.mp h).1
  · exact h

/-- The writer's own die keeps no lease copy of a line that is served (R35). -/
theorem served_leases {s : State} {id : Nat} {a : Access} {cells : List Host.Cell} :
    ∀ l ∈ (s.served id a cells).om.leases, ¬(l.die = a.die ∧ l.line = a.line) := by
  intro l hl
  rw [State.served, homeDone_leases] at hl
  have h := (List.mem_filter.mp hl).2
  simpa only [Bool.not_eq_true', Bool.and_eq_false_iff, beq_eq_false_iff_ne, not_and_or] using h

/-- The oldest request of a line without a reservation is the one that is served (R35). -/
theorem serveLine_head {s : State} {line id : Nat} {t : List Nat} {a : Access} (ha : s.access id = some a)
    (hq : (s.homeLine line).q = id :: t) (hresv : (s.homeLine line).resv = none) :
    s.serveLine line = (s.setHomeLine line ⟨t, none⟩).serveAcc id a := by
  have hadm : s.admitHolder line = s := by simp only [State.admitHolder, hresv]
  have ha' : (s.setHomeLine line ⟨t, none⟩).access id = some a := ha
  simp only [State.serveLine, hadm, hq, hresv, ha']

/-- The oldest operation of a base die's queue is the one that is done (R44). -/
theorem baseOp_head {s : State} {stack id : Nat} {t : List Nat} {a : Access} (ha : s.access id = some a)
    (hq : agetD stack [] s.om.baseq = id :: t) (hw : a.isWrite = true) :
    let s1 : State := { s with om := { s.om with baseq := if t.isEmpty then adel stack s.om.baseq else aset stack t s.om.baseq } }
    s.baseOp stack = (s1.homeWrite a).1.homeDone id a (s1.homeWrite a).2.2 := by
  intro s1
  have ha' : s1.access id = some a := ha
  unfold State.baseOp
  rw [hq]
  show (match s1.access id with
    | some a => _
    | none => s1) = _
  rw [ha']
  exact if_pos hw

end Sys2Proof.Machine
end

section
open Sys2Proof Sys2Proof.Machine

/-- Settles O48: an event whose condition holds takes its step; where the request goes is read off `sendHome`, `enterHome` and `homeDone`,
and what the home writes off `homeWrite` and `writeLine`. -/
theorem writesReachMemory : Obligations.WritesReachMemory := by
  unfold Obligations.WritesReachMemory
  intro s id a ha
  refine ⟨fun hcan => ?drain, ?commit, ?transitLost, ?transitHome, ?transitBank, ?retry, ?homeStore, ?homeSts, ?homeRmw, ?serve,
    ?baseop, ?replica, fun _ _ _ => ⟨rfl, rfl, rfl⟩⟩
  case drain =>
    have hstep : exec (.drain id) s = .next (s.drainStep id a) := by
      show Host.Outcome.next (s.drain id) = _
      simp only [State.drain, ha, hcan, if_true]
    have hstore (bytes : List Host.Cell) (hloc : a.loc = none) (hk : a.kind = .store bytes)
        (hp : a.page ≠ 1 ∨ s.homeOf a = a.die) : exec (.drain id) s = .next (s.sendHome id a) := by
      rw [hstep]
      simp only [State.drainStep, hloc, hk]
      rw [if_neg (by tauto)]
    refine ⟨?_, ?_, ?_, ?_, ?_, hstep⟩
    · intro blk bytes hloc hk
      refine ⟨fun b hb => ?_, fun w hb hw => ?_⟩
      · rw [hstep]
        simp only [State.drainStep, hloc, hk, State.putWindow, hb]
      · rw [hstep]
        simp only [State.drainStep, hloc, hk, State.putWindow, hb, hw]
    · intro bytes hloc hk hp hh
      rw [hstep]
      simp only [State.drainStep, hloc, hk]
      rw [if_pos ⟨hp, hh⟩]
    · intro bytes hloc hk hp hlost
      refine ⟨_, hstore bytes hloc hk hp, ?_⟩
      simp only [State.sendHome, hlost, if_true]
      exact refusedAcc_gone s id a
    · intro bytes hloc hk hp hh hlost
      rw [hstore bytes hloc hk (.inl hp)]
      simp only [State.sendHome, hlost, Bool.false_eq_true, if_false]
      rw [if_pos hh]
    · intro bytes hloc hk hh hlost hresv hload hbank
      have hbusy := lineBusy_free hload hbank
      have hsend : exec (.drain id) s = .next (s.enterHome id a) := by
        rw [hstore bytes hloc hk (.inr hh)]
        simp only [State.sendHome, hlost, Bool.false_eq_true, if_false, hh, ne_eq, not_true_eq_false, Access.isBank,
          Access.isRedm, hk]
      refine ⟨fun hroom => by rw [hsend, enterHome_joins id hbusy hresv hroom], fun hfull => ?_⟩
      obtain ⟨w, hlo, hhi, hw⟩ := refuse_access s id a
      exact ⟨_, w, by rw [hsend, enterHome_refused id hbusy hfull], hlo, hhi, hw⟩
  case commit =>
    intro bytes stamp hk hst hpast hturn hretry
    have hcan : s.canCommit id a = true := by
      simp only [State.canCommit, State.mayCommit, hst, hturn, hk, hpast, hretry, decide_true, beq_self_eq_true, Bool.and_self]
    show Host.Outcome.next (s.commitAcc id) = _
    simp only [State.commitAcc, ha, hcan, if_true]
  case transitLost =>
    intro hcan hlost
    refine ⟨s.refusedAcc id a, ?_, refusedAcc_gone s id a⟩
    show Host.Outcome.next (s.transitAcc id) = _
    simp only [State.transitAcc, ha, hcan, hlost, Bool.not_true, Bool.false_eq_true, if_false, if_true]
  case transitHome =>
    intro hcan hlost hbank
    show Host.Outcome.next (s.transitAcc id) = _
    simp only [State.transitAcc, ha, hcan, hlost, hbank, Bool.not_true, Bool.false_eq_true, if_false]
  case transitBank =>
    intro hcan hlost hbank
    show Host.Outcome.next (s.transitAcc id) = _
    simp only [State.transitAcc, ha, hcan, hlost, hbank, Bool.not_true, Bool.false_eq_true, if_false, if_true]
  case retry =>
    intro hr
    refine ⟨fun hst => ?_, fun h hst => ?_, fun hst => ?_⟩
    · show Host.Outcome.next (s.retryAcc id) = Host.Outcome.next (s.drain id)
      simp only [State.retryAcc, ha, hr, if_false, hst]
    · show Host.Outcome.next (s.retryAcc id) = Host.Outcome.next (s.transitAcc id)
      simp only [State.retryAcc, ha, hr, if_false, hst]
    · show Host.Outcome.next (s.retryAcc id) = Host.Outcome.next (s.commitAcc id)
      simp only [State.retryAcc, ha, hr, if_false, hst]
  case homeStore =>
    intro bytes hk
    simp only [State.homeWrite, hk]
  case homeSts =>
    intro bytes stamp hk
    simp only [State.homeWrite, hk]
    exact ⟨trivial, congrArg (Option.getD · 0) (aget_aset _ _ _), rfl⟩
  case homeRmw =>
    intro op l hk old
    refine ⟨(s.rmwLanes a.keyid op [l]).1.atomWords a.keyid [l], ?_⟩
    simp only [State.homeWrite, hk, State.rmwLanes, List.append_nil]
    rfl
  case serve =>
    intro line t hq hresv hw s1 w
    have hexec : exec (.serve line) s = .next (s1.serveAcc id a) :=
      congrArg Host.Outcome.next (serveLine_head ha hq hresv)
    have hserve : s1.serveAcc id a = ((w.1.deliver a.aid w.2.1).served id a w.2.2).afterAcquire a := by
      simp only [State.serveAcc, hw, if_true]
      rfl
    have hphys : (s1.serveAcc id a).phys.bytes = w.1.phys.bytes := by
      rw [hserve, afterAcquire_phys, State.served, homeDone_phys]
      exact congrArg PMem.bytes (deliver_phys _ _ _)
    have hdone := homeDone_access ((w.1.deliver a.aid w.2.1).dropLease a.die a.line) id a w.2.2
    have hacc : (s1.serveAcc id a).access id = (((w.1.deliver a.aid w.2.1).dropLease a.die a.line).homeDone id a w.2.2).access id := by
      rw [hserve, afterAcquire_access]
      rfl
    refine ⟨_, hexec, hserve, ?_, hphys, hacc ▸ hdone.1, hacc ▸ hdone.2, fun bytes hk hkey => ?_⟩
    · intro l hl
      rw [hserve] at hl
      exact served_leases l (mem_afterAcquire_leases hl)
    · have hbytes : (s1.serveAcc id a).phys.bytes = putBytes s.phys.bytes (s.ctlCells bytes) := by
        rw [hphys]
        show (s1.homeWrite a).1.phys.bytes = _
        simp only [State.homeWrite, hk]
        exact writeLine_bytes (s := s1) bytes hkey
      refine ⟨fun x hx => ?_, fun hn hout p hp => ?_⟩
      · rw [State.byte, hbytes]
        refine byteAt_putBytes_ne _ _ fun p hp h => ?_
        have : p.1 ∈ bytes.map Prod.fst := ctlCells_addrs s bytes ▸ List.mem_map_of_mem hp
        obtain ⟨q, hq, hqp⟩ := List.mem_map.mp this
        exact hx q hq (hqp.trans h)
      · rw [State.byte, hbytes, ctlCells_outside hout]
        exact byteAt_putBytes_mem bytes _ hn p hp
  case baseop =>
    intro stack t hq hw s1
    exact congrArg Host.Outcome.next (baseOp_head ha hq hw)
  case replica =>
    intro ord cells hst hturn s1 done
    have hexec : exec (.replicaWrite id) s = .next (s.replicaAcc id) := rfl
    simp only [State.replicaAcc, ha, hst, hturn, Bool.not_true, Bool.false_eq_true, if_false] at hexec
    refine ⟨fun hk => hexec.trans ?_, fun b x hk => hexec.trans ?_⟩
    · cases hkind : a.kind with
      | sts b x => exact absurd hkind (hk b x)
      | _ => rfl
    · rw [hk]

end

section
/-!
PROOFS. Engine entries (R43, R259): what an entry that begins has before it, and what the end of one does to its queue, its stile and the
warp parked on it.
-/
namespace Sys2Proof.Machine

variable {s : State} {e : Entry}

-- BEGIN.

theorem beginEntry_of_canBegin {id : Nat} (he : s.entry id = some e) (h : s.canBegin e = true) :
    exec (.beginEntry id) s = .next (s.beginStep e) := by
  show Host.Outcome.next (match s.entry id with
    | some e => if s.canBegin e then s.beginStep e else s
    | none => s) = _
  rw [he]
  exact congrArg _ (if_pos h)

theorem canBegin_iff : s.canBegin e = true ↔ e.st = .queued ∧ e.result = none ∧ (∀ p ∈ e.pre, s.preDone p = true) ∧
    (∀ x ∈ s.om.entries, x.before e = true → x.result = none → e.isMat = true ∧ x.st = .begun) ∧
    (∀ id ∈ e.preQ, ∀ x ∈ s.om.entries, x.id = id → x.result.isSome = true) := by
  have hlive (x : Entry) : x.live = x.result.isNone := rfl
  unfold State.canBegin
  simp only [Bool.and_eq_true, beq_iff_eq, List.all_eq_true, hlive, Option.isNone_iff_eq_none, and_assoc]
  refine and_congr_right fun _ => and_congr_right fun _ => and_congr_right fun _ => and_congr ?_ ?_
  · refine forall₂_congr fun x _ => ?_
    cases x.before e <;> cases x.result <;> simp
  · refine forall₄_congr fun id _ x _ => ?_
    by_cases h : x.id = id <;> cases x.result <;> simp [h]

/-- Outside the matrix queues every entry before it on its queue counts, whatever agent issued it. -/
theorem before_of_queue {x : Entry} (hq : x.queue = e.queue) (hn : x.num ≤ e.num) (hi : x.id < e.id) (hm : ∀ y, e.queue ≠ .mat y) :
    x.before e = true := by
  unfold Entry.before
  cases h : e.queue with
  | mat y => exact absurd h (hm y)
  | cq | bq | nq => simp [hq, h, hn, hi]

theorem beginStep_mat {m : MatEntry} (hf : e.form = .mat m) :
    s.beginStep e = (s.setEntry { e with st := .begun }).modBlock e.blk m.begin := by
  unfold State.beginStep
  rw [hf]

-- COMPLETE.

theorem completeEntry_begun {id : Nat} (he : s.entry id = some e) (hr : e.result = none) (hb : e.st = .begun) :
    exec (.completeEntry id) s = .next (s.completeStep e) := by
  show Host.Outcome.next (match s.entry id with
    | some e => if e.live && e.st == EntrySt.begun then s.completeStep e else s
    | none => s) = _
  rw [he]
  exact congrArg _ (if_pos (by simp [Entry.live, hr, hb]))

theorem completeStep_copy {f : CopyForm} {r : Route} {d x : End} {c n : Nat} (hf : e.form = .copy f r d x) (hfar : e.farEnd = false)
    (hv : e.verdict = some (c, n)) (hw : s.writesDone e = true) : s.completeStep e = s.finish e c n := by
  unfold State.completeStep State.workComplete State.entryQuiet
  simp [hf, hfar, hv, hw]

-- What the end of an entry changes, operation by operation.

/-- Whatever is true of a block after each write of a register cell, and after a warp is put back, is true once all its results are in. -/
theorem settleAll_keeps {P : Block → Prop} {b : Block} (w : Warp) (h : ∀ x c n, P x → P (x.putCell c n))
    (h2 : ∀ x y, P x → P (x.setWarp y)) (hb : P b) : P (settleAll b w).1 :=
  h2 _ _ (settleList_keeps h _ _ _ _ _ hb)

theorem putCell_stiles (b : Block) (c : Cell) (n : Nat) : (b.putCell c n).stiles = b.stiles := by
  cases c with
  | s n => rw [Block.putCell]; split <;> rfl
  | v | p | x | xwin => rfl

theorem putCell_id (b : Block) (c : Cell) (n : Nat) : (b.putCell c n).id = b.id := by
  cases c with
  | s n => rw [Block.putCell]; split <;> rfl
  | v | p | x | xwin => rfl

theorem settleAll_id (b : Block) (w : Warp) : (settleAll b w).1.id = b.id :=
  settleAll_keeps (P := fun x => x.id = b.id) w (fun x c n h => (putCell_id x c n).trans h) (fun _ _ h => h) rfl

theorem settleAll_stiles (b : Block) (w : Warp) : (settleAll b w).1.stiles = b.stiles :=
  settleAll_keeps (P := fun x => x.stiles = b.stiles) w (fun x c n h => (putCell_stiles x c n).trans h) (fun _ _ h => h) rfl

theorem mem_settleAll_warps {b : Block} {w x : Warp} (hx : x ∈ (settleAll b w).1.warps) (hk : x.k = w.k) :
    x = { w with pend := [], byp := [] } := by
  obtain ⟨y, -, hy⟩ := List.mem_map.mp hx
  split at hy
  · exact hy.symm
  next h => exact absurd (hy ▸ hk) h

theorem modAgent_task (s : State) (a : Nat) (f : AgentRec → AgentRec) : (s.modAgent a f).task = s.task := by
  unfold State.modAgent; split <;> rfl

theorem modAgent_entries (s : State) (a : Nat) (f : AgentRec → AgentRec) : (s.modAgent a f).om.entries = s.om.entries := by
  unfold State.modAgent; split <;> rfl

theorem modBlock_cores (s : State) (k : Nat) (f : Block → Block) : (s.modBlock k f).task.cores = s.task.cores := by
  unfold State.modBlock; split <;> rfl

theorem modBlock_entries (s : State) (k : Nat) (f : Block → Block) : (s.modBlock k f).om.entries = s.om.entries := by
  unfold State.modBlock; split <;> rfl

theorem signal_cores (s : State) (e : Entry) : (s.signal e).task.cores = s.task.cores := by
  unfold State.signal; split
  · rfl
  · exact modBlock_cores _ _ _

theorem signal_entries (s : State) (e : Entry) : (s.signal e).om.entries = s.om.entries := by
  unfold State.signal; split
  · rfl
  · exact modBlock_entries _ _ _

theorem unpark_of_no_block (h : s.block e.blk = none) : s.unpark e = s := by
  unfold State.unpark; rw [h]

theorem unpark_of_no_warp {b : Block} (h : s.block e.blk = some b) (hw : b.warps.find? (fun w => w.wait == .park e.id) = none) :
    s.unpark e = s := by
  unfold State.unpark; rw [h]; dsimp only; rw [hw]

theorem unpark_of_warp {b : Block} {w : Warp} (h : s.block e.blk = some b)
    (hw : b.warps.find? (fun w => w.wait == .park e.id) = some w) :
    s.unpark e = (s.setBlock (settleAll b { w with wait := .none }).1).observe w.aid [e.id] := by
  unfold State.unpark; rw [h]; dsimp only; rw [hw]

theorem unpark_cases (s : State) (e : Entry) : s.unpark e = s ∨ ∃ b w, s.block e.blk = some b ∧
    b.warps.find? (fun w => w.wait == .park e.id) = some w ∧
    s.unpark e = (s.setBlock (settleAll b { w with wait := .none }).1).observe w.aid [e.id] := by
  cases h : s.block e.blk with
  | none => exact .inl (unpark_of_no_block h)
  | some b =>
    cases hw : b.warps.find? (fun w => w.wait == .park e.id) with
    | none => exact .inl (unpark_of_no_warp h hw)
    | some w => exact .inr ⟨b, w, rfl, hw, unpark_of_warp h hw⟩

theorem unpark_cores (s : State) (e : Entry) : (s.unpark e).task.cores = s.task.cores := by
  obtain h | ⟨b, w, -, -, h⟩ := unpark_cases s e
  · rw [h]
  · rw [h, State.observe, modAgent_task]; rfl

theorem unpark_entries (s : State) (e : Entry) : (s.unpark e).om.entries = s.om.entries := by
  obtain h | ⟨b, w, -, -, h⟩ := unpark_cases s e
  · rw [h]
  · rw [h, State.observe, modAgent_entries]; rfl

theorem queue_of_cores {s t : State} (h : s.task.cores = t.task.cores) (y : QueueId) : s.queue y = t.queue y := by
  cases y <;> simp only [State.queue, State.core, h]

theorem finish_queue (s : State) (e : Entry) (c n : Nat) (y : QueueId) : (s.finish e c n).queue y =
    (s.modQueue e.queue fun r => { r with seq := r.seq + 1, ring := r.ring.set (e.num % 16) (statusWord c n) }).queue y :=
  queue_of_cores (by
    show ((State.signal _ e).unpark e).task.cores = _
    rw [unpark_cores, signal_cores, setEntry_task]) y

theorem modQueue_entries (s : State) (q : QueueId) (f : QueueRec → QueueRec) : (s.modQueue q f).om = s.om := by
  cases q <;> rfl

theorem finish_entries (s : State) (e : Entry) (c n : Nat) : (s.finish e c n).om.entries =
    s.om.entries.map fun x => if x.id = e.id then { e with result := some (c, n) } else x := by
  show ((State.signal _ e).unpark e).om.entries = _
  rw [unpark_entries, signal_entries, State.setEntry, modQueue_entries]

theorem getD_modify_self {α : Type} {l : List α} {j : Nat} (f : α → α) (d : α) (h : j < l.length) :
    (l.modify j f).getD j d = f (l.getD j d) := by
  simp [List.getD_eq_getElem?_getD, h]

/-- A queue that the core has takes the update. -/
theorem queue_modQueue_self {q : QueueId} (f : QueueRec → QueueRec) (h : match q with
      | .cq y j => j < (s.core y).cq.length
      | .bq y j => j < (s.core y).bq.length
      | .nq _ _ => True
      | .mat _ => False) : (s.modQueue q f).queue q = f (s.queue q) := by
  cases q with
  | cq y j => exact (congrArg (fun c : Core => c.cq.getD j _) (core_setCore ..)).trans (getD_modify_self _ _ h)
  | bq y j => exact (congrArg (fun c : Core => c.bq.getD j _) (core_setCore ..)).trans (getD_modify_self _ _ h)
  | nq y j =>
    refine (congrArg (fun c : Core => agetD j _ c.nq) (core_setCore ..)).trans ?_
    simp only [agetD, aget_aset, Option.getD_some, State.queue]
  | mat y => exact h.elim

-- The blocks after the end of an entry.

/-- As far as blocks go the end of an entry is its signal and then the release of the warp parked on it. -/
theorem finish_via (s : State) (e : Entry) (c n : Nat) : ∃ u : State, (∀ k, u.block k = s.block k) ∧
    ∀ k, (s.finish e c n).block k = ((u.signal e).unpark e).block k := by
  refine ⟨_, fun k => ?_, fun _ => rfl⟩
  rw [State.block, setEntry_task]
  cases e.queue <;> rfl

section Blocks
variable {b : Block} {k : Nat} (hid : ∀ j x, s.block j = some x → x.id = j)
include hid

theorem setBlock_ids (y : Block) : ∀ j x, (s.setBlock y).block j = some x → x.id = j := by
  intro j x h
  by_cases hj : j = y.id
  · rw [hj, block_setBlock] at h
    rw [← Option.some.inj h, hj]
  · exact hid j x ((block_setBlock_ne s y hj).symm.trans h)

theorem modBlock_ids (i : Nat) (f : Block → Block) : ∀ j x, (s.modBlock i f).block j = some x → x.id = j := by
  unfold State.modBlock; split
  · exact setBlock_ids hid _
  · exact hid

theorem signal_ids (e : Entry) : ∀ j x, (s.signal e).block j = some x → x.id = j := by
  unfold State.signal; split
  · exact hid
  · exact modBlock_ids hid _ _

theorem modBlock_block (i : Nat) {f : Block → Block} (hf : ∀ x, (f x).id = x.id) (hb : s.block k = some b) :
    (s.modBlock i f).block k = some (if k = i then f b else b) := by
  unfold State.modBlock
  by_cases hk : k = i
  · subst hk
    rw [hb, if_pos rfl]
    exact block_setBlock_of_id _ _ ((hf b).trans (hid _ _ hb))
  · rw [if_neg hk]
    split
    · next x hx => exact (block_setBlock_ne s _ fun h => hk (h.trans ((hf x).trans (hid _ _ hx)))).trans hb
    · exact hb

/-- The block a signal goes to counts it at its stile; another block, or a dropped signal, changes nothing. -/
theorem signal_block (e : Entry) (hb : s.block k = some b) : ∃ b', (s.signal e).block k = some b' ∧ b'.warps = b.warps ∧ b'.stiles =
    if sigOn e.sig && !e.dropSig && k == e.sigBlk then b.stiles.modify (sigStile e.sig) fun x =>
      { x with cnt := min (x.cnt + 1) 65535, obs := x.obs ++ [e.id] } else b.stiles := by
  by_cases hon : (!sigOn e.sig || e.dropSig) = true
  · refine ⟨b, by rw [State.signal, if_pos hon, hb], rfl, (if_neg ?_).symm⟩
    rw [Bool.or_eq_true, Bool.not_eq_true'] at hon
    rcases hon with h | h <;> simp [h]
  · rw [State.signal, if_neg hon]
    rw [Bool.or_eq_true, not_or, Bool.not_eq_true', Bool.not_eq_false, Bool.not_eq_true] at hon
    refine ⟨_, modBlock_block hid _ (fun _ => rfl) hb, ?_⟩
    by_cases hk : k = e.sigBlk <;> simp [hon, hk]

/-- A parked warp that an entry frees leaves its block's number and stiles. -/
theorem unpark_block (hb : s.block k = some b) : ∃ b', (s.unpark e).block k = some b' ∧ b'.id = b.id ∧ b'.stiles = b.stiles := by
  obtain h | ⟨x, w, hx, -, h⟩ := unpark_cases s e
  · exact ⟨b, by rw [h, hb], rfl, rfl⟩
  · have hset : (s.unpark e).block k = (s.setBlock (settleAll x { w with wait := .none }).1).block k := by
      rw [h, State.observe, State.block, modAgent_task]; rfl
    by_cases hk : k = e.blk
    · subst hk
      obtain rfl : b = x := Option.some.inj (hb.symm.trans hx)
      exact ⟨_, hset.trans (block_setBlock_of_id _ _ ((settleAll_id _ _).trans (hid _ _ hb))), settleAll_id _ _, settleAll_stiles _ _⟩
    · have hne : k ≠ (settleAll x { w with wait := .none }).1.id :=
        fun hj => hk (hj.trans ((settleAll_id _ _).trans (hid _ _ hx)))
      exact ⟨b, hset.trans ((block_setBlock_ne s _ hne).trans hb), rfl, rfl⟩

/-- The one warp parked on an entry goes on, all its results in. -/
theorem unpark_warp {w : Warp} (hb : s.block e.blk = some b) (hw : w ∈ b.warps) (hp : w.wait = .park e.id)
    (hu : ∀ x ∈ b.warps, x.wait = .park e.id → x = w) : ∃ b', (s.unpark e).block e.blk = some b' ∧
      ∀ x ∈ b'.warps, x.k = w.k → x.wait = .none ∧ x.pc = w.pc ∧ x.pend = [] ∧ x.byp = [] := by
  have hfind : b.warps.find? (fun w => w.wait == .park e.id) = some w := by
    cases h : b.warps.find? (fun w => w.wait == .park e.id) with
    | none => exact absurd (List.find?_eq_none.mp h w hw) (by simp [hp])
    | some x => rw [hu x (List.mem_of_find?_eq_some h) (by simpa using List.find?_some h)]
  refine ⟨(settleAll b { w with wait := .none }).1, ?_, ?_⟩
  · rw [unpark_of_warp hb hfind, State.observe, State.block, modAgent_task]
    exact block_setBlock_of_id _ _ ((settleAll_id _ _).trans (hid _ _ hb))
  · intro x hx hk
    rw [mem_settleAll_warps hx hk]
    exact ⟨rfl, rfl, rfl, rfl⟩

theorem finish_block (e : Entry) (c n : Nat) (hb : s.block k = some b) : ∃ b', (s.finish e c n).block k = some b' ∧ b'.stiles =
    if sigOn e.sig && !e.dropSig && k == e.sigBlk then b.stiles.modify (sigStile e.sig) fun x =>
      { x with cnt := min (x.cnt + 1) 65535, obs := x.obs ++ [e.id] } else b.stiles := by
  obtain ⟨u, hu, hfin⟩ := finish_via s e c n
  have huid : ∀ j x, u.block j = some x → x.id = j := fun j x h => hid j x ((hu j).symm.trans h)
  obtain ⟨b1, hb1, -, hs1⟩ := signal_block huid e ((hu k).trans hb)
  obtain ⟨b2, hb2, -, hs2⟩ := unpark_block (e := e) (signal_ids huid e) hb1
  exact ⟨b2, (hfin k).trans hb2, hs2.trans hs1⟩

theorem finish_warp (c n : Nat) {w : Warp} (hb : s.block e.blk = some b) (hw : w ∈ b.warps) (hp : w.wait = .park e.id)
    (hu : ∀ x ∈ b.warps, x.wait = .park e.id → x = w) : ∃ b', (s.finish e c n).block e.blk = some b' ∧
      ∀ x ∈ b'.warps, x.k = w.k → x.wait = .none ∧ x.pc = w.pc ∧ x.pend = [] ∧ x.byp = [] := by
  obtain ⟨u, hub, hfin⟩ := finish_via s e c n
  have huid : ∀ j x, u.block j = some x → x.id = j := fun j x h => hid j x ((hub j).symm.trans h)
  obtain ⟨b1, hb1, hw1, -⟩ := signal_block huid e ((hub _).trans hb)
  obtain ⟨b2, hb2, h⟩ := unpark_warp (signal_ids huid e) hb1 (hw1 ▸ hw) hp (hw1 ▸ hu)
  exact ⟨b2, (hfin _).trans hb2, h⟩

end Blocks

end Sys2Proof.Machine
end

section
/-!
PROOFS. Events of tasks (R17, R98 to R105, R118, R119, R246): the scan of the hampers, what a block starts with, pre-emption, RAISE and
the end of a team.
-/
namespace Sys2Proof.Machine

variable {s : State}

-- Units, matrix faults, handles, ends of blocks.

theorem zeroingDone_head {core : Nat} {z : Zeroing} {t : List Zeroing} (h : (s.core core).zero = z :: t) :
    exec (.zeroingDone core) s = .next ((s.modCore core fun x => { x with zero := t }).retry core) := by
  show Host.Outcome.next (match (s.core core).zero with
    | [] => s
    | _ :: t => (s.modCore core fun c => { c with zero := t }).retry core) = _
  rw [h]

/-- The records that dies keep of a dealt team take what it is to run with (R323). -/
def State.recordDealt (s : State) (id : Nat) (r : Rec) : State :=
  { s with dies := s.dies.map fun d =>
    { d with dealt := d.dealt.map fun x => if x.2.id = id then (x.1, { x.2 with crec := r }) else x } }

section Matrix
variable {id addr aux : Nat} {e : Entry} {m : MatEntry} {t : Team} (he : s.entry id = some e) (hf : e.form = .mat m)
  (hr : e.result = none) (hb : e.st = EntrySt.begun) (ht : s.team e.team = some t) (hm : m.mayFail addr aux = true)
include he hf hr hb ht hm

theorem matrixOpfault_kills (h : t.crec.restart = false ∨ 3 ≤ t.crec.retries) : exec (.matrixOpfault id addr aux) s =
    .next (s.killTeam t.die t.id ⟨fMatrixOpfault, e.pc, addr, aux, e.issuer, 0⟩) := by
  have hno : (t.crec.restart && decide (t.crec.retries < 3)) = false := by
    rcases h with h | h
    · rw [h]; rfl
    · rw [decide_eq_false (Nat.not_lt.mpr h), Bool.and_false]
  show execMatrixOpfault id addr aux s = _
  simp [execMatrixOpfault, he, hf, hr, hb, ht, hm, hno, Entry.live]

/-- A restartable team is pushed again; besides its record's copies its end is that of any team. -/
theorem matrixOpfault_restarts (hs : t.crec.restart = true) (hn : t.crec.retries < 3) :
    ∃ s1 : State, s1.om = (s.endTeam t.id).om ∧ s1.task = (s.endTeam t.id).task ∧
      exec (.matrixOpfault id addr aux) s = .next (s1.pushLater t.die
        ⟨t.id, { t.crec with retries := t.crec.retries + 1 }, t.addr, t.ctx, t.launch, t.group, 0, [], true, none⟩) := by
  refine ⟨(s.endTeam t.id).recordDealt t.id { t.crec with retries := t.crec.retries + 1 }, rfl, rfl, ?_⟩
  show execMatrixOpfault id addr aux s = _
  simp only [execMatrixOpfault, he, hf, ht, hm, Entry.live, hr, hb, hs, hn, Option.isNone_none, beq_self_eq_true, Bool.and_self,
    decide_true, if_true]
  rfl

end Matrix

theorem handleGenRaise_live {die : DieNo} {ctx slot : Nat} (h : (s.die die.val).st = .live) (hs : slot < (s.ctx ctx).hsize) :
    exec (.handleGenRaise die ctx slot) s = .next (s.revoke ctx ((s.handleAt ctx slot).gen * 2 ^ 16 + slot)) :=
  congrArg Host.Outcome.next (if_pos (by simp [h, hs]))

theorem over_of_exited {b : Block} (hrun : b.hst = .run) (hq : ∀ q, b.seq = some q → q.exited = true)
    (ht : ∀ t ∈ b.threads, t.live = false) : b.over = true := by
  unfold Block.over
  cases h : b.seq with
  | none => simp [hrun]; exact ht
  | some q => simp [hrun, hq q h]; exact ht

/-- R16, R17: the last parts of a block's end, in the order in which the step takes them. -/
theorem blockEnd_over {blk : Nat} {b : Block} (hb : s.block blk = some b) (ho : b.over = true)
    (hm : ∀ p ∈ s.matEntries blk, p.1.result.isSome = true) :
    let s1 := (s.keepWindow b).releaseBlock b
    let s2 : State := match b.exitJ with
      | some a => { s1 with task := { s1.task with joins := s1.task.joins ++ [⟨blk, b.die, b.ctx, s.prioOf b, a⟩] } }
      | none => s1
    let s3 := if s2.teamBlocks b.team = [] then (s2.delTeam b.team).forgetDealt b.team else s2
    exec (.blockEnd blk) s = .next (s3.endJoin blk) := by
  intro s1 s2 s3
  have hq : (b.over && (s.matEntries blk).all fun p => !p.1.live) = true := by
    rw [ho, Bool.true_and, List.all_eq_true]
    intro p hp
    rw [Entry.live, Option.not_isNone]
    exact hm p hp
  show execBlockEnd blk s = .next (s3.endJoin blk)
  unfold execBlockEnd
  rw [hb]
  dsimp only
  rw [if_pos hq]
  refine congrArg (fun x : State => Host.Outcome.next (x.endJoin blk)) (if_congr ?_ rfl rfl)
  exact List.isEmpty_iff

-- The scan (R15, R98).

theorem hamperScan_scans {die : DieNo} (h : (s.die die.val).st = .live) (hr : (s.die die.val).recovered = true)
    (hf : (s.pushDue die.val).slotFree die.val = true) : exec (.hamperScan die) s =
      .next ((((s.pushDue die.val).redeal die.val).scanFrom die.val [15, 14, 13, 12, 11, 10, 9, 8, 7, 6, 5, 4, 3, 2, 1, 0]).pushDue
        die.val) := by
  show execHamperScan die s = _
  simp only [execHamperScan, h, hr, hf, bne_self_eq_false, Bool.false_eq_true, if_false, Bool.and_self, if_true]
  rfl

theorem hamperScan_full {die : DieNo} (h : (s.die die.val).st = .live)
    (hf : (s.die die.val).recovered = false ∨ (s.pushDue die.val).slotFree die.val = false) :
    exec (.hamperScan die) s = .next (s.pushDue die.val) := by
  show execHamperScan die s = _
  rcases hf with hf | hf <;>
    simp only [execHamperScan, h, hf, bne_self_eq_false, Bool.false_eq_true, if_false, Bool.false_and, Bool.and_false]

theorem scanFrom_cons (s : State) (die p : Nat) (l : List Nat) :
    s.scanFrom die (p :: l) = if (s.tryHead die p).2 then (s.tryHead die p).1 else (s.tryHead die p).1.scanFrom die l := by
  rw [State.scanFrom]
  rcases h : s.tryHead die p with ⟨t, _ | _⟩ <;> rfl

section Head
variable {die p : Nat} {q : QRec} {l : List QRec}

theorem tryHead_empty (h : (s.die die).hampers.getD p [] = []) : s.tryHead die p = (s, false) := by
  unfold State.tryHead; rw [h]

theorem tryHead_resume (h : (s.die die).hampers.getD p [] = q :: l) (hr : q.crec.resume = true) :
    s.tryHead die p = s.tryResume die p q := by
  unfold State.tryHead; rw [h]; exact if_pos hr

theorem tryResume_gone (h : s.saved? q.crec.code = none) :
    s.tryResume die p q = ((s.popHead die p).report die (.badRecord q.addr), true) := by
  unfold State.tryResume; rw [h]

section Saved
variable {sv : SavedTeam} (h : s.saved? q.crec.code = some sv) (hp : q.prod = [])
include h hp

/-- A saved team whose producers have nothing left to write comes back where it fits. -/
theorem tryResume_fits {cl : Nat} {cores : List Nat} (hf : s.fit die sv.team.crec.kid (sv.blocks.any fun x => x.1.hdr.fuse) q.cluster
      (sv.blocks.map fun x => (x.1.nWarps, x.1.claim, x.1.hold)) = some (cl, cores)) :
    s.tryResume die p q = ((s.popHead die p).readmit q die cl cores sv, true) := by
  unfold State.tryResume
  simp only [h, hp, hf, List.isEmpty_nil, if_true]

theorem tryResume_waits (hf : s.fit die sv.team.crec.kid (sv.blocks.any fun x => x.1.hdr.fuse) q.cluster
      (sv.blocks.map fun x => (x.1.nWarps, x.1.claim, x.1.hold)) = none) :
    s.tryResume die p q = (s.admWaits die q, false) := by
  unfold State.tryResume
  simp only [h, hp, hf, List.isEmpty_nil, if_true]

end Saved

theorem tryAdmit_waits {h : Header} (hf : s.fit die q.crec.kid h.fuse q.cluster h.asks = none) :
    s.tryAdmit die p q h = (s.admWaits die q, false) := by
  unfold State.tryAdmit; rw [hf]

theorem tryAdmit_admits {h : Header} {cl : Nat} {cores : List Nat} {s1 s2 : State} {tl : Tlb} {image : List Byte}
    (hf : s.fit die q.crec.kid h.fuse q.cluster h.asks = some (cl, cores)) (hp : q.prod = [])
    (ht : s.taskPage die q.ctx .ld (q.crec.code + 24) = (s1, .ok tl))
    (hr : s1.taskRead die q.ctx h.dataPtr h.dataSize = (s2, .ok image)) :
    s.tryAdmit die p q h = ((s2.popHead die p).admitTeam q die cl cores h (tl.phys (q.crec.code + 24)) image, true) := by
  unfold State.tryAdmit
  simp only [hf, ht, hr, hp, List.isEmpty_nil, if_true]

end Head

-- Retries (R118, R119).

theorem retry_eq (s : State) (core : Nat) : let t := (s.core core).waiting.foldl State.retryTake s
    s.retry core = if (t.die (core / 96)).admWait = [] then t else t.modDie (core / 96) fun d => { d with admDue := true } :=
  if_congr List.isEmpty_iff rfl rfl

/-- Whether record `id` heads hamper `p`. -/
def State.heads (s : State) (die id p : Nat) : Bool :=
  match (s.die die).hampers.getD p [] with
  | [] => false
  | q :: _ => q.id == id

/-- The one record that waits for units is decided where it heads a hamper. -/
theorem admitDue_head {die p : Nat} {q : QRec} {l : List QRec} (hd : (s.die die).admDue = true) (hw : (s.die die).admWait = [q.id])
    (hp : p < 16) (hq : (s.die die).hampers.getD p [] = q :: l)
    (hu : ∀ j < 16, j ≠ p → ∀ y z, (s.die die).hampers.getD j [] = y :: z → y.id ≠ q.id) (hst : (s.die die).st = .live)
    (hr : (s.die die).recovered = true) (hl : die < s.dies.length) :
    let t := s.modDie die fun d => { d with admDue := false }
    t.slotFree die = true → s.admitDue die = (t.tryHead die p).1 := by
  intro t hfree
  have ht : t.die die = { s.die die with admDue := false } := (die_modDie s die _ die).trans (if_pos ⟨rfl, hl⟩)
  have hfind : (List.range 16).find? (t.heads die q.id) = some p := by
    rw [List.find?_range_eq_some]
    refine ⟨?_, List.mem_range.mpr hp, fun j hj => ?_⟩
    · rw [State.heads, ht, hq]
      exact beq_self_eq_true _
    · rw [State.heads, ht]
      split
      · rfl
      · next y z hy => simpa using hu j (by omega) (by omega) y z hy
  unfold State.admitDue
  rw [hd]
  show (t.die die).admWait.foldl _ t = _
  rw [show (t.die die).admWait = [q.id] by rw [ht, ← hw], List.foldl_cons, List.foldl_nil]
  dsimp only
  split
  · next j hj =>
    obtain rfl : j = p := Option.some.inj (hj.symm.trans hfind)
    refine if_pos ?_
    rw [hfree, ht, hst, hr]
    rfl
  · next hnone => exact nomatch hnone.symm.trans hfind

-- What a block starts with (R98).

theorem startWarps_task (blk die : Nat) (h : Header) (l : List Nat) : ∀ s, (startWarps blk die h l s).1.task = s.task := by
  induction l with
  | nil => exact fun _ => rfl
  | cons k t ih => exact fun s => (ih _).trans rfl

theorem startWarps_length (blk die : Nat) (h : Header) (l : List Nat) : ∀ s, (startWarps blk die h l s).2.length = l.length := by
  induction l with
  | nil => exact fun _ => rfl
  | cons k t ih => exact fun s => congrArg (· + 1) (ih _)

theorem startWarps_pc (blk die : Nat) (h : Header) (l : List Nat) :
    ∀ s, ∀ w ∈ (startWarps blk die h l s).2, w.pc = h.warpEntry := by
  induction l with
  | nil => exact fun _ _ hw => nomatch hw
  | cons k t ih =>
    intro s w hw
    rcases List.mem_cons.mp hw with rfl | hw
    · rfl
    · exact ih _ w hw

theorem startBlock_spec (s : State) (q : QRec) (die core adm : Nat) (h : Header) (pa wf1 : Nat) (image : List Byte) :
    let r := s.startBlock q die core adm h pa wf1 image
    let first := q.crec.workid + wf1 * 2 ^ h.f 0
    ∃ b, r.2.block r.1 = some b ∧ b.team = q.id ∧ b.ctx = q.ctx ∧ b.kid = q.crec.kid ∧ b.die = die ∧ b.core = core ∧
      b.workid = first ∧ b.hold = h.floor ∧ b.claim = h.claim ∧ b.bnd = h.regs ∧ b.hst = .run ∧ b.dq = [] ∧ b.stack = [] ∧
      b.clm = putBytes [] (cellsFrom 0 image) ∧ b.seq.isSome = h.seqv ∧ (∀ x, b.seq = some x → x.pc = h.seqEntry) ∧
      b.warps.length = h.warps ∧ (∀ w ∈ b.warps, w.pc = h.warpEntry) ∧
      (∀ n < 2 ^ h.f 0, b.thread n = freshThread h.warpv (first + n)) ∧ (∀ k, k ≠ r.1 → r.2.block k = s.block k) := by
  intro r first
  refine ⟨_, block_setBlock _ _, rfl, rfl, rfl, rfl, rfl, rfl, rfl, rfl, rfl, rfl, rfl, rfl, rfl, ?seq, ?seqPc, ?length, ?pc,
    ?thread, ?others⟩
  case seq => cases hs : h.seqv <;> rfl
  case seqPc =>
    cases hs : h.seqv <;> rintro x ⟨⟩
    rfl
  case length => exact (startWarps_length ..).trans List.length_range
  case pc => exact startWarps_pc _ _ _ _ _
  case thread =>
    intro n hn
    simp [Block.thread, hn, first]
  case others =>
    intro k hk
    refine (block_setBlock_ne _ _ hk).trans ?_
    cases hs : h.seqv <;>
      exact congrArg (fun t : Task => aget k t.blocks) (startWarps_task ..)

-- Pre-emption (R103, R105).

theorem preempt_chooses {die : DieNo} (h : (s.die die.val).st = .live)
    (hn : ∀ p ∈ s.task.teams, p.2.die = die.val → p.2.stop = false) : exec (.preempt die) s = .next (s.choosePreempt die.val) := by
  have hnone : ((s.task.teams.map Prod.snd).filter fun t => t.die == die.val && t.stop) = [] := by
    rw [List.filter_eq_nil_iff, List.forall_mem_map]
    intro p hp hs
    rw [Bool.and_eq_true, beq_iff_eq] at hs
    exact absurd hs.2 (by rw [hn p hp hs.1]; exact Bool.false_ne_true)
  show execPreempt die s = _
  simp only [execPreempt, h, hnone, bne_self_eq_false, Bool.false_eq_true, if_false, List.isEmpty_nil, if_true]

theorem preempt_stashes {die : DieNo} {t : Team} (h : (s.die die.val).st = .live)
    (ht : ((s.task.teams.map Prod.snd).filter fun t => t.die == die.val && t.stop).find? s.mayStash = some t) :
    exec (.preempt die) s = .next (s.stashTeam t) := by
  have hne : (((s.task.teams.map Prod.snd).filter fun t => t.die == die.val && t.stop).isEmpty) = false := by
    rw [List.isEmpty_eq_false_iff]
    exact List.ne_nil_of_mem (List.mem_of_find?_eq_some ht)
  show execPreempt die s = _
  simp only [execPreempt, h, hne, ht, bne_self_eq_false, Bool.false_eq_true, if_false]

theorem mem_insertVictim {t x : Team} {l : List Team} (h : x ∈ insertVictim t l) : x = t ∨ x ∈ l := by
  induction l with
  | nil => exact .inl (List.mem_singleton.mp h)
  | cons y r ih =>
    rw [insertVictim] at h
    split at h
    · exact List.mem_cons.mp h
    · rcases List.mem_cons.mp h with rfl | h
      · exact .inr List.mem_cons_self
      · exact (ih h).imp_right (List.mem_cons_of_mem y)

theorem mem_sortVictims {x : Team} {l : List Team} (h : x ∈ l.foldr insertVictim []) : x ∈ l := by
  induction l with
  | nil => exact h
  | cons y r ih =>
    rcases mem_insertVictim h with rfl | h
    · exact List.mem_cons_self
    · exact List.mem_cons_of_mem y (ih h)

/-- Only candidates are taken. -/
theorem mem_victimsGo {die kid : Nat} {ask : Bool × List (Nat × RV × RV)} {cl : Nat} {l : List Team} (cands : List Team) :
    ∀ taken, s.victimsGo die kid ask cl taken cands = some l → ∀ t ∈ l, t ∈ taken ∨ t ∈ cands := by
  induction cands with
  | nil =>
    intro taken h t ht
    rw [State.victimsGo] at h
    obtain ⟨-, h⟩ := Option.ite_none_right_eq_some.mp h
    exact .inl (Option.some.inj h ▸ ht)
  | cons x r ih =>
    intro taken h t ht
    rw [State.victimsGo] at h
    split at h
    · exact .inl (Option.some.inj h ▸ ht)
    · rcases ih _ h t ht with hm | hm
      · rcases List.mem_append.mp hm with hm | hm
        · exact .inl hm
        · exact .inr (List.mem_singleton.mp hm ▸ List.mem_cons_self)
      · exact .inr (List.mem_cons_of_mem x hm)

theorem mem_victims {die kid prio : Nat} {ask : Bool × List (Nat × RV × RV)} {cl : Nat} {l : List Team}
    (h : s.victims die kid prio ask cl = some l) :
    ∀ t ∈ l, t.crec.prio < prio ∧ t.die = die ∧ t.cluster = cl ∧ t ∈ s.task.teams.map Prod.snd := by
  intro t ht
  rcases mem_victimsGo _ _ h t ht with hm | hm
  · exact nomatch hm
  · obtain ⟨hm, hp⟩ := List.mem_filter.mp (mem_sortVictims hm)
    simp only [Bool.and_eq_true, beq_iff_eq, decide_eq_true_eq] at hp
    obtain ⟨⟨hd, hc⟩, hlt⟩ := hp
    exact ⟨hlt, hd, hc, hm⟩

theorem choosePreempt_empty {die : Nat} (h : ∀ p < 16, (s.die die).hampers.getD p [] = []) : s.choosePreempt die = s := by
  have hnone : ((List.range 16).reverse.find? fun p => !((s.die die).hampers.getD p []).isEmpty) = none := by
    rw [List.find?_eq_none]
    intro p hp
    rw [h p (List.mem_range.mp (List.mem_reverse.mp hp))]
    exact Bool.false_ne_true
  unfold State.choosePreempt
  rw [hnone]

-- RAISE (R102).

theorem findSome?_of_find? {α β : Type} {p : α → Bool} {f : α → Option β} {g : α → β}
    (hf : ∀ x, f x = if p x then some (g x) else none) (l : List α) : l.findSome? f = (l.find? p).map g := by
  induction l with
  | nil => rfl
  | cons x t ih =>
    rw [List.findSome?_cons, List.find?_cons, hf x]
    cases p x
    · exact ih
    · rfl

theorem prioRaise_resident {die : DieNo} {ctx team prio : Nat} {t : Team}
    (ht : (s.task.teams.map Prod.snd).find? (fun t => t.id == team && t.ctx == ctx && t.die == die.val) = some t)
    (hlt : t.crec.prio < prio) (hp : prio < 16) :
    exec (.prioRaise die ctx team prio) s = .next (s.raiseGroup t.launch t.group prio) := by
  have hres : ((s.task.teams.map Prod.snd).findSome? fun t =>
      if t.id = team ∧ t.ctx = ctx ∧ t.die = die.val then some (t.launch, t.group, t.crec.prio) else none) =
        some (t.launch, t.group, t.crec.prio) := by
    rw [findSome?_of_find? (p := fun t => t.id == team && t.ctx == ctx && t.die == die.val)
      (g := fun t : Team => (t.launch, t.group, t.crec.prio)) (fun x => by simp [and_assoc]), ht]
    rfl
  show execPrioRaise die ctx team prio s = _
  unfold execPrioRaise
  dsimp only
  rw [hres]
  exact congrArg _ (if_pos ⟨hlt, hp⟩)

section Raise
variable {launch group prio : Nat}

theorem raiseGroup_teams : ∀ p ∈ (s.raiseGroup launch group prio).task.teams, p.2.launch = launch → p.2.group = group →
    prio ≤ p.2.crec.prio := by
  refine List.forall_mem_map.mpr fun p _ => ?_
  dsimp only
  split
  · exact fun _ _ => Nat.le_refl _
  next h => exact fun hl hg => Nat.not_lt.mp fun hlt => h ⟨hl, hg, hlt⟩

/-- A record whose priority a RAISE of its group changes. -/
def QRec.below (launch group prio : Nat) (q : QRec) : Bool :=
  q.launch == launch && q.group == group && !q.crec.range && decide (q.crec.prio < prio)

def QRec.raised (launch group prio : Nat) (q : QRec) : QRec :=
  if q.below launch group prio then { q with crec := { q.crec with prio := prio } } else q

/-- No record of the group, a range excepted, stands below the priority. -/
def QRec.AtLeast (launch group prio : Nat) (q : QRec) : Prop :=
  q.launch = launch → q.group = group → q.crec.range = false → prio ≤ q.crec.prio

theorem atLeast_of_not_below {q : QRec} (h : q.below launch group prio = false) : q.AtLeast launch group prio := by
  intro hl hg hr
  simpa [QRec.below, hl, hg, hr] using h

theorem raised_atLeast (q : QRec) : (q.raised launch group prio).AtLeast launch group prio := by
  unfold QRec.raised
  split
  · exact fun _ _ _ => Nat.le_refl _
  next h => exact atLeast_of_not_below (Bool.eq_false_iff.mpr h)

/-- In a hamper stand records that the RAISE left and those that it put at the tail. -/
theorem raiseQueued_hampers {d : Die} {h : List QRec} {q : QRec} (hh : h ∈ (d.raiseQueued launch group prio).hampers) (hq : q ∈ h) :
    q.below launch group prio = false ∨ ∃ y : QRec, q = y.raised launch group prio := by
  have hkept : ∀ h' ∈ d.hampers.map fun h => h.filter fun q => !q.below launch group prio,
      ∀ x ∈ h', x.below launch group prio = false :=
    List.forall_mem_map.mpr fun g _ x hx => by simpa using (List.mem_filter.mp hx).2
  obtain ⟨i, hi, rfl⟩ := List.mem_iff_getElem.mp hh
  rw [show (d.raiseQueued launch group prio).hampers[i] = _ from List.getElem_modify ..] at hq
  split at hq
  · rcases List.mem_append.mp hq with hq | hq
    · exact .inl (hkept _ (List.getElem_mem _) q hq)
    · obtain ⟨y, -, rfl⟩ := List.mem_map.mp hq
      exact .inr ⟨y, rfl⟩
  · exact .inl (hkept _ (List.getElem_mem _) q hq)

theorem raiseQueued_atLeast (d : Die) (q : QRec) (h : q ∈ (d.raiseQueued launch group prio).pushq ∨
    q ∈ (d.raiseQueued launch group prio).dealt.map Prod.snd ∨ (∃ h ∈ (d.raiseQueued launch group prio).hampers, q ∈ h)) :
    q.AtLeast launch group prio := by
  rcases h with h | h | ⟨g, hg, hq⟩
  · obtain ⟨y, -, rfl⟩ := List.mem_map.mp h
    exact raised_atLeast y
  · obtain ⟨x, hx, rfl⟩ := List.mem_map.mp h
    obtain ⟨y, -, rfl⟩ := List.mem_map.mp hx
    exact raised_atLeast y.2
  · rcases raiseQueued_hampers hg hq with h | ⟨y, rfl⟩
    · exact atLeast_of_not_below h
    · exact raised_atLeast y

theorem raiseGroup_dies : ∀ d ∈ (s.raiseGroup launch group prio).dies, ∀ q,
    q ∈ d.pushq ∨ q ∈ d.dealt.map Prod.snd ∨ (∃ h ∈ d.hampers, q ∈ h) → q.AtLeast launch group prio :=
  List.forall_mem_map.mpr fun d _ q => raiseQueued_atLeast d q

end Raise

end Sys2Proof.Machine
end

section
/-!
PROOFS. The die's interval of time (R221, R222) and the barriers of the package (R228).
-/
namespace Sys2Proof.Machine

variable {s : State}

-- Time.

/-- The interval that an accepted update leaves (R222). -/
def TimeUnit.updated (u : TimeUnit) (now lo hi : Nat) : TimeUnit :=
  { u with
    st := .disciplined
    e0 := max lo (u.earliest now)
    l0 := min hi (u.latest now)
    lf := if u.st == .unset then 0 else u.latest now
    t0 := now }

/-- At the update itself nothing has drifted yet. -/
theorem updated_earliest (u : TimeUnit) (now lo hi : Nat) : (u.updated now lo hi).earliest now = max lo (u.earliest now) := by
  show max lo (u.earliest now) + ((now - now) - (now - now) / 100000) = _
  rw [Nat.sub_self]
  rfl

theorem updated_latest (u : TimeUnit) (now lo hi : Nat) : (u.updated now lo hi).latest now =
    max (if u.st == .unset then 0 else u.latest now) (min hi (u.latest now)) := by
  show max _ (min hi (u.latest now) + ((now - now) + ((now - now) + 99999) / 100000)) = _
  rw [Nat.sub_self]
  rfl

theorem timeUpdate_accepted {die : DieNo} {lo hi : Nat} (hst : (s.die die.val).st = .live) (hlo : lo ≤ s.now) (hhi : s.now ≤ hi)
    (hw : hi ≤ lo + updateWidth) : exec (.timeUpdate die lo hi) s =
      .next (s.modDie die.val fun x => { x with time := x.time.updated s.now lo hi }) := by
  refine congrArg Host.Outcome.next (if_pos ?_)
  simp [hst, hlo, hhi, hw]

theorem timeUpdate_narrows {die : DieNo} {lo hi : Nat} (hst : (s.die die.val).st = .live) (hd : die.val < s.dies.length)
    (hlo : lo ≤ s.now) (hhi : s.now ≤ hi) (hw : hi ≤ lo + updateWidth) :
    ∃ t, exec (.timeUpdate die lo hi) s = .next t ∧ (t.die die.val).time.st = .disciplined ∧
      lo ≤ t.earliest die.val ∧ s.earliest die.val ≤ t.earliest die.val ∧
      ((s.die die.val).time.st ≠ .unset → s.latest die.val ≤ t.latest die.val) ∧
      ((s.die die.val).time.st = .unset → t.latest die.val = min hi (2 ^ 64 - 1)) ∧ t.phys = s.phys ∧ t.om = s.om := by
  refine ⟨_, timeUpdate_accepted hst hlo hhi hw, ?_⟩
  have ht : ((s.modDie die.val fun x => { x with time := x.time.updated s.now lo hi }).die die.val).time =
      (s.die die.val).time.updated s.now lo hi := by
    rw [die_modDie, if_pos ⟨rfl, hd⟩]
  have he : (s.modDie die.val fun x => { x with time := x.time.updated s.now lo hi }).earliest die.val =
      max lo (s.earliest die.val) := by
    rw [State.earliest, ht]
    exact updated_earliest ..
  have hl : (s.modDie die.val fun x => { x with time := x.time.updated s.now lo hi }).latest die.val =
      max (if (s.die die.val).time.st == .unset then 0 else s.latest die.val) (min hi (s.latest die.val)) := by
    rw [State.latest, ht]
    exact updated_latest ..
  refine ⟨by rw [ht]; rfl, he ▸ Nat.le_max_left .., he ▸ Nat.le_max_right .., fun hu => ?_, fun hu => ?_, rfl, rfl⟩
  · rw [hl, if_neg (by simpa using hu)]
    exact Nat.le_max_left ..
  · have hlast : s.latest die.val = 2 ^ 64 - 1 := by
      unfold State.latest TimeUnit.latest
      rw [hu]
    rw [hl, hu, hlast, if_pos (beq_self_eq_true _), Nat.zero_max]

theorem holdover_due {die : DieNo} (hst : (s.die die.val).time.st = .disciplined)
    (ht : (s.die die.val).time.t0 + 100000 ≤ s.now) : exec (.holdover die) s =
      .next ((s.modDie die.val fun x => { x with time := { x.time with st := .holdover } }).report die.val .holdover) :=
  congrArg Host.Outcome.next (if_pos (by simp [hst, ht]))

-- Barriers.

section Arrival
variable {id bar : Nat} {a : Access} {dest : List Cell} (ha : s.access id = some a) (hk : a.kind = .arrive bar dest)
  (hs : s.settledAt false .pkg id a = true) (hf : ∀ e ∈ s.earlier id a, e.isFence = false)
include ha hk hs hf

theorem arrival_accepted (h : (s.barrier bar).cnt + 1 = (s.barrier bar).n → (s.barrier bar).pend < 255) :
    exec (.barrierArrivalAccept id) s = .next (s.acceptArrival id a bar dest) := by
  have hgo : (!((s.barrier bar).cnt + 1 == (s.barrier bar).n && decide (255 ≤ (s.barrier bar).pend)) &&
      s.settledAt false .pkg id a && (s.earlier id a).all fun e => !e.isFence) = true := by
    have hfence : ((s.earlier id a).all fun e => !e.isFence) = true := by simpa using hf
    rw [hs, hfence]
    by_cases hn : (s.barrier bar).cnt + 1 = (s.barrier bar).n <;> simp [hn]
    exact h hn
  show execBarrierArrivalAccept id s = _
  unfold execBarrierArrivalAccept
  rw [ha]
  dsimp only
  rw [hk]
  exact congrArg _ (if_pos hgo)

end Arrival

theorem acceptArrival_counts {id bar : Nat} {a : Access} {dest : List Cell} (h : (s.barrier bar).cnt + 1 ≠ (s.barrier bar).n) :
    s.acceptArrival id a bar dest = ((s.setBarrier bar { s.barrier bar with cnt := (s.barrier bar).cnt + 1 }).deliver a.aid
      (dest.map fun c => (c, ((s.barrier bar).rg + BitVec.ofNat 32 (s.barrier bar).pend).toNat))).performed id := by
  unfold State.acceptArrival
  dsimp only
  rw [if_neg (by simpa using h)]

theorem acceptArrival_completes {id bar : Nat} {a : Access} {dest : List Cell} (h : (s.barrier bar).cnt + 1 = (s.barrier bar).n) :
    s.acceptArrival id a bar dest = ((s.setBarrier bar { s.barrier bar with
      cnt := 0, pend := (s.barrier bar).pend + 1, travel := (s.barrier bar).travel ++ [s.now + 96] }).deliver a.aid
      (dest.map fun c => (c, ((s.barrier bar).rg + BitVec.ofNat 32 (s.barrier bar).pend).toNat))).performed id := by
  unfold State.acceptArrival
  dsimp only
  rw [if_pos (by simpa using h)]

theorem barrierRelease_due {bar t : Nat} {r : List Nat} (h : (s.barrier bar).travel = t :: r) (ht : t ≤ s.now) :
    exec (.barrierRelease bar) s = .next (s.setBarrier bar { s.barrier bar with
      rg := (s.barrier bar).rg + 1, pend := (s.barrier bar).pend - 1, travel := r }) := by
  show execBarrierRelease bar s = _
  unfold execBarrierRelease
  dsimp only
  rw [h]
  exact congrArg _ (if_pos ht)

theorem barrierReset_free {bar : Nat} (h : s.barrierWaited bar = false) : exec (.barrierReset bar) s =
    .next (s.setBarrier bar { s.barrier bar with rg := 0, cnt := 0, pend := 0, travel := [] }) :=
  congrArg Host.Outcome.next (if_neg (by simp [h]))

end Sys2Proof.Machine
end

section
open Sys2Proof Sys2Proof.Machine

/-- Settles O50: each clause is what one event's step, or one operation a step is made of, does where the clause's conditions hold. -/
theorem engineAndTaskEvents : Obligations.EngineAndTaskEvents := by
  unfold Obligations.EngineAndTaskEvents
  intro s
  refine ⟨?begin, fun _ _ he hr hb => completeEntry_begun he hr hb, ?complete, ?finish, fun _ _ _ h => zeroingDone_head h, ?matrix,
    fun _ _ _ h hs => handleGenRaise_live h hs, ?blockEnd, ?scan, scanFrom_cons s, fun _ _ h => tryHead_empty h, ?gone, ?resume,
    retry_eq s, ?admitDue, fun _ _ _ _ h => tryAdmit_waits h, fun _ _ _ _ _ _ _ _ _ _ hf hp ht hr => tryAdmit_admits hf hp ht hr,
    startBlock_spec s, fun _ h => ⟨preempt_chooses h, fun _ ht => preempt_stashes h ht⟩, fun _ _ _ _ _ _ h => mem_victims h,
    fun _ h => choosePreempt_empty h, fun _ _ _ _ _ ht hlt hp => prioRaise_resident ht hlt hp, ?raise,
    fun _ _ _ hst hd hlo hhi hw => timeUpdate_narrows hst hd hlo hhi hw, fun _ hst ht => holdover_due hst ht, ?arrival,
    fun _ _ _ h ht => barrierRelease_due h ht, fun _ h => barrierReset_free h⟩
  case begin =>
    intro id e he h
    obtain ⟨hst, hr, hpre, hord, hq⟩ := canBegin_iff.mp h
    refine ⟨beginEntry_of_canBegin he h, hst, hr, hpre, fun x hx hxq hn hi hmat hm => ?_, fun x hx hp => hq _ hp x hx rfl,
      fun m hf => beginStep_mat hf⟩
    refine Option.ne_none_iff_isSome.mp fun hnone => ?_
    obtain ⟨h1, -⟩ := hord x hx (before_of_queue hxq hn hi hm) hnone
    exact Bool.false_ne_true (hmat.symm.trans h1)
  case complete =>
    rintro id e c n he hr hb hv hfar hw ⟨f, r, d, x, hf⟩
    rw [completeEntry_begun he hr hb, completeStep_copy hf hfar hv hw]
  case finish =>
    intro e c n t
    exact ⟨finish_phys s e c n, fun y hy => (finish_queue s e c n y).trans (queue_mod _ _ _ _ hy),
      fun h => (finish_queue s e c n _).trans (queue_modQueue_self _ h), finish_entries s e c n,
      fun k b hb hid => finish_block hid e c n hb, fun b w hb hid hw hp hu => finish_warp hid c n hb hw hp hu⟩
  case matrix =>
    intro id addr aux e m t he hf hr hb ht hm
    exact ⟨matrixOpfault_kills he hf hr hb ht hm, matrixOpfault_restarts he hf hr hb ht hm⟩
  case blockEnd =>
    intro blk b hb hrun hq ht hm
    exact blockEnd_over hb (over_of_exited hrun hq ht) hm
  case scan =>
    intro die h s1
    exact ⟨fun hr hf => hamperScan_scans h hr hf, hamperScan_full h⟩
  case gone =>
    intro die p q l h hr hs
    rw [tryHead_resume h hr, tryResume_gone hs]
  case resume =>
    intro die p q l sv h hr hs hp fit
    rw [tryHead_resume h hr]
    exact ⟨fun cl cores hf => tryResume_fits hs hp hf, fun hf => tryResume_waits hs hp hf⟩
  case admitDue =>
    intro die p q l hd hw hp hq hu hst hr hl
    exact admitDue_head hd hw hp hq hu hst hr hl
  case raise =>
    intro launch group prio hp t
    exact ⟨raiseGroup_teams, rfl, raiseGroup_dies⟩
  case arrival =>
    intro id a bar dest ha hk hs hf x
    refine ⟨fun hn => ?_, fun hn hp => ?_⟩
    · rw [arrival_accepted ha hk hs hf fun h => absurd h hn, acceptArrival_counts hn]
    · rw [arrival_accepted ha hk hs hf fun _ => hp, acceptArrival_completes hn]

end

section
/-!
PROOFS. Numbers: the exact values behind the operations (R53, R54, R58), and the order of values (R188).
-/
namespace Sys2Proof.Machine

-- A word's body says what it writes.

theorem seqWrites_of_seqV {s : State} {i : Instr} {c : Ctl} {d : SReg} {f : SEnv → Word64} (hx : exec i s = seqV i c d f s) :
    SeqWrites s i c d f :=
  seqDoes_of_body hx fun _ => rfl

theorem warpWrites_of_fixedV {s : State} {i : Instr} {c : Ctl} {lat : Nat} {d : Operand} {f : WEnv → Nat × Nat → Word32}
    (hx : exec i s = fixedV i c lat d f s) : WarpWrites s i c lat d f :=
  warpDoes_of_body hx fun _ => rfl

-- Exact values.

/-- Bringing a finite value to a lower exponent keeps its value. -/
theorem signedAt_mul_zpow (s : Bool) (m : Nat) {e q : Int} (h : q ≤ e) :
    (signedAt s m e q : ℚ) * 2 ^ q = (FV.fin s m e).val := by
  have hm : ((m * 2 ^ (e - q).toNat : Nat) : ℚ) * 2 ^ q = m * 2 ^ e := by
    push_cast
    rw [mul_assoc, ← zpow_natCast, ← zpow_add₀ two_ne_zero, Int.toNat_of_nonneg (sub_nonneg.mpr h), sub_add_cancel]
  cases s
  · simpa [signedAt, FV.val] using hm
  · simpa [signedAt, FV.val] using hm

/-- A whole number of `2^q` as a finite value. -/
theorem val_ofSigned (v q : Int) : (FV.fin (decide (v < 0)) v.natAbs q).val = v * 2 ^ q := by
  rw [← signedAt_mul_zpow _ _ le_rfl]
  congr 2
  by_cases h : v < 0
  · simp only [signedAt, h, decide_true, sub_self, Int.toNat_zero, if_true]; omega
  · simp only [signedAt, h, decide_false, sub_self, Int.toNat_zero, Bool.false_eq_true, if_false]; omega

theorem val_neg (x : FV) : x.neg.val = -x.val := by
  cases x with
  | nan => exact neg_zero.symm
  | inf s => exact neg_zero.symm
  | fin s m e => cases s <;> simp [FV.neg, FV.val]

theorem val_mul_fin (s t : Bool) (m n : Nat) (e g : Int) :
    (FV.fin (s != t) (m * n) (e + g)).val = (FV.fin s m e).val * (FV.fin t n g).val := by
  have h : (m : ℚ) * n * 2 ^ (e + g) = (m * 2 ^ e) * (n * 2 ^ g) := by
    rw [zpow_add₀ two_ne_zero]; ring
  cases s <;> cases t <;> simp [FV.val, h]

theorem val_fin_eq_zero {s : Bool} {m : Nat} {e : Int} : (FV.fin s m e).val = 0 ↔ m = 0 := by
  have h2 : (2 : ℚ) ^ e ≠ 0 := zpow_ne_zero _ two_ne_zero
  cases s <;> simp [FV.val, h2]

/-- The sign of a value that is not zero. -/
theorem val_fin_neg_iff {s : Bool} {m : Nat} {e : Int} (hm : m ≠ 0) : (FV.fin s m e).val < 0 ↔ s = true := by
  have h : 0 < (m : ℚ) * 2 ^ e := by positivity
  cases s
  · simpa [FV.val] using h.le
  · simpa [FV.val] using h

-- The order of values.

theorem compare_mul_zpow (a b q : Int) : compare a b = compare ((a : ℚ) * 2 ^ q) ((b : ℚ) * 2 ^ q) := by
  have h : (0 : ℚ) < 2 ^ q := by positivity
  rcases lt_trichotomy a b with hab | rfl | hab
  · rw [compare_lt_iff_lt.mpr hab, compare_lt_iff_lt.mpr (mul_lt_mul_of_pos_right (Int.cast_lt.mpr hab) h)]
  · rw [compare_eq_iff_eq.mpr rfl, compare_eq_iff_eq.mpr rfl]
  · rw [compare_gt_iff_gt.mpr hab, compare_gt_iff_gt.mpr (mul_lt_mul_of_pos_right (Int.cast_lt.mpr hab) h)]

/-- Two finite values compare as the numbers they stand for; among equal ones `zeros` puts -0 first. -/
theorem cmp_fin (zeros s t : Bool) (m n : Nat) (e g : Int) : FV.cmp zeros (.fin s m e) (.fin t n g) =
    if (FV.fin s m e).val = (FV.fin t n g).val ∧ zeros = true ∧ s ≠ t then (if s then .lt else .gt)
    else compare (FV.fin s m e).val (FV.fin t n g).val := by
  have h : compare (signedAt s m e (min e g)) (signedAt t n g (min e g)) =
      compare (FV.fin s m e).val (FV.fin t n g).val := by
    rw [compare_mul_zpow _ _ (min e g), signedAt_mul_zpow _ _ (min_le_left e g), signedAt_mul_zpow _ _ (min_le_right e g)]
  simp only [FV.cmp, h, compare_eq_iff_eq]

end Sys2Proof.Machine
end


section
open Sys2Proof Sys2Proof.Machine

/-- Settles O15: each word's body is its write, the shared operations (division, shifts, the upper half of a product) unfolded. -/
theorem sequencerResults : Obligations.SequencerResults := by
  unfold Obligations.SequencerResults
  intro s c uns rel tt d q p r m v a b
  exact ⟨seqWrites_of_seqV rfl, seqWrites_of_seqV rfl, seqWrites_of_seqV rfl, seqWrites_of_seqV rfl, seqWrites_of_seqV rfl,
    seqWrites_of_seqV rfl, seqWrites_of_seqV rfl, seqWrites_of_seqV rfl, seqWrites_of_seqV rfl, seqWrites_of_seqV rfl,
    seqWrites_of_seqV rfl, seqWrites_of_seqV rfl, seqWrites_of_seqV rfl, seqWrites_of_seqV rfl, seqWrites_of_seqV rfl,
    seqWrites_of_seqV rfl, seqWrites_of_seqV rfl, seqWrites_of_seqV rfl, seqDoes_of_body rfl fun _ => rfl,
    seqDoes_of_body rfl fun _ => rfl⟩

end

section
/-!
PROOFS. The relations of integers and of binary32 (R188, R54).
-/
namespace Sys2Proof.Machine

/-- What each relation says of an order. -/
theorem relHolds_iff (o : Ordering) : relHolds .lt o = decide (o = .lt) ∧ relHolds .eq o = decide (o = .eq) ∧
    relHolds .gt o = decide (o = .gt) ∧ relHolds .le o = !relHolds .gt o ∧ relHolds .ne o = !relHolds .eq o ∧
    relHolds .ge o = !relHolds .lt o := by
  cases o <;> decide

theorem relHolds_swap (o : Ordering) : relHolds .gt o = relHolds .lt o.swap := by
  cases o <;> rfl

/-- Swapping the operands of an integer comparison swaps its outcome. -/
theorem relInt_swap {w : Nat} (uns : Bool) (a b : BitVec w) : relInt .gt uns a b = relInt .lt uns b a := by
  cases uns
  · rw [relInt, relInt, relHolds_swap]; exact congrArg _ (Int.compare_swap _ _)
  · rw [relInt, relInt, relHolds_swap]; exact congrArg _ (Nat.compare_swap _ _)

theorem relInt_eq {w : Nat} (uns : Bool) (a b : BitVec w) : relInt .eq uns a b = decide (a = b) := by
  rw [relInt, (relHolds_iff _).2.1]
  cases uns
  · simp [BitVec.toInt_inj]
  · simp [BitVec.toNat_inj]

theorem isNan_iff {x : FV} : x.isNan = true ↔ x = .nan := by
  cases x <;> simp [FV.isNan]

/-- A value that is neither NaN nor an infinity is finite. -/
theorem exists_fin_of_ne {x : FV} (hn : x ≠ .nan) (hi : ∀ s, x ≠ .inf s) : ∃ s m e, x = .fin s m e := by
  cases x with
  | nan => exact absurd rfl hn
  | inf s => exact absurd rfl (hi s)
  | fin s m e => exact ⟨s, m, e, rfl⟩

theorem relF32_unordered (r : Rel) {a b : Word32} (h : f32.dec a.toNat = .nan ∨ f32.dec b.toNat = .nan) :
    relF32 r a b = decide (r = .ne) := by
  have hn : ((f32.dec a.toNat).isNan || (f32.dec b.toNat).isNan) = true := by simpa [isNan_iff] using h
  rw [relF32, if_pos hn]
  cases r <;> rfl

theorem relF32_ordered (r : Rel) {a b : Word32} (ha : f32.dec a.toNat ≠ .nan) (hb : f32.dec b.toNat ≠ .nan) :
    relF32 r a b = relHolds r (FV.cmp false (f32.dec a.toNat) (f32.dec b.toNat)) := by
  have hn : ¬((f32.dec a.toNat).isNan || (f32.dec b.toNat).isNan) = true := by simp [isNan_iff, ha, hb]
  rw [relF32, if_neg hn]

/-- The six relations of an ordered pair, from what its comparison answers. -/
theorem relF32_of_cmp {a b : Word32} (ha : f32.dec a.toNat ≠ .nan) (hb : f32.dec b.toNat ≠ .nan) {lt eq gt : Prop}
    [Decidable lt] [Decidable eq] [Decidable gt] (hlt : FV.cmp false (f32.dec a.toNat) (f32.dec b.toNat) = .lt ↔ lt)
    (heq : FV.cmp false (f32.dec a.toNat) (f32.dec b.toNat) = .eq ↔ eq)
    (hgt : FV.cmp false (f32.dec a.toNat) (f32.dec b.toNat) = .gt ↔ gt) :
    relF32 .lt a b = decide lt ∧ relF32 .eq a b = decide eq ∧ relF32 .gt a b = decide gt ∧
      relF32 .le a b = !decide gt ∧ relF32 .ne a b = !decide eq ∧ relF32 .ge a b = !decide lt := by
  simp only [relF32_ordered _ ha hb]
  obtain ⟨h1, h2, h3, h4, h5, h6⟩ := relHolds_iff (FV.cmp false (f32.dec a.toNat) (f32.dec b.toNat))
  simp only [h4, h5, h6, h1, h2, h3, hlt, heq, hgt, and_self]

/-- An operand that is the greatest or equal to the other. -/
theorem relF32_of_most {a b : Word32} (ha : f32.dec a.toNat ≠ .nan) (hb : f32.dec b.toNat ≠ .nan) {eq : Prop} [Decidable eq]
    (h : FV.cmp false (f32.dec a.toNat) (f32.dec b.toNat) = if eq then .eq else .gt) :
    relF32 .lt a b = decide False ∧ relF32 .eq a b = decide eq ∧ relF32 .gt a b = decide ¬eq ∧
      relF32 .le a b = !decide ¬eq ∧ relF32 .ne a b = !decide eq ∧ relF32 .ge a b = !decide False := by
  refine relF32_of_cmp ha hb ?_ ?_ ?_
  · rw [h]; split <;> simp
  · rw [h]; split <;> simp [*]
  · rw [h]; split <;> simp [*]

/-- An operand that is the least or equal to the other. -/
theorem relF32_of_least {a b : Word32} (ha : f32.dec a.toNat ≠ .nan) (hb : f32.dec b.toNat ≠ .nan) {eq : Prop} [Decidable eq]
    (h : FV.cmp false (f32.dec a.toNat) (f32.dec b.toNat) = if eq then .eq else .lt) :
    relF32 .lt a b = decide (¬eq) ∧ relF32 .eq a b = decide eq ∧ relF32 .gt a b = decide False ∧
      relF32 .le a b = !decide False ∧ relF32 .ne a b = !decide eq ∧ relF32 .ge a b = !decide ¬eq := by
  refine relF32_of_cmp ha hb ?_ ?_ ?_
  · rw [h]; split <;> simp [*]
  · rw [h]; split <;> simp [*]
  · rw [h]; split <;> simp

/-- Without the rule for zeros, finite values compare as their numbers. -/
theorem cmp_false_fin (s t : Bool) (m n : Nat) (e g : Int) :
    FV.cmp false (.fin s m e) (.fin t n g) = compare (FV.fin s m e).val (FV.fin t n g).val := by
  rw [cmp_fin, if_neg (by simp)]

/-- An infinity lies beyond every other value on its side. -/
theorem cmp_posInf_left (z : Bool) (y : FV) (h : y ≠ .nan) : FV.cmp z (.inf false) y = if y = .inf false then .eq else .gt := by
  cases y with
  | nan => exact absurd rfl h
  | inf s => cases s <;> rfl
  | fin s m e => rfl

theorem cmp_negInf_left (z : Bool) (y : FV) : FV.cmp z (.inf true) y = if y = .inf true then .eq else .lt := by
  cases y with
  | nan => rfl
  | inf s => cases s <;> rfl
  | fin s m e => rfl

theorem cmp_posInf_right (z : Bool) (x : FV) (h : x ≠ .nan) : FV.cmp z x (.inf false) = if x = .inf false then .eq else .lt := by
  cases x with
  | nan => exact absurd rfl h
  | inf s => cases s <;> rfl
  | fin s m e => rfl

theorem cmp_negInf_right (z : Bool) (x : FV) : FV.cmp z x (.inf true) = if x = .inf true then .eq else .gt := by
  cases x with
  | nan => rfl
  | inf s => cases s <;> rfl
  | fin s m e => rfl

end Sys2Proof.Machine
end

section
open Sys2Proof Sys2Proof.Machine

/-- Settles O9: every relation is read off the comparison, which orders finite values by what they stand for and puts the infinities
at the ends. -/
theorem relations : Obligations.Relations := by
  unfold Obligations.Relations
  refine ⟨fun uns a b => ?_, fun r a b h => relF32_unordered r h, ?_⟩
  · obtain ⟨h1, h2, h3, h4, h5, h6⟩ := relHolds_iff (if uns then compare a.toNat b.toNat else compare a.toInt b.toInt)
    refine ⟨relInt_eq uns a b, ?_, ?_, ?_, h4.trans (congrArg _ (relInt_swap uns a b)), relInt_swap uns a b, h6⟩
    · rw [decide_not, ← relInt_eq uns a b]
      exact h5
    · exact ((relHolds_iff _).1).trans (decide_eq_decide.mpr compare_lt_iff_lt)
    · exact ((relHolds_iff _).1).trans (decide_eq_decide.mpr compare_lt_iff_lt)
  · intro a b ha hb
    refine ⟨fun hx hy => ?_, fun hx => relF32_of_most ha hb ?_, fun hx => relF32_of_least ha hb ?_,
      fun hy => relF32_of_least ha hb ?_, fun hy => relF32_of_most ha hb ?_⟩
    · obtain ⟨s, m, e, h⟩ := exists_fin_of_ne ha hx
      obtain ⟨t, n, g, h'⟩ := exists_fin_of_ne hb hy
      have hc := cmp_false_fin s t m n e g
      rw [← h, ← h'] at hc
      exact relF32_of_cmp ha hb (hc ▸ compare_lt_iff_lt) (hc ▸ compare_eq_iff_eq) (hc ▸ compare_gt_iff_gt)
    · exact (congrArg (FV.cmp false · _) hx).trans (cmp_posInf_left _ _ hb)
    · exact (congrArg (FV.cmp false · _) hx).trans (cmp_negInf_left _ _)
    · exact (congrArg (FV.cmp false _) hy).trans (cmp_posInf_right _ _ ha)
    · exact (congrArg (FV.cmp false _) hy).trans (cmp_negInf_right _ _)

end

section
/-!
PROOFS. The cases of the exact sum and product and of the encodings that NaN and infinities make (R54, R57, R179).
-/
namespace Sys2Proof.Machine

@[simp] theorem enc_nan (f : Fmt) (r : Rnd) : f.enc r .nan = f.nan := rfl

@[simp] theorem add_nan_left (r : Rnd) (y : FV) : FV.add r .nan y = .nan := rfl

@[simp] theorem add_nan_right (r : Rnd) (x : FV) : FV.add r x .nan = .nan := by
  cases x <;> rfl

@[simp] theorem add_inf_inf (r : Rnd) (s t : Bool) : FV.add r (.inf s) (.inf t) = if s = t then .inf s else .nan := rfl

@[simp] theorem add_inf_fin (r : Rnd) (s t : Bool) (n : Nat) (g : Int) : FV.add r (.inf s) (.fin t n g) = .inf s := rfl

@[simp] theorem add_fin_inf (r : Rnd) (s t : Bool) (m : Nat) (e : Int) : FV.add r (.fin s m e) (.inf t) = .inf t := rfl

@[simp] theorem mul_nan_left (y : FV) : FV.mul .nan y = .nan := rfl

@[simp] theorem mul_nan_right (x : FV) : FV.mul x .nan = .nan := by
  cases x <;> rfl

@[simp] theorem mul_inf_inf (s t : Bool) : FV.mul (.inf s) (.inf t) = .inf (s != t) := rfl

@[simp] theorem mul_inf_fin (s t : Bool) (n : Nat) (g : Int) :
    FV.mul (.inf s) (.fin t n g) = if n = 0 then .nan else .inf (s != t) := rfl

@[simp] theorem mul_fin_inf (s t : Bool) (m : Nat) (e : Int) :
    FV.mul (.fin s m e) (.inf t) = if m = 0 then .nan else .inf (s != t) := rfl

@[simp] theorem mul_fin_fin (s t : Bool) (m n : Nat) (e g : Int) :
    FV.mul (.fin s m e) (.fin t n g) = .fin (s != t) (m * n) (e + g) := rfl

@[simp] theorem neg_nan : FV.neg .nan = .nan := rfl

@[simp] theorem neg_inf (s : Bool) : FV.neg (.inf s) = .inf !s := rfl

@[simp] theorem neg_fin (s : Bool) (m : Nat) (e : Int) : FV.neg (.fin s m e) = .fin (!s) m e := rfl

@[simp] theorem abs_nan : FV.abs .nan = .nan := rfl

/-- Minimum and maximum of a NaN and anything are NaN. -/
theorem min_max_nan {x y : FV} (h : x = .nan ∨ y = .nan) : FV.min x y = .nan ∧ FV.max x y = .nan := by
  have hn : (x.isNan || y.isNan) = true := by simpa [isNan_iff] using h
  exact ⟨if_pos hn, if_pos hn⟩

-- The operations on codes.

section
variable (f : Fmt) (r : Rnd) (a b d : Nat)

theorem fmt_add : f.add r a b = f.enc r (FV.add r (f.dec a) (f.dec b)) := rfl

theorem fmt_sub : f.sub r a b = f.enc r (FV.add r (f.dec a) (f.dec b).neg) := rfl

theorem fmt_mul : f.mul r a b = f.enc r (FV.mul (f.dec a) (f.dec b)) := rfl

theorem fmt_fma : f.fma r a b d = f.enc r (FV.add r (FV.mul (f.dec a) (f.dec b)) (f.dec d)) := rfl

theorem fmt_minC : f.minC a b = f.enc .rne (FV.min (f.dec a) (f.dec b)) := rfl

theorem fmt_maxC : f.maxC a b = f.enc .rne (FV.max (f.dec a) (f.dec b)) := rfl

/-- A NaN operand makes every result NaN (R54). -/
theorem results_nan {f : Fmt} {a b : Nat} (h : f.dec a = .nan ∨ f.dec b = .nan) :
    f.add r a b = f.nan ∧ f.sub r a b = f.nan ∧ f.mul r a b = f.nan ∧ f.fma r a b d = f.nan ∧ f.minC a b = f.nan ∧
      f.maxC a b = f.nan := by
  obtain ⟨hmin, hmax⟩ := min_max_nan h
  rw [fmt_minC, fmt_maxC, hmin, hmax]
  rcases h with h | h
  · simp [fmt_add, fmt_sub, fmt_mul, fmt_fma, h]
  · simp [fmt_add, fmt_sub, fmt_mul, fmt_fma, h]

/-- The product of an infinity and a value that is neither zero nor NaN, on either side. -/
theorem mul_inf_of_nonzero {s t : Bool} {y : FV} (h : y = .inf t ∨ ∃ m e, 0 < m ∧ y = .fin t m e) :
    FV.mul (.inf s) y = .inf (s != t) ∧ FV.mul y (.inf s) = .inf (s != t) := by
  rcases h with rfl | ⟨m, e, hm, rfl⟩
  · simp [Bool.xor_comm]
  · simp [hm.ne', Bool.xor_comm]

end

-- Conversion to an integer.

/-- A value whose exponent is not negative is the integer it is. -/
theorem roundAt_integral (r : Rnd) (s : Bool) (m : Nat) {e : Int} (he : 0 ≤ e) : roundAt r s m e 0 = m * 2 ^ e.toNat := by
  rw [roundAt, roundFrom, if_pos he, sub_zero]

/-- A value at or beyond the end of the range gives that end (R57). -/
theorem toInt_above {r : Rnd} {lo hi : Int} {m : Nat} {e : Int} (hlo : lo ≤ hi) (h : hi ≤ roundAt r false m e 0) :
    FV.toInt r lo hi (.fin false m e) = hi := by
  simp only [FV.toInt, Bool.false_eq_true, if_false, min_eq_left h, max_eq_right hlo]

theorem toInt_below {r : Rnd} {lo hi : Int} {m : Nat} {e : Int} (h : -(roundAt r true m e 0 : Int) ≤ lo) :
    FV.toInt r lo hi (.fin true m e) = lo := by
  simp only [FV.toInt, if_true]
  exact max_eq_left ((min_le_right _ _).trans h)

theorem cvt_s32 (r : Rnd) (a : Word32) :
    cvtValue .s32f32 r a = BitVec.ofInt 32 ((f32.dec a.toNat).toInt r (-(2 ^ 31)) (2 ^ 31 - 1)) := rfl

theorem cvt_u32 (r : Rnd) (a : Word32) :
    cvtValue .u32f32 r a = BitVec.ofInt 32 ((f32.dec a.toNat).toInt r 0 (2 ^ 32 - 1)) := rfl

end Sys2Proof.Machine
end


section
open Sys2Proof Sys2Proof.Machine

/-- Settles O7: the cases of the sum, of the product and of the clamp. -/
theorem nanAndRangeEdges : Obligations.NanAndRangeEdges := by
  unfold Obligations.NanAndRangeEdges
  refine ⟨fun f r a b d => ⟨results_nan r d, ?_, ?_, ?_, ?_, ?_, ?_, ?_, ?_, ?_, ?_, ?_⟩, fun r a => ⟨?_, ?_, ?_, ?_, ?_, ?_⟩⟩
  · intro h
    simp [fmt_fma, h]
  · intro s ha hb
    simp [fmt_add, ha, hb]
  · intro s ha hb
    simp [fmt_sub, ha, hb]
  · intro s t e ha hb
    simp [fmt_mul, ha, hb]
  · intro s t m e ha hb
    refine ⟨by simp [fmt_add, ha, hb], by simp [fmt_add, ha, hb], by simp [fmt_sub, ha, hb], by simp [fmt_sub, ha, hb],
      fun hm => ?_⟩
    obtain ⟨h1, h2⟩ := mul_inf_of_nonzero (s := s) (.inr ⟨m, e, hm, hb⟩)
    rw [fmt_mul, fmt_mul, ha, h1, h2]
    exact ⟨rfl, rfl⟩
  · intro s ha hb
    simp [fmt_add, ha, hb]
  · intro s t ha hb
    simp [fmt_mul, ha, hb]
  · intro h
    simp [h]
  · intro s t e ha hb
    simp [fmt_fma, ha, hb]
  · intro s t ha hb
    obtain ⟨h1, h2⟩ := mul_inf_of_nonzero (s := s) hb
    refine ⟨fun u hd => ?_, fun u k g hd => ?_⟩
    · rw [fmt_fma, fmt_fma, ha, hd, h1, h2, add_inf_inf]
      by_cases hu : u = (s != t)
      · simp [hu]
      · simp [hu, Ne.symm hu]
    · rw [fmt_fma, fmt_fma, ha, hd, h1, h2, add_inf_fin]
      exact ⟨rfl, rfl⟩
  · intro s m e t n g u ha hb hd
    simp [fmt_fma, ha, hb, hd]
  · intro h
    rw [cvt_s32, cvt_u32, h]
    exact ⟨rfl, rfl⟩
  · intro h
    rw [cvt_s32, cvt_u32, h]
    exact ⟨rfl, rfl⟩
  · intro h
    rw [cvt_s32, cvt_u32, h]
    exact ⟨rfl, rfl⟩
  · intro m e h hbig he
    have hr : (2 : Int) ^ 32 ≤ roundAt r false m e 0 := by rw [roundAt_integral _ _ _ he]; exact_mod_cast hbig
    rw [cvt_s32, cvt_u32, h, toInt_above (by norm_num) (by omega), toInt_above (by norm_num) (by omega)]
    exact ⟨rfl, rfl⟩
  · intro m e h
    rw [cvt_u32, h, toInt_below (by omega)]
    rfl
  · intro m e h hbig he
    have hr : (2 : Int) ^ 32 ≤ roundAt r true m e 0 := by rw [roundAt_integral _ _ _ he]; exact_mod_cast hbig
    rw [cvt_s32, h, toInt_below (by omega)]
    rfl

end

section
/-!
PROOFS. Codes and their values: what a code stands for, that codes ascend with their values, and that encoding rounds once (R50, R53, R58).
-/
namespace Sys2Proof.Machine

-- The significand and the exponent of a magnitude code.

/-- The significand of a magnitude code, its hidden bit in place. -/
def codeSig (p k : Nat) : Nat := if k / 2 ^ (p - 1) = 0 then k % 2 ^ (p - 1) else k % 2 ^ (p - 1) + 2 ^ (p - 1)

/-- The exponent of the last place of a magnitude code. -/
def codeExp (p : Nat) (qmin : Int) (k : Nat) : Int := qmin + (k / 2 ^ (p - 1) - 1 : Nat)

theorem codeVal_eq (p : Nat) (qmin : Int) (k : Nat) : codeVal p qmin k = codeSig p k * 2 ^ codeExp p qmin k := by
  unfold codeVal codeSig codeExp
  split
  · rename_i h
    simp [h, Nat.mod_eq_of_lt ((Nat.div_eq_zero_iff_lt (by positivity)).mp h)]
  · rename_i h
    generalize k / 2 ^ (p - 1) = x at h
    congr 2
    omega

/-- A code is so many binades above the lowest one, and a significand. -/
theorem code_split (p k : Nat) : ∃ t j, k = t * 2 ^ (p - 1) + j ∧ j < 2 * 2 ^ (p - 1) ∧ (t = 0 ∨ 2 ^ (p - 1) ≤ j) ∧
    codeSig p k = j ∧ ∀ qmin, codeExp p qmin k = qmin + t := by
  have hP : 0 < 2 ^ (p - 1) := by positivity
  have hk := Nat.div_add_mod' k (2 ^ (p - 1))
  have hr := Nat.mod_lt k hP
  unfold codeSig codeExp
  cases ht : k / 2 ^ (p - 1) with
  | zero =>
    rw [ht, Nat.zero_mul, Nat.zero_add] at hk
    exact ⟨0, k, by simp, by omega, .inl rfl, by simp [hk], fun _ => rfl⟩
  | succ t =>
    rw [ht, Nat.succ_mul] at hk
    exact ⟨t, k % 2 ^ (p - 1) + 2 ^ (p - 1), by omega, by omega, .inr (by omega), by simp, fun _ => rfl⟩

/-- The value of a significand in a binade, up to the first code of the next one. -/
theorem codeVal_binade {p : Nat} (qmin : Int) {t j : Nat} (hj : j ≤ 2 * 2 ^ (p - 1)) (ht : t = 0 ∨ 2 ^ (p - 1) ≤ j) :
    codeVal p qmin (t * 2 ^ (p - 1) + j) = j * 2 ^ (qmin + t) := by
  have hP : 0 < 2 ^ (p - 1) := by positivity
  unfold codeVal
  rcases Nat.lt_or_ge j (2 ^ (p - 1)) with hlo | hlo
  · obtain rfl : t = 0 := by omega
    simp [Nat.div_eq_of_lt hlo]
  · obtain ⟨i, rfl⟩ := Nat.exists_eq_add_of_le hlo
    have hassoc : t * 2 ^ (p - 1) + (2 ^ (p - 1) + i) = i + (t + 1) * 2 ^ (p - 1) := by ring
    rw [hassoc, Nat.add_mul_div_right _ _ hP, Nat.add_mul_mod_self_right]
    rcases Nat.lt_or_ge i (2 ^ (p - 1)) with hi | hi
    · rw [Nat.div_eq_of_lt hi, Nat.mod_eq_of_lt hi, if_neg (by omega)]
      congr 2
      · omega
      · push_cast; ring
    · obtain rfl : i = 2 ^ (p - 1) := by omega
      rw [Nat.div_self hP, Nat.mod_self, if_neg (by omega)]
      push_cast
      rw [show qmin + (1 + ((t : Int) + 1)) - 1 = qmin + t + 1 by ring, zpow_add_one₀ two_ne_zero]
      ring

/-- The next code stands one last place above. -/
theorem codeVal_succ (p : Nat) (qmin : Int) (k : Nat) :
    codeVal p qmin (k + 1) = codeVal p qmin k + 2 ^ codeExp p qmin k := by
  obtain ⟨t, j, hk, hj, ht, -, he⟩ := code_split p k
  rw [he, hk, Nat.add_assoc, codeVal_binade qmin (by omega) (by omega), codeVal_binade qmin (by omega) ht]
  push_cast
  ring

theorem codeVal_strictMono (p : Nat) (qmin : Int) : StrictMono (codeVal p qmin) :=
  strictMono_nat_of_lt_succ fun k => by
    rw [codeVal_succ]
    exact lt_add_of_pos_right _ (by positivity)

@[simp] theorem codeVal_zero (p : Nat) (qmin : Int) : codeVal p qmin 0 = 0 := by simp [codeVal]

theorem codeVal_nonneg (p : Nat) (qmin : Int) (k : Nat) : 0 ≤ codeVal p qmin k := by
  rw [← codeVal_zero p qmin]
  exact (codeVal_strictMono p qmin).monotone (Nat.zero_le k)

-- Rounding a magnitude to a whole number of last places.

/-- Whether a part `d` of a last place `g`, left over above the even or odd code `k`, raises it (R58). -/
def Raises (r : Rnd) (neg : Bool) (k : Nat) (g d : ℚ) : Prop :=
  match r with
  | .rne => g < 2 * d ∨ 2 * d = g ∧ k % 2 = 1
  | .rtz => False
  | .rup => neg = false ∧ 0 < d
  | .rdn => neg = true ∧ 0 < d

theorem not_raises_zero (r : Rnd) (neg : Bool) (k : Nat) {g : ℚ} (hg : 0 < g) : ¬Raises r neg k g 0 := by
  cases r with
  | rne => simp [Raises, hg.le, hg.ne]
  | rtz => simp [Raises]
  | rup => simp [Raises]
  | rdn => simp [Raises]

theorem roundsUp_iff (r : Rnd) (neg : Bool) (n x k : Nat) (e : Int) :
    roundsUp r neg n x k = true ↔ Raises r neg n (2 ^ (e + k)) (x * 2 ^ e) := by
  have he : (0 : ℚ) < 2 ^ e := by positivity
  have hlt : (2 : ℚ) ^ (e + k) < 2 * (x * 2 ^ e) ↔ 2 ^ k < 2 * x := by
    rw [zpow_add₀ two_ne_zero, zpow_natCast, mul_comm, ← mul_assoc, mul_lt_mul_iff_left₀ he]
    exact_mod_cast Iff.rfl
  have heq : 2 * (x * 2 ^ e) = (2 : ℚ) ^ (e + k) ↔ 2 * x = 2 ^ k := by
    rw [zpow_add₀ two_ne_zero, zpow_natCast, mul_comm ((2 : ℚ) ^ e), ← mul_assoc, mul_left_inj' he.ne']
    exact_mod_cast Iff.rfl
  have hpos : (0 : ℚ) < x * 2 ^ e ↔ x ≠ 0 := by rw [mul_pos_iff_of_pos_right he, Nat.cast_pos, Nat.pos_iff_ne_zero]
  cases r with
  | rne => simp only [roundsUp, Raises, hlt, heq, Bool.or_eq_true, decide_eq_true_eq, Bool.and_eq_true, beq_iff_eq]
  | rtz => simp [roundsUp, Raises]
  | rup => simp [roundsUp, Raises, hpos]
  | rdn => simp [roundsUp, Raises, hpos]

/-- What is left of the magnitude `m * 2^e` once it is cut at a last place of `2^q`. -/
def cutPart (m : Nat) (e q : Int) : ℚ := if q ≤ e then 0 else ((m % 2 ^ (q - e).toNat : Nat) : ℚ) * 2 ^ e

/-- Cutting a magnitude leaves a whole number and a part; the part decides whether the number is raised. -/
theorem roundFrom_split (m : Nat) (e q : Int) : ∃ n : Nat, (m : ℚ) * 2 ^ e = n * 2 ^ q + cutPart m e q ∧
    0 ≤ cutPart m e q ∧ cutPart m e q < 2 ^ q ∧
    ∀ base r s, (Raises r s (base + n) (2 ^ q) (cutPart m e q) → roundFrom base r s m e q = n + 1) ∧
      (¬Raises r s (base + n) (2 ^ q) (cutPart m e q) → roundFrom base r s m e q = n) := by
  have he : (0 : ℚ) < 2 ^ e := by positivity
  by_cases hq : q ≤ e
  · rw [cutPart, if_pos hq]
    refine ⟨m * 2 ^ (e - q).toNat, ?_, le_rfl, by positivity, fun base r s => ⟨fun h => ?_, fun _ => if_pos hq⟩⟩
    · push_cast
      rw [mul_assoc, ← zpow_natCast, ← zpow_add₀ two_ne_zero, Int.toNat_of_nonneg (sub_nonneg.mpr hq), sub_add_cancel, add_zero]
    · exact absurd h (not_raises_zero r s _ (by positivity))
  · have hgo base r s : roundFrom base r s m e q =
        if roundsUp r s (base + m / 2 ^ (q - e).toNat) (m % 2 ^ (q - e).toNat) (q - e).toNat then m / 2 ^ (q - e).toNat + 1
        else m / 2 ^ (q - e).toNat := if_neg hq
    have hk : q = e + ((q - e).toNat : Int) := by omega
    rw [cutPart, if_neg hq]
    generalize (q - e).toNat = k at hk hgo
    subst hk
    have hval : (m : ℚ) * 2 ^ e = (m / 2 ^ k : Nat) * 2 ^ (e + k) + (m % 2 ^ k : Nat) * 2 ^ e := by
      have hm : (m : ℚ) = (m / 2 ^ k : Nat) * 2 ^ k + (m % 2 ^ k : Nat) := by exact_mod_cast (Nat.div_add_mod' m (2 ^ k)).symm
      rw [zpow_add₀ two_ne_zero, zpow_natCast]
      linear_combination (2 : ℚ) ^ e * hm
    have hlt : ((m % 2 ^ k : Nat) : ℚ) * 2 ^ e < 2 ^ (e + k) := by
      rw [zpow_add₀ two_ne_zero, zpow_natCast, mul_comm]
      exact mul_lt_mul_of_pos_left (by exact_mod_cast Nat.mod_lt m (by positivity)) he
    refine ⟨m / 2 ^ k, hval, by positivity, hlt, fun base r s => ?_⟩
    rw [hgo, ← roundsUp_iff]
    exact ⟨fun h => if_pos h, fun h => if_neg h⟩

/-- The code below a value, or the next one where the part left over raises it, is what the value rounds to. -/
theorem roundsTo_of_split {p : Nat} {qmin : Int} {r : Rnd} {s : Bool} {x d : ℚ} {k : Nat}
    (hx : x = codeVal p qmin k + d) (h0 : 0 ≤ d) (hd : d < 2 ^ codeExp p qmin k) :
    (Raises r s k (2 ^ codeExp p qmin k) d → RoundsTo p qmin r s x (k + 1)) ∧
      (¬Raises r s k (2 ^ codeExp p qmin k) d → RoundsTo p qmin r s x k) := by
  have hs := codeVal_succ p qmin k
  have hnext := codeVal_strictMono p qmin (Nat.lt_succ_self (k + 1))
  have hprev (h : 0 < k) := codeVal_strictMono p qmin (Nat.sub_lt h Nat.one_pos)
  have hdown : codeVal p qmin k ≤ x ∧ x < codeVal p qmin (k + 1) := ⟨by linarith, by linarith⟩
  have hup (h : 0 < d) : x ≤ codeVal p qmin (k + 1) ∧ (0 < k + 1 → codeVal p qmin (k + 1 - 1) < x) :=
    ⟨hdown.2.le, fun _ => by rw [Nat.add_sub_cancel]; linarith⟩
  have hexact (h : ¬0 < d) : x ≤ codeVal p qmin k ∧ (0 < k → codeVal p qmin (k - 1) < x) :=
    ⟨by linarith, fun hk => by linarith [hprev hk]⟩
  cases r with
  | rne =>
    simp only [Raises, RoundsTo, Nat.add_sub_cancel, not_or, not_lt, not_and]
    refine ⟨fun h => ⟨by linarith, fun _ => by linarith, fun _ => ⟨?_, fun h2 => ?_⟩⟩,
      fun ⟨hle, htie⟩ => ⟨by linarith, fun h2 => ?_, fun hk => ⟨by linarith [hprev hk], fun _ => by linarith [hprev hk]⟩⟩⟩
    · rcases h with h | h <;> linarith
    · rcases h with h | h
      · linarith
      · omega
    · have := htie (by linarith)
      omega
  | rtz => exact ⟨fun h => h.elim, fun _ => hdown⟩
  | rup =>
    cases s with
    | false => exact ⟨fun h => hup h.2, fun h => hexact fun hd => h ⟨rfl, hd⟩⟩
    | true => exact ⟨fun h => absurd h.1 (by decide), fun _ => hdown⟩
  | rdn =>
    cases s with
    | false => exact ⟨fun h => absurd h.1 (by decide), fun _ => hdown⟩
    | true => exact ⟨fun h => hup h.2, fun h => hexact fun hd => h ⟨rfl, hd⟩⟩

/-- A magnitude lies in the binade of its leading bit. -/
theorem magnitude_binade {m : Nat} (hm : 0 < m) (e : Int) :
    (2 : ℚ) ^ ((Nat.log2 m : Int) + e) ≤ m * 2 ^ e ∧ (m : ℚ) * 2 ^ e < 2 ^ ((Nat.log2 m : Int) + e + 1) := by
  have he : (0 : ℚ) < 2 ^ e := by positivity
  rw [add_right_comm, zpow_add₀ two_ne_zero, zpow_add₀ two_ne_zero, zpow_add_one₀ two_ne_zero, zpow_natCast, ← pow_succ,
    mul_le_mul_iff_left₀ he, mul_lt_mul_iff_left₀ he]
  exact ⟨by exact_mod_cast Nat.log2_self_le hm.ne', by exact_mod_cast Nat.lt_log2_self⟩

theorem two_zpow_add_nat (q : Int) (j : Nat) : (2 : ℚ) ^ (q + j) = (2 ^ j : Nat) * 2 ^ q := by
  rw [zpow_add₀ two_ne_zero, zpow_natCast, mul_comm]
  norm_cast

/-- Cut at its quantum, a magnitude's significand fits the format, with its hidden bit above the lowest binade. -/
theorem significand_bounds {p : Nat} (hp : 1 ≤ p) {qmin e : Int} {m t n : Nat} {d : ℚ} (hm : 0 < m)
    (hq : quantum p qmin m e = qmin + t) (hx : (m : ℚ) * 2 ^ e = n * 2 ^ (qmin + t) + d) (h0 : 0 ≤ d)
    (hd : d < 2 ^ (qmin + t)) : n < 2 * 2 ^ (p - 1) ∧ (t = 0 ∨ 2 ^ (p - 1) ≤ n) := by
  have hg : (0 : ℚ) < 2 ^ (qmin + t : Int) := by positivity
  obtain ⟨hlo, hhi⟩ := magnitude_binade hm e
  unfold quantum at hq
  constructor
  · have h2 : (2 : ℚ) ^ ((Nat.log2 m : Int) + e + 1) ≤ 2 ^ (qmin + t + (p : Nat)) :=
      zpow_le_zpow_right₀ one_le_two (by omega)
    rw [two_zpow_add_nat] at h2
    rw [← pow_succ', Nat.sub_add_cancel hp]
    have h3 : (n : ℚ) * 2 ^ (qmin + t : Int) < (2 ^ p : Nat) * 2 ^ (qmin + t : Int) := by linarith
    exact_mod_cast (mul_lt_mul_iff_left₀ hg).mp h3
  · refine (Nat.eq_zero_or_pos t).imp_right fun ht => ?_
    have h2 : (2 : ℚ) ^ (qmin + t + ((p - 1 : Nat) : Int)) ≤ 2 ^ ((Nat.log2 m : Int) + e) :=
      zpow_le_zpow_right₀ one_le_two (by omega)
    rw [two_zpow_add_nat] at h2
    have h3 : ((2 ^ (p - 1) : Nat) : ℚ) * 2 ^ (qmin + t : Int) < (n + 1 : Nat) * 2 ^ (qmin + t : Int) := by
      push_cast at h2 ⊢
      linarith
    exact Nat.lt_succ_iff.mp (by exact_mod_cast (mul_lt_mul_iff_left₀ hg).mp h3)

/-- A significand cut at the quantum, above the codes of the binades below it, is the code whose value is next below the magnitude. -/
theorem floor_code {p : Nat} {qmin : Int} {t n : Nat} (hn : n < 2 * 2 ^ (p - 1)) (ht : t = 0 ∨ 2 ^ (p - 1) ≤ n) :
    codeVal p qmin (t * 2 ^ (p - 1) + n) = n * 2 ^ (qmin + t) ∧ codeExp p qmin (t * 2 ^ (p - 1) + n) = qmin + t := by
  refine ⟨codeVal_binade qmin hn.le ht, ?_⟩
  have h := codeVal_succ p qmin (t * 2 ^ (p - 1) + n)
  rw [Nat.add_assoc, codeVal_binade qmin (by omega) (by omega), codeVal_binade qmin hn.le ht] at h
  push_cast at h
  exact (zpow_right_injective₀ two_pos (by norm_num) (by linarith : (2 : ℚ) ^ (qmin + t : Int) = _)).symm

/-- A magnitude cut at its quantum: the code next below it, so many binades and a significand, and the part left over. -/
theorem quantum_split {p : Nat} (hp : 1 ≤ p) (qmin : Int) {m : Nat} (hm : 0 < m) (e : Int) : ∃ (t n : Nat) (d : ℚ),
    quantum p qmin m e = qmin + t ∧ d = cutPart m e (qmin + t) ∧ (m : ℚ) * 2 ^ e = codeVal p qmin (t * 2 ^ (p - 1) + n) + d ∧
      0 ≤ d ∧ d < 2 ^ codeExp p qmin (t * 2 ^ (p - 1) + n) ∧ codeExp p qmin (t * 2 ^ (p - 1) + n) = qmin + t ∧
      ∀ base r s, (Raises r s (base + n) (2 ^ (qmin + t)) d → roundFrom base r s m e (qmin + t) = n + 1) ∧
        (¬Raises r s (base + n) (2 ^ (qmin + t)) d → roundFrom base r s m e (qmin + t) = n) := by
  obtain ⟨t, hq⟩ := Int.le.dest (le_max_left qmin ((Nat.log2 m : Int) + e - ((p : Int) - 1)))
  obtain ⟨n, hx, h0, hd, hr⟩ := roundFrom_split m e (qmin + t)
  obtain ⟨hn, ht⟩ := significand_bounds hp hm hq.symm hx h0 hd
  obtain ⟨hval, hexp⟩ := floor_code (qmin := qmin) hn ht
  exact ⟨t, n, _, hq.symm, rfl, by rw [hval, hx], h0, by rwa [hexp], hexp, hr⟩

/-- The magnitude code of a value: the code below it, or the next one where the part left over raises it (R58). -/
theorem magCode_split {p : Nat} (hp : 1 ≤ p) (qmin : Int) (m : Nat) (e : Int) : ∃ (lo : Nat) (d : ℚ),
    (m : ℚ) * 2 ^ e = codeVal p qmin lo + d ∧ 0 ≤ d ∧ d < 2 ^ codeExp p qmin lo ∧
      ∀ r s, (Raises r s lo (2 ^ codeExp p qmin lo) d → magCode p qmin r s m e = lo + 1) ∧
        (¬Raises r s lo (2 ^ codeExp p qmin lo) d → magCode p qmin r s m e = lo) := by
  rcases Nat.eq_zero_or_pos m with rfl | hm
  · refine ⟨0, 0, by simp, le_rfl, by positivity, fun r s => ⟨fun h => ?_, fun _ => if_pos rfl⟩⟩
    exact absurd h (not_raises_zero r s _ (by positivity))
  · obtain ⟨t, n, d, hq, -, hx, h0, hd, hexp, hr⟩ := quantum_split hp qmin hm e
    refine ⟨t * 2 ^ (p - 1) + n, d, hx, h0, hd, fun r s => ?_⟩
    have hgo : magCode p qmin r s m e = t * 2 ^ (p - 1) + roundFrom (t * 2 ^ (p - 1)) r s m e (qmin + t) := by
      rw [magCode, if_neg hm.ne']
      dsimp only
      rw [hq, add_sub_cancel_left, Int.toNat_natCast]
    obtain ⟨hup, hdn⟩ := hr (t * 2 ^ (p - 1)) r s
    rw [hexp, hgo]
    exact ⟨fun h => by rw [hup h, Nat.add_assoc], fun h => by rw [hdn h]⟩

/-- The magnitude code of a value is what the value rounds to once (R53, R58). -/
theorem magCode_roundsTo {p : Nat} (hp : 1 ≤ p) (qmin : Int) (r : Rnd) (s : Bool) (m : Nat) (e : Int) :
    RoundsTo p qmin r s ((m : ℚ) * 2 ^ e) (magCode p qmin r s m e) := by
  obtain ⟨lo, d, hx, h0, hd, hgo⟩ := magCode_split hp qmin m e
  obtain ⟨hup, hdn⟩ := roundsTo_of_split (r := r) (s := s) hx h0 hd
  by_cases h : Raises r s lo (2 ^ codeExp p qmin lo) d
  · rw [(hgo r s).1 h]
    exact hup h
  · rw [(hgo r s).2 h]
    exact hdn h

/-- A magnitude that a code stands for is rounded to that code in every mode. -/
theorem magCode_of_code {p : Nat} (hp : 1 ≤ p) (qmin : Int) (r : Rnd) (s : Bool) {m k : Nat} {e : Int}
    (h : (m : ℚ) * 2 ^ e = codeVal p qmin k) : magCode p qmin r s m e = k := by
  obtain ⟨lo, d, hx, h0, hd, hgo⟩ := magCode_split hp qmin m e
  have hlo : lo ≤ k := (codeVal_strictMono p qmin).le_iff_le.mp (by linarith)
  have hhi : k < lo + 1 := (codeVal_strictMono p qmin).lt_iff_lt.mp (by rw [codeVal_succ]; linarith)
  obtain rfl : k = lo := by omega
  obtain rfl : d = 0 := by linarith
  exact (hgo r s).2 (not_raises_zero r s _ (by positivity))

-- Codes of the IEEE formats.

theorem ieee_p_pos {f : Fmt} (h : f ∈ [f32, f16, bf16]) : 1 ≤ f.p := by
  simp only [List.mem_cons, List.not_mem_nil, or_false] at h
  rcases h with rfl | rfl | rfl <;> decide

/-- A code of an IEEE format: a NaN above the infinity's magnitude, the infinity, or a sign with its significand and exponent (R53). -/
theorem dec_code {f : Fmt} {c : Nat} (hc : c < 2 * f.sgn) : f.dec c = if f.inf < c % f.sgn then .nan
    else if c % f.sgn = f.inf then .inf (decide (f.sgn ≤ c))
    else .fin (decide (f.sgn ≤ c)) (codeSig f.p (c % f.sgn)) (codeExp f.p f.qmin (c % f.sgn)) := by
  have hs : 0 < f.sgn := by omega
  have hneg : (c / f.sgn % 2 == 1) = decide (f.sgn ≤ c) := by
    rcases Nat.lt_or_ge c f.sgn with h | h
    · simp [Nat.div_eq_of_lt h, Nat.not_le.mpr h]
    · have h1 : c / f.sgn = 1 := Nat.div_eq_of_lt_le (by omega) (by omega)
      simp [h1, h]
  unfold Fmt.dec codeSig codeExp
  dsimp only
  rw [hneg]
  by_cases hnan : f.inf < c % f.sgn
  · rw [if_pos hnan, if_pos hnan]
  by_cases hinf : c % f.sgn = f.inf
  · rw [if_neg hnan, if_neg hnan, if_pos hinf, if_pos hinf]
  rw [if_neg hnan, if_neg hnan, if_neg hinf, if_neg hinf]
  generalize c % f.sgn / 2 ^ (f.p - 1) = x
  split
  · rename_i h
    simp [h]
  · congr 1
    omega

/-- Encoding a finite value, by its magnitude code. -/
theorem enc_fin (f : Fmt) (r : Rnd) (s : Bool) (m : Nat) (e : Int) : f.enc r (.fin s m e) =
    (if s then f.sgn else 0) + (if magCode f.p f.qmin r s m e < f.inf then magCode f.p f.qmin r s m e else match r with
      | .rne => f.inf
      | .rtz => f.inf - 1
      | .rup => if s then f.inf - 1 else f.inf
      | .rdn => if s then f.inf else f.inf - 1) := by
  rw [Nat.add_comm]
  unfold Fmt.enc
  dsimp only
  refine congrArg (· + _) ?_
  by_cases h : magCode f.p f.qmin r s m e < f.inf
  · exact (if_neg (Nat.not_le.mpr h)).trans (if_pos h).symm
  · exact (if_pos (Nat.not_lt.mp h)).trans (if_neg h).symm

/-- To the nearest, what lies beyond the largest value is the infinity. -/
theorem enc_nearest (f : Fmt) (s : Bool) (m : Nat) (e : Int) :
    f.enc .rne (.fin s m e) = (if s then f.sgn else 0) + min (magCode f.p f.qmin .rne s m e) f.inf := by
  refine (enc_fin f .rne s m e).trans (congrArg _ ?_)
  rcases Nat.lt_or_ge (magCode f.p f.qmin .rne s m e) f.inf with h | h
  · exact (if_pos h).trans (min_eq_left h.le).symm
  · exact (if_neg (Nat.not_lt.mpr h)).trans (min_eq_right h).symm

theorem enc_inf (f : Fmt) (r : Rnd) (s : Bool) : f.enc r (.inf s) = (if s then f.sgn else 0) + f.inf := Nat.add_comm _ _

/-- Encoding a value that a code stands for gives that code, its sign bit apart. -/
theorem enc_of_code {f : Fmt} (hp : 1 ≤ f.p) (r : Rnd) (s : Bool) {m k : Nat} {e : Int} (hk : k < f.inf)
    (h : (m : ℚ) * 2 ^ e = codeVal f.p f.qmin k) : f.enc r (.fin s m e) = (if s then f.sgn else 0) + k := by
  rw [enc_fin, magCode_of_code hp _ r s h, if_pos hk]

end Sys2Proof.Machine
end

section
/-!
PROOFS. Binary8 with its stochastic rounding (R59, R60), and the special functions that are rounded from a quotient or a root (R186).
-/
namespace Sys2Proof.Machine

-- Binary8.

/-- Encoding a value other than zero that the variant has a sign for. -/
theorem b8_enc_fin (f : B8) (r : Round8) (sat s : Bool) {m : Nat} (e : Int) (hm : 0 < m) (hs : (f.uns && s) = false) :
    f.enc r sat (.fin s m e) =
      if f.magCode r s m e ≤ f.maxFin then B8.signed s (f.magCode r s m e) else if sat then B8.signed s f.maxFin
      else match r with
        | .mode .rtz => B8.signed s f.maxFin
        | .mode .rup => if s then B8.signed s f.maxFin else if f.fin then f.nan else B8.signed s (f.maxFin + 1)
        | .mode .rdn => if s then (if f.fin then f.nan else B8.signed s (f.maxFin + 1)) else B8.signed s f.maxFin
        | _ => if f.fin then f.nan else B8.signed s (f.maxFin + 1) := by
  unfold B8.enc
  dsimp only
  rw [if_neg hm.ne', hs]
  rfl

theorem b8_signed_eq (s : Bool) (k : Nat) : B8.signed s k = if s = true ∧ k ≠ 0 then k + 128 else k := by
  unfold B8.signed
  congr 1
  simp

/-- The code of a value that is not zero, its infinity's or its largest value's included. -/
theorem b8_signed_pos (s : Bool) {k : Nat} (hk : k ≠ 0) : B8.signed s k = k + (if s then 128 else 0) := by
  cases s <;> simp [B8.signed, hk]

theorem maxFin_ne_zero (f : B8) : f.maxFin ≠ 0 := by
  unfold B8.maxFin
  split <;> decide

theorem floor_256ths (x k : Nat) (e : Int) :
    ⌊256 * ((x : ℚ) * 2 ^ e) / 2 ^ (e + k : Int)⌋ = ((x * 256 / 2 ^ k : Nat) : Int) := by
  have h : 256 * ((x : ℚ) * 2 ^ e) / 2 ^ (e + k : Int) = ((x * 256 : Nat) : Int) / ((2 ^ k : Nat) : ℚ) := by
    rw [zpow_add₀ two_ne_zero, zpow_natCast]
    push_cast
    field_simp
  rw [h, Rat.floor_intCast_div_natCast]
  exact_mod_cast rfl

/-- Stochastic rounding adds the random byte to the part left over, in 256ths of the last place (R60). -/
theorem magCode_stochastic {f : B8} (hp : 1 ≤ f.p) (s : Bool) (rng : Nat) {m : Nat} (hm : 0 < m) (e : Int) :
    ∃ (lo : Nat) (d : ℚ), (m : ℚ) * 2 ^ e = codeVal f.p f.qmin lo + d ∧ 0 ≤ d ∧ d < 2 ^ codeExp f.p f.qmin lo ∧
      f.magCode (.sr rng) s m e =
        if d = 0 then lo else if 256 ≤ ⌊256 * d / 2 ^ codeExp f.p f.qmin lo⌋ + (rng : Int) then lo + 1 else lo := by
  obtain ⟨t, n, d, hq, hcut, hx, h0, hd, hexp, hr⟩ := quantum_split hp f.qmin hm e
  have hn : roundAt .rtz s m e (f.qmin + t) = n := (hr 0 .rtz s).2 id
  refine ⟨t * 2 ^ (f.p - 1) + n, d, hx, h0, hd, ?_⟩
  rw [hexp]
  unfold B8.magCode
  dsimp only
  rw [hq, hn, add_sub_cancel_left, Int.toNat_natCast]
  by_cases hle : f.qmin + t ≤ e
  · rw [cutPart, if_pos hle] at hcut
    rw [if_pos hle, if_pos hcut]
    rfl
  · rw [cutPart, if_neg hle] at hcut
    have hk : f.qmin + t = e + ((f.qmin + t - e).toNat : Int) := by omega
    rw [if_neg hle]
    generalize (f.qmin + t - e).toNat = k at hk hcut
    rw [hk, hcut, floor_256ths]
    have hz : ((m % 2 ^ k : Nat) : ℚ) * 2 ^ e = 0 ↔ m % 2 ^ k = 0 := by
      rw [mul_eq_zero, Nat.cast_eq_zero, or_iff_left (by positivity)]
    by_cases hrem : m % 2 ^ k = 0
    · simp [hrem]
    · rw [if_neg (hz.not.mpr hrem)]
      have h256 : (256 : Int) ≤ ((m % 2 ^ k * 256 / 2 ^ k : Nat) : Int) + rng ↔ 256 ≤ m % 2 ^ k * 256 / 2 ^ k + rng := by
        exact_mod_cast Iff.rfl
      simp only [h256, bne_iff_ne, hrem, ne_eq, not_false_eq_true, Bool.and_eq_true, decide_eq_true_eq, true_and]
      split <;> rfl

/-- What binary8 makes of an infinity it has a sign for (R59). -/
theorem b8_enc_inf (f : B8) (r : Round8) (sat s : Bool) (hs : (f.uns && s) = false) : f.enc r sat (.inf s) =
    if f.fin && !sat then f.nan else (if f.fin then f.maxFin else f.maxFin + 1) + (if s then 128 else 0) := by
  unfold B8.enc
  dsimp only
  rw [hs, b8_signed_pos s (maxFin_ne_zero f), b8_signed_pos s (Nat.succ_ne_zero f.maxFin)]
  cases f.fin <;> cases sat <;> rfl

/-- An unsigned variant has no code below zero: such a value is NaN (R59). -/
theorem b8_enc_below (f : B8) (r : Round8) (sat : Bool) (hu : f.uns = true) :
    f.enc r sat (.inf true) = f.nan ∧ ∀ m e, 0 < m → f.enc r sat (.fin true m e) = f.nan := by
  refine ⟨?_, fun m e hm => ?_⟩
  · unfold B8.enc
    simp [hu]
  · unfold B8.enc
    simp [hu, hm.ne']

-- A quotient or a root with a bit for what is left over rounds as the exact value does.

/-- A code's value is a whole number of any unit no coarser than its last place. -/
theorem codeVal_multiple {p : Nat} (hp : 1 ≤ p) {qmin L : Int} {k : Nat}
    (h : k = 0 ∨ 2 ^ (L + ((p - 1 : Nat) : Int)) ≤ codeVal p qmin k) :
    ∃ t : Nat, codeVal p qmin k = t * 2 ^ L := by
  rcases h with rfl | h
  · exact ⟨0, by simp⟩
  · obtain ⟨-, j, -, hj, -, hsig, -⟩ := code_split p k
    rw [codeVal_eq, hsig] at h ⊢
    have hlt : (2 : ℚ) ^ (L + ((p - 1 : Nat) : Int)) < 2 ^ (codeExp p qmin k + (p : Int)) := by
      rw [two_zpow_add_nat (codeExp p qmin k)]
      refine h.trans_lt (mul_lt_mul_of_pos_right ?_ (by positivity))
      rw [← pow_succ', Nat.sub_add_cancel hp] at hj
      exact_mod_cast hj
    have hle := (zpow_lt_zpow_iff_right₀ (one_lt_two : (1 : ℚ) < 2)).mp hlt
    obtain ⟨i, hi⟩ := Int.le.dest (show L ≤ codeExp p qmin k by omega)
    refine ⟨j * 2 ^ i, ?_⟩
    rw [← hi, two_zpow_add_nat]
    push_cast
    ring

/-- The code after one that is not zero has at most twice its value. -/
theorem codeVal_succ_le_double (p : Nat) (qmin : Int) {k : Nat} (hk : 0 < k) : codeVal p qmin (k + 1) ≤ 2 * codeVal p qmin k := by
  have hpos : 0 < codeVal p qmin k := by
    rw [← codeVal_zero p qmin]
    exact codeVal_strictMono p qmin hk
  rw [codeVal_succ]
  rw [codeVal_eq] at hpos ⊢
  have hg : (0 : ℚ) < 2 ^ codeExp p qmin k := by positivity
  have hsig : (1 : ℚ) ≤ codeSig p k := by exact_mod_cast (pos_of_mul_pos_left hpos hg.le : (0 : ℚ) < codeSig p k)
  nlinarith

/-- Half a unit's whole number with a last bit lies within the unit's whole numbers on its two sides. -/
theorem le_of_sticky_le {q st t : Nat} {g : ℚ} (hst : st ≤ 1) (hg : 0 < g)
    (h : 2 * (((2 * q + st : Nat) : ℚ) * g) ≤ t * (4 * g)) :
    ((q + st : Nat) : ℚ) * (4 * g) ≤ t * (4 * g) := by
  have hn : ((2 * q + st : Nat) : ℚ) ≤ (2 * t : Nat) := by
    push_cast at h ⊢
    exact le_of_mul_le_mul_right (by linarith) hg
  have : q + st ≤ t := by
    have : 2 * q + st ≤ 2 * t := by exact_mod_cast hn
    omega
  exact mul_le_mul_of_nonneg_right (by exact_mod_cast this) (by positivity)

theorem le_of_le_sticky {q st t : Nat} {g : ℚ} (hst : st ≤ 1) (hg : 0 < g)
    (h : t * (4 * g) ≤ 2 * (((2 * q + st : Nat) : ℚ) * g)) :
    (t : ℚ) * (4 * g) ≤ q * (4 * g) := by
  have hn : ((2 * t : Nat) : ℚ) ≤ (2 * q + st : Nat) := by
    push_cast at h ⊢
    exact le_of_mul_le_mul_right (by linarith) hg
  have : t ≤ q := by
    have : 2 * t ≤ 2 * q + st := by exact_mod_cast hn
    omega
  exact mul_le_mul_of_nonneg_right (by exact_mod_cast this) (by positivity)

/-- The midpoints on either side of the code of `2 q + st` halves of a unit lie outside the unit's whole numbers `q` and `q + st`:
the last bit `st` stands for whatever is left over. -/
theorem midpoints_of_sticky {p : Nat} (hp : 1 ≤ p) {qmin E : Int} {s : Bool} {q st k : Nat} (hst : st ≤ 1) (hq : 2 ^ (p + 2) ≤ q)
    (h : RoundsTo p qmin .rne s (((2 * q + st : Nat) : ℚ) * 2 ^ E) k) :
    ((q + st : Nat) : ℚ) * 2 ^ (E + 2) ≤ codeVal p qmin k + codeVal p qmin (k + 1) ∧
      (0 < k → codeVal p qmin (k - 1) + codeVal p qmin k ≤ (q : ℚ) * 2 ^ (E + 2)) := by
  obtain ⟨hhi, -, hlo⟩ := h
  have hE : (0 : ℚ) < 2 ^ E := by positivity
  have hE2 : (2 : ℚ) ^ (E + 2) = 4 * 2 ^ E := by rw [zpow_add₀ two_ne_zero]; ring
  have hU : (0 : ℚ) < 2 ^ (E + 2 + ((p - 1 : Nat) : Int)) := by positivity
  have hbig : 8 * 2 ^ (E + 2 + ((p - 1 : Nat) : Int)) ≤ 2 * (((2 * q + st : Nat) : ℚ) * 2 ^ E) := by
    have h1 : ((8 * 2 ^ (p - 1) : Nat) : ℚ) ≤ q := by
      rw [show p + 2 = p - 1 + 3 by omega, pow_add, mul_comm] at hq
      exact_mod_cast hq
    have h2 := mul_le_mul_of_nonneg_right h1 hE.le
    have h3 : (0 : ℚ) ≤ st * 2 ^ E := by positivity
    rw [two_zpow_add_nat, hE2]
    push_cast at h2 ⊢
    linarith
  -- every code about here has a last place no finer than the unit
  have hnext : 4 * 2 ^ (E + 2 + ((p - 1 : Nat) : Int)) ≤ codeVal p qmin (k + 1) := by
    linarith [(codeVal_strictMono p qmin).monotone (Nat.le_succ k)]
  have hself : k = 0 ∨ 2 * 2 ^ (E + 2 + ((p - 1 : Nat) : Int)) ≤ codeVal p qmin k :=
    (Nat.eq_zero_or_pos k).imp_right fun hk => by linarith [codeVal_succ_le_double p qmin hk]
  have hprev (hk : 0 < k) : k - 1 = 0 ∨ 2 ^ (E + 2 + ((p - 1 : Nat) : Int)) ≤ codeVal p qmin (k - 1) :=
    (Nat.eq_zero_or_pos (k - 1)).imp_right fun hk1 => by
      have := codeVal_succ_le_double p qmin hk1
      rw [Nat.sub_add_cancel hk] at this
      linarith [hself.resolve_left hk.ne']
  obtain ⟨t0, h0⟩ := codeVal_multiple hp (hself.imp_right fun h => by linarith)
  constructor
  · obtain ⟨t1, h1⟩ := codeVal_multiple (k := k + 1) hp (.inr (by linarith))
    have hsum : codeVal p qmin k + codeVal p qmin (k + 1) = (t0 + t1 : Nat) * (4 * 2 ^ E) := by
      rw [h0, h1, hE2]; push_cast; ring
    rw [hsum] at hhi ⊢
    rw [hE2]
    exact le_of_sticky_le hst hE hhi
  · intro hk
    obtain ⟨t2, h2⟩ := codeVal_multiple hp (hprev hk)
    have hsum : codeVal p qmin (k - 1) + codeVal p qmin k = (t2 + t0 : Nat) * (4 * 2 ^ E) := by
      rw [h0, h2, hE2]; push_cast; ring
    have hlo := (hlo hk).1
    rw [hsum] at hlo ⊢
    rw [hE2]
    exact le_of_le_sticky hst hE hlo

-- RCP, SQRT and RSQ.

/-- A result of SFU that is such a quotient or root: its code lies between the midpoints that `q` and `q + st` allow. -/
theorem sfu_between {fn : SfuFn} {a : Word32} {s : Bool} {q st : Nat} {E : Int} (hst : st ≤ 1) (hq : 2 ^ 26 ≤ q)
    (h : sfu fn a = w32 (f32.enc .rne (.fin s (2 * q + st) E))) :
    ∃ k ≤ f32.inf, (sfu fn a).toNat = k + (if s then f32.sgn else 0) ∧
      (k < f32.inf → ((q + st : Nat) : ℚ) * 2 ^ (E + 2) ≤ codeVal 24 (-149) k + codeVal 24 (-149) (k + 1)) ∧
      (0 < k → codeVal 24 (-149) (k - 1) + codeVal 24 (-149) k ≤ q * 2 ^ (E + 2)) := by
  obtain ⟨hhi, hlo⟩ := midpoints_of_sticky (by decide) hst hq (magCode_roundsTo (p := 24) (by decide) (-149) .rne s (2 * q + st) E)
  have hmono {i j : Nat} (hij : i ≤ j) : codeVal 24 (-149) i ≤ codeVal 24 (-149) j := (codeVal_strictMono _ _).monotone hij
  have henc : f32.enc .rne (.fin s (2 * q + st) E) =
      (if s then f32.sgn else 0) + min (magCode 24 (-149) .rne s (2 * q + st) E) f32.inf := enc_nearest f32 s _ E
  generalize magCode 24 (-149) .rne s (2 * q + st) E = c at hhi hlo henc
  have hinf : f32.inf = 0x7F800000 := rfl
  have hsgn : f32.sgn = 2 ^ 31 := rfl
  refine ⟨min c f32.inf, min_le_right _ _, ?_, fun hk => ?_, fun hk => ?_⟩
  · rw [h, henc, w32, BitVec.toNat_ofNat, Nat.add_comm]
    exact Nat.mod_eq_of_lt (by split <;> omega)
  · rw [min_eq_left (by omega)]
    exact hhi
  · have hc := hlo (by omega)
    exact (add_le_add (hmono (by omega)) (hmono (min_le_left _ _))).trans hc

/-- The digit-by-digit root is the root rounded down. -/
theorem isqrtGo_spec {n : Nat} : ∀ (k : Nat) {r : Nat}, r * r ≤ n → n < (r + 2 ^ k) * (r + 2 ^ k) →
    isqrtGo k n r * isqrtGo k n r ≤ n ∧ n < (isqrtGo k n r + 1) * (isqrtGo k n r + 1)
  | 0, _, hlo, hhi => ⟨hlo, hhi⟩
  | k + 1, r, hlo, hhi => by
    rw [isqrtGo]
    split
    · rename_i h
      exact isqrtGo_spec k h (by rwa [Nat.add_assoc, ← Nat.two_mul, ← pow_succ'])
    · exact isqrtGo_spec k hlo (by omega)

theorem isqrt_spec {n : Nat} (h : n < 2 ^ 128) : isqrt n * isqrt n ≤ n ∧ n < (isqrt n + 1) * (isqrt n + 1) :=
  isqrtGo_spec 64 (Nat.zero_le _) (by simpa [← pow_two, ← pow_mul] using h)

theorem isqrt_ge {n k : Nat} (h : n < 2 ^ 128) (hk : k * k ≤ n) : k ≤ isqrt n := by
  have := (isqrt_spec h).2
  exact Nat.lt_succ_iff.mp (Nat.mul_self_lt_mul_self_iff.mp (hk.trans_lt this))

/-- A root and its last bit lie on the two sides of the exact root. -/
theorem root_sticky {n : Nat} (h : n < 2 ^ 128) : isqrt n * isqrt n ≤ n ∧
    n ≤ (isqrt n + if isqrt n * isqrt n = n then 0 else 1) * (isqrt n + if isqrt n * isqrt n = n then 0 else 1) := by
  obtain ⟨hlo, hhi⟩ := isqrt_spec h
  generalize isqrt n = r at hlo hhi
  refine ⟨hlo, ?_⟩
  split
  · rename_i hx
    rw [Nat.add_zero, hx]
  · exact hhi.le

/-- The root of a quotient and its last bit lie on the two sides of the root of the exact quotient. -/
theorem root_quotient_sticky {n m : Nat} (hm : 0 < m) (h : n / m < 2 ^ 128) :
    m * (isqrt (n / m) * isqrt (n / m)) ≤ n ∧
      n ≤ m * ((isqrt (n / m) + if (isqrt (n / m) * isqrt (n / m) == n / m && n % m == 0) = true then 0 else 1) *
        (isqrt (n / m) + if (isqrt (n / m) * isqrt (n / m) == n / m && n % m == 0) = true then 0 else 1)) := by
  obtain ⟨hlo, hhi⟩ := isqrt_spec h
  generalize isqrt (n / m) = r at hlo hhi
  refine ⟨(Nat.mul_le_mul_left m hlo).trans (Nat.mul_div_le n m), ?_⟩
  split
  · rename_i hx
    simp only [Bool.and_eq_true, beq_iff_eq] at hx
    rw [Nat.add_zero, hx.1, Nat.mul_div_cancel' (Nat.dvd_of_mod_eq_zero hx.2)]
  · exact (Nat.lt_mul_div_succ n hm).le.trans (Nat.mul_le_mul_left m hhi)

/-- The significand of a finite binary32 value has 24 bits. -/
theorem f32_sig_lt {a : Word32} {s : Bool} {m : Nat} {e : Int} (h : f32.dec a.toNat = .fin s m e) : m < 2 ^ 24 := by
  obtain ⟨-, j, -, hj, -, hsig, -⟩ := code_split f32.p (a.toNat % f32.sgn)
  rw [dec_code (f := f32) a.isLt] at h
  split at h
  · cases h
  · split at h
    · cases h
    · cases h
      rw [hsig]
      exact hj

/-- A quotient and its last bit lie on the two sides of the exact quotient. -/
theorem quotient_sticky (n : Nat) {m : Nat} (hm : 0 < m) : m * (n / m) ≤ n ∧ n ≤ m * (n / m + if n % m = 0 then 0 else 1) := by
  have hdiv := Nat.div_add_mod n m
  refine ⟨Nat.mul_div_le n m, ?_⟩
  split
  · rw [Nat.add_zero]
    omega
  · have := Nat.mod_lt n hm
    rw [Nat.mul_add, Nat.mul_one]
    omega

/-- A magnitude at an even exponent: a factor 2 goes into the significand where the exponent is odd. -/
theorem even_scaled (m : Nat) (e : Int) : ∃ h : Int,
    (m : ℚ) * 2 ^ e = ((if e % 2 != 0 then 2 * m else m : Nat) : ℚ) * (2 ^ h) ^ 2 ∧
      (if e % 2 != 0 then e - 1 else e) = 2 * h := by
  by_cases he : e % 2 = 0
  · refine ⟨e / 2, ?_, ?_⟩
    · rw [← zpow_natCast, ← zpow_mul]
      simp only [he, bne_self_eq_false, Bool.false_eq_true, if_false]
      congr 2
      omega
    · simp only [he, bne_self_eq_false, Bool.false_eq_true, if_false]
      omega
  · have hb : (e % 2 != 0) = true := by simpa using he
    refine ⟨(e - 1) / 2, ?_, ?_⟩
    · rw [← zpow_natCast, ← zpow_mul, if_pos hb, show e = (e - 1) / 2 * (2 : Nat) + 1 by omega, zpow_add_one₀ two_ne_zero]
      push_cast
      rw [show ((e - 1) / 2 * 2 + 1 - 1) / 2 * 2 = (e - 1) / 2 * 2 by omega]
      ring
    · rw [if_pos hb]
      omega

/-- RCP is 1/x rounded to the nearest (R186). -/
theorem sfu_rcp_between {a : Word32} {s : Bool} {m : Nat} {e : Int} (ha : f32.dec a.toNat = .fin s m e) (hm : 0 < m) :
    ∃ k ≤ f32.inf, (sfu .rcp a).toNat = k + (if s then f32.sgn else 0) ∧
      (k < f32.inf → 2 ≤ (m : ℚ) * 2 ^ e * (codeVal 24 (-149) k + codeVal 24 (-149) (k + 1))) ∧
      (0 < k → (m : ℚ) * 2 ^ e * (codeVal 24 (-149) (k - 1) + codeVal 24 (-149) k) ≤ 2) := by
  have hm24 := f32_sig_lt ha
  have hsfu : sfu .rcp a = w32 (f32.enc .rne (.fin s (2 * (2 ^ 80 / m) + if 2 ^ 80 % m = 0 then 0 else 1) (-80 - e - 1))) := by
    have : sfu .rcp a = w32 (f32.enc .rne (rcpFV (f32.dec a.toNat))) := rfl
    rw [this, ha, rcpFV, if_neg hm.ne']
  have hq : 2 ^ 26 ≤ 2 ^ 80 / m := by
    rw [Nat.le_div_iff_mul_le hm]
    omega
  have hunit : (2 : ℚ) ^ e * 2 ^ (-80 - e - 1 + 2) = 2 / 2 ^ 80 := by
    rw [← zpow_add₀ two_ne_zero, show e + (-80 - e - 1 + 2) = -79 by ring]
    norm_num
  have hx : (0 : ℚ) < m * 2 ^ e := by positivity
  obtain ⟨hbelow, habove⟩ := quotient_sticky (2 ^ 80) hm
  obtain ⟨k, hk, hcode, hhi, hlo⟩ := sfu_between (by split <;> omega) hq hsfu
  generalize (2 ^ 80 / m + if 2 ^ 80 % m = 0 then 0 else 1) = q' at habove hhi
  generalize 2 ^ 80 / m = q at hbelow hlo
  refine ⟨k, hk, hcode, fun h => ?_, fun h => ?_⟩
  · have h80 : (2 : ℚ) ^ 80 ≤ m * q' := by exact_mod_cast habove
    calc (2 : ℚ) = 2 ^ 80 * (2 / 2 ^ 80) := by norm_num
      _ ≤ m * q' * (2 / 2 ^ 80) := mul_le_mul_of_nonneg_right h80 (by norm_num)
      _ = m * 2 ^ e * (q' * 2 ^ (-80 - e - 1 + 2)) := by rw [← hunit]; ring
      _ ≤ _ := mul_le_mul_of_nonneg_left (hhi h) hx.le
  · have h80 : (m : ℚ) * q ≤ 2 ^ 80 := by exact_mod_cast hbelow
    calc (m : ℚ) * 2 ^ e * _ ≤ m * 2 ^ e * (q * 2 ^ (-80 - e - 1 + 2)) := mul_le_mul_of_nonneg_left (hlo h) hx.le
      _ = m * q * (2 / 2 ^ 80) := by rw [← hunit]; ring
      _ ≤ 2 ^ 80 * (2 / 2 ^ 80) := mul_le_mul_of_nonneg_right h80 (by norm_num)
      _ = 2 := by norm_num

/-- SQRT is the root rounded to the nearest (R186). -/
theorem sfu_sqrt_between {a : Word32} {m : Nat} {e : Int} (ha : f32.dec a.toNat = .fin false m e) (hm : 0 < m) :
    ∃ k ≤ f32.inf, (sfu .sqrt a).toNat = k ∧
      (k < f32.inf → 4 * ((m : ℚ) * 2 ^ e) ≤ (codeVal 24 (-149) k + codeVal 24 (-149) (k + 1)) ^ 2) ∧
      (0 < k → (codeVal 24 (-149) (k - 1) + codeVal 24 (-149) k) ^ 2 ≤ 4 * ((m : ℚ) * 2 ^ e)) := by
  have hm24 := f32_sig_lt ha
  obtain ⟨h, hx, hh⟩ := even_scaled m e
  have hsfu : sfu .sqrt a = w32 (f32.enc .rne (sqrtFV (f32.dec a.toNat))) := rfl
  rw [ha, sqrtFV, if_neg hm.ne', if_neg Bool.false_ne_true] at hsfu
  dsimp only at hsfu
  have hm1 : m ≤ (if e % 2 != 0 then 2 * m else m) ∧ (if e % 2 != 0 then 2 * m else m) ≤ 2 * m := by split <;> omega
  rw [hh, show (2 * h - 80) / 2 = h - 40 by omega] at hsfu
  generalize (if e % 2 != 0 then 2 * m else m) = m1 at hx hm1 hsfu
  obtain ⟨hbelow, habove⟩ := root_sticky (n := m1 * 2 ^ 80) (by omega)
  have hq : 2 ^ 26 ≤ isqrt (m1 * 2 ^ 80) :=
    isqrt_ge (by omega) ((by norm_num : 2 ^ 26 * 2 ^ 26 ≤ 1 * 2 ^ 80).trans (Nat.mul_le_mul_right _ (by omega)))
  have hunit : ((2 : ℚ) ^ (h - 40 - 1 + 2)) ^ 2 * 2 ^ 80 = 4 * (2 ^ h) ^ 2 := by
    rw [show h - 40 - 1 + 2 = h - 39 by ring, zpow_sub₀ two_ne_zero]
    norm_num
    ring
  have hg : (0 : ℚ) ≤ (2 ^ (h - 40 - 1 + 2)) ^ 2 := by positivity
  obtain ⟨k, hk, hcode, hhi, hlo⟩ := sfu_between (by split <;> omega) hq hsfu
  generalize (isqrt (m1 * 2 ^ 80) + if isqrt (m1 * 2 ^ 80) * isqrt (m1 * 2 ^ 80) = m1 * 2 ^ 80 then 0 else 1) = r' at habove hhi
  generalize isqrt (m1 * 2 ^ 80) = r at hbelow hlo
  rw [hx]
  refine ⟨k, hk, hcode, fun hi => ?_, fun hi => ?_⟩
  · have hr : (m1 : ℚ) * 2 ^ 80 ≤ r' * r' := by exact_mod_cast habove
    calc 4 * ((m1 : ℚ) * (2 ^ h) ^ 2) = m1 * 2 ^ 80 * (2 ^ (h - 40 - 1 + 2)) ^ 2 := by linear_combination -(m1 : ℚ) * hunit
      _ ≤ (r' : ℚ) * r' * (2 ^ (h - 40 - 1 + 2)) ^ 2 := mul_le_mul_of_nonneg_right hr hg
      _ = (r' * 2 ^ (h - 40 - 1 + 2)) ^ 2 := by ring
      _ ≤ _ := pow_le_pow_left₀ (by positivity) (hhi hi) 2
  · have hr : (r : ℚ) * r ≤ m1 * 2 ^ 80 := by exact_mod_cast hbelow
    calc _ ≤ ((r : ℚ) * 2 ^ (h - 40 - 1 + 2)) ^ 2 :=
          pow_le_pow_left₀ (add_nonneg (codeVal_nonneg _ _ _) (codeVal_nonneg _ _ _)) (hlo hi) 2
      _ = r * r * (2 ^ (h - 40 - 1 + 2)) ^ 2 := by ring
      _ ≤ m1 * 2 ^ 80 * (2 ^ (h - 40 - 1 + 2)) ^ 2 := mul_le_mul_of_nonneg_right hr hg
      _ = 4 * ((m1 : ℚ) * (2 ^ h) ^ 2) := by linear_combination (m1 : ℚ) * hunit

/-- RSQ is the reciprocal root rounded to the nearest (R186). -/
theorem sfu_rsq_between {a : Word32} {m : Nat} {e : Int} (ha : f32.dec a.toNat = .fin false m e) (hm : 0 < m) :
    ∃ k ≤ f32.inf, (sfu .rsq a).toNat = k ∧
      (k < f32.inf → 4 ≤ (m : ℚ) * 2 ^ e * (codeVal 24 (-149) k + codeVal 24 (-149) (k + 1)) ^ 2) ∧
      (0 < k → (m : ℚ) * 2 ^ e * (codeVal 24 (-149) (k - 1) + codeVal 24 (-149) k) ^ 2 ≤ 4) := by
  have hm24 := f32_sig_lt ha
  obtain ⟨h, hx, hh⟩ := even_scaled m e
  have hsfu : sfu .rsq a = w32 (f32.enc .rne (rsqFV (f32.dec a.toNat))) := rfl
  rw [ha, rsqFV, if_neg hm.ne', if_neg Bool.false_ne_true] at hsfu
  dsimp only at hsfu
  have hm1 : m ≤ (if e % 2 != 0 then 2 * m else m) ∧ (if e % 2 != 0 then 2 * m else m) ≤ 2 * m := by split <;> omega
  rw [hh, show (-110 - 2 * h) / 2 = -55 - h by omega] at hsfu
  generalize (if e % 2 != 0 then 2 * m else m) = m1 at hx hm1 hsfu
  have hn : 2 ^ 52 ≤ 2 ^ 110 / m1 := by
    rw [Nat.le_div_iff_mul_le (by omega)]
    omega
  have hn2 : 2 ^ 110 / m1 ≤ 2 ^ 110 := Nat.div_le_self _ _
  obtain ⟨hbelow, habove⟩ := root_quotient_sticky (n := 2 ^ 110) (m := m1) (by omega) (by omega)
  have hq : 2 ^ 26 ≤ isqrt (2 ^ 110 / m1) := isqrt_ge (by omega) (by omega)
  have hunit : (2 ^ h) ^ 2 * ((2 : ℚ) ^ (-55 - h - 1 + 2)) ^ 2 * 2 ^ 110 = 4 := by
    rw [← mul_pow, ← zpow_add₀ two_ne_zero, show h + (-55 - h - 1 + 2) = -54 by ring]
    norm_num
  have hg : (0 : ℚ) ≤ m1 * (2 ^ h) ^ 2 := by positivity
  have hg' : (0 : ℚ) ≤ (2 ^ h) ^ 2 * (2 ^ (-55 - h - 1 + 2)) ^ 2 := by positivity
  obtain ⟨k, hk, hcode, hhi, hlo⟩ := sfu_between (by split <;> omega) hq hsfu
  generalize (isqrt (2 ^ 110 / m1) + if (isqrt (2 ^ 110 / m1) * isqrt (2 ^ 110 / m1) == 2 ^ 110 / m1 && 2 ^ 110 % m1 == 0) = true
    then 0 else 1) = r' at habove hhi
  generalize isqrt (2 ^ 110 / m1) = r at hbelow hlo
  rw [hx]
  refine ⟨k, hk, hcode, fun hi => ?_, fun hi => ?_⟩
  · have hr : (2 : ℚ) ^ 110 ≤ m1 * (r' * r') := by exact_mod_cast habove
    calc (4 : ℚ) = (2 ^ h) ^ 2 * (2 ^ (-55 - h - 1 + 2)) ^ 2 * 2 ^ 110 := hunit.symm
      _ ≤ (2 ^ h) ^ 2 * (2 ^ (-55 - h - 1 + 2)) ^ 2 * (m1 * (r' * r')) := mul_le_mul_of_nonneg_left hr hg'
      _ = m1 * (2 ^ h) ^ 2 * (r' * 2 ^ (-55 - h - 1 + 2)) ^ 2 := by ring
      _ ≤ _ := mul_le_mul_of_nonneg_left (pow_le_pow_left₀ (by positivity) (hhi hi) 2) hg
  · have hr : (m1 : ℚ) * (r * r) ≤ 2 ^ 110 := by exact_mod_cast hbelow
    calc _ ≤ (m1 : ℚ) * (2 ^ h) ^ 2 * (r * 2 ^ (-55 - h - 1 + 2)) ^ 2 :=
          mul_le_mul_of_nonneg_left (pow_le_pow_left₀ (add_nonneg (codeVal_nonneg _ _ _) (codeVal_nonneg _ _ _)) (hlo hi) 2) hg
      _ = (2 ^ h) ^ 2 * (2 ^ (-55 - h - 1 + 2)) ^ 2 * (m1 * (r * r)) := by ring
      _ ≤ (2 ^ h) ^ 2 * (2 ^ (-55 - h - 1 + 2)) ^ 2 * 2 ^ 110 := mul_le_mul_of_nonneg_left hr hg'
      _ = 4 := hunit

end Sys2Proof.Machine
end


section
open Sys2Proof Sys2Proof.Machine

/-- Settles O4: a value lies between the code next below it and that code's neighbour, and every rounding picks one of the two by the
part left over; RCP, SQRT and RSQ keep one bit for that part. -/
theorem roundedOnce : Obligations.RoundedOnce := by
  unfold Obligations.RoundedOnce
  refine ⟨fun f hf c hc => ?_, fun f hf r s m e => ?_, fun f sat s m e hp hp8 hm hs => ?_, fun f r sat => ?_,
    fun a s m e ha hm => ?_⟩
  · rw [dec_code hc]
    refine ⟨fun h => ⟨_, _, ?_, (codeVal_eq _ _ _).symm⟩, fun h => ?_, fun h => if_pos h⟩
    · rw [if_neg (by omega), if_neg (by omega)]
    · rw [if_neg (by omega), if_pos h]
  · exact ⟨_, magCode_roundsTo (ieee_p_pos hf) f.qmin r s m e, enc_fin f r s m e⟩
  · dsimp only
    simp only [← b8_signed_eq]
    refine ⟨fun r => ⟨_, magCode_roundsTo hp f.qmin r s m e, ?_⟩, fun rng => ?_⟩
    · rw [b8_enc_fin f _ sat s e hm hs]
      cases r <;> rfl
    · obtain ⟨lo, d, hx, h0, hd, hgo⟩ := magCode_stochastic hp s rng hm e
      have hg : codeVal f.p f.qmin (lo + 1) - codeVal f.p f.qmin lo = 2 ^ codeExp f.p f.qmin lo := by rw [codeVal_succ]; ring
      refine ⟨lo, by linarith, by linarith, ?_⟩
      rw [b8_enc_fin f _ sat s e hm hs, hgo, hg, hx, add_sub_cancel_left]
      simp only [add_eq_left]
  · refine ⟨rfl, fun s e => ?_, fun s hs => ?_, fun hu => ?_⟩
    · rfl
    · exact b8_enc_inf f r sat s hs
    · exact b8_enc_below f r sat hu
  · refine ⟨sfu_rcp_between ha hm, ?_, ?_⟩
    · rintro rfl
      exact sfu_sqrt_between ha hm
    · rintro rfl
      exact sfu_rsq_between ha hm

end

section
/-!
PROOFS. What the binary32 and the packed operations give (R53, R179, R180).
-/
namespace Sys2Proof.Machine

/-- The exact sum of finite values, and the sign of a zero (R53). -/
theorem add_fin_fin (r : Rnd) (s t : Bool) (m n : Nat) (e g : Int) : ∃ u k h, FV.add r (.fin s m e) (.fin t n g) = .fin u k h ∧
    (FV.fin u k h).val = (FV.fin s m e).val + (FV.fin t n g).val ∧ (k = 0 → u = if s = t then s else r == .rdn) := by
  have hv : ((signedAt s m e (min e g) + signedAt t n g (min e g) : Int) : ℚ) * 2 ^ min e g =
      (FV.fin s m e).val + (FV.fin t n g).val := by
    rw [Int.cast_add, add_mul, signedAt_mul_zpow _ _ (min_le_left e g), signedAt_mul_zpow _ _ (min_le_right e g)]
  unfold FV.add
  dsimp only
  generalize signedAt s m e (min e g) + signedAt t n g (min e g) = v at hv
  by_cases h : v = 0
  · rw [if_pos h]
    refine ⟨_, _, _, rfl, ?_, fun _ => rfl⟩
    rw [← hv, h, val_fin_eq_zero.mpr rfl, Int.cast_zero, zero_mul]
  · rw [if_neg h]
    refine ⟨_, _, _, rfl, (val_ofSigned v _).trans hv, fun hk => absurd (Int.natAbs_eq_zero.mp hk) h⟩

/-- The order of two values that are not NaN decides their minimum and their maximum. -/
theorem min_max_of_cmp {x y : FV} (hx : x ≠ .nan) (hy : y ≠ .nan) :
    FV.min x y = (if FV.cmp true x y = .gt then y else x) ∧ FV.max x y = (if FV.cmp true x y = .lt then y else x) := by
  have hn : ¬(x.isNan || y.isNan) = true := by simp [isNan_iff, hx, hy]
  exact ⟨if_neg hn, if_neg hn⟩

section
variable {s t : Bool} {m n : Nat} {e g : Int}

theorem min_max_fin : FV.min (.fin s m e) (.fin t n g) =
      (if FV.cmp true (.fin s m e) (.fin t n g) = .gt then .fin t n g else .fin s m e) ∧
    FV.max (.fin s m e) (.fin t n g) =
      (if FV.cmp true (.fin s m e) (.fin t n g) = .lt then .fin t n g else .fin s m e) := min_max_of_cmp nofun nofun

/-- The lesser of two finite values is their minimum, the greater their maximum. -/
theorem min_max_of_lt (h : (FV.fin s m e).val < (FV.fin t n g).val) :
    FV.min (.fin s m e) (.fin t n g) = .fin s m e ∧ FV.max (.fin s m e) (.fin t n g) = .fin t n g := by
  have hc : FV.cmp true (.fin s m e) (.fin t n g) = .lt := by
    rw [cmp_fin, if_neg fun hx => h.ne hx.1, compare_lt_iff_lt.mpr h]
  rw [min_max_fin.1, min_max_fin.2, hc]
  exact ⟨rfl, rfl⟩

/-- Of two zeros, -0 is the lesser (R179). -/
theorem min_max_zeros (f : Fmt) (hm : m = 0) (hn : n = 0) :
    f.enc .rne (FV.min (.fin s m e) (.fin t n g)) = f.enc .rne (.fin (s || t) 0 0) ∧
      f.enc .rne (FV.max (.fin s m e) (.fin t n g)) = f.enc .rne (.fin (s && t) 0 0) := by
  subst hm hn
  have hx : (FV.fin s 0 e).val = 0 := val_fin_eq_zero.mpr rfl
  have hy : (FV.fin t 0 g).val = 0 := val_fin_eq_zero.mpr rfl
  rw [min_max_fin.1, min_max_fin.2, cmp_fin, hx, hy, compare_eq_iff_eq.mpr rfl]
  cases s <;> cases t <;> exact ⟨rfl, rfl⟩

/-- Of two equal values that are not zero, either is both. -/
theorem min_max_of_eq (h : (FV.fin s m e).val = (FV.fin t n g).val) (h0 : (FV.fin s m e).val ≠ 0) :
    FV.min (.fin s m e) (.fin t n g) = .fin s m e ∧ FV.max (.fin s m e) (.fin t n g) = .fin s m e := by
  have hst : s = t := by
    have hm := val_fin_neg_iff (s := s) (e := e) (val_fin_eq_zero.not.mp h0)
    have hn := val_fin_neg_iff (s := t) (e := g) (val_fin_eq_zero.not.mp (h ▸ h0))
    rw [← h, hm] at hn
    cases s <;> cases t <;> simp_all
  have hc : FV.cmp true (.fin s m e) (.fin t n g) = .eq := by
    rw [cmp_fin, if_neg fun hx => hx.2.2 hst, compare_eq_iff_eq.mpr h]
  rw [min_max_fin.1, min_max_fin.2, hc]
  exact ⟨rfl, rfl⟩

end

/-- The lesser infinity is the minimum with anything, on either side, and leaves the other operand as the maximum. -/
theorem min_max_negInf {y : FV} (hy : y ≠ .nan) : FV.min (.inf true) y = .inf true ∧ FV.max (.inf true) y = y ∧
    FV.min y (.inf true) = .inf true ∧ FV.max y (.inf true) = y := by
  obtain ⟨h1, h2⟩ := min_max_of_cmp (x := .inf true) nofun hy
  obtain ⟨h3, h4⟩ := min_max_of_cmp (y := .inf true) hy nofun
  rw [h1, h2, h3, h4, cmp_negInf_left, cmp_negInf_right]
  by_cases h : y = .inf true
  · simp [h]
  · simp [h]

theorem min_max_posInf {y : FV} (hy : y ≠ .nan) : FV.max (.inf false) y = .inf false ∧ FV.min (.inf false) y = y ∧
    FV.max y (.inf false) = .inf false ∧ FV.min y (.inf false) = y := by
  obtain ⟨h1, h2⟩ := min_max_of_cmp (x := .inf false) nofun hy
  obtain ⟨h3, h4⟩ := min_max_of_cmp (y := .inf false) hy nofun
  rw [h1, h2, h3, h4, cmp_posInf_left true y hy, cmp_posInf_right true y hy]
  by_cases h : y = .inf false
  · simp [h]
  · simp [h]

/-- A packed result's halves are the operation on the operands' halves (R180). -/
theorem packed_halves (g : Nat → Nat → Nat → Nat) (a b d : Word32) :
    (packed g a b d).extractLsb' 0 16 = BitVec.ofNat 16 (g (a.toNat % 2 ^ 16) (b.toNat % 2 ^ 16) (d.toNat % 2 ^ 16)) ∧
      (packed g a b d).extractLsb' 16 16 = BitVec.ofNat 16 (g (a.toNat / 2 ^ 16) (b.toNat / 2 ^ 16) (d.toNat / 2 ^ 16)) := by
  have hlo (x : Word32) : (x.extractLsb' 0 16).toNat = x.toNat % 2 ^ 16 := by simp
  have hhi (x : Word32) : (x.extractLsb' 16 16).toNat = x.toNat / 2 ^ 16 := by
    rw [BitVec.extractLsb'_toNat, Nat.shiftRight_eq_div_pow]
    exact Nat.mod_eq_of_lt (by have := x.isLt; omega)
  unfold packed
  dsimp only
  simp only [hlo, hhi]
  exact ⟨BitVec.extractLsb'_append_eq_right, BitVec.extractLsb'_append_eq_left⟩

/-- A code below twice the sign's weight is its magnitude and its sign. -/
theorem code_sign_split {c g : Nat} (h : c < 2 * g) : c = (if decide (g ≤ c) then g else 0) + c % g ∧
    (c + g) % (2 * g) = (if !decide (g ≤ c) then g else 0) + c % g := by
  rcases Nat.lt_or_ge c g with hc | hc
  · simp [Nat.not_le.mpr hc, Nat.mod_eq_of_lt hc, Nat.mod_eq_of_lt (show c + g < 2 * g by omega), Nat.add_comm]
  · have hm : c % g = c - g := by rw [Nat.mod_eq_sub_mod hc, Nat.mod_eq_of_lt (by omega)]
    have hm2 : (c + g) % (2 * g) = c - g := by rw [Nat.mod_eq_sub_mod (by omega), Nat.mod_eq_of_lt (by omega)]; omega
    simp [hc, hm, hm2]

/-- What a code stands for is encoded by that code, and its magnitude and its negation by the codes that differ in the sign alone. -/
theorem enc_dec {f : Fmt} (hp : 1 ≤ f.p) (r : Rnd) {a : Nat} (ha : a < 2 * f.sgn) (hn : f.dec a ≠ .nan) :
    f.enc r (f.dec a) = a ∧ f.enc r (f.dec a).abs = a % f.sgn ∧ f.enc r (f.dec a).neg = (a + f.sgn) % (2 * f.sgn) := by
  obtain ⟨h1, h2⟩ := code_sign_split ha
  rw [dec_code ha] at hn ⊢
  split at hn
  · exact absurd rfl hn
  · split at hn
    · rename_i hnan hinf
      rw [if_neg hnan, if_pos hinf]
      refine ⟨?_, ?_, ?_⟩
      · rw [enc_inf, ← hinf]
        exact h1.symm
      · rw [FV.abs, enc_inf, ← hinf]
        exact Nat.zero_add _
      · rw [FV.neg, enc_inf, ← hinf]
        exact h2.symm
    · rename_i hnan hinf
      rw [if_neg hnan, if_neg hinf]
      have hk : a % f.sgn < f.inf := by omega
      have hv := (codeVal_eq f.p f.qmin (a % f.sgn)).symm
      refine ⟨?_, ?_, ?_⟩
      · rw [enc_of_code hp r _ hk hv]
        exact h1.symm
      · rw [FV.abs, enc_of_code hp r _ hk hv]
        exact Nat.zero_add _
      · rw [FV.neg, enc_of_code hp r _ hk hv]
        exact h2.symm

end Sys2Proof.Machine
end

section
open Sys2Proof Sys2Proof.Machine

/-- Settles O3: the exact sum and product of finite values, the order that minimum and maximum follow, and that a code's value is encoded
by that code. -/
theorem floatResults : Obligations.FloatResults := by
  unfold Obligations.FloatResults
  refine ⟨fun s c r bf d a b => ?_, packed_halves, fun f r a b d s t w m n o e g i ha hb hd => ?_, fun f a b hb => ?_,
    fun f hf r a ha hn => ?_⟩
  · exact ⟨warpWrites_of_fixedV rfl, warpWrites_of_fixedV rfl, warpWrites_of_fixedV rfl, warpWrites_of_fixedV rfl,
      warpWrites_of_fixedV rfl, warpWrites_of_fixedV rfl, warpWrites_of_fixedV rfl, warpWrites_of_fixedV rfl,
      warpWrites_of_fixedV rfl, warpWrites_of_fixedV rfl, warpWrites_of_fixedV rfl, warpWrites_of_fixedV rfl,
      warpWrites_of_fixedV rfl⟩
  · dsimp only
    rw [fmt_add, fmt_sub, fmt_mul, fmt_fma, fmt_minC, fmt_maxC, ha, hb, hd, neg_fin, mul_fin_fin]
    refine ⟨?_, ?_, ⟨_, _, _, rfl, val_mul_fin s t m n e g, fun _ => rfl⟩, ?_, fun h => ?_, fun hx hy => ?_, fun h h0 => ?_⟩
    · obtain ⟨u, k, h, heq, hval, hz⟩ := add_fin_fin r s t m n e g
      exact ⟨u, k, h, by rw [heq], hval, hz⟩
    · obtain ⟨u, k, h, heq, hval, hz⟩ := add_fin_fin r s (!t) m n e g
      exact ⟨u, k, h, by rw [heq], hval.trans (by rw [← neg_fin, val_neg, sub_eq_add_neg]), hz⟩
    · obtain ⟨u, k, h, heq, hval, hz⟩ := add_fin_fin r (s != t) w (m * n) o (e + g) i
      exact ⟨u, k, h, by rw [heq], hval.trans (by rw [val_mul_fin]), hz⟩
    · rw [(min_max_of_lt h).1, (min_max_of_lt h).2]
      exact ⟨rfl, rfl⟩
    · exact min_max_zeros f (val_fin_eq_zero.mp hx) (val_fin_eq_zero.mp hy)
    · rw [(min_max_of_eq h h0).1, (min_max_of_eq h h0).2]
      exact ⟨rfl, rfl⟩
  · refine ⟨fun ha => ?_, fun ha => ?_⟩
    · obtain ⟨h1, h2, h3, h4⟩ := min_max_negInf hb
      simp only [fmt_minC, fmt_maxC, ha, h1, h2, h3, h4, and_self]
    · obtain ⟨h1, h2, h3, h4⟩ := min_max_posInf hb
      simp only [fmt_minC, fmt_maxC, ha, h1, h2, h3, h4, and_self]
  · exact enc_dec (ieee_p_pos hf) r ha hn

end

section
/-!
PROOFS. How products are summed: WIDE elements (R63, R64), the two chains of a sum (R70), and the segments of an MXV (R282).
-/
namespace Sys2Proof.Machine

-- WIDE elements.

/-- Cutting at a last place depends on how far below the exponent it lies alone. -/
theorem roundAt_sub (r : Rnd) (s : Bool) (m : Nat) (e q : Int) : roundAt r s m e q = roundAt r s m (e - q) 0 := by
  simp only [roundAt, roundFrom, sub_zero, zero_sub, neg_sub, sub_nonneg]

/-- The whole number nearest a magnitude, the even one of two (R63). -/
theorem roundAt_rne (s : Bool) (m : Nat) (e : Int) :
    2 * ((m : ℚ) * 2 ^ e) - 1 ≤ 2 * roundAt .rne s m e 0 ∧ 2 * (roundAt .rne s m e 0 : ℚ) ≤ 2 * ((m : ℚ) * 2 ^ e) + 1 ∧
      (2 * ((m : ℚ) * 2 ^ e) - 1 = 2 * roundAt .rne s m e 0 ∨ 2 * (roundAt .rne s m e 0 : ℚ) = 2 * ((m : ℚ) * 2 ^ e) + 1 →
        roundAt .rne s m e 0 % 2 = 0) := by
  obtain ⟨n, hx, h0, h1, hr⟩ := roundFrom_split m e 0
  obtain ⟨hup, hdown⟩ := hr 0 .rne s
  rw [zpow_zero, mul_one] at hx
  rw [zpow_zero] at h1 hup hdown
  rw [Nat.zero_add] at hup hdown
  generalize cutPart m e 0 = d at hx h0 h1 hup hdown
  rw [hx]
  by_cases h : Raises .rne s n 1 d
  · rw [roundAt, hup h]
    push_cast
    rcases h with h | ⟨h, hodd⟩
    · exact ⟨by linarith, by linarith, fun ht => by rcases ht with ht | ht <;> linarith⟩
    · exact ⟨by linarith, by linarith, fun _ => by omega⟩
  · rw [roundAt, hdown h]
    simp only [Raises, not_or, not_lt, not_and] at h
    obtain ⟨hle, htie⟩ := h
    refine ⟨by linarith, by linarith, fun ht => ?_⟩
    have : n % 2 ≠ 1 := htie (by rcases ht with ht | ht <;> linarith)
    omega

theorem toInt_ofInt_128 {v : Int} (hlo : -2 ^ 127 ≤ v) (hhi : v ≤ 2 ^ 127 - 1) : (BitVec.ofInt 128 v).toInt = v := by
  rw [BitVec.toInt_ofInt]
  exact Int.bmod_eq_of_le (by norm_num; linarith) (by norm_num; linarith)

/-- A finite product adds its rounded magnitude to a WIDE element, clamped with SAT (R63). -/
theorem addWide_fin (w : Int) (x : AccEl) (s : Bool) (m : Nat) (e : Int) {t : Int}
    (ht : t = x.v.toInt + if s then -(roundAt .rne s m e (w - 80) : Int) else roundAt .rne s m e (w - 80)) :
    (x.addWide w (.fin s m e)).v.toInt = max (-2 ^ 127) (min (2 ^ 127 - 1) t) ∧
      (x.addWide w (.fin s m e)).sat = (x.sat || decide (t < -2 ^ 127) || decide (2 ^ 127 - 1 < t)) ∧
      (x.addWide w (.fin s m e)).inv = x.inv := by
  unfold AccEl.addWide
  dsimp only
  rw [← ht]
  by_cases hhi : 2 ^ 127 - 1 < t
  · rw [if_pos hhi, min_eq_left hhi.le]
    exact ⟨toInt_ofInt_128 (by norm_num) le_rfl, by rw [decide_eq_true hhi, Bool.or_true], rfl⟩
  · rw [if_neg hhi, min_eq_right (not_lt.mp hhi)]
    by_cases hlo : t < -2 ^ 127
    · rw [if_pos hlo, max_eq_left hlo.le]
      exact ⟨toInt_ofInt_128 le_rfl (by norm_num), by rw [decide_eq_true hlo, Bool.or_true, Bool.true_or], rfl⟩
    · rw [if_neg hlo, max_eq_right (not_lt.mp hlo)]
      exact ⟨toInt_ofInt_128 (not_lt.mp hlo) (not_lt.mp hhi),
        by rw [decide_eq_false hlo, decide_eq_false hhi, Bool.or_false, Bool.or_false], rfl⟩

/-- An infinite product sets the end of the range on its side, with SAT (R63). -/
theorem addWide_inf (w : Int) (x : AccEl) (s : Bool) : (x.addWide w (.inf s)).v.toInt = (if s then -2 ^ 127 else 2 ^ 127 - 1) := by
  cases s
  · exact toInt_ofInt_128 (by norm_num) le_rfl
  · exact toInt_ofInt_128 le_rfl (by norm_num)

-- Two chains.

/-- The even and the odd chain after `k` products, from what they hold before (R70). -/
def chains (p : Nat → FV) (c : Nat × Nat) : Nat → Nat × Nat
  | 0 => c
  | k + 1 => if k % 2 = 0 then (chainAdd (chains p c k).1 (p k), (chains p c k).2)
    else ((chains p c k).1, chainAdd (chains p c k).2 (p k))

theorem foldl_chains (p : Nat → FV) (c : Nat × Nat) (n : Nat) : (List.range n).foldl (fun (c : Nat × Nat) k =>
    if k % 2 = 0 then (chainAdd c.1 (p k), c.2) else (c.1, chainAdd c.2 (p k))) c = chains p c n := by
  induction n with
  | zero => rfl
  | succ n ih => rw [List.range_succ, List.foldl_append, ih]; rfl

/-- Each product goes into the chain of its parity. -/
theorem chains_succ (p : Nat → FV) (c : Nat × Nat) (k : Nat) :
    (chains p c (k + 1)).1 = (if k % 2 = 0 then chainAdd (chains p c k).1 (p k) else (chains p c k).1) ∧
      (chains p c (k + 1)).2 = if k % 2 = 0 then (chains p c k).2 else chainAdd (chains p c k).2 (p k) := by
  rw [chains]
  split
  · exact ⟨rfl, rfl⟩
  · exact ⟨rfl, rfl⟩

theorem chains_congr {p q : Nat → FV} (c : Nat × Nat) {n : Nat} (h : ∀ k < n, p k = q k) : chains p c n = chains q c n := by
  induction n with
  | zero => rfl
  | succ n ih => rw [chains, chains, ih fun k hk => h k (hk.trans (Nat.lt_succ_self n)), h n (Nat.lt_succ_self n)]

theorem regResult_eq (m : MatEntry) (clm : List Host.Cell) (i n acc : Nat) : m.regResult clm i n acc =
    f32.add .rne (chains (m.product clm i n) (acc, 0) m.d.k).1 (chains (m.product clm i n) (acc, 0) m.d.k).2 := by
  rw [← foldl_chains]
  rfl

/-- One product on an element of a bank (R62, R63, R70). -/
theorem stepEl_wide {m : MatEntry} (h : m.d.wide = true) (clm : List Host.Cell) (i n k : Nat) (x : AccEl) :
    m.stepEl clm i n k x = x.addWide m.d.fa.w (m.product clm i n k) := if_pos h

theorem stepEl_split {m : MatEntry} (h : m.d.wide = false) (clm : List Host.Cell) (i n k : Nat) (x : AccEl) :
    m.stepEl clm i n k x = if k % 2 = 0 then AccEl.split (chainAdd x.even (m.product clm i n k)) x.odd x
      else AccEl.split x.even (chainAdd x.odd (m.product clm i n k)) x := if_neg (by simp [h])

/-- A scale of a row or column, one for each block along K (R68). -/
theorem scaled_eq (f : FmtBlk) (l : List Nat) (r k kk code : Nat) : scaled f l r k kk code =
    if f.blk = 0 then elemDec f.fmt code
    else FV.mul (elemDec f.fmt code)
      (f.scaleVal (l.getD (r * ((k + 8 * 2 ^ f.blk - 1) / (8 * 2 ^ f.blk)) + kk / (8 * 2 ^ f.blk)) 0)) := by
  unfold scaled
  dsimp only
  split
  · rfl
  · rename_i h
    rw [FmtBlk.scales, if_neg h, FmtBlk.len]

theorem codes_unread {m : MatEntry} (ha : m.ea = []) (hb : m.eb = []) (clm : List Host.Cell) (i n k : Nat) :
    m.codeA clm i k = leNat (bytesAt clm (m.d.aaddr + i * m.d.astr + k * m.d.s) m.d.s) ∧
      m.codeB clm k n = leNat (bytesAt clm (m.d.baddr + k * m.d.bstr + n * m.d.s) m.d.s) := by
  rw [MatEntry.codeA, MatEntry.codeB, ha, hb]
  exact ⟨rfl, rfl⟩

-- Segments.

theorem segSum_eq (ps : List FV) : segSum ps =
    f32.add .rne (chains (fun k => ps.getD k .nan) (0, 0) ps.length).1 (chains (fun k => ps.getD k .nan) (0, 0) ps.length).2 := by
  have hz : ps.zip (List.range ps.length) = (List.range ps.length).map fun k => (ps.getD k .nan, k) := by
    refine List.ext_getElem (by simp) fun k h1 h2 => ?_
    have hk : k < ps.length := by simpa using h2
    simp [hk]
  rw [segSum, hz, List.foldl_map, foldl_chains]

/-- The sum of the segments up to `j`, in ascending order (R282). -/
def segTotal (seg : Nat → Nat) : Nat → Nat
  | 0 => seg 0
  | j + 1 => f32.add .rne (segTotal seg j) (seg (j + 1))

theorem foldl_segTotal (seg : Nat → Nat) (n : Nat) :
    (List.range n).foldl (fun c j => f32.add .rne c (seg (j + 1))) (seg 0) = segTotal seg n := by
  induction n with
  | zero => rfl
  | succ n ih => rw [List.range_succ, List.foldl_append, ih]; rfl

/-- The sum of the segment `j` of `len` products. -/
def segOf (p : Nat → FV) (len j : Nat) : Nat :=
  f32.add .rne (chains (fun k => p (1024 * j + k)) (0, 0) (min 1024 (len - 1024 * j))).1
    (chains (fun k => p (1024 * j + k)) (0, 0) (min 1024 (len - 1024 * j))).2

/-- A product of an MXV (R282). -/
def mxvProduct (fa fb : Nat) (a b : List Nat) (k : Nat) : FV := FV.mul (elemDec fa (a.getD k 0)) (elemDec fb (b.getD k 0))

/-- An output of MXV is the total of its segments of 1,024 products (R282). -/
theorem mxvTotal_eq (fa fb : Nat) {a b : List Nat} {nseg : Nat} (hlen : a.length = b.length) (hlo : nseg * 1024 < a.length)
    (hhi : a.length ≤ (nseg + 1) * 1024) : mxvTotal fa fb a b =
      segTotal (segOf (mxvProduct fa fb a b) a.length) nseg := by
  have hps : ((a.zip b).map fun p => FV.mul (elemDec fa p.1) (elemDec fb p.2)).length = a.length := by simp [hlen]
  have hget (k : Nat) (hk : k < a.length) : ((a.zip b).map fun p => FV.mul (elemDec fa p.1) (elemDec fb p.2)).getD k .nan =
      mxvProduct fa fb a b k := by
    simp [mxvProduct, hk, hlen ▸ hk]
  unfold mxvTotal
  dsimp only
  rw [hps, show (a.length + 1023) / 1024 = nseg + 1 by omega]
  generalize (a.zip b).map _ = ps at hps hget
  have hseg (j : Nat) : segSum ((ps.drop (1024 * j)).take 1024) =
      segOf (mxvProduct fa fb a b) a.length j := by
    rw [segSum_eq, segOf, List.length_take, List.length_drop, hps]
    rw [chains_congr (q := fun k => mxvProduct fa fb a b (1024 * j + k))]
    intro k hk
    rw [← hget _ (by omega)]
    simp [show k < 1024 by omega]
  simp only [hseg]
  generalize segOf (mxvProduct fa fb a b) a.length = seg
  rw [List.range_succ_eq_map, List.map_cons, List.map_map]
  dsimp only
  rw [List.foldl_map]
  exact foldl_segTotal seg nseg

end Sys2Proof.Machine
end


section
/-!
PROOFS. The ACC instructions: their checks, and what they leave in the banks and write to the window (R237, R247, R248).
-/
namespace Sys2Proof.Machine

section
variable {s : State} {i : Instr} {c : Ctl} {wb : WEnv → Except Stop State} {sb : SEnv → Except Stop State} {f : WEnv → Option Nat}

theorem warpIf_of_body {p : WEnv → Prop} {g : WEnv → State} (hx : exec i s = issue i c wb sb s f)
    (h : ∀ e, p e → wb e = .ok (g e)) : WarpIf s i c p g :=
  fun e he hp => hx.trans (issue_warp_ok he (h e hp))

theorem warpTraps_of_body {p : WEnv → Prop} {x : WEnv → TrapInfo} (hx : exec i s = issue i c wb sb s f)
    (h : ∀ e, p e → wb e = .error (.trap (x e))) : WarpTraps s i c p x :=
  fun e he hs hp => hx.trans (issue_warp_fault he hs (h e hp))

end

theorem isEmpty_eq_false {α : Type} {l : List α} (h : l ≠ []) : l.isEmpty = false := by simpa using h

-- Elements of the banks.

@[simp] theorem getAcc_putAcc (b : Block) (ix : Nat) (x : AccEl) : (b.putAcc ix x).getAcc ix = x := by
  unfold Block.putAcc Block.getAcc agetD
  split
  · rename_i h
    exact (congrArg (Option.getD · AccEl.zero) (aget_adel ix b.acc)).trans h.symm
  · exact congrArg (Option.getD · AccEl.zero) (aget_aset ix x b.acc)

theorem getAcc_putAcc_ne (b : Block) {ix j : Nat} (x : AccEl) (h : j ≠ ix) : (b.putAcc ix x).getAcc j = b.getAcc j := by
  unfold Block.putAcc Block.getAcc agetD
  split
  · exact congrArg (Option.getD · AccEl.zero) (aget_adel_ne h b.acc)
  · exact congrArg (Option.getD · AccEl.zero) (aget_aset_ne x h b.acc)

/-- An element that is not listed is zero. -/
theorem getAcc_unlisted {b : Block} {ix : Nat} (h : ix ∉ b.acc.map Prod.fst) : b.getAcc ix = AccEl.zero := by
  have : aget ix b.acc = none := aget_eq_none fun p hp hpx => h (hpx ▸ List.mem_map_of_mem hp)
  rw [Block.getAcc, agetD, this]
  rfl

/-- Steps that write elements of the banks change nothing else of a block. -/
theorem foldl_acc_only {α : Type} {f : Block → α → Block} (h : ∀ b x, f b x = { b with acc := (f b x).acc }) (l : List α) :
    ∀ b : Block, l.foldl f b = { b with acc := (l.foldl f b).acc } := by
  induction l with
  | nil => intro b; rfl
  | cons x t ih =>
    intro b
    rw [List.foldl_cons, ih, h b x]

/-- Writing a function of each listed element once. -/
theorem getAcc_foldl_update (g : AccEl → AccEl) (l : List Nat) (hl : l.Nodup) (b : Block) (j : Nat) :
    (l.foldl (fun b ix => b.putAcc ix (g (b.getAcc ix))) b).getAcc j = if j ∈ l then g (b.getAcc j) else b.getAcc j := by
  induction l generalizing b with
  | nil => rfl
  | cons ix t ih =>
    obtain ⟨hix, ht⟩ := List.nodup_cons.mp hl
    rw [List.foldl_cons, ih ht]
    by_cases h : j = ix
    · subst h
      simp [hix]
    · simp [h, getAcc_putAcc_ne _ _ h]

/-- Writing zero to listed elements. -/
theorem getAcc_foldl_zero (l : List (Nat × Nat)) (b : Block) (j : Nat) : (l.foldl (fun b x => b.putAcc x.1 AccEl.zero) b).getAcc j =
    if j ∈ l.map Prod.fst then AccEl.zero else b.getAcc j := by
  induction l generalizing b with
  | nil => rfl
  | cons x t ih =>
    rw [List.foldl_cons, ih]
    rw [List.map_cons]
    by_cases h : j = x.1
    · simp [h]
    · rw [getAcc_putAcc_ne _ _ h]
      simp only [List.mem_cons, h, false_or]

/-- Whether an element lies in one of `n` banks from `lo` on. -/
def inBanks (lo n ix : Nat) : Bool := decide (lo ≤ ix / 512) && decide (ix / 512 < lo + n)

theorem inBanks_iff {lo n ix : Nat} : inBanks lo n ix = true ↔ lo ≤ ix / 512 ∧ ix / 512 < lo + n := by
  simp [inBanks]

theorem aget_filter_key {α : Type} (p : Nat → Bool) (k : Nat) (m : Assoc α) :
    aget k (m.filter fun x => p x.1) = if p k then aget k m else none := by
  induction m with
  | nil => simp [aget]
  | cons x t ih =>
    by_cases hx : p x.1 = true
    · rw [List.filter_cons_of_pos (p := fun y : Nat × α => p y.1) hx, aget, ih, aget]
      by_cases hk : k = x.1
      · simp [hk, hx]
      · simp [hk]
    · rw [List.filter_cons_of_neg (p := fun y : Nat × α => p y.1) hx, ih, aget]
      by_cases hk : k = x.1
      · simp [hk, hx]
      · simp [hk]

/-- A block with every element of some banks zero (R247). -/
def Block.clearBanks (b : Block) (lo n : Nat) : Block := { b with acc := b.acc.filter fun p => !inBanks lo n p.1 }

theorem getAcc_clearBanks (b : Block) (lo n ix : Nat) :
    (b.clearBanks lo n).getAcc ix = if inBanks lo n ix then AccEl.zero else b.getAcc ix := by
  unfold Block.clearBanks Block.getAcc agetD
  dsimp only
  rw [aget_filter_key (fun k => !inBanks lo n k)]
  cases inBanks lo n ix <;> rfl

theorem mem_dedup {l : List Nat} {x : Nat} : x ∈ dedup l ↔ x ∈ l := by
  unfold dedup
  induction l with
  | nil => rfl
  | cons y t ih =>
    rw [List.foldr_cons]
    split
    · rename_i h
      rw [ih, List.mem_cons]
      refine ⟨.inr, ?_⟩
      rintro (rfl | h')
      · exact ih.mp (List.contains_iff_mem.mp h)
      · exact h'
    · rw [List.mem_cons, List.mem_cons, ih]

theorem nodup_dedup (l : List Nat) : (dedup l).Nodup := by
  unfold dedup
  induction l with
  | nil => exact List.nodup_nil
  | cons y t ih =>
    rw [List.foldr_cons]
    split
    · exact ih
    · rename_i h
      exact List.nodup_cons.mpr ⟨fun hm => h (List.contains_iff_mem.mpr hm), ih⟩

/-- The fold of an element into its even half (R64). -/
def AccEl.folded (x : AccEl) : AccEl := AccEl.split x.fold 0 x

theorem folded_zero : AccEl.zero.folded = AccEl.zero := by decide

/-- A block with every element of some banks folded. -/
def Block.foldBanks (b : Block) (lo n : Nat) : Block :=
  ((dedup (b.acc.map Prod.fst)).filter (inBanks lo n)).foldl (fun b ix => b.putAcc ix (b.getAcc ix).folded) b

theorem foldBanks_acc_only (b : Block) (lo n : Nat) : b.foldBanks lo n = { b with acc := (b.foldBanks lo n).acc } :=
  foldl_acc_only (fun _ _ => rfl) _ b

/-- Every element of the banks is folded: one that is not listed is zero, and zero folds to zero. -/
theorem getAcc_foldBanks (b : Block) (lo n ix : Nat) :
    (b.foldBanks lo n).getAcc ix = if inBanks lo n ix then (b.getAcc ix).folded else b.getAcc ix := by
  rw [Block.foldBanks, getAcc_foldl_update AccEl.folded _ ((nodup_dedup _).filter _)]
  simp only [List.mem_filter, mem_dedup]
  by_cases hb : inBanks lo n ix = true
  · by_cases hm : ix ∈ b.acc.map Prod.fst
    · rw [if_pos ⟨hm, hb⟩, if_pos hb]
    · rw [if_neg fun h => hm h.1, if_pos hb, getAcc_unlisted hm, folded_zero]
  · rw [if_neg fun h => hb h.2, if_neg hb]

-- Checks.

/-- Banks that are held and not in flight pass (R237, R243, R244). -/
theorem accChecks_ok {e : WEnv} {lo n : Nat} (h : ∀ k, lo ≤ k → k < lo + n →
    k < e.b.hold.acc ∧ k ∉ warpBanks e.s e.w true ∧ e.b.paired k = false) : accChecks e lo n = .ok () := by
  unfold accChecks
  dsimp only
  rw [List.findSome?_eq_none_iff.mpr fun i hi => ?_]
  obtain ⟨h1, h2, h3⟩ := h (lo + i) (Nat.le_add_right _ _) (Nat.add_lt_add_left (List.mem_range.mp hi) lo)
  simp [h1, h2, h3]

theorem accChecks_first (e : WEnv) (lo : Nat) {n : Nat} (h : 0 < n) {x : Nat × Nat}
    (hx : (if e.b.hold.acc ≤ lo then some (fAccUnalloc, lo)
      else if (warpBanks e.s e.w true).contains lo || e.b.paired lo then some (fAccInflight, lo) else none) = some x) :
    accChecks e lo n = flt x.1 x.2 := by
  obtain ⟨n, rfl⟩ := Nat.exists_eq_succ_of_ne_zero h.ne'
  unfold accChecks
  dsimp only
  rw [List.range_succ_eq_map, List.findSome?_cons, Nat.add_zero, hx]

/-- The first bank named is not held (R237). -/
theorem accChecks_unalloc {e : WEnv} {lo n : Nat} (h : 0 < n) (hb : e.b.hold.acc ≤ lo) : accChecks e lo n = flt 0x19 lo :=
  accChecks_first e lo h (if_pos hb)

/-- The first bank named is in flight (R243, R244). -/
theorem accChecks_inflight {e : WEnv} {lo n : Nat} (h : 0 < n) (hb : lo < e.b.hold.acc)
    (hf : lo ∈ warpBanks e.s e.w true ∨ e.b.paired lo = true) : accChecks e lo n = flt 0x1A lo :=
  accChecks_first e lo h ((if_neg (Nat.not_le.mpr hb)).trans (if_pos (by simpa using hf)))

-- ACCZ, ACCFOLD and ACCLD.

section
variable {s : State} {c : Ctl} {e : WEnv} {bank count : BitVec 19} (hne : e.eff ≠ [])
include hne

theorem exec_accz (he : s.warpStart (.accz c bank count) c = some e) (h : accChecks e bank.toNat count.toNat = .ok ()) :
    exec (.accz c bank count) s =
      .next (retire e.s { e with b := e.b.clearBanks bank.toNat count.toNat } (.accz c bank count)) := by
  refine Eq.trans rfl (issue_warp_ok he ?_)
  dsimp only
  rw [isEmpty_eq_false hne, h]
  rfl

theorem exec_accfold (he : s.warpStart (.accfold c bank count) c = some e) (h : accChecks e bank.toNat count.toNat = .ok ()) :
    exec (.accfold c bank count) s =
      .next (retire e.s { e with b := e.b.foldBanks bank.toNat count.toNat } (.accfold c bank count)) := by
  refine Eq.trans rfl (issue_warp_ok he ?_)
  dsimp only
  rw [isEmpty_eq_false hne, h]
  rfl

/-- What ACCLD puts into the banks from the rows of the window (R248). -/
def Block.loadRows (b : Block) (raw : Bool) (bank cols : Nat) (rows : List (List Byte)) : Block :=
  let sz := if raw then 16 else 4
  ((List.range 16).zip rows).foldl (fun b r => (List.range cols).foldl (fun b j =>
    let v := leNat ((r.2.drop (j * sz)).take sz)
    b.putAcc (bank * 512 + r.1 * 32 + j) (if raw then ⟨BitVec.ofNat 128 v, false, false⟩ else AccEl.split v 0 AccEl.zero)) b) b

theorem exec_accld {raw : Bool} {a : Operand} {ctl : BitVec 19} {o : Nat} {rows : List (List Byte)}
    (he : s.warpStart (.accld c raw bank a ctl) c = some e) (ho : accAddr e bank a ctl (if raw then 16 else 4) = .ok o)
    (hr : (List.range 16).mapM (fun r => e.s.readWindow e.w.aid e.b.id (o + r * ctlStride ctl)
      (ctlCols ctl * if raw then 16 else 4)) = some rows) : exec (.accld c raw bank a ctl) s =
      .next (retire e.s { e with b := e.b.loadRows raw bank.toNat (ctlCols ctl) rows } (.accld c raw bank a ctl)) := by
  refine Eq.trans rfl (issue_warp_ok he ?_)
  dsimp only
  rw [isEmpty_eq_false hne, ho]
  dsimp only
  rw [hr]
  rfl

end

-- ACCST: the bytes it writes, and the accesses that carry them.

/-- Writing cells one after another keeps, for every address written, one of the bytes written there. -/
theorem mem_foldl_aset {cells m : List Host.Cell} {y : Host.Cell} (h : y ∈ cells.foldl (fun m c => aset c.1 c.2 m) m) :
    y ∈ cells ∨ y ∈ m := by
  induction cells generalizing m with
  | nil => exact .inr h
  | cons c t ih =>
    rcases ih h with h | h
    · exact .inl (List.mem_cons_of_mem c h)
    · rcases mem_aset _ _ _ _ h with rfl | h
      · exact .inl List.mem_cons_self
      · exact .inr h

theorem aset_mem {α : Type} (k : Nat) (v : α) (m : Assoc α) : (k, v) ∈ aset k v m := by
  induction m with
  | nil => exact List.mem_cons_self
  | cons x t ih =>
    rw [aset]
    split
    · exact List.mem_cons_self
    · split
      · exact List.mem_cons_self
      · exact List.mem_cons_of_mem _ ih

theorem aset_key {α : Type} (k : Nat) (v : α) {m : Assoc α} {j : Nat} (h : j ∈ m.map Prod.fst) : j ∈ (aset k v m).map Prod.fst := by
  induction m with
  | nil => cases h
  | cons x t ih =>
    rw [aset]
    split
    · exact List.mem_cons_of_mem _ h
    · split
      · rename_i hk
        subst hk
        exact h
      · rcases List.mem_cons.mp h with h | h
        · exact List.mem_cons.mpr (.inl h)
        · exact List.mem_cons_of_mem _ (ih h)

theorem foldl_aset_key {cells m : List Host.Cell} {j : Nat} (h : j ∈ cells.map Prod.fst ∨ j ∈ m.map Prod.fst) :
    j ∈ (cells.foldl (fun m c => aset c.1 c.2 m) m).map Prod.fst := by
  induction cells generalizing m with
  | nil => exact h.resolve_left List.not_mem_nil
  | cons c t ih =>
    rw [List.foldl_cons]
    refine ih ?_
    rcases h with h | h
    · rcases List.mem_cons.mp h with rfl | h
      · exact .inr (List.mem_map_of_mem (aset_mem c.1 c.2 m))
      · exact .inl h
    · exact .inr (aset_key _ _ h)

/-- The accesses of local stores: each stands in the store buffer for its block's window with some of the cells, and every cell is in
one of them (R35). -/
theorem mem_localStores {b : Block} {aid inst : Nat} {cells : List Host.Cell} {x : Access} (h : x ∈ localStores b aid inst cells) :
    x.loc = some b.id ∧ x.st = .buffer ∧ ∃ l : List Host.Cell, x.kind = .store l ∧ ∀ y ∈ l, y ∈ cells := by
  obtain ⟨ln, -, rfl⟩ := List.mem_map.mp h
  exact ⟨rfl, rfl, _, rfl, fun y hy => (List.mem_filter.mp hy).1⟩

theorem localStores_cover (b : Block) (aid inst : Nat) {cells : List Host.Cell} {y : Host.Cell} (h : y ∈ cells) :
    ∃ x ∈ localStores b aid inst cells, ∃ l : List Host.Cell, x.kind = .store l ∧ y ∈ l :=
  ⟨_, List.mem_map_of_mem (mem_dedup.mpr (List.mem_map_of_mem h)), _, rfl, List.mem_filter.mpr ⟨h, by simp⟩⟩

theorem mem_accCells {bank ctl : BitVec 19} {o sz : Nat} {x : Nat × Nat} : x ∈ accCells bank ctl o sz ↔
    ∃ r < 16, ∃ j < ctlCols ctl, x = (accIx bank.toNat r j, o + r * ctlStride ctl + j * sz) := by
  simp only [accCells, List.mem_flatMap, List.mem_range, List.mem_map, eq_comm]

/-- Bytes of a drained element. -/
def drainSize (kind : AccstKind) : Nat := if kind = .raw then 16 else 4

theorem drainEl_length (kind : AccstKind) (w : Int) (x : AccEl) : (drainEl kind w x).length = drainSize kind := by
  cases kind <;> exact leBytes_len _ _

/-- The cells of the elements that ACCST drains, in the order it forms them. -/
def accstCells (e : WEnv) (kind : AccstKind) (bank ctl : BitVec 19) (o : Nat) : List Host.Cell :=
  (accCells bank ctl o (drainSize kind)).flatMap fun x => cellsFrom x.2 (drainEl kind (e.b.bw.getD bank.toNat 0) (e.b.getAcc x.1))

/-- What is left of them where rows overlap. -/
def accstBytes (e : WEnv) (kind : AccstKind) (bank ctl : BitVec 19) (o : Nat) : Assoc Byte :=
  (accCells bank ctl o (drainSize kind)).foldl (fun m x =>
    (cellsFrom x.2 (drainEl kind (e.b.bw.getD bank.toNat 0) (e.b.getAcc x.1))).foldl (fun m c => aset c.1 c.2 m) m) []

theorem accstBytes_eq (e : WEnv) (kind : AccstKind) (bank ctl : BitVec 19) (o : Nat) :
    accstBytes e kind bank ctl o = (accstCells e kind bank ctl o).foldl (fun m c => aset c.1 c.2 m) [] := by
  rw [accstBytes, accstCells, List.foldl_flatMap]

/-- Every byte stored is one of a drained element, at its place in the element's row. -/
theorem mem_accstBytes {e : WEnv} {kind : AccstKind} {bank ctl : BitVec 19} {o : Nat} {y : Host.Cell}
    (h : y ∈ accstBytes e kind bank ctl o) : ∃ r j k, r < 16 ∧ j < ctlCols ctl ∧ k < drainSize kind ∧
      y.1 = o + r * ctlStride ctl + j * drainSize kind + k ∧
      y.2 = (drainEl kind (e.b.bw.getD bank.toNat 0) (e.b.getAcc (accIx bank.toNat r j))).getD k 0 := by
  rw [accstBytes_eq] at h
  obtain ⟨x, hx, hy⟩ := List.mem_flatMap.mp ((mem_foldl_aset h).resolve_right List.not_mem_nil)
  obtain ⟨r, hr, j, hj, rfl⟩ := mem_accCells.mp hx
  obtain ⟨k, hk, h1, h2⟩ := mem_cellsFrom _ _ _ hy
  rw [drainEl_length] at hk
  exact ⟨r, j, k, hr, hj, hk, h1, h2⟩

/-- Every place of a drained element is stored to. -/
theorem accstBytes_cover (e : WEnv) (kind : AccstKind) (bank : BitVec 19) {ctl : BitVec 19} (o : Nat) {r j k : Nat} (hr : r < 16)
    (hj : j < ctlCols ctl) (hk : k < drainSize kind) : ∃ y ∈ accstBytes e kind bank ctl o,
      y.1 = o + r * ctlStride ctl + j * drainSize kind + k := by
  have hc : (o + r * ctlStride ctl + j * drainSize kind + k, _) ∈ accstCells e kind bank ctl o :=
    List.mem_flatMap.mpr ⟨_, mem_accCells.mpr ⟨r, hr, j, hj, rfl⟩, cellsFrom_mem _ _ k (hk.trans_eq (drainEl_length _ _ _).symm)⟩
  obtain ⟨y, hy, h⟩ := List.mem_map.mp (foldl_aset_key (m := []) (.inl (List.mem_map_of_mem (f := Prod.fst) hc)))
  exact ⟨y, (accstBytes_eq e kind bank ctl o).symm ▸ hy, h⟩

/-- Stores of an agent that does not speculate join its issue list at once. -/
theorem issueStores_plain {s : State} {b : Block} {k aid : Nat} (as : List Access) (hb : s.block k = some b)
    (h : b.specOf aid = none) : s.issueStores k aid as = s.addAccesses as := by
  unfold State.issueStores
  rw [hb]
  dsimp only
  rw [h]

/-- The block that a retired instruction leaves has the speculations it had. -/
theorem retire_keeps_spec (s : State) (e : WEnv) (i : Instr) : ∃ b', (retire s e i).block e.b.id = some b' ∧
    b'.spec = e.b.spec := by
  obtain ⟨w, hw⟩ := retire_eq s e i
  have hid : ((killMarks e.b e.eff i).setWarp w).id = e.b.id := killMarks_id e.b e.eff i
  refine ⟨(killMarks e.b e.eff i).setWarp w, ?_, killMarks_keeps (P := fun x => x.spec = e.b.spec) (fun _ _ _ h => h) e.b e.eff i rfl⟩
  rw [hw]
  exact block_setBlock_of_id s _ hid

/-- The block that ACCST leaves: the elements drained are zero where it clears them (R248). -/
def Block.drained (b : Block) (clr : Bool) (bank ctl : BitVec 19) (o sz : Nat) : Block :=
  if clr then (accCells bank ctl o sz).foldl (fun b x => b.putAcc x.1 AccEl.zero) b else b

theorem drained_acc_only (b : Block) (clr : Bool) (bank ctl : BitVec 19) (o sz : Nat) :
    b.drained clr bank ctl o sz = { b with acc := (b.drained clr bank ctl o sz).acc } := by
  cases clr
  · rfl
  · exact foldl_acc_only (fun _ _ => rfl) _ b

theorem getAcc_drained (b : Block) {bank ctl : BitVec 19} (o sz : Nat) {r j : Nat} (hr : r < 16) (hj : j < ctlCols ctl) :
    (b.drained true bank ctl o sz).getAcc (accIx bank.toNat r j) = AccEl.zero := by
  refine (getAcc_foldl_zero _ b _).trans (if_pos ?_)
  exact List.mem_map_of_mem (f := Prod.fst) (mem_accCells.mpr ⟨r, hr, j, hj, rfl⟩)

theorem exec_accst {s : State} {c : Ctl} {e : WEnv} {kind : AccstKind} {clr : Bool} {bank ctl : BitVec 19} {a : Operand} {o : Nat}
    (hne : e.eff ≠ []) (he : s.warpStart (.accst c kind clr bank a ctl) c = some e) (hs : e.b.specOf e.w.aid = none)
    (ho : accAddr e bank a ctl (drainSize kind) = .ok o) : exec (.accst c kind clr bank a ctl) s =
      .next ((retire { e.s with nextId := e.s.nextId + 1 } { e with b := e.b.drained clr bank ctl o (drainSize kind) }
        (.accst c kind clr bank a ctl)).addAccesses (localStores e.b e.w.aid e.s.nextId (accstBytes e kind bank ctl o))) := by
  have hacc := drained_acc_only e.b clr bank ctl o (drainSize kind)
  refine Eq.trans rfl (issue_warp_ok he ?_)
  dsimp only
  rw [isEmpty_eq_false hne, show accAddr e bank a ctl (if kind = .raw then 16 else 4) = .ok o from ho]
  refine congrArg Except.ok ?_
  obtain ⟨b', hb, hspec⟩ := retire_keeps_spec { e.s with nextId := e.s.nextId + 1 }
    { e with b := e.b.drained clr bank ctl o (drainSize kind) } (.accst c kind clr bank a ctl)
  refine issueStores_plain _ ((congrArg (State.block _) (congrArg Block.id hacc).symm).trans hb) ?_
  rw [Block.specOf, hspec]
  exact (congrArg (List.find? _) (congrArg Block.spec hacc)).trans hs

-- What the four words do where no lane acts, and their faults.

/-- Where no lane acts, an ACC word moves on and does nothing else (R247). -/
theorem acc_words_idle {s : State} {c : Ctl} {bank count ctl : BitVec 19} {raw clr : Bool} {kind : AccstKind} {a : Operand} {i : Instr}
    (hi : i = .accz c bank count ∨ i = .accfold c bank count ∨ i = .accld c raw bank a ctl ∨ i = .accst c kind clr bank a ctl) :
    WarpIf s i c (fun e => e.eff = []) (fun e => retire e.s e i) := by
  rcases hi with rfl | rfl | rfl | rfl
  · exact warpIf_of_body rfl fun e he => if_pos (he ▸ rfl)
  · exact warpIf_of_body rfl fun e he => if_pos (he ▸ rfl)
  · exact warpIf_of_body rfl fun e he => if_pos (he ▸ rfl)
  · exact warpIf_of_body rfl fun e he => if_pos (he ▸ rfl)

/-- A failed check of a bank is the fault of ACCZ and of ACCFOLD (R237, R247). -/
theorem acc_words_trap {s : State} {c : Ctl} {bank count : BitVec 19} {i : Instr}
    (hi : i = .accz c bank count ∨ i = .accfold c bank count) {p : WEnv → Prop} {code : Nat}
    (h : ∀ e, p e → e.eff ≠ [] ∧ accChecks e bank.toNat count.toNat = flt code bank.toNat) :
    WarpTraps s i c p fun _ => ⟨code, 0, bank.toNat, none⟩ := by
  rcases hi with rfl | rfl
  · refine warpTraps_of_body rfl fun e hp => ?_
    obtain ⟨hne, hx⟩ := h e hp
    dsimp only
    rw [isEmpty_eq_false hne, hx]
    rfl
  · refine warpTraps_of_body rfl fun e hp => ?_
    obtain ⟨hne, hx⟩ := h e hp
    dsimp only
    rw [isEmpty_eq_false hne, hx]
    rfl

end Sys2Proof.Machine
end


section
open Sys2Proof Sys2Proof.Machine

/-- Settles O41: the ACC words pass their checks or take the fault of the first bank named; WIDE elements round once and clamp, and the
chains of a register, of a split element and of a segment are one recursion over the products. -/
theorem accumulators : Obligations.Accumulators := by
  unfold Obligations.Accumulators
  refine ⟨fun s c bank count ctl raw clr kind a => ?_, fun w x s m e => ?_,
    fun m clm i n => ⟨fun acc => ?_, fun k x => ⟨fun h => ?_, fun h => ?_⟩, fun ha hb k => ?_⟩, fun fa fb a b nseg hlen hlo hhi => ?_⟩
  · refine ⟨fun e he hne hfree => ?_, fun e he hne hfree => ?_, fun e o rows he hne ho hr => exec_accld hne he ho hr,
      fun e o he hne hs ho => ?_, fun i => acc_words_idle, fun i hi => ⟨acc_words_trap hi ?_, acc_words_trap hi ?_⟩⟩
    · refine ⟨_, exec_accz hne he (accChecks_ok hfree), rfl, fun ix hix => ?_, fun ix hix => ?_⟩
      · exact (getAcc_clearBanks _ _ _ _).trans (if_pos (inBanks_iff.mpr hix))
      · exact (getAcc_clearBanks _ _ _ _).trans (if_neg (inBanks_iff.not.mpr hix))
    · refine ⟨_, exec_accfold hne he (accChecks_ok hfree), foldBanks_acc_only _ _ _, fun ix hix => ?_, fun ix hix => ?_⟩
      · exact (getAcc_foldBanks _ _ _ _).trans (if_pos (inBanks_iff.mpr hix))
      · exact (getAcc_foldBanks _ _ _ _).trans (if_neg (inBanks_iff.not.mpr hix))
    · refine ⟨_, _, exec_accst hne he hs ho, drained_acc_only _ _ _ _ _ _, ?_, ?_, fun x hx => ?_, fun r j k hr hj hk => ?_⟩
      · rintro rfl
        rfl
      · rintro rfl r hr j hj
        exact getAcc_drained e.b o _ hr hj
      · obtain ⟨hloc, hst, l, hkind, hl⟩ := mem_localStores hx
        exact ⟨hloc, hst, l, hkind, fun y hy => mem_accstBytes (hl y hy)⟩
      · obtain ⟨y, hy, hat⟩ := accstBytes_cover e kind bank o hr hj hk
        obtain ⟨x, hx, l, hkind, hl⟩ := localStores_cover e.b e.w.aid e.s.nextId hy
        exact ⟨x, hx, l, hkind, y, hl, hat⟩
    · rintro e ⟨hne, hpos, hb⟩
      exact ⟨hne, accChecks_unalloc hpos hb⟩
    · rintro e ⟨hne, hpos, hb, hf⟩
      exact ⟨hne, accChecks_inflight hpos hb hf⟩
  · obtain ⟨hlo, hhi, heven⟩ := roundAt_rne s m (e - (w - 80))
    rw [← roundAt_sub] at hlo hhi heven
    exact ⟨⟨_, hlo, hhi, heven, addWide_fin w x s m e rfl⟩, addWide_inf w x s, rfl, rfl, rfl, rfl⟩
  · exact ⟨fun k => (chains (m.product clm i n) (acc, 0) k).1, fun k => (chains (m.product clm i n) (acc, 0) k).2, rfl, rfl,
      chains_succ _ _, regResult_eq m clm i n acc⟩
  · exact stepEl_wide h clm i n k x
  · exact stepEl_split h clm i n k x
  · obtain ⟨hca, hcb⟩ := codes_unread ha hb clm i n k
    dsimp only
    rw [MatEntry.product, scaled_eq, scaled_eq, hca, hcb]
    rfl
  · exact ⟨fun j k => (chains (fun k => mxvProduct fa fb a b (1024 * j + k)) (0, 0) k).1,
      fun j k => (chains (fun k => mxvProduct fa fb a b (1024 * j + k)) (0, 0) k).2,
      segOf (mxvProduct fa fb a b) a.length, segTotal (segOf (mxvProduct fa fb a b) a.length),
      fun j => ⟨rfl, rfl, chains_succ _ _, rfl⟩, rfl, fun j => rfl, mxvTotal_eq fa fb hlen hlo hhi⟩

end

section
/-!
PROOFS. Decoding gives back what was encoded (R73, R76 to R83, R90): the shared sub-fields and typed operand fields read back, then
each layout of MOD, then every row of the encoding tables.
-/
namespace Sys2Proof

-- Typed operand fields.

@[simp] theorem absent_zero : absent .zero = some () := if_pos rfl

@[simp] theorem asImm_imm (v : BitVec 19) : asImm (.imm v) = some v := rfl

@[simp] theorem asImmOpt_immOpt (v : Option (BitVec 19)) : asImmOpt (immOpt v) = some v := by
  cases v <;> rfl

@[simp] theorem req_true : req true = some () := rfl

@[simp] theorem finOf_val {n : Nat} (k : Fin n) : finOf n k.val = some k := dif_pos k.isLt

/-- The long form's two fields hold the immediate's bits (R79). -/
@[simp] theorem asLong_long (v : BitVec 32) : asLong (longA v) (longB v) = some v := by
  have hz : (0#6 ++ v.extractLsb' 19 13).extractLsb' 13 6 = 0#6 := by
    apply BitVec.eq_of_getLsbD_eq
    intro i hi
    simp only [BitVec.getLsbD_extractLsb', BitVec.getLsbD_append]
    interval_cases i <;> simp
  have hv : (0#6 ++ v.extractLsb' 19 13).extractLsb' 0 13 ++ v.extractLsb' 0 19 = v := by
    apply BitVec.eq_of_getLsbD_eq
    intro i hi
    simp only [BitVec.getLsbD_extractLsb', BitVec.getLsbD_append]
    by_cases h : i < 19
    · simp [h]
    · simp [h, show i - 19 < 13 by omega, show 19 + (i - 19) = i by omega]
  simp only [asLong, longA, longB, hz, if_true, hv]

-- Sub-fields of MOD (R83): every code reads back.

@[simp] theorem Scope.ofCode_code (x : Scope) : Scope.ofCode x.code = some x := by cases x <;> rfl
@[simp] theorem Rel.ofCode_code (x : Rel) : Rel.ofCode x.code = some x := by cases x <;> rfl
@[simp] theorem Rnd.ofCode_code (x : Rnd) : Rnd.ofCode x.code = some x := by cases x <;> rfl
@[simp] theorem CvtCode.ofCode_code (x : CvtCode) : CvtCode.ofCode x.code = some x := by cases x <;> rfl
@[simp] theorem SfuFn.ofCode_code (x : SfuFn) : SfuFn.ofCode x.code = some x := by cases x <;> rfl
@[simp] theorem ShflMode.ofCode_code (x : ShflMode) : ShflMode.ofCode x.code = some x := by cases x <;> rfl
@[simp] theorem AgreeMode.ofCode_code (x : AgreeMode) : AgreeMode.ofCode x.code = some x := by cases x <;> rfl
@[simp] theorem LdSize.ofCode_code (x : LdSize) : LdSize.ofCode x.code = some x := by cases x <;> rfl
@[simp] theorem StSize.ofCode_code (x : StSize) : StSize.ofCode x.code = some x := by cases x <;> rfl
@[simp] theorem AqSize.ofCode_code (x : AqSize) : AqSize.ofCode x.code = some x := by cases x <;> rfl
@[simp] theorem PrefLevel.ofCode_code (x : PrefLevel) : PrefLevel.ofCode x.code = some x := by cases x <;> rfl
@[simp] theorem RedOp.ofCode_code (x : RedOp) : RedOp.ofCode x.code = some x := by cases x <;> rfl
@[simp] theorem RedFmt.ofCode_code (x : RedFmt) : RedFmt.ofCode x.code = some x := by cases x <;> rfl
@[simp] theorem RedcSize.ofCode_code (x : RedcSize) : RedcSize.ofCode x.code = some x := by cases x <;> rfl
@[simp] theorem AccstKind.ofCode_code (x : AccstKind) : AccstKind.ofCode x.code = some x := by cases x <;> rfl
@[simp] theorem Route.ofCode_code (x : Route) : Route.ofCode x.code = some x := by cases x <;> rfl
@[simp] theorem WfldKind.ofCode_code (x : WfldKind) : WfldKind.ofCode x.code = some x := by cases x <;> rfl
@[simp] theorem HoldKind.ofCode_code (x : HoldKind) : HoldKind.ofCode x.code = some x := by cases x <;> rfl
@[simp] theorem TdmaskKind.ofCode_code (x : TdmaskKind) : TdmaskKind.ofCode x.code = some x := by cases x <;> rfl

@[simp] theorem AtomOp.ofCode_code (x : AtomOp) : AtomOp.ofCode x.code = some x := by
  cases x with
  | min u | max u => cases u <;> rfl
  | _ => rfl

@[simp] theorem sgn_sgnN (u : Bool) : sgn (sgnN u) = some u := by cases u <;> rfl

@[simp] theorem predOpt_predOptNat (p : Option PReg) : predOpt (predOptNat p) = some p := by
  cases p with
  | none => rfl
  | some p => exact dif_pos p.isLt

-- How large a code is.

theorem b2n_lt (x : Bool) : b2n x < 2 := by cases x <;> decide
theorem Scope.code_lt (x : Scope) : x.code < 8 := by cases x <;> decide
theorem Rel.code_lt (x : Rel) : x.code < 8 := by cases x <;> decide
theorem Rnd.code_lt (x : Rnd) : x.code < 4 := by cases x <;> decide
theorem CvtCode.code_lt (x : CvtCode) : x.code < 16 := by cases x <;> decide
theorem SfuFn.code_lt (x : SfuFn) : x.code < 8 := by cases x <;> decide
theorem ShflMode.code_lt (x : ShflMode) : x.code < 4 := by cases x <;> decide
theorem AgreeMode.code_lt (x : AgreeMode) : x.code < 4 := by cases x <;> decide
theorem LdSize.code_lt (x : LdSize) : x.code < 8 := by cases x <;> decide
theorem StSize.code_lt (x : StSize) : x.code < 8 := by cases x <;> decide
theorem AqSize.code_lt (x : AqSize) : x.code < 4 := by cases x <;> decide
theorem PrefLevel.code_lt (x : PrefLevel) : x.code < 4 := by cases x <;> decide
theorem RedOp.code_lt (x : RedOp) : x.code < 4 := by cases x <;> decide
theorem RedFmt.code_lt (x : RedFmt) : x.code < 4 := by cases x <;> decide
theorem RedcSize.code_lt (x : RedcSize) : x.code < 4 := by cases x <;> decide
theorem AccstKind.code_lt (x : AccstKind) : x.code < 4 := by cases x <;> decide
theorem Route.code_lt (x : Route) : x.code < 8 := by cases x <;> decide
theorem WfldKind.code_lt (x : WfldKind) : x.code < 8 := by cases x <;> decide
theorem HoldKind.code_lt (x : HoldKind) : x.code < 4 := by cases x <;> decide
theorem TdmaskKind.code_lt (x : TdmaskKind) : x.code < 4 := by cases x <;> decide
theorem SeqKind.code_lt (x : SeqKind) : x.code < 4 := by cases x <;> simp [SeqKind.code]
theorem sgnN_lt (u : Bool) : sgnN u < 16 := by cases u <;> decide

theorem predOptNat_lt (p : Option PReg) : predOptNat p < 16 := by
  cases p with
  | none => decide
  | some p => exact p.isLt.trans (by norm_num)

theorem LdMode.code_lt (x : LdMode) : x.code < 64 := by
  cases x with
  | plain z => have := z.code_lt; simp only [LdMode.code]; omega
  | acq z s => have := z.code_lt; have := s.code_lt; simp only [LdMode.code]; omega

theorem StMode.code_lt (x : StMode) : x.code < 64 := by
  cases x with
  | plain z => have := z.code_lt; simp only [StMode.code]; omega
  | rel z s => have := z.code_lt; have := s.code_lt; simp only [StMode.code]; omega

theorem AtomOp.code_lt (x : AtomOp) : x.code < 16 := by
  cases x with
  | min u | max u => cases u <;> decide
  | _ => decide

theorem AcasOrd.code_lt (x : AcasOrd) : x.code < 54 := by cases x with
  | relaxed => decide
  | acq s | rel s | acqrel s => cases s <;> decide

-- The layouts of MOD: each sub-field is read back from beside the others.

theorem sense_layout (x : Bool) : (16 * b2n x) % 16 = 0 ∧ 16 * b2n x < 32 ∧ bit (16 * b2n x) 4 = x := by
  cases x <;> decide

theorem flag_layout (x : Bool) : b2n x ≤ 1 ∧ bit (b2n x) 0 = x := by cases x <;> decide

theorem depth_layout (x : Bool) (d : BitVec 4) : 16 * b2n x + d.toNat < 32 ∧ bit (16 * b2n x + d.toNat) 4 = x ∧
    BitVec.ofNat 4 (16 * b2n x + d.toNat) = d := by
  have hd := d.isLt
  refine ⟨by have := b2n_lt x; omega, ?_, ?_⟩
  · have hq : (16 * b2n x + d.toNat) / 2 ^ 4 = b2n x := by omega
    rw [bit, hq]
    cases x <;> rfl
  · apply BitVec.eq_of_toNat_eq
    rw [BitVec.toNat_ofNat]
    omega

@[simp] theorem rndOnly_code (x : Rnd) : rndOnly (16 * x.code) = some x := by cases x <;> rfl

@[simp] theorem rndFmt_code (x : Rnd) (f : Bool) : rndFmt (16 * x.code + b2n f) = some (x, f) := by
  cases x <;> cases f <;> rfl

theorem cvt_layout (x : Rnd) (k : CvtCode) :
    (16 * x.code + k.code) % 16 = k.code ∧ (16 * x.code + k.code) / 16 = x.code := by
  have := k.code_lt
  omega

theorem cvt8_mode_layout (x : Rnd) (s : Bool) : let m := 16 * x.code + 8 * b2n s
    m % 4 = 0 ∧ m / 16 = x.code ∧ bit m 2 = false ∧ bit m 3 = s := by
  cases x <;> cases s <;> decide

theorem cvt8_sr_layout (s : Bool) : let m := 8 * b2n s + 4
    m % 4 = 0 ∧ m / 16 = Rnd.code .rne ∧ bit m 2 = true ∧ bit m 3 = s := by
  cases s <;> decide

theorem rel_layout (x : Rel) (u : Bool) : let m := x.code + sgnN u
    m < 16 ∧ m % 8 = x.code ∧ bit m 3 = u := by
  cases x <;> cases u <;> decide

theorem truth_layout (t : BitVec 4) : t.toNat < 16 ∧ BitVec.ofNat 4 t.toNat = t :=
  ⟨t.isLt, by simp⟩

theorem shfl_layout (k : ShflMode) (p : Option PReg) : (k.code + 4 * predOptNat p) % 4 = k.code ∧
    (k.code + 4 * predOptNat p) / 4 = predOptNat p := by
  have := k.code_lt
  omega

theorem agree_layout (k : AgreeMode) (s : Bool) : let m := k.code + 4 * b2n s
    m < 8 ∧ m % 4 = k.code ∧ bit m 2 = s := by
  cases k <;> cases s <;> decide

@[simp] theorem LdMode.ofCode_code (x : LdMode) : LdMode.ofCode x.code = some x := by
  cases x with
  | plain z => cases z <;> rfl
  | acq z s => cases z <;> cases s <;> rfl

@[simp] theorem StMode.ofCode_code (x : StMode) : StMode.ofCode x.code = some x := by
  cases x with
  | plain z => cases z <;> rfl
  | rel z s => cases z <;> cases s <;> rfl

theorem acas_layout (x : AcasOrd) (e : Bool) : let m := x.code + 8 * b2n e
    AcasOrd.ofCode (m / 16) (m % 8) = some x ∧ bit m 3 = e := by
  cases x with
  | relaxed => cases e <;> decide
  | acq s | rel s | acqrel s => cases s <;> cases e <;> decide

theorem redM_layout (x : RedOp) (f : RedFmt) : let m := x.code + 4 * f.code
    m < 16 ∧ m % 4 = x.code ∧ m / 4 = f.code := by
  cases x <;> cases f <;> decide

theorem ldas_layout (p : Option PReg) (z : Bool) : let m := predOptNat p + 16 * b2n z
    m < 32 ∧ m % 16 = predOptNat p ∧ bit m 4 = z := by
  have hp := predOptNat_lt p
  have hz := b2n_lt z
  have hq : (predOptNat p + 16 * b2n z) / 2 ^ 4 = b2n z := by omega
  refine ⟨by omega, by omega, ?_⟩
  rw [bit, hq]
  cases z <;> rfl

theorem tag_layout (x : Bool) (t : Fin 4) : let m := b2n x + 2 * t.val
    m < 8 ∧ m / 2 = t.val ∧ bit m 0 = x := by
  revert x t
  decide

theorem accst_layout (k : AccstKind) (z : Bool) : let m := k.code + 4 * b2n z
    m < 8 ∧ m % 4 = k.code ∧ bit m 2 = z := by
  cases k <;> cases z <;> decide

theorem queue_layout (q : QReg) (k : Nat) : (q.val + 8 * k) % 8 = q.val ∧ (q.val + 8 * k) / 8 = k := by
  have := q.isLt
  omega

theorem baseQueue_layout (q : Fin 4) (k : Nat) : (q.val + 4 * k) % 4 = q.val ∧ (q.val + 4 * k) / 4 = k := by
  have := q.isLt
  omega

theorem mgath_layout (q : Fin 4) (g s : Bool) : let m := q.val + 4 * b2n g + 8 * b2n s
    m < 16 ∧ m % 4 = q.val ∧ bit m 2 = g ∧ bit m 3 = s := by
  revert q g s
  decide

theorem mconv_layout (q : Fin 4) : (q.val + 4 < 8 ∧ (q.val + 4) % 4 = q.val ∧ bit (q.val + 4) 2 = true) ∧
    q.val < 8 ∧ q.val % 4 = q.val ∧ bit q.val 2 = false := by
  revert q
  decide

@[simp] theorem seqKind_code (k : SeqKind) : seqKind k.code k.op = some k := by cases k <;> rfl

-- The encoding tables, group by group (R89).

theorem build_raw {i : Instr} {r : Raw} (h : i.raw = some r) : r.build = some i := by
  cases i with
  | nop | brd | brx | ret | brq | movq | elseFlip | endIf | loop | endl | bar | barTeam =>
    cases h; simp [Raw.build, build0]
  | br c off | call c d off => cases off <;> cases h <;> simp [Raw.build, build0, Off.raw, asOff]
  | ifOpen c x p => cases h; simp [Raw.build, build0, sense_layout, asFin_regOf]
  | brkLoop c x d p | cont c x d p => cases h; simp [Raw.build, build0, depth_layout, asFin_regOf]
  | mov c d a => cases a <;> cases h <;> simp [Raw.build, build1]
  | iadd | isub | imul | imulhi | imad | idiv | irem | imin | imax | iabs | and | or | xor | not | shl | shr | popc | clz | brev
  | bfe | bfi | sel => cases h; simp [Raw.build, build1]
  | fadd | fsub | fmul | ffma | fmin | fmax | fabs | fneg | pkadd | pkmul | pkfma => cases h; simp [Raw.build, build2]
  | pkmin | pkmax => cases h; simp [Raw.build, build2, flag_layout]
  | cvt c k x => cases h; simp [Raw.build, build3, cvt_layout, -Nat.mul_add_mod_self_left]
  | cvt8 c x s => cases x <;> cases h <;> simp [Raw.build, build3, cvt8_mode_layout, cvt8_sr_layout]
  | cvtf8 | sfu => cases h; simp [Raw.build, build3]
  | iset => cases h; simp [Raw.build, build4, rel_layout, asFin_regOf]
  | fset | pmov | pmovP | remap | xwin | xset => cases h; simp [Raw.build, build4, asFin_regOf]
  | plop => cases h; simp [Raw.build, build4, truth_layout, asFin_regOf]
  | shfl => cases h; simp [Raw.build, build4, shfl_layout, -Nat.add_mul_mod_self_left]
  | agree => cases h; simp [Raw.build, build4, agree_layout, asFin_regOf, -Nat.add_mul_mod_self_left]
  | ballot => cases h; simp [Raw.build, build4, flag_layout, asFin_regOf]
  | msr c sp => cases sp <;> cases h <;> simp [Raw.build, build4]
  | ld | st | ldl | stl | pref | fence | clean | inval => cases h; simp [Raw.build, build5]
  | atom | redC | clk | cwait | bara | barw | tdclr => cases h; simp [Raw.build, build6, asFin_regOf]
  | acas => cases h; simp [Raw.build, build6, acas_layout, -Nat.add_mul_mod_self_left]
  | redM => cases h; simp [Raw.build, build6, redM_layout, -Nat.add_mul_mod_self_left]
  | sts => cases h; simp [Raw.build, build6, flag_layout]
  | ldas => cases h; simp [Raw.build, build6, ldas_layout, -Nat.add_mul_mod_self_left]
  | mma | mmaA | accld => cases h; simp [Raw.build, build7, flag_layout]
  | mmaS => cases h; simp [Raw.build, build7, tag_layout]
  | mcommit | mwait | accz | accfold | shcommit | shdrop => cases h; simp [Raw.build, build7]
  | accst => cases h; simp [Raw.build, build7, accst_layout, -Nat.add_mul_mod_self_left]
  | cpy | cpys | cpyx => cases h; simp [Raw.build, build8, queue_layout, -Nat.add_mul_mod_self_left]
  | seqrd c q k =>
    have hm : q.val + 8 * k.code < 32 := by have := k.code_lt; omega
    cases h; simp [Raw.build, build8, hm, queue_layout, -Nat.add_mul_mod_self_left]
  | qfence | seqwait | stinit | starr | stwait | hrev => cases h; simp [Raw.build, build8, asFin_regOf]
  | mgath => cases h; simp [Raw.build, build9, mgath_layout, -Nat.add_mul_mod_self_left]
  | mconvCvt | mconvStripe => cases h; simp [Raw.build, build9, mconv_layout]
  | mrstat c q k =>
    have hm : q.val + 4 * k.code < 16 := by have := k.code_lt; omega
    cases h; simp [Raw.build, build9, hm, baseQueue_layout, -Nat.add_mul_mod_self_left]
  | mxv | mseqwait => cases h; simp [Raw.build, build9]
  | npost | nwait | rngpeek | rngadv | nqfence => cases h; simp [Raw.build, build10]
  | ncnt => cases h; simp [Raw.build, build10, flag_layout]
  | rngstatPeek | rngstatReset => cases h; simp [Raw.build, build10, bit]
  | spawn | spawnr | joindec | exit | exitJ | exitK | yieldTeam | tret | tretSkip | wfld | claim | take | taket | give | giveall
  | hold => cases h; simp [Raw.build, build11, asFin_regOf]
  | smov c d a => cases a <;> cases h <;> simp [Raw.build, build12, asFin_regOf]
  | smovh | sadd | ssub | smul | smulhi | sdiv | srem | smin | smax | sand | sor | sxor | sshl | sshr | spopc | sclz | ssel | sbrx
  | sret | wwaitDq | wwaitExit => cases h; simp [Raw.build, build12, asFin_regOf]
  | sset => cases h; simp [Raw.build, build12, rel_layout, asFin_regOf]
  | qlop => cases h; simp [Raw.build, build12, truth_layout, asFin_regOf]
  | sbr c off => cases off <;> cases h <;> simp [Raw.build, build12, Off.raw, asOff]
  | scall c d t => cases t <;> cases h <;> simp [Raw.build, build12, asFin_regOf]
  | dqpush c a => cases a <;> cases h <;> simp [Raw.build, build12]
  | svc | svcp | trap | brk | tdmask => cases h; simp [Raw.build, build13]
  | _ => cases h

/-- An instruction's fields carry its guard and hint, and an assigned opcode (R73, R89). -/
theorem raw_ctl {i : Instr} {r : Raw} (h : i.raw = some r) : i.ctl = some r.ctl ∧ opcAssigned r.opc = true := by
  cases i with
  | br c off | call c d off | sbr c off => cases off <;> cases h <;> exact ⟨rfl, rfl⟩
  | mov c d a | smov c d a | dqpush c a => cases a <;> cases h <;> exact ⟨rfl, rfl⟩
  | cvt8 c x => cases x <;> cases h <;> exact ⟨rfl, rfl⟩
  | msr c sp => cases sp <;> cases h <;> exact ⟨rfl, rfl⟩
  | scall c d t => cases t <;> cases h <;> exact ⟨rfl, rfl⟩
  | _ => cases h <;> exact ⟨rfl, rfl⟩

theorem opcAssigned_lt {n : Nat} (h : opcAssigned n = true) : n < 1024 := by
  simp only [opcAssigned, Bool.or_eq_true, Bool.and_eq_true, decide_eq_true_eq] at h
  omega

/-- MOD has six bits (R73). -/
theorem raw_mod_lt {i : Instr} {r : Raw} (h : i.raw = some r) : r.mod < 64 := by
  cases i with
  | br c off | call c d off | sbr c off => cases off <;> cases h <;> dsimp only [Off.raw] <;> omega
  | mov c d a | smov c d a | dqpush c a => cases a <;> cases h <;> dsimp only <;> omega
  | msr c sp => cases sp <;> cases h <;> dsimp only <;> omega
  | scall c d t => cases t <;> cases h <;> dsimp only <;> omega
  | cvt8 c x s => cases x with
    | mode x => cases h; have := x.code_lt; have := b2n_lt s; dsimp only; omega
    | sr => cases h; have := b2n_lt s; dsimp only; omega
  | ifOpen c x => cases h; have := b2n_lt x; dsimp only; omega
  | brkLoop c x d | cont c x d => cases h; have := b2n_lt x; have := d.isLt; dsimp only; omega
  | pkadd c x f | pkmul c x f | pkfma c x f => cases h; have := x.code_lt; have := b2n_lt f; dsimp only; omega
  | cvt c k x => cases h; have := k.code_lt; have := x.code_lt; dsimp only; omega
  | fadd c x | fsub c x | fmul c x | ffma c x | cvtf8 c x => cases h; have := x.code_lt; dsimp only; omega
  | iset c x u | sset c x u => cases h; have := x.code_lt; have := sgnN_lt u; dsimp only; omega
  | plop c t | qlop c t | trap c t => cases h; have := t.isLt; dsimp only; omega
  | shfl c k p => cases h; have := k.code_lt; have := predOptNat_lt p; dsimp only; omega
  | ldas c p z => cases h; have := predOptNat_lt p; have := b2n_lt z; dsimp only; omega
  | agree c k s | accst c k s => cases h; have := k.code_lt; have := b2n_lt s; dsimp only; omega
  | acas c z o => cases h; have := o.code_lt; have := b2n_lt z; dsimp only; omega
  | redM c o f => cases h; have := o.code_lt; have := f.code_lt; dsimp only; omega
  | cpy c q k | cpys c q k | cpyx c q k | seqrd c q k | mrstat c q k => cases h; have := k.code_lt; dsimp only; omega
  | mmaS c x t => cases h; have := b2n_lt x; dsimp only; omega
  | mgath c q x y => cases h; have := b2n_lt x; have := b2n_lt y; dsimp only; omega
  | imulhi c u | idiv c u | irem c u | imin c u | imax c u | shr c u | bfe c u | smulhi c u | sdiv c u | srem c u | smin c u
  | smax c u | sshr c u => cases h; have := sgnN_lt u; dsimp only; omega
  | pkmin c f | pkmax c f | ballot c f | sts c f | mma c f | mmaA c f | accld c f | ncnt c f =>
    cases h; have := b2n_lt f; dsimp only; omega
  | fset c k | sfu c k | ld c k | st c k | ldl c k | stl c k | pref c k | fence c k | atom c k | redC c k | wfld c k | hold c k
  | tdmask c k => cases h; have := k.code_lt; dsimp only; omega
  | _ => cases h <;> dsimp only <;> omega

/-- A well-formed instruction other than a reserved opcode has a guard that some engine accepts (R81, R82). -/
theorem wf_guard {i : Instr} {c : Ctl} (hc : i.ctl = some c) (h : i.wf = true) :
    c.guard.okOn .warp = true ∨ c.guard.okOn .seq = true := by
  have hon (e : Engine) (he : i.wfOn e = true) : c.guard.okOn e = true := by
    unfold Instr.wfOn at he
    rw [hc] at he
    split at he
    · simp_all
    · cases he
  have hwf : i.wfOn .warp = true ∨ i.wfOn .seq = true := by
    unfold Instr.wf at h
    split at h
    · cases hc
    · simpa using h
  exact hwf.imp (hon _) (hon _)

/-- The opcode of an encoded word (R73). -/
theorem toWord_opc {r : Raw} (h : r.opc < 1024) : (r.toWord.extractLsb' 86 10).toNat = r.opc := by
  have hw := word_parts (BitVec.ofNat 10 r.opc) (BitVec.ofNat 6 r.mod) r.d.toBits r.a.toBits r.b.toBits r.ctl.guard.grd
    r.ctl.guard.gsn r.ctl.yld r.ctl.stall
  obtain ⟨ho, -⟩ := hw
  rw [Raw.toWord, ho, BitVec.toNat_ofNat, Nat.mod_eq_of_lt h]

/-- The fields of an encoded word read back (R73, R76, R81). -/
theorem ofWord_toWord {r : Raw} (ho : r.opc < 1024) (hm : r.mod < 64)
    (hg : r.ctl.guard.okOn .warp = true ∨ r.ctl.guard.okOn .seq = true) : Raw.ofWord r.toWord = .ok r := by
  obtain ⟨h1, h2, h3, h4, h5, h6, h7, h8, h9⟩ := word_parts (BitVec.ofNat 10 r.opc) (BitVec.ofNat 6 r.mod) r.d.toBits r.a.toBits
    r.b.toBits r.ctl.guard.grd r.ctl.guard.gsn r.ctl.yld r.ctl.stall
  simp only [Raw.ofWord, Raw.toWord, h1, h2, h3, h4, h5, h6, h7, h8, h9, operand_bits, guard_bits _ hg, BitVec.toNat_ofNat,
    Nat.mod_eq_of_lt ho, Nat.mod_eq_of_lt hm]

/-- A word with fields decodes to the instruction that has them. -/
theorem decode_toWord {i : Instr} {r : Raw} (hr : i.raw = some r) (hwf : i.wf = true) : decode r.toWord = .ok i := by
  obtain ⟨hc, hopc⟩ := raw_ctl hr
  have hlt := opcAssigned_lt hopc
  simp only [decode, toWord_opc hlt, hopc, if_true, ofWord_toWord hlt (raw_mod_lt hr) (wf_guard hc hwf), build_raw hr, hwf]

end Sys2Proof
end

section
open Sys2Proof Sys2Proof.Machine

/-- Settles O57: a reserved opcode keeps its word, and every field of another instruction's word reads back. -/
theorem decodeEncode : Obligations.DecodeEncode := by
  unfold Obligations.DecodeEncode
  intro i w hwf hw
  cases hr : i.raw with
  | some r =>
    rw [encode_raw i r hr] at hw
    cases hw
    exact decode_toWord hr hwf
  | none =>
    unfold encode at hw
    split at hw
    · cases hw
      have hopc : opcAssigned (w.extractLsb' 86 10).toNat = false := by simpa [Instr.wf] using hwf
      simp only [decode, hopc, Bool.false_eq_true, if_false]
    · rw [hr] at hw
      cases hw

end

section
/-!
PROOFS. When a fixed-latency result shows (R86, R143, R193): the block with the results due by a distance, what a reader sees of it, and
what the newest result adds.
-/
namespace Sys2Proof.Machine

-- Results that take effect.

/-- The block in which the results that are due by a reading of the distance clock have taken effect (R86). -/
def Block.settledAt (b : Block) (clk : Nat) (l : List Pend) : Block := (settleList clk false b [] l).1

/-- The newest result takes effect on top of the others where it is due. -/
theorem settledAt_append (b : Block) (clk : Nat) (l : List Pend) (p : Pend) :
    b.settledAt clk (l ++ [p]) = if p.due ≤ clk then (b.settledAt clk l).putCells p.vals else b.settledAt clk l := by
  rw [Block.settledAt, settle_append, settleList, Bool.false_or]
  by_cases h : p.due ≤ clk
  · simp only [h, decide_true, if_true]; rfl
  · simp only [h, decide_false, Bool.false_eq_true, if_false]; rfl

theorem settledAt_keeps {P : Block → Prop} (h : ∀ x c n, P x → P (x.putCell c n)) {b : Block} (clk : Nat) (l : List Pend) (hb : P b) :
    P (b.settledAt clk l) := settleList_keeps h clk false l b [] hb

theorem putCells_append (l m : List (Cell × Nat)) : ∀ b : Block, b.putCells (l ++ m) = (b.putCells l).putCells m := by
  induction l with
  | nil => exact fun _ => rfl
  | cons p t ih => exact fun b => ih _

/-- Writes of cells and the putting back of a warp do not meet. -/
theorem putCell_setWarp (b : Block) (w : Warp) (c : Cell) (x : Nat) : (b.setWarp w).putCell c x = (b.putCell c x).setWarp w := by
  cases c with
  | s n => simp only [Block.putCell, setWarp_seq]; split <;> rfl
  | _ => rfl

theorem putCells_setWarp (w : Warp) (l : List (Cell × Nat)) : ∀ b : Block, (b.setWarp w).putCells l = (b.putCells l).setWarp w := by
  induction l with
  | nil => exact fun _ => rfl
  | cons p t ih => intro b; rw [Block.putCells, putCell_setWarp, ih]; rfl

theorem settledAt_setWarp (b : Block) (w : Warp) (clk : Nat) (l : List Pend) :
    (b.setWarp w).settledAt clk l = (b.settledAt clk l).setWarp w := by
  have go (l : List Pend) : ∀ (b : Block) (d : List Pend),
      (settleList clk false (b.setWarp w) d l).1 = (settleList clk false b d l).1.setWarp w := by
    induction l with
    | nil => exact fun _ _ => rfl
    | cons p t ih =>
      intro b d
      simp only [settleList, putCells_setWarp]
      split <;> exact ih _ _
  exact go l b []

@[simp] theorem putCell_parked (b : Block) (c : Cell) (x : Nat) : (b.putCell c x).parked = b.parked := by
  cases c with
  | s n => simp only [Block.putCell]; split <;> rfl
  | _ => rfl

@[simp] theorem settledAt_parked (b : Block) (clk : Nat) (l : List Pend) : (b.settledAt clk l).parked = b.parked :=
  settledAt_keeps (P := fun x => x.parked = b.parked) (fun _ _ _ h => (putCell_parked _ _ _).trans h) clk l rfl

@[simp] theorem killMarks_parked (b : Block) (eff : List (Nat × Nat)) (i : Instr) : (killMarks b eff i).parked = b.parked :=
  killMarks_keeps (P := fun x => x.parked = b.parked) (fun _ _ _ h => h) b eff i rfl

/-- Results only clear dead marks (R141). -/
theorem putCell_dead (b : Block) (c : Cell) (x : Nat) {t n : Nat} (h : (b.thread t).isDead n = false) :
    ((b.putCell c x).thread t).isDead n = false := by
  cases c with
  | v u m =>
    by_cases hm : (u, m) = (t, n)
    · cases hm
      rw [putCell_v]
      split
      · exact isDead_clearDead _ _
      · exact h
    · exact (putCell_v_read b u m x t n hm h).2
  | p u m | x u m =>
    rw [Block.putCell, thread_modThread]
    split
    · next hu => obtain ⟨rfl, -⟩ := hu; exact h
    · exact h
  | xwin u m => exact h
  | s m =>
    simp only [Block.putCell]
    split <;> exact h

-- The last write of a cell decides what is read back.

/-- A list of writes of distinct cells gives what the write of one of them gives, for a reading that the other cells leave alone. -/
theorem putCells_reads {α : Type} {g : Block → α} {Q : Block → Prop} {c : Cell} {x : Nat} {y : α}
    (hset : ∀ b, Q b → g (b.putCell c x) = y) (hother : ∀ b c' z, c' ≠ c → g (b.putCell c' z) = g b)
    (hQ : ∀ b c' z, Q b → Q (b.putCell c' z)) (l : List (Cell × Nat)) (hn : (l.map Prod.fst).Nodup) (hm : (c, x) ∈ l) :
    ∀ b, Q b → g (b.putCells l) = y := by
  have hrest (l : List (Cell × Nat)) (hc : c ∉ l.map Prod.fst) : ∀ b : Block, g (b.putCells l) = g b := by
    induction l with
    | nil => exact fun _ => rfl
    | cons p t ih =>
      rw [List.map_cons, List.mem_cons, not_or] at hc
      exact fun b => (ih hc.2 _).trans (hother b p.1 p.2 (Ne.symm hc.1))
  induction l with
  | nil => cases hm
  | cons p t ih =>
    obtain ⟨hp, ht⟩ := List.nodup_cons.mp hn
    intro b hb
    rcases List.mem_cons.mp hm with rfl | hm
    · exact (hrest t hp _).trans (hset b hb)
    · exact ih ht hm _ (hQ b p.1 p.2 hb)

theorem getP_putP (t : Thread) {n : Nat} (x : Bool) (h : n < 12) : (t.putP n x).getP n = x := by
  cases x <;> simp [Thread.putP, Thread.getP, h]

theorem getP_putP_ne (t : Thread) {n m : Nat} (x : Bool) (h : m ≠ n) : (t.putP m x).getP n = t.getP n := by
  have hbit : (1#12 <<< m).getLsbD n = false := by
    rw [BitVec.getLsbD_shiftLeft, BitVec.getLsbD_one]
    simp
    omega
  cases x with
  | true => simp only [Thread.putP, Thread.getP, if_true, BitVec.getLsbD_or, hbit, Bool.or_false]
  | false =>
    simp only [Thread.putP, Thread.getP, Bool.false_eq_true, if_false, BitVec.getLsbD_and, BitVec.getLsbD_not, hbit, Bool.not_false,
      Bool.and_true]
    by_cases hn : n < 12
    · simp [hn]
    · simp [BitVec.getLsbD_of_ge t.p n (by omega)]

/-- A predicate is left alone by the writes of every other cell. -/
theorem getP_putCell_ne (b : Block) {t n : Nat} {c : Cell} (x : Nat) (h : c ≠ .p t n) :
    ((b.putCell c x).thread t).getP n = (b.thread t).getP n := by
  cases c with
  | v u m | x u m =>
    rw [Block.putCell, thread_modThread]
    split
    · next hu => obtain ⟨rfl, -⟩ := hu; rfl
    · rfl
  | p u m =>
    rw [Block.putCell, thread_modThread]
    split
    · next hu =>
      obtain ⟨rfl, -⟩ := hu
      exact getP_putP_ne _ _ fun hm => h (hm ▸ rfl)
    · rfl
  | xwin u m => rfl
  | s m => simp only [Block.putCell]; split <;> rfl

/-- So is an index register. -/
theorem getX_putCell_ne (b : Block) {t n : Nat} {c : Cell} (x : Nat) (h : c ≠ .x t n) :
    ((b.putCell c x).thread t).getX n = (b.thread t).getX n := by
  cases c with
  | v u m | p u m =>
    rw [Block.putCell, thread_modThread]
    split
    · next hu => obtain ⟨rfl, -⟩ := hu; rfl
    · rfl
  | x u m =>
    rw [Block.putCell, thread_modThread]
    split
    · next hu =>
      obtain ⟨rfl, -⟩ := hu
      have hm : m ≠ n := fun hm => h (hm ▸ rfl)
      simp [Thread.putX, Thread.getX, hm]
    · rfl
  | xwin u m => rfl
  | s m => simp only [Block.putCell]; split <;> rfl

/-- So is a window register. -/
theorem xwin_putCell_ne (b : Block) {k n : Nat} {c : Cell} (x : Nat) (h : c ≠ .xwin k n) :
    ((b.putCell c x).home (32 * k)).xwin.getD n (0, 0) = (b.home (32 * k)).xwin.getD n (0, 0) := by
  cases c with
  | v u m | p u m | x u m => rfl
  | xwin u m =>
    by_cases hu : u = k
    · subst hu
      have hm : m ≠ n := fun hm => h (hm ▸ rfl)
      simp only [Block.putCell, Block.home, List.getD_eq_getElem?_getD, List.getElem?_modify, Nat.mul_div_cancel_left _ (Nat.succ_pos 31)]
      cases b.homes[u]? with
      | none => rfl
      | some y => simp [hm]
    · simp only [Block.putCell, Block.home, List.getD_eq_getElem?_getD, List.getElem?_modify, Nat.mul_div_cancel_left _ (Nat.succ_pos 31), hu,
        if_false]
      cases b.homes[k]? <;> rfl
  | s m => simp only [Block.putCell]; split <;> rfl

/-- Two blocks have as many threads and home warps, with as many index and window registers each. -/
structure Block.SameShape (a b : Block) : Prop where
  threads : b.threads.length = a.threads.length
  x : ∀ t, (b.thread t).x.length = (a.thread t).x.length
  homes : b.homes.length = a.homes.length
  xwin : ∀ t, (b.home t).xwin.length = (a.home t).xwin.length

theorem Block.SameShape.refl (a : Block) : a.SameShape a := ⟨rfl, fun _ => rfl, rfl, fun _ => rfl⟩

theorem sameShape_modThread {a b : Block} (h : a.SameShape b) (t : Nat) {f : Thread → Thread}
    (hf : ∀ th, (f th).x.length = th.x.length) : a.SameShape (b.modThread t f) := by
  refine ⟨(modThread_len _ _ _).trans h.threads, fun u => ?_, h.homes, h.xwin⟩
  rw [thread_modThread]
  split
  · next hu => obtain ⟨rfl, -⟩ := hu; exact (hf _).trans (h.x t)
  · exact h.x u

theorem sameShape_putCell {a b : Block} (h : a.SameShape b) (c : Cell) (x : Nat) : a.SameShape (b.putCell c x) := by
  cases c with
  | v t n | p t n => simp only [Block.putCell]; exact sameShape_modThread h t fun _ => rfl
  | x t n => simp only [Block.putCell]; exact sameShape_modThread h t fun _ => List.length_set
  | s n => simp only [Block.putCell]; split <;> exact ⟨h.threads, h.x, h.homes, h.xwin⟩
  | xwin k n =>
    refine ⟨h.threads, h.x, (List.length_modify _ _ _).trans h.homes, fun u => (?_ : _ = _).trans (h.xwin u)⟩
    simp only [Block.putCell, Block.home, List.getD_eq_getElem?_getD, List.getElem?_modify]
    cases b.homes[u / 32]? with
    | none => rfl
    | some y => by_cases hk : k = u / 32 <;> simp [hk]

theorem sameShape_killMarks (b : Block) (eff : List (Nat × Nat)) (i : Instr) : b.SameShape (killMarks b eff i) :=
  killMarks_keeps (P := fun x => b.SameShape x) (fun _ t _ h => sameShape_modThread h t fun _ => rfl) b eff i (.refl b)

/-- Writes of distinct cells give each predicate, index register and window that is among them its value. -/
theorem getP_putCells {b a : Block} (hs : a.SameShape b) {l : List (Cell × Nat)} (hn : (l.map Prod.fst).Nodup) {t n x : Nat}
    (hm : (Cell.p t n, x) ∈ l) (h : n < 12) (ht : t < a.threads.length) : ((b.putCells l).thread t).getP n = (x % 2 == 1) :=
  putCells_reads (g := fun b => (b.thread t).getP n) (Q := fun b => a.SameShape b)
    (fun b hb => by
      rw [Block.putCell, thread_modThread, if_pos ⟨rfl, hb.threads ▸ ht⟩]
      exact getP_putP _ _ h)
    (fun b _ z hc => getP_putCell_ne b z hc) (fun _ c z hb => sameShape_putCell hb c z) l hn hm b hs

theorem getX_putCells {b a : Block} (hs : a.SameShape b) {l : List (Cell × Nat)} (hn : (l.map Prod.fst).Nodup) {t n x : Nat}
    (hm : (Cell.x t n, x) ∈ l) (h : n < (a.thread t).x.length) (ht : t < a.threads.length) :
    ((b.putCells l).thread t).getX n = BitVec.ofNat 16 x :=
  putCells_reads (g := fun b => (b.thread t).getX n) (Q := fun b => a.SameShape b)
    (fun b hb => by
      rw [Block.putCell, thread_modThread, if_pos ⟨rfl, hb.threads ▸ ht⟩]
      simp [Thread.putX, Thread.getX, hb.x t ▸ h])
    (fun b _ z hc => getX_putCell_ne b z hc) (fun _ c z hb => sameShape_putCell hb c z) l hn hm b hs

theorem xwin_putCells {b a : Block} (hs : a.SameShape b) {l : List (Cell × Nat)} (hn : (l.map Prod.fst).Nodup) {k n x : Nat}
    (hm : (Cell.xwin k n, x) ∈ l) (hk : k < a.homes.length) (h : n < (a.home (32 * k)).xwin.length) :
    ((b.putCells l).home (32 * k)).xwin.getD n (0, 0) = (x / 512, x % 512) :=
  putCells_reads (g := fun b => (b.home (32 * k)).xwin.getD n (0, 0)) (Q := fun b => a.SameShape b)
    (fun b hb => by
      have hk' : k < b.homes.length := hb.homes ▸ hk
      have hn' : n < b.homes[k].xwin.length := by
        have := hb.xwin (32 * k) ▸ h
        simpa [Block.home, hk'] using this
      simp [Block.putCell, Block.home, hk', hn'])
    (fun b _ z hc => xwin_putCell_ne b z hc) (fun _ c z hb => sameShape_putCell hb c z) l hn hm b hs

-- A reader at a distance.

theorem homeBinds_congr {b b' : Block} (h : b'.parked = b.parked) (t n : Nat) : homeBinds b' t n = homeBinds b t n := by
  rw [homeBinds, h]; rfl

/-- What a reader at a distance sees of a V register (R86, R141, R143). -/
theorem readAt_eq (b : Block) (w : Warp) (clk t n : Nat) : b.readAt w clk t n =
    if boundV b w t n then poison
    else if ((b.settledAt clk w.pend).thread t).isDead n then poison
    else match bypFind t n w.byp with
      | some (due, x) => if due ≤ clk then x else ((b.settledAt clk w.pend).thread t).getV n
      | none => ((b.settledAt clk w.pend).thread t).getV n := by
  have hp : (settle b { w with clock := clk }).1.parked = b.parked := settledAt_parked b clk w.pend
  have hb : boundV (settle b { w with clock := clk }).1 (settle b { w with clock := clk }).2 t n = boundV b w t n := by
    rw [boundV, homeBinds_congr hp]; rfl
  simp only [Block.readAt, readV, hb]
  rfl

section
variable {b : Block} {w : Warp} {clk t n : Nat}

/-- A result in the bypass that is past its latency is what is read. -/
theorem readAt_bypass {due : Nat} {x : Word32} (hb : boundV b w t n = false)
    (hd : ((b.settledAt clk w.pend).thread t).isDead n = false) (hf : bypFind t n w.byp = some (due, x)) (hle : due ≤ clk) :
    b.readAt w clk t n = x := by
  simp only [readAt_eq, hb, hd, hf, hle, Bool.false_eq_true, if_false, if_true]

/-- A result in the bypass that is before its latency hides the older ones: the register file is read. -/
theorem readAt_early {due : Nat} {x : Word32} (hf : bypFind t n w.byp = some (due, x)) (hlt : clk < due) :
    b.readAt w clk t n = b.readAt { w with byp := [] } clk t n := by
  have hb : boundV b { w with byp := [] } t n = boundV b w t n := rfl
  simp only [readAt_eq, hb, hf, Nat.not_le.mpr hlt, if_false, bypFind]

/-- Without a bypass the register file is read. -/
theorem readAt_file (hb : boundV b w t n = false) (hd : ((b.settledAt clk w.pend).thread t).isDead n = false) :
    b.readAt { w with byp := [] } clk t n = ((b.settledAt clk w.pend).thread t).getV n := by
  have hb' : boundV b { w with byp := [] } t n = false := hb
  simp only [readAt_eq, hb', hd, Bool.false_eq_true, if_false, bypFind]

/-- Two blocks with the same bound registers and the same settled thread read alike from the register file. -/
theorem readAt_file_congr {b' : Block} {w' : Warp} (hb : boundV b' w' t n = boundV b w t n)
    (ht : (b'.settledAt clk w'.pend).thread t = (b.settledAt clk w.pend).thread t) :
    b'.readAt { w' with byp := [] } clk t n = b.readAt { w with byp := [] } clk t n := by
  have hb1 : boundV b { w with byp := [] } t n = boundV b w t n := rfl
  have hb2 : boundV b' { w' with byp := [] } t n = boundV b w t n := hb
  simp only [readAt_eq, hb1, hb2, ht, bypFind]

end

theorem predAt_eq (b : Block) (w : Warp) (clk t n : Nat) : b.predAt w clk t n = ((b.settledAt clk w.pend).thread t).getP n := by
  rw [Block.predAt, settle_thread]; rfl

theorem xAt_eq (b : Block) (w : Warp) (clk t n : Nat) : b.xAt w clk t n = ((b.settledAt clk w.pend).thread t).getX n := by
  rw [Block.xAt, settle_thread]; rfl

theorem xwinAt_eq (b : Block) (w : Warp) (clk h n : Nat) :
    b.xwinAt w clk h n = ((b.settledAt clk w.pend).home (32 * h)).xwin.getD n (0, 0) := rfl

-- The block that a fixed-latency instruction leaves.

/-- The cells that a fixed-latency instruction writes: a transient destination is none (R76, R86). -/
def fixedCells (i : Instr) (r : Res) : List (Cell × Nat) := (if isTransient i then [] else vCells r.v) ++ r.other

/-- The warp of that block: moved on, with its pending results, its bypass entry, and what the transients of R103 ask for. -/
def fixedWarp (e : WEnv) (i : Instr) (lat : Nat) (r : Res) : Warp := { e.w.advance e.c with
  pend := if (fixedCells i r).isEmpty then e.w.pend else e.w.pend ++ [⟨e.w.clock + lat, fixedCells i r⟩]
  byp := if writesV i then (⟨e.w.clock + lat, r.v, isTransient i⟩ :: e.w.byp).take 3 else e.w.byp
  since := if isTransient i then 0 else min 3 (e.w.since + 1) }

/-- A fixed-latency instruction leaves its marks and its warp's new results behind (R85, R141, R143). -/
theorem retireFixed_eq (e : WEnv) (i : Instr) (lat : Nat) (r : Res) :
    retireFixed e i lat r = e.put (killMarks e.b e.eff i) (fixedWarp e i lat r) := by
  unfold retireFixed
  change e.put _ _ = _
  congr 1
  have hc : (if isTransient i = true then [] else vCells r.v) ++ r.other = fixedCells i r := rfl
  rw [hc]
  unfold fixedWarp
  cases isTransient i <;> cases writesV i <;> cases (fixedCells i r).isEmpty <;> rfl

theorem retireFixed_block (e : WEnv) (i : Instr) (lat : Nat) (r : Res) :
    (retireFixed e i lat r).block e.b.id = some ((killMarks e.b e.eff i).setWarp (fixedWarp e i lat r)) := by
  have h := block_setBlock e.s ((killMarks e.b e.eff i).setWarp (fixedWarp e i lat r))
  rw [retireFixed_eq]
  rwa [setWarp_id, killMarks_id] at h

/-- Block and warp after the instruction are the ones that it leaves. -/
theorem retireFixed_warp {e : WEnv} {i : Instr} {lat : Nat} {r : Res} {b : Block} {w : Warp}
    (h : (retireFixed e i lat r).block e.b.id = some b) (hw : b.warp? e.w.k = some w) :
    b = (killMarks e.b e.eff i).setWarp w ∧ w = fixedWarp e i lat r := by
  rw [retireFixed_block] at h
  cases h
  obtain rfl := warp_setWarp _ _ hw
  exact ⟨rfl, rfl⟩

section
variable {e : WEnv} {i : Instr} {lat : Nat} {r : Res} {b : Block} {w : Warp}
  (h : (retireFixed e i lat r).block e.b.id = some b) (hw : b.warp? e.w.k = some w)
include h hw

/-- At a distance that block is as the instruction found it, with the instruction's own results where they are due. -/
theorem retireFixed_settledAt (clk : Nat) : b.settledAt clk w.pend =
    ((if e.w.clock + lat ≤ clk then ((killMarks e.b e.eff i).settledAt clk e.w.pend).putCells (fixedCells i r)
      else (killMarks e.b e.eff i).settledAt clk e.w.pend)).setWarp w := by
  obtain ⟨rfl, rfl⟩ := retireFixed_warp h hw
  rw [settledAt_setWarp, fixedWarp]
  cases hc : fixedCells i r with
  | nil => simp [Block.putCells]
  | cons y t => simp only [List.isEmpty_cons, Bool.false_eq_true, if_false, settledAt_append]

/-- What binds a register is as it was before the instruction. -/
theorem retireFixed_bound (t n : Nat) : boundV b w t n = boundV e.b e.w t n := by
  obtain ⟨rfl, rfl⟩ := retireFixed_warp h hw
  have hp : ((killMarks e.b e.eff i).setWarp (fixedWarp e i lat r)).parked = e.b.parked := killMarks_parked e.b e.eff i
  rw [boundV, homeBinds_congr hp]
  rfl

/-- The newest bypass entry is the instruction's own (R143). -/
theorem retireFixed_bypFind (hv : writesV i = true) {t n : Nat} {x : Word32} (hx : (t, n, x) ∈ r.v) :
    ∃ z, bypFind t n w.byp = some (e.w.clock + lat, z) ∧ ((r.v.map fun y => (y.1, y.2.1)).Nodup → z = x) := by
  obtain ⟨-, rfl⟩ := retireFixed_warp h hw
  have hsome : (r.v.find? fun y => y.1 == t && y.2.1 == n).isSome := List.find?_isSome.mpr ⟨_, hx, by simp⟩
  obtain ⟨z, hz⟩ := Option.isSome_iff_exists.mp hsome
  refine ⟨z.2.2, ?_, fun hn => ?_⟩
  · simp only [fixedWarp, hv, if_true, List.take_succ_cons, bypFind, hz]
  · rw [bypFind_mem r.v t n x hn hx] at hz
    cases hz
    rfl

end

end Sys2Proof.Machine
end

section
open Sys2Proof Sys2Proof.Machine

/-- Settles O12: the instruction's results stand last among the pending ones and first in the bypass, so they take effect over what the
others leave, and until then everything but a V register's bypass is as before. -/
theorem latencyShows : Obligations.LatencyShows := by
  unfold Obligations.LatencyShows
  refine ⟨?_, ?_, ?_, ?_⟩
  · intro e i lat clk v t n x b w hwv htr hnd hx hb hw hbd ht hle
    have hth : (b.settledAt clk w.pend).thread t =
        ((((killMarks e.b e.eff i).settledAt clk e.w.pend).putCells (vCells v))).thread t := by
      rw [retireFixed_settledAt hb hw, if_pos hle, setWarp_thread, fixedCells, htr]
      simp
    obtain ⟨hv, hd⟩ := putCells_val v ((killMarks e.b e.eff i).settledAt clk e.w.pend) t n x hnd hx
      (by rwa [Block.settledAt, settle_len, killMarks_len])
    obtain ⟨z, hf, hz⟩ := retireFixed_bypFind hb hw hwv hx
    obtain rfl := hz hnd
    rw [← hth] at hv hd
    have hbd' := (retireFixed_bound hb hw t n).trans hbd
    exact ⟨readAt_bypass hbd' hd hf hle, (readAt_file hbd' hd).trans hv⟩
  · intro e i lat clk v t n x b w hwv _ hx hb hw hlt
    obtain ⟨z, hf, -⟩ := retireFixed_bypFind hb hw hwv hx
    refine (readAt_early hf hlt).trans (readAt_file_congr ?_ ?_)
    · rw [retireFixed_bound hb hw, boundV, boundV, homeBinds_congr (killMarks_parked e.b e.eff i)]
    · rw [retireFixed_settledAt hb hw, if_neg (Nat.not_le.mpr hlt), setWarp_thread]
  · intro e i lat clk r b w hnd hb hw due old
    have hs : e.b.SameShape (((old.settledAt clk e.w.pend).putCells (if isTransient i then [] else vCells r.v))) :=
      putCells_keeps (P := fun x => e.b.SameShape x) (fun _ c z h => sameShape_putCell h c z) _ _
        (settledAt_keeps (P := fun x => e.b.SameShape x) (fun _ c z h => sameShape_putCell h c z) clk _
          (sameShape_killMarks e.b e.eff i))
    have hdue (h : due ≤ clk) : b.settledAt clk w.pend =
        (((old.settledAt clk e.w.pend).putCells (if isTransient i then [] else vCells r.v)).putCells r.other).setWarp w := by
      rw [retireFixed_settledAt hb hw, if_pos h, fixedCells, putCells_append]
    have hearly (h : clk < due) : b.settledAt clk w.pend = (old.settledAt clk e.w.pend).setWarp w := by
      rw [retireFixed_settledAt hb hw, if_neg (Nat.not_le.mpr h)]
    refine ⟨fun t n x hx hn ht => ⟨fun h => ?_, fun h => ?_⟩, fun t n x hx hn ht => ⟨fun h => ?_, fun h => ?_⟩,
      fun k n x hx hk hn => ⟨fun h => ?_, fun h => ?_⟩⟩
    · rw [predAt_eq, hdue h, setWarp_thread, getP_putCells hs hnd hx hn ht]
    · rw [predAt_eq, predAt_eq, hearly h, setWarp_thread]
    · rw [xAt_eq, hdue h, setWarp_thread, getX_putCells hs hnd hx hn ht]
    · rw [xAt_eq, xAt_eq, hearly h, setWarp_thread]
    · rw [xwinAt_eq, hdue h]
      exact xwin_putCells hs hnd hx hk hn
    · rw [xwinAt_eq, xwinAt_eq, hearly h]
      rfl
  · intro e i lat clk v t n x b w hwv htr hnd hx hb hw hbd hdead
    have hth : (b.settledAt clk w.pend).thread t = ((killMarks e.b e.eff i).settledAt clk e.w.pend).thread t := by
      rw [retireFixed_settledAt hb hw, fixedCells, htr]
      simp [Block.putCells]
    have hd : ((b.settledAt clk w.pend).thread t).isDead n = false := by
      rw [hth]
      exact settledAt_keeps (P := fun x => (x.thread t).isDead n = false) (fun y c z h => putCell_dead y c z h) clk _ hdead
    obtain ⟨z, hf, hz⟩ := retireFixed_bypFind hb hw hwv hx
    obtain rfl := hz hnd
    refine ⟨fun hle => readAt_bypass ((retireFixed_bound hb hw t n).trans hbd) hd hf hle, readAt_file_congr ?_ hth⟩
    rw [retireFixed_bound hb hw, boundV, boundV, homeBinds_congr (killMarks_parked e.b e.eff i)]

end

section
/-!
PROOFS. The frame of the fixed-latency instructions (R85, R86): each of them retires its results and does nothing else.
-/
namespace Sys2Proof.Machine

/-- An instruction of the fixed classes retires its results, whatever the state. -/
theorem exec_fixedClass {i : Instr} {c : Ctl} (h : fixedClass i = true) (hc : i.ctl = some c) :
    ∃ (lat : Nat) (r : WEnv → Res), ∀ s, exec i s = issueW i c (fun e => .ok (retireFixed e i lat (r e))) s := by
  cases i with
  | mov | iadd | isub | imul | imulhi | imad | idiv | irem | imin | imax | iabs | and | or | xor | not | shl | shr | popc | clz
  | brev | bfe | bfi | sel => cases hc; exact ⟨_, _, fun _ => rfl⟩
  | fadd | fsub | fmul | ffma | fmin | fmax | fabs | fneg | pkadd | pkmul | pkfma | pkmin | pkmax | cvt | cvtf8 | sfu =>
    cases hc; exact ⟨_, _, fun _ => rfl⟩
  | iset | fset | plop | pmov | pmovP | shfl | agree | ballot | remap | xwin | xset => cases hc; exact ⟨_, _, fun _ => rfl⟩
  | _ => cases h

/-- Where a word's own effect begins, the state differs from the one before in the block alone; the guard and hint are the word's. -/
theorem warpStart_state {s : State} {i : Instr} {c : Ctl} {e : WEnv} (h : s.warpStart i c = some e) :
    (∃ b, e.s = s.setBlock b ∧ b.id = e.b.id) ∧ e.c = c := by
  obtain ⟨b, w, -, -, -, b', hb', rfl⟩ := warpStart_spec h
  exact ⟨⟨(settle b w).1, rfl, (specGate_id hb').symm⟩, rfl⟩

/-- What a word puts back changes nothing outside its block. -/
theorem sameOutside_put {s : State} {e : WEnv} (he : ∃ b, e.s = s.setBlock b ∧ b.id = e.b.id) {b : Block} (hb : b.id = e.b.id)
    (w : Warp) : s.sameOutside (e.put b w) e.b.id := by
  obtain ⟨b0, hs, h0⟩ := he
  have hblock (k : Nat) (hk : k ≠ e.b.id) : (e.put b w).block k = s.block k := by
    rw [WEnv.put, block_setBlock_ne _ _ (by rwa [setWarp_id, hb]), hs, block_setBlock_ne _ _ (by rwa [h0])]
  rw [WEnv.put, hs] at hblock ⊢
  exact ⟨fun _ => rfl, hblock, rfl, rfl, rfl, rfl, rfl, rfl, rfl⟩

/-- Marks change nothing of a block but its threads' marks (R141). -/
theorem killMarks_rest (b : Block) (eff : List (Nat × Nat)) (i : Instr) :
    b.sameRest (killMarks b eff i) ∧ (killMarks b eff i).seq = b.seq :=
  killMarks_keeps (P := fun x => b.sameRest x ∧ x.seq = b.seq) (fun _ _ _ h => h) b eff i
    ⟨⟨fun _ => rfl, rfl, rfl, rfl, rfl, rfl, rfl, rfl, rfl, rfl, rfl, rfl, rfl, rfl, rfl⟩, rfl⟩

/-- A warp that is put back leaves the other warps of the block. -/
theorem mem_setWarp_ne {b : Block} {w x : Warp} (h : x ∈ (b.setWarp w).warps) (hk : x.k ≠ w.k) : x ∈ b.warps := by
  obtain ⟨y, hy, rfl⟩ := List.mem_map.mp h
  by_cases hyk : y.k = w.k
  · rw [if_pos hyk] at hk
    exact absurd rfl hk
  · rwa [if_neg hyk]

end Sys2Proof.Machine
end

section
open Sys2Proof Sys2Proof.Machine

/-- Settles O14: the instruction puts back its block with last-use marks and one moved warp, and nothing else. -/
theorem fixedFrame : Obligations.FixedFrame := by
  unfold Obligations.FixedFrame
  intro s i c e hfix hc he
  obtain ⟨lat, r, hexec⟩ := exec_fixedClass hfix hc
  obtain ⟨hrest, hseq⟩ := killMarks_rest e.b e.eff i
  refine ⟨retireFixed e i lat (r e), (killMarks e.b e.eff i).setWarp (fixedWarp e i lat (r e)),
    (hexec s).trans (issue_warp_ok he rfl), retireFixed_block e i lat (r e), ?_, hrest, hseq, fun u => ?_, fun w hw hk => ?_⟩
  · rw [retireFixed_eq]
    exact sameOutside_put (warpStart_state he).1 (killMarks_id e.b e.eff i) _
  · obtain ⟨d, hd⟩ := killMarks_thread e.b e.eff i u
    rw [setWarp_thread, hd]
    exact ⟨rfl, rfl, rfl, rfl, rfl, rfl⟩
  · have := mem_setWarp_ne hw hk
    rwa [killMarks_warps] at this

end

section
/-!
PROOFS. The order of the checks before a warp's word acts (R82, R87, R88, R140), one equation for each check that decides.
-/
namespace Sys2Proof.Machine

/-- The register that STALL.SHORT names, where the warp checks (R88). -/
def shortRead (e : WEnv) (i : Instr) : Option Nat :=
  if checksStall e.b e.w && !e.w.waive then earlyRead e.b e.w i e.c else none

section
variable {e : WEnv} {i : Instr} (first : Option Nat)

/-- Check 1: ILLEGAL. -/
theorem warpChecks_illegal (hwf : i.wfOn .warp = false) : warpChecks e i first = flt fIllegal 0 := by
  simp only [warpChecks, hwf, Bool.not_false, if_true]

section
variable (hwf : i.wfOn .warp = true)
include hwf

/-- Check 2: REG.WINDOW. -/
theorem warpChecks_window (hwin : windowOk e.b i = false) : warpChecks e i first = flt fRegWindow 0 := by
  simp only [warpChecks, hwf, hwin, Bool.not_true, Bool.not_false, Bool.false_eq_true, if_false, if_true]

section
variable (hwin : windowOk e.b i = true)
include hwin

/-- The interlock (R87). -/
theorem warpChecks_wait (hout : ∃ x ∈ touchedCells e.b e.w i e.c, x ∈ e.s.outstanding e.b.id) :
    warpChecks e i first = waitOn .other e.s := by
  have hany : (touchedCells e.b e.w i e.c).any (e.s.outstanding e.b.id).contains = true := by simpa using hout
  simp only [warpChecks, hwf, hwin, hany, Bool.not_true, Bool.false_eq_true, if_false, if_true]

section
variable (hfree : ∀ x ∈ touchedCells e.b e.w i e.c, x ∉ e.s.outstanding e.b.id)
include hfree

/-- Check 3: STALL.SHORT. -/
theorem warpChecks_stall {n : Nat} (hn : shortRead e i = some n) : warpChecks e i first = flt fStallShort (first.getD n) := by
  have hany : (touchedCells e.b e.w i e.c).any (e.s.outstanding e.b.id).contains = false := by simpa using hfree
  rw [shortRead] at hn
  simp only [warpChecks, hwf, hwin, hany, hn, Bool.not_true, Bool.false_eq_true, if_false]

section
variable (hn : shortRead e i = none)
include hn

/-- Past STALL.SHORT what it would have named does not matter. -/
theorem warpChecks_past : warpChecks e i first = warpChecks e i := by
  have hany : (touchedCells e.b e.w i e.c).any (e.s.outstanding e.b.id).contains = false := by simpa using hfree
  rw [shortRead] at hn
  simp only [warpChecks, hwf, hwin, hany, hn, Bool.not_true, Bool.false_eq_true, if_false]

/-- INDEX.RANGE (R140). -/
theorem warpChecks_index {t : TrapInfo} (ht : indexFault e.b e.eff i = some t) : warpChecks e i first = .error (.trap t) := by
  have hany : (touchedCells e.b e.w i e.c).any (e.s.outstanding e.b.id).contains = false := by simpa using hfree
  rw [shortRead] at hn
  simp only [warpChecks, hwf, hwin, hany, hn, ht, Bool.not_true, Bool.false_eq_true, if_false]

/-- A word that passes them all may act. -/
theorem warpChecks_ok (hi : indexFault e.b e.eff i = none) (hp : indexPairFault e.b e.eff i = false) (hb : boundWrite e i = none) :
    warpChecks e i first = .ok () := by
  have hany : (touchedCells e.b e.w i e.c).any (e.s.outstanding e.b.id).contains = false := by simpa using hfree
  rw [shortRead] at hn
  simp only [warpChecks, hwf, hwin, hany, hn, hi, hp, hb, Bool.not_true, Bool.false_eq_true, if_false]

end
end
end
end
end

/-- What STALL.SHORT names is the one part of a failed check that an accumulator can change: its TRAUX. -/
theorem warpChecks_first_trap {e : WEnv} {i : Instr} (first : Option Nat) {x : TrapInfo} (h : warpChecks e i = .error (.trap x)) :
    ∃ aux, warpChecks e i first = .error (.trap { x with aux := aux }) ∧ (x.code ≠ fStallShort → aux = x.aux) := by
  have same (hs : warpChecks e i first = warpChecks e i) :
      ∃ aux, warpChecks e i first = .error (.trap { x with aux := aux }) ∧ (x.code ≠ fStallShort → aux = x.aux) :=
    ⟨x.aux, hs.trans h, fun _ => rfl⟩
  cases hwf : i.wfOn .warp with
  | false => exact same ((warpChecks_illegal first hwf).trans (warpChecks_illegal none hwf).symm)
  | true =>
    cases hwin : windowOk e.b i with
    | false => exact same ((warpChecks_window first hwf hwin).trans (warpChecks_window none hwf hwin).symm)
    | true =>
      by_cases hout : ∃ x ∈ touchedCells e.b e.w i e.c, x ∈ e.s.outstanding e.b.id
      · exact same ((warpChecks_wait first hwf hwin hout).trans (warpChecks_wait none hwf hwin hout).symm)
      · have hfree : ∀ x ∈ touchedCells e.b e.w i e.c, x ∉ e.s.outstanding e.b.id := fun y hy hy' => hout ⟨y, hy, hy'⟩
        cases hn : shortRead e i with
        | none => exact same (warpChecks_past first hwf hwin hfree hn)
        | some n =>
          rw [warpChecks_stall none hwf hwin hfree hn] at h
          cases h
          exact ⟨first.getD n, warpChecks_stall first hwf hwin hfree hn, fun hc => absurd rfl hc⟩

end Sys2Proof.Machine
end

section
/-!
PROOFS. Words that do not act: an agent that may not issue, a word that waits on the interlock, a failed check, a guard that does not
hold (R81, R82, R87, R103, R107).
-/
namespace Sys2Proof.Machine

/-- Every word but an MMA names no register to STALL.SHORT beside those of its fields. -/
theorem exec_issue_plain {i : Instr} {c : Ctl} (h : i.ctl = some c) (hm : ∀ start d a, i ≠ .mma c start d a) :
    ∃ wb sb, ∀ s, exec i s = issue i c wb sb s := by
  cases i with
  | mma => cases h; exact absurd rfl (hm _ _ _)
  | _ => cases h <;> exact ⟨_, _, fun _ => rfl⟩

/-- A word that the interlock holds back waits, and nothing but the warp's wait changes (R87). -/
theorem issue_warp_interlocked {s : State} {i : Instr} {c : Ctl} {b : Block} {w : Warp} (wb : WEnv → Except Stop State)
    (sb : SEnv → Except Stop State) (f : WEnv → Option Nat) (hi : s.issuer = some (.warp b w))
    (hc : s.canIssue (.warp b w) = true)
    (hk : warpChecks (warpEnv s b w c) i (f (warpEnv s b w c)) = waitOn .other (warpEnv s b w c).s) :
    issue i c wb sb s f = .next (setWaitW (warpEnv s b w c).s (warpEnv s b w c).b.id (warpEnv s b w c).w.k .other) := by
  rw [waitOn] at hk
  simp only [issue, hi, hc, runWarp, hk, Bool.not_true, Bool.false_eq_true, if_false, warpOutcome]

end Sys2Proof.Machine
end

section
open Sys2Proof Sys2Proof.Machine

/-- Settles O21: the check fails whatever register STALL.SHORT is to name, and only an MMA gives it one of its own. -/
theorem faultTaken : Obligations.FaultTaken := by
  unfold Obligations.FaultTaken
  intro s i c b w x hctl hi hc e hx hl hs
  have taken {aux : Nat} {wb : WEnv → Except Stop State} {sb : SEnv → Except Stop State} {f : WEnv → Option Nat}
      (hk : warpChecks e i (f e) = .error (.trap { x with aux := aux })) : issue i c wb sb s f =
        .next (takeTrap (e.s.dropFails e.b.die e.w.aid) e.b.id ⟨x.code, e.w.pc, x.addr, aux, e.w.k, lanesMask e.eff⟩) := by
    rw [issue_warp_trap wb sb f hi hc hk hs, trapRecW, hl]
    rfl
  by_cases hm : ∀ start d a, i ≠ .mma c start d a
  · obtain ⟨wb, sb, hexec⟩ := exec_issue_plain hctl hm
    exact ⟨x.aux, (hexec s).trans (taken hx), fun _ => rfl⟩
  · obtain ⟨wb, sb, f, hexec⟩ := exec_issue hctl
    obtain ⟨aux, hk, haux⟩ := warpChecks_first_trap (f e) hx
    exact ⟨aux, (hexec s).trans (taken hk), fun h => haux (h.resolve_left hm)⟩

/-- Settles O22: both are what `issue` does before the word's own effect. -/
theorem idleAndInterlocked : Obligations.IdleAndInterlocked := by
  unfold Obligations.IdleAndInterlocked
  constructor
  · intro s i c x hctl hi hc
    obtain ⟨wb, sb, f, hexec⟩ := exec_issue hctl
    exact (hexec s).trans (issue_held wb sb f hi hc)
  · intro s i c b w hctl hi hc e hwf hwin hout
    obtain ⟨wb, sb, f, hexec⟩ := exec_issue hctl
    exact (hexec s).trans (issue_warp_interlocked wb sb f hi hc (warpChecks_wait (f e) hwf hwin hout))

/-- Settles O17: the guard is read before the word's own effect. -/
theorem sequencerSkips : Obligations.SequencerSkips := by
  unfold Obligations.SequencerSkips
  intro s i c b q hctl hi hc hwf hblk hg
  obtain ⟨wb, sb, f, hexec⟩ := exec_issue hctl
  exact (hexec s).trans (issue_seq_skip wb sb f hi hc hwf hblk hg)

end

section
/-!
PROOFS. What the checks before a warp's word decide: the registers of its fields and its predicates for the interlock (R87), the first one
read early for STALL.SHORT (R86, R88), and the first indexed field out of range (R140).
-/
namespace Sys2Proof.Machine

-- The interlock.

/-- The cells of a word in a live lane: the registers of its fields that the window holds, its guard and its predicates. -/
theorem mem_touchedCells {b : Block} {w : Warp} {i : Instr} {c : Ctl} {z : Cell} : z ∈ touchedCells b w i c ↔
    ∃ t ∈ (liveLanes b w).map Prod.snd, (∃ f ∈ fieldsOf .warp i, ∃ j ∈ regsOf b t f, z = .v t j) ∨
      ∃ j ∈ guardRead i c ++ predReads i ++ predWrites i, z = .p t j := by
  simp only [touchedCells, List.mem_flatMap, List.mem_append, List.mem_map]
  constructor
  · rintro ⟨l, hl, ⟨f, hf, j, hj, rfl⟩ | ⟨j, hj, rfl⟩⟩
    · exact ⟨l.2, ⟨l, hl, rfl⟩, .inl ⟨f, hf, j, hj, rfl⟩⟩
    · exact ⟨l.2, ⟨l, hl, rfl⟩, .inr ⟨j, hj, rfl⟩⟩
  · rintro ⟨_, ⟨l, hl, rfl⟩, ⟨f, hf, j, hj, rfl⟩ | ⟨j, hj, rfl⟩⟩
    · exact ⟨l, hl, .inl ⟨f, hf, j, hj, rfl⟩⟩
    · exact ⟨l, hl, .inr ⟨j, hj, rfl⟩⟩

/-- A V register field names as many registers from its own on as its form asks for (R77). -/
theorem mem_regsOf_reg {b : Block} {t j : Nat} {n : BitVec 8} {u m : Bool} {f : FSpec} :
    j ∈ regsOf b t (.reg n u m, f) ↔ n.toNat ≤ j ∧ j < n.toNat + f.span ∧ j < b.bnd := by
  simp only [regsOf, isReg, if_true, List.mem_filter, List.mem_map, List.mem_range, regOf, decide_eq_true_eq]
  constructor
  · rintro ⟨⟨k, hk, rfl⟩, hj⟩
    omega
  · rintro ⟨h1, h2, h3⟩
    exact ⟨⟨j - n.toNat, by omega, by omega⟩, h3⟩

/-- An indexed field names the register of its window (R140). -/
theorem mem_regsOf_idx {b : Block} {t j : Nat} {x : BitVec 2} {d : BitVec 6} {u m : Bool} {f : FSpec} (hf : f.span = 1) :
    j ∈ regsOf b t (.idx x d u m, f) ↔ j = (idxWin b t x).1 + idxSum b t x d ∧ j < b.bnd := by
  simp only [regsOf, isReg, if_true, hf, List.range_one, List.map_cons, List.map_nil, Nat.add_zero, List.mem_filter,
    List.mem_singleton, regOf, decide_eq_true_eq]

theorem regsOf_imm (b : Block) (t : Nat) (v : BitVec 19) (f : FSpec) : regsOf b t (.imm v, f) = [] := rfl

/-- The guard's predicate, of any word that reads it. -/
theorem mem_guardRead {i : Instr} {c : Ctl} {j : Nat} (hi : ∀ c', i ≠ .nop c') :
    j ∈ guardRead i c ↔ ∃ g neg, c.guard = .pred g neg ∧ j = g.toNat := by
  unfold guardRead
  split
  · next c' => exact absurd rfl (hi _)
  · next g neg _ hg =>
    rw [hg, List.mem_singleton]
    exact ⟨fun h => ⟨g, neg, rfl, h⟩, by rintro ⟨_, _, h, rfl⟩; cases h; rfl⟩
  · next hg =>
    rw [hg]
    exact ⟨fun h => absurd h List.not_mem_nil, by rintro ⟨_, _, h, _⟩; cases h⟩

/-- A register of one of a word's fields, field by field. -/
theorem exists_field_cons {b : Block} {t : Nat} {z : Cell} {p : Operand × FSpec} {fs : List (Operand × FSpec)} {A B : Nat → Prop}
    (hp : ∀ j, j ∈ regsOf b t p ↔ A j ∧ j < b.bnd)
    (hfs : (∃ f ∈ fs, ∃ j ∈ regsOf b t f, z = .v t j) ↔ ∃ j, B j ∧ j < b.bnd ∧ z = .v t j) :
    (∃ f ∈ p :: fs, ∃ j ∈ regsOf b t f, z = .v t j) ↔ ∃ j, (A j ∨ B j) ∧ j < b.bnd ∧ z = .v t j := by
  rw [List.exists_mem_cons_iff, hfs]
  simp only [hp, or_and_right, exists_or, and_assoc]

theorem exists_field_nil {b : Block} {t : Nat} {z : Cell} :
    (∃ f ∈ ([] : List (Operand × FSpec)), ∃ j ∈ regsOf b t f, z = .v t j) ↔ ∃ j, False ∧ j < b.bnd ∧ z = .v t j := by
  simp

/-- The predicates of a word in a lane: its guard's, and its own. -/
theorem exists_guardRead {i : Instr} {c : Ctl} {t : Nat} {z : Cell} (hi : ∀ c', i ≠ .nop c') :
    (∃ j ∈ guardRead i c ++ predReads i ++ predWrites i, z = .p t j) ↔
      (∃ j ∈ predReads i ++ predWrites i, z = .p t j) ∨ ∃ g neg, c.guard = .pred g neg ∧ z = .p t g.toNat := by
  simp only [List.append_assoc, List.mem_append (s := guardRead i c), mem_guardRead hi, or_and_right, exists_or]
  constructor
  · rintro (⟨j, ⟨g, neg, hg, rfl⟩, hz⟩ | h)
    · exact .inr ⟨g, neg, hg, hz⟩
    · exact .inl h
  · rintro (h | ⟨g, neg, hg, hz⟩)
    · exact .inr h
    · exact .inl ⟨g.toNat, ⟨g, neg, hg, rfl⟩, hz⟩

/-- A word's cells, given the registers that its fields name and the predicates besides its guard's. -/
theorem touchedCells_iff {b : Block} {w : Warp} {i : Instr} {c : Ctl} {z : Cell} (A : Nat → Nat → Prop) (hi : ∀ c', i ≠ .nop c')
    (hregs : ∀ t, (∃ f ∈ fieldsOf .warp i, ∃ j ∈ regsOf b t f, z = .v t j) ↔ ∃ j, A t j ∧ j < b.bnd ∧ z = .v t j) :
    z ∈ touchedCells b w i c ↔ ∃ t ∈ (liveLanes b w).map Prod.snd, (∃ j, A t j ∧ j < b.bnd ∧ z = .v t j) ∨
      (∃ j ∈ predReads i ++ predWrites i, z = .p t j) ∨ ∃ g neg, c.guard = .pred g neg ∧ z = .p t g.toNat := by
  simp only [mem_touchedCells, hregs, exists_guardRead hi]

theorem mem_regsOf_span {b : Block} {t j : Nat} {n : BitVec 8} {u m : Bool} {f : FSpec} {k : Nat} (hf : f.span = k) :
    j ∈ regsOf b t (.reg n u m, f) ↔ (n.toNat ≤ j ∧ j < n.toNat + k) ∧ j < b.bnd := by
  rw [mem_regsOf_reg, hf, and_assoc]

theorem mem_regsOf_one {b : Block} {t j : Nat} {n : BitVec 8} {u m : Bool} {f : FSpec} (hf : f.span = 1) :
    j ∈ regsOf b t (.reg n u m, f) ↔ j = n.toNat ∧ j < b.bnd := by
  rw [mem_regsOf_span hf]
  omega

theorem mem_regsOf_none {b : Block} {t j : Nat} {v : BitVec 19} {f : FSpec} : j ∈ regsOf b t (.imm v, f) ↔ False ∧ j < b.bnd := by
  simp [regsOf_imm]

-- Early reads: each candidate with whether it is early, and the first that is.

/-- The first register of a list of candidates that is early. -/
def firstEarly (l : List (Bool × Nat)) : Option Nat := (l.find? fun z => z.1).map fun z => z.2

@[simp] theorem firstEarly_nil : firstEarly [] = none := rfl

@[simp] theorem firstEarly_cons (p : Bool) (n : Nat) (l : List (Bool × Nat)) :
    firstEarly ((p, n) :: l) = if p then some n else firstEarly l := by
  cases p <;> simp [firstEarly]

theorem firstEarly_append (l m : List (Bool × Nat)) : firstEarly (l ++ m) = (firstEarly l).or (firstEarly m) := by
  rw [firstEarly, List.find?_append, firstEarly, firstEarly]
  cases l.find? fun z => z.1 <;> rfl

section
variable (b : Block) (w : Warp)

/-- The threads of a warp's live lanes. -/
def liveThreads : List Nat := (liveLanes b w).map Prod.snd

/-- The candidates of R88 with their TRAUX: a predicate, a V register, an index register, a window. -/
def predSlot (j : Nat) : Bool × Nat := ((liveThreads b w).any fun t => pendHas w (.p t j), j + 256)
def regSlot (j : BitVec 8) : Bool × Nat :=
  (decide (j.toNat < b.bnd) && (liveThreads b w).any fun t => earlyV w t j.toNat, j.toNat)
def xSlot (j : Nat) : Bool × Nat := ((liveThreads b w).any fun t => pendHas w (.x t j), j + 512)
def winSlot (j : Nat) : Bool × Nat := ((liveThreads b w).any fun t => pendHas w (.xwin (t / 32) j), j + 768)

def guardSlots (c : Ctl) : List (Bool × Nat) := match c.guard with
  | .pred j _ => [predSlot b w j.toNat]
  | .always => []

theorem firstEarly_preds (l : List Nat) :
    firstEarly (l.map (predSlot b w)) = (l.find? (earlyPred b w)).map fun n => n + 256 := by
  induction l with
  | nil => rfl
  | cons n t ih =>
    rw [List.map_cons, predSlot, firstEarly_cons, ih, List.find?_cons]
    have he : earlyPred b w n = (liveThreads b w).any fun t => pendHas w (.p t n) := rfl
    rw [he]
    cases (liveThreads b w).any fun t => pendHas w (.p t n) <;> rfl

/-- A V register that a field reads (R88). -/
theorem earlyField_reg {i : Instr} {n : BitVec 8} {u m : Bool} {f : FSpec} (hf : f.span = 1)
    (hr : (f.role == .src || dIsRead i) = true) :
    earlyField b w i (.reg n u m, f) = firstEarly [regSlot b w n] := by
  have hregs (t : Nat) : regsOf b t (.reg n u m, f) = if n.toNat < b.bnd then [n.toNat] else [] := by
    simp only [regsOf, isReg, if_true, hf, List.range_one, List.map_cons, List.map_nil, Nat.add_zero, List.filter_cons, List.filter_nil,
      regOf, decide_eq_true_eq]
  have hsome (l : List Nat) (p : Nat → Bool) :
      (l.findSome? fun t => if p t then some n.toNat else none) = if l.any p then some n.toNat else none := by
    induction l with
    | nil => rfl
    | cons t r ih => rw [List.findSome?_cons, List.any_cons]; cases p t <;> simp [ih]
  simp only [earlyField, hr, if_true, hregs, regSlot, firstEarly_cons, firstEarly_nil, liveThreads]
  by_cases hn : n.toNat < b.bnd
  · simp only [hn, if_true, decide_true, Bool.true_and, ← hsome]
    congr
    funext t
    cases h : earlyV w t n.toNat <;> simp [h]
  · simp [hn]

/-- A V register that a field only writes is not checked. -/
theorem earlyField_unread {i : Instr} {n : BitVec 8} {u m : Bool} {f : FSpec} (hr : (f.role == .src || dIsRead i) = false) :
    earlyField b w i (.reg n u m, f) = firstEarly [] := by
  simp [earlyField, hr]

/-- Of an indexed destination the index register is checked, then its window (R140). -/
theorem earlyField_idx {i : Instr} {x : BitVec 2} {d : BitVec 6} {u m : Bool} {f : FSpec}
    (hr : (f.role == .src || dIsRead i) = false) :
    earlyField b w i (.idx x d u m, f) = firstEarly [xSlot b w x.toNat, winSlot b w x.toNat] := by
  have hnone (l : List Nat) : (l.findSome? fun _ => (none : Option Nat)) = none := by simp
  simp only [earlyField, hr, Bool.false_eq_true, if_false, hnone]
  rw [firstEarly_cons, firstEarly_cons, firstEarly_nil]
  rfl

theorem earlyX_xset (c : Ctl) (x : XReg) (a : Operand) : earlyX b w (.xset c x a) = firstEarly [xSlot b w x.val] := by
  simp only [earlyX, xRead, xSlot, firstEarly_cons, firstEarly_nil, liveThreads, List.any_map]
  rfl

/-- The order of R88: the guard, the predicates that stand in no field, XSET's index register, the fields, the predicates of A and B. -/
theorem earlyRead_eq {i : Instr} (c : Ctl) (hg : guardChecked i = true) (hm : isMeeting i = false) : earlyRead b w i c =
    (firstEarly (guardSlots b w c)).or
      ((firstEarly (((predReads i).filter fun n => !(predFields i).contains n).map (predSlot b w))).or
        ((earlyX b w i).or (((fieldsOf .warp i).findSome? (earlyField b w i)).or
          (firstEarly ((predFields i).map (predSlot b w)))))) := by
  have hslots (p : Bool) (n : Nat) : (if true && p then some n else none) = firstEarly [(p, n)] := by
    rw [firstEarly_cons, firstEarly_nil, Bool.true_and]
  have hguard : firstEarly (guardSlots b w c) = match c.guard with
      | .pred n _ => if true && earlyPred b w n.toNat then some (n.toNat + 256) else none
      | .always => none := by
    rw [guardSlots]
    cases c.guard with
    | always => rfl
    | pred n neg => exact (hslots _ _).symm
  rw [earlyRead, hg, firstEarly_preds, firstEarly_preds, hm]
  split
  · next x hx =>
    rw [hguard.trans hx]
    rfl
  · next hx =>
    rw [hguard.trans hx]
    cases ((predReads i).filter fun n => !(predFields i).contains n).find? (earlyPred b w) with
    | some x => rfl
    | none =>
      cases earlyX b w i with
      | some x => rfl
      | none => cases (fieldsOf .warp i).findSome? (earlyField b w i) <;> rfl

/-- The candidates of a word's fields, field after field. -/
theorem earlyFields_cons {i : Instr} {p : Operand × FSpec} {fs : List (Operand × FSpec)} {l m : List (Bool × Nat)}
    (hp : earlyField b w i p = firstEarly l) (hfs : fs.findSome? (earlyField b w i) = firstEarly m) :
    (p :: fs).findSome? (earlyField b w i) = firstEarly (l ++ m) := by
  rw [List.findSome?_cons, hp, hfs, firstEarly_append]
  cases firstEarly l <;> rfl

/-- The candidates of a word in the order of R88, given those of its index register and those of its fields. -/
theorem earlyRead_slots {i : Instr} (c : Ctl) {xs fs l : List (Bool × Nat)} (hg : guardChecked i = true) (hm : isMeeting i = false)
    (hx : earlyX b w i = firstEarly xs) (hfs : (fieldsOf .warp i).findSome? (earlyField b w i) = firstEarly fs)
    (hl : ((predReads i).filter fun n => !(predFields i).contains n).map (predSlot b w) ++
      (xs ++ (fs ++ (predFields i).map (predSlot b w))) = l) :
    earlyRead b w i c = firstEarly (guardSlots b w c ++ l) := by
  rw [earlyRead_eq b w c hg hm, hx, hfs, ← hl]
  simp only [firstEarly_append]

/-- A meeting instruction without a guard to check reads nothing early. -/
theorem earlyRead_meeting {i : Instr} (c : Ctl) (hg : guardChecked i = false) (hm : isMeeting i = true) (hp : predReads i = []) :
    earlyRead b w i c = none := by
  rw [earlyRead, hg, hm, hp]
  cases c.guard <;> rfl

theorem earlyRead_nop (c c' : Ctl) : earlyRead b w (.nop c') c = none := by
  rw [earlyRead]
  cases c.guard <;> rfl

end

/-- A bypass gives the youngest entry that wrote the register (R143), and no other. -/
theorem bypFind_youngest {t j : Nat} (pre post : List Byp) {f : Byp} (hpre : ∀ f' ∈ pre, ∀ y ∈ f'.vals, ¬(y.1 = t ∧ y.2.1 = j))
    (hf : ∃ y ∈ f.vals, y.1 = t ∧ y.2.1 = j) : ∃ x, bypFind t j (pre ++ f :: post) = some (f.due, x) := by
  induction pre with
  | nil =>
    have hsome : (f.vals.find? fun v => v.1 == t && v.2.1 == j).isSome := by
      obtain ⟨y, hy, h1, h2⟩ := hf
      exact List.find?_isSome.mpr ⟨y, hy, by simp [h1, h2]⟩
    obtain ⟨v, hv⟩ := Option.isSome_iff_exists.mp hsome
    exact ⟨v.2.2, by simp only [List.nil_append, bypFind, hv]⟩
  | cons q r ih =>
    obtain ⟨x, hx⟩ := ih fun f' hf' => hpre f' (List.mem_cons_of_mem _ hf')
    have hq : (q.vals.find? fun v => v.1 == t && v.2.1 == j) = none := by
      simpa using hpre q List.mem_cons_self
    exact ⟨x, by simp only [List.cons_append, bypFind, hq, hx]⟩

theorem bypFind_none {t j : Nat} {l : List Byp} (h : ∀ f ∈ l, ∀ y ∈ f.vals, ¬(y.1 = t ∧ y.2.1 = j)) : bypFind t j l = none := by
  induction l with
  | nil => rfl
  | cons q r ih =>
    have hq : (q.vals.find? fun v => v.1 == t && v.2.1 == j) = none := by
      simpa using h q List.mem_cons_self
    simp only [bypFind, hq, ih fun f hf => h f (List.mem_cons_of_mem _ hf)]

theorem pendHas_iff {w : Warp} {z : Cell} : pendHas w z = true ↔ ∃ f ∈ w.pend, ∃ y ∈ f.vals, y.1 = z := by
  simp [pendHas]

-- The window and the index registers.

/-- A field's registers are below B (R77, R139). -/
def fieldFits (b : Block) : Operand × FSpec → Bool
  | (.reg n _ _, f) => decide (n.toNat + f.span ≤ b.bnd)
  | _ => true

theorem windowOk_iff {b : Block} {i : Instr} {fs : List (Operand × FSpec)} (hfs : fieldsOf .warp i = fs) :
    windowOk b i = true ↔ ∀ p ∈ fs, fieldFits b p := by
  rw [windowOk, hfs, List.all_eq_true]
  refine forall₂_congr fun p _ => ?_
  obtain ⟨y, f⟩ := p
  cases y <;> rfl

@[simp] theorem fieldFits_reg {b : Block} {n : BitVec 8} {u m : Bool} {f : FSpec} :
    fieldFits b (.reg n u m, f) = true ↔ n.toNat + f.span ≤ b.bnd := decide_eq_true_iff

theorem idxBad_iff {b : Block} {t : Nat} {x : BitVec 2} {d : BitVec 6} {u m : Bool} : (!idxOk b t (.idx x d u m)) =
    decide ((idxWin b t x).2 ≤ idxSum b t x d ∨ b.bnd ≤ (idxWin b t x).1 + idxSum b t x d) := by
  rw [idxOk, Bool.eq_iff_iff]
  simp only [Bool.not_eq_true', Bool.and_eq_false_iff, decide_eq_false_iff_not, decide_eq_true_eq, not_lt]

/-- The lanes in which an indexed operand is out of range. -/
def idxBadLanes (b : Block) (eff : List (Nat × Nat)) (x : BitVec 2) (d : BitVec 6) : List (Nat × Nat) :=
  eff.filter fun l => decide ((idxWin b l.2 x).2 ≤ idxSum b l.2 x d ∨ b.bnd ≤ (idxWin b l.2 x).1 + idxSum b l.2 x d)

/-- The INDEX.RANGE of one operand (R140). -/
def idxTrap (b : Block) (eff : List (Nat × Nat)) : Operand → Option TrapInfo
  | .idx x d _ _ => (idxBadLanes b eff x d).head?.map fun l => ⟨fIndexRange, 0, idxSum b l.2 x d, some (lanesMask (idxBadLanes b eff x d))⟩
  | _ => none

/-- The first operand that fails gives the fault. -/
theorem indexFault_eq (b : Block) (eff : List (Nat × Nat)) (i : Instr) :
    indexFault b eff i = (fieldsOf .warp i).findSome? fun p => idxTrap b eff p.1 := by
  rw [indexFault]
  congr 1
  funext ⟨y, f⟩
  cases y with
  | idx x d u m =>
    simp only [idxTrap, idxBadLanes, idxBad_iff]
    cases eff.filter _ <;> rfl
  | _ => rfl

end Sys2Proof.Machine
end

section
open Sys2Proof Sys2Proof.Machine

/-- Settles O20: the checks in their order, then for each what it looks at. -/
theorem checkOrder : Obligations.CheckOrder := by
  unfold Obligations.CheckOrder
  refine ⟨fun e i => ⟨warpChecks_illegal none, warpChecks_window none, warpChecks_wait none, fun hwf hwin hfree =>
    ⟨fun n hn => ⟨warpChecks_stall none hwf hwin hfree hn, fun k => warpChecks_stall (some k) hwf hwin hfree hn⟩,
      fun t hn ht => warpChecks_index none hwf hwin hfree hn ht, warpChecks_ok none hwf hwin hfree⟩⟩, ?_, ?_⟩
  · intro b w c d a o u m v k x y ix dis off xr p q r n tt tt4 sense rd ra rb xd ts
    refine ⟨?_, ?_, ?_, ?_, ?_, rfl, ?_, ?_, ?_, ?_, ?_, fun _ => pendHas_iff, ?_, ?_⟩
    · rw [windowOk_iff (fs := [(rd, .vd), (ra, .vs), (rb, .vsi)]) rfl]
      simp [rd, ra, rb, FSpec.vd, FSpec.vs, FSpec.vsi]
    · rw [windowOk_iff (fs := [(rd, .vrD 2)]) rfl]
      simp [rd, FSpec.vrD, Nat.succ_le_iff]
    · rw [windowOk_iff (fs := [(ra, .pair)]) rfl]
      simp [ra, FSpec.pair, FSpec.vr, Nat.succ_le_iff]
    · rw [windowOk_iff (fs := [(rd, .vrD 2), (ra, .vr 8)]) rfl]
      simp [rd, ra, FSpec.vr, FSpec.vrD, Nat.succ_le_iff]
    · rw [windowOk_iff (fs := [(rd, .vrD 4)]) rfl]
      simp [rd, FSpec.vrD, Nat.succ_le_iff]
    · intro z
      refine (touchedCells_iff (i := .iadd c rd ra rb) _ nofun fun t => exists_field_cons (fun j => mem_regsOf_one rfl)
        (exists_field_cons (fun j => mem_regsOf_one rfl) (exists_field_cons (fun j => mem_regsOf_one rfl) exists_field_nil))).trans ?_
      simp [predReads, predWrites, ts]
    · intro z
      refine (touchedCells_iff (i := .sel c p rd ra (.imm n)) _ nofun fun t => exists_field_cons (fun j => mem_regsOf_one rfl)
        (exists_field_cons (fun j => mem_regsOf_one rfl) (exists_field_cons (fun j => mem_regsOf_none) exists_field_nil))).trans ?_
      simp [predReads, predWrites, ts]
    · intro z
      refine (touchedCells_iff (i := .svc c rd ra n) _ nofun fun t => exists_field_cons (fun j => mem_regsOf_span rfl)
        (exists_field_cons (fun j => mem_regsOf_span rfl) exists_field_nil)).trans ?_
      simp [predReads, predWrites, ts, FSpec.vr, FSpec.vrD]
    · intro z
      refine (touchedCells_iff (i := .not c xd (.imm n)) _ nofun fun t => exists_field_cons (fun j => mem_regsOf_idx rfl)
        (exists_field_cons (fun j => mem_regsOf_none) exists_field_nil)).trans ?_
      simp [predReads, predWrites, ts, idxWin, idxSum]
    · intro P V X W g reads
      have hD {i : Instr} {f : FSpec} (hf : f.span = 1) (hr : (f.role == .src || dIsRead i) = true) :
          earlyField b w i (rd, f) = firstEarly [V d] := earlyField_reg b w hf hr
      have hA {i : Instr} : earlyField b w i (ra, .vs) = firstEarly [V a] := earlyField_reg b w rfl rfl
      have hAi {i : Instr} : earlyField b w i (ra, .vsi) = firstEarly [V a] := earlyField_reg b w rfl rfl
      have hB {i : Instr} : earlyField b w i (rb, .vsi) = firstEarly [V o] := earlyField_reg b w rfl rfl
      have hXd {i : Instr} (hr : dIsRead i = false) : earlyField b w i (xd, .vd) = firstEarly [X ix.toNat, W ix.toNat] :=
        earlyField_idx b w hr
      have nil {i : Instr} : ([] : List (Operand × FSpec)).findSome? (earlyField b w i) = firstEarly [] := rfl
      refine ⟨?_, ?_, ?_, ?_, ?_, ?_, ?_, ?_, earlyRead_nop b w c c, earlyRead_meeting b w c rfl rfl rfl⟩
      · exact earlyRead_slots b w (i := .iadd c rd ra rb) c (xs := []) rfl rfl rfl
          (earlyFields_cons b w (earlyField_unread b w rfl) (earlyFields_cons b w hA (earlyFields_cons b w hB nil))) rfl
      · exact earlyRead_slots b w (i := .imad c rd ra rb) c (xs := []) rfl rfl rfl
          (earlyFields_cons b w (hD rfl rfl) (earlyFields_cons b w hA (earlyFields_cons b w hB nil))) rfl
      · exact earlyRead_slots b w (i := .sel c p rd ra rb) c (xs := []) rfl rfl rfl
          (earlyFields_cons b w (earlyField_unread b w rfl) (earlyFields_cons b w hAi (earlyFields_cons b w hB nil))) rfl
      · exact earlyRead_slots b w (i := .not c xd ra) c (xs := []) rfl rfl rfl (earlyFields_cons b w (hXd rfl) (earlyFields_cons b w hAi nil)) rfl
      · exact earlyRead_slots b w (i := .xset c xr ra) c rfl rfl (earlyX_xset b w c xr ra) (earlyFields_cons b w hAi nil) rfl
      · exact earlyRead_slots b w (i := .ballot c sense xd p) c (xs := []) rfl rfl rfl (earlyFields_cons b w (hXd rfl) nil)
          (by simp [predReads, predFields]; rfl)
      · exact earlyRead_slots b w (i := .plop c tt4 p q r) c (xs := []) rfl rfl rfl nil (by simp [predReads, predFields, P]; exact ⟨rfl, rfl⟩)
      · exact earlyRead_slots b w (i := .pmov c rd) c (xs := []) rfl rfl rfl (earlyFields_cons b w (earlyField_unread b w rfl) nil) rfl
    · intro t j pre post f hbyp hpre hf
      obtain ⟨x, hx⟩ := bypFind_youngest pre post hpre hf
      rw [earlyV, hbyp, hx, decide_eq_true_iff]
    · intro t j h
      rw [earlyV, bypFind_none h]
  · intro b eff c d a o sum bad trap
    have htrap (y : Operand) : trap y = idxTrap b eff y := by
      cases y <;> rfl
    have hfields : fieldsOf .warp (.iadd c d a o) = [(d, .vd), (a, .vs), (o, .vsi)] := rfl
    rw [indexFault_eq, hfields, htrap, htrap, htrap, List.findSome?_cons, List.findSome?_cons, List.findSome?_cons, List.findSome?_nil]
    cases idxTrap b eff d with
    | some x => rfl
    | none => cases idxTrap b eff a with
      | some x => rfl
      | none => cases idxTrap b eff o <;> rfl
end

section
/-!
PROOFS. Where a warp goes on after a branch, a call, a return or a pop (R147, R164 to R166, R169, R170): what the lanes or the home warps
of a warp agree on, and what follows where they do not.
-/
namespace Sys2Proof.Machine

theorem warpWaits_of_body {s : State} {i : Instr} {c : Ctl} {wb : WEnv → Except Stop State} {sb : SEnv → Except Stop State}
    {f : WEnv → Option Nat} {p : WEnv → Prop} {r : WEnv → Wait} (hx : exec i s = issue i c wb sb s f)
    (h : ∀ e, p e → wb e = .error (.wait (r e) e.s)) : WarpWaits s i c p r :=
  fun e he hp => hx.trans (issue_warp_stay he (h e hp))

-- BR: the guard over the counted lanes (R164).

section
variable {e : WEnv}

/-- The counted lanes in which the guard holds. -/
def holdingLanes (e : WEnv) : List (Nat × Nat) := (countedLanes e.b e.w).filter fun l => guardHolds e.b e.c l.2

theorem countedLanes_ne_nil (h : holdingLanes e ≠ []) : (countedLanes e.b e.w).isEmpty = false :=
  isEmpty_eq_false fun hc => h (by rw [holdingLanes, hc]; rfl)

theorem uniformGuard_none (h : holdingLanes e = []) : uniformGuard e = .ok false := by
  rw [holdingLanes] at h
  simp only [uniformGuard, h, List.isEmpty_nil, Bool.or_true, if_true]

theorem uniformGuard_all (h : holdingLanes e ≠ []) (hall : (holdingLanes e).length = (countedLanes e.b e.w).length) :
    uniformGuard e = .ok true := by
  have hs := countedLanes_ne_nil h
  have ht := isEmpty_eq_false h
  rw [holdingLanes] at ht hall
  simp only [uniformGuard, hs, ht, hall, Bool.or_self, Bool.false_eq_true, if_false, if_true]

theorem uniformGuard_some (h : holdingLanes e ≠ []) (hsome : (holdingLanes e).length ≠ (countedLanes e.b e.w).length) :
    uniformGuard e = flt fBrNonuniform 0 := by
  have hs := countedLanes_ne_nil h
  have ht := isEmpty_eq_false h
  rw [holdingLanes] at ht hsome
  simp only [uniformGuard, hs, ht, hsome, Bool.or_self, Bool.false_eq_true, if_false]

end

-- RET: the return addresses of the effective lanes (R170).

/-- Values that all agree are one of them and no other. -/
theorem map_agree {α β : Type} [BEq β] [LawfulBEq β] {l : List α} {f : α → β} {x : β} (hl : l ≠ []) (h : ∀ y ∈ l, f y = x) :
    ∃ r, l.map f = x :: r ∧ (r.any fun y => y != x) = false := by
  obtain ⟨y, r, rfl⟩ := List.exists_cons_of_ne_nil hl
  refine ⟨r.map f, by rw [List.map_cons, h y List.mem_cons_self], ?_⟩
  simpa using fun z hz => h z (List.mem_cons_of_mem _ hz)

/-- Where two values differ, one differs from the first. -/
theorem map_differ {α β : Type} [BEq β] [LawfulBEq β] {l : List α} {f : α → β} (h : ∃ y ∈ l, ∃ z ∈ l, f y ≠ f z) :
    ∃ x r, l.map f = x :: r ∧ (r.any fun y => y != x) = true := by
  obtain ⟨y, hy, z, hz, hyz⟩ := h
  obtain ⟨v, r, rfl⟩ := List.exists_cons_of_ne_nil (List.ne_nil_of_mem hy)
  refine ⟨f v, r.map f, rfl, ?_⟩
  by_contra hall
  have hall : ∀ u ∈ v :: r, f u = f v := by simpa using hall
  exact hyz ((hall y hy).trans (hall z hz).symm)

-- BRQ and MOVQ: the pops of the home warps (R165, R166).

section
variable {e : WEnv}

theorem popCheck_ok (h : ∀ x ∈ popHomes e.b e.w, e.b.rdpos x < e.b.push) : popCheck e = .ok () := by
  have hany : ((popHomes e.b e.w).any fun x => decide (e.b.push ≤ e.b.rdpos x)) = false := by simpa using h
  simp only [popCheck, hany, Bool.false_eq_true, if_false]

/-- A pop past the pushes waits where a push can still come, and faults where none can. -/
theorem popCheck_past (h : ∃ x ∈ popHomes e.b e.w, e.b.push ≤ e.b.rdpos x) :
    popCheck e = if e.b.closed then flt fDqClosed 0 else waitOn .pop e.s := by
  have hany : ((popHomes e.b e.w).any fun x => decide (e.b.push ≤ e.b.rdpos x)) = true := by simpa using h
  simp only [popCheck, hany, if_true]

end

/-- Popped entries that are all zero, or none of them. -/
theorem popped_agree {l : List Nat} {p : Nat → Bool} {x : Bool} (hl : l ≠ []) (h : ∀ y ∈ l, p y = x) :
    (l.map p).any id = x ∧ (l.map p).all id = x := by
  obtain ⟨y, r, rfl⟩ := List.exists_cons_of_ne_nil hl
  cases x with
  | true => exact ⟨List.any_eq_true.mpr ⟨true, by simp [h y], rfl⟩, by simpa using h⟩
  | false => exact ⟨by simpa using h, by simp [h y]⟩

theorem popped_differ {l : List Nat} {p : Nat → Bool} (h : ∃ y ∈ l, ∃ z ∈ l, p y = false ∧ p z = true) :
    ((l.map p).any id && !(l.map p).all id) = true := by
  obtain ⟨y, hy, z, hz, hpy, hpz⟩ := h
  have hany : (l.map p).any id = true := by simpa using ⟨z, hz, hpz⟩
  have hall : (l.map p).all id = false := by simpa using ⟨y, hy, hpy⟩
  rw [hany, hall]
  rfl

end Sys2Proof.Machine
end

section
open Sys2Proof Sys2Proof.Machine

/-- Settles O27: the guard of BR, the links of CALL and RET, and the pops of BRQ and MOVQ, each where they agree and where not. -/
theorem warpBranches : Obligations.WarpBranches := by
  unfold Obligations.WarpBranches
  intro s c off o d a hold next
  refine ⟨?_, ?_, ?_, ?_, ?_, ?_, ?_, ?_, ?_, ?_, ?_, ?_⟩
  · exact warpIf_of_body rfl fun e ⟨hne, hall⟩ => by rw [uniformGuard_all hne hall]; rfl
  · exact warpIf_of_body rfl fun e hnone => by rw [uniformGuard_none hnone]; rfl
  · exact warpTraps_of_body rfl fun e ⟨hne, hsome⟩ => by rw [uniformGuard_some hne hsome]; rfl
  · intro hg
    exact warpDoes_of_body rfl fun e => by rw [if_pos hg]; rfl
  · exact warpIf_of_body rfl fun e hnil => by rw [hnil]; rfl
  · intro x e he ⟨hx, hne, hagree⟩
    obtain ⟨r, hmap, hr⟩ := map_agree hne hagree
    refine issue_warp_ok he ?_
    rw [hmap]
    dsimp only
    rw [hr, if_neg (not_not.mpr hx), ← (warpStart_state he).2]
    rfl
  · intro x
    refine warpTraps_of_body rfl fun e ⟨hx, hne, hagree⟩ => ?_
    obtain ⟨r, hmap, hr⟩ := map_agree hne hagree
    rw [hmap]
    dsimp only
    rw [hr, if_pos hx]
    rfl
  · refine warpTraps_of_body rfl fun e hdiffer => ?_
    obtain ⟨x, r, hmap, hr⟩ := map_differ hdiffer
    rw [hmap]
    dsimp only
    rw [hr]
    rfl
  · intro taken
    refine warpIf_of_body rfl fun e ⟨hne, hpop⟩ => ?_
    obtain ⟨hany, hall⟩ := popped_agree hne fun x hx => (hpop x hx).2
    rw [popCheck_ok fun x hx => (hpop x hx).1]
    dsimp only
    rw [hany, hall]
    cases taken <;> rfl
  · refine warpTraps_of_body rfl fun e ⟨hpop, x, hx, y, hy, hzero, hone⟩ => ?_
    rw [popCheck_ok hpop]
    dsimp only
    rw [popped_differ (p := fun h => e.b.dqAt h != 0) ⟨x, hx, y, hy, by simp [hzero], bne_iff_ne.mpr hone⟩]
    rfl
  · exact warpIf_of_body rfl fun e hpop => by rw [popCheck_ok hpop]
  · rintro i (rfl | rfl)
    · exact ⟨warpWaits_of_body rfl fun e ⟨hopen, hpast⟩ => by rw [popCheck_past hpast, hopen]; rfl,
        warpTraps_of_body rfl fun e ⟨hclosed, hpast⟩ => by rw [popCheck_past hpast, hclosed]; rfl⟩
    · exact ⟨warpWaits_of_body rfl fun e ⟨hopen, hpast⟩ => by rw [popCheck_past hpast, hopen]; rfl,
        warpTraps_of_body rfl fun e ⟨hclosed, hpast⟩ => by rw [popCheck_past hpast, hclosed]; rfl⟩
end

section
/-!
PROOFS. The branches of the sequencer (R135, R136): a target that is no multiple of 4 faults ALIGN, any other becomes the PC.
-/
namespace Sys2Proof.Machine

/-- Where SCALL goes: an offset from its own PC, or its register as it stood before the link is written (R135). -/
def scallTarget (e : SEnv) : SCallTgt → Addr54
  | .short v => branchTo e.q.pc v.toInt
  | .long v => branchTo e.q.pc v.toInt
  | .reg a => (e.q.get a.val).setWidth 54

theorem scall_aligned (s : State) (c : Ctl) (d : SReg) (x : SCallTgt) :
    SeqIf s (.scall c d x) c (fun e => (scallTarget e x).toNat % 4 = 0) fun e =>
      e.put ((e.q.advanceTo (scallTarget e x)).put d.val ((e.q.pc + 12).setWidth 64)) :=
  seqIf_of_body rfl fun e hx => by
    cases x <;> exact if_neg (not_not.mpr hx)

theorem scall_unaligned (s : State) (c : Ctl) (d : SReg) (x : SCallTgt) :
    SeqTraps s (.scall c d x) c (fun e => (scallTarget e x).toNat % 4 ≠ 0) fun e => ⟨fAlign, (scallTarget e x).toNat, 0, none⟩ :=
  seqTraps_of_body rfl fun e hx => by
    cases x <;> exact if_pos hx

/-- A register that is a multiple of 4 is one as a PC. -/
theorem toNat_setWidth_pc_mod (x : Word64) : (x.setWidth 54).toNat % 4 = x.toNat % 4 := by
  rw [BitVec.toNat_setWidth]
  omega

end Sys2Proof.Machine
end

section
open Sys2Proof Sys2Proof.Machine

/-- Settles O18: SBR, SCALL by the form of its target, SRET, and SBRX by what its table's head says. -/
theorem sequencerBranches : Obligations.SequencerBranches := by
  unfold Obligations.SequencerBranches
  refine ⟨fun s c off o d a v => ⟨?_, ?_, ?_, ?_⟩, ?_⟩
  · exact seqDoes_of_body rfl fun e => rfl
  · rintro x f (⟨rfl, rfl⟩ | ⟨rfl, rfl⟩ | ⟨rfl, rfl⟩)
    · exact ⟨scall_aligned s c d (.short o), scall_unaligned s c d (.short o)⟩
    · exact ⟨scall_aligned s c d (.long v), scall_unaligned s c d (.long v)⟩
    · exact ⟨scall_aligned s c d (.reg a), scall_unaligned s c d (.reg a)⟩
  · refine seqIf_of_body rfl fun e hx => if_neg (not_not.mpr ?_)
    rwa [toNat_setWidth_pc_mod]
  · refine seqTraps_of_body rfl fun e hx => ?_
    rw [← toNat_setWidth_pc_mod] at hx
    rw [← BitVec.toNat_setWidth]
    exact if_pos hx
  · intro s c a table e s1 s2 count mbz join pc t x he hhead
    refine ⟨fun hmbz hlt hentry => issue_seq_ok he ?_, fun hspec hbad =>
      issue_seq_fault he hspec (x := ⟨fBrxTarget, t.toNat, if mbz then 1 else 0, none⟩) ?_⟩
    · dsimp only
      rw [hhead]
      dsimp only
      rw [hmbz, if_neg Bool.false_ne_true, if_neg (Nat.not_le.mpr hlt), hentry]
      rfl
    · dsimp only
      rw [hhead]
      dsimp only
      cases mbz with
      | true => rfl
      | false => exact if_pos (hbad.resolve_left Bool.false_ne_true)
end

section
/-!
PROOFS. How the next choice of the agenda is carried out (R74): an agent's fetch and the word it finds, or an event.
-/
namespace Sys2Proof.Machine

theorem step_choice {s : State} {x : Choice} {rest : List Choice} (h : s.agenda = x :: rest) :
    step s = afterChoice ({ s with agenda := rest }.choose x) := by
  rw [step, h]

section
variable {s : State} {aid : Nat} {x : Issuer} {b : Block} {pc : Addr54}

/-- A fetched word that decodes is executed. -/
theorem fetchRun_decoded {t : State} {bytes : List Byte} {i : Instr} (hf : s.fetchWord aid b pc = .ok (t, bytes))
    (hd : decodeBytes bytes = .ok i) : s.fetchRun aid x b pc = exec i t := by
  simp only [State.fetchRun, hf, hd]

theorem fetchRun_undecoded {t : State} {bytes : List Byte} {d : DecodeError} (hf : s.fetchWord aid b pc = .ok (t, bytes))
    (hd : decodeBytes bytes = .error d) : s.fetchRun aid x b pc = illegalWord (BitVec.ofNat 96 (wordOfBytes bytes)) t := by
  simp only [State.fetchRun, hf, hd]

/-- A PC that is no multiple of 4 faults ALIGN before anything is read. -/
theorem fetchRun_unaligned (hpc : pc.toNat % 4 ≠ 0) :
    s.fetchRun aid x b pc = .next (s.fetchStop (.trap ⟨fAlign, pc.toNat, 0, none⟩) x) := by
  simp only [State.fetchRun, State.fetchWord, if_pos hpc, flt]

end

section
variable {s : State} {aid : Nat} {b : Block}

theorem runAgent_warp {w : Warp} (hi : { s with actor := some aid }.issuer = some (.warp b w))
    (hc : { s with actor := some aid }.canIssue (.warp b w) = true) : s.runAgent aid =
      if b.atJoin w then .next ({ s with actor := some aid }.joinStep b w)
      else { s with actor := some aid }.fetchRun aid (.warp b w) b w.pc := by
  simp only [State.runAgent, hi, hc, Bool.not_true, Bool.false_eq_true, if_false]

theorem runAgent_seq {q : SeqThread} (hi : { s with actor := some aid }.issuer = some (.seq b q))
    (hc : { s with actor := some aid }.canIssue (.seq b q) = true) :
    s.runAgent aid = { s with actor := some aid }.fetchRun aid (.seq b q) b q.pc := by
  simp only [State.runAgent, hi, hc, Bool.not_true, Bool.false_eq_true, if_false]

theorem fetchStop_warp_trap {w : Warp} {x : TrapInfo}
    (hs : (warpEnv s b w ⟨.always, 0, false⟩).b.specOf (warpEnv s b w ⟨.always, 0, false⟩).w.aid = none) :
    s.fetchStop (.trap x) (.warp b w) =
      takeTrap ((warpEnv s b w ⟨.always, 0, false⟩).s.dropFails (warpEnv s b w ⟨.always, 0, false⟩).b.die
        (warpEnv s b w ⟨.always, 0, false⟩).w.aid) (warpEnv s b w ⟨.always, 0, false⟩).b.id
        (trapRecW (warpEnv s b w ⟨.always, 0, false⟩) x) := by
  simp only [State.fetchStop, warpOutcome, hs, Option.isSome_none, Bool.false_eq_true, if_false]

theorem fetchStop_seq_trap {q : SeqThread} {x : TrapInfo} (hs : b.specOf q.aid = none) :
    s.fetchStop (.trap x) (.seq b q) = takeTrap (s.dropFails b.die q.aid) b.id ⟨x.code, q.pc, x.addr, x.aux, 0x3F, 0⟩ := by
  simp only [State.fetchStop, seqOutcome, hs, Option.isSome_none, Bool.false_eq_true, if_false]

end

end Sys2Proof.Machine
end

section
open Sys2Proof Sys2Proof.Machine

/-- Settles O58: a warp's turn, at a join and elsewhere, then the sequencer's turn, then an event. -/
theorem stepRunsDecoded : Obligations.StepRunsDecoded := by
  unfold Obligations.StepRunsDecoded
  intro s aid rest hs s1
  have hrun : step s = afterChoice (State.runAgent { s with agenda := rest } aid) := step_choice hs
  refine ⟨fun b w hi hc => ?_, fun b q hi hc => ?_, fun x i c hx hev => ?_, fun t => rfl⟩
  · have hturn := hrun.trans (congrArg afterChoice (runAgent_warp hi hc))
    refine ⟨fun hj => ?_, fun hj => ?_⟩
    · rw [hturn, hj, if_pos rfl]
      rfl
    · rw [hj, if_neg Bool.false_ne_true] at hturn
      refine ⟨fun t bytes i hf hd => ?_, fun t bytes d hf hd => ?_, fun hpc hspec => ?_⟩
      · rw [hturn, fetchRun_decoded hf hd]
      · rw [hturn, fetchRun_undecoded hf hd]
      · rw [hturn, fetchRun_unaligned hpc, fetchStop_warp_trap hspec]
        rfl
  · have hturn := hrun.trans (congrArg afterChoice (runAgent_seq hi hc))
    refine ⟨fun t bytes i hf hd => ?_, fun t bytes d hf hd => ?_, fun hpc hspec => ?_⟩
    · rw [hturn, fetchRun_decoded hf hd]
    · rw [hturn, fetchRun_undecoded hf hd]
    · rw [hturn, fetchRun_unaligned hpc, fetchStop_seq_trap hspec]
      rfl
  · rw [step_choice hx, State.choose, if_pos hev]
end

section
open Sys2Proof Sys2Proof.Machine

/-- Settles O56: the words are literals, and decoding computes. -/
theorem decodeSomeWords : Obligations.DecodeSomeWords := by
  unfold Obligations.DecodeSomeWords
  refine ⟨?_, ?_, ?_, ?_, ?_, ?_, ?_, ?_, ?_, ?_, ?_, ?_, ?_, ?_, ?_, ?_, ?_, ?_⟩ <;> decide
end

section
/-!
PROOFS. The frame of the sequencer's arithmetic (R135): each of its words puts back its block with one S register written and the PC moved.
-/
namespace Sys2Proof.Machine

/-- A word of the sequencer's arithmetic writes the S register that it names, whatever the state. -/
theorem seqWrites_of_seqAlu {i : Instr} {c : Ctl} {d : SReg} (hd : seqAlu i = some d) (hc : i.ctl = some c) :
    ∃ f : SEnv → Word64, ∀ s, SeqWrites s i c d f := by
  cases i with
  | smov | smovh | sadd | ssub | smul | smulhi | sdiv | srem | smin | smax =>
    cases hd; cases hc; exact ⟨_, fun _ => seqWrites_of_seqV rfl⟩
  | sand | sor | sxor | sshl | sshr | spopc | sclz | ssel => cases hd; cases hc; exact ⟨_, fun _ => seqWrites_of_seqV rfl⟩
  | _ => cases hd

/-- Where a sequencer's word begins to act, nothing has been written yet. -/
theorem seqStart_state {s : State} {i : Instr} {c : Ctl} {e : SEnv} (h : s.seqStart i c = some e) : e.s = s := by
  obtain ⟨b, q, -, -, -, -, -, b', -, rfl⟩ := seqStart_spec h
  rfl

theorem sameOutside_setBlock (s : State) (b : Block) : s.sameOutside (s.setBlock b) b.id :=
  ⟨fun _ => rfl, fun _ hk => block_setBlock_ne s b hk, rfl, rfl, rfl, rfl, rfl, rfl, rfl⟩

theorem sameRest_seq (b : Block) (q : Option SeqThread) : b.sameRest { b with seq := q } :=
  ⟨fun _ => rfl, rfl, rfl, rfl, rfl, rfl, rfl, rfl, rfl, rfl, rfl, rfl, rfl, rfl, rfl⟩

theorem SeqThread.get_put_ne (q : SeqThread) {n m : Nat} (x : Word64) (h : m ≠ n) : (q.put n x).get m = q.get m := by
  simp only [SeqThread.get, SeqThread.put, List.getD_eq_getElem?_getD, List.getElem?_set_ne h.symm]

end Sys2Proof.Machine
end

section
open Sys2Proof Sys2Proof.Machine

/-- Settles O16: the word puts back its block, in which the sequencer thread alone differs, by S[d], its PC and its wait. -/
theorem sequencerFrame : Obligations.SequencerFrame := by
  unfold Obligations.SequencerFrame
  intro s i c e d hd hc he
  obtain ⟨f, hwrites⟩ := seqWrites_of_seqAlu hd hc
  have hexec : exec i s = .next (e.put (e.q.advance.put d.val (f e))) := hwrites s e he
  have houtside : s.sameOutside (e.put (e.q.advance.put d.val (f e))) e.b.id := by
    rw [SEnv.put, seqStart_state he]
    exact sameOutside_setBlock s _
  exact ⟨_, _, _, hexec, block_setBlock_of_id _ _ rfl, rfl, houtside, sameRest_seq e.b _, rfl, rfl,
    fun n hn => e.q.advance.get_put_ne (f e) hn, rfl, rfl, rfl, rfl, rfl, rfl⟩
end

section
/-!
PROOFS. Dead and bound registers (R141, R145, R236): what reads as poison, and the registers that a word's last-use marks leave dead.
-/
namespace Sys2Proof.Machine

-- Poison.

theorem readV_bound {b : Block} {w : Warp} {t n : Nat} (h : boundV b w t n = true) : readV b w t n = poison := by
  simp only [readV, h, if_true]

theorem readV_dead {b : Block} {w : Warp} {t n : Nat} (h : (b.thread t).isDead n = true) : readV b w t n = poison := by
  simp only [readV, h, if_true, ite_self]

/-- A batch of a thread's home warp binds the register in the thread's path too (log entry 58). -/
theorem homeBinds_iff {b : Block} {t n : Nat} :
    homeBinds b t n = true ↔ ∃ h ∈ b.parked, some t ∈ h.lanes ∧ ∃ y ∈ h.binds, y.1 = n := by
  simp only [homeBinds, List.any_eq_true, Bool.and_eq_true, List.contains_iff_mem, beq_iff_eq]

-- Last-use marks.

/-- The last-use bit of an operand (R141). -/
def lastUse : Operand → Bool
  | .reg _ m _ => m
  | .idx _ _ m _ => m
  | _ => false

/-- The source fields of a word on a warp. -/
def sourcesOf (i : Instr) : List Operand := ((fieldsOf .warp i).filter fun p => p.2.role == .src).map Prod.fst

/-- The register `r` of each lane's thread dies. -/
def killLanes (eff : List (Nat × Nat)) (r : Nat → Nat) (b : Block) : Block :=
  eff.foldl (fun b l => b.modThread l.2 fun th => th.kill (r l.2)) b

/-- Marks are those of the source fields, one after the other. -/
theorem killMarks_eq (b : Block) (eff : List (Nat × Nat)) (i : Instr) : killMarks b eff i =
    ((sourcesOf i).filter lastUse).foldl (fun bl y => killLanes eff (fun u => regOf b u y) bl) b := by
  rw [sourcesOf, List.foldl_filter, List.foldl_map, List.foldl_filter, killMarks]
  congr 1
  funext bl p
  have hmark : (if (p.2.role == .src && lastUse p.1) = true then killLanes eff (fun u => regOf b u p.1) bl else bl) =
      if (p.2.role == .src) = true then (if lastUse p.1 = true then killLanes eff (fun u => regOf b u p.1) bl else bl) else bl := by
    simp only [Bool.and_eq_true, ite_and]
  exact hmark

theorem mem_kill_dead {th : Thread} {n m : Nat} : m ∈ (th.kill n).dead ↔ m ∈ th.dead ∨ n = m := by
  rw [Thread.kill]
  dsimp only
  split
  · next h =>
    have hn : n ∈ th.dead := by simpa using h
    exact ⟨.inl, fun hm => hm.elim id fun e => e ▸ hn⟩
  · rw [List.mem_cons, or_comm, eq_comm]

theorem killLanes_len (eff : List (Nat × Nat)) (r : Nat → Nat) (b : Block) :
    (killLanes eff r b).threads.length = b.threads.length :=
  foldl_keeps (P := fun x => x.threads.length = b.threads.length) (fun _ _ h => (modThread_len _ _ _).trans h) eff b rfl

theorem mem_killLanes_dead (r : Nat → Nat) {t m : Nat} : ∀ (eff : List (Nat × Nat)) (b : Block), t < b.threads.length →
    (m ∈ ((killLanes eff r b).thread t).dead ↔ m ∈ (b.thread t).dead ∨ (∃ l ∈ eff, l.2 = t) ∧ r t = m)
  | [], b, _ => by simp [killLanes]
  | l :: eff, b, ht => by
    have hlen : t < (b.modThread l.2 fun th => th.kill (r l.2)).threads.length := by rwa [modThread_len]
    have hstep : m ∈ ((b.modThread l.2 fun th => th.kill (r l.2)).thread t).dead ↔ m ∈ (b.thread t).dead ∨ l.2 = t ∧ r t = m := by
      rw [thread_modThread]
      by_cases hl : l.2 = t
      · subst hl
        rw [if_pos ⟨rfl, ht⟩, mem_kill_dead]
        simp only [true_and]
      · simp only [hl, false_and, if_false, or_false]
    rw [killLanes, List.foldl_cons]
    refine (mem_killLanes_dead r eff _ hlen).trans ?_
    rw [hstep, List.exists_mem_cons_iff, or_and_right, or_assoc]

/-- The dead registers after a list of operands has had its last use. -/
theorem mem_killOperands_dead (b : Block) (eff : List (Nat × Nat)) {t m : Nat} : ∀ (ys : List Operand) (bl : Block),
    t < bl.threads.length →
    (m ∈ ((ys.foldl (fun bl y => killLanes eff (fun u => regOf b u y) bl) bl).thread t).dead ↔
      m ∈ (bl.thread t).dead ∨ (∃ l ∈ eff, l.2 = t) ∧ ∃ y ∈ ys, regOf b t y = m)
  | [], bl, _ => by simp
  | y :: ys, bl, ht => by
    rw [List.foldl_cons, mem_killOperands_dead b eff ys _ (by rwa [killLanes_len]), mem_killLanes_dead _ _ _ ht,
      List.exists_mem_cons_iff, and_or_left, or_assoc]

/-- After a word's last uses, the marked sources are dead in the lanes that it names, and nothing else is new (R141, R145). -/
theorem mem_killMarks_dead {b : Block} (eff : List (Nat × Nat)) (i : Instr) {t m : Nat} (ht : t < b.threads.length) :
    m ∈ ((killMarks b eff i).thread t).dead ↔
      m ∈ (b.thread t).dead ∨ (∃ l ∈ eff, l.2 = t) ∧ ∃ y ∈ sourcesOf i, lastUse y = true ∧ regOf b t y = m := by
  rw [killMarks_eq, mem_killOperands_dead b eff _ b ht]
  simp only [List.mem_filter, and_assoc]

theorem killMarks_v (b : Block) (eff : List (Nat × Nat)) (i : Instr) (t : Nat) :
    ((killMarks b eff i).thread t).v = (b.thread t).v := by
  obtain ⟨d, hd⟩ := killMarks_thread b eff i t
  rw [hd]

-- The sources of memory operations: the data of a store is one, the destination of a load is none, whatever their sizes (R207).

theorem storeData_role (m : StMode) : m.dSpec.role = .src := by
  rw [StMode.dSpec]
  split <;> rfl

theorem loadDest_role (m : LdMode) : m.dSpec.role = .dst := by
  rw [LdMode.dSpec]
  split <;> rfl

/-- The fields of a load or a store are its data and its address. -/
theorem sourcesOf_access {i : Instr} {d a : Operand} {f g : FSpec} (hi : fieldsOf .warp i = [(d, f), (a, g)]) (hg : g.role = .src) :
    sourcesOf i = if f.role = .src then [d, a] else [a] := by
  rw [sourcesOf, hi]
  by_cases hf : f.role = .src <;> simp [hf, hg]

theorem sourcesOf_st (c : Ctl) (m : StMode) (d a : Operand) (v : Option (BitVec 19)) : sourcesOf (.st c m d a v) = [d, a] :=
  (sourcesOf_access rfl rfl).trans (if_pos (storeData_role m))

theorem sourcesOf_stl (c : Ctl) (m : StMode) (d a : Operand) (v : Option (BitVec 19)) : sourcesOf (.stl c m d a v) = [d, a] :=
  (sourcesOf_access rfl rfl).trans (if_pos (storeData_role m))

theorem sourcesOf_ld (c : Ctl) (m : LdMode) (d a : Operand) (v : Option (BitVec 19)) : sourcesOf (.ld c m d a v) = [a] :=
  (sourcesOf_access rfl rfl).trans (if_neg (by rw [loadDest_role]; decide))

end Sys2Proof.Machine
end

section
open Sys2Proof Sys2Proof.Machine

/-- Settles O13: a read's order of checks gives the poison; each word's marks are those of its source fields. -/
theorem deadRegisters : Obligations.DeadRegisters := by
  unfold Obligations.DeadRegisters
  constructor
  · rintro b w t n (hdead | hbinds | hhome)
    · exact readV_dead hdead
    · exact readV_bound (by rw [boundV, hbinds, Bool.true_or])
    · exact readV_bound (by rw [boundV, homeBinds_iff.mpr hhome, Bool.or_true])
  · intro b c eff d a o v lm sm uns x rnd ord p t ht marked rule
    have rule_of {i : Instr} {srcs : List Operand} (h : sourcesOf i = srcs) : rule i srcs :=
      ⟨fun m => h ▸ mem_killMarks_dead eff i ht, killMarks_v b eff i t⟩
    exact ⟨rule_of rfl, rule_of rfl, rule_of rfl, rule_of rfl, rule_of rfl, rule_of rfl, rule_of (sourcesOf_st ..),
      rule_of (sourcesOf_stl ..), rule_of (sourcesOf_ld ..), rule_of rfl, rule_of rfl⟩

end

section
/-!
PROOFS. The nesting counters of structured divergence (R146, R171, R172): a step of a warp's counters where none passes 15 and where one
does, and what each instruction makes of a counter.
-/
namespace Sys2Proof.Machine

/-- The live lanes of the warp have their counters changed by `f`. -/
def bumpNest (e : WEnv) (f : Nat → Nat → Nat) (b : Block) : Block :=
  (liveLanes b e.w).foldl (fun b l => b.modThread l.2 fun th => { th with nest := f l.2 th.nest }) b

section
variable {e : WEnv} {f : Nat → Nat → Nat}

theorem nestStep_ok (h : ∀ l ∈ liveLanes e.b e.w, f l.2 (e.b.thread l.2).nest ≤ 15) : nestStep e f = .ok (bumpNest e f e.b) := by
  have hnone : ((liveLanes e.b e.w).filter fun l => decide (15 < f l.2 (e.b.thread l.2).nest)) = [] := by
    rw [List.filter_eq_nil_iff]
    intro l hl
    rw [decide_eq_true_eq, Nat.not_lt]
    exact h l hl
  simp only [nestStep, hnone, List.isEmpty_nil, if_true, bumpNest]

/-- A counter that would pass 15 faults with the lanes where it would (R146). -/
theorem nestStep_overflow (h : ∃ l ∈ liveLanes e.b e.w, 15 < f l.2 (e.b.thread l.2).nest) :
    nestStep e f = fltLanes fNestOverflow 0 0
      (lanesMask ((liveLanes e.b e.w).filter fun l => decide (15 < f l.2 (e.b.thread l.2).nest))) := by
  have hsome := isEmpty_eq_false (l := (liveLanes e.b e.w).filter fun l => decide (15 < f l.2 (e.b.thread l.2).nest)) (by simpa using h)
  simp only [nestStep, hsome, Bool.false_eq_true, if_false]

end

section
variable {s : State} (i : Instr) {c : Ctl} {f g : WEnv → Nat → Nat → Nat}

theorem nestOp_ok (hx : exec i s = nestOp i c g s) (hg : ∀ e t n, g e t n = f e t n) :
    WarpIf s i c (fun e => ∀ l ∈ liveLanes e.b e.w, f e l.2 (e.b.thread l.2).nest ≤ 15)
      fun e => e.put (bumpNest e (f e) e.b) (e.w.advance c) := by
  obtain rfl : g = f := funext fun e => funext fun t => funext (hg e t)
  exact warpIf_of_body hx fun e h => by rw [nestStep_ok h]

/-- An instruction that opens `k` levels in every lane that does not run overflows where the counter has no room for them. -/
theorem nestOp_traps {k : Nat} (hx : exec i s = nestOp i c g s) (hg : ∀ e t n, 15 < g e t n ↔ 0 < n ∧ 15 < n + k) :
    WarpTraps s i c (fun e => ∃ l ∈ liveLanes e.b e.w, 0 < (e.b.thread l.2).nest ∧ 15 < (e.b.thread l.2).nest + k)
      fun e => ⟨fNestOverflow, 0, 0, some (lanesMask ((liveLanes e.b e.w).filter fun l =>
        decide (0 < (e.b.thread l.2).nest ∧ 15 < (e.b.thread l.2).nest + k)))⟩ := by
  refine warpTraps_of_body hx fun e h => ?_
  have hover : ∃ l ∈ liveLanes e.b e.w, 15 < g e l.2 (e.b.thread l.2).nest := by simpa only [hg] using h
  rw [nestStep_overflow hover]
  simp only [hg]
  rfl

end

-- Each instruction's function of a counter (R171, R172).

theorem nestIf_eq (n : Nat) (h : Bool) : nestIf n h = if n = 0 then (if h then 0 else 1) else n + 1 := by
  simp only [nestIf, ne_eq, ite_not]

theorem nestIf_over (n : Nat) (h : Bool) : 15 < nestIf n h ↔ 0 < n ∧ 15 < n + 1 := by
  rw [nestIf_eq]
  split
  · cases h <;> simp only [Bool.false_eq_true, if_false, if_true] <;> omega
  · omega

theorem nestLoop_eq (n : Nat) : nestLoop n = if n = 0 then 0 else n + 2 := by
  simp only [nestLoop, ne_eq, ite_not]

theorem nestLoop_over (n : Nat) : 15 < nestLoop n ↔ 0 < n ∧ 15 < n + 2 := by
  rw [nestLoop_eq]
  split <;> omega

theorem nestBrk_eq (d n : Nat) (h : Bool) : nestBrk d n h = if n = 0 ∧ h = true then 2 + d else n := by
  rw [nestBrk, Nat.add_comm]

theorem nestCont_eq (d n : Nat) (h : Bool) : nestCont d n h = if n = 0 ∧ h = true then 1 + d else n := by
  rw [nestCont, Nat.add_comm]

theorem nestExit_eq (n : Nat) : nestExit n = n - 2 := by
  rw [nestExit]
  split <;> omega

-- ENDL (R172).

section
variable {s : State} {c : Ctl} {o : BitVec 19} {e : WEnv} (he : s.warpStart (.endl c o) c = some e)
  (hle : ∀ l ∈ liveLanes e.b e.w, nestNext (e.b.thread l.2).nest ≤ 15)
include he hle

/-- A lane that runs another iteration takes its warp back to the loop's start. -/
theorem endl_again (hrun : ∃ l ∈ liveLanes (bumpNest e (fun _ n => nestNext n) e.b) e.w,
      ((bumpNest e (fun _ n => nestNext n) e.b).thread l.2).nest = 0) :
    exec (.endl c o) s = .next (e.put (bumpNest e (fun _ n => nestNext n) e.b) (e.w.advanceTo c (branchTo e.w.pc o.toInt))) := by
  refine issue_warp_ok he ?_
  rw [nestStep_ok hle]
  exact if_pos (by simpa using hrun)

/-- Where no lane runs another, the warp leaves the loop and its lanes close the loop's two levels. -/
theorem endl_leave (hstop : ∀ l ∈ liveLanes (bumpNest e (fun _ n => nestNext n) e.b) e.w,
      ((bumpNest e (fun _ n => nestNext n) e.b).thread l.2).nest ≠ 0) :
    exec (.endl c o) s = .next (e.put (bumpNest e (fun _ n => n - 2) (bumpNest e (fun _ n => nestNext n) e.b)) (e.w.advance c)) := by
  refine issue_warp_ok he ?_
  rw [nestStep_ok hle]
  refine (if_neg (by simpa using hstop)).trans ?_
  simp only [nestExit_eq]
  rfl

end

end Sys2Proof.Machine
end

section
open Sys2Proof Sys2Proof.Machine

/-- Settles O29: each instruction is a step of the counters by its own function; ENDL's second step closes the loop's levels. -/
theorem nesting : Obligations.Nesting := by
  unfold Obligations.Nesting
  intro s c sense p depth o
  dsimp only
  refine ⟨?_, ?_, ?_, ?_, ?_, ?_, ?_, ?_, ?_⟩
  · exact nestOp_ok (.ifOpen c sense p) rfl fun e t n => nestIf_eq n _
  · exact nestOp_traps (.ifOpen c sense p) rfl fun e t n => nestIf_over n _
  · exact nestOp_ok (.elseFlip c) rfl fun e t n => rfl
  · exact nestOp_ok (.endIf c) rfl fun e t n => rfl
  · exact nestOp_ok (.loop c) rfl fun e t n => nestLoop_eq n
  · exact nestOp_traps (.loop c) rfl fun e t n => nestLoop_over n
  · exact nestOp_ok (.brkLoop c sense depth p) rfl fun e t n => nestBrk_eq depth.toNat n _
  · exact nestOp_ok (.cont c sense depth p) rfl fun e t n => nestCont_eq depth.toNat n _
  · intro e he hle
    have hback : ∀ l ∈ liveLanes e.b e.w, nestNext (e.b.thread l.2).nest ≤ 15 := fun l hl => by
      have := hle l hl
      rw [nestNext]
      split <;> omega
    exact ⟨endl_again he hback, endl_leave he hback⟩

end

section
/-!
PROOFS. Meetings (R148, R167 to R169): how a meeting ends by the tags that its threads carry, and what the index of a thread at a BRX
decides.
-/
namespace Sys2Proof.Machine

-- How a meeting ends.

section
variable {e : WEnv} {c : Ctl} {tag : Block → Warp → Nat → Nat} {act : State → Block → Nat → Except Stop State}
  {entry : State → Block → List Nat → List Nat → Except Stop (State × Block × StackEnt × Addr54)} {x y : Nat} {r : List Nat}

theorem meeting_waits (hready : meetingReady e.b e.w = false) : meeting e c tag act entry = waitOn .meet e.s := by
  simp only [meeting, hready, Bool.not_false, if_true]

theorem meeting_idle (hready : meetingReady e.b e.w = true)
    (htags : pathTags (meetingTags e.b.settleWarps (tag e.b.settleWarps)) = []) :
    meeting e c tag act entry = .ok (e.s.setBlock (e.b.settleWarps.sendAll c (e.w.pc + 12))) := by
  simp only [meeting, hready, htags, Bool.not_true, Bool.false_eq_true, if_false]

theorem meeting_oneWay (hready : meetingReady e.b e.w = true)
    (htags : pathTags (meetingTags e.b.settleWarps (tag e.b.settleWarps)) = [x]) :
    meeting e c tag act entry = act e.s e.b.settleWarps x := by
  simp only [meeting, hready, htags, Bool.not_true, Bool.false_eq_true, if_false]

section
variable (hready : meetingReady e.b e.w = true)
  (htags : pathTags (meetingTags e.b.settleWarps (tag e.b.settleWarps)) = x :: y :: r)
include hready htags

/-- Where threads part, the meeting waits for the accesses of its warps (R42). -/
theorem meeting_unsettled (hset : e.s.warpsSettled e.b .blk = false) :
    meeting e c tag act entry = .ok (setWaitW e.s e.b.id e.w.k .meet) := by
  simp only [meeting, hready, htags, hset, Bool.not_true, Bool.not_false, Bool.false_eq_true, if_false, if_true]

/-- Threads that part find no room on the stack (R153). -/
theorem meeting_full (hset : e.s.warpsSettled e.b .blk = true) (hpush : e.b.settleWarps.canPush = false) :
    meeting e c tag act entry = flt fAccess 2 := by
  simp only [meeting, hready, htags, hset, hpush, Bool.not_true, Bool.not_false, Bool.false_eq_true, if_false, if_true]

theorem meeting_parts (hset : e.s.warpsSettled e.b .blk = true) (hpush : e.b.settleWarps.canPush = true) {t : State} {b : Block}
    {ent : StackEnt} {pc : Addr54}
    (hentry : entry e.s e.b.settleWarps (meetingTags e.b.settleWarps (tag e.b.settleWarps)) (x :: y :: r) = .ok (t, b, ent, pc)) :
    meeting e c tag act entry = .ok (t.pushMeeting b ent pc) := by
  simp only [meeting, hready, htags, hset, hpush, hentry, Bool.not_true, Bool.false_eq_true, if_false]

end

end

-- BRX: what the indices of the acting threads decide (R168).

/-- The least member of a list is the one that no member is below. -/
theorem minOf_eq {l : List Nat} {n : Nat} (hmem : n ∈ l) (hle : ∀ m ∈ l, n ≤ m) : minOf l = n := by
  cases l with
  | nil => cases hmem
  | cons x r => exact Option.some.inj (List.min?_cons'.symm.trans (List.min?_eq_some_iff.mpr ⟨hmem, hle⟩))

/-- The tags of a meeting are those of its acting threads. -/
theorem meetingTags_congr {b : Block} {f g : Warp → Nat → Nat}
    (h : ∀ t l, (meetingLanes b).find? (fun l => l.2.2 == t) = some l → (b.thread t).nest = 0 → f l.1 t = g l.1 t) :
    meetingTags b f = meetingTags b g := by
  unfold meetingTags
  refine List.map_congr_left fun t _ => ?_
  split
  · next l hl =>
    by_cases hn : (b.thread t).nest = 0
    · rw [h t l hl hn]
    · rw [if_pos hn, if_pos hn]
  · rfl

/-- The lanes that act at a BRX. -/
def brxLanes (b : Block) : List (Warp × Nat × Nat) := (meetingLanes b).filter fun l => (b.thread l.2.2).nest == 0

/-- The acting threads of a BRX, each with its index. -/
def brxIndices (b : Block) (a : Operand) : List (Nat × Nat) :=
  (brxLanes b).map fun l => (l.2.2, brxIndex b l.1 a l.2.2)

/-- The lanes whose index the table does not hold. -/
def brxBad (b : Block) (a : Operand) (count : Nat) : List (Warp × Nat × Nat) :=
  (brxLanes b).filter fun l => decide (count ≤ brxIndex b l.1 a l.2.2)

/-- The index register is dead after its last use (R141). -/
def brxMarked (b : Block) (a : Operand) : Block := match a with
  | .reg n true _ => (brxLanes b).foldl (fun b l => b.modThread l.2.2 fun th => th.kill n.toNat) b
  | _ => b

/-- An acting thread's index is that of the first lane with the thread. -/
theorem brxIndices_find {b : Block} {t : Nat} {l : Warp × Nat × Nat} (a : Operand)
    (hl : (meetingLanes b).find? (fun l => l.2.2 == t) = some l) (hn : (b.thread t).nest = 0) :
    (brxIndices b a).find? (fun p => p.1 == t) = some (t, brxIndex b l.1 a t) := by
  have ht : l.2.2 = t := by simpa using List.find?_some hl
  have hact : (brxLanes b).find? (fun l => l.2.2 == t) = some l := by
    rw [brxLanes, List.find?_filter, ← hl]
    congr 1
    funext k
    by_cases hk : k.2.2 = t <;> simp [hk, hn]
  rw [brxIndices, List.find?_map]
  exact (congrArg (Option.map _) hact).trans (by rw [Option.map_some, ht])

/-- Where the acting threads agree, the one index is the first. -/
theorem brxIndices_agree {b : Block} {a : Operand} {x : Nat} (hne : brxLanes b ≠ [])
    (h : ∀ l ∈ brxLanes b, brxIndex b l.1 a l.2.2 = x) :
    ((brxIndices b a).map Prod.snd).headD 0 = x ∧ ((brxIndices b a).all fun p => p.2 == x) = true := by
  refine ⟨?_, by simpa [brxIndices] using fun w i t hl => h (w, i, t) hl⟩
  obtain ⟨l, r, hl⟩ := List.exists_cons_of_ne_nil hne
  rw [brxIndices, hl]
  exact h l (hl ▸ List.mem_cons_self)

theorem brxIndices_differ {b : Block} {a : Operand} (x : Nat)
    (h : ∃ l ∈ brxLanes b, ∃ k ∈ brxLanes b, brxIndex b l.1 a l.2.2 ≠ brxIndex b k.1 a k.2.2) :
    ((brxIndices b a).all fun p => p.2 == x) = false := by
  obtain ⟨l, hl, k, hk, hlk⟩ := h
  by_contra hall
  have hall : ∀ l ∈ brxLanes b, brxIndex b l.1 a l.2.2 = x := by
    simpa [brxIndices] using hall
  exact hlk ((hall l hl).trans (hall k hk).symm)

-- BRX: how it ends (R168).

section
variable {s : State} {c : Ctl} {a : Operand} {t : BitVec 19} {e : WEnv}

theorem brx_idle (he : s.warpStart (.brx c a t) c = some e) (hready : meetingReady e.b e.w = true)
    (hidle : brxLanes e.b.settleWarps = []) :
    exec (.brx c a t) s = .next (e.s.setBlock (e.b.settleWarps.sendAll c (e.w.pc + 12))) := by
  rw [brxLanes] at hidle
  refine issue_warp_ok he ?_
  simp only [hready, hidle, List.isEmpty_nil, Bool.not_true, Bool.false_eq_true, if_false, if_true]

section
variable {s1 : State} {count : Nat} {mbz : Bool} {join : Int} (he : s.warpStart (.brx c a t) c = some e)
  (hready : meetingReady e.b e.w = true) (hne : brxLanes e.b.settleWarps ≠ [])
  (hhead : e.s.tableHead e.w.aid e.b (branchTo e.w.pc t.toInt) = .ok (s1, count, mbz, join))
include he hready hne hhead

/-- A must-be-zero bit of the table faults before any index is compared. -/
theorem brx_mbz (hmbz : mbz = true) (hspec : e.b.specOf e.w.aid = none) :
    exec (.brx c a t) s = .next (takeTrap (e.s.dropFails e.b.die e.w.aid) e.b.id
      (trapRecW e ⟨fBrxTarget, (branchTo e.w.pc t.toInt).toNat, 1, none⟩)) := by
  have hlanes := isEmpty_eq_false hne
  rw [brxLanes] at hlanes
  refine issue_warp_fault he hspec ?_
  simp only [hready, hlanes, hhead, hmbz, Bool.not_true, Bool.false_eq_true, if_false, if_true]
  rfl

/-- An index past the table faults for the warp of the lowest-numbered thread that has one. -/
theorem brx_outOfRange (hmbz : mbz = false) {l : Warp × Nat × Nat} (hl : l ∈ brxBad e.b.settleWarps a count)
    (hleast : ∀ k ∈ brxBad e.b.settleWarps a count, l.2.2 ≤ k.2.2 ∧ (k.2.2 = l.2.2 → k.1.k = l.1.k)) :
    exec (.brx c a t) s = .next (takeTrap (setWaitW e.s e.b.id e.w.k .meet) e.b.id
      ⟨fBrxTarget, e.w.pc, (branchTo e.w.pc t.toInt).toNat, 0, l.1.k,
        maskOf (((brxBad e.b.settleWarps a count).filter fun k => k.1.k == l.1.k).map fun k => k.2.1)⟩) := by
  have hlanes := isEmpty_eq_false hne
  have hmin : minOf ((brxBad e.b.settleWarps a count).map fun l => l.2.2) = l.2.2 :=
    minOf_eq (List.mem_map_of_mem hl) (by simpa using fun n w i hk => (hleast (w, i, n) hk).1)
  obtain ⟨k, hfind⟩ : ∃ k, (brxBad e.b.settleWarps a count).find? (fun k => k.2.2 == l.2.2) = some k :=
    Option.isSome_iff_exists.mp (List.find?_isSome.mpr ⟨l, hl, beq_self_eq_true _⟩)
  have hk : k.1.k = l.1.k :=
    (hleast k (List.mem_of_find?_eq_some hfind)).2 (by simpa using List.find?_some hfind)
  obtain ⟨n, r, hthreads⟩ := List.exists_cons_of_ne_nil (List.ne_nil_of_mem (List.mem_map_of_mem (f := fun l => l.2.2) hl))
  rw [hthreads] at hmin
  refine issue_warp_ok he ?_
  rw [brxBad] at hthreads hfind ⊢
  rw [brxLanes] at hlanes hthreads hfind ⊢
  simp only [hready, hlanes, hhead, hmbz, hthreads, hmin, hfind, hk, Bool.not_true, Bool.false_eq_true, if_false]

section
variable {s2 : State} {start : Addr54} {x : Nat} (hmbz : mbz = false) (hbad : brxBad e.b.settleWarps a count = [])
  (hentry : s1.tableEntry e.w.aid e.b (branchTo e.w.pc t.toInt) x = .ok (s2, start))
include hmbz hbad hentry

/-- One index of all acting threads: every warp goes on at its entry's target. -/
theorem brx_oneWay (hone : ∀ l ∈ brxLanes e.b.settleWarps, brxIndex e.b.settleWarps l.1 a l.2.2 = x) :
    exec (.brx c a t) s = .next (s2.setBlock ((brxMarked e.b.settleWarps a).sendAll c start)) := by
  have hlanes := isEmpty_eq_false hne
  obtain ⟨hhd, hall⟩ := brxIndices_agree hne hone
  refine issue_warp_ok he ?_
  rw [brxBad] at hbad
  rw [brxIndices] at hhd hall
  rw [brxLanes] at hlanes hbad hhd hall
  simp only [hready, hlanes, hhead, hmbz, hbad, hhd, hall, hentry, List.map_nil, Bool.not_true, Bool.false_eq_true, if_false, if_true]
  rfl

end

end

/-- Indices that differ part the block: the accesses of its warps are awaited (R42), then an entry is pushed if it finds room (R153). -/
theorem brx_parts {s1 s2 : State} {count x : Nat} {join : Int} {start : Addr54} {r : List Nat}
    (hready : meetingReady e.b e.w = true)
    (hhead : e.s.tableHead e.w.aid e.b (branchTo e.w.pc t.toInt) = .ok (s1, count, false, join))
    (hbad : brxBad e.b.settleWarps a count = [])
    (hentry : s1.tableEntry e.w.aid e.b (branchTo e.w.pc t.toInt) x = .ok (s2, start))
    (hdiffer : ∃ l ∈ brxLanes e.b.settleWarps, ∃ k ∈ brxLanes e.b.settleWarps,
      brxIndex e.b.settleWarps l.1 a l.2.2 ≠ brxIndex e.b.settleWarps k.1 a k.2.2)
    (htags : pathTags (meetingTags e.b.settleWarps fun w t => brxIndex e.b.settleWarps w a t) = x :: r) :
    ∃ wb sb, exec (.brx c a t) s = issue (.brx c a t) c wb sb s ∧ wb e =
      if s2.warpsSettled e.b .blk = false then .ok (setWaitW e.s e.b.id e.w.k .meet)
      else if e.b.settleWarps.canPush = false then flt fAccess 2
      else .ok (s2.pushMeeting (brxMarked e.b.settleWarps a)
        ⟨branchTo (branchTo e.w.pc t.toInt) join, .brx, x, maxOf (x :: r), branchTo e.w.pc t.toInt, 0,
          meetingTags e.b.settleWarps fun w t => brxIndex e.b.settleWarps w a t, []⟩ start) := by
  have hne : brxLanes e.b.settleWarps ≠ [] := by
    obtain ⟨l, hl, -⟩ := hdiffer
    exact List.ne_nil_of_mem hl
  have hlanes := isEmpty_eq_false hne
  have hall := brxIndices_differ (((brxIndices e.b.settleWarps a).map Prod.snd).headD 0) hdiffer
  rw [brxBad] at hbad
  rw [brxIndices] at hall
  rw [brxLanes] at hlanes hbad hall
  refine ⟨_, _, rfl, ?_⟩
  dsimp only
  rw [meetingTags_congr (g := fun w t => brxIndex e.b.settleWarps w a t)]
  · simp only [hready, hlanes, hhead, hbad, hall, htags, hentry, List.map_nil, Bool.not_true, Bool.not_eq_true', Bool.false_eq_true,
      if_false]
    rfl
  · intro t l hl hn
    have hfind := brxIndices_find a hl hn
    rw [brxIndices, brxLanes] at hfind
    simp only [hfind]

end

end Sys2Proof.Machine
end

section
open Sys2Proof Sys2Proof.Machine

/-- Settles O28: a meeting by the tags of its threads, for BRD and a guarded CALL; BRX by its table's head and its threads' indices. -/
theorem meetings : Obligations.Meetings := by
  unfold Obligations.Meetings
  intro s c t j a d off brd brx call at_ tags room
  refine ⟨?_, ?_, ?_, ?_, ?_, ?_, ?_, ?_⟩
  · rintro i (rfl | rfl | ⟨rfl, hg⟩)
    · exact warpWaits_of_body rfl fun e hready => meeting_waits hready
    · exact warpWaits_of_body rfl fun e hready => by rw [hready]; rfl
    · exact warpWaits_of_body rfl fun e hready => by rw [if_neg hg]; exact meeting_waits hready
  · refine warpIf_of_body rfl fun e ⟨hready, htags⟩ => (meeting_oneWay hready htags).trans ?_
    rw [if_pos rfl]
    rfl
  · refine warpIf_of_body rfl fun e ⟨hready, htags⟩ => (meeting_oneWay hready htags).trans ?_
    rw [if_neg Nat.one_ne_zero]
  · exact warpIf_of_body rfl fun e ⟨⟨hready, hset, hpush⟩, htags⟩ => meeting_parts hready htags hset hpush rfl
  · rintro i (rfl | ⟨rfl, hg⟩)
    · refine ⟨warpIf_of_body rfl fun e ⟨hready, htags⟩ => meeting_idle hready htags, ?_⟩
      exact fun e he ⟨hready, htags, hset⟩ => issue_warp_ok he (meeting_unsettled hready htags hset)
    · refine ⟨warpIf_of_body rfl fun e ⟨hready, htags⟩ => by rw [if_neg hg]; exact meeting_idle hready htags, ?_⟩
      exact fun e he ⟨hready, htags, hset⟩ => issue_warp_ok he (by rw [if_neg hg]; exact meeting_unsettled hready htags hset)
  · intro hg
    refine ⟨?_, ?_, ?_⟩
    · refine warpIf_of_body rfl fun e ⟨hready, htags⟩ => (if_neg hg).trans ((meeting_oneWay hready htags).trans ?_)
      rw [if_pos rfl]
      rfl
    · refine warpIf_of_body rfl fun e ⟨hready, htags⟩ => (if_neg hg).trans ((meeting_oneWay hready htags).trans ?_)
      rw [if_neg Nat.one_ne_zero]
    · exact warpIf_of_body rfl fun e ⟨⟨hready, hset, hpush⟩, htags⟩ => by
        rw [if_neg hg]; exact meeting_parts hready htags hset hpush rfl
  · exact warpTraps_of_body rfl fun e ⟨hready, hset, hpush, htags⟩ => meeting_full hready htags hset hpush
  · intro e he hready b lanes table marked
    refine ⟨brx_idle he hready, ?_⟩
    intro s1 count mbz join hne hhead bad
    refine ⟨brx_mbz he hready hne hhead, fun l hl hmbz hleast => brx_outOfRange he hready hne hhead hmbz hl hleast, ?_⟩
    intro s2 start x hmbz hbad hentry
    refine ⟨brx_oneWay he hready hne hhead hmbz hbad hentry, ?_⟩
    intro r hdiffer parted htags
    rw [hmbz] at hhead
    obtain ⟨wb, sb, hexec, hbody⟩ := brx_parts (s := s) (c := c) hready hhead hbad hentry hdiffer htags
    rw [show exec brx s = _ from hexec]
    refine ⟨fun hset => issue_warp_ok he ?_, fun hset hpush hspec => issue_warp_fault he hspec (x := ⟨fAccess, 0, 2, none⟩) ?_,
      fun hset hpush => issue_warp_ok he ?_⟩
    · rw [hbody, if_pos hset]
    · rw [hbody, if_neg (ne_false_of_eq_true hset), if_pos hpush]
      rfl
    · rw [hbody, if_neg (ne_false_of_eq_true hset), if_neg (ne_false_of_eq_true hpush)]
      rfl

end

section
/-!
PROOFS. Bits of integer results: counts and reversal (R56, R175), and the fields of BFE and BFI (R176).
-/
namespace Sys2Proof.Machine

/-- The reversal is the mask of the mirrored bits. -/
theorem bitReverse_bit (x : Word32) {i : Nat} (hi : i < 32) : (bitReverse x).getLsbD i = x.getLsbD (31 - i) := by
  have h : bitReverse x = maskOf ((List.range 32).filter fun j => x.getLsbD (31 - j)) := rfl
  rw [h, Bool.eq_iff_iff, maskOf_bit _ _ hi, List.mem_filter, List.mem_range]
  exact and_iff_right hi

/-- Above the highest set bit stand the leading zeros. -/
theorem leadZeros_bits {x : Word32} (hx : x ≠ 0) :
    x.getLsbD (31 - leadZeros x) = true ∧ ∀ i, 31 - leadZeros x < i → x.getLsbD i = false := by
  have h0 : x.toNat ≠ 0 := fun h => hx (BitVec.eq_of_toNat_eq h)
  have hlog : Nat.log2 x.toNat < 32 := (Nat.log2_lt h0).mpr x.isLt
  have htop : 31 - leadZeros x = Nat.log2 x.toNat := by
    rw [leadZeros, if_neg hx]
    omega
  rw [htop]
  exact ⟨Nat.testBit_log2 h0, fun i hi => Nat.testBit_lt_two_pow ((Nat.log2_lt h0).mp hi)⟩

-- Fields (R176).

/-- The field that BFE takes: the bits of A from the position on. -/
def fieldBits (a b : Word32) : BitVec (fieldLen b) := a.extractLsb' (fieldPos b) (fieldLen b)

theorem fieldBits_toNat (a b : Word32) : (fieldBits a b).toNat = a.toNat / 2 ^ fieldPos b % 2 ^ fieldLen b := by
  rw [fieldBits, BitVec.extractLsb'_toNat, Nat.shiftRight_eq_div_pow]

/-- BFE extends its field with zeros, or with its sign. -/
theorem bitExtract_eq (uns : Bool) (a b : Word32) :
    bitExtract uns a b = if uns then (fieldBits a b).setWidth 32 else (fieldBits a b).signExtend 32 := by
  have hx := fieldBits_toNat a b
  unfold bitExtract
  dsimp only
  rw [← hx]
  generalize fieldBits a b = f
  generalize fieldLen b = m at f
  rcases Nat.eq_zero_or_pos m with rfl | hm
  · rw [BitVec.eq_nil f]
    cases uns <;> rfl
  · have hpow : 2 ^ m = 2 * 2 ^ (m - 1) := by rw [← pow_succ', Nat.sub_add_cancel hm]
    rw [if_neg hm.ne']
    cases uns
    · have hsign : f.toInt = if 2 ^ (m - 1) ≤ f.toNat then (f.toNat : Int) - 2 ^ m else f.toNat := by
        rw [BitVec.toInt_eq_toNat_cond]
        by_cases h : 2 ^ (m - 1) ≤ f.toNat
        · rw [if_pos h, if_neg (by omega)]
          norm_cast
        · rw [if_neg h, if_pos (by omega)]
      by_cases h : 2 ^ (m - 1) ≤ f.toNat
      · rw [if_pos h] at hsign
        simp [h, BitVec.signExtend, hsign]
      · rw [if_neg h] at hsign
        simp [h, BitVec.signExtend, hsign, w32]
    · rw [if_neg (by simp), if_pos rfl, w32, BitVec.ofNat_toNat]

theorem fieldBits_bit (a b : Word32) (i : Nat) :
    (fieldBits a b).getLsbD i = (decide (i < fieldLen b) && a.getLsbD (fieldPos b + i)) :=
  BitVec.getLsbD_extractLsb' _ _ _ _

/-- BFE bit by bit. -/
theorem bitExtract_bit (uns : Bool) (a b : Word32) {i : Nat} (hi : i < 32) : (bitExtract uns a b).getLsbD i =
    if i < fieldLen b then a.getLsbD (fieldPos b + i)
    else if uns || fieldLen b == 0 then false else a.getLsbD (fieldPos b + fieldLen b - 1) := by
  rw [bitExtract_eq]
  cases uns
  · rw [if_neg Bool.false_ne_true, BitVec.getLsbD_signExtend, decide_eq_true hi, Bool.true_and, fieldBits_bit]
    by_cases hin : i < fieldLen b
    · simp [hin]
    · rw [if_neg hin, if_neg hin, Bool.false_or, BitVec.msb_eq_getLsbD_last, fieldBits_bit]
      rcases Nat.eq_zero_or_pos (fieldLen b) with h0 | hpos
      · simp [h0]
      · have hlast : fieldPos b + (fieldLen b - 1) = fieldPos b + fieldLen b - 1 := by omega
        simp [hpos, hpos.ne', hlast]
  · rw [if_pos rfl, BitVec.getLsbD_setWidth, decide_eq_true hi, Bool.true_and, fieldBits_bit]
    by_cases hin : i < fieldLen b <;> simp [hin]

/-- The mask of BFI's field. -/
theorem fieldMask_bit (b : Word32) {i : Nat} (hi : i < 32) : (w32 ((2 ^ fieldLen b - 1) * 2 ^ fieldPos b)).getLsbD i =
    decide (fieldPos b ≤ i ∧ i < fieldPos b + fieldLen b) := by
  rw [w32, BitVec.getLsbD_ofNat, decide_eq_true hi, Bool.true_and, Nat.testBit_mul_two_pow, Nat.testBit_two_pow_sub_one,
    ← Bool.decide_and]
  exact decide_eq_decide.mpr (by omega)

/-- BFI bit by bit. -/
theorem bitInsert_bit (d a b : Word32) {i : Nat} (hi : i < 32) : (bitInsert d a b).getLsbD i =
    if fieldPos b ≤ i ∧ i < fieldPos b + fieldLen b then a.getLsbD (i - fieldPos b) else d.getLsbD i := by
  have hmask := fieldMask_bit b hi
  unfold bitInsert
  dsimp only
  rw [BitVec.getLsbD_or, BitVec.getLsbD_and, BitVec.getLsbD_and, BitVec.getLsbD_not, BitVec.getLsbD_shiftLeft, hmask,
    decide_eq_true hi]
  by_cases hin : fieldPos b ≤ i ∧ i < fieldPos b + fieldLen b
  · rw [if_pos hin]
    simp [hin]
  · rw [if_neg hin]
    simp [hin]

end Sys2Proof.Machine
end

section
open Sys2Proof Sys2Proof.Machine

/-- Settles O1: each word's body is its write; the bits of a reversal are those of a mask, and the highest set bit stands at its logarithm. -/
theorem integerResults : Obligations.IntegerResults := by
  unfold Obligations.IntegerResults
  refine ⟨fun s c uns d a b m => ?_, fun x => ⟨rfl, fun i => bitReverse_bit x, leadZeros_bits, rfl, by decide, by decide⟩⟩
  exact ⟨warpWrites_of_fixedV rfl, warpWrites_of_fixedV rfl, warpWrites_of_fixedV rfl, warpWrites_of_fixedV rfl,
    warpWrites_of_fixedV rfl, warpWrites_of_fixedV rfl, warpWrites_of_fixedV rfl, warpWrites_of_fixedV rfl,
    warpWrites_of_fixedV rfl, warpWrites_of_fixedV rfl, warpWrites_of_fixedV rfl, warpWrites_of_fixedV rfl,
    warpWrites_of_fixedV rfl, warpWrites_of_fixedV rfl, warpWrites_of_fixedV rfl, warpWrites_of_fixedV rfl,
    warpWrites_of_fixedV rfl, warpWrites_of_fixedV rfl, warpWrites_of_fixedV rfl, warpWrites_of_fixedV rfl⟩

/-- Settles O2: BFE extends the field that it takes, BFI merges two words by the field's mask. -/
theorem fieldResults : Obligations.FieldResults := by
  unfold Obligations.FieldResults
  refine ⟨fun s c uns p d a b => ?_, fun uns d a b i hi => ⟨bitExtract_bit uns a b hi, bitInsert_bit d a b hi⟩⟩
  exact ⟨warpWrites_of_fixedV rfl, warpWrites_of_fixedV rfl, warpWrites_of_fixedV rfl⟩

end

section
/-!
PROOFS. Conversions (R57, R182): the integer that a value rounds to; values that a format holds exactly (R53).
-/
namespace Sys2Proof.Machine

-- Rounding to an integer.

/-- The integer that a magnitude is rounded to, with its sign. -/
def signedRound (r : Rnd) (s : Bool) (m : Nat) (e : Int) : Int := if s then -(roundAt r s m e 0 : Int) else roundAt r s m e 0

theorem natAbs_signedRound (r : Rnd) (s : Bool) (m : Nat) (e : Int) : (signedRound r s m e).natAbs = roundAt r s m e 0 := by
  cases s
  · exact Int.natAbs_natCast _
  · exact (Int.natAbs_neg _).trans (Int.natAbs_natCast _)

theorem toInt_fin (r : Rnd) (lo hi : Int) (s : Bool) (m : Nat) (e : Int) :
    FV.toInt r lo hi (.fin s m e) = max lo (min hi (signedRound r s m e)) := rfl

section
variable {n : Nat} {d : ℚ} (h0 : 0 ≤ d) (h1 : d < 1)
include h1

theorem ceil_split (hd : 0 < d) : ⌈(n : ℚ) + d⌉ = (n + 1 : Nat) := by
  rw [Int.ceil_eq_iff]
  exact ⟨by push_cast; linarith, by push_cast; linarith⟩

/-- A magnitude `n` with a part `d` left over is rounded to the next integer where `d` raises it (R57). -/
theorem intRounds_of_raises {r : Rnd} {s : Bool} (h : Raises r s n 1 d) :
    IntRounds r ((if s then -1 else 1) * (n + d)) (if s then -((n + 1 : Nat) : Int) else (n + 1 : Nat)) := by
  cases r with
  | rne =>
    have habs : |(if s then -1 else 1) * ((n : ℚ) + d) - (if s then -((n + 1 : Nat) : Int) else (n + 1 : Nat) : Int)| = 1 - d := by
      have hsub : (n : ℚ) + d - (n + 1 : Nat) = -(1 - d) := by push_cast; ring
      cases s
      · simp only [Bool.false_eq_true, if_false, one_mul, Int.cast_natCast, hsub, abs_neg, abs_of_nonneg (sub_nonneg.mpr h1.le)]
      · simp only [if_true, neg_one_mul, Int.cast_neg, Int.cast_natCast, ← neg_sub', hsub, neg_neg, abs_of_nonneg (sub_nonneg.mpr h1.le)]
    simp only [IntRounds, habs]
    refine ⟨by rcases h with h | h <;> linarith, fun htie => ?_⟩
    have hodd : n % 2 = 1 := h.elim (fun h => by linarith) And.right
    cases s
    · simp only [Bool.false_eq_true, if_false]; omega
    · simp only [if_true]; omega
  | rtz => exact h.elim
  | rup =>
    obtain ⟨rfl, hd⟩ := h
    simp [IntRounds, ceil_split h1 hd]
  | rdn =>
    obtain ⟨rfl, hd⟩ := h
    simp only [IntRounds, if_true, neg_one_mul, Int.floor_neg, ceil_split h1 hd]

include h0

theorem floor_split : ⌊(n : ℚ) + d⌋ = n := by
  rw [Int.floor_eq_iff]
  exact ⟨by push_cast; linarith, by push_cast; linarith⟩

/-- It stays `n` where `d` does not raise it. -/
theorem intRounds_of_not_raises {r : Rnd} {s : Bool} (h : ¬Raises r s n 1 d) :
    IntRounds r ((if s then -1 else 1) * (n + d)) (if s then -(n : Int) else n) := by
  have hceil (hd : ¬0 < d) : ⌈(n : ℚ) + d⌉ = n := by
    rw [le_antisymm (not_lt.mp hd) h0, add_zero, Int.ceil_natCast]
  cases r with
  | rne =>
    have habs : |(if s then -1 else 1) * ((n : ℚ) + d) - (if s then -(n : Int) else n : Int)| = d := by
      cases s
      · simp [abs_of_nonneg h0]
      · simp [abs_of_nonneg h0]
    simp only [Raises, not_or, not_lt, not_and] at h
    simp only [IntRounds, habs]
    refine ⟨h.1, fun htie => ?_⟩
    have heven := h.2 htie
    cases s
    · simp only [Bool.false_eq_true, if_false]; omega
    · simp only [if_true]; omega
  | rtz =>
    cases s with
    | false =>
      have hx : 0 ≤ (n : ℚ) + d := by positivity
      simp [IntRounds, hx, floor_split h0 h1]
    | true =>
      simp only [IntRounds, if_true, neg_one_mul, Int.floor_neg, Int.ceil_neg, floor_split h0 h1]
      split
      · rw [hceil (by have : (0 : ℚ) ≤ n := n.cast_nonneg; linarith)]
      · rfl
  | rup =>
    cases s with
    | false => simp [IntRounds, hceil fun hd => h ⟨rfl, hd⟩]
    | true => simp only [IntRounds, if_true, neg_one_mul, Int.ceil_neg, floor_split h0 h1]
  | rdn =>
    cases s with
    | false => simp [IntRounds, floor_split h0 h1]
    | true => simp only [IntRounds, if_true, neg_one_mul, Int.floor_neg, hceil fun hd => h ⟨rfl, hd⟩]

end

theorem signedRound_intRounds (r : Rnd) (s : Bool) (m : Nat) (e : Int) : IntRounds r (FV.fin s m e).val (signedRound r s m e) := by
  obtain ⟨n, hx, h0, h1, hr⟩ := roundFrom_split m e 0
  obtain ⟨hup, hdn⟩ := hr 0 r s
  rw [zpow_zero, mul_one] at hx
  rw [zpow_zero] at h1 hup hdn
  rw [Nat.zero_add] at hup hdn
  rw [FV.val, hx, signedRound, roundAt]
  by_cases h : Raises r s n 1 (cutPart m e 0)
  · rw [hup h]
    exact intRounds_of_raises h1 h
  · rw [hdn h]
    exact intRounds_of_not_raises h0 h1 h

-- What a format holds.

/-- A significand of no more bits than the format's, no place of it below the lowest one, is a code's. -/
theorem exists_code {p : Nat} (hp : 1 ≤ p) {qmin e : Int} {m : Nat} (hm : m < 2 ^ p) (he : qmin ≤ e) :
    ∃ k, (m : ℚ) * 2 ^ e = codeVal p qmin k := by
  rcases Nat.eq_zero_or_pos m with rfl | hpos
  · exact ⟨0, by simp⟩
  · obtain ⟨t, n, d, hq, hd, hx, -⟩ := quantum_split hp qmin hpos e
    have hlog := (Nat.log2_lt hpos.ne').mpr hm
    have hle : qmin + t ≤ e := by
      rw [← hq]
      exact max_le he (by omega)
    rw [cutPart, if_pos hle] at hd
    exact ⟨_, by rw [hx, hd, add_zero]⟩

theorem dec_signed_code {f : Fmt} (hf : f.inf < f.sgn) (s : Bool) {k : Nat} (hk : k < f.inf) :
    f.dec ((if s then f.sgn else 0) + k) = .fin s (codeSig f.p k) (codeExp f.p f.qmin k) := by
  have hlt : k < f.sgn := hk.trans hf
  have hcode : (if s then f.sgn else 0) + k < 2 * f.sgn ∧ ((if s then f.sgn else 0) + k) % f.sgn = k ∧
      decide (f.sgn ≤ (if s then f.sgn else 0) + k) = s := by
    cases s
    · simp only [Bool.false_eq_true, if_false, Nat.zero_add, Nat.mod_eq_of_lt hlt, decide_eq_false_iff_not, true_and]
      omega
    · simp only [if_true, Nat.add_mod_left, Nat.mod_eq_of_lt hlt, decide_eq_true_eq, true_and]
      omega
  obtain ⟨h2, hmod, hsign⟩ := hcode
  rw [dec_code h2, hmod, hsign, if_neg (by omega), if_neg (by omega)]

/-- Encoding a value that a code stands for, and decoding, keeps it. -/
theorem dec_enc_val {f : Fmt} (hp : 1 ≤ f.p) (hf : f.inf < f.sgn) (r : Rnd) (s : Bool) {m k : Nat} {e : Int} (hk : k < f.inf)
    (h : (m : ℚ) * 2 ^ e = codeVal f.p f.qmin k) : (f.dec (f.enc r (.fin s m e))).val = (FV.fin s m e).val := by
  rw [enc_of_code hp r s hk h, dec_signed_code hf s hk, FV.val, FV.val, h, codeVal_eq]

/-- A value below the format's infinity whose significand and last place the format has is kept. -/
theorem dec_enc_fits {f : Fmt} (hp : 1 ≤ f.p) (hf : f.inf < f.sgn) (r : Rnd) (s : Bool) {m : Nat} {e : Int} (hm : m < 2 ^ f.p)
    (he : f.qmin ≤ e) (hbig : (m : ℚ) * 2 ^ e < codeVal f.p f.qmin f.inf) :
    (f.dec (f.enc r (.fin s m e))).val = (FV.fin s m e).val := by
  obtain ⟨k, hk⟩ := exists_code hp hm he
  rw [hk] at hbig
  exact dec_enc_val hp hf r s ((codeVal_strictMono _ _).lt_iff_lt.mp hbig) hk

theorem codeVal_f32_inf : codeVal f32.p f32.qmin f32.inf = 2 ^ (128 : Int) := by
  norm_num [codeVal, f32]

theorem codeVal_bf16_inf : codeVal bf16.p bf16.qmin bf16.inf = 2 ^ (128 : Int) := by
  norm_num [codeVal, bf16]

-- The elements of CVTF8 (R50, R185).

theorem b8_bias_bounds {f : B8} (hp : 1 ≤ f.p) : f.bias ≤ 128 := by
  unfold B8.bias
  split
  · exact Nat.pow_le_pow_right two_pos (show 8 - f.p ≤ 7 by omega)
  · exact Nat.pow_le_pow_right two_pos (show 7 - f.p ≤ 7 by omega)

/-- The exponent field of a binary8 code is below twice the bias. -/
theorem b8_field_lt {f : B8} (hp : 1 ≤ f.p) (h7 : f.p ≤ 7) {c : Nat} (hc : c < 256) :
    (if f.uns then c else c % 128) / 2 ^ (f.p - 1) < 2 * f.bias := by
  rw [Nat.div_lt_iff_lt_mul (by positivity)]
  unfold B8.bias
  cases f.uns
  · have hpow : 2 * 2 ^ (7 - f.p) * 2 ^ (f.p - 1) = 128 := by
      rw [← pow_succ', ← pow_add, show 7 - f.p + 1 + (f.p - 1) = 7 by omega]
      rfl
    simp only [Bool.false_eq_true, if_false, hpow]
    omega
  · have hpow : 2 * 2 ^ (8 - f.p) * 2 ^ (f.p - 1) = 256 := by
      rw [← pow_succ', ← pow_add, show 8 - f.p + 1 + (f.p - 1) = 8 by omega]
      rfl
    simp only [if_true, hpow]
    exact hc

/-- The significand and the exponent of a finite binary8 value. -/
theorem b8_dec_bounds {f : B8} (hp : 1 ≤ f.p) (h7 : f.p ≤ 7) {c : Nat} (hc : c < 256) {s : Bool} {m : Nat} {e : Int}
    (h : f.dec c = .fin s m e) : m < 2 ^ f.p ∧ -133 ≤ e ∧ e + f.p ≤ 128 := by
  have hbias := b8_bias_bounds hp
  have hfield := b8_field_lt hp h7 hc
  have hpow : 2 ^ f.p = 2 * 2 ^ (f.p - 1) := by rw [← pow_succ', Nat.sub_add_cancel hp]
  have hq : f.qmin = 2 - (f.bias : Int) - f.p := by rw [B8.qmin]; ring
  unfold B8.dec at h
  dsimp only at h
  generalize (if f.uns then c else c % 128) = mag at h hfield
  have hfr := Nat.mod_lt mag (show 0 < 2 ^ (f.p - 1) by positivity)
  generalize mag / 2 ^ (f.p - 1) = ex at h hfield
  split at h
  · cases h
  · split at h
    · cases h
    · split at h
      · cases h
        omega
      · cases h
        omega

/-- A finite binary8 value is exact in binary32 and in bfloat16 (R185). -/
theorem b8_exact {n c : Nat} (r : Rnd) {s : Bool} {m : Nat} {e : Int} (hn : n % 8 ≠ 0) (hc : c < 256)
    (h : (B8.ofCode n).dec c = .fin s m e) : (f32.dec (f32.enc r (.fin s m e))).val = (FV.fin s m e).val ∧
      (bf16.dec (bf16.enc r (.fin s m e))).val = (FV.fin s m e).val := by
  have hp7 : n % 8 ≤ 7 := by omega
  obtain ⟨hm, hlo, hhi⟩ := b8_dec_bounds (f := B8.ofCode n) (Nat.pos_of_ne_zero hn) hp7 hc h
  have hm' : m < 2 ^ (n % 8) := hm
  have hhi' : e + (n % 8 : Nat) ≤ 128 := hhi
  have hbig : (m : ℚ) * 2 ^ e < 2 ^ (128 : Int) :=
    calc (m : ℚ) * 2 ^ e < 2 ^ (n % 8) * 2 ^ e := mul_lt_mul_of_pos_right (by exact_mod_cast hm') (by positivity)
      _ = 2 ^ (e + (n % 8 : Nat)) := by rw [zpow_add₀ two_ne_zero, zpow_natCast, mul_comm]
      _ ≤ 2 ^ (128 : Int) := zpow_le_zpow_right₀ one_le_two hhi'
  have hbits {k : Nat} (hk : 7 ≤ k) : m < 2 ^ k := hm'.trans_le (Nat.pow_le_pow_right (by norm_num) (hp7.trans hk))
  refine ⟨dec_enc_fits (by decide) (by decide) r s (hbits (by decide)) ?_ (by rwa [codeVal_f32_inf]),
    dec_enc_fits (by decide) (by decide) r s (hbits (by decide)) ?_ (by rwa [codeVal_bf16_inf])⟩
  · exact le_trans (by decide) hlo
  · exact le_trans (by decide) hlo

end Sys2Proof.Machine
end

section
/-!
PROOFS. The bytes that CVT8 writes and CVTF8 reads (R184, R185), and the special values of SFU (R186).
-/
namespace Sys2Proof.Machine

-- Bytes of a word.

theorem byte_toNat (x : Word32) (j : Nat) : (x.extractLsb' (8 * j) 8).toNat = x.toNat / 256 ^ j % 256 := by
  rw [BitVec.extractLsb'_toNat, Nat.shiftRight_eq_div_pow, pow_mul]
  rfl

/-- The mask of byte `k` covers the bits of byte `k`. -/
theorem byteMask_bit (k : Nat) {j i : Nat} (hj : j < 4) (hi : i < 8) : (0xFF#32 <<< (8 * k)).getLsbD (8 * j + i) = decide (j = k) := by
  have hones : (0xFF#32 : Word32) = BitVec.ofNat 32 (2 ^ 8 - 1) := rfl
  rw [BitVec.getLsbD_shiftLeft, hones, BitVec.getLsbD_ofNat, Nat.testBit_two_pow_sub_one]
  rcases lt_trichotomy j k with h | rfl | h
  · simp [show 8 * j + i < 8 * k by omega, h.ne]
  · simp [hi, show 8 * j + i < 32 by omega, show i < 32 by omega]
  · simp [show ¬8 * j + i - 8 * k < 8 by omega, h.ne']

/-- Replacing a byte changes that byte alone. -/
theorem setByte_byte (x : Word32) (k v : Nat) {j : Nat} (hj : j < 4) :
    (setByte x k v).toNat / 256 ^ j % 256 = if j = k then v % 256 else x.toNat / 256 ^ j % 256 := by
  have h : (setByte x k v).extractLsb' (8 * j) 8 = if j = k then BitVec.ofNat 8 v else x.extractLsb' (8 * j) 8 := by
    refine BitVec.eq_of_getLsbD_eq fun i hi => ?_
    have hin : 8 * j + i < 32 := by omega
    rw [BitVec.getLsbD_extractLsb', decide_eq_true hi, Bool.true_and, setByte, BitVec.getLsbD_or, BitVec.getLsbD_and,
      BitVec.getLsbD_not, byteMask_bit k hj hi, decide_eq_true hin, Bool.true_and, BitVec.getLsbD_shiftLeft,
      decide_eq_true hin, Bool.true_and, w32, BitVec.getLsbD_ofNat]
    rcases lt_trichotomy j k with h | rfl | h
    · simp [h.ne, hi, show 8 * j + i < 8 * k by omega]
    · rw [if_pos rfl, BitVec.getLsbD_ofNat, Nat.add_sub_cancel_left, show 256 = 2 ^ 8 from rfl, Nat.testBit_mod_two_pow]
      simp [hi, show i < 32 by omega]
    · have hhigh : (v % 256).testBit (8 * j + i - 8 * k) = false :=
        Nat.testBit_lt_two_pow ((Nat.mod_lt v (by norm_num)).trans_le
          (Nat.pow_le_pow_right two_pos (show 8 ≤ 8 * j + i - 8 * k by omega)))
      simp [h.ne', hi, hhigh]
  rw [← byte_toNat, h]
  split
  · exact BitVec.toNat_ofNat _ _
  · exact byte_toNat x j

/-- Replacing two bytes in a row. -/
theorem setByte_two (x : Word32) (k v w : Nat) {j : Nat} (hj : j < 4) : (setByte (setByte x k v) (k + 1) w).toNat / 256 ^ j % 256 =
    if j = k then v % 256 else if j = k + 1 then w % 256 else x.toNat / 256 ^ j % 256 := by
  rw [setByte_byte _ _ _ hj, setByte_byte _ _ _ hj]
  by_cases h : j = k
  · rw [if_neg (by omega), if_pos h, if_pos h]
  · rw [if_neg h, if_neg h]

-- CVT8 (R184, R61).

/-- The code that CVT8 gives a value, by its rounding and the byte of RNG that it takes. -/
def cvt8Code (f : B8) (rnd : Cvt8Rnd) (sat : Bool) (v : FV) (rng : Word32) : Nat :=
  match rnd with
  | .mode r => f.enc (.mode r) sat v
  | .sr => f.enc (.sr (rng.toNat % 256)) sat v

/-- RNG after one element. -/
def cvt8Rng (rnd : Cvt8Rnd) (rng : Word32) : Word32 :=
  match rnd with
  | .mode _ => rng
  | .sr => rngStep rng

theorem cvt8Go_cons (f : B8) (rnd : Cvt8Rnd) (sat : Bool) (v : FV) (l : List FV) (k : Nat) (x rng : Word32) :
    cvt8Go f rnd sat (v :: l) k x rng =
      cvt8Go f rnd sat l (k + 1) (setByte x k (cvt8Code f rnd sat v rng)) (cvt8Rng rnd rng) := by
  cases rnd <;> rfl

section
variable (rnd : Cvt8Rnd) (sat : Bool) {ctl : BitVec 19} (a d rng : Word32)

theorem cvt8Lane_one (h : ctl.getLsbD 8 = false) : cvt8Lane rnd sat ctl a d rng =
    (setByte d (ctl.toNat / 64 % 4) (cvt8Code (B8.ofCode (ctl.toNat % 64)) rnd sat (f32.dec a.toNat) rng), cvt8Rng rnd rng) := by
  rw [cvt8Lane, cvt8Elems, if_neg (Bool.eq_false_iff.mp h), cvt8Go_cons]
  rfl

theorem cvt8Lane_two (h : ctl.getLsbD 8 = true) : cvt8Lane rnd sat ctl a d rng =
    (setByte
      (setByte d (ctl.toNat / 64 % 4) (cvt8Code (B8.ofCode (ctl.toNat % 64)) rnd sat
        ((if ctl.getLsbD 9 then bf16 else f16).dec (a.toNat % 2 ^ 16)) rng))
      (ctl.toNat / 64 % 4 + 1) (cvt8Code (B8.ofCode (ctl.toNat % 64)) rnd sat
        ((if ctl.getLsbD 9 then bf16 else f16).dec (a.toNat / 2 ^ 16)) (cvt8Rng rnd rng)),
      cvt8Rng rnd (cvt8Rng rnd rng)) := by
  rw [cvt8Lane, cvt8Elems, if_pos h, cvt8Go_cons, cvt8Go_cons]
  rfl

end

-- CVTF8 (R185).

/-- The value of byte `k` of a register of elements. -/
def cvtf8El (ctl : BitVec 19) (a : Word32) (k : Nat) : FV := (B8.ofCode (ctl.toNat % 64)).dec (a.toNat / 256 ^ k % 256)

theorem cvtf8Value_eq (r : Rnd) (ctl : BitVec 19) (a : Word32) : cvtf8Value r ctl a = match ctl.toNat / 256 % 4 with
    | 0 => w32 (f32.enc r (cvtf8El ctl a (ctl.toNat / 64 % 4)))
    | 1 => BitVec.ofNat 16 (f16.enc r (cvtf8El ctl a (ctl.toNat / 64 % 4 + 1))) ++
        BitVec.ofNat 16 (f16.enc r (cvtf8El ctl a (ctl.toNat / 64 % 4)))
    | _ => BitVec.ofNat 16 (bf16.enc r (cvtf8El ctl a (ctl.toNat / 64 % 4 + 1))) ++
        BitVec.ofNat 16 (bf16.enc r (cvtf8El ctl a (ctl.toNat / 64 % 4))) := by
  simp only [cvtf8Value, cvtf8El, pow_mul]
  rfl

-- SFU (R186).

/-- A word of binary32 that is no NaN is the code of what it stands for. -/
theorem word_of_dec {a : Word32} (r : Rnd) (h : f32.dec a.toNat ≠ .nan) : w32 (f32.enc r (f32.dec a.toNat)) = a := by
  rw [(enc_dec (f := f32) (by decide) r a.isLt h).1, w32, BitVec.ofNat_toNat, BitVec.setWidth_eq]

theorem sfu_nan {a : Word32} (h : f32.dec a.toNat = .nan) (fn : SfuFn) : sfu fn a = w32 f32.nan := by
  unfold sfu
  rw [h]
  cases fn <;> rfl

/-- Zero has one code of each sign. -/
theorem enc_zero (f : Fmt) (r : Rnd) (s : Bool) (e : Int) : f.enc r (.fin s 0 e) = f.enc r (.fin s 0 0) := by
  simp only [Fmt.enc, magCode, if_true]

theorem sfu_zero {a : Word32} {s : Bool} {e : Int} (h : f32.dec a.toNat = .fin s 0 e) :
    sfu .rcp a = w32 (f32.enc .rne (.inf s)) ∧ sfu .rsq a = w32 (f32.enc .rne (.inf s)) ∧ sfu .sqrt a = a ∧
      sfu .ex2 a = 0x3F800000 ∧ sfu .lg2 a = 0xFF800000 ∧ sfu .sin a = a ∧ sfu .cos a = 0x3F800000 ∧ sfu .tanh a = a := by
  have ha := word_of_dec (a := a) .rne (by rw [h]; simp)
  rw [h, enc_zero] at ha
  unfold sfu
  rw [h]
  exact ⟨rfl, rfl, ha, rfl, rfl, rfl, rfl, rfl⟩

theorem sfu_posInf {a : Word32} (h : f32.dec a.toNat = .inf false) :
    sfu .rcp a = 0 ∧ sfu .rsq a = 0 ∧ sfu .sqrt a = a ∧ sfu .ex2 a = a ∧ sfu .lg2 a = a ∧ sfu .sin a = w32 f32.nan ∧
      sfu .cos a = w32 f32.nan ∧ sfu .tanh a = 0x3F800000 := by
  have ha := word_of_dec (a := a) .rne (by rw [h]; simp)
  rw [h] at ha
  unfold sfu
  rw [h]
  exact ⟨rfl, rfl, ha, ha, ha, rfl, rfl, rfl⟩

theorem sfu_negInf {a : Word32} (h : f32.dec a.toNat = .inf true) :
    sfu .rcp a = 0x80000000 ∧ sfu .rsq a = w32 f32.nan ∧ sfu .sqrt a = w32 f32.nan ∧ sfu .ex2 a = 0 ∧ sfu .lg2 a = w32 f32.nan ∧
      sfu .sin a = w32 f32.nan ∧ sfu .cos a = w32 f32.nan ∧ sfu .tanh a = 0xBF800000 := by
  unfold sfu
  rw [h]
  exact ⟨rfl, rfl, rfl, rfl, rfl, rfl, rfl, rfl⟩

section
variable {a : Word32} {s : Bool} {m : Nat} {e : Int} (h : f32.dec a.toNat = .fin s m e)
include h

/-- The last place of a binary32 value. -/
theorem f32_exp_ge : -149 ≤ e := by
  obtain ⟨t, -, -, -, -, -, he⟩ := code_split f32.p (a.toNat % f32.sgn)
  rw [dec_code (f := f32) a.isLt] at h
  split at h
  · cases h
  · split at h
    · cases h
    · cases h
      rw [he]
      exact le_add_of_nonneg_right t.cast_nonneg

/-- The functions that are not rounded once take a free value between two neighbours (R186). -/
theorem sfu_fin (hm : 0 < m) (fn : SfuFn) (hfn : fn ≠ .rcp ∧ fn ≠ .rsq ∧ fn ≠ .sqrt) :
    sfu fn a = w32 (sfuFin fn (Config.sfuUp fn a) s m e) := by
  obtain ⟨h1, h2, h3⟩ := hfn
  unfold sfu
  rw [h]
  cases fn with
  | rcp => exact absurd rfl h1
  | rsq => exact absurd rfl h2
  | sqrt => exact absurd rfl h3
  | ex2 | lg2 | sin | cos | tanh => exact if_neg hm.ne'

end

theorem sfu_negative {a : Word32} {m : Nat} {e : Int} (h : f32.dec a.toNat = .fin true m e) (hm : 0 < m) :
    sfu .rsq a = w32 f32.nan ∧ sfu .sqrt a = w32 f32.nan ∧ sfu .lg2 a = w32 f32.nan := by
  refine ⟨?_, ?_, sfu_fin h hm .lg2 (by simp)⟩
  · unfold sfu
    rw [h]
    simp only [rsqFV, hm.ne', if_false, if_true]
    rfl
  · unfold sfu
    rw [h]
    simp only [sqrtFV, hm.ne', if_false, if_true]
    rfl

theorem abs_val_fin (s : Bool) (m : Nat) (e : Int) : |(FV.fin s m e).val| = m * 2 ^ e := by
  have hpos : (0 : ℚ) ≤ m * 2 ^ e := by positivity
  cases s
  · simp [FV.val, abs_of_nonneg hpos]
  · simp [FV.val, abs_of_nonneg hpos]

/-- The exponent of a value's leading bit, by the powers of two that it lies between. -/
theorem le_top {m : Nat} (hm : 0 < m) {e k : Int} (h : (2 : ℚ) ^ k ≤ m * 2 ^ e) : k ≤ (Nat.log2 m : Int) + e := by
  have hlt := (zpow_lt_zpow_iff_right₀ (one_lt_two : (1 : ℚ) < 2)).mp (h.trans_lt (magnitude_binade hm e).2)
  omega

theorem top_lt {m : Nat} (hm : 0 < m) {e k : Int} (h : (m : ℚ) * 2 ^ e < 2 ^ k) : (Nat.log2 m : Int) + e < k :=
  (zpow_lt_zpow_iff_right₀ (one_lt_two : (1 : ℚ) < 2)).mp ((magnitude_binade hm e).1.trans_lt h)

/-- SIN and COS of a value from 2^20 on (R186). -/
theorem sfuFin_far {fn : SfuFn} (hfn : fn = .sin ∨ fn = .cos) (up neg : Bool) {m : Nat} {e : Int}
    (h : 20 ≤ (Nat.log2 m : Int) + e) : sfuFin fn up neg m e = f32.nan := by
  unfold sfuFin
  rcases hfn with rfl | rfl
  · exact if_pos h
  · exact if_pos h

/-- A binary32 value is exact in fixed point. -/
theorem fxOf_exact (neg : Bool) (m : Nat) {e : Int} (he : -149 ≤ e) : (fxOf neg m e : ℚ) = (FV.fin neg m e).val * fxOne := by
  have hk : 0 ≤ (fxBits : Int) + e := by
    have : (fxBits : Int) = 200 := rfl
    omega
  have hval : ((m * 2 ^ ((fxBits : Int) + e).toNat : Nat) : ℚ) = m * 2 ^ e * fxOne := by
    rw [Nat.cast_mul, Nat.cast_pow, ← zpow_natCast, Int.toNat_of_nonneg hk, Nat.cast_ofNat, zpow_add₀ two_ne_zero, fxOne]
    push_cast
    rw [zpow_natCast]
    ring
  cases neg
  · simp only [fxOf, if_pos hk, Bool.false_eq_true, if_false, FV.val, one_mul, Int.cast_natCast, hval]
  · simp only [fxOf, if_pos hk, if_true, FV.val, Int.cast_neg, Int.cast_natCast, hval, neg_mul, one_mul]

/-- 2 to an integer is exact (R186). -/
theorem sfuFin_ex2_int (up neg : Bool) {m : Nat} (hm : 0 < m) {e n : Int} (he : -149 ≤ e) (hlo : -149 ≤ n) (hhi : n ≤ 127)
    (hval : (FV.fin neg m e).val = n) : sfuFin .ex2 up neg m e = f32.enc .rne (.fin false 1 n) := by
  have htop : (Nat.log2 m : Int) + e < 8 := by
    refine top_lt hm ?_
    rw [← abs_val_fin neg, hval, abs_lt]
    constructor
    · have : (-149 : ℚ) ≤ n := by exact_mod_cast hlo
      norm_num
      linarith
    · have : (n : ℚ) ≤ 127 := by exact_mod_cast hhi
      norm_num
      linarith
  have hfx : fxOf neg m e = n * fxOne := by
    have := fxOf_exact neg m he
    rw [hval] at this
    exact_mod_cast this
  have hone : fxOne ≠ 0 := by decide
  unfold sfuFin
  dsimp only
  rw [if_neg (by omega), hfx, Int.mul_ediv_cancel _ hone, sub_self, if_pos rfl, if_neg (by omega)]

/-- The logarithm of a power of two is exact (R186). -/
theorem sfuFin_lg2_pow (up : Bool) {m : Nat} (hm : 0 < m) {e n : Int} (hval : (FV.fin false m e).val = 2 ^ n) :
    sfuFin .lg2 up false m e = f32.enc .rne (FV.ofInt n) := by
  have hx : (m : ℚ) * 2 ^ e = 2 ^ n := by simpa [FV.val] using hval
  have htop : (Nat.log2 m : Int) + e = n := by
    have h1 := le_top hm hx.ge
    have h2 := top_lt hm (k := n + 1) (hx ▸ zpow_lt_zpow_right₀ one_lt_two (lt_add_one n))
    omega
  have hpow : m = 2 ^ Nat.log2 m := by
    rw [← htop, zpow_add₀ two_ne_zero, zpow_natCast] at hx
    exact_mod_cast mul_right_cancel₀ (zpow_ne_zero e two_ne_zero) hx
  have hp2 : isPow2 m = true := by
    rw [isPow2, ← hpow]
    simp [hm.ne']
  unfold sfuFin
  dsimp only
  rw [if_neg Bool.false_ne_true, if_pos hp2, htop]

end Sys2Proof.Machine
end

section
open Sys2Proof Sys2Proof.Machine

/-- Settles O5: the integer that a conversion reaches, the byte that CVT8 replaces, the code that every binary8 value has in the wider
formats, and the exact cases of SFU. -/
theorem convertResults : Obligations.ConvertResults := by
  unfold Obligations.ConvertResults
  refine ⟨fun s c code r r8 sat fn d a ctl => ?words, fun r a => ?cvt, fun r a => ⟨fun h => ?_, fun s h => ?_⟩, ?cvt8, ?cvtf8,
    fun n c r s m e _ hn hc h => b8_exact r hn hc h, fun a => ?sfu⟩
  case words =>
    exact ⟨warpWrites_of_fixedV rfl, warpDoes_of_body rfl fun _ => rfl, warpWrites_of_fixedV rfl, warpWrites_of_fixedV rfl⟩
  case cvt =>
    refine ⟨rfl, rfl, rfl, rfl, rfl, rfl, fun s m e h => ⟨signedRound r s m e, ?_, ?_, ?_, ?_⟩⟩
    · rw [h]
      exact signedRound_intRounds r s m e
    · rw [cvt_s32, h, toInt_fin]
    · rw [cvt_u32, h, toInt_fin]
    · rw [natAbs_signedRound, cvtValue, h]
      rfl
  · rw [cvtValue, h]
    rfl
  · have ha := word_of_dec (a := a) r (by rw [h]; simp)
    rw [h] at ha
    rw [cvtValue, h]
    exact ha
  case cvt8 =>
    intro r8 sat ctl a d rng f pos half conv next out byte
    refine ⟨fun h => ?_, fun h => ?_⟩
    · have hout : out = _ := cvt8Lane_one r8 sat a d rng h
      rw [hout]
      exact ⟨rfl, fun j hj => setByte_byte d pos _ hj⟩
    · have hout : out = _ := cvt8Lane_two r8 sat a d rng h
      rw [hout]
      exact ⟨rfl, fun j hj => setByte_two d pos _ _ hj⟩
  case cvtf8 =>
    intro r ctl a f pos tgt el two
    have htwo (g : Fmt) (h : cvtf8Value r ctl a = BitVec.ofNat 16 (g.enc r (el (pos + 1))) ++ BitVec.ofNat 16 (g.enc r (el pos))) :
        two g := by
      simp only [two, h]
      exact ⟨BitVec.extractLsb'_append_eq_right, BitVec.extractLsb'_append_eq_left⟩
    refine ⟨fun h => ?_, fun h => htwo f16 ?_, fun h => htwo bf16 ?_⟩
    all_goals
      rw [cvtf8Value_eq, show ctl.toNat / 256 % 4 = _ from h]
      rfl
  case sfu =>
    refine ⟨sfu_nan, fun s e => sfu_zero, sfu_posInf, sfu_negInf, fun m e => sfu_negative, fun s m e h hbig => ?_,
      fun s m e n h hlo hhi hval => ?_, fun m e n h hval => ?_⟩
    · rw [abs_val_fin] at hbig
      have hm : 0 < m := Nat.pos_of_ne_zero fun h0 => by norm_num [h0] at hbig
      have hfar {fn : SfuFn} (hfn : fn = .sin ∨ fn = .cos) := sfuFin_far hfn (Config.sfuUp fn a) s (le_top hm (k := 20) (by exact_mod_cast hbig))
      rw [sfu_fin h hm .sin (by simp), sfu_fin h hm .cos (by simp), hfar (.inl rfl), hfar (.inr rfl)]
      exact ⟨rfl, rfl⟩
    · rcases Nat.eq_zero_or_pos m with rfl | hm
      · obtain rfl : n = 0 := by exact_mod_cast hval.symm.trans (val_fin_eq_zero.mpr rfl)
        obtain ⟨-, -, -, hone, -⟩ := sfu_zero h
        rw [hone]
        decide
      · rw [sfu_fin h hm .ex2 (by simp), sfuFin_ex2_int _ s hm (f32_exp_ge h) hlo hhi hval]
    · have hm : 0 < m := Nat.pos_of_ne_zero fun h0 =>
        zpow_ne_zero n two_ne_zero (hval.symm.trans (val_fin_eq_zero.mpr h0))
      rw [sfu_fin h hm .lg2 (by simp), sfuFin_lg2_pow _ hm hval]
      rfl

end

section
/-!
PROOFS. What lanes exchange and vote on (R190, R191).
-/
namespace Sys2Proof.Machine

/-- AGREE by the lanes' values (R191). -/
theorem agree_eq (m : AgreeMode) (l : List Bool) : agree m l = match m with
    | .all => l.all id
    | .any => l.any id
    | .same => l.all id || l.all (!·)
    | .none => l.all (!·) := by
  have h : (!l.any id) = l.all (!·) := List.not_any_eq_all_not
  cases m
  case all | any => rfl
  case same | none => rw [← h]; rfl

/-- The source number that a mode gives, taken without wrap (R190). -/
def shflNumber (mode : ShflMode) (t v : Nat) : Int :=
  match mode with
  | .idx => v
  | .up => (t : Int) - v
  | .down => (t : Int) + v
  | .xor => (t ^^^ v : Nat)

theorem shflSource_eq (mode : ShflMode) (n t : Nat) (b : Word32) : shflSource mode n t b =
    if shflNumber mode t b.toNat < 0 ∨ (n : Int) ≤ shflNumber mode t b.toNat then none
    else some (shflNumber mode t b.toNat).toNat := by
  cases mode <;> rfl

section
variable (e : WEnv) {mode : ShflMode} (a : Operand) {b : Operand} {l : Nat × Nat}

/-- A source out of the block gives poison (R190). -/
theorem shflLane_outside (h : shflNumber mode l.2 (srcI e l b).toNat < 0 ∨
    (e.b.nThreads : Int) ≤ shflNumber mode l.2 (srcI e l b).toNat) : shflLane e mode a b l = (poison, false) := by
  rw [shflLane, shflSource_eq, if_pos h]

variable {t : Nat} (hsrc : shflNumber mode l.2 (srcI e l b).toNat = t)
include hsrc

/-- A source in the block supplies its value where it runs in the reading warp and lives (R190). -/
theorem shflLane_inside (ht : t < e.b.nThreads) : shflLane e mode a b l =
    if (e.b.remap.getD t 0).getLsbD 5 && e.w.lanes.contains (some t) && (e.b.thread t).live then
      (readV e.b e.w t (regOf e.b t a), true)
    else (poison, false) := by
  rw [shflLane, shflSource_eq, hsrc, if_neg (by omega), Int.toNat_natCast]

/-- A source that has ended, or that does not run in the reading warp, gives poison (R190). -/
theorem shflLane_absent (h : (e.b.thread t).live = false ∨ e.w.lanes.contains (some t) = false) :
    shflLane e mode a b l = (poison, false) := by
  by_cases ht : t < e.b.nThreads
  · rw [shflLane_inside e a hsrc ht]
    rcases h with h | h <;> simp only [h, Bool.and_false, Bool.false_and, Bool.false_eq_true, if_false]
  · exact shflLane_outside e a (.inr (by omega))

end

end Sys2Proof.Machine
end

section
open Sys2Proof Sys2Proof.Machine

/-- Settles O8: each word's body is its write; AGREE's vote is read off the lanes' values. -/
theorem predicateResults : Obligations.PredicateResults := by
  unfold Obligations.PredicateResults
  intro s c rel uns sense tt m p q r d a b
  refine ⟨warpDoes_of_body rfl fun _ => rfl, warpDoes_of_body rfl fun _ => rfl, warpDoes_of_body rfl fun _ => rfl,
    warpWrites_of_fixedV rfl, warpDoes_of_body rfl fun _ => rfl, warpDoes_of_body rfl fun e => ?_, warpWrites_of_fixedV rfl⟩
  dsimp only
  rw [agree_eq]
  rfl

/-- Settles O10: each word's body is its write; a SHFL's source by its number, whether in the block and whether it runs and lives. -/
theorem laneResults : Obligations.LaneResults := by
  unfold Obligations.LaneResults
  refine ⟨fun s c mode pr x base len d a b => ?_, fun e a b l => ?_⟩
  · refine ⟨warpDoes_of_body rfl fun _ => rfl, warpDoes_of_body rfl fun _ => rfl, warpDoes_of_body rfl fun _ => rfl,
      warpDoes_of_body rfl fun _ => rfl, warpDoes_of_body rfl fun e => ?_, warpWrites_of_fixedV rfl⟩
    unfold WEnv.first
    cases e.eff <;> rfl
  · intro v at_
    have hat (m : ShflMode) : at_ m (shflNumber m l.2 v) := by
      refine ⟨fun t hsrc ht hmap hrun hlive => ?_, shflLane_outside e a, fun t hsrc => shflLane_absent e a hsrc⟩
      rw [shflLane_inside e a hsrc ht, hmap, hrun, hlive]
      rfl
    exact ⟨hat .idx, hat .up, hat .down, hat .xor⟩

end

section
/-!
PROOFS. Who must wait at a barrier and which generations are released (R173, R228), and the bits that TDCLR clears (R321).
-/
namespace Sys2Proof.Machine

/-- A bit of a number, as TDCLR takes it. -/
theorem bit_eq_testBit (n k : Nat) : (n / 2 ^ k % 2 == 1) = n.testBit k := by
  rw [Nat.testBit_eq_decide_div_mod_eq]
  rfl

/-- The bits that TDCLR clears (R321). -/
def clearedBits (v old : Nat) (may : Nat → Bool) : List Nat :=
  (List.range 8).filter fun k => v.testBit k && old.testBit k && may k

theorem clearedBits_eq (v old : Nat) (may : Nat → Bool) :
    ((List.range 8).filter fun k => v / 2 ^ k % 2 == 1 && old / 2 ^ k % 2 == 1 && may k) = clearedBits v old may := by
  simp only [bit_eq_testBit, clearedBits]

/-- Who else of a block must wait at a barrier (R173). -/
theorem barHolds_iff {b : Block} {team : Bool} {k : Nat} :
    barHolds b team (some k) = true ↔ ∀ w ∈ b.running, w.k = k ∨ w.wait = .bar team := by
  simp [barHolds]

theorem barHolds_all_iff {b : Block} {team : Bool} : barHolds b team none = true ↔ ∀ w ∈ b.running, w.wait = .bar team := by
  simp [barHolds]

theorem barHolds_false {b : Block} {k : Nat} (h : ∃ w ∈ b.running, w.k ≠ k ∧ w.wait ≠ .bar false) :
    barHolds b false (some k) = false := by
  obtain ⟨w, hw, hk, hwait⟩ := h
  exact Bool.eq_false_iff.mpr fun h => (barHolds_iff.mp h w hw).elim hk hwait

/-- A generation is released where the released count is past it, counted modulo 2^32 (R228). -/
theorem genReleased_iff {rg g : Word32} : genReleased rg g = true ↔ (rg - g - 1).toNat < 2 ^ 31 := by
  unfold genReleased
  exact decide_eq_true_iff

end Sys2Proof.Machine
end

section
open Sys2Proof Sys2Proof.Machine

/-- Settles O26: on a warp and on the sequencer the body of NOP is the step of its engine, and its word has no field to check. -/
theorem nopOnlyMovesOn : Obligations.NopOnlyMovesOn := by
  unfold Obligations.NopOnlyMovesOn
  intro s c
  refine ⟨warpDoes_of_body rfl fun _ => rfl, seqDoes_of_body rfl fun _ => rfl, fun b q hi hc hw hk hg => ?_, fun x => ?_⟩
  · exact issue_seq_skip _ _ _ hi hc hw hk hg
  · cases x with
    | warp => exact Bool.and_true _
    | seq => exact Bool.and_true _

/-- Settles O38: who must wait at a barrier and which generations are released decide the branch that each word takes. -/
theorem barriersPass : Obligations.BarriersPass := by
  unfold Obligations.BarriersPass
  intro s c bar d a sd sa
  dsimp only
  refine ⟨?_, ?_, ?_, ?_, ?_, ?_, ?_, ?_, ?_, ?_, ?_, ?_⟩
  · refine warpIf_of_body rfl fun e ⟨hwait, hset⟩ => ?_
    rw [barHolds_iff.mpr hwait, hset]
    rfl
  · refine warpWaits_of_body rfl fun e hsome => ?_
    rw [barHolds_false hsome]
    rfl
  · refine warpIf_of_body rfl fun e ⟨hwait, hteam⟩ => if_pos (List.all_eq_true.mpr fun b hb => ?_)
    obtain ⟨hset, hother⟩ := hteam b hb
    rw [hset, Bool.and_true]
    by_cases hid : b.id = e.b.id
    · rw [if_pos hid]
      exact barHolds_iff.mpr hwait
    · rw [if_neg hid, (hother hid).1, barHolds_all_iff.mpr (hother hid).2]
      rfl
  · refine warpIf_of_body rfl fun e ⟨hne, hown⟩ => ?_
    simp only [isEmpty_eq_false hne, hown, Bool.not_true, Bool.false_eq_true, if_false]
    rfl
  · refine warpTraps_of_body rfl fun e ⟨hne, hown⟩ => ?_
    simp only [isEmpty_eq_false hne, Bool.eq_false_iff.mpr hown, Bool.not_false, Bool.false_eq_true, if_false, if_true]
    rfl
  · refine seqIf_of_body rfl fun e hown => ?_
    simp only [hown, Bool.not_true, Bool.false_eq_true, if_false]
    rfl
  · refine warpIf_of_body rfl fun e ⟨hne, hown, hpast⟩ => ?_
    have hall : (e.eff.all fun l => genReleased (e.s.barrier bar.val).rg (srcU e l a)) = true :=
      List.all_eq_true.mpr fun l hl => genReleased_iff.mpr (hpast l hl)
    simp only [isEmpty_eq_false hne, hown, hall, Bool.not_true, Bool.false_eq_true, if_false, if_true]
  · refine warpWaits_of_body rfl fun e ⟨hown, l, hl, hpast⟩ => ?_
    have hall : (e.eff.all fun l => genReleased (e.s.barrier bar.val).rg (srcU e l a)) = false :=
      List.all_eq_false.mpr ⟨l, hl, fun h => hpast (genReleased_iff.mp h)⟩
    simp only [isEmpty_eq_false (List.ne_nil_of_mem hl), hown, hall, Bool.not_true, Bool.false_eq_true, if_false]
    rfl
  · rintro i (rfl | rfl)
    · exact warpIf_of_body rfl fun e hnone => if_pos (List.isEmpty_iff.mpr hnone)
    · exact warpIf_of_body rfl fun e hnone => if_pos (List.isEmpty_iff.mpr hnone)
  · exact seqTraps_of_body rfl fun e hbig => if_pos hbig
  · refine seqIf_of_body rfl fun e ⟨hsmall, hset⟩ => ?_
    simp only [if_neg (Nat.not_le.mpr hsmall), hset, Bool.not_true, Bool.false_eq_true, if_false, clearedBits_eq]
    rfl
  · refine seqWaits_of_body rfl fun e ⟨hsmall, hset⟩ => ?_
    simp only [if_neg (Nat.not_le.mpr hsmall), hset, Bool.not_false, if_true]
    rfl

end

section
/-!
PROOFS. Addresses of lanes (R209), and the check of a range against the core-local window (R196).
-/
namespace Sys2Proof.Machine

/-- The 54 low bits of a pair, displaced, are those of its 64 bits, displaced (R209). -/
theorem addDisp_regPair (e : WEnv) (l : Nat × Nat) (o : Operand) (v : Option (BitVec 19)) :
    addDisp (addr54 (regV e l o 0) (regV e l o 1)).toNat v =
      addDisp ((regV e l o 0).toNat + 2 ^ 32 * (regV e l o 1).toNat) v := by
  rw [addr54_nat]
  cases v with
  | none => rw [addDisp_none, addDisp_none, Nat.mod_mod]
  | some v =>
    apply Int.natCast_inj.mp
    rw [addDisp_some, addDisp_some]
    push_cast
    exact Int.emod_add_emod ..

section
variable (b : Block) (x : Int) {w : Nat} (hw : 0 < w)
include hw

/-- The window's check: whether the range leaves the window, then whether it meets the headland (R196). -/
theorem winCheck_eq : b.winCheck x w =
    if x < 0 ∨ b.winSize < x + w then some 1
    else if b.headLo < b.headHi ∧ x < b.headHi ∧ b.headLo < x + w then some 3
    else none := by
  unfold Block.winCheck Window.check
  rw [if_neg (by omega)]
  by_cases hx : x < 0
  · rw [if_pos hx, if_pos (.inl hx)]
  · obtain ⟨n, rfl⟩ := Int.eq_ofNat_of_zero_le (not_lt.mp hx)
    simp only [hx, if_false, false_or, Int.toNat_natCast, Block.window, gt_iff_lt]
    norm_cast

theorem winCheck_none_iff : b.winCheck x w = none ↔
    0 ≤ x ∧ x + w ≤ b.winSize ∧ ¬(b.headLo < b.headHi ∧ x < b.headHi ∧ b.headLo < x + w) := by
  rw [winCheck_eq b x hw]
  split_ifs with hout hhead
  · exact iff_of_false nofun fun ⟨_, _, _⟩ => by omega
  · exact iff_of_false nofun fun ⟨_, _, hclear⟩ => hclear hhead
  · exact iff_of_true rfl ⟨by omega, by omega, hhead⟩

theorem winCheck_outside_iff : b.winCheck x w = some 1 ↔ x < 0 ∨ b.winSize < x + w := by
  rw [winCheck_eq b x hw]
  split_ifs with hout hhead
  · exact iff_of_true rfl hout
  · exact iff_of_false (by decide) hout
  · exact iff_of_false nofun hout

end

end Sys2Proof.Machine
end

section
open Sys2Proof Sys2Proof.Machine

/-- Settles O30: the address arithmetic of R209 and the window's check, each by its equation. -/
theorem laneAddresses : Obligations.LaneAddresses := by
  unfold Obligations.LaneAddresses
  intro e q l n v k m u x r
  refine ⟨?_, ?_, addDisp_none _, addDisp_some _ _, addDisp_none _, addDisp_some _ _, ?_, rfl, rfl,
    fun b w hw => ⟨winCheck_none_iff b x hw, winCheck_outside_iff b x hw⟩⟩
  · exact (addDisp_regPair e l r none).trans (addDisp_none _)
  · exact (congrArg Nat.cast (addDisp_regPair e l r (some v))).trans (addDisp_some _ _)
  · simp only [laddrW, srcU, dispOf, BitVec.toNat_setWidth]
    rw [Nat.mod_eq_of_lt (n.isLt.trans (by norm_num))]

end

section
/-!
PROOFS. The checks of a translated page (R200, R201, R322): a lost home, the rights of the page, and what its KIND and its region permit.
-/
namespace Sys2Proof.Machine

/-- The fault that a page's rights and its key give an access (R201, R336). -/
def rightsFault (t : AccType) (p : Word64) (keyed : Bool) : Option AFault :=
  if !pteU p then some ⟨3, 5⟩
  else if t.isStore && !pteW p then some ⟨3, 4⟩
  else if t == .fetch && !pteX p then some ⟨3, 8⟩
  else if !t.isStore && t != .fetch && !pteR p then some ⟨3, 0⟩
  else if !keyed then some ⟨3, 14⟩
  else none

/-- The fault that R201's table and the physical range give an access. -/
def kindFault (t : AccType) (kind : Nat) (r : Region) : Option AFault :=
  match regionForbids t kind r with
  | some f => if f.cls = 4 ∧ (r = .device ∨ r = .none) then some ⟨3, 7⟩ else some f
  | none => if r = .device ∨ r = .none then some ⟨3, 7⟩ else none

section
variable {s : State} {die pa : Nat} {t : AccType} {p : Word64}

/-- A line in HBM or a staging window whose home a die has seen lost (R322). -/
def State.onLostDie (s : State) (die pa : Nat) : Prop :=
  (s.phys.region pa = .hbm ∨ s.phys.region pa = .staging) ∧
    lifeAt s.pkg.msgs (s.die die).delivered (s.phys.homeDie pa) = some false

/-- Whether a page's key is one that is loaded (R336). -/
def State.keyedPage (s : State) (p : Word64) (pa : Nat) : Bool :=
  pteKeyid p == 0 || (aget (s.phys.keyIx pa (pteKeyid p)) s.phys.keytab).isSome

theorem onLostDie_iff : s.onLostDie die pa ↔
    ((s.phys.region pa == .hbm || s.phys.region pa == .staging) && s.seesLost die (s.phys.homeDie pa)) = true := by
  simp only [State.onLostDie, State.seesLost, Bool.and_eq_true, Bool.or_eq_true, beq_iff_eq]

theorem ite_some_or {α : Type} (c : Prop) [Decidable c] (x : α) (o k : Option α) :
    (if c then some x else o).or k = if c then some x else o.or k := by
  split <;> rfl

theorem checkPage_far (h : pteFar p = true) : s.checkPage die t p pa = some ⟨1, 0⟩ := if_pos h

theorem checkPage_lost (hfar : pteFar p = false) (h : s.onLostDie die pa) :
    s.checkPage die t p pa = some ⟨2, s.phys.homeDie pa⟩ := by
  unfold State.checkPage
  rw [hfar]
  exact if_pos (onLostDie_iff.mp h)

/-- Past FAR.ACCESS and DIE.LOST the rights of the page decide, then its KIND and its region. -/
theorem checkPage_open (hfar : pteFar p = false) (h : ¬s.onLostDie die pa) :
    s.checkPage die t p pa = (rightsFault t p (s.keyedPage p pa)).or (kindFault t (pteKind p) (s.phys.region pa)) := by
  rw [onLostDie_iff, Bool.not_eq_true] at h
  have hkey : (pteKeyid p != 0 && (aget (s.phys.keyIx pa (pteKeyid p)) s.phys.keytab).isNone) = !s.keyedPage p pa := by
    simp only [State.keyedPage, Bool.not_or, Option.not_isSome]
    rfl
  simp only [State.checkPage, hfar, h, hkey, Bool.false_eq_true, if_false, rightsFault, ite_some_or, Option.none_or]
  rfl


/-- The rights that an access needs: U, and W, X or R by its type (R201). -/
def pagePermits (t : AccType) (p : Word64) : Prop :=
  pteU p = true ∧ (t.isStore = true → pteW p = true) ∧ (t = .fetch → pteX p = true) ∧
    (t.isStore = false → t ≠ .fetch → pteR p = true)

theorem rightsFault_permitted (h : pagePermits t p) (keyed : Bool) :
    rightsFault t p keyed = if keyed then none else some ⟨3, 14⟩ := by
  obtain ⟨hu, hw, hx, hr⟩ := h
  have hw' : (t.isStore && !pteW p) = false := by cases hst : t.isStore <;> simp_all
  have hx' : (t == .fetch && !pteX p) = false := by by_cases hf : t = .fetch <;> simp_all
  have hr' : (!t.isStore && t != .fetch && !pteR p) = false := by
    cases hst : t.isStore
    · by_cases hf : t = .fetch <;> simp_all
    · rfl
  simp only [rightsFault, hu, hw', hx', hr', Bool.not_true, Bool.false_eq_true, if_false]
  cases keyed <;> rfl

section
variable (keyed : Bool) (hu : pteU p = true)

theorem rightsFault_user (h : pteU p = false) : rightsFault t p keyed = some ⟨3, 5⟩ := by simp [rightsFault, h]

include hu

theorem rightsFault_store (ht : t.isStore = true) (h : pteW p = false) : rightsFault t p keyed = some ⟨3, 4⟩ := by
  simp [rightsFault, hu, ht, h]

theorem rightsFault_fetch (h : pteX p = false) : rightsFault .fetch p keyed = some ⟨3, 8⟩ := by
  simp [rightsFault, hu, AccType.isStore, h]

theorem rightsFault_read (ht : t.isStore = false) (hf : t ≠ .fetch) (h : pteR p = false) :
    rightsFault t p keyed = some ⟨3, 0⟩ := by
  simp [rightsFault, hu, ht, hf, h]

end

section
variable {kind : Nat} {r : Region}

theorem regionForbids_comm (hk : kind = 2) (ht : t = .st ∨ t = .sts ∨ t = .atom ∨ t = .redm) :
    regionForbids t kind r = some ⟨4, 0⟩ := by
  subst hk
  rcases ht with rfl | rfl | rfl | rfl <;> rfl

theorem regionForbids_redc (hk : kind ≠ 2) : regionForbids .redc kind r = some ⟨3, 6⟩ := if_neg hk

theorem regionForbids_stamped (hk : kind = 3) (ht : t = .st ∨ t = .atom ∨ t = .redm) :
    regionForbids t kind r = some ⟨3, 6⟩ := by
  subst hk
  rcases ht with rfl | rfl | rfl <;> rfl

theorem regionForbids_unstamped (hk : kind = 0 ∨ kind = 1) : regionForbids .sts kind r = some ⟨3, 6⟩ := by
  rcases hk with rfl | rfl <;> rfl

theorem regionForbids_farAtomic (hk : kind = 0 ∨ kind = 1) (ht : t = .atom ∨ t = .redm) (hr : r = .staging ∨ r = .cxl) :
    regionForbids t kind r = some ⟨3, 6⟩ := by
  rcases hk with rfl | rfl <;> rcases ht with rfl | rfl <;> rcases hr with rfl | rfl <;> rfl

/-- The accesses that R201's table has performed. -/
theorem regionForbids_none (h : t = .ld ∨ t = .fetch ∨ t = .clean ∨ t = .inval ∨ kind ≤ 1 ∧ t = .st ∨ kind = 3 ∧ t = .sts ∨
    kind = 2 ∧ t = .redc ∨ kind ≤ 1 ∧ r = .hbm ∧ (t = .atom ∨ t = .redm)) : regionForbids t kind r = none := by
  have hplain (hk : kind ≤ 1) : kind ≠ 2 ∧ kind ≠ 3 := by omega
  rcases h with rfl | rfl | rfl | rfl | ⟨hk, rfl⟩ | ⟨rfl, rfl⟩ | ⟨rfl, rfl⟩ | ⟨hk, rfl, rfl | rfl⟩
  · simp [regionForbids]
  · simp [regionForbids]
  · simp [regionForbids]
  · simp [regionForbids]
  · simp [regionForbids, hplain hk]
  · rfl
  · rfl
  · simp [regionForbids, hplain hk]
  · simp [regionForbids, hplain hk]

end

theorem kindFault_forbidden {kind : Nat} {r : Region} {f : AFault} (h : regionForbids t kind r = some f)
    (hr : f.cls = 4 → r ≠ .device ∧ r ≠ .none) : kindFault t kind r = some f := by
  simp only [kindFault, h]
  exact if_neg fun ⟨hc, hbad⟩ => hbad.elim (hr hc).1 (hr hc).2

theorem kindFault_performed {kind : Nat} {r : Region} (h : regionForbids t kind r = none) :
    kindFault t kind r = if r = .device ∨ r = .none then some ⟨3, 7⟩ else none := by
  simp only [kindFault, h]

end

end Sys2Proof.Machine
end

section
open Sys2Proof Sys2Proof.Machine

/-- Settles O32: FAR and the loss of the home first, then the page's rights and key, then R201's table and the physical range. -/
theorem pageChecks : Obligations.PageChecks := by
  unfold Obligations.PageChecks
  intro s die t p pa r lost key kind open_ perms keyed there
  have hopen (h : open_) := checkPage_open (t := t) h.1 h.2
  have hright {f : AFault} (h : open_) (hf : rightsFault t p (s.keyedPage p pa) = some f) : s.checkPage die t p pa = some f := by
    rw [hopen h, hf]
    rfl
  have hkeyed : keyed ↔ s.keyedPage p pa = true := by
    simp only [keyed, key, State.keyedPage, Bool.or_eq_true, beq_iff_eq]
    rfl
  refine ⟨by cases t <;> simp [AccType.isStore], checkPage_far, checkPage_lost, fun h hu => hright h (rightsFault_user _ hu),
    fun h hu ht hw => hright h (rightsFault_store _ hu ht hw), ?_,
    fun h hu ht hf hr => hright h (rightsFault_read _ hu ht hf hr), fun h hp hk => hright h ?_, fun h hp hk => ?_⟩
  · rintro h hu rfl hx
    exact hright h (rightsFault_fetch _ hu hx)
  · rw [rightsFault_permitted hp, if_neg (hkeyed.not.mp hk)]
  · have hkind : s.checkPage die t p pa = kindFault t kind r := by
      rw [hopen h, rightsFault_permitted hp, if_pos (hkeyed.mp hk)]
      rfl
    have hforbidden {f : AFault} (hf : regionForbids t kind r = some f) (hr : f.cls = 4 → there) : s.checkPage die t p pa = some f :=
      hkind.trans (kindFault_forbidden hf hr)
    refine ⟨fun hk ht hth => hforbidden (regionForbids_comm hk ht) fun _ => hth, ?_,
      fun hk ht => hforbidden (regionForbids_stamped hk ht) nofun, ?_,
      fun hk ht hr => hforbidden (regionForbids_farAtomic hk ht hr) nofun, fun hdone => ?_⟩
    · rintro hk rfl
      exact hforbidden (regionForbids_redc hk) nofun
    · rintro hk rfl
      exact hforbidden (regionForbids_unstamped hk) nofun
    · rw [hkind, kindFault_performed (regionForbids_none hdone)]
      exact ⟨fun hth => if_neg (not_or.mpr hth), fun hth => if_pos (by_contra fun hno => hth (not_or.mp hno))⟩

end

section
/-!
PROOFS. How an access faults (R196, R203, R322): ALIGN first, then the window's check or, after translation, the first class that its
lanes raise.
-/
namespace Sys2Proof.Machine

-- ALIGN and the window.

section
variable {e : WEnv} {q : SEnv} {n : Nat} {a : Operand} {disp : Option (BitVec 19)} {l : Nat × Nat} {r : List (Nat × Nat)}

theorem spots_misaligned (s : State) (aid : Nat) (b : Block) (t : AccType) {lanes r : List (Nat × Nat × Nat)} {l : Nat × Nat × Nat}
    (h : (lanes.filter fun l => l.2.2 % n != 0) = l :: r) : s.spots aid b t n lanes =
    .error (.trap ⟨fAlign, l.2.2, 0, some (maskOf ((l :: r).map Prod.fst))⟩) := by
  simp only [State.spots, h]
  rfl

theorem localCheck_misaligned (b : Block) {lanes r : List (Nat × Nat × Int)} {l : Nat × Nat × Int}
    (h : (lanes.filter fun l => l.2.2 % (n : Int) != 0) = l :: r) : localCheck b n lanes =
    .error (.trap ⟨fAlign, offBits l.2.2, 0, some (maskOf ((l :: r).map Prod.fst))⟩) := by
  simp only [localCheck, h]
  rfl

theorem localCheck_outside (b : Block) {lanes r : List (Nat × Nat × Int)} {l : Nat × Nat × Int}
    (h : (lanes.filter fun l => l.2.2 % (n : Int) != 0) = [])
    (ho : (lanes.filter fun l => (b.winCheck l.2.2 n).isSome) = l :: r) : localCheck b n lanes =
    .error (.trap ⟨fAccess, offBits l.2.2, (b.winCheck l.2.2 n).getD 0, some (maskOf ((l :: r).map Prod.fst))⟩) := by
  simp only [localCheck, h, ho]
  rfl

/-- A filter over the lanes with their addresses picks the lanes that it picks by address. -/
theorem filter_lanes {α : Type} (f : Nat × Nat → α) (p : α → Bool) (lanes : List (Nat × Nat)) :
    ((lanes.map fun l => (l.1, l.2, f l)).filter fun x => p x.2.2) =
      (lanes.filter fun l => p (f l)).map fun l => (l.1, l.2, f l) := List.filter_map ..

theorem sitesW_misaligned (t : AccType) (h : (e.eff.filter fun l => gaddrW e a disp l % n != 0) = l :: r) :
    sitesW e t n a disp = .error (.trap ⟨fAlign, gaddrW e a disp l, 0, some (maskOf ((l :: r).map Prod.fst))⟩) := by
  have hl := (filter_lanes (gaddrW e a disp) (· % n != 0) e.eff).trans (congrArg _ h)
  simp only [sitesW, spots_misaligned _ _ _ _ hl, List.map_cons, List.map_map, Function.comp_def]

theorem lsitesW_misaligned (h : (e.eff.filter fun l => laddrW e a disp l % (n : Int) != 0) = l :: r) :
    lsitesW e n a disp = .error (.trap ⟨fAlign, offBits (laddrW e a disp l), 0, some (maskOf ((l :: r).map Prod.fst))⟩) := by
  have hl := (filter_lanes (laddrW e a disp) (· % (n : Int) != 0) e.eff).trans (congrArg _ h)
  simp only [lsitesW, localSites, localCheck_misaligned _ hl, List.map_cons, List.map_map, Function.comp_def]

theorem lsitesW_outside (h : (e.eff.filter fun l => laddrW e a disp l % (n : Int) != 0) = [])
    (ho : (e.eff.filter fun l => (e.b.winCheck (laddrW e a disp l) n).isSome) = l :: r) : lsitesW e n a disp =
    .error (.trap ⟨fAccess, offBits (laddrW e a disp l), (e.b.winCheck (laddrW e a disp l) n).getD 0,
      some (maskOf ((l :: r).map Prod.fst))⟩) := by
  have hl := (filter_lanes (laddrW e a disp) (· % (n : Int) != 0) e.eff).trans (congrArg _ h)
  have hol := (filter_lanes (laddrW e a disp) (fun o => (e.b.winCheck o n).isSome) e.eff).trans (congrArg _ ho)
  simp only [lsitesW, localSites, localCheck_outside _ hl hol, List.map_cons, List.map_map, Function.comp_def]

theorem filter_one {α : Type} {p : α → Bool} {x : α} (h : p x = true) : [x].filter p = [x] := List.filter_cons_of_pos h

theorem sitesS_misaligned (t : AccType) (h : gaddrS q a disp % n ≠ 0) :
    sitesS q t n a disp = .error (.trap ⟨fAlign, gaddrS q a disp, 0, some (maskOf [0])⟩) := by
  have hl := filter_one (p := fun l : Nat × Nat × Nat => l.2.2 % n != 0) (x := (0, 0, gaddrS q a disp)) (bne_iff_ne.mpr h)
  simp only [sitesS, spots_misaligned _ _ _ _ hl]
  rfl

theorem lsitesS_misaligned (h : laddrS q a disp % (n : Int) ≠ 0) :
    lsitesS q n a disp = .error (.trap ⟨fAlign, offBits (laddrS q a disp), 0, some (maskOf [0])⟩) := by
  have hl := filter_one (p := fun l : Nat × Nat × Int => l.2.2 % (n : Int) != 0) (x := (0, 0, laddrS q a disp)) (bne_iff_ne.mpr h)
  simp only [lsitesS, localSites, localCheck_misaligned _ hl]
  rfl

theorem lsitesS_outside {k : Nat} (h : laddrS q a disp % (n : Int) = 0) (ho : q.b.winCheck (laddrS q a disp) n = some k) :
    lsitesS q n a disp = .error (.trap ⟨fAccess, offBits (laddrS q a disp), k, some (maskOf [0])⟩) := by
  have hl : ([(0, 0, laddrS q a disp)].filter fun l : Nat × Nat × Int => l.2.2 % (n : Int) != 0) = [] := by simp [h]
  have hol := filter_one (p := fun l : Nat × Nat × Int => (q.b.winCheck l.2.2 n).isSome) (x := (0, 0, laddrS q a disp))
    (Option.isSome_of_eq_some ho)
  simp only [lsitesS, localSites, localCheck_outside _ hl hol, ho, Option.getD_some]
  rfl

end

/-- A fault of the sequencer whose lanes say nothing: its trap record names none (R107). -/
theorem seqTraps_of_lanes {s : State} {i : Instr} {c : Ctl} {wb : WEnv → Except Stop State} {sb : SEnv → Except Stop State}
    {f : WEnv → Option Nat} {p : SEnv → Prop} {x : SEnv → TrapInfo} (hx : exec i s = issue i c wb sb s f)
    (h : ∀ e, p e → ∃ m, sb e = .error (.trap ⟨(x e).code, (x e).addr, (x e).aux, m⟩)) : SeqTraps s i c p x := fun e he hs hp => by
  obtain ⟨m, hm⟩ := h e hp
  rw [hx, issue_seq_fault he hs hm]

-- What stops the sites of an access stops the access.

section
variable {e : WEnv} {q : SEnv} {x : Stop} {d : Operand}
  {sites : WEnv → Nat → Except Stop (State × List Site)} {sitesQ : SEnv → Nat → Except Stop (State × List Site)}

theorem loadW_stops {i : Instr} {m : LdMode} (h : sites e (ldBytes m).1 = .error x) : loadW i m d sites e = .error x := by
  simp only [loadW, h]

theorem storeW_stops {i : Instr} {m : StMode} (h : sites e (stBytes m) = .error x) : storeW i m d sites e = .error x := by
  simp only [storeW, h]

theorem loadS_stops {m : LdMode} (h : sitesQ q (ldBytes m).1 = .error x) : loadS m d sitesQ q = .error x := by
  simp only [loadS, h]

theorem storeS_stops {m : StMode} (h : sitesQ q (stBytes m) = .error x) : storeS m d sitesQ q = .error x := by
  simp only [storeS, h]

end

-- What the lanes raise after translation.

/-- The fault that a lane's translation, or the check of its page, raises (R203). -/
def State.laneFault (s : State) (die : Nat) (t : AccType) (va : Nat) : Xl → Option AFault
  | .fail aux => some ⟨0, aux⟩
  | .done tl => s.checkPage die t tl.pte (tl.phys va)
  | .wait => none

/-- The lanes that raise a fault, each with it. -/
def State.raised (s : State) (die : Nat) (t : AccType) (lanes : List (Nat × Nat × Nat)) (xs : List Xl) :
    List ((Nat × Nat × Nat) × AFault) :=
  (lanes.zip xs).filterMap fun p => (s.laneFault die t p.1.2.2 p.2).map fun f => (p.1, f)

theorem filterMap_raised {s : State} {die : Nat} {t : AccType} {lanes : List (Nat × Nat × Nat)} {xs : List Xl}
    {g : (Nat × Nat × Nat) × Xl → Option (Nat × Nat × AFault)}
    (hg : ∀ l x, g (l, x) = (s.laneFault die t l.2.2 x).map fun f => (l.1, l.2.2, f)) :
    (lanes.zip xs).filterMap g = (s.raised die t lanes xs).map fun y => (y.1.1, y.1.2.2, y.2) := by
  rw [State.raised, List.map_filterMap]
  congr 1
  funext ⟨l, x⟩
  rw [hg, Option.map_map]
  rfl

/-- A fault's code by its class (R203). -/
theorem AFault.code_eq {f : AFault} (h : f.cls < 5) : f.code = [0x10, 0x13, 0x30, 0x11, 0x14].getD f.cls 0 := by
  obtain ⟨cls, aux⟩ := f
  change cls < 5 at h
  interval_cases cls <;> rfl

/-- The first class is the least one that a lane raises, with the lanes that raise it (R203). -/
theorem firstClass_least {l r : List (Nat × Nat × AFault)} {x h : Nat × Nat × AFault} (hx : x ∈ l)
    (hmin : ∀ y ∈ l, x.2.2.cls ≤ y.2.2.cls) (hf : (l.filter fun y => y.2.2.cls == x.2.2.cls) = h :: r) :
    firstClass l = some ⟨h.2.2.code, h.2.1, h.2.2.aux, some (maskOf ((h :: r).map Prod.fst))⟩ := by
  have hcls : minOf (l.map fun x => x.2.2.cls) = x.2.2.cls :=
    minOf_eq (List.mem_map_of_mem hx) fun m hm => by
      obtain ⟨y, hy, rfl⟩ := List.mem_map.mp hm
      exact hmin y hy
  simp only [firstClass, hcls, hf]

section
variable {s s1 : State} {aid n : Nat} {b : Block} {t : AccType} {lanes : List (Nat × Nat × Nat)} {xs : List Xl}
  (halign : ∀ l ∈ lanes, l.2.2 % n = 0)
  (hx : s.xlateAll aid b.die (some b.gcore) b.ctx (lanes.map fun l => l.2.2) = (s1, xs)) (hwait : .wait ∉ xs)
include halign hx hwait


/-- Aligned lanes whose translations are all at hand: the first class that they raise is taken, and without one they go on. -/
theorem spots_translated : ∃ l, s.spots aid b t n lanes =
    (firstClass ((s1.raised b.die t lanes xs).map fun y => (y.1.1, y.1.2.2, y.2))).elim (.ok (s1, l)) fun x => .error (.trap x) := by
  have hal : (lanes.filter fun l => l.2.2 % n != 0) = [] := List.filter_eq_nil_iff.mpr fun l hl => by simp [halign l hl]
  have hw : (xs.any fun x => x == .wait) = false := List.any_eq_false.mpr fun x hxs hxw => hwait (beq_iff_eq.mp hxw ▸ hxs)
  simp only [State.spots, hal, hx, hw, Bool.false_eq_true, if_false]
  generalize hg : (List.filterMap _ _ : List (Nat × Nat × AFault)) = faults
  have hfaults : faults = (s1.raised b.die t lanes xs).map fun y => (y.1.1, y.1.2.2, y.2) := by
    rw [← hg]
    refine filterMap_raised fun l x => ?_
    cases x with
    | done tl =>
      dsimp only [State.laneFault]
      cases s1.checkPage b.die t tl.pte (tl.phys l.2.2) <;> rfl
    | fail aux => rfl
    | wait => rfl
  rw [← hfaults]
  cases firstClass faults with
  | none => exact ⟨_, rfl⟩
  | some x => exact ⟨[], rfl⟩

theorem spots_ok (h : s1.raised b.die t lanes xs = []) : ∃ l, s.spots aid b t n lanes = .ok (s1, l) := by
  obtain ⟨l, hl⟩ := spots_translated (t := t) halign hx hwait
  rw [h] at hl
  exact ⟨l, hl⟩

theorem spots_fault {x h : (Nat × Nat × Nat) × AFault} {r : List ((Nat × Nat × Nat) × AFault)}
    (hmem : x ∈ s1.raised b.die t lanes xs) (hmin : ∀ y ∈ s1.raised b.die t lanes xs, x.2.cls ≤ y.2.cls) (hcls : x.2.cls < 5)
    (hf : ((s1.raised b.die t lanes xs).filter fun y => y.2.cls == x.2.cls) = h :: r) : s.spots aid b t n lanes =
    .error (.trap ⟨[0x10, 0x13, 0x30, 0x11, 0x14].getD x.2.cls 0, h.1.2.2, h.2.aux,
      some (maskOf ((h :: r).map fun y => y.1.1))⟩) := by
  obtain ⟨l, hl⟩ := spots_translated (t := t) halign hx hwait
  have hh : h.2.cls = x.2.cls := 
    beq_iff_eq.mp (List.of_mem_filter (p := fun y : (Nat × Nat × Nat) × AFault => y.2.cls == x.2.cls) (hf ▸ List.mem_cons_self))
  rw [hl, firstClass_least (List.mem_map_of_mem hmem) (List.forall_mem_map.mpr hmin)
    (List.filter_map.trans (congrArg (List.map _) hf)), ← hh, ← AFault.code_eq (hh ▸ hcls)]
  simp only [List.map_cons, List.map_map, Function.comp_def, Option.elim]

end

end Sys2Proof.Machine
end

section
open Sys2Proof Sys2Proof.Machine

/-- Settles O31: what stops the sites of an access stops the access, and after translation the least class raised is taken. -/
theorem accessFaults : Obligations.AccessFaults := by
  unfold Obligations.AccessFaults
  refine ⟨fun s c lm sm d a disp l r => ?_, fun x => ?_, fun s s1 aid n b t lanes xs halign hx hwait => ?_⟩
  · dsimp only
    refine ⟨⟨?_, ?_, ?_⟩, ⟨?_, ?_, ?_⟩, ⟨?_, ?_, ?_⟩, ⟨?_, ?_, ?_⟩⟩
    · exact warpTraps_of_body rfl fun e hp => loadW_stops (sitesW_misaligned .ld hp)
    · exact warpTraps_of_body rfl fun e hp => loadW_stops (lsitesW_misaligned hp)
    · exact warpTraps_of_body rfl fun e ⟨hp, ho⟩ => loadW_stops (lsitesW_outside hp ho)
    · exact warpTraps_of_body rfl fun e hp => storeW_stops (sitesW_misaligned .st hp)
    · exact warpTraps_of_body rfl fun e hp => storeW_stops (lsitesW_misaligned hp)
    · exact warpTraps_of_body rfl fun e ⟨hp, ho⟩ => storeW_stops (lsitesW_outside hp ho)
    · exact seqTraps_of_lanes rfl fun e hp => ⟨_, loadS_stops (sitesS_misaligned .ld hp)⟩
    · exact seqTraps_of_lanes rfl fun e hp => ⟨_, loadS_stops (lsitesS_misaligned hp)⟩
    · exact fun k => seqTraps_of_lanes rfl fun e ⟨hp, ho⟩ => ⟨_, loadS_stops (lsitesS_outside hp ho)⟩
    · exact seqTraps_of_lanes rfl fun e hp => ⟨_, storeS_stops (sitesS_misaligned .st hp)⟩
    · exact seqTraps_of_lanes rfl fun e hp => ⟨_, storeS_stops (lsitesS_misaligned hp)⟩
    · exact fun k => seqTraps_of_lanes rfl fun e ⟨hp, ho⟩ => ⟨_, storeS_stops (lsitesS_outside hp ho)⟩
  · simp only [offBits, BitVec.toNat_ofInt]
    exact Int.toNat_of_nonneg (Int.emod_nonneg _ (by norm_num))
  · exact ⟨spots_ok halign hx hwait, fun x hmem hmin hcls h r => spots_fault halign hx hwait hmem hmin hcls⟩

end

section
/-!
PROOFS. Atomics and commutative updates (R206, R207, R214, R215): what a word issues once its sites stand, how lanes enter a windrow
line, and the identities of the operations.
-/
namespace Sys2Proof.Machine

-- The requests of a word.

section
variable {s s1 : State} {c : Ctl} {e : WEnv} {xs : List Site} {a : Operand} {n : Nat} {t : AccType}

/-- An atomic whose sites stand issues its requests and waits for no more than its results (R206). -/
theorem rmwW_ok (i : Instr) (op : RmwOp) (val exp : WEnv → Nat × Nat → Word64) (ret : Option Operand) (acq rel : Option Scope)
    (h : sitesW e t n a none = .ok (s1, xs)) : rmwW i t n op a val exp ret acq rel e =
    .ok (retireLater ({ s1 with nextId := s1.nextId + 1 }.addAccesses
      ((requestsOf e.b e.w.aid s1.nextId op (xs.map fun x => (x, (⟨x.thr, x.a, val e (x.slot, x.thr),
        (exp e (x.slot, x.thr)).setWidth 32, ret.map fun d => .v x.thr (regOf e.b x.thr d)⟩ : AtomLane)))).map fun (r : Access) =>
          { r with acq := acq, rel := rel })) e i (xs.filterMap fun x => ret.map fun d => .v x.thr (regOf e.b x.thr d))) := by
  simp only [rmwW, h]
  rfl

/-- Whether a lane of a RED.C lies in no range of its element size (R215). -/
def State.unranged (s : State) (die n : Nat) (x : Site) : Bool :=
  match s.rangeAt die (lineOf x.a) with
  | some r => commSize r.fmt != n
  | none => true

theorem unranged_iff {die : Nat} {x : Site} :
    s.unranged die n x = true ↔ ∀ r, s.rangeAt die (lineOf x.a) = some r → commSize r.fmt ≠ n := by
  unfold State.unranged
  cases s.rangeAt die (lineOf x.a) with
  | none => simp
  | some r => simp

variable {sz : RedcSize} {b : Operand} (he : s.warpStart (.redC c sz a b) c = some e)
  (h : sitesW e .redc (redcBytes sz) a none = .ok (s1, xs))
include he h

theorem redC_ok (hin : xs.filter (s1.unranged e.b.die (redcBytes sz)) = []) : exec (.redC c sz a b) s =
    .next ((retire { s1 with nextId := s1.nextId + 1 } e (.redC c sz a b)).addAccesses
      (requestsOf e.b e.w.aid s1.nextId .redc (xs.map fun x => (x, ⟨x.thr, x.a,
        if sz = .b64 then srcPair e (x.slot, x.thr) b else (srcI e (x.slot, x.thr) b).setWidth 64, 0, none⟩)))) := by
  refine issue_warp_ok he ?_
  dsimp only
  rw [h]
  dsimp only
  split
  · rename_i heq
    cases hin.symm.trans heq
  · rfl

theorem redC_unranged (hs : e.b.specOf e.w.aid = none) {x : Site} {r : List Site}
    (hout : xs.filter (s1.unranged e.b.die (redcBytes sz)) = x :: r) : exec (.redC c sz a b) s =
    .next (takeTrap (e.s.dropFails e.b.die e.w.aid) e.b.id
      (trapRecW e ⟨fCommStore, x.va, 1, some (maskOf ((x :: r).map fun y => y.slot))⟩)) := by
  refine issue_warp_fault he hs ?_
  dsimp only
  rw [h]
  dsimp only
  split
  · rename_i heq
    cases hout.symm.trans heq
    rfl
  · rename_i heq
    cases hout.symm.trans heq

end

-- Windrow lines (R215).

section
variable {s : State} {a : Access} {r : CommRange}

/-- The windrow line of a request's die and slice (R215). -/
def Access.hits (a : Access) (w : Windrow) : Bool :=
  w.die == a.die && w.slice == windrowSlice a.slice a.line && w.line == a.line

theorem hits_iff {w : Windrow} : a.hits w = true ↔
    w.die = a.die ∧ w.slice = 4 * a.slice + sliceOf (128 * a.line) % 4 ∧ w.line = a.line := by
  simp only [Access.hits, windrowSlice, Bool.and_eq_true, beq_iff_eq, and_assoc]

/-- The line as a request finds it: one that stands, or a new one of identities. -/
def State.windrowFor (s : State) (a : Access) (r : CommRange) : Windrow :=
  (s.om.windrows.find? a.hits).getD ⟨a.die, windrowSlice a.slice a.line, a.line, a.ctx, a.keyid, a.repl, identityLine r⟩

/-- One lane taken into the bytes of a line. -/
def redcLane (r : CommRange) (data : List Byte) (l : AtomLane) : List Byte :=
  let n := commSize r.fmt
  let o := l.a % 128
  data.take o ++ leBytes n (commOp r.op r.fmt (leNat ((data.drop o).take n)) (l.b.toNat % 256 ^ n)) ++ data.drop (o + n)

/-- The line as a request leaves it. -/
def State.redcLine (s : State) (a : Access) (r : CommRange) (ls : List AtomLane) : Windrow :=
  { s.windrowFor a r with data := ls.foldl (redcLane r) (s.windrowFor a r).data }

theorem windrowFor_hits : a.hits (s.windrowFor a r) = true := by
  unfold State.windrowFor
  cases hf : s.om.windrows.find? a.hits with
  | none => exact hits_iff.mpr ⟨rfl, rfl, rfl⟩
  | some w => exact List.find?_some hf

theorem redcLine_hits (ls : List AtomLane) : a.hits (s.redcLine a r ls) = true := windrowFor_hits

theorem windrowFor_standing {w : Windrow} (hw : w ∈ s.om.windrows) (hhit : a.hits w = true)
    (hone : ∀ y ∈ s.om.windrows, a.hits y = true → y = w) : s.windrowFor a r = w := by
  unfold State.windrowFor
  cases hf : s.om.windrows.find? a.hits with
  | none => exact absurd hhit (List.find?_eq_none.mp hf w hw)
  | some y => exact hone y (List.mem_of_find?_eq_some hf) (List.find?_some hf)

theorem windrowFor_new (hno : ∀ y ∈ s.om.windrows, a.hits y ≠ true) : s.windrowFor a r =
    ⟨a.die, windrowSlice a.slice a.line, a.line, a.ctx, a.keyid, a.repl, identityLine r⟩ := by
  rw [State.windrowFor, List.find?_eq_none.mpr hno]
  rfl

theorem identityLine_eq (r : CommRange) : identityLine r =
    (List.replicate (128 / commSize r.fmt) (leBytes (commSize r.fmt) (commIdentity r.op r.fmt))).flatten := by
  rw [identityLine, List.map_const', List.length_range]

variable (hr : s.rangeAt a.die a.line = some r)
include hr

theorem redc_eq (ls : List AtomLane) : s.redc a ls = { s with om := { s.om with
    windrows := (s.om.windrows.filter fun w => !a.hits w) ++
      [s.redcLine a r ls] } } := by
  simp only [State.redc, hr]
  rfl

theorem mem_redc_windrows {ls : List AtomLane} {w : Windrow} : w ∈ (s.redc a ls).om.windrows ↔
    (w ∈ s.om.windrows ∧ a.hits w = false) ∨
      w = s.redcLine a r ls := by
  rw [redc_eq hr]
  simp only [List.mem_append, List.mem_filter, List.mem_singleton, Bool.not_eq_true']

/-- After a RED.C the line that a next one finds is the one it left. -/
theorem windrowFor_redc (ls : List AtomLane) : (s.redc a ls).windrowFor a r =
    s.redcLine a r ls := by
  refine windrowFor_standing ((mem_redc_windrows hr).mpr (.inr rfl)) (redcLine_hits ls) fun y hy hhit => ?_
  rcases (mem_redc_windrows hr).mp hy with ⟨-, hno⟩ | h
  · exact absurd hhit (Bool.eq_false_iff.mp hno)
  · exact h

theorem redc_others (ls : List AtomLane) : ((s.redc a ls).om.windrows.filter fun w => !a.hits w) =
    s.om.windrows.filter fun w => !a.hits w := by
  rw [redc_eq hr, List.filter_append, List.filter_filter, List.filter_cons_of_neg (by rw [redcLine_hits]; decide)]
  simp only [Bool.and_self, List.filter_nil, List.append_nil]

/-- Lanes are taken one after another (R215). -/
theorem redc_cons (l : AtomLane) (ls : List AtomLane) : s.redc a (l :: ls) = (s.redc a [l]).redc a ls := by
  have hr' : (s.redc a [l]).rangeAt a.die a.line = some r := by rw [redc_eq hr]; exact hr
  rw [redc_eq hr' ls, redc_others hr, State.redcLine, windrowFor_redc hr, redc_eq hr, redc_eq hr]
  rfl

end

-- Little-endian values.

theorem leNat_leBytes (n : Nat) : ∀ v, leNat (leBytes n v) = v % 256 ^ n := by
  induction n with
  | zero => intro v; rw [pow_zero, Nat.mod_one]; rfl
  | succ n ih =>
    intro v
    have hmod : v % 256 ^ (n + 1) = v % 256 + 256 * (v / 256 % 256 ^ n) := by rw [pow_succ', Nat.mod_mul]
    rw [leBytes, leNat, ih, BitVec.toNat_ofNat, hmod]

section
variable {r : CommRange} {data : List Byte} {l : AtomLane} (hlen : data.length = 128) (ho : l.a % 128 + commSize r.fmt ≤ 128)
include hlen ho

/-- A lane's element is replaced by the operation's value, modulo its size; every other byte stays. -/
theorem redcLane_spec : (redcLane r data l).length = 128 ∧
    (∀ k, k < l.a % 128 ∨ l.a % 128 + commSize r.fmt ≤ k → (redcLane r data l).getD k 0 = data.getD k 0) ∧
    leNat (((redcLane r data l).drop (l.a % 128)).take (commSize r.fmt)) =
      commOp r.op r.fmt (leNat ((data.drop (l.a % 128)).take (commSize r.fmt))) (l.b.toNat % 256 ^ commSize r.fmt) %
        256 ^ commSize r.fmt := by
  unfold redcLane
  dsimp only
  generalize commOp _ _ _ _ = x
  generalize l.a % 128 = o at ho ⊢
  generalize commSize r.fmt = n at ho ⊢
  have hto : (data.take o).length = o := by rw [List.length_take]; omega
  have hx : (leBytes n x).length = n := leBytes_len n x
  refine ⟨?_, fun k hk => ?_, ?_⟩
  · simp only [List.length_append, hto, hx, List.length_drop]
    omega
  · simp only [List.getD_eq_getElem?_getD, List.append_assoc]
    congr 1
    rcases hk with hk | hk
    · rw [List.getElem?_append_left (by omega), List.getElem?_take_of_lt hk]
    · rw [List.getElem?_append_right (by omega), List.getElem?_append_right (by omega), List.getElem?_drop]
      congr 1
      omega
  · rw [List.append_assoc, List.drop_left' hto, List.take_left' hx, leNat_leBytes]

end

end Sys2Proof.Machine
end
section
/-!
PROOFS. The values that atomics and commutative updates give (R206, R207, R214), and the identities of the operations.
-/
namespace Sys2Proof.Machine

-- Minimum and maximum of words (R206).

section
variable (x y : Word32)

theorem atomNew_min_unsigned : atomNew (.min true) x y = if y.toNat < x.toNat then y else x := by simp [atomNew]

theorem atomNew_max_unsigned : atomNew (.max true) x y = if x.toNat < y.toNat then y else x := by simp [atomNew]

theorem atomNew_min_signed : atomNew (.min false) x y = if y.toInt < x.toInt then y else x := by simp [atomNew]

theorem atomNew_max_signed : atomNew (.max false) x y = if x.toInt < y.toInt then y else x := by simp [atomNew]

end

/-- Of two words in order, the choice by `<` takes the one in question, whichever stands first. -/
theorem choose_of_le {w : Nat} {x y : BitVec w} (h : x.toInt ≤ y.toInt) :
    (if x.toInt < y.toInt then x else y) = x ∧ (if y.toInt < x.toInt then y else x) = x ∧
      (if x.toInt < y.toInt then y else x) = y ∧ (if y.toInt < x.toInt then x else y) = y := by
  have hge : ¬y.toInt < x.toInt := not_lt.mpr h
  rw [if_neg hge, if_neg hge]
  by_cases hlt : x.toInt < y.toInt
  · rw [if_pos hlt, if_pos hlt]
    exact ⟨rfl, rfl, rfl, rfl⟩
  · rw [if_neg hlt, if_neg hlt]
    have hxy : x = y := BitVec.eq_of_toInt_eq (le_antisymm h (not_lt.mp hlt))
    exact ⟨hxy.symm, rfl, hxy, rfl⟩

theorem toInt_le_intMax {w : Nat} (x : BitVec w) : x.toInt ≤ (BitVec.intMax w).toInt := by
  have := BitVec.toInt_lt (x := x)
  rw [BitVec.toInt_intMax]
  omega

-- The operations on elements (R214).

theorem w32_self (x : Word32) : w32 x.toNat = x := by rw [w32, BitVec.ofNat_toNat, BitVec.setWidth_eq]

/-- A range's operation on integers of any width. -/
def redWords {w : Nat} (op : RedOp) (x y : BitVec w) : BitVec w :=
  match op with
  | .add => x + y
  | .min => if y.toInt < x.toInt then y else x
  | .max => if x.toInt < y.toInt then y else x

/-- Its neutral value. -/
def redNeutral (op : RedOp) (w : Nat) : BitVec w :=
  match op with
  | .add => 0
  | .min => BitVec.intMax w
  | .max => BitVec.intMin w

theorem redWords_neutral {w : Nat} (op : RedOp) (x : BitVec w) :
    redWords op (redNeutral op w) x = x ∧ redWords op x (redNeutral op w) = x := by
  cases op with
  | add => exact ⟨zero_add x, add_zero x⟩
  | min => exact ⟨(choose_of_le (toInt_le_intMax x)).1, (choose_of_le (toInt_le_intMax x)).2.1⟩
  | max => exact (choose_of_le (BitVec.toInt_intMin_le x)).2.2

/-- A range's operation on the codes of a format. -/
def redCodes (op : RedOp) (f : Fmt) (a b : Nat) : Nat :=
  match op with
  | .add => f.add .rne a b
  | .min => f.minC a b
  | .max => f.maxC a b

section
variable (op : RedOp) (u v : Word32) (x y : Word64)

theorem redNew_s32 : redNew op .s32 u v = redWords op u v := by
  cases op with
  | add => rfl
  | min => exact atomNew_min_signed u v
  | max => exact atomNew_max_signed u v

theorem redNew_f32 : redNew op .f32 u v = w32 (redCodes op f32 u.toNat v.toNat) := by cases op <;> rfl

theorem commOp_int32 : commOp op .int32 u.toNat v.toNat = (redWords op u v).toNat := by
  rw [commOp, w32_self, w32_self, redNew_s32]

theorem commOp_int64 : commOp op .int64 x.toNat y.toNat = (redWords op x y).toNat := by
  simp only [commOp, BitVec.ofNat_toNat, BitVec.setWidth_eq]
  cases op <;> rfl

theorem commOp_fp32 : commOp op .fp32 u.toNat v.toNat = (w32 (redCodes op f32 u.toNat v.toNat)).toNat := by
  rw [commOp, w32_self, w32_self, redNew_f32]

end

-- Adding -0, and the infinities under minimum and maximum (R53, R54).

/-- What a finite code stands for is the value of a magnitude code below the infinity's. -/
theorem dec_fin_code {f : Fmt} {v : Nat} {s : Bool} {m : Nat} {e : Int} (hv : v < 2 * f.sgn) (hd : f.dec v = .fin s m e) :
    ∃ c < f.inf, (m : ℚ) * 2 ^ e = codeVal f.p f.qmin c := by
  rw [dec_code hv] at hd
  split_ifs at hd with hnan hinf
  cases hd
  exact ⟨v % f.sgn, by omega, (codeVal_eq ..).symm⟩

section
variable {f : Fmt} (hp : 1 ≤ f.p) {z v : Nat} (hv : v < 2 * f.sgn) (hn : f.dec v ≠ .nan)
include hp hv hn

/-- A finite value that has a code's value, and its sign where it is zero, is encoded by that code. -/
theorem enc_of_dec_val {s u : Bool} {m k : Nat} {e h : Int} (hd : f.dec v = .fin s m e)
    (hval : (FV.fin u k h).val = (FV.fin s m e).val) (hsign : k = 0 → u = s) (r : Rnd) : f.enc r (.fin u k h) = v := by
  have hsu : u = s := by
    by_cases hk : k = 0
    · exact hsign hk
    · have hm : m ≠ 0 := fun h0 => hk (val_fin_eq_zero.mp (hval.trans (val_fin_eq_zero.mpr h0)))
      rw [Bool.eq_iff_iff, ← val_fin_neg_iff hk, hval, val_fin_neg_iff hm]
  subst hsu
  have hkm : (k : ℚ) * 2 ^ h = m * 2 ^ e := by cases u <;> simpa [FV.val] using hval
  obtain ⟨c, hc, hcode⟩ := dec_fin_code hv hd
  calc f.enc r (.fin u k h) = f.enc r (.fin u m e) := by rw [enc_of_code hp r u hc hcode, enc_of_code hp r u hc (hkm.trans hcode)]
    _ = v := hd ▸ (enc_dec hp r hv hn).1

/-- Adding -0 changes no value but NaN, rounding to the nearest (R53). -/
theorem add_negZero {g : Int} (hz : f.dec z = .fin true 0 g) : f.add .rne z v = v ∧ f.add .rne v z = v := by
  have hself := (enc_dec hp .rne hv hn).1
  have hzero : (FV.fin true 0 g).val = 0 := val_fin_eq_zero.mpr rfl
  rw [fmt_add, fmt_add, hz]
  cases hd : f.dec v with
  | nan => exact absurd hd hn
  | inf s =>
    rw [hd] at hself
    exact ⟨hself, hself⟩
  | fin s m e =>
    obtain ⟨u, k, h, hsum, hval, hsign⟩ := add_fin_fin .rne true s 0 m g e
    obtain ⟨u', k', h', hsum', hval', hsign'⟩ := add_fin_fin .rne s true m 0 e g
    rw [hzero, zero_add] at hval
    rw [hzero, add_zero] at hval'
    rw [hsum, hsum']
    refine ⟨enc_of_dec_val hp hv hn hd hval (fun hk => ?_) _, enc_of_dec_val hp hv hn hd hval' (fun hk => ?_) _⟩
    · rw [hsign hk]
      cases s <;> rfl
    · rw [hsign' hk]
      cases s <;> rfl

theorem minC_posInf (hz : f.dec z = .inf false) : f.minC z v = v ∧ f.minC v z = v := by
  obtain ⟨-, hl, -, hr⟩ := min_max_posInf hn
  rw [fmt_minC, fmt_minC, hz, hl, hr]
  exact ⟨(enc_dec hp .rne hv hn).1, (enc_dec hp .rne hv hn).1⟩

theorem maxC_negInf (hz : f.dec z = .inf true) : f.maxC z v = v ∧ f.maxC v z = v := by
  obtain ⟨-, hl, -, hr⟩ := min_max_negInf hn
  rw [fmt_maxC, fmt_maxC, hz, hl, hr]
  exact ⟨(enc_dec hp .rne hv hn).1, (enc_dec hp .rne hv hn).1⟩

end

/-- A range's operation on binary32 keeps what it is given with its identity (R214). -/
theorem redCodes_identity (op : RedOp) {v : Nat} (hv : v < 256 ^ 4) (hn : f32.dec v ≠ .nan) :
    redCodes op f32 (commIdentity op .fp32) v = v ∧ redCodes op f32 v (commIdentity op .fp32) = v := by
  have hp : 1 ≤ f32.p := by decide
  cases op with
  | add => exact add_negZero hp hv hn rfl
  | min => exact minC_posInf hp hv hn rfl
  | max => exact maxC_negInf hp hv hn rfl

section
variable (op : RedOp) {v : Nat}

/-- The identity of a range changes no value (R214). -/
theorem commOp_identity (fmt : CommFmt) (hop : fmt = .bf16 → op = .add) (hv : v < 256 ^ commSize fmt)
    (hf : fmt = .fp32 → f32.dec v ≠ .nan) (hb : fmt = .bf16 → bf16.dec v ≠ .nan) :
    commOp op fmt (commIdentity op fmt) v = v ∧ commOp op fmt v (commIdentity op fmt) = v := by
  cases fmt with
  | fp32 =>
    obtain ⟨x, rfl⟩ : ∃ x : Word32, v = x.toNat := ⟨⟨v, hv⟩, rfl⟩
    obtain ⟨i, hi⟩ : ∃ i : Word32, commIdentity op .fp32 = i.toNat := ⟨w32 (commIdentity op .fp32), by cases op <;> rfl⟩
    obtain ⟨hl, hr⟩ := redCodes_identity op hv (hf rfl)
    rw [hi] at hl hr ⊢
    rw [commOp_fp32, commOp_fp32, hl, hr, w32_self]
    exact ⟨rfl, rfl⟩
  | int32 =>
    obtain ⟨x, rfl⟩ : ∃ x : Word32, v = x.toNat := ⟨⟨v, hv⟩, rfl⟩
    have hi : commIdentity op .int32 = (redNeutral op 32).toNat := by cases op <;> rfl
    rw [hi, commOp_int32, commOp_int32, (redWords_neutral op x).1, (redWords_neutral op x).2]
    exact ⟨rfl, rfl⟩
  | int64 =>
    obtain ⟨x, rfl⟩ : ∃ x : Word64, v = x.toNat := ⟨⟨v, hv⟩, rfl⟩
    have hi : commIdentity op .int64 = (redNeutral op 64).toNat := by cases op <;> rfl
    rw [hi, commOp_int64, commOp_int64, (redWords_neutral op x).1, (redWords_neutral op x).2]
    exact ⟨rfl, rfl⟩
  | bf16 =>
    obtain rfl := hop rfl
    exact add_negZero (f := bf16) (by decide) hv (hb rfl) rfl

end

end Sys2Proof.Machine
end
section
open Sys2Proof Sys2Proof.Machine

/-- Settles O36: the requests that each word issues, the values one equation each, a windrow line by its first lane and the rest, and
the identities by the format. -/
theorem atomicsIssue : Obligations.AtomicsIssue := by
  unfold Obligations.AtomicsIssue
  refine ⟨fun s c op exch ord rop rfmt sz d a b => ?_, fun s a l ls r hr => ?_, fun x y u v p q => ?_,
    fun op fmt v hop hv hf hb => commOp_identity op fmt hop hv hf hb⟩
  · refine ⟨fun e s1 xs he hs => ?_, fun e s1 xs he hs => ?_, fun e s1 xs he hs => ?_, fun e s1 xs he hs hin => ?_,
      fun e s1 x he hspec hs hout => ?_, fun l old => ?_⟩
    · exact issue_warp_ok he (rmwW_ok _ _ _ _ (some d) none none hs)
    · refine (issue_warp_ok he (rmwW_ok _ _ _ _ (some d) _ _ hs)).trans ?_
      simp only [BitVec.setWidth_setWidth_of_le _ (show 32 ≤ 64 by decide), BitVec.setWidth_eq]
      rfl
    · exact issue_warp_ok he (rmwW_ok _ _ _ _ none none none hs)
    · refine redC_ok he hs (List.filter_eq_nil_iff.mpr fun x hx hbad => ?_)
      obtain ⟨r, hr, hsize⟩ := hin x hx
      exact unranged_iff.mp hbad r hr hsize
    · have hf : [x].filter (s1.unranged e.b.die (redcBytes sz)) = [x] := filter_one (unranged_iff.mpr hout)
      rw [redC_unranged he hs hspec hf]
      rfl
    · exact ⟨rfl, rfl, rfl, rfl, rfl, rfl, atomNew_min_unsigned .., atomNew_max_signed .., atomNew_min_signed ..,
        atomNew_max_unsigned .., rfl, rfl, rfl, rfl, atomNew_min_unsigned .., atomNew_max_unsigned .., atomNew_min_signed ..,
        atomNew_max_signed .., rfl, rfl⟩
  · intro n sl mine t o
    have hmine (w : Windrow) : mine w ↔ a.hits w = true := hits_iff.symm
    refine ⟨redc_cons hr l ls, ?_, fun w hw => ?_, fun w hw hlen ho => ?_⟩
    · simp only [t, redc_eq hr]
    · rw [mem_redc_windrows hr, Bool.eq_false_iff]
      refine ⟨fun h => ?_, fun h => .inl ⟨h, (hmine w).not.mp hw⟩⟩
      rcases h with ⟨h, -⟩ | rfl
      · exact h
      · exact absurd ((hmine _).mpr (redcLine_hits [l])) hw
    · have hfor : s.windrowFor a r = w := by
        rcases hw with ⟨hmem, hhit, hone⟩ | ⟨hno, rfl⟩
        · exact windrowFor_standing hmem ((hmine w).mp hhit) fun y hy hy' => hone y hy ((hmine y).mpr hy')
        · rw [windrowFor_new fun y hy hy' => hno y hy ((hmine y).mpr hy'), identityLine_eq]
          rfl
      obtain ⟨hlen', hkeep, hval⟩ := redcLane_spec hlen ho
      exact ⟨_, (mem_redc_windrows hr).mpr (.inr (by rw [State.redcLine, hfor])), rfl, hlen', hkeep, hval⟩
  · exact ⟨commOp_int32 .., commOp_int64 .., commOp_int32 .., commOp_int32 .., commOp_int64 .., commOp_int64 .., commOp_fp32 ..,
      commOp_fp32 .., commOp_fp32 .., rfl⟩

end

section
/-!
PROOFS. What the loss of a die leaves alone, and what a die that enters reset loses (R320, R338).
-/
namespace Sys2Proof.Machine

-- The end of an access and a write at a home leave the dies as they are.

section
variable (s : State)

theorem foldl_dies {α : Type} {f : State → α → State} (h : ∀ s x, (f s x).dies = s.dies) (l : List α) :
    (l.foldl f s).dies = s.dies :=
  foldl_keeps (P := fun t => t.dies = s.dies) (fun t x ht => (h t x).trans ht) l s rfl

@[simp] theorem modAgent_dies (a : Nat) (f : AgentRec → AgentRec) : (s.modAgent a f).dies = s.dies := by
  unfold State.modAgent
  split <;> rfl

@[simp] theorem modBlock_dies (k : Nat) (f : Block → Block) : (s.modBlock k f).dies = s.dies := by
  unfold State.modBlock
  split <;> rfl

@[simp] theorem performed_dies (id : Nat) : (s.performed id).dies = s.dies := by
  unfold State.performed
  split
  · rfl
  · exact modAgent_dies ..

@[simp] theorem deliver_dies (aid : Nat) (cells : List (Cell × Nat)) : (s.deliver aid cells).dies = s.dies := by
  unfold State.deliver
  split
  · rfl
  · split
    · exact modBlock_dies ..
    · rfl

@[simp] theorem touch_dies (ctx d : Nat) : (s.touch ctx d).dies = s.dies := by
  unfold State.touch
  split <;> rfl

@[simp] theorem writeLine_dies (line keyid : Nat) (cells : List Host.Cell) : (s.writeLine line keyid cells).dies = s.dies := by
  rw [writeLine_eq]

@[simp] theorem writeHome_dies (keyid : Nat) (cells : List Host.Cell) : (s.writeHome keyid cells).dies = s.dies := by
  rw [writeHome_eq]

@[simp] theorem patchInb_dies (line keyid : Nat) (cells : List Host.Cell) : (s.patchInb line keyid cells).dies = s.dies := rfl

theorem rmwLanes_dies (keyid : Nat) (op : RmwOp) (lanes : List AtomLane) :
    ∀ s : State, (s.rmwLanes keyid op lanes).1.dies = s.dies := by
  induction lanes with
  | nil => exact fun _ => rfl
  | cons l t ih => exact fun s => (ih _).trans (writeLine_dies ..)

@[simp] theorem homeWrite_dies (a : Access) : (s.homeWrite a).1.dies = s.dies := by
  unfold State.homeWrite
  split
  · exact writeLine_dies ..
  · exact writeLine_dies ..
  · exact rmwLanes_dies ..
  · dsimp only
    refine foldl_dies s (fun t p => ?_) _
    exact writeHome_dies ..
  · rfl

@[simp] theorem replicaAcc_dies (id : Nat) : (s.replicaAcc id).dies = s.dies := by
  unfold State.replicaAcc
  split
  · rfl
  · split
    · split
      · rfl
      · dsimp only
        rw [performed_dies, touch_dies]
        split <;> exact writeHome_dies ..
    · rfl

@[simp] theorem replicaNow_dies (a : Access) (cells : List Host.Cell) : (s.replicaNow a cells).dies = s.dies := by
  unfold State.replicaNow
  split
  · dsimp only
    split
    · exact writeHome_dies ..
    · rfl
  · rfl

@[simp] theorem refusedAcc_dies (id : Nat) (a : Access) : (s.refusedAcc id a).dies = s.dies :=
  (performed_dies ..).trans (deliver_dies ..)

@[simp] theorem lostWrites_dies (d : Nat) : (s.lostWrites d).dies = s.dies := by
  unfold State.lostWrites
  refine (foldl_dies _ (fun t p => ?_) _).trans (foldl_dies s (fun t id => replicaAcc_dies t id) _)
  have hite (c : Bool) {x : State} (hx : x.dies = t.dies) : (if c = true then x else t.freeIx.2).dies = t.dies := by
    cases c
    · rfl
    · exact hx
  exact hite _ ((replicaNow_dies ..).trans (homeWrite_dies ..))

@[simp] theorem lostRequests_dies (d : Nat) : (s.lostRequests d).dies = s.dies := by
  unfold State.lostRequests
  refine (foldl_dies _ (fun t (p : Nat × Access) => refusedAcc_dies t p.1 p.2) _).trans (foldl_dies s (fun t id => ?_) _)
  dsimp only
  split
  · exact replicaAcc_dies ..
  · exact performed_dies ..

/-- A lost die stands as reset has it, but for what is said of its end (R323). -/
theorem loseDie_die {d : Nat} (hd : d < s.dies.length) (st : DieSt) (fenced : Bool) :
    (s.loseDie d st fenced).die d = { Die.reset with st := st, fenced := fenced } := by
  unfold State.loseDie State.die
  dsimp only
  rw [lostRequests_dies, lostWrites_dies, List.getD_eq_getElem?_getD, List.getElem?_set_self hd]
  rfl

theorem loseDie_blocks (d : Nat) (st : DieSt) (fenced : Bool) : ∀ b ∈ (s.loseDie d st fenced).task.blocks, b.2.die ≠ d := by
  intro b hb
  exact bne_iff_ne.mp (List.of_mem_filter (p := fun p : Nat × Block => p.2.die != d) hb)

end

theorem aget_filter {α : Type} (p : Nat → Bool) (a : Nat) (m : Assoc α) :
    aget a (m.filter fun c => p c.1) = if p a then aget a m else none := by
  induction m with
  | nil => exact (ite_self _).symm
  | cons c t ih =>
    rw [List.filter_cons]
    by_cases hc : a = c.1
    · subst hc
      cases hp : p c.1
      · simpa [hp] using ih
      · simp [aget]
    · cases hp : p c.1
      · simpa [aget, hc] using ih
      · simpa [aget, hc] using ih

/-- Memory filtered by address keeps the bytes that are picked and reads 0 elsewhere. -/
theorem byteAt_filter (p : Nat → Bool) (a : Nat) (m : List Host.Cell) :
    byteAt (m.filter fun c => p c.1) a = if p a then byteAt m a else 0 := by
  unfold byteAt agetD
  rw [aget_filter]
  split <;> rfl

/-- HBM is a range of addresses, and the die of an HBM address is a field of it (R198). -/
theorem region_hbm_iff {m : PMem} {a : Nat} : m.region a = .hbm ↔ a < 2 ^ 40 := by
  unfold PMem.region
  split
  · exact iff_of_true rfl ‹_›
  · refine iff_of_false ?_ ‹_›
    split_ifs
    · decide
    · cases m.window a with
      | none => decide
      | some w => cases hw : w.lost <;> simp [hw]
    · decide
    · decide

theorem homeDie_hbm {m : PMem} {a : Nat} (h : a < 2 ^ 40) : m.homeDie a = a / 2 ^ 37 % 8 := by
  rw [PMem.homeDie, region_hbm_iff.mpr h]

/-- A die that loses its memory reads 0 in its HBM (R320). -/
theorem forget_hbm (m : PMem) {d a : Nat} (ha : a < 2 ^ 40) (hd : a / 2 ^ 37 % 8 = d) : byteAt (m.forget d).bytes a = 0 := by
  have hgone : ((m.region a == .hbm || m.region a == .staging) && m.homeDie a == d) = true := by
    rw [region_hbm_iff.mpr ha, homeDie_hbm ha, hd]
    simp
  refine (byteAt_filter (fun x => !((m.region x == .hbm || m.region x == .staging) && m.homeDie x == d)) a m.bytes).trans ?_
  rw [hgone]
  rfl

section
variable {s : State} {d : Nat} (h : (s.die d).st ≠ .inReset)
include h

theorem enterReset_eq : s.enterReset d = (let t := (s.append d true (.diedown d)).loseDie d .lost false
    { t with phys := t.phys.forget d }) := by
  unfold State.enterReset
  dsimp only
  split
  · rename_i hst
    exact absurd hst h
  · rfl

theorem enterReset_spec : (s.enterReset d).pkg.msgs = s.pkg.msgs ++ [⟨s.pkg.nextSeq, d, true, .diedown d, none, []⟩] ∧
    ((s.enterReset d).die d).st = .lost ∧ (∀ b ∈ (s.enterReset d).task.blocks, b.2.die ≠ d) ∧
    ∀ a, s.phys.region a = .hbm → s.phys.homeDie a = d → byteAt (s.enterReset d).phys.bytes a = 0 := by
  have hlen : d < s.dies.length := by
    by_contra hge
    exact h (by rw [State.die, List.getD_eq_default _ _ (not_lt.mp hge)]; rfl)
  have hmsgs := congrArg Pkg.msgs (loseDie_pkg (s.append d true (.diedown d)) d .lost false)
  have hst := congrArg Die.st (loseDie_die (s.append d true (.diedown d)) hlen .lost false)
  have hblocks := loseDie_blocks (s.append d true (.diedown d)) d .lost false
  rw [enterReset_eq h]
  generalize (s.append d true (.diedown d)).loseDie d .lost false = t at hmsgs hst hblocks
  refine ⟨hmsgs, hst, hblocks, fun a hr hd => ?_⟩
  rw [homeDie_hbm (region_hbm_iff.mp hr)] at hd
  exact forget_hbm t.phys (region_hbm_iff.mp hr) hd

end

end Sys2Proof.Machine
end
section
/-!
PROOFS. Bring-up, trust and power (R205, R333 to R344): the clock's step, who answers a request of attestation, sessions and keys, the
teardown of a context, inbound requests and the training of a link.
-/
namespace Sys2Proof.Machine

-- The clock (R342, R344).

section
variable {s : State} {pmod : Nat} {tj : List Nat}

theorem throttleCause_iff : throttleCause pmod tj = true ↔ 3400 < pmod ∨ ∃ t ∈ tj, 1680 < t := by
  simp only [throttleCause, Bool.or_eq_true, decide_eq_true_eq, List.any_eq_true]

theorem noteCause_present (h : throttleCause pmod tj = true) :
    s.noteCause pmod tj = { s with pkg := { s.pkg with causeAt := s.now } } := if_pos h

theorem noteCause_absent (h : throttleCause pmod tj = false) : s.noteCause pmod tj = s := if_neg (Bool.eq_false_iff.mp h)

theorem clockDue_iff : s.clockDue = true ↔ s.pkg.powered = true ∧ s.pkg.throttleAt + 1000000 ≤ s.now := by
  simp only [State.clockDue, Bool.and_eq_true, decide_eq_true_eq]

variable (hdue : s.clockDue = true)
include hdue

/-- A cause takes the clock down and keeps it from going up. -/
theorem clockStep_cause (h : throttleCause pmod tj = true) :
    let t := { s with pkg := { s.pkg with causeAt := s.now } }
    exec (.clockStepDown pmod tj) s = .next (t.clockStep fclkDown pmod tj) ∧ exec (.clockStepUp pmod tj) s = .next t := by
  constructor
  · show Host.Outcome.next (ite _ _ _) = _
    rw [noteCause_present h, hdue, h]
    rfl
  · show Host.Outcome.next (ite _ _ _) = _
    rw [noteCause_present h, hdue, h]
    rfl

/-- Without a cause the clock goes up once a millisecond has passed without one. -/
theorem clockStep_noCause (h : throttleCause pmod tj = false) : exec (.clockStepDown pmod tj) s = .next s ∧
    exec (.clockStepUp pmod tj) s =
      .next (if s.pkg.causeAt + 1000000 ≤ s.now then s.clockStep fclkUp pmod tj else s) := by
  constructor
  · show Host.Outcome.next (ite _ _ _) = _
    rw [noteCause_absent h, hdue, h]
    rfl
  · show Host.Outcome.next (ite _ _ _) = _
    rw [noteCause_absent h, hdue, h]
    simp only [Bool.not_false, Bool.and_self, Bool.true_and, decide_eq_true_eq]

end

/-- What a die's sensors read after a clock step (R344). -/
theorem sense_after (x : Sense) (f pmod tj : Nat) : (f < 65536 → (x.after f pmod tj).fclk.toNat = f) ∧
    (tj < 65536 → (x.after f pmod tj).tj.toNat = tj) ∧ (pmod < 4096 → (x.after f pmod tj).pmod.toNat = pmod) ∧
    ((x.after f pmod tj).throt = true ↔ x.throt = true ∨ f < 1250) ∧ ((x.after f pmod tj).hot = true ↔ 1680 < tj) := by
  refine ⟨fun h => ?_, fun h => ?_, fun h => ?_, ?_, decide_eq_true_iff⟩
  · exact (BitVec.toNat_ofNat ..).trans (Nat.mod_eq_of_lt h)
  · refine (BitVec.toNat_ofNat ..).trans ?_
    rw [min_eq_left (by omega)]
    exact Nat.mod_eq_of_lt h
  · refine (BitVec.toNat_ofNat ..).trans ?_
    rw [min_eq_left (by omega)]
    exact Nat.mod_eq_of_lt h
  · simp only [Sense.after, Bool.or_eq_true, decide_eq_true_eq]

-- Resets and power (R333, R338, R343).

section
variable {s : State}

theorem overtempReset_hot (hp : s.pkg.powered = true) (die : DieNo) {tj : Nat} (h : 1840 ≤ tj) : exec (.overtempReset die tj) s =
    .next ({ s with pkg := { s.pkg with causeAt := s.now } }.enterReset die.val) := by
  show Host.Outcome.next (ite _ _ _) = _
  rw [if_pos (Bool.and_eq_true_iff.mpr ⟨hp, decide_eq_true h⟩),
    noteCause_present (throttleCause_iff.mpr (.inr ⟨tj, List.mem_singleton_self tj, by omega⟩))]

theorem overtempReset_below (die : DieNo) {tj : Nat} (h : tj < 1840) : exec (.overtempReset die tj) s = .next s := by
  show Host.Outcome.next (ite _ _ _) = _
  rw [decide_eq_false (not_le.mpr h), Bool.and_false]
  rfl

theorem powerGood_eq (h : ∀ d ∈ s.dies, d.st = .inReset) (bad : List Nat) (places : List Places) :
    exec (.powerGood ⟨bad, places⟩) s = .next ({ s with pkg := { s.pkg with powered := true } }.startAll bad places) := by
  show Host.Outcome.next (ite _ _ _) = _
  rw [if_pos (List.all_eq_true.mpr fun d hd => beq_iff_eq.mpr (h d hd))]

/-- What lies beyond the dies' memory is kept over a reset of the package (R338). -/
theorem resetPackage_byte (s : State) (p : Bool) {a : Nat} (ha : 2 ^ 48 ≤ a) :
    byteAt (s.resetPackage p).phys.bytes a = byteAt s.phys.bytes a := by
  refine (byteAt_filter (fun x => decide (2 ^ 48 ≤ x)) a s.phys.bytes).trans ?_
  rw [if_pos (decide_eq_true ha)]

end

-- Attestation (R334, R335).

section
variable {s : State} {die : DieNo} {side : Bool}

theorem responder_iff : s.responder die.val side = true ↔
    s.pkg.powered = true ∧ (s.die die.val).measured = true ∧ (side = true → die.val = 0 ∨ die.val = 4) := by
  cases side <;> simp [State.responder, and_assoc]

section
variable {i : Instr} {f : State → State} (h : s.responder die.val side = true)
include h

/-- A root that answers does what the request asks for. -/
theorem spdm_eq (f : State → State) : s.spdm die side f = .next (f s) := by
  have hp := (responder_iff.mp h).1
  simp only [State.spdm, hp, h, Bool.not_true, Bool.and_false, Bool.false_eq_true, if_false, if_true]

/-- A request that is answered by one message. -/
theorem spdm_emits {o : Out} (hx : exec i s = s.spdm die side fun s => s.emit o) : exec i s = .next (s.emit o) :=
  hx.trans (spdm_eq h _)

variable {opened : Bool} {n : Nat}

/-- A request inside a session acts where the session stands as the request needs it, and nowhere else. -/
theorem inSession_acts (hn : aget n (s.die die.val).sessions = some opened) : s.inSession die side opened n f = .next (f s) :=
  (spdm_eq h _).trans (congrArg _ (if_pos hn))

theorem inSession_idle (hn : aget n (s.die die.val).sessions ≠ some opened) : s.inSession die side opened n f = .next s :=
  (spdm_eq h _).trans (congrArg _ (if_neg hn))

end

/-- The requests inside a session have no effect where no such session stands. -/
theorem session_requests_idle (h : s.responder die.val side = true) {n : Nat} (hnone : aget n (s.die die.val).sessions = none) :
    exec (.finish die side n) s = .next s ∧ exec (.heartbeat die side n) s = .next s ∧
      exec (.endSession die side n) s = .next s := by
  have hno (opened : Bool) : aget n (s.die die.val).sessions ≠ some opened := by rw [hnone]; exact nofun
  refine ⟨?_, ?_, ?_⟩
  · show execFinish die side n s = _
    exact inSession_idle h (hno false)
  · show execHeartbeat die side n s = _
    exact inSession_idle h (hno true)
  · show execEndSession die side n s = _
    exact inSession_idle h (hno true)

/-- KEY_EXCHANGE takes the lowest session number that is free, and finds the die busy where none is (R335). -/
theorem keyExchange_free (h : s.responder die.val false = true) {n : Nat} (hn : freeSession (s.die die.val).sessions = some n) :
    exec (.keyExchange die false) s = .next ((s.modDie die.val fun d => { d with sessions := aset n false d.sessions }).emit
      (.spdmAlgos die.val "KEY_EXCHANGE" spdmAlgorithms)) := by
  show execKeyExchange die false s = _
  rw [execKeyExchange, spdm_eq h]
  simp only [Bool.false_eq_true, if_false, hn]

theorem keyExchange_busy (h : s.responder die.val false = true) (hn : freeSession (s.die die.val).sessions = none) :
    exec (.keyExchange die false) s = .next (s.emit (.spdmBusy die.val)) := by
  show execKeyExchange die false s = _
  rw [execKeyExchange, spdm_eq h]
  simp only [Bool.false_eq_true, if_false, hn]

theorem emits_out {α : Type} (l : List α) (g : α → Out) :
    ∀ s : State, (l.foldl (fun (st : State) i => st.emit (g i)) s).pkg.out = s.pkg.out ++ l.map g := by
  induction l with
  | nil => exact fun s => (List.append_nil _).symm
  | cons i t ih =>
    intro s
    rw [List.foldl_cons, ih, emit_out, List.map_cons, List.append_assoc]
    rfl

/-- GET_MEASUREMENTS answers the eleven measurements in order. -/
theorem getMeasurements_out (h : s.responder die.val side = true) : ∃ t, exec (.getMeasurements die side) s = .next t ∧
    t.pkg.out = s.pkg.out ++ ((List.range 11).map (· + 1)).map fun i => .spdmMeas die.val i (s.measurement die.val i) :=
  ⟨_, spdm_eq h fun s => ((List.range 11).map (· + 1)).foldl
      (fun st i => st.emit (.spdmMeas die.val i (s.measurement die.val i))) s,
    emits_out _ (fun i => .spdmMeas die.val i (s.measurement die.val i)) s⟩

theorem freeSession_lowest {l : Assoc Bool} {n : Nat} (hn : n < 16) (hfree : aget n l = none) (hused : ∀ k < n, aget k l ≠ none) :
    freeSession l = some n := by
  refine List.find?_range_eq_some.mpr ⟨by rw [hfree]; rfl, List.mem_range.mpr hn, fun k hk => ?_⟩
  simpa [Option.isSome_iff_ne_none] using hused k hk

theorem freeSession_none {l : Assoc Bool} (hused : ∀ n < 16, aget n l ≠ none) : freeSession l = none := by
  refine List.find?_eq_none.mpr fun n hn => ?_
  simpa using hused n (List.mem_range.mp hn)

end

-- Keys and contexts (R321, R336, R337).

section
variable {s : State}

theorem sessionOpen_iff {die n : Nat} : s.sessionOpen die n = true ↔
    (s.die die).st = .live ∧ aget n (s.die die).sessions = some true := by
  simp only [State.sessionOpen, Bool.and_eq_true, beq_iff_eq]

/-- One key in the same entry of all sixteen tables (R336). -/
@[irreducible] def keyedTables (ix key : Nat) (m : Assoc Nat) : Assoc Nat := (List.range 16).foldl (fun t n => aset (n * 256 + ix) key t) m

theorem aget_keyedTables (ix key : Nat) (m : Assoc Nat) : ∀ k < 16, aget (k * 256 + ix) (keyedTables ix key m) = some key := by
  have hgo (n : Nat) : ∀ k < n, aget (k * 256 + ix) ((List.range n).foldl (fun t n => aset (n * 256 + ix) key t) m) = some key := by
    induction n with
    | zero => exact fun k hk => absurd hk (Nat.not_lt_zero k)
    | succ n ih =>
      intro k hk
      rw [List.range_succ, List.foldl_append, List.foldl_cons, List.foldl_nil]
      by_cases hkn : k = n
      · rw [hkn, aget_aset]
      · rw [aget_aset_ne _ (by omega), ih k (by omega)]
  unfold keyedTables
  exact hgo 16

section
variable {die : DieNo} {n ctx k : Nat}

theorem memoryKeyLoad_closed (h : ¬((s.die die.val).st = .live ∧ aget n (s.die die.val).sessions = some true)) (key : NewKey) :
    exec (.memoryKeyLoad ⟨die, n⟩ key) s = .next s := by
  show Host.Outcome.next (ite _ _ _) = _
  rw [Bool.eq_false_iff.mpr (sessionOpen_iff.not.mpr h)]
  rfl

section
variable (h : (s.die die.val).st = .live ∧ aget n (s.die die.val).sessions = some true) {ix : Nat} (key sa : Nat) (h0 : 0 < ix)
include h h0

theorem memoryKeyLoad_port (hix : ix < 4096) : exec (.memoryKeyLoad ⟨die, n⟩ ⟨true, ix, key, sa⟩) s =
    .next (s.modDie die.val fun d => { d with portKeys := aset ix (key, sa) d.portKeys }) := by
  show execMemoryKeyLoad ⟨die, n⟩ ⟨true, ix, key, sa⟩ s = _
  simp only [execMemoryKeyLoad, sessionOpen_iff.mpr h, Bool.not_true, Bool.false_eq_true, if_false, if_true, h0, hix, and_self]

theorem memoryKeyLoad_memory (hix : ix < 256) : exec (.memoryKeyLoad ⟨die, n⟩ ⟨false, ix, key, sa⟩) s =
    .next { s with phys := { s.phys with keytab := keyedTables ix key s.phys.keytab } } := by
  show execMemoryKeyLoad ⟨die, n⟩ ⟨false, ix, key, sa⟩ s = _
  simp only [execMemoryKeyLoad, sessionOpen_iff.mpr h, Bool.not_true, Bool.false_eq_true, if_false, if_true, h0, hix, and_self,
    keyedTables]

end

/-- A context is marked CONF in an open session with a loaded key (R337). -/
theorem contextMarkedConf_open (h : (s.die die.val).st = .live ∧ aget n (s.die die.val).sessions = some true) (h0 : 0 < k)
    (hk : k < 256) (hkey : aget (2 * die.val * 256 + k) s.phys.keytab ≠ none) : exec (.contextMarkedConf ⟨die, n⟩ ⟨ctx, k⟩) s =
    .next (s.modCtx ctx fun c => { c with conf := true, keyid := k }) := by
  show Host.Outcome.next (ite _ _ _) = _
  rw [if_pos]
  simp only [sessionOpen_iff.mpr h, h0, hk, Option.isSome_iff_ne_none.mpr hkey, decide_true, Bool.and_self]

end

theorem ctx_modCtx_ne {c k : Nat} (f : Ctx → Ctx) (h : k ≠ c) : (s.modCtx c f).ctx k = s.ctx k := by
  simp only [State.ctx, State.modCtx, State.setCtx, agetD, aget_aset_ne _ h]

/-- The state from which a context is gone, the stamps of its lines apart (R321). -/
def State.withoutCtx (s : State) (ctx : Nat) : State :=
  { s with
    task := { s.task with
      ctxs := adel ctx s.task.ctxs
      cores := s.task.cores.map fun p => (p.1, { p.2 with tlb := p.2.tlb.filter fun t => t.ctx != ctx }) }
    dies := s.dies.map fun d => { d with tlb := d.tlb.filter fun t => t.ctx != ctx } }

theorem contextTeardown_idle {die : DieNo} {ctx : Nat} (hst : (s.die die.val).st = .live) (hidle : s.ctxBusy ctx = false) :
    exec (.contextTeardown die ctx) s = .next (s.withoutCtx ctx).settleStamps := by
  show Host.Outcome.next (ite _ _ _) = _
  rw [hst, hidle]
  rfl

theorem ctx_withoutCtx (ctx : Nat) : (s.withoutCtx ctx).ctx ctx = Ctx.reset := by
  simp only [State.ctx, State.withoutCtx, agetD, aget_adel]
  rfl

theorem ctx_withoutCtx_ne {ctx c : Nat} (h : c ≠ ctx) : (s.withoutCtx ctx).ctx c = s.ctx c := by
  simp only [State.ctx, State.withoutCtx, agetD, aget_adel_ne h]

theorem withoutCtx_tlb (ctx : Nat) : ∀ d ∈ (s.withoutCtx ctx).dies, ∀ x ∈ d.tlb, x.ctx ≠ ctx := by
  intro d hd x hx
  obtain ⟨d', -, rfl⟩ := List.mem_map.mp hd
  exact bne_iff_ne.mp (List.of_mem_filter (p := fun t : Tlb => t.ctx != ctx) hx)

theorem settleStamps_pteAt : s.settleStamps.pteAt = s.pteAt := rfl

/-- Stamps change nothing that a page-table walk reads. -/
theorem settleStamps_leaves : s.settleStamps.leaves = s.leaves := by
  unfold State.leaves
  rw [settleStamps_pteAt]
  rfl

theorem settleStamps_mappedAs (kinds : List Nat) (pa : Nat) : s.settleStamps.mappedAs kinds pa = s.mappedAs kinds pa := by
  unfold State.mappedAs
  rw [settleStamps_leaves]
  rfl

/-- After the stamps are settled, a line that has one lies in a STAMPED page, or its replica's does (R226). -/
theorem settleStamps_stamped : ∀ x ∈ s.settleStamps.phys.stamps, s.settleStamps.mappedAs [3] (128 * x.1) = true ∨
    s.settleStamps.mappedAs [3] (128 * (x.1 ^^^ 4294967296)) = true := by
  intro x hx
  have hkeep := List.of_mem_filter (p := fun x : Nat × Word64 =>
    s.mappedAs [3] (128 * x.1) || s.mappedAs [3] (128 * (x.1 ^^^ 2 ^ 32))) hx
  rw [settleStamps_mappedAs, settleStamps_mappedAs]
  exact Bool.or_eq_true_iff.mp hkeep

end

-- Inbound requests (R205).

section
variable {s : State} {die : DieNo} (hst : (s.die die.val).st = .live) (fn pa k : Nat)
include hst

theorem inboundWrite_guarded {data : List Byte} (h : ∃ i < data.length, s.guardedLine (pa + i) = true) :
    exec (.inboundWrite die fn pa k data) s = .next (s.refuseInbound die.val fn pa) := by
  have hany : ((List.range data.length).any fun i => s.guardedLine (pa + i)) = true := by
    simpa only [List.any_eq_true, List.mem_range] using h
  show Host.Outcome.next (ite _ _ _) = _
  rw [hst, hany]
  rfl

theorem inboundWrite_open {data : List Byte} (h : ¬∃ i < data.length, s.guardedLine (pa + i) = true) :
    exec (.inboundWrite die fn pa k data) s = .next (if s.inboundOk pa data.length then
      (s.noteInbound pa data.length).writeHome k (cellsFrom pa data) else s.emit (.inboundUR die.val fn)) := by
  have hany : ((List.range data.length).any fun i => s.guardedLine (pa + i)) = false := by
    simpa only [Bool.eq_false_iff, ne_eq, List.any_eq_true, List.mem_range] using h
  show Host.Outcome.next (ite _ _ _) = _
  rw [hst, hany]
  rfl

theorem inboundRead_live (n : Nat) : exec (.inboundRead die fn pa k n) s = .next (if s.inboundOk pa n then
      let t := (dedup ((List.range n).map fun i => lineOf (pa + i))).foldl (fun (s : State) ln => s.recall ln) s
      t.emit (.inbound die.val fn (t.readHome k pa n))
    else s.emit (.inboundUR die.val fn)) := by
  show Host.Outcome.next (ite _ _ _) = _
  rw [hst]
  rfl

theorem inboundRefused_live {atomic : Bool} (h : (atomic || s.guardedLine pa) = true) :
    exec (.inboundRefused die fn pa atomic) s = .next (s.refuseInbound die.val fn pa) := by
  show Host.Outcome.next (ite _ _ _) = _
  rw [hst, h]
  rfl

end

-- Links (R339, R340).

/-- The greatest of a list is its member that none exceeds. -/
theorem maxOf_eq {l : List Nat} {r : Nat} (hmem : r ∈ l) (hle : ∀ x ∈ l, x ≤ r) : maxOf l = r := by
  have hmax : (0 :: l).max? = some (maxOf l) := List.max?_cons'
  exact Option.some.inj (hmax.symm.trans (List.max?_eq_some_iff.mpr ⟨List.mem_cons_of_mem _ hmem,
    List.forall_mem_cons.mpr ⟨Nat.zero_le r, hle⟩⟩))

section
variable {s : State} {die : DieNo} {ways link r : Nat} {ours theirs : List Nat}

/-- The link as it trains, with a CXL device behind it or not. -/
def State.trained (s : State) (die ways link r : Nat) (cxl : Bool) : State :=
  s.modDie die fun d => { d with link := { d.link.as ways with links := (d.link.as ways).links.set link ⟨true, cxl, r⟩ } }

theorem linkTraining_common (hst : (s.die die.val).st = .live) (hways : ways = 1 ∨ ways = 2 ∨ ways = 4) (hlink : link < ways)
    (hours : r ∈ ours) (htheirs : r ∈ theirs) (hmax : ∀ x ∈ ours, x ∈ theirs → x ≤ r) (dev : Option CxlDev) :
    exec (.linkTraining die ⟨ways, link⟩ ⟨dev, ours, theirs⟩) s = .next (match dev with
      | some x => if cxlAccepted x then (s.trained die.val ways link r true).openWindow die.val x else s.trained die.val ways link r false
      | none => s.trained die.val ways link r false) := by
  have hboth {x : Nat} : x ∈ ours.filter theirs.contains ↔ x ∈ ours ∧ x ∈ theirs := by
    rw [List.mem_filter, List.contains_iff_mem]
  have hmem := hboth.mpr ⟨hours, htheirs⟩
  have hrate : maxOf (ours.filter theirs.contains) = r :=
    maxOf_eq hmem fun x hx => hmax x (hboth.mp hx).1 (hboth.mp hx).2
  have hgo : ((s.die die.val).st != .live || !(ways == 1 || ways == 2 || ways == 4) || decide (ways ≤ link) ||
      (ours.filter theirs.contains).isEmpty) = false := by
    rw [hst, decide_eq_false (not_le.mpr hlink), isEmpty_eq_false (List.ne_nil_of_mem hmem)]
    rcases hways with rfl | rfl | rfl <;> rfl
  show Host.Outcome.next (ite _ _ _) = _
  simp only [hgo, hrate, Bool.false_eq_true, if_false]
  cases dev with
  | none => rfl
  | some x =>
    cases hx : cxlAccepted x <;> simp [hx] <;> rfl

theorem linkTraining_disjoint (h : ∀ x ∈ ours, x ∉ theirs) (dev : Option CxlDev) :
    exec (.linkTraining die ⟨ways, link⟩ ⟨dev, ours, theirs⟩) s = .next s := by
  have hnone : (ours.filter theirs.contains).isEmpty = true := by
    rw [List.isEmpty_iff, List.filter_eq_nil_iff]
    exact fun x hx hc => h x hx (List.contains_iff_mem.mp hc)
  show Host.Outcome.next (ite _ _ _) = _
  rw [hnone, Bool.or_true]
  rfl

theorem cxlAccepted_iff {x : CxlDev} : cxlAccepted x = true ↔ x.cache = false ∧ x.type = 3 ∧ x.switch = false := by
  simp [cxlAccepted, and_assoc]

theorem cxlAccepted_eq_false {x : CxlDev} (h : x.cache = true ∨ x.type ≠ 3 ∨ x.switch = true) : cxlAccepted x = false := by
  refine Bool.eq_false_iff.mpr (cxlAccepted_iff.not.mpr fun ⟨hcache, htype, hswitch⟩ => ?_)
  simp [hcache, htype, hswitch] at h

/-- An expander that is lost while nothing is under way in its window: the window is marked lost (R340). -/
theorem cxlExpanderLost_idle {w : Nat} {x : CxlWin} (hw : s.phys.cxl[w]? = some x) (hdie : x.die = die.val)
    (hlost : x.lost = false) (haccs : s.om.accs = []) : exec (.cxlExpanderLost die w) s =
    .next { s with phys := { s.phys with cxl := s.phys.cxl.set w { x with lost := true } } } := by
  show execCxlExpanderLost die w s = _
  have hgo : ¬(x.die ≠ die.val ∨ x.lost = true) := by simp [hdie, hlost]
  simp only [execCxlExpanderLost, hw, hgo, haccs, if_false, List.filter_nil, List.foldl_nil]

end

end Sys2Proof.Machine
end
section
open Sys2Proof Sys2Proof.Machine

/-- Settles O55: each event by the lemma that says what it does where its condition holds. -/
theorem bootEvents : Obligations.BootEvents := by
  unfold Obligations.BootEvents
  intro s
  refine ⟨fun pmod tj hp hdue => ?_, sense_after, fun die tj hp => ?_, fun d h => enterReset_spec h,
    fun bad places h => powerGood_eq h bad places, fun hp => ?_, rfl, fun p => ?_, fun die side hp hm hside => ?_,
    fun die hp => ?_, fun ty => rfl, fun die n port ix key sa => ?_, fun die n ctx k hst hn h0 hk hkey => ?_,
    fun die ctx hst hidle => ?_, fun die fn pa k data hst => ?_, fun die ways link ours theirs r hst hways hlink ho ht hmax => ?_,
    fun die ways link dev ours theirs h => linkTraining_disjoint h dev, fun die w x hw hd hl ha => cxlExpanderLost_idle hw hd hl ha⟩
  · have hd := clockDue_iff.mpr ⟨hp, hdue⟩
    refine ⟨fun h => clockStep_cause hd (throttleCause_iff.mpr h), fun h => ?_⟩
    obtain ⟨hdown, hup⟩ := clockStep_noCause hd (Bool.eq_false_iff.mpr (throttleCause_iff.not.mpr h))
    exact ⟨hdown, fun hlong => hup.trans (by rw [if_pos hlong]; rfl), fun hshort => hup.trans (by rw [if_neg (not_le.mpr hshort)])⟩
  · refine ⟨overtempReset_hot hp die, overtempReset_below die, ?_⟩
    show Host.Outcome.next ((ite _ _ _ : State).emit _) = _
    rw [if_pos hp]
  · show Host.Outcome.next ((ite _ _ _ : State).emit _) = _
    rw [if_pos hp]
  · exact ⟨rfl, rfl, rfl, rfl, rfl, fun a => resetPackage_byte s p⟩
  · have hr := responder_iff.mpr ⟨hp, hm, hside⟩
    dsimp only
    refine ⟨spdm_emits hr rfl, spdm_emits hr rfl, spdm_emits hr rfl, spdm_emits hr rfl, spdm_emits hr rfl,
      spdm_emits hr rfl, getMeasurements_out hr, fun n => ⟨fun h => ?_, fun h => ⟨?_, ?_⟩, session_requests_idle hr⟩,
      fun n hn hfree hused => ?_, fun hused => ?_, fun h => ?_, fun code => ?_⟩
    · show execFinish die side n s = _
      exact inSession_acts hr h
    · show execHeartbeat die side n s = _
      exact inSession_acts hr h
    · show execEndSession die side n s = _
      exact inSession_acts hr h
    · exact keyExchange_free (responder_iff.mpr ⟨hp, hm, nofun⟩) (freeSession_lowest hn hfree hused)
    · exact keyExchange_busy (responder_iff.mpr ⟨hp, hm, nofun⟩) (freeSession_none hused)
    · subst h
      exact spdm_emits hr rfl
    · exact spdm_emits hr rfl
  · show Host.Outcome.next (ite _ _ _) = _
    rw [hp]
    rfl
  · intro opened
    refine ⟨fun h => memoryKeyLoad_closed h _, ?_, ?_⟩
    · rintro h rfl h0 hix
      exact memoryKeyLoad_port h key sa h0 hix
    · rintro h rfl h0 hix
      exact ⟨{ s with phys := { s.phys with keytab := keyedTables ix key s.phys.keytab } },
        memoryKeyLoad_memory h key sa h0 hix,
        aget_keyedTables ix key s.phys.keytab, rfl⟩
  · refine ⟨_, contextMarkedConf_open ⟨hst, hn⟩ h0 hk hkey, ?_, ?_, fun c hc => ctx_modCtx_ne _ hc⟩
    · rw [State.modCtx, ctx_setCtx]
    · rw [State.modCtx, ctx_setCtx]
  · refine ⟨_, contextTeardown_idle hst hidle, ctx_withoutCtx ctx, fun c hc => ctx_withoutCtx_ne hc, withoutCtx_tlb ctx, ?_⟩
    exact settleStamps_stamped
  · intro touches
    refine ⟨inboundWrite_guarded hst fn pa k, fun h hok => ?_, fun h hok => ?_, fun m hok => ?_, fun m hok => ?_,
      inboundRefused_live hst fn pa rfl, fun hg => inboundRefused_live hst fn pa hg⟩
    · rw [inboundWrite_open hst fn pa k h, if_pos hok]
    · rw [inboundWrite_open hst fn pa k h, hok]
      rfl
    · rw [inboundRead_live hst fn pa k m, if_pos hok]
    · rw [inboundRead_live hst fn pa k m, hok]
      rfl
  · have htrain := linkTraining_common hst hways hlink ho ht hmax
    refine ⟨htrain none, fun x hx => ?_, fun x hcache htype hswitch hlo hhi => ?_⟩
    · have hno := cxlAccepted_eq_false hx
      refine (htrain (some x)).trans ?_
      simp only [hno, Bool.false_eq_true, if_false]
      rfl
    · have hyes := cxlAccepted_iff.mpr ⟨hcache, htype, hswitch⟩
      refine (htrain (some x)).trans ?_
      simp only [hyes, if_true]
      rw [State.openWindow, if_pos ⟨hlo, hhi⟩]
      rfl

end

section
/-!
PROOFS. Batches of the matrix engine, and the banks that SHCOMMIT and SHDROP leave (R241, R244, R245).
-/
namespace Sys2Proof.Machine

-- Batches.

/-- The batch named `n` of the warp. -/
def WEnv.batch (e : WEnv) (n : Nat) : Batch := e.w.batches.getD n ⟨false, []⟩

/-- Whether batch `n` holds up an instruction that names it: it is outstanding, and an entry of it has no result (R241). -/
def WEnv.batchHolds (e : WEnv) (n : Nat) : Bool := (e.batch n).out && !e.s.batchDone (e.batch n).entries

theorem not_live_iff {x : Entry} : x.live = false ↔ x.result.isSome = true := by
  cases h : x.result <;> simp [Entry.live, h]

theorem batchDone_iff {s : State} {l : List Nat} :
    s.batchDone l = true ↔ ∀ id ∈ l, ∀ x ∈ s.om.entries, x.id = id → x.result.isSome = true := by
  simp only [State.batchDone, List.all_eq_true, Bool.or_eq_true, bne_iff_ne, Bool.not_eq_true', not_live_iff, imp_iff_not_or]

theorem batchHolds_eq_false_iff {e : WEnv} {n : Nat} : e.batchHolds n = false ↔ (e.batch n).out = false ∨
    ∀ id ∈ (e.batch n).entries, ∀ x ∈ e.s.om.entries, x.id = id → x.result.isSome = true := by
  rw [WEnv.batchHolds, Bool.and_eq_false_iff, Bool.not_eq_false', batchDone_iff]

/-- The open batch takes the name `n`, and the next one is empty (R241). -/
def WEnv.closeBatch (e : WEnv) (n : Nat) (c : Ctl) : State :=
  e.put e.b ({ e.w with batches := e.w.batches.set n ⟨true, e.w.openB⟩, openB := [], pre := [] }.advance c)

/-- MCOMMIT finishes an earlier batch of its name where one is outstanding (R241). -/
theorem exec_mcommit (s : State) (c : Ctl) (n : Fin 4) : WarpIf s (.mcommit c n) c (fun e => e.batchHolds n.val = false) fun e =>
    (if (e.batch n.val).out then finishBatch e n.val else e).closeBatch n.val c :=
  warpIf_of_body rfl fun _ h => if_neg (Bool.eq_false_iff.mp h)

theorem exec_mwait (s : State) (c : Ctl) (n : Fin 4) : WarpIf s (.mwait c n) c (fun e => e.batchHolds n.val = false) fun e =>
    let e := finishBatch e n.val
    e.put e.b (e.w.advance c) :=
  warpIf_of_body rfl fun _ h => if_neg (Bool.eq_false_iff.mp h)

theorem batch_words_wait (s : State) (c : Ctl) (n : Fin 4) {i : Instr} (hi : i = .mcommit c n ∨ i = .mwait c n) :
    WarpWaits s i c (fun e => e.batchHolds n.val = true) fun _ => .other := by
  rcases hi with rfl | rfl
  · exact warpWaits_of_body rfl fun _ h => if_pos h
  · exact warpWaits_of_body rfl fun _ h => if_pos h

/-- A finished batch binds no register, and no result is left pending or in the bypass (R236, R241). -/
theorem finishBatch_warp (e : WEnv) (n : Nat) :
    (finishBatch e n).w.binds = (e.w.binds.filter fun x => !(if (e.batch n).out then (e.batch n).entries else []).contains x.2) ∧
      (finishBatch e n).w.pend = [] ∧ (finishBatch e n).w.byp = [] := ⟨rfl, rfl, rfl⟩

theorem finishBatch_unbinds {e : WEnv} {n : Nat} (h : (e.batch n).out = true) :
    ∀ x ∈ (finishBatch e n).w.binds, x.2 ∉ (e.batch n).entries := by
  intro x hx
  rw [(finishBatch_warp e n).1, h] at hx
  simpa using (List.mem_filter.mp hx).2

-- The banks of accumulator memory, one by one.

/-- Bank `k`: its elements that are listed, and its window byte. -/
def Block.bank (b : Block) (k : Nat) : Assoc AccEl × Int := (b.acc.filter fun p => p.1 / 512 == k, b.bw.getD k 0)

/-- An element is read in its own bank. -/
theorem getAcc_of_bank (b : Block) (ix : Nat) : b.getAcc ix = agetD ix AccEl.zero (b.bank (ix / 512)).1 := by
  simp only [Block.getAcc, agetD, Block.bank, aget_filter_key (fun j => j / 512 == ix / 512), beq_self_eq_true, if_true]

theorem getAcc_congr {b b' : Block} {ix : Nat} (h : b'.bank (ix / 512) = b.bank (ix / 512)) : b'.getAcc ix = b.getAcc ix := by
  rw [getAcc_of_bank, h, ← getAcc_of_bank]

theorem bank_zeroBank_ne (b : Block) {j k : Nat} (h : j ≠ k) : (b.zeroBank k).bank j = b.bank j := by
  refine Prod.ext ?_ ?_
  · simp only [Block.bank, Block.zeroBank, List.filter_filter]
    refine List.filter_congr fun p _ => ?_
    by_cases hp : p.1 / 512 = j
    · simp [hp, h]
    · simp [hp]
  · simp [Block.bank, Block.zeroBank, List.getD_eq_getElem?_getD, h.symm]

theorem getAcc_zeroBank (b : Block) {ix k : Nat} (h : ix / 512 = k) : (b.zeroBank k).getAcc ix = AccEl.zero := by
  simp [Block.getAcc, Block.zeroBank, agetD, aget_filter_key (fun j => j / 512 != k), h]

theorem bw_zeroBank (b : Block) (k : Nat) : (b.zeroBank k).bw.getD k 0 = 0 := by
  by_cases h : k < b.bw.length <;> simp [Block.zeroBank, h]

-- Writing listed elements one after another.

/-- A write under a key that is not picked changes nothing that is. -/
theorem filter_aset_of_not {α : Type} {p : Nat → Bool} {k : Nat} (h : p k = false) (v : α) (m : Assoc α) :
    (aset k v m).filter (fun x => p x.1) = m.filter fun x => p x.1 := by
  induction m with
  | nil => simp [aset, h]
  | cons x t ih =>
    rw [aset]
    split
    · simp [h]
    · split
      next hk => simp [← hk, h]
      · simp only [List.filter_cons, ih]

theorem filter_foldl_aset_of_not {α : Type} {p : Nat → Bool} {l : Assoc α} (h : ∀ x ∈ l, p x.1 = false) (m : Assoc α) :
    (l.foldl (fun m x => aset x.1 x.2 m) m).filter (fun x => p x.1) = m.filter fun x => p x.1 := by
  induction l generalizing m with
  | nil => rfl
  | cons x t ih =>
    obtain ⟨hx, ht⟩ := List.forall_mem_cons.mp h
    rw [List.foldl_cons, ih ht, filter_aset_of_not hx]

/-- Of distinct keys, each that is written reads as its value, and every other key as before. -/
theorem aget_foldl_aset {α : Type} {l : Assoc α} (h : (l.map Prod.fst).Nodup) (k : Nat) (m : Assoc α) :
    aget k (l.foldl (fun m x => aset x.1 x.2 m) m) = (aget k l).or (aget k m) := by
  induction l generalizing m with
  | nil => rfl
  | cons x t ih =>
    obtain ⟨hx, ht⟩ := List.nodup_cons.mp h
    rw [List.foldl_cons, ih ht, aget]
    by_cases hk : k = x.1
    · have hnone : aget k t = none := aget_eq_none fun p hp hpk => hx (hk ▸ hpk ▸ List.mem_map_of_mem hp)
      simp [hk, hk ▸ hnone]
    · simp [hk, aget_aset_ne _ hk]

-- Copies of a bank.

/-- The elements of a bank under the keys of another. -/
def moveEls (dst : Nat) (l : Assoc AccEl) : Assoc AccEl := l.map fun p => (p.1 % 512 + dst * 512, p.2)

theorem copyBank_eq (b : Block) (src dst : Nat) : b.copyBank src dst = { b.zeroBank dst with
    acc := (moveEls dst (b.bank src).1).foldl (fun m p => aset p.1 p.2 m) (b.zeroBank dst).acc
    bw := (b.zeroBank dst).bw.set dst ((b.zeroBank dst).bw.getD src 0) } := rfl

theorem mem_moveEls_bank {dst : Nat} {l : Assoc AccEl} {x : Nat × AccEl} (h : x ∈ moveEls dst l) : x.1 / 512 = dst := by
  obtain ⟨p, -, rfl⟩ := List.mem_map.mp h
  dsimp only
  omega

theorem aget_moveEls {src dst i : Nat} (hi : i < 512) {l : Assoc AccEl} (h : ∀ p ∈ l, p.1 / 512 = src) :
    aget (512 * dst + i) (moveEls dst l) = aget (512 * src + i) l := by
  induction l with
  | nil => rfl
  | cons x t ih =>
    obtain ⟨hx, ht⟩ := List.forall_mem_cons.mp h
    have hmod := Nat.mod_eq_of_lt hi
    have hkey : 512 * dst + i = x.1 % 512 + dst * 512 ↔ 512 * src + i = x.1 := by omega
    rw [moveEls, List.map_cons, aget, aget, ← moveEls, ih ht, if_congr hkey rfl rfl]

theorem moveEls_nodup {src dst : Nat} {l : Assoc AccEl} (h : ∀ p ∈ l, p.1 / 512 = src) (hl : (l.map Prod.fst).Nodup) :
    ((moveEls dst l).map Prod.fst).Nodup := by
  rw [moveEls, List.map_map, show Prod.fst ∘ (fun p : Nat × AccEl => (p.1 % 512 + dst * 512, p.2)) =
    (fun k => k % 512 + dst * 512) ∘ Prod.fst from rfl, ← List.map_map]
  refine hl.map_on fun x hx y hy hxy => ?_
  obtain ⟨p, hp, rfl⟩ := List.mem_map.mp hx
  obtain ⟨q, hq, rfl⟩ := List.mem_map.mp hy
  have hpk := h p hp
  have hqk := h q hq
  omega

theorem mem_bank {b : Block} {k : Nat} {p : Nat × AccEl} (h : p ∈ (b.bank k).1) : p.1 / 512 = k := by
  simpa using (List.mem_filter.mp h).2

theorem bank_copyBank_ne (b : Block) (src : Nat) {dst j : Nat} (h : j ≠ dst) : (b.copyBank src dst).bank j = b.bank j := by
  refine Eq.trans ?_ (bank_zeroBank_ne b h)
  rw [copyBank_eq]
  refine Prod.ext ?_ ?_
  · refine filter_foldl_aset_of_not (p := fun k => k / 512 == j) (fun x hx => ?_) _
    simpa [mem_moveEls_bank hx] using h.symm
  · simp [Block.bank, List.getD_eq_getElem?_getD, h.symm]

/-- Each element of a copied bank is the source's. -/
theorem getAcc_copyBank {b : Block} {src : Nat} (hn : ((b.bank src).1.map Prod.fst).Nodup) (dst : Nat) {i : Nat} (hi : i < 512) :
    (b.copyBank src dst).getAcc (512 * dst + i) = b.getAcc (512 * src + i) := by
  have hd : (512 * dst + i) / 512 = dst := by omega
  have hs : (512 * src + i) / 512 = src := by omega
  have hzero : aget (512 * dst + i) (b.zeroBank dst).acc = none := by
    simp [Block.zeroBank, aget_filter_key (fun j => j / 512 != dst), hd]
  rw [getAcc_of_bank b, hs, copyBank_eq, Block.getAcc, agetD, aget_foldl_aset (moveEls_nodup (fun _ => mem_bank) hn), hzero,
    Option.or_none, aget_moveEls hi fun _ => mem_bank, agetD]

theorem bw_copyBank {b : Block} {src dst : Nat} (h : src ≠ dst) (hd : dst < b.bw.length) :
    (b.copyBank src dst).bw.getD dst 0 = b.bw.getD src 0 := by
  have hw := congrArg Prod.snd (bank_zeroBank_ne b h)
  rw [copyBank_eq, ← show (b.zeroBank dst).bw.getD src 0 = b.bw.getD src 0 from hw]
  simp [Block.zeroBank, List.getD_eq_getElem?_getD, hd]

-- The end of a tag's pairs.

/-- The end of one pair: with a commit the shadow bank is copied to the live bank; the shadow bank is zero (R245). -/
def Block.endPair (k : Bool) (b : Block) (p : Pairing) : Block :=
  (if k then b.copyBank p.shadow p.live else b).zeroBank p.shadow

theorem unpair_eq (b : Block) (tag : Nat) (k : Bool) : b.unpair tag k =
    { (b.pair.filter fun p => p.tag == tag).foldl (Block.endPair k) b with
      pair := ((b.pair.filter fun p => p.tag == tag).foldl (Block.endPair k) b).pair.filter fun p => p.tag != tag } := rfl

@[simp] theorem endPair_pair (k : Bool) (b : Block) (p : Pairing) : (b.endPair k p).pair = b.pair := by cases k <;> rfl

@[simp] theorem endPair_bw_length (k : Bool) (b : Block) (p : Pairing) : (b.endPair k p).bw.length = b.bw.length := by
  cases k <;> simp [Block.endPair, Block.zeroBank, copyBank_eq]

theorem bank_endPair_ne (k : Bool) (b : Block) {p : Pairing} {j : Nat} (hs : j ≠ p.shadow) (hl : j ≠ p.live) :
    (b.endPair k p).bank j = b.bank j := by
  rw [Block.endPair, bank_zeroBank_ne _ hs]
  cases k with
  | true => exact bank_copyBank_ne b p.shadow hl
  | false => rfl

/-- What the end of pair `p` leaves in `b'` of the banks that stood in `b`. -/
def PairEnded (k : Bool) (p : Pairing) (b b' : Block) : Prop :=
  (∀ i < 512, b'.getAcc (512 * p.shadow + i) = AccEl.zero ∧
    b'.getAcc (512 * p.live + i) = b.getAcc (512 * (if k then p.shadow else p.live) + i)) ∧
  (p.shadow < b.bw.length → b'.bw.getD p.shadow 0 = 0) ∧
  (p.live < b.bw.length → b'.bw.getD p.live 0 = b.bw.getD (if k then p.shadow else p.live) 0)

theorem endPair_ends (k : Bool) {b : Block} {p : Pairing} (hne : p.shadow ≠ p.live)
    (hn : ((b.bank p.shadow).1.map Prod.fst).Nodup) : PairEnded k p b (b.endPair k p) := by
  have hlive : (b.endPair k p).bank p.live = (if k then b.copyBank p.shadow p.live else b).bank p.live :=
    bank_zeroBank_ne _ hne.symm
  refine ⟨fun i hi => ⟨?_, ?_⟩, fun _ => bw_zeroBank _ _, fun hl => (congrArg Prod.snd hlive).trans ?_⟩
  · exact getAcc_zeroBank _ (by omega)
  · have hl : (512 * p.live + i) / 512 = p.live := by omega
    refine (getAcc_congr (b := if k then b.copyBank p.shadow p.live else b) (by rw [hl]; exact hlive)).trans ?_
    cases k with
    | true => exact getAcc_copyBank hn p.live hi
    | false => rfl
  · cases k with
    | true => exact bw_copyBank hne hl
    | false => rfl

/-- It speaks of the pair's two banks alone. -/
theorem PairEnded.congr {k : Bool} {p : Pairing} {b c b' c' : Block} (h : PairEnded k p b b') (hlen : c.bw.length = b.bw.length)
    (hs : c.bank p.shadow = b.bank p.shadow) (hl : c.bank p.live = b.bank p.live) (hs' : c'.bank p.shadow = b'.bank p.shadow)
    (hl' : c'.bank p.live = b'.bank p.live) : PairEnded k p c c' := by
  obtain ⟨hel, hws, hwl⟩ := h
  have hread {x y : Block} {j i : Nat} (hi : i < 512) (hxy : x.bank j = y.bank j) : x.getAcc (512 * j + i) = y.getAcc (512 * j + i) :=
    getAcc_congr (by rw [show (512 * j + i) / 512 = j by omega]; exact hxy)
  have hsrc : c.bank (if k then p.shadow else p.live) = b.bank (if k then p.shadow else p.live) := by
    cases k with
    | true => exact hs
    | false => exact hl
  refine ⟨fun i hi => ?_, fun hlt => (congrArg Prod.snd hs').trans (hws (hlen ▸ hlt)),
    fun hlt => (congrArg Prod.snd hl').trans ((hwl (hlen ▸ hlt)).trans (congrArg Prod.snd hsrc).symm)⟩
  rw [hread hi hs', hread hi hl', hread hi hsrc]
  exact hel i hi

/-- The banks of a list of pairs. -/
def pairBanks (ps : List Pairing) : List Nat := ps.flatMap fun p => [p.shadow, p.live]

theorem mem_pairBanks {ps : List Pairing} {p : Pairing} (h : p ∈ ps) : p.shadow ∈ pairBanks ps ∧ p.live ∈ pairBanks ps :=
  ⟨List.mem_flatMap.mpr ⟨p, h, by simp⟩, List.mem_flatMap.mpr ⟨p, h, by simp⟩⟩

theorem foldl_endPair_pair (k : Bool) (ps : List Pairing) (b : Block) : (ps.foldl (Block.endPair k) b).pair = b.pair :=
  foldl_keeps (P := fun x => x.pair = b.pair) (fun x p h => (endPair_pair k x p).trans h) ps b rfl

theorem bank_foldl_endPair (k : Bool) {ps : List Pairing} {j : Nat} (h : j ∉ pairBanks ps) (b : Block) :
    (ps.foldl (Block.endPair k) b).bank j = b.bank j := by
  induction ps generalizing b with
  | nil => rfl
  | cons q t ih =>
    simp only [pairBanks, List.flatMap_cons, List.mem_append, List.mem_cons, List.not_mem_nil, or_false, not_or] at h
    obtain ⟨⟨hs, hl⟩, ht⟩ := h
    rw [List.foldl_cons, ih ht, bank_endPair_ne k b hs hl]

/-- Pairs whose banks are all distinct end each as if it were alone (R245). -/
theorem foldl_endPair_ends (k : Bool) {ps : List Pairing} (hd : (pairBanks ps).Nodup) {b : Block}
    (hn : ∀ p ∈ ps, ((b.bank p.shadow).1.map Prod.fst).Nodup) : ∀ p ∈ ps, PairEnded k p b (ps.foldl (Block.endPair k) b) := by
  induction ps generalizing b with
  | nil => exact fun _ h => nomatch h
  | cons q t ih =>
    obtain ⟨hq, ht, hqt⟩ := List.nodup_append.mp (show ([q.shadow, q.live] ++ pairBanks t).Nodup from hd)
    have hne : q.shadow ≠ q.live := by simpa using hq
    have hout {j : Nat} (hj : j ∈ pairBanks t) : (b.endPair k q).bank j = b.bank j :=
      bank_endPair_ne k b (fun h => hqt _ (by simp) _ hj h.symm) (fun h => hqt _ (by simp) _ hj h.symm)
    intro p hp
    rw [List.foldl_cons]
    rcases List.mem_cons.mp hp with rfl | hp
    · exact (endPair_ends k hne (hn p List.mem_cons_self)).congr rfl rfl rfl
        (bank_foldl_endPair k (fun h => hqt _ (by simp) _ h rfl) _) (bank_foldl_endPair k (fun h => hqt _ (by simp) _ h rfl) _)
    · obtain ⟨hs, hl⟩ := mem_pairBanks hp
      refine (ih ht (fun x hx => ?_) p hp).congr (endPair_bw_length k b q).symm (hout hs).symm (hout hl).symm rfl rfl
      rw [hout (mem_pairBanks hx).1]
      exact hn x (List.mem_cons_of_mem q hx)

/-- SHCOMMIT and SHDROP end the pairs of their tag and no other (R245). -/
theorem unpair_pair (b : Block) (tag : Nat) (k : Bool) : (b.unpair tag k).pair = b.pair.filter fun p => p.tag != tag := by
  rw [unpair_eq, foldl_endPair_pair]

theorem bank_nodup {b : Block} (h : (b.acc.map Prod.fst).Nodup) (k : Nat) : ((b.bank k).1.map Prod.fst).Nodup :=
  h.sublist (List.filter_sublist.map Prod.fst)

end Sys2Proof.Machine
end

section
open Sys2Proof Sys2Proof.Machine

/-- Settles O40: each word by the batch or the entries it waits for; the pairs of a tag end one after another, each in its own two banks. -/
theorem matrixBatches : Obligations.MatrixBatches := by
  unfold Obligations.MatrixBatches
  intro s c n tag
  refine ⟨fun e he hout => ?_, fun e he ⟨hout, hdone⟩ => ?_,
    fun e he hdone => exec_mwait s c n e he (batchHolds_eq_false_iff.mpr hdone),
    fun i hi e he hnot => batch_words_wait s c n hi e he (Bool.of_not_eq_false fun h => hnot (batchHolds_eq_false_iff.mp h)),
    fun e => ⟨fun x hx hout => finishBatch_unbinds hout x hx, (finishBatch_warp e n.val).2⟩, ?_, ?_, fun e he => ?_, fun b k => ?_⟩
  · exact (exec_mcommit s c n e he (batchHolds_eq_false_iff.mpr (.inl hout))).trans
      (congrArg (fun f : WEnv => Host.Outcome.next (f.closeBatch n.val c)) (if_neg (Bool.eq_false_iff.mp hout)))
  · exact (exec_mcommit s c n e he (batchHolds_eq_false_iff.mpr hdone)).trans
      (congrArg (fun f : WEnv => Host.Outcome.next (f.closeBatch n.val c)) (if_pos hout))
  · refine seqIf_of_body rfl fun e h => if_neg ?_
    simpa only [List.any_eq_true, not_exists, not_and, Bool.not_eq_true, not_live_iff] using h
  · refine seqWaits_of_body rfl fun e ⟨x, hx, hnone⟩ => if_pos ?_
    exact List.any_eq_true.mpr ⟨x, hx, Option.isNone_iff_eq_none.mpr hnone⟩
  · exact seqDoes_of_body rfl (fun _ => rfl) e he
  · refine ⟨unpair_pair b tag.val k, fun hd hn => ⟨fun p hp => foldl_endPair_ends k hd (fun q _ => bank_nodup hn q.shadow) p hp,
      fun ix hix => ?_⟩⟩
    refine getAcc_congr (b := b) (b' := b.unpair tag.val k) (bank_foldl_endPair k (fun hmem => ?_) b)
    obtain ⟨p, hp, hbank⟩ := List.mem_flatMap.mp hmem
    obtain ⟨hs, hl⟩ := hix p hp
    simp [hs, hl] at hbank

end

section
/-!
PROOFS. How a product joins the matrix queue: the checks of MMA, MMA.A and MMA.S, and the elements that a register product updates (R233
to R240, R244).
-/
namespace Sys2Proof.Machine

-- What an updated element starts from (R235, R236).

/-- Entry `k` updates the element that register `reg` of thread `thr` holds: it is to, or it has. -/
def State.Updates (s : State) (thr reg k : Nat) : Prop := ∃ y m, s.entry k = some y ∧ y.matOf = some m ∧
  ((∃ z ∈ m.regs, z.thr = thr ∧ z.reg = reg) ∨ ∃ z ∈ m.out, z.1 = thr ∧ z.2.1 = reg)

/-- The test of the model for it. -/
def State.updates (s : State) (thr reg k : Nat) : Bool :=
  ((s.entry k).bind Entry.matOf).any fun m =>
    (m.regs.any fun x => x.thr == thr && x.reg == reg) || m.out.any fun x => x.1 == thr && x.2.1 == reg

theorem updates_iff {s : State} {thr reg k : Nat} : s.updates thr reg k = true ↔ s.Updates thr reg k := by
  rw [State.updates, Option.any_eq_true]
  constructor
  · rintro ⟨m, hm, hu⟩
    obtain ⟨y, hy, hform⟩ := Option.bind_eq_some_iff.mp hm
    exact ⟨y, m, hy, hform, by simpa using hu⟩
  · rintro ⟨y, m, hy, hform, hu⟩
    exact ⟨m, Option.bind_eq_some_iff.mpr ⟨y, hy, hform⟩, by simpa using hu⟩

theorem openResult_eq (s : State) (w : Warp) (thr reg : Nat) : openResult s w thr reg = w.openB.reverse.find? (s.updates thr reg) := by
  refine congrArg (fun p => List.find? p _) (funext fun k => ?_)
  cases h : (s.entry k).bind Entry.matOf <;> simp [State.updates, h]

/-- The latest entry of the open batch that updates an element gives it its value (R236). -/
theorem openResult_latest {s : State} {w : Warp} {thr reg k : Nat} {pre post : List Nat} (h : w.openB = pre ++ k :: post)
    (hk : s.Updates thr reg k) (hpost : ∀ j ∈ post, ¬s.Updates thr reg j) : openResult s w thr reg = some k := by
  rw [openResult_eq, List.find?_eq_some_iff_append]
  refine ⟨updates_iff.mpr hk, post.reverse, pre.reverse, by simp [h], fun j hj => ?_⟩
  simpa using updates_iff.not.mpr (hpost j (List.mem_reverse.mp hj))

theorem openResult_none {s : State} {w : Warp} {thr reg : Nat} (h : ∀ j ∈ w.openB, ¬s.Updates thr reg j) :
    openResult s w thr reg = none := by
  rw [openResult_eq, List.find?_eq_none]
  exact fun j hj => updates_iff.not.mpr (h j (List.mem_reverse.mp hj))

/-- What the open batch keeps of a register from before it bound it. -/
def Warp.before (w : Warp) (thr reg : Nat) : Word32 :=
  ((w.pre.find? fun x => x.1 == thr && x.2.1 == reg).map fun x => x.2.2).getD poison

theorem before_kept {w : Warp} {thr reg : Nat} {v : Word32} (h : (thr, reg, v) ∈ w.pre)
    (hv : ∀ z ∈ w.pre, z.1 = thr → z.2.1 = reg → z.2.2 = v) : w.before thr reg = v := by
  obtain ⟨z, hz⟩ := Option.isSome_iff_exists.mp (List.find?_isSome (p := fun x => x.1 == thr && x.2.1 == reg).mpr ⟨_, h, by simp⟩)
  obtain ⟨hthr, hreg⟩ : z.1 = thr ∧ z.2.1 = reg := by simpa using List.find?_some hz
  rw [Warp.before, hz]
  exact hv z (List.mem_of_find?_eq_some hz) hthr hreg

theorem before_lost {w : Warp} {thr reg : Nat} (h : ∀ z ∈ w.pre, ¬(z.1 = thr ∧ z.2.1 = reg)) : w.before thr reg = poison := by
  rw [Warp.before, List.find?_eq_none.mpr fun z hz => by simpa using h z hz]
  rfl

section
variable {e : WEnv} {l : Nat × Nat} {reg : Nat}

theorem accValue_start : accValue e true l reg = (0, none) := rfl

theorem accValue_unbound (h : ∀ y ∈ e.w.binds, y.1 ≠ reg) : accValue e false l reg = (readV e.b e.w l.2 reg, none) := by
  have hb : (e.w.binds.any fun x => x.1 == reg) = false := by simpa using h
  rw [accValue, hb]
  rfl

variable (h : ∃ y ∈ e.w.binds, y.1 = reg)
include h

theorem accValue_chained {k : Nat} (hk : openResult e.s e.w l.2 reg = some k) : accValue e false l reg = (0, some k) := by
  have hb : (e.w.binds.any fun x => x.1 == reg) = true := by simpa using h
  rw [accValue, hb, hk]
  rfl

theorem accValue_before (hk : openResult e.s e.w l.2 reg = none) : accValue e false l reg = (e.w.before l.2 reg, none) := by
  have hb : (e.w.binds.any fun x => x.1 == reg) = true := by simpa using h
  rw [accValue, hb, hk]
  rfl

end

-- The elements of a register product (R234).

/-- The cell of element (r, n) in the lane `l`. -/
def mmaCell (e : WEnv) (start : Bool) (md : MDesc) (base r : Nat) (l : Nat × Nat) (n : Nat) : MatReg :=
  let reg := base + r / 32 * md.n + n
  ⟨r, n, l.2, reg, (accValue e start l reg).1, (accValue e start l reg).2⟩

/-- The elements that MMA updates, row by row: a row whose slot has no effective lane has none. -/
def mmaCells (e : WEnv) (start : Bool) (md : MDesc) (base : Nat) : List MatReg :=
  if md.k = 0 ∧ !start then [] else (List.range md.m).flatMap fun r =>
    match e.eff.find? fun l => l.1 == r % 32 with
    | none => []
    | some l => (List.range md.n).map (mmaCell e start md base r l)

section
variable {e : WEnv} {start : Bool} {md : MDesc} {base : Nat}

theorem mmaCells_of_no_steps (hk : md.k = 0) (hs : start = false) : mmaCells e start md base = [] := if_pos ⟨hk, by simp [hs]⟩

theorem mem_mmaCells {x : MatReg} (h : x ∈ mmaCells e start md base) :
    ∃ r < md.m, ∃ n < md.n, ∃ l ∈ e.eff, l.1 = r % 32 ∧ x = mmaCell e start md base r l n := by
  unfold mmaCells at h
  split at h
  · cases h
  · obtain ⟨r, hr, hx⟩ := List.mem_flatMap.mp h
    split at hx
    · cases hx
    next l hl =>
      obtain ⟨n, hn, rfl⟩ := List.mem_map.mp hx
      exact ⟨r, List.mem_range.mp hr, n, List.mem_range.mp hn, l, List.mem_of_find?_eq_some hl, by simpa using List.find?_some hl, rfl⟩

theorem mmaCells_cover (h : md.k ≠ 0 ∨ start = true) {r n : Nat} (hr : r < md.m) (hn : n < md.n) (hl : ∃ l ∈ e.eff, l.1 = r % 32) :
    ∃ x ∈ mmaCells e start md base, x.r = r ∧ x.n = n := by
  obtain ⟨l, hl, hslot⟩ := hl
  obtain ⟨l', hfind⟩ := Option.isSome_iff_exists.mp
    (List.find?_isSome (p := fun l => l.1 == r % 32).mpr ⟨l, hl, by simpa using hslot⟩)
  have hne : ¬(md.k = 0 ∧ (!start) = true) := by
    rcases h with h | h
    · exact fun hk => h hk.1
    · simp [h]
  refine ⟨mmaCell e start md base r l' n, ?_, rfl, rfl⟩
  rw [mmaCells, if_neg hne]
  refine List.mem_flatMap.mpr ⟨r, List.mem_range.mpr hr, ?_⟩
  rw [hfind]
  exact List.mem_map_of_mem (List.mem_range.mpr hn)

end

/-- What is kept of the registers that an MMA newly binds: what each live lane reads (R236). -/
theorem mem_bindSnap {e : WEnv} {regs : List Nat} {t n : Nat} {v : Word32} : (t, n, v) ∈ bindSnap e regs ↔
    (∃ l ∈ liveLanes e.b e.w, l.2 = t) ∧ n ∈ regs ∧ (∀ y ∈ e.w.binds, y.1 ≠ n) ∧ v = readV e.b e.w t n := by
  have hnew : n ∈ (regs.filter fun n => !e.w.binds.any fun x => x.1 == n) ↔ n ∈ regs ∧ ∀ y ∈ e.w.binds, y.1 ≠ n := by simp
  simp only [bindSnap, List.mem_flatMap, List.mem_map]
  constructor
  · rintro ⟨l, hl, n', hn', hx⟩
    obtain ⟨rfl, rfl, rfl⟩ : l.2 = t ∧ n' = n ∧ readV e.b e.w l.2 n' = v := by simpa using hx
    obtain ⟨hreg, hb⟩ := hnew.mp hn'
    exact ⟨⟨l, hl, rfl⟩, hreg, hb, rfl⟩
  · rintro ⟨⟨l, hl, rfl⟩, hreg, hb, rfl⟩
    exact ⟨l, hl, n, hnew.mpr ⟨hreg, hb⟩, rfl⟩

-- The form's own checks (R237, R243, R244).

theorem bankFault_none {b : Block} {base n : Nat} (h : n = 0 ∨ base + n ≤ b.hold.acc) : bankFault b base n = none := if_pos h

/-- Banks that are held, in no batch of the warp and in no pair pass, where a slot is free (R237, R240, R243, R244). -/
theorem mmaAChecks_ok {s : State} {b : Block} {own : List Nat} {base o slot : Nat} {md : MDesc}
    (hheld : md.bankCount = 0 ∨ base + md.bankCount ≤ b.hold.acc)
    (hfree : ∀ k < md.bankCount, base + k ∉ own ∧ b.paired (base + k) = false) (hslot : matSlot s b md o = .ok slot) :
    mmaAChecks s b own base md o = .ok slot := by
  have hbank (k : Nat) (hk : k ∈ (List.range md.bankCount).map fun k => base + k) : k ∉ own ∧ b.paired k = false := by
    obtain ⟨j, hj, rfl⟩ := List.mem_map.mp hk
    exact hfree j (List.mem_range.mp hj)
  have hown := List.find?_eq_none.mpr fun k hk => (List.contains_iff_mem (a := k)).not.mpr (hbank k hk).1
  have hpair := List.find?_eq_none.mpr fun k hk => Bool.eq_false_iff.mp (hbank k hk).2
  unfold mmaAChecks
  dsimp only
  rw [bankFault_none hheld, hown]
  dsimp only
  rw [hpair]
  exact hslot

theorem seqBank_ok {e : SEnv} {o : Operand} {desc : Nat} (h : (srcSU e o).toNat < 64) : seqBank e o desc = .ok (srcSU e o).toNat :=
  if_neg (Nat.not_le.mpr h)

theorem seqBank_bad {e : SEnv} {o : Operand} {desc : Nat} (h : 64 ≤ (srcSU e o).toNat) : seqBank e o desc = flt fIllegal 0 desc :=
  if_pos h

/-- A footprint none of whose banks stands in a pair makes new pairs (R244). -/
theorem pairFault_none {ps : List Pairing} {tag l h : Nat}
    (hp : ∀ p ∈ ps, p.shadow ≠ h ∧ p.shadow ≠ l ∧ p.live ≠ l) : pairFault ps tag l h = none := by
  have hnone : (ps.find? fun p => p.shadow == h) = none := List.find?_eq_none.mpr fun p hm => by simpa using (hp p hm).1
  have hany : (ps.any fun p => p.shadow == l || p.live == l) = false := by simpa using fun p hm => (hp p hm).2
  rw [pairFault, hnone, hany]
  rfl

-- Products that pass their checks.

/-- The warp whose open batch takes entry `id`, which binds the registers `regs` (R236, R241). -/
def WEnv.bindEntry (e : WEnv) (regs : List Nat) (id : Nat) : WEnv := { e with w := { e.w with
  openB := e.w.openB ++ [id]
  binds := (e.w.binds.filter fun x => !regs.contains x.1) ++ regs.map fun n => (n, id)
  pre := e.w.pre ++ bindSnap e regs } }

/-- The registers of a register product's results (R234). -/
def mmaRegs (md : MDesc) (base : Nat) : List Nat := (List.range ((md.m + 31) / 32 * md.n)).map fun i => base + i

theorem bindRegs_mma (base : Nat) (start : Bool) (md : MDesc) (sa sb : List Nat) (slot : Nat) (cells : List MatReg) :
    (matEntry (.mma base) start md sa sb slot cells).bindRegs = mmaRegs md base := rfl

section
variable {s : State} {c : Ctl} {start : Bool} {d a : Operand} {md : MDesc} {sa sb : List Nat} {slot : Nat}

section
variable {e : WEnv} (hne : e.eff ≠ [])
include hne

theorem exec_mma (he : s.warpStart (.mma c start d a) c = some e) (hd : readMDesc e.s e.b e.w.aid true (firstV e a) = .ok (md, sa, sb))
    {base : Nat} (hbase : regOf e.b e.first.2 d = base) (hwin : base + (mmaRegs md base).length ≤ e.b.bnd)
    (hout : ∀ p ∈ liveLanes e.b e.w, ∀ n ∈ mmaRegs md base, Cell.v p.2 n ∉ e.s.outstanding e.b.id)
    (hschk : checksStall e.b e.w = false)
    (hopen : ∀ x ∈ e.w.binds, x.1 ∈ mmaRegs md base → e.w.committed x.2 = false)
    (hhome : ∀ p ∈ liveLanes e.b e.w, ∀ n ∈ mmaRegs md base, homeBinds e.b p.2 n = false)
    (hslot : matSlot e.s e.b md (firstV e a) = .ok slot) {id : Nat} {s1 : State}
    (hq : e.s.enqueueMat ⟨e.b, e.w.aid, e.w.k, e.w.pc⟩
      (matEntry (.mma base) start md sa sb slot (mmaCells e start md base)) = (id, s1)) :
    exec (.mma c start d a) s = .next (retireLater s1 (e.bindEntry (mmaRegs md base) id) (.mma c start d a) []) := by
  have hwait : (((liveLanes e.b e.w).map Prod.snd).any fun t => (mmaRegs md base).any fun n =>
      (e.s.outstanding e.b.id).contains (.v t n)) = false := by simpa using fun t l hl => hout (t, l) hl
  have hbound : (mmaRegs md base).find? (fun n => (e.w.binds.any fun x => x.1 == n && e.w.committed x.2) ||
      ((liveLanes e.b e.w).map Prod.snd).any fun t => homeBinds e.b t n) = none := by
    refine List.find?_eq_none.mpr fun n hn => ?_
    have h1 : (e.w.binds.any fun x => x.1 == n && e.w.committed x.2) = false := by
      refine List.any_eq_false.mpr fun x hx h => ?_
      obtain ⟨rfl, hc⟩ : x.1 = n ∧ e.w.committed x.2 = true := by simpa using h
      exact Bool.eq_false_iff.mp (hopen x hx hn) hc
    have h2 : (((liveLanes e.b e.w).map Prod.snd).any fun t => homeBinds e.b t n) = false := by
      simpa using fun t l hl => hhome (t, l) hl n hn
    simp [h1, h2]
  subst hbase
  refine Eq.trans rfl (issue_warp_ok he ?_)
  dsimp only
  rw [isEmpty_eq_false hne, hd]
  refine (if_neg (Nat.not_lt.mpr hwin)).trans ((if_neg (Bool.eq_false_iff.mp hwait)).trans ?_)
  rw [hschk, Bool.false_and, if_neg Bool.false_ne_true]
  dsimp only
  rw [bindRegs_mma, hbound]
  dsimp only
  rw [hslot]
  obtain ⟨rfl, rfl⟩ := Prod.mk.inj hq
  rfl

theorem exec_mmaA_warp (he : s.warpStart (.mmaA c start d a) c = some e)
    (hd : readMDesc e.s e.b e.w.aid false (firstV e a) = .ok (md, sa, sb))
    (hok : mmaAChecks e.s e.b (warpBanks e.s e.w false) (firstV e d) md (firstV e a) = .ok slot) {id : Nat} {s1 : State}
    (hq : e.s.enqueueMat ⟨e.b, e.w.aid, e.w.k, e.w.pc⟩ (matEntry (.mmaA (firstV e d)) start md sa sb slot []) = (id, s1)) :
    exec (.mmaA c start d a) s =
      .next (retire s1 { e with w := { e.w with openB := e.w.openB ++ [id] } } (.mmaA c start d a)) := by
  refine Eq.trans rfl (issue_warp_ok he ?_)
  dsimp only
  rw [isEmpty_eq_false hne, hd]
  dsimp only
  rw [hok]
  dsimp only
  rw [hq]
  rfl

end

/-- Where no lane acts, a product moves on and does nothing else (R233). -/
theorem products_idle {i : Instr} (hi : i = .mma c start d a ∨ i = .mmaA c start d a) :
    WarpIf s i c (fun e => e.eff = []) (fun e => retire e.s e i) := by
  rcases hi with rfl | rfl
  · exact warpIf_of_body rfl fun e he => if_pos (he ▸ rfl)
  · exact warpIf_of_body rfl fun e he => if_pos (he ▸ rfl)

variable {e : SEnv}

theorem exec_mmaA_seq (he : s.seqStart (.mmaA c start d a) c = some e) (hbase : (srcSU e d).toNat < 64)
    (hd : readMDesc e.s e.b e.q.aid false (srcSU e a).toNat = .ok (md, sa, sb))
    (hok : mmaAChecks e.s e.b [] (srcSU e d).toNat md (srcSU e a).toNat = .ok slot) {id : Nat} {s1 : State}
    (hq : e.s.enqueueMat ⟨e.b, e.q.aid, 63, e.q.pc⟩ (matEntry (.mmaA (srcSU e d).toNat) start md sa sb slot []) = (id, s1)) :
    exec (.mmaA c start d a) s = .next (({ e with s := s1 }).put e.q.advance) := by
  refine Eq.trans rfl (issue_seq_ok he ?_)
  dsimp only
  rw [hd]
  dsimp only
  rw [seqBank_ok hbase]
  dsimp only
  rw [hok]
  dsimp only
  rw [hq]

theorem exec_mmaS {tag : Fin 4} {b : Operand} {live shadow : Nat} (he : s.seqStart (.mmaS c start tag d a b) c = some e)
    (hlive : (srcSU e d).toNat = live) (hshadow : (srcSU e b).toNat = shadow) (hl : live < 64) (hs : shadow < 64)
    (hd : readMDesc e.s e.b e.q.aid false (srcSU e a).toNat = .ok (md, sa, sb))
    (hheld : md.bankCount = 0 ∨ live + md.bankCount ≤ e.b.hold.acc ∧ shadow + md.bankCount ≤ e.b.hold.acc ∧
      (shadow + md.bankCount ≤ live ∨ live + md.bankCount ≤ shadow))
    (hpairs : ∀ k < md.bankCount, ∀ p ∈ e.s.pairsOf e.b, p.shadow ≠ shadow + k ∧ p.shadow ≠ live + k ∧ p.live ≠ live + k)
    (hslot : matSlot e.s e.b md (srcSU e a).toNat = .ok slot) {id : Nat} {s1 : State}
    (hq : e.s.enqueueMat ⟨e.b, e.q.aid, 63, e.q.pc⟩ (matEntry (.mmaS tag.val live shadow) start md sa sb slot []) = (id, s1)) :
    exec (.mmaS c start tag d a b) s = .next (({ e with s := s1 }).put e.q.advance) := by
  have hlb : bankFault e.b live md.bankCount = none := bankFault_none (hheld.imp_right And.left)
  have hsb : bankFault e.b shadow md.bankCount = none := bankFault_none (hheld.imp_right fun h => h.2.1)
  have hapart : ¬(md.bankCount ≠ 0 ∧ live < shadow + md.bankCount ∧ shadow < live + md.bankCount) := by omega
  have hpair : (List.range md.bankCount).findSome? (fun k => pairFault (e.s.pairsOf e.b) tag.val (live + k) (shadow + k)) = none :=
    List.findSome?_eq_none_iff.mpr fun k hk => pairFault_none (hpairs k (List.mem_range.mp hk))
  subst hlive hshadow
  refine Eq.trans rfl (issue_seq_ok he ?_)
  dsimp only
  rw [hd]
  dsimp only
  rw [seqBank_ok hl, seqBank_ok hs]
  dsimp only
  rw [hlb, hsb]
  refine (if_neg hapart).trans ?_
  rw [hpair]
  dsimp only
  rw [hslot]
  dsimp only
  rw [hq]

/-- A bank number above 63 faults with the descriptor's offset (R233, R237, R247). -/
theorem seq_product_illegal {tag : Fin 4} {b : Operand} {i : Instr} (hi : i = .mmaS c start tag d a b ∨ i = .mmaA c start d a)
    (he : s.seqStart i c = some e) (hs : e.b.specOf e.q.aid = none)
    (hd : readMDesc e.s e.b e.q.aid false (srcSU e a).toNat = .ok (md, sa, sb))
    (hbank : 64 ≤ (srcSU e d).toNat ∨ i = .mmaS c start tag d a b ∧ 64 ≤ (srcSU e b).toNat) :
    exec i s = .next (takeTrap (e.s.dropFails e.b.die e.q.aid) e.b.id ⟨0x01, e.q.pc, (srcSU e a).toNat, 0, 0x3F, 0⟩) := by
  rcases hi with rfl | rfl
  · refine Eq.trans rfl (issue_seq_fault (x := ⟨fIllegal, (srcSU e a).toNat, 0, none⟩) he hs ?_)
    dsimp only
    rw [hd]
    dsimp only
    by_cases hlive : 64 ≤ (srcSU e d).toNat
    · rw [seqBank_bad hlive]
      rfl
    · rw [seqBank_ok (Nat.lt_of_not_le hlive), seqBank_bad (hbank.resolve_left hlive).2]
      rfl
  · refine Eq.trans rfl (issue_seq_fault (x := ⟨fIllegal, (srcSU e a).toNat, 0, none⟩) he hs ?_)
    dsimp only
    rw [hd]
    dsimp only
    rw [seqBank_bad (hbank.resolve_right nofun)]
    rfl

end

end Sys2Proof.Machine
end

section
open Sys2Proof Sys2Proof.Machine

/-- Settles O39: each form by the lemma of its checks that pass; a cell's value by where `accValue` takes it from. -/
theorem matrixIssue : Obligations.MatrixIssue := by
  unfold Obligations.MatrixIssue
  intro s c start tag d a b
  refine ⟨fun e md sa sb slot he hne hd hwin hout hschk hopen hhome hslot => ?_, fun b w c s regs t n v => mem_bindSnap,
    fun e md sa sb slot he hne hd hheld hfree hslot => ?_, fun e md sa sb slot he hbase hd hheld hfree hslot => ?_,
    fun e md sa sb slot he hl hs hd hheld hpairs hslot => ?_, fun i => products_idle,
    fun e md sa sb i hi he hs hd hbank => seq_product_illegal hi he hs hd hbank⟩
  · refine ⟨mmaCells e start md _, _, _, rfl, exec_mma hne he hd rfl hwin hout hschk hopen hhome hslot rfl, fun x hx => ?_,
      fun hk r hr n hn hl => mmaCells_cover hk hr hn hl, mmaCells_of_no_steps⟩
    obtain ⟨r, hr, n, hn, l, hl, hrow, rfl⟩ := mem_mmaCells hx
    refine ⟨hr, hn, rfl, ⟨l, hl, hrow, rfl⟩, ?_, ?_, ?_⟩
    · rintro rfl
      exact ⟨rfl, rfl⟩
    · rintro rfl hb
      have hv := accValue_unbound (l := l) hb
      exact ⟨congrArg Prod.fst hv, congrArg Prod.snd hv⟩
    · rintro rfl hb
      refine ⟨fun k pre post hopenB hk hpost =>
        congrArg Prod.snd (accValue_chained hb (openResult_latest hopenB hk hpost)), fun hnone => ?_⟩
      have hv := accValue_before (l := l) hb (openResult_none hnone)
      exact ⟨congrArg Prod.snd hv, fun v hmem hall => (congrArg Prod.fst hv).trans (before_kept hmem hall),
        fun hlost => (congrArg Prod.fst hv).trans (before_lost hlost)⟩
  · have hbanks (k : Nat) (hk : k < md.bankCount) := hfree (firstV e d + k) (List.mem_map_of_mem (List.mem_range.mpr hk))
    exact ⟨_, _, rfl, exec_mmaA_warp hne he hd (mmaAChecks_ok hheld hbanks hslot) rfl⟩
  · refine ⟨_, _, rfl, exec_mmaA_seq he hbase hd (mmaAChecks_ok hheld (fun k hk => ⟨List.not_mem_nil, ?_⟩) hslot) rfl⟩
    exact hfree _ (Nat.le_add_right _ _) (Nat.add_lt_add_left hk _)
  · exact ⟨_, _, rfl, exec_mmaS he rfl rfl hl hs hd hheld hpairs hslot rfl⟩

end
